-- ==== Sys2Proof/Word.lean ====
section
/-! DEFINITION. The word types and the sparse map type; plain data, no operation that a spec rule gives. -/
namespace Sys2Proof

/-- A 64-bit register word. -/
abbrev Word := BitVec 64

/-- A byte of memory (00 R5). -/
abbrev Byte := BitVec 8

/-- A sparse map: keys strictly rising, an entry equal to the default is not listed. -/
abbrev SMap (α : Type) := List (Nat × α)

end Sys2Proof
end

