-- ==== Sys2Proof/Syntax.lean ====
section
/-!
DEFINITION. The syntax: one constructor of Instr for every row of the opcode table.
Rows without an encoding are hardware and host events: their arguments are what the outside chooses
(which unit, which entry, whether a check passed).  Register operands are register numbers, immediates
are the encoded bits, codes are names.
-/
namespace Sys2Proof

/-- Scalar register number. -/
abbrev XR := Fin 32
/-- Vector register number. -/
abbrev VR := Fin 32
/-- Predicate register number. -/
abbrev PR := Fin 16

/-- Scopes (R3). -/
inductive Scope | core | dev | fabric | pool
deriving DecidableEq, Repr

/-- Element widths (R92). -/
inductive Ew | e4 | e8 | e16 | e32 | e64
deriving DecidableEq, Repr

/-- Tags (R157), in code order 0x00 to 0x14. -/
inductive Tag
  | z8 | z16 | z32 | z64 | s8 | s16 | s32 | s64 | s4 | f16 | bf16 | f32 | f64
  | e5m2 | e4m3 | e3m2 | e2m3 | e2m1 | e4m3x | e2m1x | e8m0
deriving DecidableEq, Repr

/-- Size codes of loads (R244). -/
inductive LdSize | b8 | b16 | b32 | b64 | z8 | z16 | z32
deriving DecidableEq, Repr

/-- Size codes of stores (R244). -/
inductive StSize | b8 | b16 | b32 | b64
deriving DecidableEq, Repr

/-- Conditions of vcmp (R246). -/
inductive Cond | eq | ne | lt | le | gt | ge | un
deriving DecidableEq, Repr

/-- Scan operations (R300). -/
inductive ScanOp | add | min | max | or
deriving DecidableEq, Repr

/-- Vector atomic operations (R321). -/
inductive VamoOp | add | and | or | xor | min | max | swap
deriving DecidableEq, Repr

/-- Modes of vector memory instructions (R247). -/
inductive VMode | plain | oe | sc | ff
deriving DecidableEq, Repr

/-- Hints (R128). -/
inductive Hint | none | keep | stream | bypass
deriving DecidableEq, Repr

/-- Access kinds (R314). -/
inductive VKind | unit | strided | indexed | segment
deriving DecidableEq, Repr

/-- A tile operand: t0 to t3, or the joined view (R334). -/
inductive TileRef | t0 | t1 | t2 | t3 | joined
deriving DecidableEq, Repr

/-- The 32-bit instructions that have an extended form (R250, R308). -/
inductive EvOp
  | vadd | vsub | vmul | vmin | vmax | vand | vor | vxor
  | vfma | vfms | vfnma | vmacw | unary | vsel | vsplat | vid | vshl | vshr
  | vcmp (n : Cond)
  | vredsum | vredsumOrd | vredmin | vredmax | vredand | vredor
  | vscan (o : ScanOp) | vscanSeg (o : ScanOp)
  | vraise | vlower | vperm | vrev | vzip | vunzip | vsqueeze | vspread | vrank
  | vconf | vpart | vcuti | vcutx | vlast | vfirst
  | vcvt | vnarrow | vwiden
  | pand | por | pxor | pnot | pandn | pafter | pset | pclr | pcnt | pfirst
deriving DecidableEq, Repr

/-- A coherence holder: a control core, 64 die + its number on the die, a die taken as a whole, or a device of the
fabric (R33, R39, R42). -/
inductive Holder | cc (n : Nat) | die (q : Nat) | dev (d : Nat)
deriving DecidableEq, Repr

/-- The links a flit error can meet (R26). -/
inductive LinkKind | host | pool | mbawyn
deriving DecidableEq, Repr

/-- SPDM requests (R65); a measurement or algorithm request says whether it names P-521 with SHA-512. -/
inductive SpdmReq | getVersion | getCapabilities | negotiate (p521 : Bool) | getCertificate | measure | other
deriving DecidableEq, Repr

/-- The places of a write on its path (R131): a hart's store buffer, a core queue, the device queue,
the fabric queue. -/
inductive Place | sb (hid : Nat) | core (c : Nat) | device | fabric
deriving DecidableEq, Repr

/-- The instruction set and the machine's events: one constructor per row of the opcode table. -/
inductive Instr
  | deviceReset (sigOk : Bool) (version : Nat) (digest : BitVec 512)  -- DEVICE_RESET (R29)
  | hostLinkTrain (rate width : Nat)  -- HOST_LINK_TRAIN (R16)
  | fabricIdAssign (dev : Nat)  -- FABRIC_ID_ASSIGN (R19)
  | flitCrcError (kind : LinkKind) (n replays : Nat)  -- FLIT_CRC_ERROR (R26)
  | mbawynLaneSpare (n : Nat)  -- MBAWYN_LANE_SPARE (R23)
  | linkRetrainDone (n : Nat)  -- LINK_RETRAIN_DONE (R23)
  | linkRetire (n : Nat)  -- LINK_RETIRE (R42)
  | filterEntryFree (frame : Nat)  -- FILTER_ENTRY_FREE (R42)
  | filterProbeTimeout (dev : Nat)  -- FILTER_PROBE_TIMEOUT (R43)
  | deviceFenced  -- DEVICE_FENCED (R44)
  | fenceCleared  -- FENCE_CLEARED (R44)
  | hbmChannelRetrain (die ch : Nat)  -- HBM_CHANNEL_RETRAIN (R23)
  | hbmRetrainDone (die ch : Nat)  -- HBM_RETRAIN_DONE (R23)
  | coreFail (core : Nat)  -- CORE_FAIL (R23)
  | coreQuiesce (core : Nat)  -- CORE_QUIESCE (R24)
  | poolPortDown (port : Nat)  -- POOL_PORT_DOWN (R47)
  | poolRerouteDone (port via : Nat)  -- POOL_REROUTE_DONE (R23)
  | rerouteTimeout (port : Nat)  -- REROUTE_TIMEOUT (R47)
  | poolPathReturn (port : Nat)  -- POOL_PATH_RETURN (R47)
  | reattachCheckDone (region : Nat) (ok : Bool)  -- REATTACH_CHECK_DONE (R47)
  | quarantineWritebackDone (region : Nat)  -- QUARANTINE_WRITEBACK_DONE (R47)
  | graceExpiry (port : Nat)  -- GRACE_EXPIRY (R47)
  | bisnp (region first count : Nat) (inv : Bool)  -- BISNP (R45)
  | poolWriteAck (entry : Nat)  -- POOL_WRITE_ACK (R45)
  | dynamicCapacityRelease (region : Nat)  -- DYNAMIC_CAPACITY_RELEASE (R46)
  | attestationRequest (req : SpdmReq) (nonce : BitVec 512)  -- ATTESTATION_REQUEST (R65)
  | gets (h : Holder) (frame first last : Nat)  -- GETS (R36)
  | geto (h : Holder) (frame first last : Nat)  -- GETO (R36)
  | upg (h : Holder) (frame first last : Nat)  -- UPG (R36)
  | putd (h : Holder) (frame : Nat) (keep : Bool)  -- PUTD (R35)
  | pinv (h : Holder) (frame : Nat)  -- PINV (R35)
  | pdwn (h : Holder) (frame : Nat)  -- PDWN (R35)
  | data (h : Holder) (frame : Nat)  -- DATA (R35)
  | grant (h : Holder) (frame : Nat)  -- GRANT (R35)
  | ack (h : Holder) (frame : Nat)  -- ACK (R35)
  | absent (h : Holder) (frame : Nat)  -- ABSENT (R35)
  | probeTimeout (hid frame : Nat)  -- PROBE_TIMEOUT (R37)
  | controlTimeout (hid : Nat)  -- CONTROL_TIMEOUT (R26)
  | patrolScrub (loc : Nat) (bad : Bool)  -- PATROL_SCRUB (R26)
  | roustaboutWriteback (die frame : Nat)  -- ROUSTABOUT_WRITEBACK (R40)
  | powerCapUpdate (die cap : Nat)  -- POWER_CAP_UPDATE (R83)
  | gatingMarkTimeout (slot id : Nat)  -- GATING_MARK_TIMEOUT (R83)
  | l2WayGate (die group : Nat)  -- L2_WAY_GATE (R125)
  | scratchpadGate (core : Nat)  -- SCRATCHPAD_GATE (R126)
  | wakeComplete (l2 : Bool) (unit group : Nat)  -- WAKE_COMPLETE (R127)
  | gangPlacement (core : Nat)  -- GANG_PLACEMENT (R75)
  | gangReserve (die : Nat)  -- GANG_RESERVE (R76)
  | workSteal (core : Nat)  -- WORK_STEAL (R74)
  | arrivalPreemption (slot id : Nat)  -- ARRIVAL_PREEMPTION (R86)
  | timeSliceExpiry (slot id : Nat)  -- TIME_SLICE_EXPIRY (R86)
  | preemption (slot id : Nat)  -- PREEMPTION (R86)
  | rePlacement (core : Nat)  -- RE_PLACEMENT (R196)
  | pendingTableFit (slot id : Nat)  -- PENDING_TABLE_FIT (R374)
  | interruptDelivery (hid : Nat) (sub : Nat)  -- INTERRUPT_DELIVERY (R185)
  | deferredFaultRaise (hid : Nat)  -- DEFERRED_FAULT_RAISE (R191)
  | registerSpill (hid reg : Nat)  -- REGISTER_SPILL (R106)
  | memoryRead (hid item : Nat)  -- MEMORY_READ (R132)
  | drain (place : Place) (k : Nat)  -- DRAIN (R135)
  | ticket (hid : Nat)  -- TICKET (R141)
  | engineChunk (queue entry chunk : Nat)  -- ENGINE_CHUNK (R142)
  | stripLand (hid item : Nat)  -- STRIP_LAND (R146)
  | engineMigRetry (queue entry : Nat)  -- ENGINE_MIG_RETRY (R64)
  | waitTimeout (hid : Nat)  -- WAIT_TIMEOUT (R270)
  | pcSample (slot core : Nat)  -- PC_SAMPLE (R208)
  | lqdbDoorbell (n : Nat) (v : Word)  -- LQDB_DOORBELL (R51)
  | lqbaseWrite (n : Nat) (v : Word)  -- LQBASE_WRITE (R50)
  | lqctlEnable (n : Nat) (v : Word)  -- LQCTL_ENABLE (R50)
  | lqctlRst (n : Nat) (v : Word)  -- LQCTL_RST (R54)
  | packetFetch (n : Nat)  -- PACKET_FETCH (R52)
  | waitPacketComplete (n : Nat)  -- WAIT_PACKET_COMPLETE (R69)
  | counterFreeze (n : Nat)  -- COUNTER_FREEZE (R204)
  | fenceRelease (n : Nat)  -- FENCE_RELEASE (R53)
  | ctxdropUnbind (n : Nat)  -- CTXDROP_UNBIND (R56)
  | pregionAttach (n : Nat) (v : Word)  -- PREGION_ATTACH (R46)
  | identityCheckDone (region : Nat) (ok : Bool)  -- IDENTITY_CHECK_DONE (R46)
  | identityCheckAbandon (region : Nat)  -- IDENTITY_CHECK_ABANDON (R46)
  | pregionFree (n : Nat) (v : Word)  -- PREGION_FREE (R46)
  | fabstRejoin  -- FABST_REJOIN (R44)
  | swint (v : Word)  -- SWINT (R199)
  | tsctlWrite (n : Nat) (v : Word)  -- TSCTL_WRITE (R122)
  | tspartWrite (n : Nat) (v : Word)  -- TSPART_WRITE (R365)
  | debugSetWrite (off : Nat) (v : Word)  -- DEBUG_SET_WRITE (R205)
  | dbghartHalt (v : Word)  -- DBGHART_HALT (R212)
  | dbgdatRead  -- DBGDAT_READ (R212)
  | dbgdatWrite (v : Word)  -- DBGDAT_WRITE (R213)
  | trctlWrite (n : Nat) (v : Word)  -- TRCTL_WRITE (R209)
  | hubRegisterWrite (off size : Nat) (v : Word) (host : Bool)  -- HUB_REGISTER_WRITE (R22)
  | xinvComplete (hid : Nat)  -- XINV_COMPLETE (R63)
  | cAdd (d b : XR)  -- C_ADD (R237)
  | cSub (d b : XR)  -- C_SUB (R237)
  | cAnd (d b : XR)  -- C_AND (R237)
  | cOr (d b : XR)  -- C_OR (R237)
  | cXor (d b : XR)  -- C_XOR (R237)
  | cMv (d b : XR)  -- C_MV (R237)
  | cJlr (d b : XR)  -- C_JLR (R237)
  | cAddi (d : XR) (i : BitVec 5)  -- C_ADDI (R237)
  | cAddiX0 (d : XR) (i : BitVec 5)  -- C_ADDI_X0 (R237)
  | cShli (d : XR) (i : BitVec 5)  -- C_SHLI (R237)
  | cShri (d : XR) (i : BitVec 5)  -- C_SHRI (R237)
  | cSari (d : XR) (i : BitVec 5)  -- C_SARI (R237)
  | cAndi (d : XR) (i : BitVec 5)  -- C_ANDI (R237)
  | cLd64 (d a : XR) (o : BitVec 3)  -- C_LD64 (R237)
  | cSt64 (s a : XR) (o : BitVec 3)  -- C_ST64 (R237)
  | cBeq (a : XR) (o : BitVec 7)  -- C_BEQ (R237)
  | cBne (a : XR) (o : BitVec 7)  -- C_BNE (R237)
  | cJ (o : BitVec 13)  -- C_J (R237)
  | cNop  -- C_NOP (R238)
  | add (d a b : XR)  -- ADD (R257)
  | sub (d a b : XR)  -- SUB (R257)
  | and (d a b : XR)  -- AND (R257)
  | or (d a b : XR)  -- OR (R257)
  | xor (d a b : XR)  -- XOR (R257)
  | shl (d a b : XR)  -- SHL (R257)
  | shr (d a b : XR)  -- SHR (R257)
  | sar (d a b : XR)  -- SAR (R257)
  | slt (d a b : XR)  -- SLT (R257)
  | sltn (d a b : XR)  -- SLTN (R257)
  | mul (d a b : XR)  -- MUL (R257)
  | mulh (d a b : XR)  -- MULH (R257)
  | mulhn (d a b : XR)  -- MULHN (R257)
  | div (d a b : XR)  -- DIV (R257)
  | divn (d a b : XR)  -- DIVN (R257)
  | rem (d a b : XR)  -- REM (R257)
  | remn (d a b : XR)  -- REMN (R257)
  | min (d a b : XR)  -- MIN (R257)
  | max (d a b : XR)  -- MAX (R257)
  | minn (d a b : XR)  -- MINN (R257)
  | maxn (d a b : XR)  -- MAXN (R257)
  | clz (d a : XR)  -- CLZ (R257)
  | ctz (d a : XR)  -- CTZ (R257)
  | popc (d a : XR)  -- POPC (R257)
  | pcrel (d : XR) (i : BitVec 19)  -- PCREL (R259)
  | imhi (d : XR) (i : BitVec 19)  -- IMHI (R259)
  | addi (d a : XR) (i : BitVec 11)  -- ADDI (R258)
  | andi (d a : XR) (i : BitVec 11)  -- ANDI (R258)
  | ori (d a : XR) (i : BitVec 11)  -- ORI (R258)
  | xori (d a : XR) (i : BitVec 11)  -- XORI (R258)
  | slti (d a : XR) (i : BitVec 11)  -- SLTI (R258)
  | shli (d a : XR) (i : BitVec 6)  -- SHLI (R258)
  | shri (d a : XR) (i : BitVec 6)  -- SHRI (R258)
  | sari (d a : XR) (i : BitVec 6)  -- SARI (R258)
  | ld8 (d a : XR) (i : BitVec 11)  -- LD8 (R260)
  | ld16 (d a : XR) (i : BitVec 11)  -- LD16 (R260)
  | ld32 (d a : XR) (i : BitVec 11)  -- LD32 (R260)
  | ld64 (d a : XR) (i : BitVec 11)  -- LD64 (R260)
  | ld8z (d a : XR) (i : BitVec 11)  -- LD8Z (R260)
  | ld16z (d a : XR) (i : BitVec 11)  -- LD16Z (R260)
  | ld32z (d a : XR) (i : BitVec 11)  -- LD32Z (R260)
  | ldAcq (d a : XR) (s : Scope) (z : LdSize) (o : BitVec 6)  -- LD_ACQ (R261)
  | st8 (s a : XR) (i : BitVec 11)  -- ST8 (R260)
  | st16 (s a : XR) (i : BitVec 11)  -- ST16 (R260)
  | st32 (s a : XR) (i : BitVec 11)  -- ST32 (R260)
  | st64 (s a : XR) (i : BitVec 11)  -- ST64 (R260)
  | stRel (t a : XR) (s : Scope) (z : StSize) (o : BitVec 6)  -- ST_REL (R261)
  | beq (a b : XR) (o : BitVec 11)  -- BEQ (R262)
  | bne (a b : XR) (o : BitVec 11)  -- BNE (R262)
  | blt (a b : XR) (o : BitVec 11)  -- BLT (R262)
  | bge (a b : XR) (o : BitVec 11)  -- BGE (R262)
  | bltn (a b : XR) (o : BitVec 11)  -- BLTN (R262)
  | bgen (a b : XR) (o : BitVec 11)  -- BGEN (R262)
  | jl (l : XR) (o : BitVec 19)  -- JL (R263)
  | jlr (l a : XR) (i : BitVec 11)  -- JLR (R263)
  | amoAdd (d a b : XR) (w q r : Bool) (s : Scope)  -- AMO_ADD (R267)
  | amoAnd (d a b : XR) (w q r : Bool) (s : Scope)  -- AMO_AND (R267)
  | amoOr (d a b : XR) (w q r : Bool) (s : Scope)  -- AMO_OR (R267)
  | amoXor (d a b : XR) (w q r : Bool) (s : Scope)  -- AMO_XOR (R267)
  | amoMin (d a b : XR) (w n q r : Bool) (s : Scope)  -- AMO_MIN (R267)
  | amoMax (d a b : XR) (w n q r : Bool) (s : Scope)  -- AMO_MAX (R267)
  | amoSwap (d a b : XR) (w q r : Bool) (s : Scope)  -- AMO_SWAP (R267)
  | amoCas (d a b : XR) (w q r : Bool) (s : Scope)  -- AMO_CAS (R267)
  | fadd (d a b : XR) (t : Tag)  -- FADD (R264)
  | fsub (d a b : XR) (t : Tag)  -- FSUB (R264)
  | fmul (d a b : XR) (t : Tag)  -- FMUL (R264)
  | fdiv (d a b : XR) (t : Tag)  -- FDIV (R264)
  | fsqrt (d a : XR) (t : Tag)  -- FSQRT (R264)
  | fma (d a b : XR) (t : Tag)  -- FMA (R264)
  | fmin (d a b : XR) (t : Tag)  -- FMIN (R264)
  | fmax (d a b : XR) (t : Tag)  -- FMAX (R264)
  | fcmpEq (d a b : XR) (t : Tag)  -- FCMP_EQ (R264)
  | fcmpLt (d a b : XR) (t : Tag)  -- FCMP_LT (R264)
  | fcmpLe (d a b : XR) (t : Tag)  -- FCMP_LE (R264)
  | fcmpUn (d a b : XR) (t : Tag)  -- FCMP_UN (R264)
  | fcvt (d a : XR) (f t : Tag)  -- FCVT (R265)
  | fclass (d a : XR) (t : Tag)  -- FCLASS (R266)
  | nop  -- NOP (R238)
  | trap (i : BitVec 19)  -- TRAP (R269)
  | eret  -- ERET (R188)
  | wait (a : XR)  -- WAIT (R270)
  | fenceAcq (s : Scope)  -- FENCE_ACQ (R138)
  | fenceRel (e : Bool) (s : Scope)  -- FENCE_REL (R138)
  | fenceRw (e : Bool) (s : Scope)  -- FENCE_RW (R138)
  | xinv (a b : XR)  -- XINV (R273)
  | xinvAll  -- XINV_ALL (R273)
  | cacheopWb (a : XR)  -- CACHEOP_WB (R274)
  | cacheopWbinv (a : XR)  -- CACHEOP_WBINV (R274)
  | cacheopInv (a : XR)  -- CACHEOP_INV (R274)
  | cacheopIfetch  -- CACHEOP_IFETCH (R274)
  | brk  -- BRK (R269)
  | halt  -- HALT (R271)
  | mrd (d : XR) (m : BitVec 12)  -- MRD (R275)
  | mwr (a : XR) (m : BitVec 12)  -- MWR (R275)
  | setvl (d a : XR) (w : Ew)  -- SETVL (R277)
  | setvlG (d a : XR) (w : Ew)  -- SETVL_G (R278)
  | vloop (l c : XR) (w : Ew) (e : BitVec 8)  -- VLOOP (R94)
  | vloopPar (l c : XR) (w : Ew) (e : BitVec 8)  -- VLOOP_PAR (R96)
  | vloopLong (par : Bool) (l c : XR) (w : Ew) (e : BitVec 14)  -- VLOOP_LONG (R279)
  | vend (a : XR)  -- VEND (R94)
  | vtag (d : VR) (t : Tag)  -- VTAG (R281)
  | vadd (d a b : VR) (p : PR) (c k : Bool)  -- VADD (R283)
  | vsub (d a b : VR) (p : PR) (c k : Bool)  -- VSUB (R283)
  | vmul (d a b : VR) (p : PR) (c k : Bool)  -- VMUL (R283)
  | vmin (d a b : VR) (p : PR) (c k : Bool)  -- VMIN (R283)
  | vmax (d a b : VR) (p : PR) (c k : Bool)  -- VMAX (R283)
  | vand (d a b : VR) (p : PR) (c k : Bool)  -- VAND (R283)
  | vor (d a b : VR) (p : PR) (c k : Bool)  -- VOR (R283)
  | vxor (d a b : VR) (p : PR) (c k : Bool)  -- VXOR (R283)
  | vaddVx (d a : VR) (x : XR) (p : PR) (c : Bool)  -- VADD_VX (R283)
  | vsubVx (d a : VR) (x : XR) (p : PR) (c : Bool)  -- VSUB_VX (R283)
  | vmulVx (d a : VR) (x : XR) (p : PR) (c : Bool)  -- VMUL_VX (R283)
  | vminVx (d a : VR) (x : XR) (p : PR) (c : Bool)  -- VMIN_VX (R283)
  | vmaxVx (d a : VR) (x : XR) (p : PR) (c : Bool)  -- VMAX_VX (R283)
  | vandVx (d a : VR) (x : XR) (p : PR) (c : Bool)  -- VAND_VX (R283)
  | vorVx (d a : VR) (x : XR) (p : PR) (c : Bool)  -- VOR_VX (R283)
  | vxorVx (d a : VR) (x : XR) (p : PR) (c : Bool)  -- VXOR_VX (R283)
  | vfma (d a b : VR) (p : PR) (c k : Bool)  -- VFMA (R285)
  | vfms (d a b : VR) (p : PR) (c k : Bool)  -- VFMS (R285)
  | vfnma (d a b : VR) (p : PR) (c k : Bool)  -- VFNMA (R285)
  | vmacw (d a b : VR) (p : PR) (c k : Bool)  -- VMACW (R285)
  | vfmaVx (d a : VR) (x : XR) (p : PR) (c : Bool)  -- VFMA_VX (R285)
  | vfmsVx (d a : VR) (x : XR) (p : PR) (c : Bool)  -- VFMS_VX (R285)
  | vfnmaVx (d a : VR) (x : XR) (p : PR) (c : Bool)  -- VFNMA_VX (R285)
  | vmacwVx (d a : VR) (x : XR) (p : PR) (c : Bool)  -- VMACW_VX (R285)
  | vneg (d a : VR) (p : PR) (c : Bool)  -- VNEG (R286)
  | vabs (d a : VR) (p : PR) (c : Bool)  -- VABS (R286)
  | vsqrt (d a : VR) (p : PR) (c : Bool)  -- VSQRT (R286)
  | vrcp (d a : VR) (p : PR) (c : Bool)  -- VRCP (R286)
  | vrsqrt (d a : VR) (p : PR) (c : Bool)  -- VRSQRT (R286)
  | vexp2 (d a : VR) (p : PR) (c : Bool)  -- VEXP2 (R286)
  | vclz (d a : VR) (p : PR) (c : Bool)  -- VCLZ (R286)
  | vpopc (d a : VR) (p : PR) (c : Bool)  -- VPOPC (R286)
  | vclass (d a : VR) (p : PR) (c : Bool)  -- VCLASS (R286)
  | vmv (d a : VR) (p : PR) (c : Bool)  -- VMV (R286)
  | vsel (d a b : VR) (p : PR) (c k : Bool)  -- VSEL (R287)
  | vsplat (d : VR) (x : XR) (p : PR)  -- VSPLAT (R287)
  | vid (d : VR) (p : PR)  -- VID (R287)
  | vshl (d a b : VR) (p : PR) (c k : Bool)  -- VSHL (R284)
  | vshr (d a b : VR) (p : PR) (c k : Bool)  -- VSHR (R284)
  | vshlVx (d a : VR) (x : XR) (p : PR) (c : Bool)  -- VSHL_VX (R284)
  | vshrVx (d a : VR) (x : XR) (p : PR) (c : Bool)  -- VSHR_VX (R284)
  | vcmp (q : PR) (a b : VR) (m : PR) (c k : Bool) (n : Cond)  -- VCMP (R288)
  | vcmpVx (q : PR) (a : VR) (x : XR) (m : PR) (c : Bool) (n : Cond)  -- VCMP_VX (R288)
  | vredsum (d a b : VR) (p : PR) (c k : Bool)  -- VREDSUM (R170)
  | vredsumOrd (d a b : VR) (p : PR) (c k : Bool)  -- VREDSUM_ORD (R289)
  | vredmin (d a b : VR) (p : PR) (c k : Bool)  -- VREDMIN (R289)
  | vredmax (d a b : VR) (p : PR) (c k : Bool)  -- VREDMAX (R289)
  | vredand (d a b : VR) (p : PR) (c k : Bool)  -- VREDAND (R289)
  | vredor (d a b : VR) (p : PR) (c k : Bool)  -- VREDOR (R289)
  | vscan (d a : VR) (p : PR) (c : Bool) (o : ScanOp)  -- VSCAN (R300)
  | vscanSeg (d a : VR) (s p : PR) (c : Bool) (o : ScanOp)  -- VSCAN_SEG (R300)
  | vraise (d a : VR) (x : XR) (p : PR) (c : Bool)  -- VRAISE (R298)
  | vlower (d a : VR) (x : XR) (p : PR) (c : Bool)  -- VLOWER (R298)
  | vperm (d a b : VR) (p : PR) (c k : Bool)  -- VPERM (R298)
  | vrev (d a : VR) (p : PR) (c : Bool)  -- VREV (R298)
  | vzip (d a b : VR) (p : PR) (c k : Bool)  -- VZIP (R298)
  | vunzip (d a b : VR) (p : PR) (c k : Bool)  -- VUNZIP (R298)
  | vsqueeze (d a : VR) (p : PR) (c : Bool)  -- VSQUEEZE (R299)
  | vspread (d a : VR) (p : PR) (c : Bool)  -- VSPREAD (R299)
  | vrank (d : VR) (p : PR)  -- VRANK (R299)
  | vconf (d a : VR) (p : PR) (c : Bool)  -- VCONF (R301)
  | vpart (q : PR) (a : VR) (s : PR) (c : Bool)  -- VPART (R302)
  | vcuti (q r m : PR)  -- VCUTI (R304)
  | vcutx (q r m : PR)  -- VCUTX (R304)
  | vlast (d : XR) (a : VR) (p : PR) (c : Bool)  -- VLAST (R305)
  | vfirst (d : XR) (a : VR) (p : PR) (c : Bool)  -- VFIRST (R305)
  | vcvt (d a : VR) (t : Tag) (p : PR) (c : Bool)  -- VCVT (R290)
  | vnarrow (d a : VR) (x : XR) (p : PR) (c : Bool)  -- VNARROW (R291)
  | vwiden (d a : VR) (p : PR) (c : Bool)  -- VWIDEN (R292)
  | evExtended (op : EvOp) (d a b c : Fin 32) (p : PR) (ca cb cc sb : Bool)  -- EV_EXTENDED (R250)
  | vmulh (d a b : Fin 32) (p : PR) (ca cb sb : Bool)  -- VMULH (R283)
  | vdiv (d a b : Fin 32) (p : PR) (ca cb sb : Bool)  -- VDIV (R283)
  | vrem (d a b : Fin 32) (p : PR) (ca cb sb : Bool)  -- VREM (R283)
  | vsadd (d a b : Fin 32) (p : PR) (ca cb sb : Bool)  -- VSADD (R283)
  | vssub (d a b : Fin 32) (p : PR) (ca cb sb : Bool)  -- VSSUB (R283)
  | vavg (d a b : Fin 32) (p : PR) (ca cb sb : Bool)  -- VAVG (R283)
  | vabsd (d a b : Fin 32) (p : PR) (ca cb sb : Bool)  -- VABSD (R283)
  | vmulhr (d a b : Fin 32) (p : PR) (ca cb sb : Bool)  -- VMULHR (R283)
  | vqnt (d s a : VR) (t : Tag) (p : PR) (ca : Bool)  -- VQNT (R294)
  | vqnte (d s a : VR) (t : Tag) (e : Fin 8) (th l : XR) (p : PR) (ca : Bool)  -- VQNTE (R295)
  | vdqnt (d a s : VR) (t : Tag) (l : XR) (p : PR) (ca cb : Bool)  -- VDQNT (R296)
  | vgathw (d w i : VR) (x : XR) (o p : PR) (cb : Bool)  -- VGATHW (R320)
  | vld (v : VR) (b : XR) (p : PR) (m : VMode) (h : Hint)  -- VLD (R314)
  | vlds (v : VR) (b s : XR) (p : PR) (m : VMode) (h : Hint)  -- VLDS (R314)
  | vldx (v : VR) (b : XR) (i : VR) (p : PR) (m : VMode) (h : Hint)  -- VLDX (R314)
  | vldseg (v : VR) (b : XR) (n : Fin 8) (p : PR) (m : VMode) (h : Hint)  -- VLDSEG (R314)
  | vst (v : VR) (b : XR) (p : PR) (m : VMode) (h : Hint)  -- VST (R315)
  | vsts (v : VR) (b s : XR) (p : PR) (m : VMode) (h : Hint)  -- VSTS (R315)
  | vstx (v : VR) (b : XR) (i : VR) (p : PR) (m : VMode) (h : Hint)  -- VSTX (R315)
  | vstseg (v : VR) (b : XR) (n : Fin 8) (p : PR) (m : VMode) (h : Hint)  -- VSTSEG (R315)
  | vldLong (v : VR) (b : XR) (x : Fin 32) (k : VKind) (m : VMode) (h : Hint) (o : Bool) (s : Scope) (n : Fin 8) (p : PR) (cb : Bool)  -- VLD_LONG (R317)
  | vstLong (v : VR) (b : XR) (x : Fin 32) (k : VKind) (m : VMode) (h : Hint) (o : Bool) (s : Scope) (n : Fin 8) (p : PR) (cb : Bool)  -- VST_LONG (R317)
  | vamo (v : VR) (b : XR) (i : VR) (p : PR) (o : VamoOp) (q r : Bool)  -- VAMO (R321)
  | vsave (v : VR) (b : XR)  -- VSAVE (R322)
  | vrest (v : VR) (b : XR)  -- VREST (R322)
  | pand (d a b p : PR)  -- PAND (R306)
  | por (d a b p : PR)  -- POR (R306)
  | pxor (d a b p : PR)  -- PXOR (R306)
  | pnot (d a p : PR)  -- PNOT (R306)
  | pandn (d a b p : PR)  -- PANDN (R306)
  | pafter (d a p : PR)  -- PAFTER (R303)
  | pset (d p : PR)  -- PSET (R306)
  | pclr (d : PR)  -- PCLR (R306)
  | pcnt (d : XR) (a p : PR)  -- PCNT (R307)
  | pfirst (d : XR) (a p : PR)  -- PFIRST (R307)
  | cpy (d s n e : XR)  -- CPY (R326)
  | cpyr (v : VR) (a : XR) (n : Fin 8) (k : PR)  -- CPYR (R327)
  | cpyw (v : VR) (a : XR) (n : Fin 8) (k : PR)  -- CPYW (R327)
  | cpyx (d : VR) (c : XR) (s : VR)  -- CPYX (R328)
  | cpym (s : VR) (m : XR)  -- CPYM (R329)
  | vrecv (d : VR)  -- VRECV (R329)
  | vstream (b s : XR)  -- VSTREAM (R330)
  | pwait (k : PR)  -- PWAIT (R331)
  | arw (d a s : XR)  -- ARW (R332)
  | await (d a s : XR)  -- AWAIT (R332)
  | mcfg (a b : XR)  -- MCFG (R338)
  | mzero (t : TileRef)  -- MZERO (R339)
  | mop (t : TileRef) (va vb sa sb : VR) (a b : XR) (p : PR) (ca cb : Bool)  -- MOP (R342)
  | mops (t : TileRef) (va vb sa sb : VR) (a b : XR) (p : PR) (ca cb : Bool) (n1 n2 : Fin 3) (vm : VR)  -- MOPS (R342)
  | mrow (t : TileRef) (d : VR) (a b : XR) (p : PR)  -- MROW (R344)
  | mwrow (t : TileRef) (v : VR) (a b : XR) (p : PR) (ca : Bool)  -- MWROW (R344)
  | mld (t : TileRef) (a b : XR)  -- MLD (R345)
  | mst (t : TileRef) (a b : XR)  -- MST (R345)
  | msave (a : XR)  -- MSAVE (R346)
  | mrest (a : XR)  -- MREST (R346)
  | mjoin (t : TileRef) (a b : XR)  -- MJOIN (R347)
  | msplit (t : TileRef) (a : XR)  -- MSPLIT (R347)
  | olset (a b : XR)  -- OLSET (R349)
  | olclr (a : XR)  -- OLCLR (R350)
  | olcnt (d a : XR)  -- OLCNT (R350)
  | tspawn (a b : XR)  -- TSPAWN (R354)
  | tsig (a b : XR)  -- TSIG (R355)
  | tdone  -- TDONE (R356)
  | tkill (a : XR)  -- TKILL (R357)
  | tyield  -- TYIELD (R358)
  | bar  -- BAR (R359)
  | barinit (a : XR)  -- BARINIT (R360)
  | qpush (a b : XR)  -- QPUSH (R362)
  | qpop (d a : XR)  -- QPOP (R362)
  | qsteal (d a b : XR)  -- QSTEAL (R362)
  | talloc (d a : XR)  -- TALLOC (R368)
  | tst (s : VR) (a : XR)  -- TST (R369)
  | tld (d : VR) (a : XR)  -- TLD (R371)
  | tpost (a b : XR)  -- TPOST (R370)
  | tdrop (a : XR)  -- TDROP (R372)
  | linkOrPortTrains (pool : Bool) (n lanes swid : Nat)  -- LINK_OR_PORT_TRAINS (R22)
  | zeroFillComplete (core : Nat)  -- ZERO_FILL_COMPLETE (R116)
  | nonInstruction (w : Word)  -- NON_INSTRUCTION (R254)
  | fetchFault (va : Nat)  -- FETCH_FAULT (R236)
deriving DecidableEq, Repr

end Sys2Proof
end

