-- ==== Sys2Proof/WellFormed.lean ====
section
/-!
DEFINITION. Well-formedness: what a constructor's operands must satisfy to have an encoding
(R237, R238, R240, R244 to R251, R254, R264, R265, R267, R279, R316, R317, R327, R331).
Events have no encoding and no check here.
-/
namespace Sys2Proof

/-- The four ordinary float tags (R264). -/
def Tag.isFloat : Tag → Bool
  | .f16 | .bf16 | .f32 | .f64 => true
  | _ => false

/-- The tags of fcvt (R265). -/
def Tag.isCvt : Tag → Bool
  | .s32 | .s64 | .z32 | .z64 => true
  | t => t.isFloat

/-- The long memory forms (R317). -/
def longWf (k : VKind) (x : Fin 32) (n : Fin 8) (o : Bool) (s : Scope) (cb : Bool) : Bool :=
  (o || s == .core) &&
  match k with
  | .unit => x == 0 && n == 0 && !cb
  | .strided => n == 0 && !cb
  | .indexed => n == 0
  | .segment => x == 0 && n != 0 && !cb

/-- The extended forms (R250, R308): which fields each operation uses. -/
def EvOp.wf (op : EvOp) (d a b c : Fin 32) (p : PR) (ca cb cc sb : Bool) : Bool :=
  let no3 := c == 0 && !cc
  let vec2 := no3 && !(sb && cb)
  let vecOnly := no3 && !sb
  let one := no3 && !sb && b == 0 && !cb
  match op with
  | .vadd | .vsub | .vmul | .vmin | .vmax | .vand | .vor | .vxor | .vshl | .vshr => vec2
  | .vfma | .vfms | .vfnma | .vmacw => !(sb && cb)
  | .unary => no3 && !sb && !cb && b.val < 10
  | .vsel | .vredsum | .vredsumOrd | .vredmin | .vredmax | .vredand | .vredor
  | .vperm | .vzip | .vunzip => vecOnly
  | .vsplat => no3 && sb && a == 0 && !ca && !cb
  | .vid | .vrank => one && a == 0 && !ca
  | .vcmp _ => vec2 && d.val < 16
  | .vscan _ | .vrev | .vsqueeze | .vspread | .vconf | .vlast | .vfirst | .vwiden => one
  | .vscanSeg _ => vecOnly && b.val < 16 && !cb
  | .vraise | .vlower | .vnarrow => no3 && sb && !cb
  | .vpart => vecOnly && d.val < 16 && b.val < 16 && p == 0 && !cb
  | .vcuti | .vcutx => one && d.val < 16 && a.val < 16 && !ca
  | .vcvt => vecOnly && !cb && b.val ≤ 0x14
  | .pand | .por | .pxor | .pandn => vecOnly && d.val < 16 && a.val < 16 && b.val < 16 && !ca && !cb
  | .pnot | .pafter => one && d.val < 16 && a.val < 16 && !ca
  | .pset => one && d.val < 16 && a == 0 && !ca
  | .pclr => one && d.val < 16 && a == 0 && !ca && p == 0
  | .pcnt | .pfirst => one && a.val < 16 && !ca

/-- The operands have an encoding. -/
def Instr.wellFormed : Instr → Bool
  | .deviceReset _ _ _ => true
  | .hostLinkTrain _ _ => true
  | .fabricIdAssign _ => true
  | .flitCrcError _ _ _ => true
  | .mbawynLaneSpare _ => true
  | .linkRetrainDone _ => true
  | .linkRetire _ => true
  | .filterEntryFree _ => true
  | .filterProbeTimeout _ => true
  | .deviceFenced => true
  | .fenceCleared => true
  | .hbmChannelRetrain _ _ => true
  | .hbmRetrainDone _ _ => true
  | .coreFail _ => true
  | .coreQuiesce _ => true
  | .poolPortDown _ => true
  | .poolRerouteDone _ _ => true
  | .rerouteTimeout _ => true
  | .poolPathReturn _ => true
  | .reattachCheckDone _ _ => true
  | .quarantineWritebackDone _ => true
  | .graceExpiry _ => true
  | .bisnp _ _ _ _ => true
  | .poolWriteAck _ => true
  | .dynamicCapacityRelease _ => true
  | .attestationRequest _ _ => true
  | .gets _ _ _ _ => true
  | .geto _ _ _ _ => true
  | .upg _ _ _ _ => true
  | .putd _ _ _ => true
  | .pinv _ _ => true
  | .pdwn _ _ => true
  | .data _ _ => true
  | .grant _ _ => true
  | .ack _ _ => true
  | .absent _ _ => true
  | .probeTimeout _ _ => true
  | .controlTimeout _ => true
  | .patrolScrub _ _ => true
  | .roustaboutWriteback _ _ => true
  | .powerCapUpdate _ _ => true
  | .gatingMarkTimeout _ _ => true
  | .l2WayGate _ _ => true
  | .scratchpadGate _ => true
  | .wakeComplete _ _ _ => true
  | .gangPlacement _ => true
  | .gangReserve _ => true
  | .workSteal _ => true
  | .arrivalPreemption _ _ => true
  | .timeSliceExpiry _ _ => true
  | .preemption _ _ => true
  | .rePlacement _ => true
  | .pendingTableFit _ _ => true
  | .interruptDelivery _ _ => true
  | .deferredFaultRaise _ => true
  | .registerSpill _ _ => true
  | .memoryRead _ _ => true
  | .drain _ _ => true
  | .ticket _ => true
  | .engineChunk _ _ _ => true
  | .stripLand _ _ => true
  | .engineMigRetry _ _ => true
  | .waitTimeout _ => true
  | .pcSample _ _ => true
  | .lqdbDoorbell _ _ => true
  | .lqbaseWrite _ _ => true
  | .lqctlEnable _ _ => true
  | .lqctlRst _ _ => true
  | .packetFetch _ => true
  | .waitPacketComplete _ => true
  | .counterFreeze _ => true
  | .fenceRelease _ => true
  | .ctxdropUnbind _ => true
  | .pregionAttach _ _ => true
  | .identityCheckDone _ _ => true
  | .identityCheckAbandon _ => true
  | .pregionFree _ _ => true
  | .fabstRejoin => true
  | .swint _ => true
  | .tsctlWrite _ _ => true
  | .tspartWrite _ _ => true
  | .debugSetWrite _ _ => true
  | .dbghartHalt _ => true
  | .dbgdatRead => true
  | .dbgdatWrite _ => true
  | .trctlWrite _ _ => true
  | .hubRegisterWrite _ _ _ _ => true
  | .xinvComplete _ => true
  | .cAdd d _ => d != 0
  | .cSub d _ => d != 0
  | .cAnd d _ => d != 0
  | .cOr d _ => d != 0
  | .cXor d _ => d != 0
  | .cMv d _ => d != 0
  | .cJlr _ b => b != 0
  | .cAddi d _ => d != 0
  | .cAddiX0 d _ => d != 0
  | .cShli d _ => d != 0
  | .cShri d _ => d != 0
  | .cSari d _ => d != 0
  | .cAndi d _ => d != 0
  | .cLd64 d _ _ => d != 0
  | .cSt64 _ _ _ => true
  | .cBeq _ _ => true
  | .cBne _ _ => true
  | .cJ o => o != 0
  | .cNop => true
  | .add _ _ _ => true
  | .sub _ _ _ => true
  | .and _ _ _ => true
  | .or _ _ _ => true
  | .xor _ _ _ => true
  | .shl _ _ _ => true
  | .shr _ _ _ => true
  | .sar _ _ _ => true
  | .slt _ _ _ => true
  | .sltn _ _ _ => true
  | .mul _ _ _ => true
  | .mulh _ _ _ => true
  | .mulhn _ _ _ => true
  | .div _ _ _ => true
  | .divn _ _ _ => true
  | .rem _ _ _ => true
  | .remn _ _ _ => true
  | .min _ _ _ => true
  | .max _ _ _ => true
  | .minn _ _ _ => true
  | .maxn _ _ _ => true
  | .clz _ _ => true
  | .ctz _ _ => true
  | .popc _ _ => true
  | .pcrel _ _ => true
  | .imhi _ _ => true
  | .addi _ _ _ => true
  | .andi _ _ _ => true
  | .ori _ _ _ => true
  | .xori _ _ _ => true
  | .slti _ _ _ => true
  | .shli _ _ _ => true
  | .shri _ _ _ => true
  | .sari _ _ _ => true
  | .ld8 _ _ _ => true
  | .ld16 _ _ _ => true
  | .ld32 _ _ _ => true
  | .ld64 _ _ _ => true
  | .ld8z _ _ _ => true
  | .ld16z _ _ _ => true
  | .ld32z _ _ _ => true
  | .ldAcq _ _ _ _ _ => true
  | .st8 _ _ _ => true
  | .st16 _ _ _ => true
  | .st32 _ _ _ => true
  | .st64 _ _ _ => true
  | .stRel _ _ _ _ _ => true
  | .beq _ _ _ => true
  | .bne _ _ _ => true
  | .blt _ _ _ => true
  | .bge _ _ _ => true
  | .bltn _ _ _ => true
  | .bgen _ _ _ => true
  | .jl _ _ => true
  | .jlr _ _ _ => true
  | .amoAdd _ _ _ _ q r s => q || r || s == .core
  | .amoAnd _ _ _ _ q r s => q || r || s == .core
  | .amoOr _ _ _ _ q r s => q || r || s == .core
  | .amoXor _ _ _ _ q r s => q || r || s == .core
  | .amoMin _ _ _ _ _ q r s => q || r || s == .core
  | .amoMax _ _ _ _ _ q r s => q || r || s == .core
  | .amoSwap _ _ _ _ q r s => q || r || s == .core
  | .amoCas _ _ _ _ q r s => q || r || s == .core
  | .fadd _ _ _ t => t.isFloat
  | .fsub _ _ _ t => t.isFloat
  | .fmul _ _ _ t => t.isFloat
  | .fdiv _ _ _ t => t.isFloat
  | .fsqrt _ _ t => t.isFloat
  | .fma _ _ _ t => t.isFloat
  | .fmin _ _ _ t => t.isFloat
  | .fmax _ _ _ t => t.isFloat
  | .fcmpEq _ _ _ t => t.isFloat
  | .fcmpLt _ _ _ t => t.isFloat
  | .fcmpLe _ _ _ t => t.isFloat
  | .fcmpUn _ _ _ t => t.isFloat
  | .fcvt _ _ f t => f.isCvt && t.isCvt && (f.isFloat || t.isFloat)
  | .fclass _ _ t => t.isFloat
  | .nop => true
  | .trap _ => true
  | .eret => true
  | .wait _ => true
  | .fenceAcq _ => true
  | .fenceRel _ _ => true
  | .fenceRw _ _ => true
  | .xinv _ _ => true
  | .xinvAll => true
  | .cacheopWb _ => true
  | .cacheopWbinv _ => true
  | .cacheopInv _ => true
  | .cacheopIfetch => true
  | .brk => true
  | .halt => true
  | .mrd _ _ => true
  | .mwr _ _ => true
  | .setvl _ _ _ => true
  | .setvlG _ _ _ => true
  | .vloop _ _ _ e => 2 ≤ e.toNat
  | .vloopPar _ _ _ e => 2 ≤ e.toNat
  | .vloopLong _ _ _ _ e => 2 ≤ e.toNat
  | .vend _ => true
  | .vtag _ _ => true
  | .vadd _ _ _ p _ _ => p.val < 8
  | .vsub _ _ _ p _ _ => p.val < 8
  | .vmul _ _ _ p _ _ => p.val < 8
  | .vmin _ _ _ p _ _ => p.val < 8
  | .vmax _ _ _ p _ _ => p.val < 8
  | .vand _ _ _ p _ _ => p.val < 8
  | .vor _ _ _ p _ _ => p.val < 8
  | .vxor _ _ _ p _ _ => p.val < 8
  | .vaddVx _ _ _ p _ => p.val < 8
  | .vsubVx _ _ _ p _ => p.val < 8
  | .vmulVx _ _ _ p _ => p.val < 8
  | .vminVx _ _ _ p _ => p.val < 8
  | .vmaxVx _ _ _ p _ => p.val < 8
  | .vandVx _ _ _ p _ => p.val < 8
  | .vorVx _ _ _ p _ => p.val < 8
  | .vxorVx _ _ _ p _ => p.val < 8
  | .vfma _ _ _ p _ _ => p.val < 8
  | .vfms _ _ _ p _ _ => p.val < 8
  | .vfnma _ _ _ p _ _ => p.val < 8
  | .vmacw _ _ _ p _ _ => p.val < 8
  | .vfmaVx _ _ _ p _ => p.val < 8
  | .vfmsVx _ _ _ p _ => p.val < 8
  | .vfnmaVx _ _ _ p _ => p.val < 8
  | .vmacwVx _ _ _ p _ => p.val < 8
  | .vneg _ _ p _ => p.val < 8
  | .vabs _ _ p _ => p.val < 8
  | .vsqrt _ _ p _ => p.val < 8
  | .vrcp _ _ p _ => p.val < 8
  | .vrsqrt _ _ p _ => p.val < 8
  | .vexp2 _ _ p _ => p.val < 8
  | .vclz _ _ p _ => p.val < 8
  | .vpopc _ _ p _ => p.val < 8
  | .vclass _ _ p _ => p.val < 8
  | .vmv _ _ p _ => p.val < 8
  | .vsel _ _ _ p _ _ => p.val < 8
  | .vsplat _ _ p => p.val < 8
  | .vid _ p => p.val < 8
  | .vshl _ _ _ p _ _ => p.val < 8
  | .vshr _ _ _ p _ _ => p.val < 8
  | .vshlVx _ _ _ p _ => p.val < 8
  | .vshrVx _ _ _ p _ => p.val < 8
  | .vcmp _ _ _ m _ _ _ => m.val < 8
  | .vcmpVx _ _ _ m _ _ => m.val < 8
  | .vredsum _ _ _ p _ _ => p.val < 8
  | .vredsumOrd _ _ _ p _ _ => p.val < 8
  | .vredmin _ _ _ p _ _ => p.val < 8
  | .vredmax _ _ _ p _ _ => p.val < 8
  | .vredand _ _ _ p _ _ => p.val < 8
  | .vredor _ _ _ p _ _ => p.val < 8
  | .vscan _ _ p _ _ => p.val < 8
  | .vscanSeg _ _ _ p _ _ => p.val < 8
  | .vraise _ _ _ p _ => p.val < 8
  | .vlower _ _ _ p _ => p.val < 8
  | .vperm _ _ _ p _ _ => p.val < 8
  | .vrev _ _ p _ => p.val < 8
  | .vzip _ _ _ p _ _ => p.val < 8
  | .vunzip _ _ _ p _ _ => p.val < 8
  | .vsqueeze _ _ p _ => p.val < 8
  | .vspread _ _ p _ => p.val < 8
  | .vrank _ p => p.val < 8
  | .vconf _ _ p _ => p.val < 8
  | .vpart _ _ _ _ => true
  | .vcuti _ _ m => m.val < 8
  | .vcutx _ _ m => m.val < 8
  | .vlast _ _ p _ => p.val < 8
  | .vfirst _ _ p _ => p.val < 8
  | .vcvt _ _ _ p _ => p.val < 8
  | .vnarrow _ _ _ p _ => p.val < 8
  | .vwiden _ _ p _ => p.val < 8
  | .evExtended op d a b c p ca cb cc sb => op.wf d a b c p ca cb cc sb
  | .vmulh _ _ _ _ _ cb sb => !(sb && cb)
  | .vdiv _ _ _ _ _ cb sb => !(sb && cb)
  | .vrem _ _ _ _ _ cb sb => !(sb && cb)
  | .vsadd _ _ _ _ _ cb sb => !(sb && cb)
  | .vssub _ _ _ _ _ cb sb => !(sb && cb)
  | .vavg _ _ _ _ _ cb sb => !(sb && cb)
  | .vabsd _ _ _ _ _ cb sb => !(sb && cb)
  | .vmulhr _ _ _ _ _ cb sb => !(sb && cb)
  | .vqnt _ _ _ _ _ _ => true
  | .vqnte _ _ _ _ e _ _ _ _ => e.val ≤ 4
  | .vdqnt _ _ _ _ _ _ _ _ => true
  | .vgathw _ _ _ _ _ _ _ => true
  | .vld _ _ p _ _ => p.val < 8
  | .vlds _ _ _ p _ _ => p.val < 8
  | .vldx _ _ _ p _ _ => p.val < 8
  | .vldseg _ _ n p _ _ => p.val < 8 && n != 0
  | .vst _ _ p m _ => p.val < 8 && m != .ff
  | .vsts _ _ _ p m _ => p.val < 8 && m != .ff
  | .vstx _ _ _ p m _ => p.val < 8 && m != .ff
  | .vstseg _ _ n p m _ => p.val < 8 && n != 0 && m != .ff
  | .vldLong _ _ x k _ _ o s n _ cb => longWf k x n o s cb
  | .vstLong _ _ x k m _ o s n _ cb => longWf k x n o s cb && m != .ff
  | .vamo _ _ _ p _ _ _ => p.val < 8
  | .vsave _ _ => true
  | .vrest _ _ => true
  | .pand _ _ _ p => p.val < 8
  | .por _ _ _ p => p.val < 8
  | .pxor _ _ _ p => p.val < 8
  | .pnot _ _ p => p.val < 8
  | .pandn _ _ _ p => p.val < 8
  | .pafter _ _ p => p.val < 8
  | .pset _ p => p.val < 8
  | .pclr _ => true
  | .pcnt _ _ p => p.val < 8
  | .pfirst _ _ p => p.val < 8
  | .cpy _ _ _ _ => true
  | .cpyr _ _ _ k => k != 0
  | .cpyw _ _ _ k => k != 0
  | .cpyx _ _ _ => true
  | .cpym _ _ => true
  | .vrecv _ => true
  | .vstream _ _ => true
  | .pwait k => k != 0
  | .arw _ _ _ => true
  | .await _ _ _ => true
  | .mcfg _ _ => true
  | .mzero _ => true
  | .mop _ _ _ _ _ _ _ _ _ _ => true
  | .mops _ _ _ _ _ _ _ _ _ _ _ _ _ => true
  | .mrow _ _ _ _ _ => true
  | .mwrow _ _ _ _ _ _ => true
  | .mld _ _ _ => true
  | .mst _ _ _ => true
  | .msave _ => true
  | .mrest _ => true
  | .mjoin _ _ _ => true
  | .msplit _ _ => true
  | .olset _ _ => true
  | .olclr _ => true
  | .olcnt _ _ => true
  | .tspawn _ _ => true
  | .tsig _ _ => true
  | .tdone => true
  | .tkill _ => true
  | .tyield => true
  | .bar => true
  | .barinit _ => true
  | .qpush _ _ => true
  | .qpop _ _ => true
  | .qsteal _ _ _ => true
  | .talloc _ _ => true
  | .tst _ _ => true
  | .tld _ _ => true
  | .tpost _ _ => true
  | .tdrop _ => true
  | .linkOrPortTrains _ _ _ _ => true
  | .zeroFillComplete _ => true
  | .nonInstruction _ => true
  | .fetchFault _ => true

end Sys2Proof
end

