-- ==== Sys2Proof/Decode.lean ====
section
/-!
DEFINITION. Decoding of written words and the encoder.
A written word is a number: the first parcel holds its most significant 16 bits (R234, R235).
`fieldsN` pulls the operands out by major opcode and function code; the encoder stands after it; `decode`
accepts a word exactly when its fields name an instruction, its operands are well formed, and the word
is that instruction's own encoding, so that every unused bit is zero (R240, R254).
-/
namespace Sys2Proof

/-- Why a word or its parcels name no instruction (R238, R242 to R251, R254). -/
inductive Reject
  /-- A form that no table assigns, or a reserved code. -/
  | reservedForm
  /-- An operand value that is reserved or not allowed in its form. -/
  | reservedValue
  /-- A bit that must be zero is set. -/
  | unusedField
  /-- Fewer bytes than the first parcel's length asks for. -/
  | tooShort
deriving DecidableEq, Repr

/-- The n-bit field of w whose lowest bit is lo. -/
def fld (w lo n : Nat) : Nat := w / 2 ^ lo % 2 ^ n

/-- A word: its fixed bits and its fields, each a value and the place of its lowest bit. -/
def pack (fixed : Nat) (fields : List (Nat × Nat)) : Nat :=
  fields.foldl (fun acc f => acc + f.1 * 2 ^ f.2) fixed

/-- Scope codes (R243). -/
def Scope.code : Scope → Nat
  | .core => 0
  | .dev => 1
  | .fabric => 2
  | .pool => 3

/-- The Scope of a code. -/
def Scope.ofCode : Nat → Scope
  | 0 => .core
  | 1 => .dev
  | 2 => .fabric
  | _ => .pool

/-- Tag codes (R157). -/
def Tag.code : Tag → Nat
  | .z8 => 0
  | .z16 => 1
  | .z32 => 2
  | .z64 => 3
  | .s8 => 4
  | .s16 => 5
  | .s32 => 6
  | .s64 => 7
  | .s4 => 8
  | .f16 => 9
  | .bf16 => 10
  | .f32 => 11
  | .f64 => 12
  | .e5m2 => 13
  | .e4m3 => 14
  | .e3m2 => 15
  | .e2m3 => 16
  | .e2m1 => 17
  | .e4m3x => 18
  | .e2m1x => 19
  | .e8m0 => 20

/-- The Tag of a code, none where the code is reserved. -/
def Tag.ofCode : Nat → Option Tag
  | 0 => some (.z8)
  | 1 => some (.z16)
  | 2 => some (.z32)
  | 3 => some (.z64)
  | 4 => some (.s8)
  | 5 => some (.s16)
  | 6 => some (.s32)
  | 7 => some (.s64)
  | 8 => some (.s4)
  | 9 => some (.f16)
  | 10 => some (.bf16)
  | 11 => some (.f32)
  | 12 => some (.f64)
  | 13 => some (.e5m2)
  | 14 => some (.e4m3)
  | 15 => some (.e3m2)
  | 16 => some (.e2m3)
  | 17 => some (.e2m1)
  | 18 => some (.e4m3x)
  | 19 => some (.e2m1x)
  | 20 => some (.e8m0)
  | _ => none

/-- Width codes (R92). -/
def Ew.code : Ew → Nat
  | .e4 => 0
  | .e8 => 1
  | .e16 => 2
  | .e32 => 3
  | .e64 => 4

/-- The Ew of a code, none where the code is reserved. -/
def Ew.ofCode : Nat → Option Ew
  | 0 => some (.e4)
  | 1 => some (.e8)
  | 2 => some (.e16)
  | 3 => some (.e32)
  | 4 => some (.e64)
  | _ => none

/-- Load size codes (R244). -/
def LdSize.code : LdSize → Nat
  | .b8 => 0
  | .b16 => 1
  | .b32 => 2
  | .b64 => 3
  | .z8 => 4
  | .z16 => 5
  | .z32 => 6

/-- The LdSize of a code, none where the code is reserved. -/
def LdSize.ofCode : Nat → Option LdSize
  | 0 => some (.b8)
  | 1 => some (.b16)
  | 2 => some (.b32)
  | 3 => some (.b64)
  | 4 => some (.z8)
  | 5 => some (.z16)
  | 6 => some (.z32)
  | _ => none

/-- Store size codes (R244). -/
def StSize.code : StSize → Nat
  | .b8 => 0
  | .b16 => 1
  | .b32 => 2
  | .b64 => 3

/-- The StSize of a code. -/
def StSize.ofCode : Nat → StSize
  | 0 => .b8
  | 1 => .b16
  | 2 => .b32
  | _ => .b64

/-- Compare condition codes (R246). -/
def Cond.code : Cond → Nat
  | .eq => 0
  | .ne => 1
  | .lt => 2
  | .le => 3
  | .gt => 4
  | .ge => 5
  | .un => 6

/-- The Cond of a code, none where the code is reserved. -/
def Cond.ofCode : Nat → Option Cond
  | 0 => some (.eq)
  | 1 => some (.ne)
  | 2 => some (.lt)
  | 3 => some (.le)
  | 4 => some (.gt)
  | 5 => some (.ge)
  | 6 => some (.un)
  | _ => none

/-- Scan codes (R246). -/
def ScanOp.code : ScanOp → Nat
  | .add => 0
  | .min => 1
  | .max => 2
  | .or => 3

/-- The ScanOp of a code. -/
def ScanOp.ofCode : Nat → ScanOp
  | 0 => .add
  | 1 => .min
  | 2 => .max
  | _ => .or

/-- Vector atomic codes (R247). -/
def VamoOp.code : VamoOp → Nat
  | .add => 0
  | .and => 1
  | .or => 2
  | .xor => 3
  | .min => 4
  | .max => 5
  | .swap => 6

/-- The VamoOp of a code, none where the code is reserved. -/
def VamoOp.ofCode : Nat → Option VamoOp
  | 0 => some (.add)
  | 1 => some (.and)
  | 2 => some (.or)
  | 3 => some (.xor)
  | 4 => some (.min)
  | 5 => some (.max)
  | 6 => some (.swap)
  | _ => none

/-- Mode codes (R247). -/
def VMode.code : VMode → Nat
  | .plain => 0
  | .oe => 1
  | .sc => 2
  | .ff => 3

/-- The VMode of a code. -/
def VMode.ofCode : Nat → VMode
  | 0 => .plain
  | 1 => .oe
  | 2 => .sc
  | _ => .ff

/-- Hint codes (R247). -/
def Hint.code : Hint → Nat
  | .none => 0
  | .keep => 1
  | .stream => 2
  | .bypass => 3

/-- The Hint of a code. -/
def Hint.ofCode : Nat → Hint
  | 0 => .none
  | 1 => .keep
  | 2 => .stream
  | _ => .bypass

/-- Access kind codes (R247). -/
def VKind.code : VKind → Nat
  | .unit => 0
  | .strided => 1
  | .indexed => 2
  | .segment => 3

/-- The VKind of a code. -/
def VKind.ofCode : Nat → VKind
  | 0 => .unit
  | 1 => .strided
  | 2 => .indexed
  | _ => .segment

/-- Tile codes: t in the upper two bits, j in the lowest (R251). -/
def TileRef.code : TileRef → Nat
  | .t0 => 0
  | .joined => 1
  | .t1 => 2
  | .t2 => 4
  | .t3 => 6

/-- The TileRef of a code, none where the code is reserved. -/
def TileRef.ofCode : Nat → Option TileRef
  | 0 => some (.t0)
  | 1 => some (.joined)
  | 2 => some (.t1)
  | 4 => some (.t2)
  | 6 => some (.t3)
  | _ => none

/-- The fn9 codes of the extended forms: 16 x (major - 0x10) + fn (R250, R308). -/
def EvOp.code : EvOp → Nat
  | .vadd => 16
  | .vsub => 17
  | .vmul => 18
  | .vmin => 19
  | .vmax => 20
  | .vand => 21
  | .vor => 22
  | .vxor => 23
  | .vfma => 48
  | .vfms => 49
  | .vfnma => 50
  | .vmacw => 51
  | .unary => 56
  | .vsel => 57
  | .vsplat => 58
  | .vid => 59
  | .vshl => 60
  | .vshr => 61
  | .vcmp .eq => 64
  | .vcmp .ne => 65
  | .vcmp .lt => 66
  | .vcmp .le => 67
  | .vcmp .gt => 68
  | .vcmp .ge => 69
  | .vcmp .un => 70
  | .vredsum => 80
  | .vredsumOrd => 81
  | .vredmin => 82
  | .vredmax => 83
  | .vredand => 84
  | .vredor => 85
  | .vscan .add => 88
  | .vscan .min => 89
  | .vscan .max => 90
  | .vscan .or => 91
  | .vscanSeg .add => 92
  | .vscanSeg .min => 93
  | .vscanSeg .max => 94
  | .vscanSeg .or => 95
  | .vraise => 96
  | .vlower => 97
  | .vperm => 98
  | .vrev => 99
  | .vzip => 100
  | .vunzip => 101
  | .vsqueeze => 102
  | .vspread => 103
  | .vrank => 104
  | .vconf => 112
  | .vpart => 113
  | .vcuti => 114
  | .vcutx => 115
  | .vlast => 116
  | .vfirst => 117
  | .vcvt => 128
  | .vnarrow => 129
  | .vwiden => 130
  | .pand => 192
  | .por => 193
  | .pxor => 194
  | .pnot => 195
  | .pandn => 196
  | .pafter => 197
  | .pset => 198
  | .pclr => 199
  | .pcnt => 200
  | .pfirst => 201

/-- The EvOp of a code, none where the code is reserved. -/
def EvOp.ofCode : Nat → Option EvOp
  | 16 => some (.vadd)
  | 17 => some (.vsub)
  | 18 => some (.vmul)
  | 19 => some (.vmin)
  | 20 => some (.vmax)
  | 21 => some (.vand)
  | 22 => some (.vor)
  | 23 => some (.vxor)
  | 48 => some (.vfma)
  | 49 => some (.vfms)
  | 50 => some (.vfnma)
  | 51 => some (.vmacw)
  | 56 => some (.unary)
  | 57 => some (.vsel)
  | 58 => some (.vsplat)
  | 59 => some (.vid)
  | 60 => some (.vshl)
  | 61 => some (.vshr)
  | 64 => some (.vcmp .eq)
  | 65 => some (.vcmp .ne)
  | 66 => some (.vcmp .lt)
  | 67 => some (.vcmp .le)
  | 68 => some (.vcmp .gt)
  | 69 => some (.vcmp .ge)
  | 70 => some (.vcmp .un)
  | 80 => some (.vredsum)
  | 81 => some (.vredsumOrd)
  | 82 => some (.vredmin)
  | 83 => some (.vredmax)
  | 84 => some (.vredand)
  | 85 => some (.vredor)
  | 88 => some (.vscan .add)
  | 89 => some (.vscan .min)
  | 90 => some (.vscan .max)
  | 91 => some (.vscan .or)
  | 92 => some (.vscanSeg .add)
  | 93 => some (.vscanSeg .min)
  | 94 => some (.vscanSeg .max)
  | 95 => some (.vscanSeg .or)
  | 96 => some (.vraise)
  | 97 => some (.vlower)
  | 98 => some (.vperm)
  | 99 => some (.vrev)
  | 100 => some (.vzip)
  | 101 => some (.vunzip)
  | 102 => some (.vsqueeze)
  | 103 => some (.vspread)
  | 104 => some (.vrank)
  | 112 => some (.vconf)
  | 113 => some (.vpart)
  | 114 => some (.vcuti)
  | 115 => some (.vcutx)
  | 116 => some (.vlast)
  | 117 => some (.vfirst)
  | 128 => some (.vcvt)
  | 129 => some (.vnarrow)
  | 130 => some (.vwiden)
  | 192 => some (.pand)
  | 193 => some (.por)
  | 194 => some (.pxor)
  | 195 => some (.pnot)
  | 196 => some (.pandn)
  | 197 => some (.pafter)
  | 198 => some (.pset)
  | 199 => some (.pclr)
  | 200 => some (.pcnt)
  | 201 => some (.pfirst)
  | _ => none

/-- The n1 and n2 codes (R251). -/
def fin3OfCode : Nat → Option (Fin 3)
  | 0 => some 0
  | 1 => some 1
  | 2 => some 2
  | _ => none

/-- The fields of a 16-bit form (R237, R238). -/
noncomputable def fields16 (w : Nat) : Option Instr :=
  match fld w 13 3 with
  | 0 =>
    match fld w 10 3 with
    | 0 => some (.cAdd (Fin.ofNat 32 (w / 2^5)) (Fin.ofNat 32 (w)))
    | 1 => some (.cSub (Fin.ofNat 32 (w / 2^5)) (Fin.ofNat 32 (w)))
    | 2 => some (.cAnd (Fin.ofNat 32 (w / 2^5)) (Fin.ofNat 32 (w)))
    | 3 => some (.cOr (Fin.ofNat 32 (w / 2^5)) (Fin.ofNat 32 (w)))
    | 4 => some (.cXor (Fin.ofNat 32 (w / 2^5)) (Fin.ofNat 32 (w)))
    | 5 => some (.cMv (Fin.ofNat 32 (w / 2^5)) (Fin.ofNat 32 (w)))
    | 6 => some (.cJlr (Fin.ofNat 32 (w / 2^5)) (Fin.ofNat 32 (w)))
    | _ => none
  | 1 =>
    match fld w 10 3 with
    | 0 => some (.cAddi (Fin.ofNat 32 (w / 2^5)) (BitVec.ofNat 5 (w)))
    | 1 => some (.cAddiX0 (Fin.ofNat 32 (w / 2^5)) (BitVec.ofNat 5 (w)))
    | 2 => some (.cShli (Fin.ofNat 32 (w / 2^5)) (BitVec.ofNat 5 (w)))
    | 3 => some (.cShri (Fin.ofNat 32 (w / 2^5)) (BitVec.ofNat 5 (w)))
    | 4 => some (.cSari (Fin.ofNat 32 (w / 2^5)) (BitVec.ofNat 5 (w)))
    | 5 => some (.cAndi (Fin.ofNat 32 (w / 2^5)) (BitVec.ofNat 5 (w)))
    | _ => none
  | 2 => some (.cLd64 (Fin.ofNat 32 (w / 2^8)) (Fin.ofNat 32 (w / 2^3)) (BitVec.ofNat 3 (w)))
  | 3 => some (.cSt64 (Fin.ofNat 32 (w / 2^8)) (Fin.ofNat 32 (w / 2^3)) (BitVec.ofNat 3 (w)))
  | 4 => if fld w 12 1 = 0 then some (.cBeq (Fin.ofNat 32 (w / 2^7)) (BitVec.ofNat 7 (w))) else some (.cBne (Fin.ofNat 32 (w / 2^7)) (BitVec.ofNat 7 (w)))
  | 5 => if fld w 0 13 = 0 then some .cNop else some (.cJ (BitVec.ofNat 13 (w)))
  | _ => none

/-- Major 0x00 (R243 to R248). -/
noncomputable def fieldsSystem (w : Nat) : Option Instr :=
  match fld w 19 5 with
  | 0 => some .nop
  | 1 => some (.trap (BitVec.ofNat 19 (w)))
  | 2 => some .eret
  | 3 => some (.wait (Fin.ofNat 32 (w / 2^14)))
  | 4 =>
    match fld w 7 2 with
    | 0 => some (.fenceAcq (Scope.ofCode (fld w 4 2)))
    | 1 => some (.fenceRel (fld w 6 1 == 1) (Scope.ofCode (fld w 4 2)))
    | 2 => some (.fenceRw (fld w 6 1 == 1) (Scope.ofCode (fld w 4 2)))
    | _ => none
  | 5 => if fld w 8 1 = 0 then some (.xinv (Fin.ofNat 32 (w / 2^14)) (Fin.ofNat 32 (w / 2^9))) else some .xinvAll
  | 6 =>
    match fld w 0 3 with
    | 0 => some (.cacheopWb (Fin.ofNat 32 (w / 2^14)))
    | 1 => some (.cacheopWbinv (Fin.ofNat 32 (w / 2^14)))
    | 2 => some (.cacheopInv (Fin.ofNat 32 (w / 2^14)))
    | 3 => some .cacheopIfetch
    | _ => none
  | 7 => some .brk
  | 8 => some .halt
  | 9 => some (.mrd (Fin.ofNat 32 (w / 2^14)) (BitVec.ofNat 12 (w)))
  | 10 => some (.mwr (Fin.ofNat 32 (w / 2^14)) (BitVec.ofNat 12 (w)))
  | _ => none

/-- Major 0x01 (R243 to R248). -/
noncomputable def fieldsIntReg (w : Nat) : Option Instr :=
  match fld w 0 9 with
  | 0 => some (.add (Fin.ofNat 32 (w / 2^19)) (Fin.ofNat 32 (w / 2^14)) (Fin.ofNat 32 (w / 2^9)))
  | 1 => some (.sub (Fin.ofNat 32 (w / 2^19)) (Fin.ofNat 32 (w / 2^14)) (Fin.ofNat 32 (w / 2^9)))
  | 2 => some (.and (Fin.ofNat 32 (w / 2^19)) (Fin.ofNat 32 (w / 2^14)) (Fin.ofNat 32 (w / 2^9)))
  | 3 => some (.or (Fin.ofNat 32 (w / 2^19)) (Fin.ofNat 32 (w / 2^14)) (Fin.ofNat 32 (w / 2^9)))
  | 4 => some (.xor (Fin.ofNat 32 (w / 2^19)) (Fin.ofNat 32 (w / 2^14)) (Fin.ofNat 32 (w / 2^9)))
  | 5 => some (.shl (Fin.ofNat 32 (w / 2^19)) (Fin.ofNat 32 (w / 2^14)) (Fin.ofNat 32 (w / 2^9)))
  | 6 => some (.shr (Fin.ofNat 32 (w / 2^19)) (Fin.ofNat 32 (w / 2^14)) (Fin.ofNat 32 (w / 2^9)))
  | 7 => some (.sar (Fin.ofNat 32 (w / 2^19)) (Fin.ofNat 32 (w / 2^14)) (Fin.ofNat 32 (w / 2^9)))
  | 8 => some (.slt (Fin.ofNat 32 (w / 2^19)) (Fin.ofNat 32 (w / 2^14)) (Fin.ofNat 32 (w / 2^9)))
  | 9 => some (.sltn (Fin.ofNat 32 (w / 2^19)) (Fin.ofNat 32 (w / 2^14)) (Fin.ofNat 32 (w / 2^9)))
  | 10 => some (.mul (Fin.ofNat 32 (w / 2^19)) (Fin.ofNat 32 (w / 2^14)) (Fin.ofNat 32 (w / 2^9)))
  | 11 => some (.mulh (Fin.ofNat 32 (w / 2^19)) (Fin.ofNat 32 (w / 2^14)) (Fin.ofNat 32 (w / 2^9)))
  | 12 => some (.mulhn (Fin.ofNat 32 (w / 2^19)) (Fin.ofNat 32 (w / 2^14)) (Fin.ofNat 32 (w / 2^9)))
  | 13 => some (.div (Fin.ofNat 32 (w / 2^19)) (Fin.ofNat 32 (w / 2^14)) (Fin.ofNat 32 (w / 2^9)))
  | 14 => some (.divn (Fin.ofNat 32 (w / 2^19)) (Fin.ofNat 32 (w / 2^14)) (Fin.ofNat 32 (w / 2^9)))
  | 15 => some (.rem (Fin.ofNat 32 (w / 2^19)) (Fin.ofNat 32 (w / 2^14)) (Fin.ofNat 32 (w / 2^9)))
  | 16 => some (.remn (Fin.ofNat 32 (w / 2^19)) (Fin.ofNat 32 (w / 2^14)) (Fin.ofNat 32 (w / 2^9)))
  | 17 => some (.min (Fin.ofNat 32 (w / 2^19)) (Fin.ofNat 32 (w / 2^14)) (Fin.ofNat 32 (w / 2^9)))
  | 18 => some (.max (Fin.ofNat 32 (w / 2^19)) (Fin.ofNat 32 (w / 2^14)) (Fin.ofNat 32 (w / 2^9)))
  | 19 => some (.minn (Fin.ofNat 32 (w / 2^19)) (Fin.ofNat 32 (w / 2^14)) (Fin.ofNat 32 (w / 2^9)))
  | 20 => some (.maxn (Fin.ofNat 32 (w / 2^19)) (Fin.ofNat 32 (w / 2^14)) (Fin.ofNat 32 (w / 2^9)))
  | 21 => some (.clz (Fin.ofNat 32 (w / 2^19)) (Fin.ofNat 32 (w / 2^14)))
  | 22 => some (.ctz (Fin.ofNat 32 (w / 2^19)) (Fin.ofNat 32 (w / 2^14)))
  | 23 => some (.popc (Fin.ofNat 32 (w / 2^19)) (Fin.ofNat 32 (w / 2^14)))
  | _ => none

/-- Major 0x03 (R243 to R248). -/
noncomputable def fieldsIntImm (w : Nat) : Option Instr :=
  match fld w 11 3 with
  | 0 => some (.addi (Fin.ofNat 32 (w / 2^19)) (Fin.ofNat 32 (w / 2^14)) (BitVec.ofNat 11 (w)))
  | 1 => some (.andi (Fin.ofNat 32 (w / 2^19)) (Fin.ofNat 32 (w / 2^14)) (BitVec.ofNat 11 (w)))
  | 2 => some (.ori (Fin.ofNat 32 (w / 2^19)) (Fin.ofNat 32 (w / 2^14)) (BitVec.ofNat 11 (w)))
  | 3 => some (.xori (Fin.ofNat 32 (w / 2^19)) (Fin.ofNat 32 (w / 2^14)) (BitVec.ofNat 11 (w)))
  | 4 => some (.slti (Fin.ofNat 32 (w / 2^19)) (Fin.ofNat 32 (w / 2^14)) (BitVec.ofNat 11 (w)))
  | 5 => some (.shli (Fin.ofNat 32 (w / 2^19)) (Fin.ofNat 32 (w / 2^14)) (BitVec.ofNat 6 (w)))
  | 6 => some (.shri (Fin.ofNat 32 (w / 2^19)) (Fin.ofNat 32 (w / 2^14)) (BitVec.ofNat 6 (w)))
  | _ => some (.sari (Fin.ofNat 32 (w / 2^19)) (Fin.ofNat 32 (w / 2^14)) (BitVec.ofNat 6 (w)))

/-- Major 0x05 (R243 to R248). -/
noncomputable def fieldsLoad (w : Nat) : Option Instr :=
  match fld w 11 3 with
  | 0 => some (.ld8 (Fin.ofNat 32 (w / 2^19)) (Fin.ofNat 32 (w / 2^14)) (BitVec.ofNat 11 (w)))
  | 1 => some (.ld16 (Fin.ofNat 32 (w / 2^19)) (Fin.ofNat 32 (w / 2^14)) (BitVec.ofNat 11 (w)))
  | 2 => some (.ld32 (Fin.ofNat 32 (w / 2^19)) (Fin.ofNat 32 (w / 2^14)) (BitVec.ofNat 11 (w)))
  | 3 => some (.ld64 (Fin.ofNat 32 (w / 2^19)) (Fin.ofNat 32 (w / 2^14)) (BitVec.ofNat 11 (w)))
  | 4 => some (.ld8z (Fin.ofNat 32 (w / 2^19)) (Fin.ofNat 32 (w / 2^14)) (BitVec.ofNat 11 (w)))
  | 5 => some (.ld16z (Fin.ofNat 32 (w / 2^19)) (Fin.ofNat 32 (w / 2^14)) (BitVec.ofNat 11 (w)))
  | 6 => some (.ld32z (Fin.ofNat 32 (w / 2^19)) (Fin.ofNat 32 (w / 2^14)) (BitVec.ofNat 11 (w)))
  | _ => (LdSize.ofCode (fld w 6 3)).bind fun z' => some (.ldAcq (Fin.ofNat 32 (w / 2^19)) (Fin.ofNat 32 (w / 2^14)) (Scope.ofCode (fld w 9 2)) z' (BitVec.ofNat 6 (w)))

/-- Major 0x06 (R243 to R248). -/
noncomputable def fieldsStore (w : Nat) : Option Instr :=
  match fld w 11 3 with
  | 0 => some (.st8 (Fin.ofNat 32 (w / 2^19)) (Fin.ofNat 32 (w / 2^14)) (BitVec.ofNat 11 (w)))
  | 1 => some (.st16 (Fin.ofNat 32 (w / 2^19)) (Fin.ofNat 32 (w / 2^14)) (BitVec.ofNat 11 (w)))
  | 2 => some (.st32 (Fin.ofNat 32 (w / 2^19)) (Fin.ofNat 32 (w / 2^14)) (BitVec.ofNat 11 (w)))
  | 3 => some (.st64 (Fin.ofNat 32 (w / 2^19)) (Fin.ofNat 32 (w / 2^14)) (BitVec.ofNat 11 (w)))
  | 7 => some (.stRel (Fin.ofNat 32 (w / 2^19)) (Fin.ofNat 32 (w / 2^14)) (Scope.ofCode (fld w 9 2)) (StSize.ofCode (fld w 6 2)) (BitVec.ofNat 6 (w)))
  | _ => none

/-- Major 0x07 (R243 to R248). -/
noncomputable def fieldsBranch (w : Nat) : Option Instr :=
  match fld w 11 3 with
  | 0 => some (.beq (Fin.ofNat 32 (w / 2^19)) (Fin.ofNat 32 (w / 2^14)) (BitVec.ofNat 11 (w)))
  | 1 => some (.bne (Fin.ofNat 32 (w / 2^19)) (Fin.ofNat 32 (w / 2^14)) (BitVec.ofNat 11 (w)))
  | 2 => some (.blt (Fin.ofNat 32 (w / 2^19)) (Fin.ofNat 32 (w / 2^14)) (BitVec.ofNat 11 (w)))
  | 3 => some (.bge (Fin.ofNat 32 (w / 2^19)) (Fin.ofNat 32 (w / 2^14)) (BitVec.ofNat 11 (w)))
  | 4 => some (.bltn (Fin.ofNat 32 (w / 2^19)) (Fin.ofNat 32 (w / 2^14)) (BitVec.ofNat 11 (w)))
  | 5 => some (.bgen (Fin.ofNat 32 (w / 2^19)) (Fin.ofNat 32 (w / 2^14)) (BitVec.ofNat 11 (w)))
  | _ => none

/-- Major 0x09 (R243 to R248). -/
noncomputable def fieldsJlr (w : Nat) : Option Instr :=
  if fld w 11 3 = 0 then some (.jlr (Fin.ofNat 32 (w / 2^19)) (Fin.ofNat 32 (w / 2^14)) (BitVec.ofNat 11 (w))) else none

/-- Major 0x0A (R243 to R248). -/
noncomputable def fieldsAmo (w : Nat) : Option Instr :=
  match fld w 6 3 with
  | 0 => some (.amoAdd (Fin.ofNat 32 (w / 2^19)) (Fin.ofNat 32 (w / 2^14)) (Fin.ofNat 32 (w / 2^9)) (fld w 5 1 == 1) (fld w 3 1 == 1) (fld w 2 1 == 1) (Scope.ofCode (fld w 0 2)))
  | 1 => some (.amoAnd (Fin.ofNat 32 (w / 2^19)) (Fin.ofNat 32 (w / 2^14)) (Fin.ofNat 32 (w / 2^9)) (fld w 5 1 == 1) (fld w 3 1 == 1) (fld w 2 1 == 1) (Scope.ofCode (fld w 0 2)))
  | 2 => some (.amoOr (Fin.ofNat 32 (w / 2^19)) (Fin.ofNat 32 (w / 2^14)) (Fin.ofNat 32 (w / 2^9)) (fld w 5 1 == 1) (fld w 3 1 == 1) (fld w 2 1 == 1) (Scope.ofCode (fld w 0 2)))
  | 3 => some (.amoXor (Fin.ofNat 32 (w / 2^19)) (Fin.ofNat 32 (w / 2^14)) (Fin.ofNat 32 (w / 2^9)) (fld w 5 1 == 1) (fld w 3 1 == 1) (fld w 2 1 == 1) (Scope.ofCode (fld w 0 2)))
  | 4 => some (.amoMin (Fin.ofNat 32 (w / 2^19)) (Fin.ofNat 32 (w / 2^14)) (Fin.ofNat 32 (w / 2^9)) (fld w 5 1 == 1) (fld w 4 1 == 1) (fld w 3 1 == 1) (fld w 2 1 == 1) (Scope.ofCode (fld w 0 2)))
  | 5 => some (.amoMax (Fin.ofNat 32 (w / 2^19)) (Fin.ofNat 32 (w / 2^14)) (Fin.ofNat 32 (w / 2^9)) (fld w 5 1 == 1) (fld w 4 1 == 1) (fld w 3 1 == 1) (fld w 2 1 == 1) (Scope.ofCode (fld w 0 2)))
  | 6 => some (.amoSwap (Fin.ofNat 32 (w / 2^19)) (Fin.ofNat 32 (w / 2^14)) (Fin.ofNat 32 (w / 2^9)) (fld w 5 1 == 1) (fld w 3 1 == 1) (fld w 2 1 == 1) (Scope.ofCode (fld w 0 2)))
  | _ => some (.amoCas (Fin.ofNat 32 (w / 2^19)) (Fin.ofNat 32 (w / 2^14)) (Fin.ofNat 32 (w / 2^9)) (fld w 5 1 == 1) (fld w 3 1 == 1) (fld w 2 1 == 1) (Scope.ofCode (fld w 0 2)))

/-- Major 0x0C (R243 to R248). -/
noncomputable def fieldsFloat (w : Nat) : Option Instr :=
  match fld w 5 4 with
  | 0 => (Tag.ofCode (fld w 0 5)).bind fun t' => some (.fadd (Fin.ofNat 32 (w / 2^19)) (Fin.ofNat 32 (w / 2^14)) (Fin.ofNat 32 (w / 2^9)) t')
  | 1 => (Tag.ofCode (fld w 0 5)).bind fun t' => some (.fsub (Fin.ofNat 32 (w / 2^19)) (Fin.ofNat 32 (w / 2^14)) (Fin.ofNat 32 (w / 2^9)) t')
  | 2 => (Tag.ofCode (fld w 0 5)).bind fun t' => some (.fmul (Fin.ofNat 32 (w / 2^19)) (Fin.ofNat 32 (w / 2^14)) (Fin.ofNat 32 (w / 2^9)) t')
  | 3 => (Tag.ofCode (fld w 0 5)).bind fun t' => some (.fdiv (Fin.ofNat 32 (w / 2^19)) (Fin.ofNat 32 (w / 2^14)) (Fin.ofNat 32 (w / 2^9)) t')
  | 4 => (Tag.ofCode (fld w 0 5)).bind fun t' => some (.fsqrt (Fin.ofNat 32 (w / 2^19)) (Fin.ofNat 32 (w / 2^14)) t')
  | 5 => (Tag.ofCode (fld w 0 5)).bind fun t' => some (.fma (Fin.ofNat 32 (w / 2^19)) (Fin.ofNat 32 (w / 2^14)) (Fin.ofNat 32 (w / 2^9)) t')
  | 6 => (Tag.ofCode (fld w 0 5)).bind fun t' => some (.fmin (Fin.ofNat 32 (w / 2^19)) (Fin.ofNat 32 (w / 2^14)) (Fin.ofNat 32 (w / 2^9)) t')
  | 7 => (Tag.ofCode (fld w 0 5)).bind fun t' => some (.fmax (Fin.ofNat 32 (w / 2^19)) (Fin.ofNat 32 (w / 2^14)) (Fin.ofNat 32 (w / 2^9)) t')
  | 8 => (Tag.ofCode (fld w 0 5)).bind fun t' => some (.fcmpEq (Fin.ofNat 32 (w / 2^19)) (Fin.ofNat 32 (w / 2^14)) (Fin.ofNat 32 (w / 2^9)) t')
  | 9 => (Tag.ofCode (fld w 0 5)).bind fun t' => some (.fcmpLt (Fin.ofNat 32 (w / 2^19)) (Fin.ofNat 32 (w / 2^14)) (Fin.ofNat 32 (w / 2^9)) t')
  | 10 => (Tag.ofCode (fld w 0 5)).bind fun t' => some (.fcmpLe (Fin.ofNat 32 (w / 2^19)) (Fin.ofNat 32 (w / 2^14)) (Fin.ofNat 32 (w / 2^9)) t')
  | 11 => (Tag.ofCode (fld w 0 5)).bind fun t' => some (.fcmpUn (Fin.ofNat 32 (w / 2^19)) (Fin.ofNat 32 (w / 2^14)) (Fin.ofNat 32 (w / 2^9)) t')
  | 12 => (Tag.ofCode (fld w 9 5)).bind fun f' => (Tag.ofCode (fld w 0 5)).bind fun t' => some (.fcvt (Fin.ofNat 32 (w / 2^19)) (Fin.ofNat 32 (w / 2^14)) f' t')
  | 13 => (Tag.ofCode (fld w 0 5)).bind fun t' => some (.fclass (Fin.ofNat 32 (w / 2^19)) (Fin.ofNat 32 (w / 2^14)) t')
  | _ => none

/-- Major 0x10 (R243 to R248). -/
noncomputable def fieldsConfig (w : Nat) : Option Instr :=
  match fld w 11 3 with
  | 0 => (Ew.ofCode (fld w 8 3)).bind fun w' => some (.setvl (Fin.ofNat 32 (w / 2^19)) (Fin.ofNat 32 (w / 2^14)) w')
  | 1 => (Ew.ofCode (fld w 8 3)).bind fun w' => some (.setvlG (Fin.ofNat 32 (w / 2^19)) (Fin.ofNat 32 (w / 2^14)) w')
  | 2 => (Ew.ofCode (fld w 8 3)).bind fun w' => some (.vloop (Fin.ofNat 32 (w / 2^19)) (Fin.ofNat 32 (w / 2^14)) w' (BitVec.ofNat 8 (w)))
  | 3 => (Ew.ofCode (fld w 8 3)).bind fun w' => some (.vloopPar (Fin.ofNat 32 (w / 2^19)) (Fin.ofNat 32 (w / 2^14)) w' (BitVec.ofNat 8 (w)))
  | 4 => some (.vend (Fin.ofNat 32 (w / 2^14)))
  | 5 => (Tag.ofCode (fld w 0 5)).bind fun t' => some (.vtag (Fin.ofNat 32 (w / 2^19)) t')
  | _ => none

/-- Major 0x11 (R243 to R248). -/
noncomputable def fieldsBinary (w : Nat) : Option Instr :=
  match fld w 0 4 with
  | 0 => some (.vadd (Fin.ofNat 32 (w / 2^19)) (Fin.ofNat 32 (w / 2^14)) (Fin.ofNat 32 (w / 2^9)) (Fin.ofNat 16 (fld w 6 3)) (fld w 5 1 == 1) (fld w 4 1 == 1))
  | 1 => some (.vsub (Fin.ofNat 32 (w / 2^19)) (Fin.ofNat 32 (w / 2^14)) (Fin.ofNat 32 (w / 2^9)) (Fin.ofNat 16 (fld w 6 3)) (fld w 5 1 == 1) (fld w 4 1 == 1))
  | 2 => some (.vmul (Fin.ofNat 32 (w / 2^19)) (Fin.ofNat 32 (w / 2^14)) (Fin.ofNat 32 (w / 2^9)) (Fin.ofNat 16 (fld w 6 3)) (fld w 5 1 == 1) (fld w 4 1 == 1))
  | 3 => some (.vmin (Fin.ofNat 32 (w / 2^19)) (Fin.ofNat 32 (w / 2^14)) (Fin.ofNat 32 (w / 2^9)) (Fin.ofNat 16 (fld w 6 3)) (fld w 5 1 == 1) (fld w 4 1 == 1))
  | 4 => some (.vmax (Fin.ofNat 32 (w / 2^19)) (Fin.ofNat 32 (w / 2^14)) (Fin.ofNat 32 (w / 2^9)) (Fin.ofNat 16 (fld w 6 3)) (fld w 5 1 == 1) (fld w 4 1 == 1))
  | 5 => some (.vand (Fin.ofNat 32 (w / 2^19)) (Fin.ofNat 32 (w / 2^14)) (Fin.ofNat 32 (w / 2^9)) (Fin.ofNat 16 (fld w 6 3)) (fld w 5 1 == 1) (fld w 4 1 == 1))
  | 6 => some (.vor (Fin.ofNat 32 (w / 2^19)) (Fin.ofNat 32 (w / 2^14)) (Fin.ofNat 32 (w / 2^9)) (Fin.ofNat 16 (fld w 6 3)) (fld w 5 1 == 1) (fld w 4 1 == 1))
  | 7 => some (.vxor (Fin.ofNat 32 (w / 2^19)) (Fin.ofNat 32 (w / 2^14)) (Fin.ofNat 32 (w / 2^9)) (Fin.ofNat 16 (fld w 6 3)) (fld w 5 1 == 1) (fld w 4 1 == 1))
  | 8 => some (.vaddVx (Fin.ofNat 32 (w / 2^19)) (Fin.ofNat 32 (w / 2^14)) (Fin.ofNat 32 (w / 2^9)) (Fin.ofNat 16 (fld w 6 3)) (fld w 5 1 == 1))
  | 9 => some (.vsubVx (Fin.ofNat 32 (w / 2^19)) (Fin.ofNat 32 (w / 2^14)) (Fin.ofNat 32 (w / 2^9)) (Fin.ofNat 16 (fld w 6 3)) (fld w 5 1 == 1))
  | 10 => some (.vmulVx (Fin.ofNat 32 (w / 2^19)) (Fin.ofNat 32 (w / 2^14)) (Fin.ofNat 32 (w / 2^9)) (Fin.ofNat 16 (fld w 6 3)) (fld w 5 1 == 1))
  | 11 => some (.vminVx (Fin.ofNat 32 (w / 2^19)) (Fin.ofNat 32 (w / 2^14)) (Fin.ofNat 32 (w / 2^9)) (Fin.ofNat 16 (fld w 6 3)) (fld w 5 1 == 1))
  | 12 => some (.vmaxVx (Fin.ofNat 32 (w / 2^19)) (Fin.ofNat 32 (w / 2^14)) (Fin.ofNat 32 (w / 2^9)) (Fin.ofNat 16 (fld w 6 3)) (fld w 5 1 == 1))
  | 13 => some (.vandVx (Fin.ofNat 32 (w / 2^19)) (Fin.ofNat 32 (w / 2^14)) (Fin.ofNat 32 (w / 2^9)) (Fin.ofNat 16 (fld w 6 3)) (fld w 5 1 == 1))
  | 14 => some (.vorVx (Fin.ofNat 32 (w / 2^19)) (Fin.ofNat 32 (w / 2^14)) (Fin.ofNat 32 (w / 2^9)) (Fin.ofNat 16 (fld w 6 3)) (fld w 5 1 == 1))
  | _ => some (.vxorVx (Fin.ofNat 32 (w / 2^19)) (Fin.ofNat 32 (w / 2^14)) (Fin.ofNat 32 (w / 2^9)) (Fin.ofNat 16 (fld w 6 3)) (fld w 5 1 == 1))

/-- Major 0x13 (R243 to R248). -/
noncomputable def fieldsTernary (w : Nat) : Option Instr :=
  match fld w 0 4 with
  | 8 =>
    match fld w 9 5 with
    | 0 => some (.vneg (Fin.ofNat 32 (w / 2^19)) (Fin.ofNat 32 (w / 2^14)) (Fin.ofNat 16 (fld w 6 3)) (fld w 5 1 == 1))
    | 1 => some (.vabs (Fin.ofNat 32 (w / 2^19)) (Fin.ofNat 32 (w / 2^14)) (Fin.ofNat 16 (fld w 6 3)) (fld w 5 1 == 1))
    | 2 => some (.vsqrt (Fin.ofNat 32 (w / 2^19)) (Fin.ofNat 32 (w / 2^14)) (Fin.ofNat 16 (fld w 6 3)) (fld w 5 1 == 1))
    | 3 => some (.vrcp (Fin.ofNat 32 (w / 2^19)) (Fin.ofNat 32 (w / 2^14)) (Fin.ofNat 16 (fld w 6 3)) (fld w 5 1 == 1))
    | 4 => some (.vrsqrt (Fin.ofNat 32 (w / 2^19)) (Fin.ofNat 32 (w / 2^14)) (Fin.ofNat 16 (fld w 6 3)) (fld w 5 1 == 1))
    | 5 => some (.vexp2 (Fin.ofNat 32 (w / 2^19)) (Fin.ofNat 32 (w / 2^14)) (Fin.ofNat 16 (fld w 6 3)) (fld w 5 1 == 1))
    | 6 => some (.vclz (Fin.ofNat 32 (w / 2^19)) (Fin.ofNat 32 (w / 2^14)) (Fin.ofNat 16 (fld w 6 3)) (fld w 5 1 == 1))
    | 7 => some (.vpopc (Fin.ofNat 32 (w / 2^19)) (Fin.ofNat 32 (w / 2^14)) (Fin.ofNat 16 (fld w 6 3)) (fld w 5 1 == 1))
    | 8 => some (.vclass (Fin.ofNat 32 (w / 2^19)) (Fin.ofNat 32 (w / 2^14)) (Fin.ofNat 16 (fld w 6 3)) (fld w 5 1 == 1))
    | 9 => some (.vmv (Fin.ofNat 32 (w / 2^19)) (Fin.ofNat 32 (w / 2^14)) (Fin.ofNat 16 (fld w 6 3)) (fld w 5 1 == 1))
    | _ => none
  | 0 => some (.vfma (Fin.ofNat 32 (w / 2^19)) (Fin.ofNat 32 (w / 2^14)) (Fin.ofNat 32 (w / 2^9)) (Fin.ofNat 16 (fld w 6 3)) (fld w 5 1 == 1) (fld w 4 1 == 1))
  | 1 => some (.vfms (Fin.ofNat 32 (w / 2^19)) (Fin.ofNat 32 (w / 2^14)) (Fin.ofNat 32 (w / 2^9)) (Fin.ofNat 16 (fld w 6 3)) (fld w 5 1 == 1) (fld w 4 1 == 1))
  | 2 => some (.vfnma (Fin.ofNat 32 (w / 2^19)) (Fin.ofNat 32 (w / 2^14)) (Fin.ofNat 32 (w / 2^9)) (Fin.ofNat 16 (fld w 6 3)) (fld w 5 1 == 1) (fld w 4 1 == 1))
  | 3 => some (.vmacw (Fin.ofNat 32 (w / 2^19)) (Fin.ofNat 32 (w / 2^14)) (Fin.ofNat 32 (w / 2^9)) (Fin.ofNat 16 (fld w 6 3)) (fld w 5 1 == 1) (fld w 4 1 == 1))
  | 4 => some (.vfmaVx (Fin.ofNat 32 (w / 2^19)) (Fin.ofNat 32 (w / 2^14)) (Fin.ofNat 32 (w / 2^9)) (Fin.ofNat 16 (fld w 6 3)) (fld w 5 1 == 1))
  | 5 => some (.vfmsVx (Fin.ofNat 32 (w / 2^19)) (Fin.ofNat 32 (w / 2^14)) (Fin.ofNat 32 (w / 2^9)) (Fin.ofNat 16 (fld w 6 3)) (fld w 5 1 == 1))
  | 6 => some (.vfnmaVx (Fin.ofNat 32 (w / 2^19)) (Fin.ofNat 32 (w / 2^14)) (Fin.ofNat 32 (w / 2^9)) (Fin.ofNat 16 (fld w 6 3)) (fld w 5 1 == 1))
  | 7 => some (.vmacwVx (Fin.ofNat 32 (w / 2^19)) (Fin.ofNat 32 (w / 2^14)) (Fin.ofNat 32 (w / 2^9)) (Fin.ofNat 16 (fld w 6 3)) (fld w 5 1 == 1))
  | 9 => some (.vsel (Fin.ofNat 32 (w / 2^19)) (Fin.ofNat 32 (w / 2^14)) (Fin.ofNat 32 (w / 2^9)) (Fin.ofNat 16 (fld w 6 3)) (fld w 5 1 == 1) (fld w 4 1 == 1))
  | 10 => some (.vsplat (Fin.ofNat 32 (w / 2^19)) (Fin.ofNat 32 (w / 2^9)) (Fin.ofNat 16 (fld w 6 3)))
  | 11 => some (.vid (Fin.ofNat 32 (w / 2^19)) (Fin.ofNat 16 (fld w 6 3)))
  | 12 => some (.vshl (Fin.ofNat 32 (w / 2^19)) (Fin.ofNat 32 (w / 2^14)) (Fin.ofNat 32 (w / 2^9)) (Fin.ofNat 16 (fld w 6 3)) (fld w 5 1 == 1) (fld w 4 1 == 1))
  | 13 => some (.vshr (Fin.ofNat 32 (w / 2^19)) (Fin.ofNat 32 (w / 2^14)) (Fin.ofNat 32 (w / 2^9)) (Fin.ofNat 16 (fld w 6 3)) (fld w 5 1 == 1) (fld w 4 1 == 1))
  | 14 => some (.vshlVx (Fin.ofNat 32 (w / 2^19)) (Fin.ofNat 32 (w / 2^14)) (Fin.ofNat 32 (w / 2^9)) (Fin.ofNat 16 (fld w 6 3)) (fld w 5 1 == 1))
  | 15 => some (.vshrVx (Fin.ofNat 32 (w / 2^19)) (Fin.ofNat 32 (w / 2^14)) (Fin.ofNat 32 (w / 2^9)) (Fin.ofNat 16 (fld w 6 3)) (fld w 5 1 == 1))
  | _ => none

/-- Major 0x14 (R243 to R248). -/
noncomputable def fieldsCompare (w : Nat) : Option Instr :=
  if fld w 3 1 = 0 then (Cond.ofCode (fld w 0 3)).bind fun n' => some (.vcmp (Fin.ofNat 16 (w / 2^19)) (Fin.ofNat 32 (w / 2^14)) (Fin.ofNat 32 (w / 2^9)) (Fin.ofNat 16 (fld w 6 3)) (fld w 5 1 == 1) (fld w 4 1 == 1) n') else (Cond.ofCode (fld w 0 3)).bind fun n' => some (.vcmpVx (Fin.ofNat 16 (w / 2^19)) (Fin.ofNat 32 (w / 2^14)) (Fin.ofNat 32 (w / 2^9)) (Fin.ofNat 16 (fld w 6 3)) (fld w 5 1 == 1) n')

/-- Major 0x15 (R243 to R248). -/
noncomputable def fieldsReduce (w : Nat) : Option Instr :=
  match fld w 0 4 with
  | 0 => some (.vredsum (Fin.ofNat 32 (w / 2^19)) (Fin.ofNat 32 (w / 2^14)) (Fin.ofNat 32 (w / 2^9)) (Fin.ofNat 16 (fld w 6 3)) (fld w 5 1 == 1) (fld w 4 1 == 1))
  | 1 => some (.vredsumOrd (Fin.ofNat 32 (w / 2^19)) (Fin.ofNat 32 (w / 2^14)) (Fin.ofNat 32 (w / 2^9)) (Fin.ofNat 16 (fld w 6 3)) (fld w 5 1 == 1) (fld w 4 1 == 1))
  | 2 => some (.vredmin (Fin.ofNat 32 (w / 2^19)) (Fin.ofNat 32 (w / 2^14)) (Fin.ofNat 32 (w / 2^9)) (Fin.ofNat 16 (fld w 6 3)) (fld w 5 1 == 1) (fld w 4 1 == 1))
  | 3 => some (.vredmax (Fin.ofNat 32 (w / 2^19)) (Fin.ofNat 32 (w / 2^14)) (Fin.ofNat 32 (w / 2^9)) (Fin.ofNat 16 (fld w 6 3)) (fld w 5 1 == 1) (fld w 4 1 == 1))
  | 4 => some (.vredand (Fin.ofNat 32 (w / 2^19)) (Fin.ofNat 32 (w / 2^14)) (Fin.ofNat 32 (w / 2^9)) (Fin.ofNat 16 (fld w 6 3)) (fld w 5 1 == 1) (fld w 4 1 == 1))
  | 5 => some (.vredor (Fin.ofNat 32 (w / 2^19)) (Fin.ofNat 32 (w / 2^14)) (Fin.ofNat 32 (w / 2^9)) (Fin.ofNat 16 (fld w 6 3)) (fld w 5 1 == 1) (fld w 4 1 == 1))
  | 8 => some (.vscan (Fin.ofNat 32 (w / 2^19)) (Fin.ofNat 32 (w / 2^14)) (Fin.ofNat 16 (fld w 6 3)) (fld w 5 1 == 1) (ScanOp.ofCode (fld w 0 2)))
  | 9 => some (.vscan (Fin.ofNat 32 (w / 2^19)) (Fin.ofNat 32 (w / 2^14)) (Fin.ofNat 16 (fld w 6 3)) (fld w 5 1 == 1) (ScanOp.ofCode (fld w 0 2)))
  | 10 => some (.vscan (Fin.ofNat 32 (w / 2^19)) (Fin.ofNat 32 (w / 2^14)) (Fin.ofNat 16 (fld w 6 3)) (fld w 5 1 == 1) (ScanOp.ofCode (fld w 0 2)))
  | 11 => some (.vscan (Fin.ofNat 32 (w / 2^19)) (Fin.ofNat 32 (w / 2^14)) (Fin.ofNat 16 (fld w 6 3)) (fld w 5 1 == 1) (ScanOp.ofCode (fld w 0 2)))
  | 12 => some (.vscanSeg (Fin.ofNat 32 (w / 2^19)) (Fin.ofNat 32 (w / 2^14)) (Fin.ofNat 16 (w / 2^9)) (Fin.ofNat 16 (fld w 6 3)) (fld w 5 1 == 1) (ScanOp.ofCode (fld w 0 2)))
  | 13 => some (.vscanSeg (Fin.ofNat 32 (w / 2^19)) (Fin.ofNat 32 (w / 2^14)) (Fin.ofNat 16 (w / 2^9)) (Fin.ofNat 16 (fld w 6 3)) (fld w 5 1 == 1) (ScanOp.ofCode (fld w 0 2)))
  | 14 => some (.vscanSeg (Fin.ofNat 32 (w / 2^19)) (Fin.ofNat 32 (w / 2^14)) (Fin.ofNat 16 (w / 2^9)) (Fin.ofNat 16 (fld w 6 3)) (fld w 5 1 == 1) (ScanOp.ofCode (fld w 0 2)))
  | 15 => some (.vscanSeg (Fin.ofNat 32 (w / 2^19)) (Fin.ofNat 32 (w / 2^14)) (Fin.ofNat 16 (w / 2^9)) (Fin.ofNat 16 (fld w 6 3)) (fld w 5 1 == 1) (ScanOp.ofCode (fld w 0 2)))
  | _ => none

/-- Major 0x16 (R243 to R248). -/
noncomputable def fieldsPermute (w : Nat) : Option Instr :=
  match fld w 0 4 with
  | 0 => some (.vraise (Fin.ofNat 32 (w / 2^19)) (Fin.ofNat 32 (w / 2^14)) (Fin.ofNat 32 (w / 2^9)) (Fin.ofNat 16 (fld w 6 3)) (fld w 5 1 == 1))
  | 1 => some (.vlower (Fin.ofNat 32 (w / 2^19)) (Fin.ofNat 32 (w / 2^14)) (Fin.ofNat 32 (w / 2^9)) (Fin.ofNat 16 (fld w 6 3)) (fld w 5 1 == 1))
  | 2 => some (.vperm (Fin.ofNat 32 (w / 2^19)) (Fin.ofNat 32 (w / 2^14)) (Fin.ofNat 32 (w / 2^9)) (Fin.ofNat 16 (fld w 6 3)) (fld w 5 1 == 1) (fld w 4 1 == 1))
  | 3 => some (.vrev (Fin.ofNat 32 (w / 2^19)) (Fin.ofNat 32 (w / 2^14)) (Fin.ofNat 16 (fld w 6 3)) (fld w 5 1 == 1))
  | 4 => some (.vzip (Fin.ofNat 32 (w / 2^19)) (Fin.ofNat 32 (w / 2^14)) (Fin.ofNat 32 (w / 2^9)) (Fin.ofNat 16 (fld w 6 3)) (fld w 5 1 == 1) (fld w 4 1 == 1))
  | 5 => some (.vunzip (Fin.ofNat 32 (w / 2^19)) (Fin.ofNat 32 (w / 2^14)) (Fin.ofNat 32 (w / 2^9)) (Fin.ofNat 16 (fld w 6 3)) (fld w 5 1 == 1) (fld w 4 1 == 1))
  | 6 => some (.vsqueeze (Fin.ofNat 32 (w / 2^19)) (Fin.ofNat 32 (w / 2^14)) (Fin.ofNat 16 (fld w 6 3)) (fld w 5 1 == 1))
  | 7 => some (.vspread (Fin.ofNat 32 (w / 2^19)) (Fin.ofNat 32 (w / 2^14)) (Fin.ofNat 16 (fld w 6 3)) (fld w 5 1 == 1))
  | 8 => some (.vrank (Fin.ofNat 32 (w / 2^19)) (Fin.ofNat 16 (fld w 6 3)))
  | _ => none

/-- Major 0x17 (R243 to R248). -/
noncomputable def fieldsDepend (w : Nat) : Option Instr :=
  match fld w 0 4 with
  | 0 => some (.vconf (Fin.ofNat 32 (w / 2^19)) (Fin.ofNat 32 (w / 2^14)) (Fin.ofNat 16 (fld w 6 3)) (fld w 5 1 == 1))
  | 1 => some (.vpart (Fin.ofNat 16 (w / 2^19)) (Fin.ofNat 32 (w / 2^14)) (Fin.ofNat 16 (w / 2^9)) (fld w 5 1 == 1))
  | 2 => some (.vcuti (Fin.ofNat 16 (w / 2^19)) (Fin.ofNat 16 (w / 2^14)) (Fin.ofNat 16 (fld w 6 3)))
  | 3 => some (.vcutx (Fin.ofNat 16 (w / 2^19)) (Fin.ofNat 16 (w / 2^14)) (Fin.ofNat 16 (fld w 6 3)))
  | 4 => some (.vlast (Fin.ofNat 32 (w / 2^19)) (Fin.ofNat 32 (w / 2^14)) (Fin.ofNat 16 (fld w 6 3)) (fld w 5 1 == 1))
  | 5 => some (.vfirst (Fin.ofNat 32 (w / 2^19)) (Fin.ofNat 32 (w / 2^14)) (Fin.ofNat 16 (fld w 6 3)) (fld w 5 1 == 1))
  | _ => none

/-- Major 0x18 (R243 to R248). -/
noncomputable def fieldsConvert (w : Nat) : Option Instr :=
  match fld w 0 4 with
  | 0 => (Tag.ofCode (fld w 9 5)).bind fun t' => some (.vcvt (Fin.ofNat 32 (w / 2^19)) (Fin.ofNat 32 (w / 2^14)) t' (Fin.ofNat 16 (fld w 6 3)) (fld w 5 1 == 1))
  | 1 => some (.vnarrow (Fin.ofNat 32 (w / 2^19)) (Fin.ofNat 32 (w / 2^14)) (Fin.ofNat 32 (w / 2^9)) (Fin.ofNat 16 (fld w 6 3)) (fld w 5 1 == 1))
  | 2 => some (.vwiden (Fin.ofNat 32 (w / 2^19)) (Fin.ofNat 32 (w / 2^14)) (Fin.ofNat 16 (fld w 6 3)) (fld w 5 1 == 1))
  | _ => none

/-- Major 0x19 (R243 to R248). -/
noncomputable def fieldsVLoad (w : Nat) : Option Instr :=
  match fld w 0 2 with
  | 0 => some (.vld (Fin.ofNat 32 (w / 2^19)) (Fin.ofNat 32 (w / 2^14)) (Fin.ofNat 16 (fld w 6 3)) (VMode.ofCode (fld w 4 2)) (Hint.ofCode (fld w 2 2)))
  | 1 => some (.vlds (Fin.ofNat 32 (w / 2^19)) (Fin.ofNat 32 (w / 2^14)) (Fin.ofNat 32 (w / 2^9)) (Fin.ofNat 16 (fld w 6 3)) (VMode.ofCode (fld w 4 2)) (Hint.ofCode (fld w 2 2)))
  | 2 => some (.vldx (Fin.ofNat 32 (w / 2^19)) (Fin.ofNat 32 (w / 2^14)) (Fin.ofNat 32 (w / 2^9)) (Fin.ofNat 16 (fld w 6 3)) (VMode.ofCode (fld w 4 2)) (Hint.ofCode (fld w 2 2)))
  | _ => some (.vldseg (Fin.ofNat 32 (w / 2^19)) (Fin.ofNat 32 (w / 2^14)) (Fin.ofNat 8 (w / 2^11)) (Fin.ofNat 16 (fld w 6 3)) (VMode.ofCode (fld w 4 2)) (Hint.ofCode (fld w 2 2)))

/-- Major 0x1A (R243 to R248). -/
noncomputable def fieldsVStore (w : Nat) : Option Instr :=
  match fld w 0 2 with
  | 0 => some (.vst (Fin.ofNat 32 (w / 2^19)) (Fin.ofNat 32 (w / 2^14)) (Fin.ofNat 16 (fld w 6 3)) (VMode.ofCode (fld w 4 2)) (Hint.ofCode (fld w 2 2)))
  | 1 => some (.vsts (Fin.ofNat 32 (w / 2^19)) (Fin.ofNat 32 (w / 2^14)) (Fin.ofNat 32 (w / 2^9)) (Fin.ofNat 16 (fld w 6 3)) (VMode.ofCode (fld w 4 2)) (Hint.ofCode (fld w 2 2)))
  | 2 => some (.vstx (Fin.ofNat 32 (w / 2^19)) (Fin.ofNat 32 (w / 2^14)) (Fin.ofNat 32 (w / 2^9)) (Fin.ofNat 16 (fld w 6 3)) (VMode.ofCode (fld w 4 2)) (Hint.ofCode (fld w 2 2)))
  | _ => some (.vstseg (Fin.ofNat 32 (w / 2^19)) (Fin.ofNat 32 (w / 2^14)) (Fin.ofNat 8 (w / 2^11)) (Fin.ofNat 16 (fld w 6 3)) (VMode.ofCode (fld w 4 2)) (Hint.ofCode (fld w 2 2)))

/-- Major 0x1B (R243 to R248). -/
noncomputable def fieldsVAtomic (w : Nat) : Option Instr :=
  match fld w 2 4 with
  | 8 => some (.vsave (Fin.ofNat 32 (w / 2^19)) (Fin.ofNat 32 (w / 2^14)))
  | 9 => some (.vrest (Fin.ofNat 32 (w / 2^19)) (Fin.ofNat 32 (w / 2^14)))
  | _ => (VamoOp.ofCode (fld w 2 3)).bind fun o' => some (.vamo (Fin.ofNat 32 (w / 2^19)) (Fin.ofNat 32 (w / 2^14)) (Fin.ofNat 32 (w / 2^9)) (Fin.ofNat 16 (fld w 6 3)) o' (fld w 0 1 == 1) (fld w 1 1 == 1))

/-- Major 0x1C (R243 to R248). -/
noncomputable def fieldsPred (w : Nat) : Option Instr :=
  match fld w 0 4 with
  | 0 => some (.pand (Fin.ofNat 16 (w / 2^19)) (Fin.ofNat 16 (w / 2^14)) (Fin.ofNat 16 (w / 2^9)) (Fin.ofNat 16 (fld w 6 3)))
  | 1 => some (.por (Fin.ofNat 16 (w / 2^19)) (Fin.ofNat 16 (w / 2^14)) (Fin.ofNat 16 (w / 2^9)) (Fin.ofNat 16 (fld w 6 3)))
  | 2 => some (.pxor (Fin.ofNat 16 (w / 2^19)) (Fin.ofNat 16 (w / 2^14)) (Fin.ofNat 16 (w / 2^9)) (Fin.ofNat 16 (fld w 6 3)))
  | 3 => some (.pnot (Fin.ofNat 16 (w / 2^19)) (Fin.ofNat 16 (w / 2^14)) (Fin.ofNat 16 (fld w 6 3)))
  | 4 => some (.pandn (Fin.ofNat 16 (w / 2^19)) (Fin.ofNat 16 (w / 2^14)) (Fin.ofNat 16 (w / 2^9)) (Fin.ofNat 16 (fld w 6 3)))
  | 5 => some (.pafter (Fin.ofNat 16 (w / 2^19)) (Fin.ofNat 16 (w / 2^14)) (Fin.ofNat 16 (fld w 6 3)))
  | 6 => some (.pset (Fin.ofNat 16 (w / 2^19)) (Fin.ofNat 16 (fld w 6 3)))
  | 7 => some (.pclr (Fin.ofNat 16 (w / 2^19)))
  | 8 => some (.pcnt (Fin.ofNat 32 (w / 2^19)) (Fin.ofNat 16 (w / 2^14)) (Fin.ofNat 16 (fld w 6 3)))
  | 9 => some (.pfirst (Fin.ofNat 32 (w / 2^19)) (Fin.ofNat 16 (w / 2^14)) (Fin.ofNat 16 (fld w 6 3)))
  | _ => none

/-- Major 0x1D (R243 to R248). -/
noncomputable def fieldsEngine (w : Nat) : Option Instr :=
  match fld w 5 4 with
  | 0 => some (.cpy (Fin.ofNat 32 (w / 2^19)) (Fin.ofNat 32 (w / 2^14)) (Fin.ofNat 32 (w / 2^9)) (Fin.ofNat 32 (w)))
  | 1 => some (.cpyr (Fin.ofNat 32 (w / 2^19)) (Fin.ofNat 32 (w / 2^14)) (Fin.ofNat 8 (w / 2^9)) (Fin.ofNat 16 (w)))
  | 2 => some (.cpyw (Fin.ofNat 32 (w / 2^19)) (Fin.ofNat 32 (w / 2^14)) (Fin.ofNat 8 (w / 2^9)) (Fin.ofNat 16 (w)))
  | 3 => some (.cpyx (Fin.ofNat 32 (w / 2^19)) (Fin.ofNat 32 (w / 2^14)) (Fin.ofNat 32 (w / 2^9)))
  | 4 => some (.cpym (Fin.ofNat 32 (w / 2^19)) (Fin.ofNat 32 (w / 2^14)))
  | 5 => some (.vrecv (Fin.ofNat 32 (w / 2^19)))
  | 6 => some (.vstream (Fin.ofNat 32 (w / 2^14)) (Fin.ofNat 32 (w / 2^9)))
  | 7 => some (.pwait (Fin.ofNat 16 (w)))
  | 8 => some (.arw (Fin.ofNat 32 (w / 2^19)) (Fin.ofNat 32 (w / 2^14)) (Fin.ofNat 32 (w / 2^9)))
  | 9 => some (.await (Fin.ofNat 32 (w / 2^19)) (Fin.ofNat 32 (w / 2^14)) (Fin.ofNat 32 (w / 2^9)))
  | _ => none

/-- Major 0x1E (R243 to R248). -/
noncomputable def fieldsTask (w : Nat) : Option Instr :=
  match fld w 0 9 with
  | 0 => some (.tspawn (Fin.ofNat 32 (w / 2^19)) (Fin.ofNat 32 (w / 2^14)))
  | 1 => some (.tsig (Fin.ofNat 32 (w / 2^19)) (Fin.ofNat 32 (w / 2^14)))
  | 2 => some .tdone
  | 3 => some (.tkill (Fin.ofNat 32 (w / 2^19)))
  | 4 => some .tyield
  | 5 => some .bar
  | 6 => some (.barinit (Fin.ofNat 32 (w / 2^19)))
  | 7 => some (.qpush (Fin.ofNat 32 (w / 2^19)) (Fin.ofNat 32 (w / 2^14)))
  | 8 => some (.qpop (Fin.ofNat 32 (w / 2^19)) (Fin.ofNat 32 (w / 2^14)))
  | 9 => some (.qsteal (Fin.ofNat 32 (w / 2^19)) (Fin.ofNat 32 (w / 2^14)) (Fin.ofNat 32 (w / 2^9)))
  | 10 => some (.talloc (Fin.ofNat 32 (w / 2^19)) (Fin.ofNat 32 (w / 2^14)))
  | 11 => some (.tst (Fin.ofNat 32 (w / 2^19)) (Fin.ofNat 32 (w / 2^14)))
  | 12 => some (.tld (Fin.ofNat 32 (w / 2^19)) (Fin.ofNat 32 (w / 2^14)))
  | 13 => some (.tpost (Fin.ofNat 32 (w / 2^19)) (Fin.ofNat 32 (w / 2^14)))
  | 14 => some (.tdrop (Fin.ofNat 32 (w / 2^19)))
  | _ => none

/-- The fields of a 32-bit form, by major opcode (R242). -/
noncomputable def fields32 (w : Nat) : Option Instr :=
  match fld w 24 5 with
  | 0 => fieldsSystem w
  | 1 => fieldsIntReg w
  | 2 => some (.pcrel (Fin.ofNat 32 (w / 2^19)) (BitVec.ofNat 19 (w)))
  | 3 => fieldsIntImm w
  | 4 => some (.imhi (Fin.ofNat 32 (w / 2^19)) (BitVec.ofNat 19 (w)))
  | 5 => fieldsLoad w
  | 6 => fieldsStore w
  | 7 => fieldsBranch w
  | 8 => some (.jl (Fin.ofNat 32 (w / 2^19)) (BitVec.ofNat 19 (w)))
  | 9 => fieldsJlr w
  | 10 => fieldsAmo w
  | 12 => fieldsFloat w
  | 16 => fieldsConfig w
  | 17 => fieldsBinary w
  | 19 => fieldsTernary w
  | 20 => fieldsCompare w
  | 21 => fieldsReduce w
  | 22 => fieldsPermute w
  | 23 => fieldsDepend w
  | 24 => fieldsConvert w
  | 25 => fieldsVLoad w
  | 26 => fieldsVStore w
  | 27 => fieldsVAtomic w
  | 28 => fieldsPred w
  | 29 => fieldsEngine w
  | 30 => fieldsTask w
  | _ => none

/-- The codes that exist only in 64 bits (R250). -/
noncomputable def fieldsEvLong (w : Nat) : Option Instr :=
  match fld w 47 9 with
  | 256 => some (.vmulh (Fin.ofNat 32 (w / 2^42)) (Fin.ofNat 32 (w / 2^37)) (Fin.ofNat 32 (w / 2^32)) (Fin.ofNat 16 (w / 2^23)) (fld w 22 1 == 1) (fld w 21 1 == 1) (fld w 19 1 == 1))
  | 257 => some (.vdiv (Fin.ofNat 32 (w / 2^42)) (Fin.ofNat 32 (w / 2^37)) (Fin.ofNat 32 (w / 2^32)) (Fin.ofNat 16 (w / 2^23)) (fld w 22 1 == 1) (fld w 21 1 == 1) (fld w 19 1 == 1))
  | 258 => some (.vrem (Fin.ofNat 32 (w / 2^42)) (Fin.ofNat 32 (w / 2^37)) (Fin.ofNat 32 (w / 2^32)) (Fin.ofNat 16 (w / 2^23)) (fld w 22 1 == 1) (fld w 21 1 == 1) (fld w 19 1 == 1))
  | 259 => some (.vsadd (Fin.ofNat 32 (w / 2^42)) (Fin.ofNat 32 (w / 2^37)) (Fin.ofNat 32 (w / 2^32)) (Fin.ofNat 16 (w / 2^23)) (fld w 22 1 == 1) (fld w 21 1 == 1) (fld w 19 1 == 1))
  | 260 => some (.vssub (Fin.ofNat 32 (w / 2^42)) (Fin.ofNat 32 (w / 2^37)) (Fin.ofNat 32 (w / 2^32)) (Fin.ofNat 16 (w / 2^23)) (fld w 22 1 == 1) (fld w 21 1 == 1) (fld w 19 1 == 1))
  | 261 => some (.vavg (Fin.ofNat 32 (w / 2^42)) (Fin.ofNat 32 (w / 2^37)) (Fin.ofNat 32 (w / 2^32)) (Fin.ofNat 16 (w / 2^23)) (fld w 22 1 == 1) (fld w 21 1 == 1) (fld w 19 1 == 1))
  | 262 => some (.vabsd (Fin.ofNat 32 (w / 2^42)) (Fin.ofNat 32 (w / 2^37)) (Fin.ofNat 32 (w / 2^32)) (Fin.ofNat 16 (w / 2^23)) (fld w 22 1 == 1) (fld w 21 1 == 1) (fld w 19 1 == 1))
  | 263 => some (.vmulhr (Fin.ofNat 32 (w / 2^42)) (Fin.ofNat 32 (w / 2^37)) (Fin.ofNat 32 (w / 2^32)) (Fin.ofNat 16 (w / 2^23)) (fld w 22 1 == 1) (fld w 21 1 == 1) (fld w 19 1 == 1))
  | 264 => (Tag.ofCode (fld w 13 5)).bind fun t' => some (.vqnt (Fin.ofNat 32 (w / 2^42)) (Fin.ofNat 32 (w / 2^32)) (Fin.ofNat 32 (w / 2^37)) t' (Fin.ofNat 16 (w / 2^23)) (fld w 22 1 == 1))
  | 265 => (Tag.ofCode (fld w 13 5)).bind fun t' => some (.vqnte (Fin.ofNat 32 (w / 2^42)) (Fin.ofNat 32 (w / 2^32)) (Fin.ofNat 32 (w / 2^37)) t' (Fin.ofNat 8 (w / 2^10)) (Fin.ofNat 32 (w / 2^5)) (Fin.ofNat 32 (w)) (Fin.ofNat 16 (w / 2^23)) (fld w 22 1 == 1))
  | 266 => (Tag.ofCode (fld w 13 5)).bind fun t' => some (.vdqnt (Fin.ofNat 32 (w / 2^42)) (Fin.ofNat 32 (w / 2^37)) (Fin.ofNat 32 (w / 2^32)) t' (Fin.ofNat 32 (w)) (Fin.ofNat 16 (w / 2^23)) (fld w 22 1 == 1) (fld w 21 1 == 1))
  | 267 => some (.vgathw (Fin.ofNat 32 (w / 2^42)) (Fin.ofNat 32 (w / 2^37)) (Fin.ofNat 32 (w / 2^32)) (Fin.ofNat 32 (w / 2^27)) (Fin.ofNat 16 (w)) (Fin.ofNat 16 (w / 2^23)) (fld w 21 1 == 1))
  | 268 => some (.vldLong (Fin.ofNat 32 (w / 2^42)) (Fin.ofNat 32 (w / 2^37)) (Fin.ofNat 32 (w / 2^32)) (VKind.ofCode (fld w 16 2)) (VMode.ofCode (fld w 14 2)) (Hint.ofCode (fld w 12 2)) (fld w 11 1 == 1) (Scope.ofCode (fld w 9 2)) (Fin.ofNat 8 (w / 2^6)) (Fin.ofNat 16 (w / 2^23)) (fld w 21 1 == 1))
  | 269 => some (.vstLong (Fin.ofNat 32 (w / 2^42)) (Fin.ofNat 32 (w / 2^37)) (Fin.ofNat 32 (w / 2^32)) (VKind.ofCode (fld w 16 2)) (VMode.ofCode (fld w 14 2)) (Hint.ofCode (fld w 12 2)) (fld w 11 1 == 1) (Scope.ofCode (fld w 9 2)) (Fin.ofNat 8 (w / 2^6)) (Fin.ofNat 16 (w / 2^23)) (fld w 21 1 == 1))
  | 270 => (Ew.ofCode (fld w 15 3)).bind fun w' => some (.vloopLong (fld w 14 1 == 1) (Fin.ofNat 32 (w / 2^37)) (Fin.ofNat 32 (w / 2^32)) w' (BitVec.ofNat 14 (w)))
  | _ => none

/-- An EV word (R249, R250). -/
noncomputable def fieldsEv (w : Nat) : Option Instr :=
  if fld w 55 1 = 0 then (EvOp.ofCode (fld w 47 9)).bind fun op' => some (.evExtended op' (Fin.ofNat 32 (w / 2^42)) (Fin.ofNat 32 (w / 2^37)) (Fin.ofNat 32 (w / 2^32)) (Fin.ofNat 32 (w / 2^27)) (Fin.ofNat 16 (w / 2^23)) (fld w 22 1 == 1) (fld w 21 1 == 1) (fld w 20 1 == 1) (fld w 19 1 == 1))
  else fieldsEvLong w

/-- An MX word (R251, R337). -/
noncomputable def fieldsMx (w : Nat) : Option Instr :=
  match fld w 51 5 with
  | 0 => some (.mcfg (Fin.ofNat 32 (w / 2^23)) (Fin.ofNat 32 (w / 2^18)))
  | 1 => (TileRef.ofCode (fld w 48 3)).bind fun t' => some (.mzero t')
  | 2 => (TileRef.ofCode (fld w 48 3)).bind fun t' => some (.mop t' (Fin.ofNat 32 (w / 2^43)) (Fin.ofNat 32 (w / 2^38)) (Fin.ofNat 32 (w / 2^33)) (Fin.ofNat 32 (w / 2^28)) (Fin.ofNat 32 (w / 2^23)) (Fin.ofNat 32 (w / 2^18)) (Fin.ofNat 16 (w / 2^14)) (fld w 13 1 == 1) (fld w 12 1 == 1))
  | 3 => (TileRef.ofCode (fld w 48 3)).bind fun t' => (fin3OfCode (fld w 10 2)).bind fun n1' => (fin3OfCode (fld w 8 2)).bind fun n2' => some (.mops t' (Fin.ofNat 32 (w / 2^43)) (Fin.ofNat 32 (w / 2^38)) (Fin.ofNat 32 (w / 2^33)) (Fin.ofNat 32 (w / 2^28)) (Fin.ofNat 32 (w / 2^23)) (Fin.ofNat 32 (w / 2^18)) (Fin.ofNat 16 (w / 2^14)) (fld w 13 1 == 1) (fld w 12 1 == 1) n1' n2' (Fin.ofNat 32 (w / 2^1)))
  | 4 => (TileRef.ofCode (fld w 48 3)).bind fun t' => some (.mrow t' (Fin.ofNat 32 (w / 2^43)) (Fin.ofNat 32 (w / 2^23)) (Fin.ofNat 32 (w / 2^18)) (Fin.ofNat 16 (w / 2^14)))
  | 5 => (TileRef.ofCode (fld w 48 3)).bind fun t' => some (.mwrow t' (Fin.ofNat 32 (w / 2^43)) (Fin.ofNat 32 (w / 2^23)) (Fin.ofNat 32 (w / 2^18)) (Fin.ofNat 16 (w / 2^14)) (fld w 13 1 == 1))
  | 6 => (TileRef.ofCode (fld w 48 3)).bind fun t' => some (.mld t' (Fin.ofNat 32 (w / 2^23)) (Fin.ofNat 32 (w / 2^18)))
  | 7 => (TileRef.ofCode (fld w 48 3)).bind fun t' => some (.mst t' (Fin.ofNat 32 (w / 2^23)) (Fin.ofNat 32 (w / 2^18)))
  | 8 => some (.msave (Fin.ofNat 32 (w / 2^23)))
  | 9 => some (.mrest (Fin.ofNat 32 (w / 2^23)))
  | 10 => (TileRef.ofCode (fld w 48 3)).bind fun t' => some (.mjoin t' (Fin.ofNat 32 (w / 2^23)) (Fin.ofNat 32 (w / 2^18)))
  | 11 => (TileRef.ofCode (fld w 48 3)).bind fun t' => some (.msplit t' (Fin.ofNat 32 (w / 2^23)))
  | 12 => some (.olset (Fin.ofNat 32 (w / 2^23)) (Fin.ofNat 32 (w / 2^18)))
  | 13 => some (.olclr (Fin.ofNat 32 (w / 2^23)))
  | 14 => some (.olcnt (Fin.ofNat 32 (w / 2^18)) (Fin.ofNat 32 (w / 2^23)))
  | _ => none

/-- The fields of a 64-bit form (R249). -/
noncomputable def fields64 (w : Nat) : Option Instr :=
  match fld w 56 5 with
  | 1 => fieldsEv w
  | 8 => fieldsMx w
  | _ => none

/-- The length in bits and the written word of an instruction; events have none (R237 to R251). -/
def Instr.encode : Instr → Option (Nat × Nat)
  | .deviceReset _ _ _ => none
  | .hostLinkTrain _ _ => none
  | .fabricIdAssign _ => none
  | .flitCrcError _ _ _ => none
  | .mbawynLaneSpare _ => none
  | .linkRetrainDone _ => none
  | .linkRetire _ => none
  | .filterEntryFree _ => none
  | .filterProbeTimeout _ => none
  | .deviceFenced => none
  | .fenceCleared => none
  | .hbmChannelRetrain _ _ => none
  | .hbmRetrainDone _ _ => none
  | .coreFail _ => none
  | .coreQuiesce _ => none
  | .poolPortDown _ => none
  | .poolRerouteDone _ _ => none
  | .rerouteTimeout _ => none
  | .poolPathReturn _ => none
  | .reattachCheckDone _ _ => none
  | .quarantineWritebackDone _ => none
  | .graceExpiry _ => none
  | .bisnp _ _ _ _ => none
  | .poolWriteAck _ => none
  | .dynamicCapacityRelease _ => none
  | .attestationRequest _ _ => none
  | .gets _ _ _ _ => none
  | .geto _ _ _ _ => none
  | .upg _ _ _ _ => none
  | .putd _ _ _ => none
  | .pinv _ _ => none
  | .pdwn _ _ => none
  | .data _ _ => none
  | .grant _ _ => none
  | .ack _ _ => none
  | .absent _ _ => none
  | .probeTimeout _ _ => none
  | .controlTimeout _ => none
  | .patrolScrub _ _ => none
  | .roustaboutWriteback _ _ => none
  | .powerCapUpdate _ _ => none
  | .gatingMarkTimeout _ _ => none
  | .l2WayGate _ _ => none
  | .scratchpadGate _ => none
  | .wakeComplete _ _ _ => none
  | .gangPlacement _ => none
  | .gangReserve _ => none
  | .workSteal _ => none
  | .arrivalPreemption _ _ => none
  | .timeSliceExpiry _ _ => none
  | .preemption _ _ => none
  | .rePlacement _ => none
  | .pendingTableFit _ _ => none
  | .interruptDelivery _ _ => none
  | .deferredFaultRaise _ => none
  | .registerSpill _ _ => none
  | .memoryRead _ _ => none
  | .drain _ _ => none
  | .ticket _ => none
  | .engineChunk _ _ _ => none
  | .stripLand _ _ => none
  | .engineMigRetry _ _ => none
  | .waitTimeout _ => none
  | .pcSample _ _ => none
  | .lqdbDoorbell _ _ => none
  | .lqbaseWrite _ _ => none
  | .lqctlEnable _ _ => none
  | .lqctlRst _ _ => none
  | .packetFetch _ => none
  | .waitPacketComplete _ => none
  | .counterFreeze _ => none
  | .fenceRelease _ => none
  | .ctxdropUnbind _ => none
  | .pregionAttach _ _ => none
  | .identityCheckDone _ _ => none
  | .identityCheckAbandon _ => none
  | .pregionFree _ _ => none
  | .fabstRejoin => none
  | .swint _ => none
  | .tsctlWrite _ _ => none
  | .tspartWrite _ _ => none
  | .debugSetWrite _ _ => none
  | .dbghartHalt _ => none
  | .dbgdatRead => none
  | .dbgdatWrite _ => none
  | .trctlWrite _ _ => none
  | .hubRegisterWrite _ _ _ _ => none
  | .xinvComplete _ => none
  | .cAdd d b => some (16, pack 0x0 [(d.val, 5), (b.val, 0)])
  | .cSub d b => some (16, pack 0x400 [(d.val, 5), (b.val, 0)])
  | .cAnd d b => some (16, pack 0x800 [(d.val, 5), (b.val, 0)])
  | .cOr d b => some (16, pack 0xC00 [(d.val, 5), (b.val, 0)])
  | .cXor d b => some (16, pack 0x1000 [(d.val, 5), (b.val, 0)])
  | .cMv d b => some (16, pack 0x1400 [(d.val, 5), (b.val, 0)])
  | .cJlr d b => some (16, pack 0x1800 [(d.val, 5), (b.val, 0)])
  | .cAddi d i => some (16, pack 0x2000 [(d.val, 5), (i.toNat, 0)])
  | .cAddiX0 d i => some (16, pack 0x2400 [(d.val, 5), (i.toNat, 0)])
  | .cShli d i => some (16, pack 0x2800 [(d.val, 5), (i.toNat, 0)])
  | .cShri d i => some (16, pack 0x2C00 [(d.val, 5), (i.toNat, 0)])
  | .cSari d i => some (16, pack 0x3000 [(d.val, 5), (i.toNat, 0)])
  | .cAndi d i => some (16, pack 0x3400 [(d.val, 5), (i.toNat, 0)])
  | .cLd64 d a o => some (16, pack 0x4000 [(d.val, 8), (a.val, 3), (o.toNat, 0)])
  | .cSt64 s a o => some (16, pack 0x6000 [(s.val, 8), (a.val, 3), (o.toNat, 0)])
  | .cBeq a o => some (16, pack 0x8000 [(a.val, 7), (o.toNat, 0)])
  | .cBne a o => some (16, pack 0x9000 [(a.val, 7), (o.toNat, 0)])
  | .cJ o => some (16, pack 0xA000 [(o.toNat, 0)])
  | .cNop => some (16, pack 0xA000 [])
  | .add d a b => some (32, pack 0xC1000000 [(d.val, 19), (a.val, 14), (b.val, 9)])
  | .sub d a b => some (32, pack 0xC1000001 [(d.val, 19), (a.val, 14), (b.val, 9)])
  | .and d a b => some (32, pack 0xC1000002 [(d.val, 19), (a.val, 14), (b.val, 9)])
  | .or d a b => some (32, pack 0xC1000003 [(d.val, 19), (a.val, 14), (b.val, 9)])
  | .xor d a b => some (32, pack 0xC1000004 [(d.val, 19), (a.val, 14), (b.val, 9)])
  | .shl d a b => some (32, pack 0xC1000005 [(d.val, 19), (a.val, 14), (b.val, 9)])
  | .shr d a b => some (32, pack 0xC1000006 [(d.val, 19), (a.val, 14), (b.val, 9)])
  | .sar d a b => some (32, pack 0xC1000007 [(d.val, 19), (a.val, 14), (b.val, 9)])
  | .slt d a b => some (32, pack 0xC1000008 [(d.val, 19), (a.val, 14), (b.val, 9)])
  | .sltn d a b => some (32, pack 0xC1000009 [(d.val, 19), (a.val, 14), (b.val, 9)])
  | .mul d a b => some (32, pack 0xC100000A [(d.val, 19), (a.val, 14), (b.val, 9)])
  | .mulh d a b => some (32, pack 0xC100000B [(d.val, 19), (a.val, 14), (b.val, 9)])
  | .mulhn d a b => some (32, pack 0xC100000C [(d.val, 19), (a.val, 14), (b.val, 9)])
  | .div d a b => some (32, pack 0xC100000D [(d.val, 19), (a.val, 14), (b.val, 9)])
  | .divn d a b => some (32, pack 0xC100000E [(d.val, 19), (a.val, 14), (b.val, 9)])
  | .rem d a b => some (32, pack 0xC100000F [(d.val, 19), (a.val, 14), (b.val, 9)])
  | .remn d a b => some (32, pack 0xC1000010 [(d.val, 19), (a.val, 14), (b.val, 9)])
  | .min d a b => some (32, pack 0xC1000011 [(d.val, 19), (a.val, 14), (b.val, 9)])
  | .max d a b => some (32, pack 0xC1000012 [(d.val, 19), (a.val, 14), (b.val, 9)])
  | .minn d a b => some (32, pack 0xC1000013 [(d.val, 19), (a.val, 14), (b.val, 9)])
  | .maxn d a b => some (32, pack 0xC1000014 [(d.val, 19), (a.val, 14), (b.val, 9)])
  | .clz d a => some (32, pack 0xC1000015 [(d.val, 19), (a.val, 14)])
  | .ctz d a => some (32, pack 0xC1000016 [(d.val, 19), (a.val, 14)])
  | .popc d a => some (32, pack 0xC1000017 [(d.val, 19), (a.val, 14)])
  | .pcrel d i => some (32, pack 0xC2000000 [(d.val, 19), (i.toNat, 0)])
  | .imhi d i => some (32, pack 0xC4000000 [(d.val, 19), (i.toNat, 0)])
  | .addi d a i => some (32, pack 0xC3000000 [(d.val, 19), (a.val, 14), (i.toNat, 0)])
  | .andi d a i => some (32, pack 0xC3000800 [(d.val, 19), (a.val, 14), (i.toNat, 0)])
  | .ori d a i => some (32, pack 0xC3001000 [(d.val, 19), (a.val, 14), (i.toNat, 0)])
  | .xori d a i => some (32, pack 0xC3001800 [(d.val, 19), (a.val, 14), (i.toNat, 0)])
  | .slti d a i => some (32, pack 0xC3002000 [(d.val, 19), (a.val, 14), (i.toNat, 0)])
  | .shli d a i => some (32, pack 0xC3002800 [(d.val, 19), (a.val, 14), (i.toNat, 0)])
  | .shri d a i => some (32, pack 0xC3003000 [(d.val, 19), (a.val, 14), (i.toNat, 0)])
  | .sari d a i => some (32, pack 0xC3003800 [(d.val, 19), (a.val, 14), (i.toNat, 0)])
  | .ld8 d a i => some (32, pack 0xC5000000 [(d.val, 19), (a.val, 14), (i.toNat, 0)])
  | .ld16 d a i => some (32, pack 0xC5000800 [(d.val, 19), (a.val, 14), (i.toNat, 0)])
  | .ld32 d a i => some (32, pack 0xC5001000 [(d.val, 19), (a.val, 14), (i.toNat, 0)])
  | .ld64 d a i => some (32, pack 0xC5001800 [(d.val, 19), (a.val, 14), (i.toNat, 0)])
  | .ld8z d a i => some (32, pack 0xC5002000 [(d.val, 19), (a.val, 14), (i.toNat, 0)])
  | .ld16z d a i => some (32, pack 0xC5002800 [(d.val, 19), (a.val, 14), (i.toNat, 0)])
  | .ld32z d a i => some (32, pack 0xC5003000 [(d.val, 19), (a.val, 14), (i.toNat, 0)])
  | .ldAcq d a s z o => some (32, pack 0xC5003800 [(d.val, 19), (a.val, 14), (s.code, 9), (z.code, 6), (o.toNat, 0)])
  | .st8 s a i => some (32, pack 0xC6000000 [(s.val, 19), (a.val, 14), (i.toNat, 0)])
  | .st16 s a i => some (32, pack 0xC6000800 [(s.val, 19), (a.val, 14), (i.toNat, 0)])
  | .st32 s a i => some (32, pack 0xC6001000 [(s.val, 19), (a.val, 14), (i.toNat, 0)])
  | .st64 s a i => some (32, pack 0xC6001800 [(s.val, 19), (a.val, 14), (i.toNat, 0)])
  | .stRel t a s z o => some (32, pack 0xC6003800 [(t.val, 19), (a.val, 14), (s.code, 9), (z.code, 6), (o.toNat, 0)])
  | .beq a b o => some (32, pack 0xC7000000 [(a.val, 19), (b.val, 14), (o.toNat, 0)])
  | .bne a b o => some (32, pack 0xC7000800 [(a.val, 19), (b.val, 14), (o.toNat, 0)])
  | .blt a b o => some (32, pack 0xC7001000 [(a.val, 19), (b.val, 14), (o.toNat, 0)])
  | .bge a b o => some (32, pack 0xC7001800 [(a.val, 19), (b.val, 14), (o.toNat, 0)])
  | .bltn a b o => some (32, pack 0xC7002000 [(a.val, 19), (b.val, 14), (o.toNat, 0)])
  | .bgen a b o => some (32, pack 0xC7002800 [(a.val, 19), (b.val, 14), (o.toNat, 0)])
  | .jl l o => some (32, pack 0xC8000000 [(l.val, 19), (o.toNat, 0)])
  | .jlr l a i => some (32, pack 0xC9000000 [(l.val, 19), (a.val, 14), (i.toNat, 0)])
  | .amoAdd d a b w q r s => some (32, pack 0xCA000000 [(d.val, 19), (a.val, 14), (b.val, 9), (w.toNat, 5), (q.toNat, 3), (r.toNat, 2), (s.code, 0)])
  | .amoAnd d a b w q r s => some (32, pack 0xCA000040 [(d.val, 19), (a.val, 14), (b.val, 9), (w.toNat, 5), (q.toNat, 3), (r.toNat, 2), (s.code, 0)])
  | .amoOr d a b w q r s => some (32, pack 0xCA000080 [(d.val, 19), (a.val, 14), (b.val, 9), (w.toNat, 5), (q.toNat, 3), (r.toNat, 2), (s.code, 0)])
  | .amoXor d a b w q r s => some (32, pack 0xCA0000C0 [(d.val, 19), (a.val, 14), (b.val, 9), (w.toNat, 5), (q.toNat, 3), (r.toNat, 2), (s.code, 0)])
  | .amoMin d a b w n q r s => some (32, pack 0xCA000100 [(d.val, 19), (a.val, 14), (b.val, 9), (w.toNat, 5), (n.toNat, 4), (q.toNat, 3), (r.toNat, 2), (s.code, 0)])
  | .amoMax d a b w n q r s => some (32, pack 0xCA000140 [(d.val, 19), (a.val, 14), (b.val, 9), (w.toNat, 5), (n.toNat, 4), (q.toNat, 3), (r.toNat, 2), (s.code, 0)])
  | .amoSwap d a b w q r s => some (32, pack 0xCA000180 [(d.val, 19), (a.val, 14), (b.val, 9), (w.toNat, 5), (q.toNat, 3), (r.toNat, 2), (s.code, 0)])
  | .amoCas d a b w q r s => some (32, pack 0xCA0001C0 [(d.val, 19), (a.val, 14), (b.val, 9), (w.toNat, 5), (q.toNat, 3), (r.toNat, 2), (s.code, 0)])
  | .fadd d a b t => some (32, pack 0xCC000000 [(d.val, 19), (a.val, 14), (b.val, 9), (t.code, 0)])
  | .fsub d a b t => some (32, pack 0xCC000020 [(d.val, 19), (a.val, 14), (b.val, 9), (t.code, 0)])
  | .fmul d a b t => some (32, pack 0xCC000040 [(d.val, 19), (a.val, 14), (b.val, 9), (t.code, 0)])
  | .fdiv d a b t => some (32, pack 0xCC000060 [(d.val, 19), (a.val, 14), (b.val, 9), (t.code, 0)])
  | .fsqrt d a t => some (32, pack 0xCC000080 [(d.val, 19), (a.val, 14), (t.code, 0)])
  | .fma d a b t => some (32, pack 0xCC0000A0 [(d.val, 19), (a.val, 14), (b.val, 9), (t.code, 0)])
  | .fmin d a b t => some (32, pack 0xCC0000C0 [(d.val, 19), (a.val, 14), (b.val, 9), (t.code, 0)])
  | .fmax d a b t => some (32, pack 0xCC0000E0 [(d.val, 19), (a.val, 14), (b.val, 9), (t.code, 0)])
  | .fcmpEq d a b t => some (32, pack 0xCC000100 [(d.val, 19), (a.val, 14), (b.val, 9), (t.code, 0)])
  | .fcmpLt d a b t => some (32, pack 0xCC000120 [(d.val, 19), (a.val, 14), (b.val, 9), (t.code, 0)])
  | .fcmpLe d a b t => some (32, pack 0xCC000140 [(d.val, 19), (a.val, 14), (b.val, 9), (t.code, 0)])
  | .fcmpUn d a b t => some (32, pack 0xCC000160 [(d.val, 19), (a.val, 14), (b.val, 9), (t.code, 0)])
  | .fcvt d a f t => some (32, pack 0xCC000180 [(d.val, 19), (a.val, 14), (f.code, 9), (t.code, 0)])
  | .fclass d a t => some (32, pack 0xCC0001A0 [(d.val, 19), (a.val, 14), (t.code, 0)])
  | .nop => some (32, pack 0xC0000000 [])
  | .trap i => some (32, pack 0xC0080000 [(i.toNat, 0)])
  | .eret => some (32, pack 0xC0100000 [])
  | .wait a => some (32, pack 0xC0180000 [(a.val, 14)])
  | .fenceAcq s => some (32, pack 0xC0200000 [(s.code, 4)])
  | .fenceRel e s => some (32, pack 0xC0200080 [(e.toNat, 6), (s.code, 4)])
  | .fenceRw e s => some (32, pack 0xC0200100 [(e.toNat, 6), (s.code, 4)])
  | .xinv a b => some (32, pack 0xC0280000 [(a.val, 14), (b.val, 9)])
  | .xinvAll => some (32, pack 0xC0280100 [])
  | .cacheopWb a => some (32, pack 0xC0300000 [(a.val, 14)])
  | .cacheopWbinv a => some (32, pack 0xC0300001 [(a.val, 14)])
  | .cacheopInv a => some (32, pack 0xC0300002 [(a.val, 14)])
  | .cacheopIfetch => some (32, pack 0xC0300003 [])
  | .brk => some (32, pack 0xC0380000 [])
  | .halt => some (32, pack 0xC0400000 [])
  | .mrd d m => some (32, pack 0xC0480000 [(d.val, 14), (m.toNat, 0)])
  | .mwr a m => some (32, pack 0xC0500000 [(a.val, 14), (m.toNat, 0)])
  | .setvl d a w => some (32, pack 0xD0000000 [(d.val, 19), (a.val, 14), (w.code, 8)])
  | .setvlG d a w => some (32, pack 0xD0000800 [(d.val, 19), (a.val, 14), (w.code, 8)])
  | .vloop l c w e => some (32, pack 0xD0001000 [(l.val, 19), (c.val, 14), (w.code, 8), (e.toNat, 0)])
  | .vloopPar l c w e => some (32, pack 0xD0001800 [(l.val, 19), (c.val, 14), (w.code, 8), (e.toNat, 0)])
  | .vloopLong par l c w e => some (64, pack 0xE187000000080000 [(par.toNat, 14), (l.val, 37), (c.val, 32), (w.code, 15), (e.toNat, 0)])
  | .vend a => some (32, pack 0xD0002000 [(a.val, 14)])
  | .vtag d t => some (32, pack 0xD0002800 [(d.val, 19), (t.code, 0)])
  | .vadd d a b p c k => some (32, pack 0xD1000000 [(d.val, 19), (a.val, 14), (b.val, 9), (p.val, 6), (c.toNat, 5), (k.toNat, 4)])
  | .vsub d a b p c k => some (32, pack 0xD1000001 [(d.val, 19), (a.val, 14), (b.val, 9), (p.val, 6), (c.toNat, 5), (k.toNat, 4)])
  | .vmul d a b p c k => some (32, pack 0xD1000002 [(d.val, 19), (a.val, 14), (b.val, 9), (p.val, 6), (c.toNat, 5), (k.toNat, 4)])
  | .vmin d a b p c k => some (32, pack 0xD1000003 [(d.val, 19), (a.val, 14), (b.val, 9), (p.val, 6), (c.toNat, 5), (k.toNat, 4)])
  | .vmax d a b p c k => some (32, pack 0xD1000004 [(d.val, 19), (a.val, 14), (b.val, 9), (p.val, 6), (c.toNat, 5), (k.toNat, 4)])
  | .vand d a b p c k => some (32, pack 0xD1000005 [(d.val, 19), (a.val, 14), (b.val, 9), (p.val, 6), (c.toNat, 5), (k.toNat, 4)])
  | .vor d a b p c k => some (32, pack 0xD1000006 [(d.val, 19), (a.val, 14), (b.val, 9), (p.val, 6), (c.toNat, 5), (k.toNat, 4)])
  | .vxor d a b p c k => some (32, pack 0xD1000007 [(d.val, 19), (a.val, 14), (b.val, 9), (p.val, 6), (c.toNat, 5), (k.toNat, 4)])
  | .vaddVx d a x p c => some (32, pack 0xD1000008 [(d.val, 19), (a.val, 14), (x.val, 9), (p.val, 6), (c.toNat, 5)])
  | .vsubVx d a x p c => some (32, pack 0xD1000009 [(d.val, 19), (a.val, 14), (x.val, 9), (p.val, 6), (c.toNat, 5)])
  | .vmulVx d a x p c => some (32, pack 0xD100000A [(d.val, 19), (a.val, 14), (x.val, 9), (p.val, 6), (c.toNat, 5)])
  | .vminVx d a x p c => some (32, pack 0xD100000B [(d.val, 19), (a.val, 14), (x.val, 9), (p.val, 6), (c.toNat, 5)])
  | .vmaxVx d a x p c => some (32, pack 0xD100000C [(d.val, 19), (a.val, 14), (x.val, 9), (p.val, 6), (c.toNat, 5)])
  | .vandVx d a x p c => some (32, pack 0xD100000D [(d.val, 19), (a.val, 14), (x.val, 9), (p.val, 6), (c.toNat, 5)])
  | .vorVx d a x p c => some (32, pack 0xD100000E [(d.val, 19), (a.val, 14), (x.val, 9), (p.val, 6), (c.toNat, 5)])
  | .vxorVx d a x p c => some (32, pack 0xD100000F [(d.val, 19), (a.val, 14), (x.val, 9), (p.val, 6), (c.toNat, 5)])
  | .vfma d a b p c k => some (32, pack 0xD3000000 [(d.val, 19), (a.val, 14), (b.val, 9), (p.val, 6), (c.toNat, 5), (k.toNat, 4)])
  | .vfms d a b p c k => some (32, pack 0xD3000001 [(d.val, 19), (a.val, 14), (b.val, 9), (p.val, 6), (c.toNat, 5), (k.toNat, 4)])
  | .vfnma d a b p c k => some (32, pack 0xD3000002 [(d.val, 19), (a.val, 14), (b.val, 9), (p.val, 6), (c.toNat, 5), (k.toNat, 4)])
  | .vmacw d a b p c k => some (32, pack 0xD3000003 [(d.val, 19), (a.val, 14), (b.val, 9), (p.val, 6), (c.toNat, 5), (k.toNat, 4)])
  | .vfmaVx d a x p c => some (32, pack 0xD3000004 [(d.val, 19), (a.val, 14), (x.val, 9), (p.val, 6), (c.toNat, 5)])
  | .vfmsVx d a x p c => some (32, pack 0xD3000005 [(d.val, 19), (a.val, 14), (x.val, 9), (p.val, 6), (c.toNat, 5)])
  | .vfnmaVx d a x p c => some (32, pack 0xD3000006 [(d.val, 19), (a.val, 14), (x.val, 9), (p.val, 6), (c.toNat, 5)])
  | .vmacwVx d a x p c => some (32, pack 0xD3000007 [(d.val, 19), (a.val, 14), (x.val, 9), (p.val, 6), (c.toNat, 5)])
  | .vneg d a p c => some (32, pack 0xD3000008 [(d.val, 19), (a.val, 14), (p.val, 6), (c.toNat, 5)])
  | .vabs d a p c => some (32, pack 0xD3000208 [(d.val, 19), (a.val, 14), (p.val, 6), (c.toNat, 5)])
  | .vsqrt d a p c => some (32, pack 0xD3000408 [(d.val, 19), (a.val, 14), (p.val, 6), (c.toNat, 5)])
  | .vrcp d a p c => some (32, pack 0xD3000608 [(d.val, 19), (a.val, 14), (p.val, 6), (c.toNat, 5)])
  | .vrsqrt d a p c => some (32, pack 0xD3000808 [(d.val, 19), (a.val, 14), (p.val, 6), (c.toNat, 5)])
  | .vexp2 d a p c => some (32, pack 0xD3000A08 [(d.val, 19), (a.val, 14), (p.val, 6), (c.toNat, 5)])
  | .vclz d a p c => some (32, pack 0xD3000C08 [(d.val, 19), (a.val, 14), (p.val, 6), (c.toNat, 5)])
  | .vpopc d a p c => some (32, pack 0xD3000E08 [(d.val, 19), (a.val, 14), (p.val, 6), (c.toNat, 5)])
  | .vclass d a p c => some (32, pack 0xD3001008 [(d.val, 19), (a.val, 14), (p.val, 6), (c.toNat, 5)])
  | .vmv d a p c => some (32, pack 0xD3001208 [(d.val, 19), (a.val, 14), (p.val, 6), (c.toNat, 5)])
  | .vsel d a b p c k => some (32, pack 0xD3000009 [(d.val, 19), (a.val, 14), (b.val, 9), (p.val, 6), (c.toNat, 5), (k.toNat, 4)])
  | .vsplat d x p => some (32, pack 0xD300000A [(d.val, 19), (x.val, 9), (p.val, 6)])
  | .vid d p => some (32, pack 0xD300000B [(d.val, 19), (p.val, 6)])
  | .vshl d a b p c k => some (32, pack 0xD300000C [(d.val, 19), (a.val, 14), (b.val, 9), (p.val, 6), (c.toNat, 5), (k.toNat, 4)])
  | .vshr d a b p c k => some (32, pack 0xD300000D [(d.val, 19), (a.val, 14), (b.val, 9), (p.val, 6), (c.toNat, 5), (k.toNat, 4)])
  | .vshlVx d a x p c => some (32, pack 0xD300000E [(d.val, 19), (a.val, 14), (x.val, 9), (p.val, 6), (c.toNat, 5)])
  | .vshrVx d a x p c => some (32, pack 0xD300000F [(d.val, 19), (a.val, 14), (x.val, 9), (p.val, 6), (c.toNat, 5)])
  | .vcmp q a b m c k n => some (32, pack 0xD4000000 [(q.val, 19), (a.val, 14), (b.val, 9), (m.val, 6), (c.toNat, 5), (k.toNat, 4), (n.code, 0)])
  | .vcmpVx q a x m c n => some (32, pack 0xD4000008 [(q.val, 19), (a.val, 14), (x.val, 9), (m.val, 6), (c.toNat, 5), (n.code, 0)])
  | .vredsum d a b p c k => some (32, pack 0xD5000000 [(d.val, 19), (a.val, 14), (b.val, 9), (p.val, 6), (c.toNat, 5), (k.toNat, 4)])
  | .vredsumOrd d a b p c k => some (32, pack 0xD5000001 [(d.val, 19), (a.val, 14), (b.val, 9), (p.val, 6), (c.toNat, 5), (k.toNat, 4)])
  | .vredmin d a b p c k => some (32, pack 0xD5000002 [(d.val, 19), (a.val, 14), (b.val, 9), (p.val, 6), (c.toNat, 5), (k.toNat, 4)])
  | .vredmax d a b p c k => some (32, pack 0xD5000003 [(d.val, 19), (a.val, 14), (b.val, 9), (p.val, 6), (c.toNat, 5), (k.toNat, 4)])
  | .vredand d a b p c k => some (32, pack 0xD5000004 [(d.val, 19), (a.val, 14), (b.val, 9), (p.val, 6), (c.toNat, 5), (k.toNat, 4)])
  | .vredor d a b p c k => some (32, pack 0xD5000005 [(d.val, 19), (a.val, 14), (b.val, 9), (p.val, 6), (c.toNat, 5), (k.toNat, 4)])
  | .vscan d a p c o => some (32, pack 0xD5000008 [(d.val, 19), (a.val, 14), (p.val, 6), (c.toNat, 5), (o.code, 0)])
  | .vscanSeg d a s p c o => some (32, pack 0xD500000C [(d.val, 19), (a.val, 14), (s.val, 9), (p.val, 6), (c.toNat, 5), (o.code, 0)])
  | .vraise d a x p c => some (32, pack 0xD6000000 [(d.val, 19), (a.val, 14), (x.val, 9), (p.val, 6), (c.toNat, 5)])
  | .vlower d a x p c => some (32, pack 0xD6000001 [(d.val, 19), (a.val, 14), (x.val, 9), (p.val, 6), (c.toNat, 5)])
  | .vperm d a b p c k => some (32, pack 0xD6000002 [(d.val, 19), (a.val, 14), (b.val, 9), (p.val, 6), (c.toNat, 5), (k.toNat, 4)])
  | .vrev d a p c => some (32, pack 0xD6000003 [(d.val, 19), (a.val, 14), (p.val, 6), (c.toNat, 5)])
  | .vzip d a b p c k => some (32, pack 0xD6000004 [(d.val, 19), (a.val, 14), (b.val, 9), (p.val, 6), (c.toNat, 5), (k.toNat, 4)])
  | .vunzip d a b p c k => some (32, pack 0xD6000005 [(d.val, 19), (a.val, 14), (b.val, 9), (p.val, 6), (c.toNat, 5), (k.toNat, 4)])
  | .vsqueeze d a p c => some (32, pack 0xD6000006 [(d.val, 19), (a.val, 14), (p.val, 6), (c.toNat, 5)])
  | .vspread d a p c => some (32, pack 0xD6000007 [(d.val, 19), (a.val, 14), (p.val, 6), (c.toNat, 5)])
  | .vrank d p => some (32, pack 0xD6000008 [(d.val, 19), (p.val, 6)])
  | .vconf d a p c => some (32, pack 0xD7000000 [(d.val, 19), (a.val, 14), (p.val, 6), (c.toNat, 5)])
  | .vpart q a s c => some (32, pack 0xD7000001 [(q.val, 19), (a.val, 14), (s.val, 9), (c.toNat, 5)])
  | .vcuti q r m => some (32, pack 0xD7000002 [(q.val, 19), (r.val, 14), (m.val, 6)])
  | .vcutx q r m => some (32, pack 0xD7000003 [(q.val, 19), (r.val, 14), (m.val, 6)])
  | .vlast d a p c => some (32, pack 0xD7000004 [(d.val, 19), (a.val, 14), (p.val, 6), (c.toNat, 5)])
  | .vfirst d a p c => some (32, pack 0xD7000005 [(d.val, 19), (a.val, 14), (p.val, 6), (c.toNat, 5)])
  | .vcvt d a t p c => some (32, pack 0xD8000000 [(d.val, 19), (a.val, 14), (t.code, 9), (p.val, 6), (c.toNat, 5)])
  | .vnarrow d a x p c => some (32, pack 0xD8000001 [(d.val, 19), (a.val, 14), (x.val, 9), (p.val, 6), (c.toNat, 5)])
  | .vwiden d a p c => some (32, pack 0xD8000002 [(d.val, 19), (a.val, 14), (p.val, 6), (c.toNat, 5)])
  | .evExtended op d a b c p ca cb cc sb => some (64, pack 0xE100000000000000 [(op.code, 47), (d.val, 42), (a.val, 37), (b.val, 32), (c.val, 27), (p.val, 23), (ca.toNat, 22), (cb.toNat, 21), (cc.toNat, 20), (sb.toNat, 19)])
  | .vmulh d a b p ca cb sb => some (64, pack 0xE180000000000000 [(d.val, 42), (a.val, 37), (b.val, 32), (p.val, 23), (ca.toNat, 22), (cb.toNat, 21), (sb.toNat, 19)])
  | .vdiv d a b p ca cb sb => some (64, pack 0xE180800000000000 [(d.val, 42), (a.val, 37), (b.val, 32), (p.val, 23), (ca.toNat, 22), (cb.toNat, 21), (sb.toNat, 19)])
  | .vrem d a b p ca cb sb => some (64, pack 0xE181000000000000 [(d.val, 42), (a.val, 37), (b.val, 32), (p.val, 23), (ca.toNat, 22), (cb.toNat, 21), (sb.toNat, 19)])
  | .vsadd d a b p ca cb sb => some (64, pack 0xE181800000000000 [(d.val, 42), (a.val, 37), (b.val, 32), (p.val, 23), (ca.toNat, 22), (cb.toNat, 21), (sb.toNat, 19)])
  | .vssub d a b p ca cb sb => some (64, pack 0xE182000000000000 [(d.val, 42), (a.val, 37), (b.val, 32), (p.val, 23), (ca.toNat, 22), (cb.toNat, 21), (sb.toNat, 19)])
  | .vavg d a b p ca cb sb => some (64, pack 0xE182800000000000 [(d.val, 42), (a.val, 37), (b.val, 32), (p.val, 23), (ca.toNat, 22), (cb.toNat, 21), (sb.toNat, 19)])
  | .vabsd d a b p ca cb sb => some (64, pack 0xE183000000000000 [(d.val, 42), (a.val, 37), (b.val, 32), (p.val, 23), (ca.toNat, 22), (cb.toNat, 21), (sb.toNat, 19)])
  | .vmulhr d a b p ca cb sb => some (64, pack 0xE183800000000000 [(d.val, 42), (a.val, 37), (b.val, 32), (p.val, 23), (ca.toNat, 22), (cb.toNat, 21), (sb.toNat, 19)])
  | .vqnt d s a t p ca => some (64, pack 0xE184000000000000 [(d.val, 42), (s.val, 32), (a.val, 37), (t.code, 13), (p.val, 23), (ca.toNat, 22)])
  | .vqnte d s a t e th l p ca => some (64, pack 0xE184800000000000 [(d.val, 42), (s.val, 32), (a.val, 37), (t.code, 13), (e.val, 10), (th.val, 5), (l.val, 0), (p.val, 23), (ca.toNat, 22)])
  | .vdqnt d a s t l p ca cb => some (64, pack 0xE185000000000000 [(d.val, 42), (a.val, 37), (s.val, 32), (t.code, 13), (l.val, 0), (p.val, 23), (ca.toNat, 22), (cb.toNat, 21)])
  | .vgathw d w i x o p cb => some (64, pack 0xE185800000040000 [(d.val, 42), (w.val, 37), (i.val, 32), (x.val, 27), (o.val, 0), (p.val, 23), (cb.toNat, 21)])
  | .vld v b p m h => some (32, pack 0xD9000000 [(v.val, 19), (b.val, 14), (p.val, 6), (m.code, 4), (h.code, 2)])
  | .vlds v b s p m h => some (32, pack 0xD9000001 [(v.val, 19), (b.val, 14), (s.val, 9), (p.val, 6), (m.code, 4), (h.code, 2)])
  | .vldx v b i p m h => some (32, pack 0xD9000002 [(v.val, 19), (b.val, 14), (i.val, 9), (p.val, 6), (m.code, 4), (h.code, 2)])
  | .vldseg v b n p m h => some (32, pack 0xD9000003 [(v.val, 19), (b.val, 14), (n.val, 11), (p.val, 6), (m.code, 4), (h.code, 2)])
  | .vst v b p m h => some (32, pack 0xDA000000 [(v.val, 19), (b.val, 14), (p.val, 6), (m.code, 4), (h.code, 2)])
  | .vsts v b s p m h => some (32, pack 0xDA000001 [(v.val, 19), (b.val, 14), (s.val, 9), (p.val, 6), (m.code, 4), (h.code, 2)])
  | .vstx v b i p m h => some (32, pack 0xDA000002 [(v.val, 19), (b.val, 14), (i.val, 9), (p.val, 6), (m.code, 4), (h.code, 2)])
  | .vstseg v b n p m h => some (32, pack 0xDA000003 [(v.val, 19), (b.val, 14), (n.val, 11), (p.val, 6), (m.code, 4), (h.code, 2)])
  | .vldLong v b x k m h o s n p cb => some (64, pack 0xE186000000000000 [(v.val, 42), (b.val, 37), (x.val, 32), (k.code, 16), (m.code, 14), (h.code, 12), (o.toNat, 11), (s.code, 9), (n.val, 6), (p.val, 23), (cb.toNat, 21), ((k == .strided).toNat, 19)])
  | .vstLong v b x k m h o s n p cb => some (64, pack 0xE186800000000000 [(v.val, 42), (b.val, 37), (x.val, 32), (k.code, 16), (m.code, 14), (h.code, 12), (o.toNat, 11), (s.code, 9), (n.val, 6), (p.val, 23), (cb.toNat, 21), ((k == .strided).toNat, 19)])
  | .vamo v b i p o q r => some (32, pack 0xDB000000 [(v.val, 19), (b.val, 14), (i.val, 9), (p.val, 6), (o.code, 2), (q.toNat, 0), (r.toNat, 1)])
  | .vsave v b => some (32, pack 0xDB000020 [(v.val, 19), (b.val, 14)])
  | .vrest v b => some (32, pack 0xDB000024 [(v.val, 19), (b.val, 14)])
  | .pand d a b p => some (32, pack 0xDC000000 [(d.val, 19), (a.val, 14), (b.val, 9), (p.val, 6)])
  | .por d a b p => some (32, pack 0xDC000001 [(d.val, 19), (a.val, 14), (b.val, 9), (p.val, 6)])
  | .pxor d a b p => some (32, pack 0xDC000002 [(d.val, 19), (a.val, 14), (b.val, 9), (p.val, 6)])
  | .pnot d a p => some (32, pack 0xDC000003 [(d.val, 19), (a.val, 14), (p.val, 6)])
  | .pandn d a b p => some (32, pack 0xDC000004 [(d.val, 19), (a.val, 14), (b.val, 9), (p.val, 6)])
  | .pafter d a p => some (32, pack 0xDC000005 [(d.val, 19), (a.val, 14), (p.val, 6)])
  | .pset d p => some (32, pack 0xDC000006 [(d.val, 19), (p.val, 6)])
  | .pclr d => some (32, pack 0xDC000007 [(d.val, 19)])
  | .pcnt d a p => some (32, pack 0xDC000008 [(d.val, 19), (a.val, 14), (p.val, 6)])
  | .pfirst d a p => some (32, pack 0xDC000009 [(d.val, 19), (a.val, 14), (p.val, 6)])
  | .cpy d s n e => some (32, pack 0xDD000000 [(d.val, 19), (s.val, 14), (n.val, 9), (e.val, 0)])
  | .cpyr v a n k => some (32, pack 0xDD000020 [(v.val, 19), (a.val, 14), (n.val, 9), (k.val, 0)])
  | .cpyw v a n k => some (32, pack 0xDD000040 [(v.val, 19), (a.val, 14), (n.val, 9), (k.val, 0)])
  | .cpyx d c s => some (32, pack 0xDD000060 [(d.val, 19), (c.val, 14), (s.val, 9)])
  | .cpym s m => some (32, pack 0xDD000080 [(s.val, 19), (m.val, 14)])
  | .vrecv d => some (32, pack 0xDD0000A0 [(d.val, 19)])
  | .vstream b s => some (32, pack 0xDD0000C0 [(b.val, 14), (s.val, 9)])
  | .pwait k => some (32, pack 0xDD0000E0 [(k.val, 0)])
  | .arw d a s => some (32, pack 0xDD000100 [(d.val, 19), (a.val, 14), (s.val, 9)])
  | .await d a s => some (32, pack 0xDD000120 [(d.val, 19), (a.val, 14), (s.val, 9)])
  | .mcfg a b => some (64, pack 0xE800000000000000 [(a.val, 23), (b.val, 18)])
  | .mzero t => some (64, pack 0xE808000000000000 [(t.code, 48)])
  | .mop t va vb sa sb a b p ca cb => some (64, pack 0xE810000000000000 [(t.code, 48), (va.val, 43), (vb.val, 38), (sa.val, 33), (sb.val, 28), (a.val, 23), (b.val, 18), (p.val, 14), (ca.toNat, 13), (cb.toNat, 12)])
  | .mops t va vb sa sb a b p ca cb n1 n2 vm => some (64, pack 0xE818000000000000 [(t.code, 48), (va.val, 43), (vb.val, 38), (sa.val, 33), (sb.val, 28), (a.val, 23), (b.val, 18), (p.val, 14), (ca.toNat, 13), (cb.toNat, 12), (n1.val, 10), (n2.val, 8), (vm.val, 1)])
  | .mrow t d a b p => some (64, pack 0xE820000000000000 [(t.code, 48), (d.val, 43), (a.val, 23), (b.val, 18), (p.val, 14)])
  | .mwrow t v a b p ca => some (64, pack 0xE828000000000000 [(t.code, 48), (v.val, 43), (a.val, 23), (b.val, 18), (p.val, 14), (ca.toNat, 13)])
  | .mld t a b => some (64, pack 0xE830000000000000 [(t.code, 48), (a.val, 23), (b.val, 18)])
  | .mst t a b => some (64, pack 0xE838000000000000 [(t.code, 48), (a.val, 23), (b.val, 18)])
  | .msave a => some (64, pack 0xE840000000000000 [(a.val, 23)])
  | .mrest a => some (64, pack 0xE848000000000000 [(a.val, 23)])
  | .mjoin t a b => some (64, pack 0xE850000000000000 [(t.code, 48), (a.val, 23), (b.val, 18)])
  | .msplit t a => some (64, pack 0xE858000000000000 [(t.code, 48), (a.val, 23)])
  | .olset a b => some (64, pack 0xE860000000000000 [(a.val, 23), (b.val, 18)])
  | .olclr a => some (64, pack 0xE868000000000000 [(a.val, 23)])
  | .olcnt d a => some (64, pack 0xE870000000000000 [(d.val, 18), (a.val, 23)])
  | .tspawn a b => some (32, pack 0xDE000000 [(a.val, 19), (b.val, 14)])
  | .tsig a b => some (32, pack 0xDE000001 [(a.val, 19), (b.val, 14)])
  | .tdone => some (32, pack 0xDE000002 [])
  | .tkill a => some (32, pack 0xDE000003 [(a.val, 19)])
  | .tyield => some (32, pack 0xDE000004 [])
  | .bar => some (32, pack 0xDE000005 [])
  | .barinit a => some (32, pack 0xDE000006 [(a.val, 19)])
  | .qpush a b => some (32, pack 0xDE000007 [(a.val, 19), (b.val, 14)])
  | .qpop d a => some (32, pack 0xDE000008 [(d.val, 19), (a.val, 14)])
  | .qsteal d a b => some (32, pack 0xDE000009 [(d.val, 19), (a.val, 14), (b.val, 9)])
  | .talloc d a => some (32, pack 0xDE00000A [(d.val, 19), (a.val, 14)])
  | .tst s a => some (32, pack 0xDE00000B [(s.val, 19), (a.val, 14)])
  | .tld d a => some (32, pack 0xDE00000C [(d.val, 19), (a.val, 14)])
  | .tpost a b => some (32, pack 0xDE00000D [(a.val, 19), (b.val, 14)])
  | .tdrop a => some (32, pack 0xDE00000E [(a.val, 19)])
  | .linkOrPortTrains _ _ _ _ => none
  | .zeroFillComplete _ => none
  | .nonInstruction _ => none
  | .fetchFault _ => none

/-- The length in bits that the first parcel alone gives (R234). -/
def parcelBits (p : Nat) : Nat :=
  match fld p 13 3 with
  | 6 => 32
  | 7 => 64
  | _ => 16

/-- The operand fields of a written word of nbits. -/
noncomputable def fieldsOf (nbits w : Nat) : Option Instr :=
  match nbits with
  | 16 => fields16 w
  | 32 => fields32 w
  | 64 => fields64 w
  | _ => none

/-- Decode a written word of nbits, total: the instruction, or why the word names none (R254). -/
noncomputable def decode (nbits w : Nat) : Except Reject Instr :=
  match fieldsOf nbits w with
  | none => .error .reservedForm
  | some i =>
    if i.wellFormed then
      if i.encode = some (nbits, w) then .ok i else .error .unusedField
    else .error .reservedValue

/-- The parcel at the head of a byte list, little-endian (R235). -/
def parcelOf (lo hi : Byte) : Nat := lo.toNat + 256 * hi.toNat

/-- The written word of the first n parcels of a byte list, and nothing if the bytes run out (R235). -/
def writtenWord : Nat → Nat → List Byte → Option Nat
  | 0, acc, _ => some acc
  | n + 1, acc, lo :: hi :: rest => writtenWord n (acc * 65536 + parcelOf lo hi) rest
  | _ + 1, _, _ => none

/-- The bytes of a written word of n parcels, first parcel first, each little-endian (R235). -/
def wordBytes : Nat → Nat → List Byte
  | 0, _ => []
  | n + 1, w =>
    let p := w / 65536 ^ n % 65536
    BitVec.ofNat 8 p :: BitVec.ofNat 8 (p / 256) :: wordBytes n w

/-- Decode the instruction at the head of a byte list: its length in bytes, its written word, and the
instruction or the reason there is none. -/
noncomputable def decodeBytes (bs : List Byte) : Except Reject (Nat × Nat × Except Reject Instr) :=
  match bs with
  | lo :: hi :: _ =>
    let nbits := parcelBits (parcelOf lo hi)
    match writtenWord (nbits / 16) 0 bs with
    | none => .error .tooShort
    | some w => .ok (nbits / 8, w, decode nbits w)
  | _ => .error .tooShort

/-- The written word of an opcode-table word: nbits tells the form, every bit above it is 0. -/
def tableParcels (nbits : Nat) : Nat := if nbits ≤ 16 then 1 else if nbits ≤ 32 then 2 else 4

/-- What the decoder reads from the parcels of a table word. -/
noncomputable def decodeTableWord (nbits w : Nat) : Option Instr :=
  match decodeBytes (wordBytes (tableParcels nbits) w) with
  | .ok (_, _, .ok i) => some i
  | _ => none

end Sys2Proof
end

