-- ==== Sys2Proof/Config.lean ====
section
/-!
DEFINITION. What an implementation fixes and the spec does not give: hashes, identities, the meaning of reserved codes.
The opaque constants have no body: nothing can be proved of their values.
-/
namespace Sys2Proof

/-- Clocks per microsecond (R2). -/
def Config.clkPerUs : Nat := 1900

/-- The width that a reserved avl.ew code stands for, 0 to 4 as the other codes, once a write to eavl or a restored
image has brought one in (R92, R186); taken modulo 5. -/
opaque Config.reservedEw : Nat → Nat

/-- The rounding mode that a reserved fctl.frm code stands for, once a restored image has brought one in (R165); taken
modulo 5. -/
opaque Config.reservedRm : Nat → Nat

/-- The HBM channel of a die that holds a 1 KiB block of die-local addresses, among n active channels; taken modulo
n (R12). -/
opaque Config.channelOf : Nat → Nat → Nat → Nat

/-- The hash that chooses among n active slices of a column, from address bits [51:11] (R120); taken modulo n. -/
opaque Config.sliceHash : Nat → Nat → Nat

/-- The set of a frame within its slice, among 128; taken modulo 128 (R120, R128). -/
opaque Config.sliceSet : Nat → Nat

/-- The link whose switch holds the snoop filter entry of an exported frame, among the UP links (R42). -/
opaque Config.filterLink : List Nat → Nat → Nat

/-- The format version of an attestation report (R30). -/
opaque Config.reportVersion : Nat

/-- The device serial number (R30). -/
opaque Config.serial : Nat

/-- The signature of the identity key over a report, r and s (R30). -/
opaque Config.sign : List Nat → BitVec 528 × BitVec 528

/-- The new value of a measurement register extended by a digest (R29). -/
opaque Config.extend : BitVec 512 → BitVec 512 → BitVec 512

/-- The identity that a pooled device proves over SPDM (R46, R47), by its routing id. -/
opaque Config.identityOf : Nat → Nat

end Sys2Proof
end

