-- ==== Sys2Proof/Machine/State.lean ====
section
/-!
DEFINITION. The state of the machine, all of it plain data, its reset, and the reasons a step can stop.
Sparse maps list only entries that differ from a default; the default of each is said at the field.
-/
namespace Sys2Proof.Machine

/-- Privilege levels (R109). -/
inductive Level | u | s | m
deriving DecidableEq, Repr

/-- Task states (R69). -/
inductive TaskSt | empty | waiting | ready | running | done
deriving DecidableEq, Repr

/-- One write on its path to its home (R130, R131). -/
structure WEntry where
  /-- The hart whose program order it stands in; for an engine chunk, the hart that issued the copy. -/
  hid : Nat
  /-- The instruction's number in issue order. -/
  ino : Nat
  /-- The write's own number. -/
  id : Nat
  /-- The location: the key of its first byte. -/
  loc : Nat
  /-- Its bytes, 1 to 8. -/
  n : Nat
  val : Word
  /-- The scope of a release (R136). -/
  rel : Option Scope
  /-- A write of an `.oe` instruction: the number under which its passes drain in order, before a stop and after (R140). -/
  oe : Option Nat
  /-- A write of an engine chunk (R138, R142). -/
  eng : Bool
  /-- Its virtual address, for a fault at the release (R47). -/
  va : Nat
  /-- A scalar store: its words stand in the control core's L1 on their way (R111). -/
  l1 : Bool
  /-- The bytes of a pool image that it replaced, until the pooled device acknowledges it (R47, R147). -/
  old : Nat
deriving DecidableEq, Repr

/-- Where a read's value goes. -/
inductive Dst
  /-- A scalar register; the load code says how the value is extended. -/
  | x (n : XR) (z : LdSize)
  /-- An element of the group at v, b bytes wide. -/
  | v (n : VR) (elem b : Nat)
  /-- An accumulator of the core's array, 256 row + column. -/
  | t (k : Nat)
  | none
deriving DecidableEq, Repr

/-- An operation at a location's home (R139, R267, R321). -/
inductive AmoOp | add | and | or | xor | min | max | minn | maxn | swap | cas
deriving DecidableEq, Repr

/-- One update of an atomic: where the old value goes, the operand, and the comparand of cas. -/
structure Update where
  dst : Dst
  opnd : Word
  cmp : Word
deriving DecidableEq, Repr

/-- What one access of a bag does. -/
inductive Act
  | rd (dst : Dst)
  | wr (val : Word)
  /-- The updates of one location, in order, under a tag's arithmetic (none: plain integers) and the rounding mode in
  force at issue (R165). -/
  | amo (op : AmoOp) (tag : Option Tag) (rm : Nat) (ups : List Update)
deriving DecidableEq, Repr

/-- One access of an element bag that has not performed (R130). -/
structure BagItem where
  ino : Nat
  loc : Nat
  n : Nat
  va : Nat
  act : Act
  /-- In ascending order within its instruction, under this number (R140). -/
  oe : Option Nat
  /-- Needs a ticket (R141). -/
  sc : Bool
  /-- Its page goes through the caches (R111, R112). -/
  cached : Bool
  /-- The first and last word of its frame that its instruction's accesses cover (R31, R38). -/
  lo : Nat
  hi : Nat
  /-- A UC page: it goes to the home alone (R135). -/
  direct : Bool
  /-- No later instruction of the hart issues before it performs: an acquire, or a UC page (R135, R137). -/
  blocks : Bool
deriving DecidableEq, Repr

/-- A condition that holds writes in the store buffer: a fence's, on every later write (R138), or a
release's, on its own writes (R136). -/
structure FenceMark where
  ino : Nat
  later : Bool
  scope : Scope
  eng : Bool
  /-- Writes that earlier reads returned (R136). -/
  obs : List Nat
deriving DecidableEq, Repr

/-- A `tpost` that has issued and not taken effect: the release it waits for, its handle and read count (R145, R370). -/
structure Post where
  mark : FenceMark
  handle : Nat
  reads : Nat
deriving DecidableEq, Repr

/-- Why a hart does not issue. -/
inductive Waiting
  | no
  /-- `wait` (R270): the word's location if there is one, the stamp it waits from, the deadline. -/
  | word (loc : Option Nat) (stamp deadline : Nat)
  /-- `halt` (R271). -/
  | halt
deriving DecidableEq, Repr

/-- The restart point of a stopped vector instruction (R102, R103). -/
structure Resume where
  sfx : Nat
  slip : Nat
  /-- The lanes and groups held at the stop, and lmod. -/
  grant : Nat
  held : Nat
  lmod : Nat
  /-- Catch-up stopped at cidx. -/
  cu : Bool
  cidx : Nat
deriving DecidableEq, Repr

/-- A receive frame reserved for a hart, and the strip landed in it (R329). -/
structure RxFrame where
  /-- The sender's member index, and the number of its instruction. -/
  sender : Nat
  ino : Nat
  tag : Tag
  len : Nat
  bytes : SMap Byte
  landed : Bool
deriving DecidableEq, Repr

/-- An arrived collective (R347, R348). -/
structure Collective where
  join : Bool
  mask : Nat
  tile : TileRef
  s32 : Bool
  /-- The fctl in force when it issued, and its written word. -/
  fctl : Word
  ir : Word
deriving DecidableEq, Repr

/-- A vector or matrix instruction at the sequencer (R85, R200). -/
structure Disp where
  /-- When it was dispatched, its place in issue order, and its PC. -/
  at_ : Nat
  ino : Nat
  pc : BitVec 55
  /-- It accesses memory. -/
  mem : Bool
  vl : Nat
  /-- The lanes and groups of its hart. -/
  lanes : Nat
  held : List Nat
  /-- The passes that are issued, up to the last; by group, default none beyond the first. -/
  first : Nat
  last : Nat
  pass : SMap Nat
  /-- Elements below vl that its predicate leaves out. -/
  off : List Nat
deriving DecidableEq, Repr

/-- What the access of a hart's instruction waits for: the rerouting of a pool region (R400), or a group of ways or banks
that wakes (R127); owed: its region became DETACHED while it waited, and it raises POOLDETACH (R47, R400). -/
inductive Stall | region (n : Nat) | wake | owed (n : Nat)
deriving DecidableEq, Repr

/-- The ordering machine's part of a hart (R130). -/
structure Mem where
  /-- The store buffer, oldest first. -/
  sb : List WEntry
  bag : List BagItem
  fences : List FenceMark
  /-- Writes in flight that this hart's reads returned (R136). -/
  obs : List Nat
  /-- Other harts whose writes its reads returned (R53). -/
  seen : List Nat
  /-- For each 8-byte word read, the write stamp at the latest read (R270). -/
  rlog : SMap Nat
  /-- A request of the hart was not answered: the frame it was for (none: the next access), and the subcode of the
  DATAERR (R26, R37). -/
  accErr : Option (Option Nat × Nat)
  /-- The next vector or matrix instruction fails its residue check at this granule (R26). -/
  resErr : Option Nat
  /-- The PC of each instruction that has an access in the bag, by its number (R208). -/
  pcs : List (Nat × Nat)
  /-- What the instruction at the PC waited for when the hart had its latest turn. -/
  stall : Option Stall
  /-- The `.oe` instructions that stopped with passes performed: the PC of each, and the number it orders under (R140). -/
  oe : List (Nat × Nat)
  /-- Publishes that have not taken effect, oldest first (R395). -/
  posts : List Post
deriving DecidableEq, Repr

/-- The registers that a strip has copies of (R96): x, vector bytes, tags, predicates, as in Hart. -/
structure Regs where
  x : SMap Word
  v : SMap Byte
  tag : SMap Tag
  p : SMap Bool
deriving DecidableEq, Repr

/-- A strip of a parallel loop that runs beside older ones (R96). -/
structure Strip where
  /-- The lane cluster it runs on. -/
  cluster : Nat
  pc : BitVec 55
  /-- Its strip position and vl, and the flags it has raised. -/
  pos : Nat
  vl : Nat
  flags : Word
  /-- Its private copies, and the values that the registers held when it began. -/
  regs : Regs
  start : Regs
  /-- What it has written: x registers, tags, ranges of vector bytes and of predicate bits, each a first one and a
  number. -/
  xw : List Nat
  tw : List Nat
  vw : List (Nat × Nat)
  pw : List (Nat × Nat)
  /-- Its accesses; its stores stay here until every older strip has completed. -/
  mem : Mem
deriving DecidableEq, Repr

/-- The strips of a parallel loop that run at once (R96): the oldest runs in its hart. -/
structure Par where
  /-- The cluster of the oldest. -/
  cluster : Nat
  /-- The registers when the oldest began, and as the strips before it left them. -/
  start : Regs
  done : Regs
  /-- The younger strips, oldest first. -/
  young : List Strip
deriving DecidableEq, Repr

/-- A hart slot and the hart in it (R90). -/
structure Hart where
  /-- The task of the occupant, 65,536 x context slot + id, and the member index (R77). -/
  task : Option Nat
  member : Nat
  pc : BitVec 55
  level : Level
  /-- x1 to x31 by number, default 0; x0 is never listed (R90). -/
  x : SMap Word
  /-- The vector registers' bytes in the element-index layout, vn at 0x4000 n (R105), default 0. -/
  v : SMap Byte
  /-- Their tags, default s32 (R90, R104). -/
  tag : SMap Tag
  /-- Predicate bits of p1 to p15 by 0x8000 n + element, default false (R90). -/
  p : SMap Bool
  /-- Machine registers by number (R252), default `mregReset`. -/
  mr : SMap Word
  /-- The instruction at the PC restarts here. -/
  resume : Resume
  /-- The description of the restart point that a trap into M stopped at. -/
  kres : Resume
  waiting : Waiting
  /-- Pending deferred faults, oldest first: ecause layout and etval (R191). -/
  deferred : List (Word × Word)
  /-- Registers whose frames are not resident (R106), each with the bytes of its image that the backing area still holds
  for it: those above have become zero by a change of grant (R108). -/
  spilled : List (Nat × Nat)
  /-- Resident registers that hold what the backing area holds, filled and not written since, and how many bytes of it
  (R106). -/
  clean : List (Nat × Nat)
  /-- The next issue matches no breakpoint (R206), the next instruction no watchpoint (R207). -/
  bpSkip : Bool
  wpSkip : Bool
  /-- The PC of the latest breakpoint or watchpoint stop that S took, and of the latest that M took. -/
  brkPc : BitVec 55
  kbrkPc : BitVec 55
  /-- An `all` breakpoint of another member is due (R206). -/
  brkAll : Bool
  /-- A `setvl.g` waits for the gang: length and width code (R278). -/
  setvlg : Option (Nat × Nat)
  /-- A `tkill` waits for this task to be DONE, and whether it has been (R357). -/
  killing : Option (Nat × Bool)
  /-- It has been restored, and renegotiates once its register copies have performed: the lanes it had (R325). -/
  regrant : Option Nat
  coll : Option Collective
  /-- Arrived at the barrier and not released (R359). -/
  atBar : Bool
  /-- The barrier episode it arrived in has been released. -/
  barDone : Bool
  rx : List RxFrame
  rxMax : Nat
  /-- The strip stream of the active loop: base and stride (R330). -/
  stream : Option (Word × Word)
  /-- The fetched frames of the strip buffer (R124). -/
  strip : List Nat
  /-- Bytes fetched ahead and not issued: address, the level they were fetched at, and the byte (R236, R274). -/
  pre : List (Nat × Level × Byte)
  /-- Its instruction has been executed up to a granule, block or unit boundary, and is not complete (R86). -/
  paused : Bool
  /-- Instructions whose element groups the sequencer still issues, and how often the hart was passed over on a lane
  group (R85). -/
  disp : List Disp
  passed : SMap Nat
  /-- The vector or matrix instruction at the PC, or behind a `fence` there, is dispatched and waits: its class (R200). -/
  blocked : Option Nat
  /-- The strips of its parallel loop run at once (R96). -/
  par : Option Par
deriving DecidableEq, Repr

/-- A core (R90, R79, R99, R116, R192, R334, R335). -/
structure Core where
  /-- Taken out of placement (R23). -/
  removed : Bool
  lmod : Nat
  lpart : Word
  mown : Word
  /-- The accumulator array by 256 row + column, default 0 (R334). -/
  acc : SMap (BitVec 32)
  mcfg : Word
  mscale : Word
  mT : BitVec 32
  mvalid : Bool
  /-- The context slot its scratchpad belongs to (R116). -/
  owner : Option Nat
  /-- Its zero-fill has not ended (R116). -/
  filling : Bool
  /-- Gated groups of scratchpad banks, and those waking (R126, R127). -/
  gated : List Nat
  waking : List Nat
  /-- The lpart that waits for a quiesce (R79). -/
  lpartNew : Option Word
  /-- Lane and bank spares that are due (R23): the physical group and lane that failed, none for a bank. -/
  spareDue : List (Option (Nat × Nat))
  /-- When the last hart left it (R126). -/
  emptySince : Nat
  /-- The frame slots in use, the least recently used first: hart slot and register (R105, R106). -/
  frames : List (Nat × Nat)
  /-- The physical lane of each logical group that is not used, default 8 (R100), and lost physical groups. -/
  skip : SMap Nat
  lost : List Nat
  /-- Physical groups whose ninth lane failed before it was needed (R23). -/
  deadSpare : List Nat
deriving DecidableEq, Repr

/-- Where a member of a gang stands. -/
inductive MemberSt | fresh | placed (hid : Nat) | saved | finished
deriving DecidableEq, Repr

/-- Why a gang is to be pre-empted (R24, R86); fail: a core of it was removed from placement. -/
inductive PreCause | arrival | slice | cap | quiesce | fail
deriving DecidableEq, Repr

/-- The Ringmaster's record of a task (R68). -/
structure Task where
  st : TaskSt
  /-- The armed descriptor w0 to w7 (R66). -/
  w0 : Word
  w1 : Word
  w2 : Word
  w3 : Word
  w4 : Word
  w5 : Word
  cnt : Nat
  members : List MemberSt
  /-- Each member's backing unit (R57). -/
  units : List (Option Nat)
  barE : Nat
  barGen : Nat
  /-- The debug set it holds (R205). -/
  dset : Option Nat
  readyAt : Nat
  placedAt : Nat
  die : Nat
  /-- A pre-emption is under way (R86). -/
  pre : Option PreCause
  /-- Its abandoned-reader rule waits for a pending table: the list entry, and the sequence at which it goes on (R374). -/
  readerAt : Option (Nat × Nat)
  /-- It entered DONE by a kill, so no successor is signalled (R71). -/
  killed : Bool
  /-- The last decrement came from this core (R72). -/
  byCore : Option Nat
  /-- A kill waits until its members at M have returned; the core that it came from (R71, R194). -/
  dying : Option (Option Nat)
deriving DecidableEq, Repr

/-- A barrier register (R75, R359). -/
structure Bar where
  task : Option Nat
  exp : Nat
  arrived : Nat
  gen : Nat
deriving DecidableEq, Repr

/-- Of a saved member: whether its next issue matches no breakpoint and no watchpoint, whether an `all` breakpoint is due
(R206, R207), the lanes that it held, and the bytes of each register's image that its area holds (R105, R108, R194). -/
structure Kept where
  bp : Bool
  wp : Bool
  all : Bool
  grant : Nat
  valid : List (Nat × Nat)
deriving DecidableEq, Repr

/-- The scheduler's tables (R72 to R76). -/
structure Ring where
  /-- Task records by 65,536 slot + id, default empty. -/
  tasks : SMap Task
  /-- Ready queues by 8 die + priority, head first, default []. -/
  ready : SMap (List Nat)
  /-- Deques by 8 core + number, bottom first, default [] (R73). -/
  deque : SMap (List Word)
  reserving : SMap (Option Nat)
  /-- Barrier registers by 64 die + number, default free. -/
  bars : SMap Bar
  /-- Lane groups by 8 core + group: the holders of its control core as a bit mask, default 0 (R80). -/
  lanes : SMap Nat
  /-- Lane groups marked for gating, by 8 core + group: the clk of the mark (R83). -/
  marked : SMap Nat
  /-- The latest access of each deque, arming of each task, and arrival at and write of each barrier: its clk, and its
  rank among those of one clk (R73, R354, R359, R360). -/
  turns : SMap (Nat × Nat)
  /-- Strips of pre-empted receivers, by task and member: 16 task + member (R329). -/
  rxSave : SMap (List RxFrame)
  /-- What hardware keeps of a saved member beside its areas, by 16 task + member, default none. -/
  kept : SMap (Option Kept)
deriving DecidableEq, Repr

/-- What a copy engine entry does (R326 to R330). -/
inductive CopyKind | cpy | cpyr | cpyw | cpyx | cpym
deriving DecidableEq, Repr

/-- An entry of an engine queue (R123, R325). -/
structure Copy where
  kind : CopyKind
  /-- The hart that issued it, its core, task and member index. -/
  hid : Nat
  core : Nat
  task : Nat
  member : Nat
  ino : Nat
  level : Level
  asid : Nat
  ptbase : Nat
  /-- Destination and source addresses, or registers. -/
  dst : Nat
  src : Nat
  /-- Bytes of `cpy`, registers of `cpyr` and `cpyw`, the receiver's member index of `cpyx`, the targets of
  `cpym`. -/
  n : Nat
  des : Word
  pk : Nat
  tag : Tag
  vl : Nat
  ew : Ew
  lanes : Nat
  /-- The sent elements of cpyx and cpym, as they stood at issue. -/
  image : SMap Byte
  /-- Chunks that have performed; for `cpym`, the members whose strip has landed. -/
  done : List Nat
  wrote : Nat
  /-- Chunks that wait on a migrating page, with the clk by which they walk again (R64). -/
  stall : List (Nat × Nat)
  /-- Writes in flight that the hart's earlier reads returned (R142). -/
  obs : List Nat
  started : Bool
  /-- The queue entry number that a fault names (R182). -/
  eq : Nat
  /-- Element groups of destination registers that the debugger has written since: register and byte (R213). -/
  cut : List (Nat × Nat)
  /-- Destination registers whose tag the debugger has written since (R213). -/
  cutTags : List Nat
  /-- The hart slot that it was issued from (R210). -/
  slot : Nat
deriving DecidableEq, Repr

/-- States of a Turnstile slot (R367). -/
inductive TsSt | free | alloc | published
deriving DecidableEq, Repr

/-- A Turnstile slot (R367). -/
structure TsSlot where
  st : TsSt
  gen : Nat
  owner : Nat
  reads : Nat
  seq : Nat
  tag : Tag
  n : Nat
  dropped : Nat
  /-- One more than the clk in which it became FREE (R375). -/
  freed : Nat
deriving DecidableEq, Repr

/-- The Turnstile (R365 to R374). -/
structure Turnstile where
  /-- Slots by 65,536 die + 2,048 partition + slot, default FREE at generation 0. -/
  slots : SMap TsSlot
  /-- Waiting harts of each partition by 32 die + partition, head first: hart and clk it joined. -/
  waiters : SMap (List (Nat × Nat))
  /-- Grants not yet taken by their harts: hart and handle. -/
  grants : List (Nat × Nat)
  /-- Waiting harts that have left their queue deadlocked, and have not taken TDEADLOCK yet (R368). -/
  dead : List Nat
  /-- Pending tables (last, count) by 32 die + partition (R374). -/
  pend : SMap (List (Nat × Nat))
deriving DecidableEq, Repr

/-- A cached leaf (R62). -/
structure TlbE where
  /-- A core 0 to 127, or 128 + die. -/
  holder : Nat
  asid : Nat
  global : Bool
  base : Nat
  size : Nat
  frame : Nat
  pte : Word
deriving DecidableEq, Repr

/-- A cached pointer entry of a die's walk cache (R62). -/
structure PtcE where
  die : Nat
  asid : Nat
  level : Nat
  /-- The table address and the index it was read at, with the first address and size it maps. -/
  at_ : Nat
  base : Nat
  size : Nat
  pte : Word
deriving DecidableEq, Repr

/-- An `xinv` broadcast under way (R63). -/
structure Xinv where
  hid : Nat
  asid : Nat
  lo : Nat
  hi : Nat
  acked : Bool
deriving DecidableEq, Repr

/-- Translation caches (R62, R63). -/
structure Xlat where
  tlb : List TlbE
  ptc : List PtcE
  xinv : List Xinv
deriving DecidableEq, Repr

/-- Holder states (R32); I is no entry. -/
inductive HolderSt | s | e | m
deriving DecidableEq, Repr

/-- A span that a holder has of a frame: an L1, a guest slice, or a device toward the fabric (R31, R32, R39, R41). -/
structure Line where
  h : Holder
  frame : Nat
  st : HolderSt
  first : Nat
  last : Nat
  /-- Dirty words, bit k for word k, and the clk of the last write. -/
  dirty : Nat
  at_ : Nat
deriving DecidableEq, Repr

/-- The dirty words of a frame in its home slice, or proxy home, and the clk of the last write (R40). -/
structure DirtySpan where
  die : Nat
  frame : Nat
  words : Nat
  at_ : Nat
deriving DecidableEq, Repr

/-- A way of an L2 slice that holds a frame's data; keep: allocated under the hint `.keep` (R1, R120, R128). -/
structure Way where
  die : Nat
  slice : Nat
  set : Nat
  way : Nat
  frame : Nat
  keep : Bool
deriving DecidableEq, Repr

/-- A directory record (R33). -/
structure Rec where
  h : Holder
  first : Nat
  last : Nat
  own : Bool
deriving DecidableEq, Repr


/-- The request kinds (R35). -/
inductive ReqKind | gets | geto | upg
deriving DecidableEq, Repr

/-- A request at a home, or at a guest slice for an L1 of its die (R36, R39): the holders still to be probed and those
that have not answered. -/
structure HomeReq where
  kind : ReqKind
  h : Holder
  /-- The die whose entry serves it; 4 for the fabric, where this device asks for a peer's frame (R41). -/
  home : Nat
  frame : Nat
  first : Nat
  last : Nat
  probes : List Holder
  waiting : List Holder
  dataSent : Bool
  /-- The probes are PDWN; a fifth holder's first probes downgrade the owners (R34). -/
  down : Bool
  overflow : Bool
  /-- When its probes were sent (R37, R43). -/
  since : Nat
deriving DecidableEq, Repr

/-- Answers on their way to the home (R35): the dirty words, or absent. -/
inductive Answer | ack | data (dirty : Nat) | absent
deriving DecidableEq, Repr

/-- The coherence machinery (R31 to R48). -/
structure Coherence where
  /-- Spans held, the least recently used first. -/
  lines : List Line
  /-- Evicted dirty lines whose PUTD has not been served; no dirty word is left where a probe has drawn them (R48). -/
  wb : List Line
  /-- Holders that did not answer a probe for a frame: their next access to it is a new request (R37). -/
  silent : List (Holder × Nat)
  /-- Directory entries of home and guest slices by 2^56 die + frame, default EMPTY (R33, R39). -/
  dir : SMap (List Rec × Bool × Bool)
  /-- Requests by arrival at their homes; the first of a frame is being served. -/
  reqs : List HomeReq
  /-- Answers under way: from, home, frame. -/
  answers : List (Holder × Nat × Nat × Answer)
  /-- Snoop filter entries of this device's exported frames, by frame. -/
  filter : SMap (List Rec × Bool × Bool)
  /-- Dirty spans of home slices (R40). -/
  dirty : List DirtySpan
  /-- Allocated ways of the L2 slices, the least recently used first (R120, R125, R128). -/
  l2 : List Way
  /-- Ids fenced in the domain, and ids of devices present in it (R19, R43). -/
  fenced : List Nat
  present : List Nat
  rejoin : Bool
  /-- Answers sent to the filters of other devices, oldest first: frame and answer (R41, R42). -/
  fabAns : List (Nat × Answer)
deriving DecidableEq, Repr

/-- A quarantined write (R47): its region, the port that the region had, and the write. -/
structure QSpan where
  region : Nat
  port : Nat
  entry : WEntry
deriving DecidableEq, Repr

/-- The pool region machinery (R45 to R47). -/
structure Pool where
  /-- Identity checks under way: region, whether it is a re-check, the clk it began. -/
  checks : List (Nat × Bool × Nat)
  /-- The identity recorded at attach, by region. -/
  identity : SMap Nat
  /-- Ports being rerouted, with the clk each went DOWN. -/
  reroute : List (Nat × Nat)
  /-- Ports whose regions are reached through another port: that port (R23). -/
  via : List (Nat × Nat)
  /-- Ports whose grace runs, with the clk it began. -/
  grace : List (Nat × Nat)
  /-- Regions whose quarantine is being written back. -/
  writeback : List Nat
  quar : List QSpan
  /-- Dynamic-capacity release requests answered: region, and whether it was released (R46). -/
  dcAns : List (Nat × Bool)
  /-- BIRsp answers sent to pooled devices: region, first frame, frames (R45). -/
  biRsp : List (Nat × Nat × Nat)
deriving DecidableEq, Repr

/-- What a launch queue does with its packet (R52, R53). -/
inductive PktSt | none | wait | fence | stop | drop | kill
deriving DecidableEq, Repr

/-- A launch queue beyond its registers. -/
structure LQueue where
  st : PktSt
  pkt : List Word
  /-- Root tasks launched and not DONE (R52), 65,536 slot + id. -/
  out : List Nat
  /-- Writes in flight that the root tasks read, or that tasks had made for which they waited; and the numbers of the ended
harts of root tasks, whose own writes and copies count too (R53). -/
  obs : List Nat
  ended : List Nat
  /-- Tasks that a KILL packet waits for (R52, R357). -/
  kills : List Nat
deriving DecidableEq, Repr

/-- A bank's record beyond its counters (R204). -/
structure Bank where
  start : Nat
  freeze : Nat
  use0 : Nat
  use1 : Nat
  use2 : Nat
  use3 : Nat
  all0 : Nat
  all1 : Nat
  all2 : Nat
  all3 : Nat
deriving DecidableEq, Repr

/-- An SPDM answer to the host (R65). -/
inductive SpdmAns | refused (cause : Nat) | plain | report (body : List Nat) (sig : BitVec 528 × BitVec 528)
deriving DecidableEq, Repr

/-- The hub and what the host sees of it. -/
structure Hub where
  /-- Register words by offset, default `hubReset`. -/
  reg : SMap Word
  lq : SMap LQueue
  bank : SMap Bank
  /-- Debug set words by 32 set + index, default 0 (R205). -/
  dset : SMap Word
  /-- Trace records by 2^17 die + index, default 0 (R209). -/
  trace : SMap (BitVec 128)
  /-- Records sent over the trace port (R209). -/
  port : List (BitVec 128)
  /-- Pending interrupts: an error report (R185), software by hart slot (R199). -/
  irqErr : Bool
  irqSw : List Nat
  /-- MSI-X vectors raised at the host, oldest first. -/
  msix : List Nat
  /-- Unsupported requests recorded in AER (R58). -/
  aer : Nat
  /-- Answers to host reads, oldest first: none for an Unsupported Request (R58). -/
  hostAns : List (Option Word)
  spdm : List SpdmAns
  /-- The turn of PC sampling, and the clk of the latest sample, by 64 core + slot (R208). -/
  turn : SMap Nat
  smpAt : SMap Nat
  /-- The class of the first lane of each group, by 8 core + group, in the latest clk, default 9 (R200). -/
  cls : SMap Nat
  /-- The value the last dbgdat read returned, and since when one waits for a write-back (R213). -/
  dbgdat : Word
  dbgWait : Option Nat
  /-- Gated way groups by 4 die + group, and those waking (R125, R127). -/
  l2gated : List Nat
  l2waking : List Nat
deriving DecidableEq, Repr

/-- Units with spares (R23). -/
inductive Spare | lane | bank | core | slice | channel | linkLane | port
deriving DecidableEq, Repr

/-- The CXL features of R18. -/
inductive CxlFeature | io | cache | mem | flit256 | flit68 | ide | dynCap | pbr | gfam | type3
deriving DecidableEq, Repr

/-- Package, boot and links (R12 to R30). -/
structure Package where
  /-- Features that a peer has enabled: on the host link (false) or the pool ports (true) (R18). -/
  features : List (Bool × CxlFeature)
  /-- The retirement record: unit kind, unit number, whether the unit was retired (R23). -/
  otp : List (Spare × Nat × Bool)
  /-- Lost slices and retired HBM channels by die (R23, R120), default none. -/
  lostSlices : SMap (List Nat)
  lostChannels : SMap (List Nat)
  /-- Slices that have failed since reset, as numbers of the record (R23). -/
  sliceDue : List Nat
  /-- The failure code of a device in recovery (R29). -/
  recovery : Option Nat
  /-- The fused rollback counter. -/
  rollback : Nat
  measure : SMap (BitVec 512)
  hostRate : Nat
  hostWidth : Nat
  hostUp : Bool
  /-- Channels being retrained (R23). -/
  hbmStall : List (Nat × Nat)
deriving DecidableEq, Repr

/-- An uncorrectable ECC word (R26, R27): where it begins, its size, and the bytes that one instruction has
written over since, as a bit mask. -/
structure BadWord where
  loc : Nat
  size : Nat
  ino : Nat
  cover : Nat
deriving DecidableEq, Repr

/-- The scheduler input of one step: which agent acts, and what the outside does. -/
inductive Turn
  /-- Hart hid issues; with hold its reads stay in the bag. -/
  | hart (hid : Nat) (hold : Bool)
  /-- Hart hid executes its instruction up to a pass, block or unit, where a pre-emption or a kill stops it (R71, R86). -/
  | part (hid pass : Nat)
  /-- With k = 0 hart hid issues, and a strip of a parallel loop that it opens runs on one lane cluster; the younger strip k
  issues, or the next one opens (R96). -/
  | strip (hid k : Nat)
  /-- A machine or host event. -/
  | event (i : Instr)
  /-- n clk pass; the lane groups that wait, as 8 core + group, and the class of the wait (R200). -/
  | tick (n : Nat) (cls : List (Nat × Nat))
  /-- An agent outside the device writes bytes at their home, from loc on. -/
  | outside (loc : Nat) (bs : List Byte)
  /-- An ECC word becomes uncorrectable: with sram a word of the L1 or L2 copy of HBM (R26). -/
  | upset (loc : Nat) (sram : Bool)
  /-- The residue check of hart hid's next vector or matrix instruction fails at a granule (R26). -/
  | residue (hid pass : Nat)
  /-- Hart hid fetches the byte at va ahead of its issue (R236). -/
  | prefetch (hid va : Nat)
  /-- Entry k of the translation caches is dropped (R62). -/
  | evict (k : Nat)
  /-- Device d joins or leaves the fabric domain (R19). -/
  | peer (d : Nat) (here : Bool)
  /-- The switches have cleared the fence of device d (R44). -/
  | unfence (d : Nat)
  /-- A lane, by physical group and lane, or a scratchpad bank of a core fails (R23). -/
  | unitFail (core : Nat) (lane : Option (Nat × Nat))
  /-- An L2 slice fails (R23). -/
  | sliceFail (die slice : Nat)
  /-- The power controller brings a gated way group back (R125). -/
  | l2Wake (die group : Nat)
  /-- A clean line is dropped silently, or a remote device writes a word of a line that it owns (R32, R35). -/
  | lineDrop (k : Nat)
  | lineWrite (k word : Nat)
  /-- A peer tries to enable a CXL feature on the host link or on the pool ports (R18). -/
  | feature (pool : Bool) (f : CxlFeature)
  /-- The monitor measures a further image (R29). -/
  | measure (digest : BitVec 512)
  /-- The host reads a hub register (R58). -/
  | hostRead (off size : Nat)
deriving DecidableEq, Repr

/-- The model's own fields: what chooses among the outcomes that the spec allows. -/
structure Driver where
  /-- What happens next, in order; when it is empty a fixed policy chooses. -/
  sched : List Turn
  /-- The hart that executes. -/
  cur : Nat
  /-- Reads of the issuing instruction stay in its bag. -/
  hold : Bool
  /-- The written word of the instruction being executed. -/
  ir : Word
  /-- Passes by which each cluster leads at a precise stop, 4 bits each (R101). -/
  leads : Nat
  /-- Number of the next instruction or write. -/
  nextId : Nat
  /-- A clk is due: the fixed policy lets one pass after each turn of a hart. -/
  due : Bool
  /-- The executing instruction stops at this pass, block or unit, where it can (R86, R194). -/
  pause : Option Nat
  /-- A strip of a parallel loop that opens now runs on one lane cluster (R96). -/
  split : Bool
deriving DecidableEq, Repr

/-- The machine. -/
structure State where
  /-- clk since reset (R204). -/
  clk : Nat
  /-- Hart slots by hid = 8 core + 4 control core + hart, default `Hart.reset`. -/
  harts : SMap Hart
  mems : SMap Mem
  /-- Cores by 32 die + index, default `Core.reset`. -/
  cores : SMap Core
  /-- The images of all homes, one byte a cell; an unlisted cell reads 0 (R130). -/
  mem : List Host.Cell
  /-- Uncorrectable ECC words (R26). -/
  bad : List BadWord
  coreQ : SMap (List WEntry)
  devQ : List WEntry
  fabQ : List WEntry
  /-- Writes in a pool image that the pooled device has not acknowledged (R147). -/
  unacked : List WEntry
  /-- The next ticket (R130, R141); 0 at reset (DESIGN CHOICE, log entry 3). -/
  ticket : Nat
  /-- For each 8-byte word: stamp and writer of the latest write at its home, and the stamp of the latest
  write by another agent than that one. -/
  wlog : SMap (Nat × Nat × Nat)
  ring : Ring
  /-- Engine queues: core engine of core c at c, bulk engine e of die q at 128 + 8 q + e; default []. -/
  eng : SMap (List Copy)
  ts : Turnstile
  xlat : Xlat
  coh : Coherence
  pool : Pool
  hub : Hub
  pkg : Package
  drv : Driver
deriving DecidableEq, Repr

/-- Why the machine stops. -/
inductive Fault
  /-- Raised by `step` while the device is in recovery, where no hart runs (R29).  Safe: nothing runs there. -/
  | recovery
deriving DecidableEq, Repr

/-- Why a step is refused. -/
inductive Refusal
  /-- Raised by an arm of `exec` whose instruction has no meaning yet.  Safe: the run ends. -/
  | notModelled (mnemonic : String)
deriving DecidableEq, Repr

/-- No restart point. -/
def Resume.zero : Resume := { sfx := 0, slip := 0, grant := 0, held := 0, lmod := 0, cu := false, cidx := 0 }

/-- A hart slot that nothing has occupied (R90). -/
def Hart.reset : Hart :=
  { task := none, member := 0, pc := 0, level := .u, x := [], v := [], tag := [], p := [], mr := [],
    resume := Resume.zero, kres := Resume.zero, waiting := .no, deferred := [], spilled := [], clean := [],
    bpSkip := false, wpSkip := false, brkPc := 0, kbrkPc := 0, brkAll := false, setvlg := none, killing := none, regrant := none, coll := none, atBar := false,
    barDone := false, rx := [], rxMax := 0, stream := none, strip := [], pre := [],
    paused := false, disp := [], passed := [], blocked := none, par := none }

/-- Empty queues of a hart. -/
def Mem.reset : Mem :=
  { sb := [], bag := [], fences := [], obs := [], seen := [], rlog := [], accErr := none, resErr := none, pcs := [], stall := none,
    oe := [], posts := [] }

/-- A fully enabled core (R1, R79, R99). -/
def Core.reset : Core :=
  { removed := false, lmod := 64, lpart := 4, mown := 0, acc := [], mcfg := 0, mscale := 0, mT := 0,
    mvalid := false, owner := none, filling := false, gated := [], waking := [], lpartNew := none,
    spareDue := [], emptySince := 0, frames := [], skip := [], lost := [], deadSpare := [] }

/-- A task record that is EMPTY (R69). -/
def Task.reset : Task :=
  { st := .empty, w0 := 0, w1 := 0, w2 := 0, w3 := 0, w4 := 0, w5 := 0, cnt := 0, members := [], units := [],
    barE := 0, barGen := 0, dset := none, readyAt := 0, placedAt := 0, die := 0, pre := none,
    readerAt := none, killed := false, byCore := none, dying := none }

/-- A free barrier register. -/
def Bar.reset : Bar := { task := none, exp := 0, arrived := 0, gen := 0 }

/-- A slot that was never used (R367). -/
def TsSlot.reset : TsSlot :=
  { st := .free, gen := 0, owner := 0, reads := 0, seq := 0, tag := .s32, n := 0, dropped := 0, freed := 0 }

/-- A launch queue with nothing taken up. -/
def LQueue.reset : LQueue := { st := .none, pkt := [], out := [], obs := [], ended := [], kills := [] }

/-- A bank never started (R204). -/
def Bank.reset : Bank :=
  { start := 0, freeze := 0, use0 := 0, use1 := 0, use2 := 0, use3 := 0, all0 := 0, all1 := 0, all2 := 0,
    all3 := 0 }

/-- The machine right after device reset: every register at its Reset column, no link trained, no task
armed, memory with nothing listed (R6, R22, R69, R90, R116). -/
def State.reset : State :=
  { clk := 0, harts := [], mems := [], cores := [], mem := [], bad := [], coreQ := [], devQ := [], fabQ := [],
    unacked := [], ticket := 0, wlog := [],
    ring := { tasks := [], ready := [], deque := [], reserving := [], bars := [], lanes := [], marked := [],
              turns := [], rxSave := [], kept := [] },
    eng := [],
    ts := { slots := [], waiters := [], grants := [], dead := [], pend := [] },
    xlat := { tlb := [], ptc := [], xinv := [] },
    coh := { lines := [], wb := [], silent := [], dir := [], reqs := [], answers := [], filter := [], dirty := [],
             l2 := [], fenced := [], present := [], rejoin := false, fabAns := [] },
    pool := { checks := [], identity := [], reroute := [], via := [], grace := [], writeback := [], quar := [],
              dcAns := [], biRsp := [] },
    hub := { reg := [], lq := [], bank := [], dset := [], trace := [], port := [], irqErr := false, irqSw := [],
             msix := [], aer := 0, hostAns := [], spdm := [], turn := [], smpAt := [], cls := [], dbgdat := 0, dbgWait := none, l2gated := [], l2waking := [] },
    pkg := { features := [], otp := [], lostSlices := [], lostChannels := [], sliceDue := [], recovery := none, rollback := 0, measure := [],
             hostRate := 0, hostWidth := 0, hostUp := false, hbmStall := [] },
    drv := { sched := [], cur := 0, hold := false, ir := 0, leads := 0, nextId := 1, due := false, pause := none, split := false } }

end Sys2Proof.Machine
end

