-- ==== Sys2Proof/Machine/Maps.lean ====
section
/-!
DEFINITION. Sparse maps in canonical form, bit fields of words, byte order.
-/
namespace Sys2Proof

/-- The value at a key, the default where the key is not listed. -/
def SMap.get {α : Type} (d : α) : SMap α → Nat → α
  | [], _ => d
  | (k', v) :: m, k => if k = k' then v else SMap.get d m k

/-- List a value at a key, keeping the keys rising. -/
def SMap.put {α : Type} : SMap α → Nat → α → SMap α
  | [], k, v => [(k, v)]
  | (k', v') :: m, k, v =>
    if k = k' then (k, v) :: m
    else if k < k' then (k, v) :: (k', v') :: m
    else (k', v') :: SMap.put m k v

/-- Unlist a key. -/
def SMap.del {α : Type} (m : SMap α) (k : Nat) : SMap α := m.filter (fun e => !(e.1 == k))

/-- Write a value: the default is never listed. -/
def SMap.set {α : Type} [DecidableEq α] (d : α) (m : SMap α) (k : Nat) (v : α) : SMap α :=
  if v = d then m.del k else m.put k v

/-- Keys strictly rising above a bound. -/
def SMap.rising {α : Type} : Option Nat → SMap α → Bool
  | _, [] => true
  | b, (k, _) :: m => (match b with | none => true | some b => decide (b < k)) && SMap.rising (some k) m

/-- The canonical form: keys strictly rising, no default listed. -/
def SMap.wf {α : Type} [DecidableEq α] (d : α) (m : SMap α) : Bool :=
  SMap.rising none m && m.all (fun e => decide (e.2 ≠ d))

/-- The canonical form of memory (an unlisted cell reads 0). -/
def Memory.wf (m : List Host.Cell) : Bool := SMap.wf (0 : Byte) m

/-- Bits [hi:lo] of a word as a number (R5). -/
def bits (w : Word) (hi lo : Nat) : Nat := w.toNat / 2 ^ lo % 2 ^ (hi + 1 - lo)

/-- Bit n of a word. -/
def bit (w : Word) (n : Nat) : Bool := w.getLsbD n

/-- The word with bits [hi:lo] replaced by a number. -/
def setBits (w : Word) (hi lo v : Nat) : Word :=
  let k := 2 ^ (hi + 1 - lo)
  BitVec.ofNat 64 (w.toNat - bits w hi lo * 2 ^ lo + v % k * 2 ^ lo)

/-- The bits of the mask come from the new word, the others from the old one. -/
def maskWrite (old new mask : Word) : Word := (old &&& ~~~mask) ||| (new &&& mask)

/-- The mask of bits [hi:lo]. -/
def fieldMask (hi lo : Nat) : Word := BitVec.ofNat 64 ((2 ^ (hi + 1 - lo) - 1) * 2 ^ lo)

/-- Byte k of a number, little-endian (R5). -/
def byteOf (v k : Nat) : Byte := BitVec.ofNat 8 (v / 2 ^ (8 * k))

/-- The number that bytes stand for, the first the least significant (R5). -/
def ofBytes : List Byte → Nat
  | [] => 0
  | b :: bs => b.toNat + 256 * ofBytes bs

/-- The signed reading of the low n bits of a number. -/
def sextNat (v n : Nat) : Int :=
  let u := v % 2 ^ n
  if n = 0 then 0 else if u < 2 ^ (n - 1) then (u : Int) else (u : Int) - (2 : Int) ^ n

/-- An integer modulo 2^n. -/
def wrapNat (n : Nat) (i : Int) : Nat := (i % ((2 : Int) ^ n)).toNat

/-- The sign-extended immediate as a word (R253). -/
def sext64 {n : Nat} (i : BitVec n) : Word := i.signExtend 64

/-- The number of bits of n up to its highest 1. -/
def bitLen (n : Nat) : Nat := if n = 0 then 0 else n.log2 + 1

/-- How many bits below n of a number are 1. -/
def popCount : Nat → Nat → Nat
  | 0, _ => 0
  | n + 1, v => v % 2 + popCount n (v / 2)

/-- Trailing zero bits of a number among n bits (R257). -/
def trailZeros : Nat → Nat → Nat
  | 0, _ => 0
  | n + 1, v => if v % 2 = 1 then 0 else 1 + trailZeros n (v / 2)

/-- Leading zero bits of an n-bit number (R257). -/
def leadZeros (n v : Nat) : Nat := n - bitLen (v % 2 ^ n)

/-- Bits of a mask that are set, ascending. -/
def bitList (n v : Nat) : List Nat := (List.range n).filter (fun k => v.testBit k)

/-- The ceiling of a quotient. -/
def ceilDiv (a b : Nat) : Nat := if b = 0 then 0 else (a + b - 1) / b

/-- Code of a scope as the width order CORE, DEVICE, FABRIC, POOL (R3). -/
def Scope.rank : Scope → Nat
  | .core => 0
  | .dev => 1
  | .fabric => 2
  | .pool => 3

end Sys2Proof
end

