-- ==== Sys2Proof/Machine/Flags.lean ====
section
/-!
DEFINITION. The sticky flags of fflags (R166).
-/
namespace Sys2Proof

/-- The sticky flags as a number in the layout of fflags (R166). -/
def flNX : Nat := 1
def flUF : Nat := 2
def flOF : Nat := 4
def flDZ : Nat := 8
def flNV : Nat := 16
def flSAT : Nat := 32

/-- fflags after flags are set: hardware only sets them (R166). -/
def flagsSet (old : Word) (fl : Nat) : Word := old ||| BitVec.ofNat 64 (fl % 64)

end Sys2Proof
end

