-- ==== Sys2Proof/Machine/NumFmt.lean ====
section
/-!
DEFINITION. Number formats (R157 to R171): values of codes, rounding, conversions, the scalar and element
arithmetic on exact values.
-/
namespace Sys2Proof

/-- The width of a tag in bits (R157). -/
def Tag.width : Tag → Nat
  | .z8 | .s8 | .e5m2 | .e4m3 | .e3m2 | .e2m3 | .e4m3x | .e8m0 => 8
  | .z16 | .s16 | .f16 | .bf16 => 16
  | .z32 | .s32 | .f32 => 32
  | .z64 | .s64 | .f64 => 64
  | .s4 | .e2m1 | .e2m1x => 4

/-- Unsigned integer tags (R157). -/
def Tag.isUns : Tag → Bool
  | .z8 | .z16 | .z32 | .z64 => true
  | _ => false

/-- Signed integer tags, s4 included (R157). -/
def Tag.isSgn : Tag → Bool
  | .s8 | .s16 | .s32 | .s64 | .s4 => true
  | _ => false

/-- Integer tags of ordinary arithmetic (R157). -/
def Tag.isInt : Tag → Bool
  | .s4 => false
  | t => t.isUns || t.isSgn

/-- Tags legal in ordinary arithmetic (R157, R158). -/
def Tag.ordinary (t : Tag) : Bool := t.isInt || t.isFloat

/-- Narrow float tags (R157). -/
def Tag.isNarrow : Tag → Bool
  | .e5m2 | .e4m3 | .e3m2 | .e2m3 | .e2m1 | .e4m3x | .e2m1x => true
  | _ => false

/-- The signed tag of a width (R163). -/
def Tag.signed : Nat → Tag
  | 4 => .s4
  | 8 => .s8
  | 16 => .s16
  | 32 => .s32
  | _ => .s64

/-- The unsigned tag of a width (R283). -/
def Tag.unsigned : Nat → Tag
  | 8 => .z8
  | 16 => .z16
  | 32 => .z32
  | _ => .z64

/-- The number of bits of a width code (R92). -/
def Ew.bits : Ew → Nat
  | .e4 => 4
  | .e8 => 8
  | .e16 => 16
  | .e32 => 32
  | .e64 => 64

/-- The operation tag of two ordinary tags (R163). -/
def promote (a b : Tag) : Tag :=
  if a = b then a
  else if a.isFloat && b.isFloat then
    (if a.width = b.width then .f32 else if a.width < b.width then b else a)
  else if a.isFloat || b.isFloat then
    let f := if a.isFloat then a else b
    let i := if a.isFloat then b else a
    if i.width ≤ f.width then f else if i.width ≤ 32 then .f32 else .f64
  else if a.isUns == b.isUns then (if a.width < b.width then b else a)
  else
    let s := if a.isUns then b else a
    let u := if a.isUns then a else b
    if u.width < s.width then s else Tag.signed (min (2 * u.width) 64)

/-- An exact value: a NaN (signalling or not), an infinity, or (-1)^neg × m × 2^e. -/
inductive Num
  | nan (sig : Bool)
  | inf (neg : Bool)
  | fin (neg : Bool) (m : Nat) (e : Int)
deriving DecidableEq, Repr

/-- What is to be rounded: an exact value, or one that lies above m × 2^e by less than 2^e (sticky). -/
structure Raw where
  neg : Bool
  m : Nat
  e : Int
  sticky : Bool
deriving DecidableEq, Repr


/-- The rounding modes: 0 RNE, 1 RTZ, 2 RDN, 3 RUP, 4 RNA (R165, R167). -/
abbrev Rm := Nat

/-- A float format: exponent bits, fraction bits, bias, the largest finite exponent and significand, and
whether it has infinities (R160, R161). -/
structure Fmt where
  eb : Nat
  mb : Nat
  bias : Int
  emax : Int
  maxSig : Nat
  hasInf : Bool
  nan : Option Nat
deriving DecidableEq, Repr

/-- The float formats (R160, R161); a tag without one gets that of f32. -/
def Tag.fmt : Tag → Fmt
  | .f16 => ⟨5, 10, 15, 15, 2047, true, some 0x7E00⟩
  | .bf16 => ⟨8, 7, 127, 127, 255, true, some 0x7FC0⟩
  | .f64 => ⟨11, 52, 1023, 1023, 2 ^ 53 - 1, true, some 0x7FF8000000000000⟩
  | .e5m2 => ⟨5, 2, 15, 15, 7, true, some 0x7E⟩
  | .e4m3 | .e4m3x => ⟨4, 3, 7, 8, 14, false, some 0x7F⟩
  | .e3m2 => ⟨3, 2, 3, 4, 7, false, none⟩
  | .e2m3 => ⟨2, 3, 1, 2, 15, false, none⟩
  | .e2m1 | .e2m1x => ⟨2, 1, 1, 2, 3, false, none⟩
  | _ => ⟨8, 23, 127, 127, 2 ^ 24 - 1, true, some 0x7FC00000⟩

/-- The canonical NaN of a format, +0 where it has none (R160, R169). -/
def Fmt.nanCode (f : Fmt) : Nat := f.nan.getD 0

/-- The code of the escape in the escape variants (R162). -/
def Tag.escape : Tag → Option Nat
  | .e4m3x => some 0x80
  | .e2m1x => some 0x8
  | _ => none

/-- A float code's value (R160, R161).  Bits above the format's width are ignored: of an element of e3m2 or e2m3, bits 7 and 6
(DESIGN CHOICE, log entry 110). -/
def floatVal (f : Fmt) (c : Nat) : Num :=
  let frac := c % 2 ^ f.mb
  let ex := c / 2 ^ f.mb % 2 ^ f.eb
  let neg := c / 2 ^ (f.mb + f.eb) % 2 == 1
  if f.hasInf && ex == 2 ^ f.eb - 1 then
    if frac = 0 then .inf neg else .nan (frac < 2 ^ (f.mb - 1))
  else if !f.hasInf && f.nan.isSome && c % 2 ^ (f.mb + f.eb) == f.nanCode then .nan false
  else if ex = 0 then .fin neg frac (1 - f.bias - f.mb)
  else .fin neg (2 ^ f.mb + frac) ((ex : Int) - f.bias - f.mb)

/-- The value of a code under its tag (R159 to R162): an escape reads as a signalling NaN. -/
def val (t : Tag) (c : Nat) : Num :=
  let c := c % 2 ^ t.width
  if t.isFloat || t.isNarrow then
    if t.escape = some c then .nan true else floatVal t.fmt c
  else if t = .e8m0 then (if c = 255 then .nan false else .fin false 1 ((c : Int) - 127))
  else if t.isUns then .fin false c 0
  else let i := sextNat c t.width; .fin (i < 0) i.natAbs 0

/-- Shift right by sh and round (R167): the significand and whether anything was lost. -/
def roundShift (rm : Rm) (neg : Bool) (m sh : Nat) (sticky : Bool) : Nat × Bool :=
  let q := m / 2 ^ sh
  let r := m % 2 ^ sh
  let half := if sh = 0 then 0 else 2 ^ (sh - 1)
  let lost := r != 0 || sticky
  let up :=
    match rm with
    | 0 => sh != 0 && (r > half || (r == half && (sticky || q % 2 == 1)))
    | 2 => lost && neg
    | 3 => lost && !neg
    | 4 => sh != 0 && r ≥ half && half != 0
    | _ => false
  (if up then q + 1 else q, lost)

/-- Scale up so that a sticky value keeps enough bits below the format's precision. -/
def Raw.widen (x : Raw) (k : Nat) : Raw :=
  if x.sticky then { x with m := x.m * 2 ^ k, e := x.e - k } else x

/-- The largest finite code with a sign. -/
def Fmt.maxCode (f : Fmt) (neg : Bool) : Nat :=
  (if neg then 2 ^ (f.mb + f.eb) else 0) + ((f.emax + f.bias).toNat * 2 ^ f.mb + (f.maxSig - 2 ^ f.mb))

/-- The infinity with a sign. -/
def Fmt.infCode (f : Fmt) (neg : Bool) : Nat :=
  (if neg then 2 ^ (f.mb + f.eb) else 0) + (2 ^ f.eb - 1) * 2 ^ f.mb

/-- A zero with a sign. -/
def Fmt.zeroCode (f : Fmt) (neg : Bool) : Nat := if neg then 2 ^ (f.mb + f.eb) else 0

/-- Round a value to a format (R167), giving the code and the flags. -/
def roundRaw (f : Fmt) (rm : Rm) (x0 : Raw) : Nat × Nat :=
  if x0.m = 0 && !x0.sticky then (f.zeroCode x0.neg, 0)
  else
    let x := x0.widen (f.mb + 3)
    let top : Int := (bitLen x.m : Int) - 1 + x.e
    let emin := 1 - f.bias
    let qn := top - f.mb
    let q := max qn (emin - f.mb)
    let sh := (q - x.e).toNat
    let pre := (x.e - q).toNat
    let (sig, lost) := roundShift rm x.neg (x.m * 2 ^ pre) sh x.sticky
    let tiny :=
      if top ≥ emin then false
      else
        let sn := (roundShift rm x.neg (x.m * 2 ^ (x.e - qn).toNat) (qn - x.e).toNat x.sticky).1
        !(sn == 2 ^ (f.mb + 1) && top + 1 == emin)
    let (sig, q) := if sig = 2 ^ (f.mb + 1) then (2 ^ f.mb, q + 1) else (sig, q)
    let ex := q + f.mb
    let tooBig := sig ≥ 2 ^ f.mb && (ex > f.emax || (ex == f.emax && sig > f.maxSig))
    if tooBig then
      let toMax := !f.hasInf || rm == 1 || (rm == 2 && !x.neg) || (rm == 3 && x.neg)
      (if toMax then f.maxCode x.neg else f.infCode x.neg, flOF + flNX)
    else
      let body := if sig < 2 ^ f.mb then sig else (ex + f.bias).toNat * 2 ^ f.mb + (sig - 2 ^ f.mb)
      (f.zeroCode x.neg + body, (if lost then flNX else 0) + (if lost && tiny then flUF else 0))

/-- Round an exact value to an IEEE-style format (R169, round_fmt); NaN gives the canonical NaN. -/
def roundNum (f : Fmt) (rm : Rm) (x : Num) : Nat × Nat :=
  match x with
  | .nan _ => (f.nanCode, 0)
  | .inf neg => (f.infCode neg, 0)
  | .fin neg m e => roundRaw f rm ⟨neg, m, e, false⟩

/-- Encode in a narrow format (R169, enc). -/
def encNarrow (t : Tag) (rm : Rm) (x : Num) : Nat × Nat :=
  let f := t.fmt
  let (c, fl) :=
    match x with
    | .nan _ => (f.nanCode, if f.nan.isSome then 0 else flNV)
    | .inf neg => if f.hasInf then (f.infCode neg, 0) else (f.maxCode neg, flOF + flNX)
    | .fin neg m e => roundRaw f rm ⟨neg, m, e, false⟩
  (if t.escape = some c then 0 else c, fl)

/-- The integer nearest under a mode, and whether anything was lost. -/
def roundInt (rm : Rm) (neg : Bool) (m : Nat) (e : Int) : Int × Bool :=
  let (q, lost) := if e ≥ 0 then (m * 2 ^ e.toNat, false) else roundShift rm neg m (-e).toNat false
  (if neg then -(q : Int) else q, lost)

/-- The least and greatest value of an integer tag (R159). -/
def Tag.minInt (t : Tag) : Int := if t.isUns then 0 else -(2 : Int) ^ (t.width - 1)
def Tag.maxInt (t : Tag) : Int := if t.isUns then (2 : Int) ^ t.width - 1 else (2 : Int) ^ (t.width - 1) - 1

/-- Clamp to an integer tag (R169, sat). -/
def satInt (t : Tag) (i : Int) : Nat × Nat :=
  if i < t.minInt then (wrapNat t.width t.minInt, flSAT)
  else if i > t.maxInt then (wrapNat t.width t.maxInt, flSAT)
  else (wrapNat t.width i, 0)

/-- A float as an integer (R169, to_int). -/
def toInt (t : Tag) (rm : Rm) (x : Num) : Nat × Nat :=
  match x with
  | .nan _ => (0, flNV)
  | .inf neg => (wrapNat t.width (if neg then t.minInt else t.maxInt), flNV)
  | .fin neg m e =>
    -- a value at or beyond 2^64 is out of range of every tag
    if m ≠ 0 ∧ (bitLen m : Int) + e > 66 then (wrapNat t.width (if neg then t.minInt else t.maxInt), flNV)
    else
      let (i, lost) := roundInt rm neg m e
      if i < t.minInt then (wrapNat t.width t.minInt, flNV)
      else if i > t.maxInt then (wrapNat t.width t.maxInt, flNV)
      else (wrapNat t.width i, if lost then flNX else 0)

/-- Whether a value is a signalling NaN, and the NV it raises (R164). -/
def Num.sigFlag : Num → Nat
  | .nan true => flNV
  | _ => 0

/-- NaN of either kind. -/
def Num.isNan : Num → Bool
  | .nan _ => true
  | _ => false

/-- Zero of either sign. -/
def Num.isZero : Num → Bool
  | .fin _ 0 _ => true
  | _ => false

/-- The sign of a value. -/
def Num.isNeg : Num → Bool
  | .nan _ => false
  | .inf n => n
  | .fin n _ _ => n

/-- A value with its sign inverted. -/
def Num.neg : Num → Num
  | .nan s => .nan s
  | .inf n => .inf (!n)
  | .fin n m e => .fin (!n) m e

/-- A value without its sign. -/
def Num.abs : Num → Num
  | .nan s => .nan s
  | .inf _ => .inf false
  | .fin _ m e => .fin false m e

/-- m × 2^(e - lo) as an integer, for lo at or below e. -/
def scaled (neg : Bool) (m : Nat) (e lo : Int) : Int :=
  let v : Int := (m * 2 ^ (e - lo).toNat : Nat)
  if neg then -v else v

/-- Exact sum; NV for opposite infinities or a signalling NaN; the sign of an exact zero as R167. -/
def numAdd (rm : Rm) (a b : Num) : Num × Nat :=
  match a, b with
  | .nan s, .nan s' => (.nan false, if s || s' then flNV else 0)
  | .nan s, _ => (.nan false, if s then flNV else 0)
  | _, .nan s => (.nan false, if s then flNV else 0)
  | .inf x, .inf y => if x = y then (.inf x, 0) else (.nan false, flNV)
  | .inf x, _ => (.inf x, 0)
  | _, .inf y => (.inf y, 0)
  | .fin n1 m1 e1, .fin n2 m2 e2 =>
    if m1 = 0 then
      (if m2 = 0 then .fin (if n1 = n2 then n1 else rm == 2) 0 0 else .fin n2 m2 e2, 0)
    else if m2 = 0 then (.fin n1 m1 e1, 0)
    else
      let lo := min e1 e2
      let s := scaled n1 m1 e1 lo + scaled n2 m2 e2 lo
      (if s = 0 then .fin (rm == 2) 0 0 else .fin (s < 0) s.natAbs lo, 0)

/-- Exact product; NV for 0 × infinity or a signalling NaN. -/
def numMul (a b : Num) : Num × Nat :=
  match a, b with
  | .nan s, .nan s' => (.nan false, if s || s' then flNV else 0)
  | .nan s, _ => (.nan false, if s then flNV else 0)
  | _, .nan s => (.nan false, if s then flNV else 0)
  | .inf x, .inf y => (.inf (x != y), 0)
  | .inf x, .fin y m _ => if m = 0 then (.nan false, flNV) else (.inf (x != y), 0)
  | .fin x m _, .inf y => if m = 0 then (.nan false, flNV) else (.inf (x != y), 0)
  | .fin x m1 e1, .fin y m2 e2 => (.fin (x != y) (m1 * m2) (e1 + e2), 0)

/-- Compare two values that are not NaN: less than; -0 equals +0. -/
def numLt (a b : Num) : Bool :=
  match a, b with
  | .inf x, .inf y => x && !y
  | .inf x, .fin _ _ _ => x
  | .fin _ _ _, .inf y => !y
  | .fin n1 m1 e1, .fin n2 m2 e2 => let lo := min e1 e2; scaled n1 m1 e1 lo < scaled n2 m2 e2 lo
  | _, _ => false

/-- Equality of two values that are not NaN. -/
def numEq (a b : Num) : Bool := !a.isNan && !b.isNan && !numLt a b && !numLt b a

/-- The order of min and max: -0 below +0 (R171, R264). -/
def numBelow (a b : Num) : Bool :=
  numLt a b || (numEq a b && a.isNeg && !b.isNeg)

/-- Floor of a square root, by Newton steps from above. -/
def isqrtLoop : Nat → Nat → Nat → Nat
  | 0, _, x => x
  | k + 1, n, x => let y := (x + n / x) / 2; if y < x then isqrtLoop k n y else x

/-- Floor of the square root of n. -/
def isqrt (n : Nat) : Nat :=
  if n = 0 then 0 else isqrtLoop (bitLen n + 2) n (2 ^ ((bitLen n + 1) / 2))

/-- A rounded result of an operation in a format: code and flags. -/
abbrev Coded := Nat × Nat

/-- Round a sum, difference or product with its flags. -/
def finish (f : Fmt) (rm : Rm) (r : Num × Nat) : Coded :=
  let (c, fl) := roundNum f rm r.1
  (c, fl ||| r.2)

/-- fadd and fsub (R264). -/
def fAdd (f : Fmt) (rm : Rm) (a b : Num) : Coded := finish f rm (numAdd rm a b)
def fSub (f : Fmt) (rm : Rm) (a b : Num) : Coded := finish f rm (numAdd rm a b.neg)

/-- fmul (R264). -/
def fMul (f : Fmt) (rm : Rm) (a b : Num) : Coded := finish f rm (numMul a b)

/-- a × b + c with one rounding (R264, R285). -/
def fFma (f : Fmt) (rm : Rm) (a b c : Num) : Coded :=
  let (p, fp) := numMul a b
  let (s, fs) := numAdd rm p c
  finish f rm (s, fp ||| fs ||| c.sigFlag)

/-- Quotient of two finite nonzero values, with precision to spare. -/
def quotRaw (f : Fmt) (n1 : Bool) (m1 : Nat) (e1 : Int) (n2 : Bool) (m2 : Nat) (e2 : Int) : Raw :=
  let sh := bitLen m2 + f.mb + 4
  let a := m1 * 2 ^ sh
  ⟨n1 != n2, a / m2, e1 - e2 - sh, a % m2 != 0⟩

/-- fdiv (R264). -/
def fDiv (f : Fmt) (rm : Rm) (a b : Num) : Coded :=
  match a, b with
  | .nan s, .nan s' => (f.nanCode, if s || s' then flNV else 0)
  | .nan s, _ => (f.nanCode, if s then flNV else 0)
  | _, .nan s => (f.nanCode, if s then flNV else 0)
  | .inf _, .inf _ => (f.nanCode, flNV)
  | .inf x, .fin y _ _ => (f.infCode (x != y), 0)
  | .fin x _ _, .inf y => (f.zeroCode (x != y), 0)
  | .fin x m1 e1, .fin y m2 e2 =>
    if m2 = 0 then (if m1 = 0 then (f.nanCode, flNV) else (f.infCode (x != y), flDZ))
    else if m1 = 0 then (f.zeroCode (x != y), 0)
    else roundRaw f rm (quotRaw f x m1 e1 y m2 e2)

/-- m × 2^e with an even exponent and k more bits. -/
def evenScale (m : Nat) (e : Int) (k : Nat) : Nat × Int :=
  let e' := e - 2 * k
  let m' := m * 2 ^ (2 * k)
  if e' % 2 = 0 then (m', e') else (m' * 2, e' - 1)

/-- fsqrt (R264). -/
def fSqrt (f : Fmt) (rm : Rm) (a : Num) : Coded :=
  match a with
  | .nan s => (f.nanCode, if s then flNV else 0)
  | .inf neg => if neg then (f.nanCode, flNV) else (f.infCode false, 0)
  | .fin neg m e =>
    if m = 0 then (f.zeroCode neg, 0)
    else if neg then (f.nanCode, flNV)
    else
      let (m', e') := evenScale m e (f.mb + 4)
      let r := isqrt m'
      roundRaw f rm ⟨false, r, e' / 2, r * r != m'⟩

/-- The reciprocal (R286). -/
def fRcp (f : Fmt) (rm : Rm) (a : Num) : Coded :=
  match a with
  | .nan s => (f.nanCode, if s then flNV else 0)
  | .inf neg => (f.zeroCode neg, 0)
  | .fin neg m e =>
    if m = 0 then (f.infCode neg, flDZ) else roundRaw f rm (quotRaw f false 1 0 neg m e)

/-- The reciprocal square root (R286). -/
def fRsqrt (f : Fmt) (rm : Rm) (a : Num) : Coded :=
  match a with
  | .nan s => (f.nanCode, if s then flNV else 0)
  | .inf neg => if neg then (f.nanCode, flNV) else (f.zeroCode false, 0)
  | .fin neg m e =>
    if m = 0 then (f.infCode neg, flDZ)
    else if neg then (f.nanCode, flNV)
    else
      let (m', e') := evenScale m e 0
      let k := bitLen m' + f.mb + 4
      let q := 2 ^ (2 * k) / m'
      let r := isqrt q
      roundRaw f rm ⟨false, r, -(e' / 2) - k, r * r * m' != 2 ^ (2 * k)⟩

/-- The fixed-point place of the powers used by fExp2. -/
def exp2Place : Nat := 320

/-- The product of 2^(2^-i) over the 1 bits of a fraction, i counted from the top, in fixed point; each
factor is the square root of the one before. -/
def exp2Loop : Nat → Nat → Nat → Nat → Nat
  | 0, _, _, acc => acc
  | k + 1, frac, root, acc =>
    let root := isqrt (root * 2 ^ exp2Place)
    let acc := if frac.testBit k then acc * root / 2 ^ exp2Place else acc
    exp2Loop k frac root acc

/-- Two to the power of a value (R286): the fraction is taken to 160 bits below the point, and what lies
below is sticky, since a power of two with a fraction is irrational. -/
def fExp2 (f : Fmt) (rm : Rm) (a : Num) : Coded :=
  match a with
  | .nan s => (f.nanCode, if s then flNV else 0)
  | .inf neg => if neg then (f.zeroCode false, 0) else (f.infCode false, 0)
  | .fin neg m e =>
    if m = 0 then roundRaw f rm ⟨false, 1, 0, false⟩
    else if (bitLen m : Int) + e > 20 then
      roundRaw f rm ⟨false, 1, if neg then -(2 : Int) ^ 16 else (2 : Int) ^ 16, false⟩
    else if e ≥ 0 then
      let i : Int := (m * 2 ^ e.toNat : Nat)
      roundRaw f rm ⟨false, 1, if neg then -i else i, false⟩
    else
      let d : Nat := 2 ^ (-e).toNat
      let v : Int := if neg then -(m : Int) else m
      let ip : Int := v / (d : Int)
      let fp := (v % (d : Int)).toNat
      if fp = 0 then roundRaw f rm ⟨false, 1, ip, false⟩
      else
        let frac := fp * 2 ^ 160 / d
        let p := exp2Loop 160 frac (2 * 2 ^ exp2Place) (2 ^ exp2Place)
        roundRaw f rm ⟨false, p / 2 ^ 16, ip - exp2Place + 16, true⟩

/-- Lesser or greater; any NaN gives the canonical NaN (R264, R171). -/
def fMinMax (f : Fmt) (wantMax : Bool) (a b : Num) (ca cb : Nat) : Coded :=
  if a.isNan || b.isNan then (f.nanCode, a.sigFlag ||| b.sigFlag)
  else if numBelow a b then (if wantMax then cb else ca, 0) else (if wantMax then ca else cb, 0)

/-- The class bit of R266. -/
def fClass (f : Fmt) (x : Num) : Nat :=
  match x with
  | .nan s => if s then 2 ^ 8 else 2 ^ 9
  | .inf neg => if neg then 1 else 2 ^ 7
  | .fin neg m e =>
    if m = 0 then (if neg then 2 ^ 3 else 2 ^ 4)
    else if (bitLen m : Int) - 1 + e < 1 - f.bias then (if neg then 2 ^ 2 else 2 ^ 5)
    else (if neg then 2 else 2 ^ 6)

/-- A comparison of floats and its NV (R264, R288). -/
def fCmp (n : Cond) (a b : Num) : Bool × Nat :=
  let nn := a.isNan || b.isNan
  let quiet := a.sigFlag ||| b.sigFlag
  let loud := if nn then flNV else 0
  match n with
  | .eq => (!nn && numEq a b, quiet)
  | .ne => (nn || !numEq a b, quiet)
  | .lt => (!nn && numLt a b, loud)
  | .le => (!nn && !numLt b a, loud)
  | .gt => (!nn && numLt b a, loud)
  | .ge => (!nn && !numLt a b, loud)
  | .un => (nn, quiet)

/-- Convert a code to the operation tag (R164). -/
def convTag (s t : Tag) (rm : Rm) (c : Nat) : Coded :=
  if s = t then (c % 2 ^ s.width, 0)
  else if t.isFloat then
    let x := val s c
    let (r, fl) := roundNum t.fmt rm x
    (r, fl ||| x.sigFlag)
  else (wrapNat t.width (if s.isUns then (c % 2 ^ s.width : Nat) else sextNat c s.width), 0)

/-- An integer code read under its tag. -/
def intVal (t : Tag) (c : Nat) : Int :=
  if t.isUns then ((c % 2 ^ t.width : Nat) : Int) else sextNat c t.width

/-- Fixed-point narrowing of an integer by sh under a mode (R168). -/
def fixnarrow (mode : Nat) (x : Int) (sh : Nat) : Int :=
  if sh = 0 then x
  else
    let d := (2 : Int) ^ sh
    let q := x / d
    let r := x % d
    match mode with
    | 0 => (x + (2 : Int) ^ (sh - 1)) / d
    | 1 =>
      let h := (2 : Int) ^ (sh - 1)
      if r > h || (r == h && q % 2 == 1) then q + 1 else q
    | 2 => q
    | _ => if r != 0 && q % 2 == 0 then q + 1 else q

/-- Quotient and remainder with the borderlines of R257, at a width. -/
def divInt (t : Tag) (a b : Int) : Int :=
  if b = 0 then (if t.isUns then t.maxInt else -1) else Int.tdiv a b
def remInt (a b : Int) : Int := if b = 0 then a else Int.tmod a b

/-- floor(log2) of a finite nonzero value. -/
def floorLog2 (m : Nat) (e : Int) : Int := (bitLen m : Int) - 1 + e

/-- Encode as a scale (R290). -/
def encE8m0 (x : Num) : Coded :=
  match x with
  | .fin false m e =>
    if m = 0 then (0xFF, flNV)
    else
      let l := floorLog2 m e
      let k := max (-127) (min 127 l)
      let exact := m == 2 ^ (bitLen m - 1) && l == k
      ((127 + k).toNat, if exact then 0 else flNX)
  | _ => (0xFF, flNV)

/-- Convert a code from any tag to any tag (R290). -/
def convAny (s t : Tag) (rm : Rm) (c : Nat) : Coded :=
  if s = t then (c % 2 ^ s.width, 0)
  else
    let x := val s c
    let sInt := s.isUns || s.isSgn
    if t = .e8m0 then encE8m0 x
    else if t.isUns || t.isSgn then
      (if sInt then satInt t (intVal s c) else toInt t rm x)
    else if t.isFloat then
      let (r, fl) := roundNum t.fmt rm x
      (r, fl ||| x.sigFlag)
    else
      let (r, fl) := encNarrow t rm x
      (r, fl ||| x.sigFlag)

/-- Round to odd at 64 significant bits (R169, rto64). -/
def rto64 (x : Num) : Num :=
  match x with
  | .fin neg m e =>
    let l := bitLen m
    if l ≤ 64 then x
    else
      let sh := l - 64
      let q := m / 2 ^ sh
      .fin neg (if m % 2 ^ sh = 0 then q else q / 2 * 2 + 1) (e + sh)
  | _ => x

/-- acc_round: f32 rounding, saturating where accmode asks for it (R169). -/
def accRound (rm : Rm) (acc1 : Bool) (x : Num) : Coded :=
  let f := Tag.f32.fmt
  let (c, fl) := roundNum f rm x
  match x with
  | .fin neg _ _ => if acc1 && c == f.infCode neg then (f.maxCode neg, fl ||| (flOF + flNX)) else (c, fl)
  | _ => (c, fl)

end Sys2Proof
end

