-- ==== Sys2Proof/Machine/Regs.lean ====
section
/-!
DEFINITION. Accessors: harts, cores, machine registers, hub register words, homes of locations, counters,
trace records and error reports.
-/
namespace Sys2Proof.Machine

/-! Harts and cores. -/

/-- The hart in slot hid. -/
def State.hart (s : State) (hid : Nat) : Hart := SMap.get Hart.reset s.harts hid

/-- Replace the hart in slot hid. -/
def State.setHart (s : State) (hid : Nat) (h : Hart) : State :=
  { s with harts := SMap.set Hart.reset s.harts hid h }

/-- The hart's part of the ordering machine. -/
def State.hmem (s : State) (hid : Nat) : Mem := SMap.get Mem.reset s.mems hid

/-- Replace it. -/
def State.setHmem (s : State) (hid : Nat) (m : Mem) : State :=
  { s with mems := SMap.set Mem.reset s.mems hid m }

/-- Core c = 32 die + index. -/
def State.core (s : State) (c : Nat) : Core := SMap.get Core.reset s.cores c

/-- Replace core c. -/
def State.setCore (s : State) (c : Nat) (k : Core) : State :=
  { s with cores := SMap.set Core.reset s.cores c k }

/-- The executing hart's slot number. -/
abbrev State.cur (s : State) : Nat := s.drv.cur

/-- The executing hart. -/
def State.me (s : State) : Hart := s.hart s.cur

/-- Replace the executing hart. -/
def State.setMe (s : State) (h : Hart) : State := s.setHart s.cur h

/-- The core, control core and die of a hart slot (R252).  Numbers from 1,024 up name harts that have left
their slot, which keeps its place modulo 1,024. -/
def coreOf (hid : Nat) : Nat := hid % 1024 / 8
def ccOf (hid : Nat) : Nat := hid / 4 % 2
def dieOf (hid : Nat) : Nat := hid % 1024 / 256

/-- Scalar registers: x0 reads zero and discards what is written (R90, R240, R253). -/
def Hart.getX (h : Hart) (n : XR) : Word := if n = 0 then 0 else SMap.get 0 h.x n.val
def Hart.setX (h : Hart) (n : XR) (v : Word) : Hart :=
  if n = 0 then h else { h with x := SMap.set 0 h.x n.val v }

/-- X(n) and setX(n, v) of the executing hart (R253). -/
def State.getX (s : State) (n : XR) : Word := s.me.getX n
def State.setX (s : State) (n : XR) (v : Word) : State := s.setMe (s.me.setX n v)

/-- The reset value of a stored machine register (R92, R165, R186, R252): only avl.ew is not zero. -/
def mregReset (n : Nat) : Word := if n = 0x001 then 0x1800000000000000 else 0

/-- A stored machine register by its number (R252). -/
def Hart.mreg (h : Hart) (n : Nat) : Word := SMap.get (mregReset n) h.mr n
def Hart.setMreg (h : Hart) (n : Nat) (v : Word) : Hart :=
  { h with mr := SMap.set (mregReset n) h.mr n v }

def State.mreg (s : State) (n : Nat) : Word := s.me.mreg n
def State.setMreg (s : State) (n : Nat) (v : Word) : State := s.setMe (s.me.setMreg n v)

/-- Numbers of the machine registers (R252). -/
def mVl : Nat := 0x000
def mAvl : Nat := 0x001
def mStrip : Nat := 0x002
def mVgrant : Nat := 0x003
def mLmod : Nat := 0x004
def mFctl : Nat := 0x005
def mFflags : Nat := 0x006
def mSlip : Nat := 0x007
def mHartid : Nat := 0x008
def mGang : Nat := 0x009
def mTaskid : Nat := 0x00A
def mRbs : Nat := 0x00B
def mVhead : Nat := 0x00C
def mEstat : Nat := 0x100
def mEpc : Nat := 0x101
def mEcause : Nat := 0x102
def mEtval : Nat := 0x103
def mEvec : Nat := 0x104
def mEscratch : Nat := 0x105
def mAsid : Nat := 0x106
def mPtbase : Nat := 0x107
def mMown : Nat := 0x108
def mMsa : Nat := 0x109
def mPowcap : Nat := 0x10A
def mEavl : Nat := 0x10B
def mEstrip : Nat := 0x10C
def mEhead : Nat := 0x10D
def mEvl : Nat := 0x10E
def mEslip : Nat := 0x10F
def mEgrant : Nat := 0x110
def mLpart : Nat := 0x200
def mKstat : Nat := 0x201
def mKret : Nat := 0x202
def mKwhy : Nat := 0x203
def mKaddr : Nat := 0x204
def mKentry : Nat := 0x205
def mKspare : Nat := 0x206

/-- The RW bits of a machine register (R92, R105, R182, R186, R192, R252); bits [13:12] of ptbase are written
as 0. -/
def mregMask (n : Nat) : Word :=
  if n = mFctl then 0x77
  else if n = mFflags then 0x3F
  else if n = mRbs then fieldMask 54 20
  else if n = mEstat then 0xFC00
  else if n = mEpc ∨ n = mKret then 0xFFFFFFFFFFFFFFFE
  else if n = mEcause ∨ n = mKwhy then 0xFFFFFF01FF
  else if n = mEvec ∨ n = mKentry then fieldMask 54 2
  else if n = mAsid then 0xFFF
  else if n = mPtbase then fieldMask 51 14
  else if n = mMown then 0xE007
  else if n = mMsa then fieldMask 54 12
  else if n = mPowcap ∨ n = mLpart then 0xF
  else if n = mEavl ∨ n = mAvl then 0xF800FFFFFFFFFFFF
  else if n = mEhead ∨ n = mVhead then fieldMask 54 0
  else if n = mEvl ∨ n = mVl then 0x1FFFF
  else if n = mEslip ∨ n = mSlip then 0xFFFF
  else if n = mEgrant then 0x8000FFFF00FF7F7F
  else if n = mKstat then 0xE
  else 0xFFFFFFFFFFFFFFFF

/-- The rounding mode of an fctl word: fctl.frm; what a reserved code rounds as is open (R165). -/
def rmOf (w : Word) : Rm :=
  let c := bits w 2 0
  if c ≤ 4 then c else Config.reservedRm c % 5
def Hart.rm (h : Hart) : Rm := rmOf (h.mreg mFctl)
/-- fctl.fixrm and fctl.accmode (R165). -/
def Hart.fixrm (h : Hart) : Nat := bits (h.mreg mFctl) 5 4
def Hart.accmode (h : Hart) : Bool := bit (h.mreg mFctl) 6

/-- Set sticky flags (R166). -/
def Hart.orFlags (h : Hart) (fl : Nat) : Hart :=
  if fl = 0 then h else h.setMreg mFflags (flagsSet (h.mreg mFflags) fl)

def State.orFlags (s : State) (fl : Nat) : State := s.setMe (s.me.orFlags fl)

/-- The vector length of the executing hart (R92). -/
def Hart.vl (h : Hart) : Nat := (h.mreg mVl).toNat % 2 ^ 17

/-- The width of a code (R92). -/
def ewOf : Nat → Ew
  | 0 => .e4
  | 1 => .e8
  | 2 => .e16
  | 3 => .e32
  | _ => .e64

/-- avl.ew; the spec gives its codes 0b101 to 0b111, which only a write to eavl or a restored image can bring in, no
meaning (R92, R186). -/
def Hart.ew (h : Hart) : Ew :=
  let c := bits (h.mreg mAvl) 61 59
  ewOf (if c ≤ 4 then c else Config.reservedEw c % 5)

/-- The context slot of a task key, and the id. -/
def slotOf (task : Nat) : Nat := task / 65536
def idOf (task : Nat) : Nat := task % 65536

/-- The context slot of the hart's task. -/
def Hart.slot (h : Hart) : Option Nat := h.task.map slotOf

/-! Hub register words. -/

/-- The Reset column of a hub register (R22, R40, R49, R83, R87, R122, R198, R208, R329). -/
def hubReset (off : Nat) : Word :=
  if 0x3000 ≤ off ∧ off < 0x3020 then 0x10FA0
  else if 0x3200 ≤ off ∧ off < 0x3220 then 2
  else if 0x3300 ≤ off ∧ off < 0x3320 then 4
  else if off = 0x3408 then 0x400
  else if 0x4000 ≤ off ∧ off < 0x4800 ∧ off % 32 = 8 then 0x40
  else if 0x5000 ≤ off ∧ off < 0x5020 then 0x80000
  else if off = 0x5100 then 0x1F40003E8
  else if 0x7400 ≤ off ∧ off < 0x7800 ∧ off % 16 = 8 then 0x4000
  else 0

/-- A stored hub register word. -/
def State.hreg (s : State) (off : Nat) : Word := SMap.get (hubReset off) s.hub.reg off
def State.setHreg (s : State) (off : Nat) (v : Word) : State :=
  { s with hub := { s.hub with reg := SMap.set (hubReset off) s.hub.reg off v } }

/-- Offsets of hub registers. -/
def oFabid : Nat := 0x0000
def oFabst : Nat := 0x0008
def oLnkst (n : Nat) : Nat := 0x1000 + 8 * n
def oPst (n : Nat) : Nat := 0x2000 + 8 * n
def oCohctl (q : Nat) : Nat := 0x3000 + 8 * q
def oQuarst (p : Nat) : Nat := 0x3100 + 8 * p
def oTsctl (q : Nat) : Nat := 0x3200 + 8 * q
def oMcctl (q : Nat) : Nat := 0x3300 + 8 * q
def oElbase : Nat := 0x3400
def oElctl : Nat := 0x3408
def oSwint : Nat := 0x3480
def oLqbase (n : Nat) : Nat := 0x4000 + 32 * n
def oLqctl (n : Nat) : Nat := 0x4008 + 32 * n
def oLqdb (n : Nat) : Nat := 0x4010 + 32 * n
def oLqhead (n : Nat) : Nat := 0x4018 + 32 * n
def oCtxst (n : Nat) : Nat := 0x4800 + 8 * n
def oCtxbk (n : Nat) : Nat := 0x4A00 + 8 * n
def oCtxtrap (n : Nat) : Nat := 0x4C00 + 8 * n
def oPcap (q : Nat) : Nat := 0x5000 + 8 * q
def oRmctl : Nat := 0x5100
def oLtab (c : Nat) : Nat := 0x6000 + 8 * c
def oLrmap (c : Nat) : Nat := 0x6400 + 8 * c
def oDbgtask : Nat := 0x7000
def oDbgbp (k : Nat) : Nat := 0x7100 + 8 * k
def oDbgwa (k : Nat) : Nat := 0x7200 + 16 * k
def oDbgwc (k : Nat) : Nat := 0x7208 + 16 * k
def oSmpbase (n : Nat) : Nat := 0x7400 + 16 * n
def oSmpctl (n : Nat) : Nat := 0x7408 + 16 * n
def oTrctl (q : Nat) : Nat := 0x7800 + 8 * q
def oTrst (q : Nat) : Nat := 0x7820 + 8 * q
def oCbctl (n : Nat) : Nat := 0x7A00 + 8 * n
def oDbghart : Nat := 0x7C00
def oDbgsel : Nat := 0x7C08
def oDbgdat : Nat := 0x7C10
def oIdlelc (q : Nat) : Nat := 0x7F00 + 8 * q
def oCounter (n k : Nat) : Nat := 0x8000 + 256 * n + 8 * k
def oTspart (q p : Nat) : Nat := 0xC000 + 8 * (32 * q + p)
def oPregion (n : Nat) : Nat := 0x10000 + 8 * n
def oTraceSram : Nat := 0x800000

/-! Homes (R14, R131). -/

/-- The 52-bit map: first addresses of the rows of R14. -/
def paDie : Nat := 0x4000000000
def paHub : Nat := 0x10000000000
def paPeer : Nat := 0x4000000000000
def paPool : Nat := 0x8000000000000
def paHost : Nat := 0xC000000000000
/-- First keys of the homes that are not named by a physical address. -/
def keyPool : Nat := 2 ^ 56
def keySpad : Nat := 2 ^ 72
def keyTs : Nat := 2 ^ 73

/-- Where a location lives (R131). -/
inductive Home | hbm | peer (d : Nat) | host | pool | spad (core : Nat) | ts
deriving DecidableEq, Repr

/-- The home of a location key. -/
def homeOf (k : Nat) : Home :=
  if k ≥ keyTs then .ts
  else if k ≥ keySpad then .spad ((k - keySpad) / 2 ^ 20)
  else if k ≥ keyPool then .pool
  else if k ≥ paHost then .host
  else if k ≥ paPeer then .peer ((k - paPeer) / 2 ^ 42)
  else .hbm

/-- The key of a byte of core c's scratchpad, and of die q's Turnstile carve-out (R113, R365). -/
def spadKey (c o : Nat) : Nat := keySpad + c * 2 ^ 20 + o
def tsKey (q o : Nat) : Nat := keyTs + q * 2 ^ 28 + o

/-- The key of offset o of pool region n: the pooled device by its routing id, and its address (R46). -/
def poolKey (s : State) (n o : Nat) : Nat :=
  let r := s.hreg (oPregion n)
  keyPool * (1 + bits r 59 48) + bits r 47 24 * 2 ^ 30 + o

/-- The key of a byte of hart slot hid's register file, in the layout of R105; a byte of the hub block, the trace SRAM's
among them, has its physical address. -/
def keyReg : Nat := 2 ^ 74
def regKey (hid off : Nat) : Nat := keyReg + hid % 1024 * 2 ^ 19 + off

/-- The location is a word of the HBM, of this device or of a peer (R26). -/
def inHbm (k : Nat) : Bool := match homeOf k with | .hbm => decide (k < paHub) | .peer _ => true | _ => false

/-- The size of the ECC word that holds a location (R26, R27). -/
def eccSize (k : Nat) : Nat := if inHbm k then 64 else 8

/-- A byte of an image. -/
def State.img (s : State) (k : Nat) : Byte := SMap.get 0 s.mem k

/-- n bytes of an image as a number. -/
def State.imgRead (s : State) (k n : Nat) : Nat := ofBytes ((List.range n).map fun j => s.img (k + j))

/-- Write n bytes of an image. -/
def memWrite (m : List Host.Cell) (k : Nat) : Nat → Nat → List Host.Cell
  | 0, _ => m
  | n + 1, v => SMap.set (0 : Byte) (memWrite m k n v) (k + n) (byteOf v n)

/-- The ECC words after n bytes at k are written: a word wholly covered by one instruction is correct again
(R27). -/
def coverBad (bad : List BadWord) (k n ino : Nat) : List BadWord :=
  bad.filterMap fun b =>
    if k < b.loc + b.size && b.loc < k + n then
      let hit := (List.range b.size).foldl
        (fun a j => if k ≤ b.loc + j && b.loc + j < k + n then a ||| 2 ^ j else a)
        (if b.ino = ino then b.cover else 0)
      if hit = 2 ^ b.size - 1 then none else some { b with ino := ino, cover := hit }
    else some b

/-- A word's entry in the write log: stamp, writer, and the latest stamp of another writer (R270). -/
def stampWord (w : SMap (Nat × Nat × Nat)) (k stamp writer : Nat) : SMap (Nat × Nat × Nat) :=
  let (t, who, other) := SMap.get (0, 0, 0) w k
  SMap.set (0, 0, 0) w k (if who = writer then (stamp, writer, other) else (stamp, writer, t))

/-- Words of a frame, bit k for word k, that n bytes at a location touch (R31). -/
def wordMask (k n : Nat) : Nat := 2 ^ ((k % 256 + n - 1) / 8 + 1) - 2 ^ (k % 256 / 8)

/-- Words of a home slice's copy are dirty from now on (R40). -/
def markDirty (l : List DirtySpan) (q f words clk : Nat) : List DirtySpan :=
  match l.find? fun d => d.die == q && d.frame == f with
  | some d => l.map fun e => if e = d then { d with words := d.words ||| words, at_ := clk } else e
  | none => l ++ [⟨q, f, words, clk⟩]

/-- Words of a span are no longer dirty: an owner of none is clean. -/
def Line.clean (l : Line) (words : Nat) : Line :=
  let d := l.dirty - (l.dirty &&& words)
  { l with dirty := d, st := if l.st = .m ∧ d = 0 then .e else l.st }

/-- A frame's words have reached a home outside the device: no copy of this device has them dirty any longer. -/
def Coherence.cleaned (c : Coherence) (f words : Nat) : Coherence :=
  { c with
    lines := c.lines.map fun l => if l.frame = f then l.clean words else l
    dirty := (c.dirty.map fun d =>
      if d.frame = f then { d with words := d.words - (d.words &&& words) } else d).filter fun d => d.words != 0 }

/-- A frame's data stands in a slice of die q (R120). -/
def Coherence.hasWay (c : Coherence) (q f : Nat) : Bool := c.l2.any fun w => w.die == q && w.frame == f

/-- A write has reached a home: the home slice's copy, where it has one, is dirty, unless a holder still has the words
dirty (R32, R40, R128); a home outside the device holds the words itself. -/
def Coherence.wrote (c : Coherence) (k n clk : Nat) : Coherence :=
  let f := k / 256
  let words := wordMask k n
  match homeOf k with
  | .hbm =>
    if (c.lines.any fun l => l.frame == f && l.dirty &&& words != 0) || !c.hasWay (k / 2 ^ 38) f then c
    else { c with dirty := markDirty c.dirty (k / 2 ^ 38) f words clk }
  | .peer _ | .host => c.cleaned f words
  | _ => c

/-- Perform a write at its home: n bytes at k, by agent writer (a hart slot, or 1,024 for any other); ino 0 is a write
of no instruction, which covers an ECC word on its own or not at all (R27). -/
def State.writeHome (s : State) (k n v ino writer : Nat) : State :=
  { s with
    mem := memWrite s.mem k n v
    bad := if s.bad.isEmpty then s.bad else coverBad s.bad k n (if ino = 0 then s.drv.nextId else ino)
    wlog := stampWord s.wlog (k / 8) s.drv.nextId writer
    coh := s.coh.wrote k n s.clk
    drv := { s.drv with nextId := s.drv.nextId + 1 } }

/-- Whether some byte of a location lies in an uncorrectable ECC word. -/
def State.isBad (s : State) (k n : Nat) : Bool :=
  s.bad.any fun b => k < b.loc + b.size && b.loc < k + n

/-- The subcode of a DATAERR at n bytes (R183): that of the uncorrectable word they meet, a burst of HBM or a word of
an SRAM. -/
def State.eccSub (s : State) (k n : Nat) : Nat :=
  match s.bad.find? fun b => k < b.loc + b.size && b.loc < k + n with
  | some b => if b.size = 64 then 2 else 1
  | none => if inHbm k then 2 else 1

/-- The ECC words that lie in n bytes at k are written whole, and are correct from then on (R27). -/
def State.renew (s : State) (k n : Nat) : State :=
  if s.bad.isEmpty then s
  else { s with bad := s.bad.filter fun b => !(decide (k ≤ b.loc) && decide (b.loc + b.size ≤ k + n)) }

/-! Counters (R202, R203). -/

/-- Add to counter k of bank n while it runs. -/
def State.count (s : State) (n k amount : Nat) : State :=
  if bit (s.hreg (oCbctl n)) 0 then
    s.setHreg (oCounter n k) (s.hreg (oCounter n k) + BitVec.ofNat 64 amount)
  else s

/-- Count for the context of the executing hart. -/
def State.countMe (s : State) (k amount : Nat) : State :=
  match s.me.slot with
  | some n => s.count n k amount
  | none => s

/-! Tasks (R68). -/

def State.task (s : State) (key : Nat) : Task := SMap.get Task.reset s.ring.tasks key
def State.setTask (s : State) (key : Nat) (t : Task) : State :=
  { s with ring := { s.ring with tasks := SMap.set Task.reset s.ring.tasks key t } }

/-- The descriptor's fields (R66). -/
def Task.gsz (t : Task) : Nat := bits t.w2 3 0 + 1
def Task.lreq (t : Task) : Nat := bits t.w2 7 4
def Task.pack (t : Task) : Bool := bit t.w2 8
def Task.prio (t : Task) : Nat := bits t.w2 11 9
def Task.dmask (t : Task) : Nat := bits t.w2 15 12
def Task.cscope (t : Task) : Scope := match bits t.w2 33 32 with | 0 => .dev | 1 => .fabric | _ => .pool
def Task.keep (t : Task) : Bool := bit t.w2 34

/-- The slots in which the members of a task stand. -/
def Task.hids (t : Task) : List Nat :=
  t.members.filterMap fun | .placed h => some h | _ => none

/-! Trace records (R209 to R211). -/

/-- The clk and the type of a record (R210). -/
def recClk (r : BitVec 128) : Nat := r.toNat / 2 ^ 88
def recType (r : BitVec 128) : Nat := r.toNat / 2 ^ 80 % 2 ^ 8

/-- A record comes before one of the same clk and a higher type (R211). -/
def recBefore (r o : BitVec 128) : Bool := recClk r == recClk o && decide (recType r < recType o)

/-- Put a record at a position of die q's SRAM; records of its clk with a higher type move up behind it (R211).  At
most n of them stand before it. -/
def traceAt (m : SMap (BitVec 128)) (q : Nat) : Nat → Nat → BitVec 128 → SMap (BitVec 128)
  | 0, pos, r => SMap.set 0 m (2 ^ 17 * q + pos) r
  | n + 1, pos, r =>
    let prev := (pos + 131071) % 131072
    let o := SMap.get 0 m (2 ^ 17 * q + prev)
    if recBefore r o then traceAt (SMap.set 0 m (2 ^ 17 * q + pos) o) q n prev r
    else SMap.set 0 m (2 ^ 17 * q + pos) r

/-- The same among the records sent over the port. -/
def portAt (l : List (BitVec 128)) (r : BitVec 128) : List (BitVec 128) :=
  let tail := (l.reverse.takeWhile (recBefore r)).length
  l.take (l.length - tail) ++ [r] ++ l.drop (l.length - tail)

/-- Write a record of a type on die q: context slot, hart slot, task id, payload (R209, R210). -/
def State.traceAs (s : State) (q typ slot hid id payload : Nat) : State :=
  let c := s.hreg (oTrctl q)
  if bit c 63 && (bits c 53 44).testBit (typ - 1) && (!bit c 60 || bits c 59 54 == slot) then
    let r : BitVec 128 := BitVec.ofNat 128
      (s.clk % 2 ^ 40 * 2 ^ 88 + typ * 2 ^ 80 + slot % 64 * 2 ^ 74 + coreOf hid % 128 * 2 ^ 67 + hid % 8 * 2 ^ 64 +
        id * 2 ^ 48 + payload % 2 ^ 48)
    let st := s.hreg (oTrst q)
    let pos := bits st 16 0
    let s := if bit c 61 then { s with hub := { s.hub with port := portAt s.hub.port r } } else s
    if bit st 17 && !bit c 62 then
      s.setHreg (oTrst q) (setBits st 63 32 (bits st 63 32 + 1))
    else
      let st' := if pos = 131071 then setBits (setBits st 16 0 0) 17 17 1 else setBits st 16 0 (pos + 1)
      let n := if bit st 17 then 131071 else pos
      let s := { s with hub := { s.hub with trace := traceAt s.hub.trace q n pos r } }
      (s.renew (paHub + oTraceSram + 2 ^ 21 * q + 16 * pos) 16).setHreg (oTrst q) st'
  else s

/-- The same for a hart slot and a task, where they apply. -/
def State.traceRec (s : State) (q typ : Nat) (hid task : Option Nat) (payload : Nat) : State :=
  s.traceAs q typ ((task.map slotOf).getD 0) (hid.getD 0) ((task.map idOf).getD 0) payload

/-! Error reports (R198). -/

/-- Kinds of reports beyond the causes (R198). -/
def repHartstop : Nat := 0x80
def repSpare : Nat := 0x81
def repFence : Nat := 0x82
def repRegion : Nat := 0x83
def repEngdrop : Nat := 0x84

/-- Append an error record and make INTERRUPT, subcode error report, pending; a full ring drops the record, and
then no interrupt is raised (R198). -/
def State.report (s : State) (kind sub extra pa va : Nat) (hid task : Option Nat) : State :=
  let c := s.hreg oElctl
  if bit c 12 then
    let lg := max 4 (bits c 11 8)
    let head := bits c 63 48
    if (head + 1) % 2 ^ lg = bits c 47 32 then s.setHreg oElctl (setBits c 13 13 1)
    else
      let base := bits (s.hreg oElbase) 51 12 * 4096 + 32 * head
      let h := hid.getD 0
      let w3 := (match task with | some t => idOf t + slotOf t * 2 ^ 16 | none => 0) +
        coreOf h % 128 * 2 ^ 22 + h % 8 * 2 ^ 29 + s.clk / Config.clkPerUs % 2 ^ 32 * 2 ^ 32
      let s := s.writeHome base 8 (kind + sub % 2 ^ 16 * 2 ^ 8 + extra * 2 ^ 24) 0 1024
      let s := s.writeHome (base + 8) 8 pa 0 1024
      let s := s.writeHome (base + 16) 8 va 0 1024
      let s := s.writeHome (base + 24) 8 w3 0 1024
      let s := s.setHreg oElctl (setBits c 63 48 ((head + 1) % 2 ^ lg))
      { s with hub := { s.hub with irqErr := true } }
  else s

/-- A report about the executing hart. -/
def State.reportMe (s : State) (kind sub pa va : Nat) : State :=
  s.report kind sub 0 pa va (some s.cur) s.me.task

/-- A fresh number for an instruction or a write. -/
def State.bump (s : State) : State := { s with drv := { s.drv with nextId := s.drv.nextId + 1 } }

end Sys2Proof.Machine
end

