-- ==== Sys2Proof/Machine/Translate.lean ====
section
/-!
DEFINITION. Causes and traps as data; the physical map, page walks, translation caches, and the fate of a
frame (R14, R15, R59 to R64, R113, R183).
-/
namespace Sys2Proof.Machine

/-- The causes (R183). -/
inductive Cause
  | illegal | badtag | misalign | pagefault | dataerr | pooldetach | fenced | tstale | tdeadlock | olfull
  | mowner | priv | brk | syscall | preempt | interrupt | ganglost | sparsemeta | poollost
deriving DecidableEq, Repr

/-- The code of a cause (R183). -/
def Cause.code : Cause → Nat
  | .illegal => 0x01
  | .badtag => 0x02
  | .misalign => 0x03
  | .pagefault => 0x04
  | .dataerr => 0x06
  | .pooldetach => 0x07
  | .fenced => 0x08
  | .tstale => 0x09
  | .tdeadlock => 0x0A
  | .olfull => 0x0B
  | .mowner => 0x0C
  | .priv => 0x0D
  | .brk => 0x0E
  | .syscall => 0x0F
  | .preempt => 0x10
  | .interrupt => 0x11
  | .ganglost => 0x12
  | .sparsemeta => 0x13
  | .poollost => 0x14

/-- The cause of a code (R183). -/
def Cause.ofCode (n : Nat) : Cause :=
  ([.illegal, .badtag, .misalign, .pagefault, .dataerr, .pooldetach, .fenced, .tstale, .tdeadlock, .olfull, .mowner,
    .priv, .brk, .syscall, .preempt, .interrupt, .ganglost, .sparsemeta, .poollost].find? fun c => c.code == n).getD
    .illegal

/-- A trap: its cause, subcode and etval, the restart point it leaves, and whether it is deferred (R182). -/
structure Trap where
  cause : Cause
  sub : Nat
  tval : Nat
  sfx : Nat
  slip : Nat
  cidx : Option Nat
  /-- The restart point stays the one that the hart resumed from. -/
  old : Bool
  dfr : Bool
  eq : Nat
  /-- The physical address of a DATAERR, for its report. -/
  pa : Nat
deriving DecidableEq, Repr

/-- The cause word of a trap (R182). -/
def Trap.word (t : Trap) : Word :=
  BitVec.ofNat 64 (t.cause.code + (if t.dfr then 256 else 0) + t.sub % 2 ^ 16 * 2 ^ 16 + t.eq % 256 * 2 ^ 32)

/-- A trap of an instruction that stops before it has any effect. -/
def Trap.at0 (cause : Cause) (sub tval : Nat) : Trap :=
  { cause, sub, tval, sfx := 0, slip := 0, cidx := none, old := false, dfr := false, eq := 0, pa := 0 }

/-- Why an instruction does not complete now: it traps, leaving a state with what it has done, or it waits
and is taken up again. -/
inductive Stop
  | trap (t : Trap) (s : State)
  | wait (s : State)
deriving Repr

/-- A result of a part of an instruction. -/
abbrev Res := Except Stop State

/-- The kinds of access (R183). -/
inductive Acc | fetch | load | store | fill | engine
deriving DecidableEq, Repr

/-- The PAGEFAULT subcode of an access (R183). -/
def Acc.sub : Acc → Nat
  | .fetch => 1
  | .load => 2
  | .store => 3
  | .fill => 4
  | .engine => 5

/-- How a frame is reached (R60, R113). -/
inductive Attr | wb | pool | uc | dev | spad
deriving DecidableEq, Repr

/-- A translated byte: its location key, its physical address and its attribute. -/
structure Phys where
  key : Nat
  pa : Nat
  attr : Attr
deriving DecidableEq, Repr

/-- Who translates: the core it stands on, its level, address space and context slot; engines may access on
behalf of a hart that has left. -/
structure Who where
  core : Nat
  level : Level
  asid : Nat
  ptbase : Nat
  slot : Option Nat
deriving DecidableEq, Repr

/-- The executing hart as a translator (R252). -/
def whoOf (s : State) (hid : Nat) : Who :=
  let h := s.hart hid
  { core := coreOf hid, level := h.level, asid := bits (h.mreg mAsid) 11 0,
    ptbase := bits (h.mreg mPtbase) 51 12 * 4096, slot := h.slot }

/-- The outcome of a translation. -/
inductive Xres
  | ok (s : State) (p : Phys)
  | fault (s : State) (t : Trap)
  /-- The entry is migrating (R64). -/
  | mig (s : State)

/-! The map (R14). -/

/-- The active HBM channels of die q (R12, R23). -/
def State.activeChannels (s : State) (q : Nat) : List Nat :=
  (List.range 96).filter fun c => !(SMap.get [] s.pkg.lostChannels q).contains c

/-- The populated size of die q's window; the carve-out counts for a hart at M only (R14, R15). -/
def populated (s : State) (q : Nat) (atM : Bool) : Nat :=
  let installed := (s.activeChannels q).length * 2500000000
  if q = 0 ∧ !atM then installed - 2 ^ 30 else installed

/-- The first address of the monitor carve-out (R14). -/
def carveOut (s : State) : Nat := populated s 0 false

/-- n bytes at pa lie in one populated die window (R14). -/
def inDie (s : State) (atM : Bool) (pa n : Nat) : Bool :=
  pa < 4 * paDie && decide (pa % paDie + n ≤ populated s (pa / paDie) atM)

/-- Region n of the pool table: 0 FREE, 1 ATTACHED, 2 DETACHED, 3 LOST (R46). -/
def regionState (s : State) (n : Nat) : Nat := bits (s.hreg (oPregion n)) 63 62

/-- The pool region of a physical address. -/
def regionOf (pa : Nat) : Option Nat :=
  if paPool ≤ pa ∧ pa < paPool + 1024 * 2 ^ 30 then some ((pa - paPool) / 2 ^ 30) else none

/-- A frame's range in R14 and R15 allows an access with this attribute (R15, R60).  The test is of the address accessed, so
that the part of a large leaf inside a window stays usable (DESIGN CHOICE, log entry 107). -/
def frameOk (s : State) (atM : Bool) (pa : Nat) (a : Attr) : Bool :=
  let cached := a == .wb || a == .uc
  if pa < 4 * paDie then cached && inDie s atM pa 1
  else if pa < paHub then false
  else if pa < paHub + 2 ^ 32 then a == .dev
  else if pa < paPeer then false
  else if pa < paPeer + 256 * 2 ^ 42 then
    let d := (pa - paPeer) / 2 ^ 42
    let f := s.hreg oFabid
    cached && (pa - paPeer) % 2 ^ 42 < 0x10000000000 && !(bit f 8 && bits f 7 0 == d)
  else if pa < paPool then false
  else match regionOf pa with
    | some n => a == .pool && regionState s n != 0
    | none => pa ≥ paHost && cached

/-- The location key of a physical address (R131). -/
def keyOf (s : State) (pa : Nat) : Nat :=
  match regionOf pa with
  | some n => poolKey s n (pa % 2 ^ 30)
  | none => pa

/-! Page-table entries (R60). -/

def pteAttr (e : Word) : Attr := match bits e 63 62 with | 0 => .wb | 1 => .pool | 2 => .uc | _ => .dev
def pteFrame (e : Word) : Nat := bits e 51 12 * 4096
def pteLeaf (e : Word) : Bool := bit e 1 || bit e 2 || bit e 3
def pteRsvd (e : Word) : Bool := bits e 60 52 != 0 || bits e 6 4 != 0

/-- A leaf that a walk found: where it stands, its bits, and the page. -/
structure Leaf where
  addr : Nat
  pte : Word
  base : Nat
  size : Nat
  frame : Nat
deriving DecidableEq, Repr

/-- The outcome of a walk. -/
inductive Walk
  | leaf (l : Leaf) (ptrs : List PtcE)
  | invalid
  | mig
  | err (addr n : Nat)

/-- The levels of a walk: the lowest address bit that indexes each, and its index bits (R59). -/
def walkLevels : List (Nat × Nat) := [(44, 11), (35, 9), (29, 6), (21, 8), (12, 9)]

/-- The fields in which the 16 entries of a 64 KiB group must agree: attr, c64, g, s, x, w and l (R60). -/
def groupMask : Word := 0xC000000000000C8E

/-- The first of the 16 entries of the 64 KiB group that holds the entry at an address (R60). -/
def groupFirst (addr va : Nat) : Nat := addr - 8 * (va / 4096 % 16)

/-- The 16 entries of a 64 KiB group agree (R60). -/
def groupOk (s : State) (addr : Nat) (e : Word) (va : Nat) : Bool :=
  let pos := va / 4096 % 16
  bits e 51 12 % 16 == pos &&
  (List.range 16).all fun k =>
    let x := BitVec.ofNat 64 (s.imgRead (groupFirst addr va + 8 * k) 8)
    (x &&& groupMask) == (e &&& groupMask) && bits x 51 12 == bits e 51 12 - pos + k

/-- Walk the levels from a table (R59 to R61); pointer entries may come from the die's walk cache. -/
def walk (s : State) (w : Who) (va : Nat) : List (Nat × Nat) → Nat → List PtcE → Walk
  | [], _, _ => .invalid
  | (sh, n) :: rest, table, ptrs =>
    let addr := table + 8 * (va / 2 ^ sh % 2 ^ n)
    let cached := s.xlat.ptc.find? fun p =>
      p.die == w.core / 32 && p.asid == w.asid && p.level == sh && p.at_ == addr
    if cached.isNone && s.isBad addr 8 then .err addr 8
    else
      let e := match cached with | some p => p.pte | none => BitVec.ofNat 64 (s.imgRead addr 8)
      if !bit e 0 then (if bit e 61 then .mig else .invalid)
      else if pteRsvd e then .invalid
      else if pteLeaf e then
        let c64 := bit e 11
        let frame := pteFrame e
        if sh = 44 || (bit e 2 && !bit e 1) then .invalid
        else if sh = 12 then
          if c64 then
            if s.isBad (groupFirst addr va) 128 then .err (groupFirst addr va) 128
            else if groupOk s addr e va then
              .leaf ⟨addr, e, va / 65536 * 65536, 65536, frame / 65536 * 65536⟩ ptrs
            else .invalid
          else .leaf ⟨addr, e, va / 4096 * 4096, 4096, frame⟩ ptrs
        else if c64 || frame % 2 ^ sh != 0 then .invalid
        else .leaf ⟨addr, e, va / 2 ^ sh * 2 ^ sh, 2 ^ sh, frame⟩ ptrs
      else
        match rest with
        | [] => .invalid
        | (_, n') :: _ =>
          if bit e 11 || !inDie s (w.level == .m) (pteFrame e) (8 * 2 ^ n') then .invalid
          else
            walk s w va rest (pteFrame e)
              (⟨w.core / 32, w.asid, sh, addr, va / 2 ^ sh * 2 ^ sh, 2 ^ sh, e⟩ :: ptrs)

/-- The leaf for an address that a holder's TLB has (R62). -/
def tlbHit (s : State) (w : Who) (va holder : Nat) : Option TlbE :=
  s.xlat.tlb.find? fun t =>
    t.holder == holder && (t.global || t.asid == w.asid) && t.base ≤ va && va < t.base + t.size

/-- The cached leaf for an address (R62): the core's, then its die's. -/
def tlbFind (s : State) (w : Who) (va : Nat) : Option TlbE :=
  match tlbHit s w va w.core with
  | some t => some t
  | none => tlbHit s w va (128 + w.core / 32)

/-- Keep at most n entries of one holder, dropping the oldest. -/
def tlbPut (l : List TlbE) (t : TlbE) (n : Nat) : List TlbE :=
  let l := l.filter fun u => !(u.holder == t.holder && u.asid == t.asid && u.base == t.base && u.size == t.size)
  let mine := (l.filter fun u => u.holder == t.holder).length
  let l := if mine ≥ n then
      match l.find? fun u => u.holder == t.holder with
      | some old => l.erase old
      | none => l
    else l
  l ++ [t]

/-- Cache a leaf in the core's and the die's TLB, and the pointers of its walk. -/
def cacheWalk (s : State) (w : Who) (l : Leaf) (e : Word) (ptrs : List PtcE) : State :=
  let t : TlbE := { holder := w.core, asid := w.asid, global := bit e 10, base := l.base, size := l.size,
                    frame := l.frame, pte := e }
  let tlb := tlbPut (tlbPut s.xlat.tlb t 512) { t with holder := 128 + w.core / 32 } 32768
  let ptc := ptrs.foldl (fun acc p => if acc.contains p then acc else acc ++ [p]) s.xlat.ptc
  { s with xlat := { s.xlat with tlb, ptc } }

/-- A leaf allows the access (R61); register fills and spills take U permissions on s = 0 pages and S
permissions otherwise (R106). -/
def pteAllows (e : Word) (w : Who) (k : Acc) (store : Bool) : Bool :=
  let kind := match k with | .fetch => bit e 3 | _ => if store then bit e 2 else bit e 1
  kind && (!bit e 7 || w.level != .u || k == .fill)

/-- A page fault (R61). -/
def pageFault (k : Acc) (va : Nat) : Trap := Trap.at0 .pagefault k.sub va

/-- The scratchpad window (R113). -/
def winBase : Nat := 0x7FFFFFFFF00000
def winSize : Nat := 0xBF000

/-- Count a page walk, or a miss in the core's TLB, for the context (R203). -/
def countWalk (s : State) (w : Who) : State :=
  match w.slot with
  | some n => s.count n 22 1
  | none => s
def countMiss (s : State) (w : Who) : State :=
  match w.slot with
  | some n => s.count n 23 1
  | none => s

/-- The walker's update of a and d (R61). -/
def withAD (e : Word) (store : Bool) : Word := e ||| (if store then 0x300 else 0x100)

/-- Translate an address of memory, not of the scratchpad window (R59 to R62).  The walk sets a and d in the leaf alone, not
in the pointer entries it passes (DESIGN CHOICE, log entry 107). -/
def translateMem (s : State) (w : Who) (va : Nat) (k : Acc) (store : Bool) : Xres :=
  let finishLeaf (s : State) (frame base : Nat) (e : Word) : Xres :=
    let pa := frame + (va - base)
    if frameOk s (w.level == .m) pa (pteAttr e) then .ok s ⟨keyOf s pa, pa, pteAttr e⟩
    else .fault s (pageFault k va)
  let s := if (tlbHit s w va w.core).isSome then s else countMiss s w
  let miss : Xres :=
    let s := countWalk s w
    match walk s w va walkLevels w.ptbase [] with
    | .invalid => .fault s (pageFault k va)
    | .mig => if k == .engine then .mig s else .fault s (pageFault k va)
    | .err a n => .fault s (Trap.at0 .dataerr (s.eccSub a n) va)
    | .leaf l ptrs =>
      if !pteAllows l.pte w k store || !frameOk s (w.level == .m) (l.frame + (va - l.base)) (pteAttr l.pte) then
        .fault s (pageFault k va)
      else
        let e := withAD l.pte store
        let s := if e = l.pte then s else s.writeHome l.addr 8 e.toNat 0 1024
        finishLeaf (cacheWalk s w l e ptrs) l.frame l.base e
  match tlbFind s w va with
  | none => miss
  | some t =>
    if store && !bit t.pte 9 && bit t.pte 2 then miss
    else if pteAllows t.pte w k store then
      let s := if t.holder = w.core then s
        else { s with xlat := { s.xlat with tlb := tlbPut s.xlat.tlb { t with holder := w.core } 512 } }
      finishLeaf s t.frame t.base t.pte
    else .fault s (pageFault k va)

/-- translate(va, kind) (R253): the scratchpad window is never translated (R113). -/
def translate (s : State) (w : Who) (va : Nat) (k : Acc) (store : Bool) : Xres :=
  if va ≥ winBase ∧ k ≠ .engine then
    let o := va - winBase
    if k = .fetch ∨ o ≥ winSize then .fault s (pageFault k va)
    else .ok s ⟨spadKey w.core o, 0, .spad⟩
  else translateMem s w va k store

/-! The fate of a frame (R15, R19, R43, R47, R116, R127, R400). -/

inductive Fate
  | ok
  | stall
  | fault (c : Cause) (sub : Nat)
deriving DecidableEq, Repr

/-- The HBM channel of a die-local address: interleaved at 1 KiB over the active channels (R12). -/
def State.channelAt (s : State) (q a : Nat) : Nat :=
  let l := s.activeChannels q
  l.getD (Config.channelOf q l.length (a / 1024) % l.length) 0

/-- The die whose slice is the home, or the proxy home, of a frame (R33, R41, R45); for host memory, which the spec
gives no home die, die 0 (DESIGN CHOICE, log entry 95). -/
def homeDie (f : Nat) : Nat :=
  let a := 256 * f
  if a < 4 * paDie then a / paDie
  else if paPeer ≤ a ∧ a < paPool then (a - paPeer) / 2 ^ 42 % 4
  else match regionOf a with
    | some n => n % 4
    | none => 0

/-- A group of ways wakes in the slices that serve a frame to die q: its own and the home's (R127). -/
def State.waysWake (s : State) (q f : Nat) : Bool :=
  s.hub.l2waking.any fun g => g / 4 == q || g / 4 == homeDie f

/-- What happens to an access of die q whose translation succeeded; a plain write may wait in the device queue where a
read stalls (R400). -/
def fate (s : State) (q : Nat) (p : Phys) (plainWrite : Bool) : Fate :=
  if p.attr != .spad && p.attr != .dev && s.waysWake q (p.pa / 256) then .stall
  else
  match p.attr with
  | .spad =>
    let c := s.core ((p.key - keySpad) / 2 ^ 20)
    if c.filling || !c.waking.isEmpty || !c.gated.isEmpty then .stall else .ok
  | .dev => .ok
  | _ =>
    match regionOf p.pa with
    | some n =>
      let r := s.hreg (oPregion n)
      match regionState s n with
      | 0 => .fault .pagefault 0
      | 1 => if (s.pool.reroute.any fun e => e.1 == bits r 61 60) && !plainWrite then .stall else .ok
      | 2 => if s.pool.writeback.contains n then .stall else .fault .pooldetach 0
      | _ => .fault .poollost 0
    | none =>
      if paPeer ≤ p.pa ∧ p.pa < paPool then
        let d := (p.pa - paPeer) / 2 ^ 42
        if bit (s.hreg oFabst) 0 || s.coh.fenced.contains d || !s.coh.present.contains d then .fault .fenced 0
        else .ok
      else if p.pa < 4 * paDie then
        let d := p.pa / paDie
        if s.pkg.hbmStall.any fun e => e.1 == d && s.channelAt d (p.pa % paDie) == e.2 then .stall else .ok
      else .ok

end Sys2Proof.Machine
end

