-- ==== Sys2Proof/Machine/Caches.lean ====
section
/-!
DEFINITION. The caches: L1 spans, guest slices, L2 ways, and what one access does to them and to the directories (R31 to
R42, R111, R112, R120, R124, R125, R128).  Values stand in the images of the ordering machine; these tables hold who
has which words.  An access takes its whole transaction in one step where no request for its frame is under way.
-/
namespace Sys2Proof.Machine

/-! Where a frame is looked after. -/

/-- Frames of peer windows (R14). -/
def peerFrame (f : Nat) : Bool := paPeer ≤ 256 * f && 256 * f < paPool

/-- The directory of this device's accesses toward the fabric, which the exporting device's filter keeps (R41). -/
def fabricHome : Nat := 4

/-- This device's id (R19, R22). -/
def State.deviceId (s : State) : Nat := bits (s.hreg oFabid) 7 0

/-- The die whose entry tracks a holder of a frame (R33, R39, R41). -/
def State.entryOf (s : State) (h : Holder) (f : Nat) : Nat :=
  match h with
  | .cc n => n / 64
  | .die _ => homeDie f
  | .dev d => if peerFrame f && d == s.deviceId then fabricHome else homeDie f

/-- The control core of a hart, as a holder (R33). -/
def holderOf (hid : Nat) : Holder := .cc (hid % 1024 / 4)

/-- The pool region of a location, with its register word; a FREE entry maps none (R15). -/
def State.regionOfKey (s : State) (k : Nat) : Option (Nat × Word) :=
  s.hub.reg.findSome? fun (off, w) =>
    if 0x10000 ≤ off && off < 0x12000 then
      let n := (off - 0x10000) / 8
      let b := poolKey s n 0
      if bits w 63 62 != 0 && b ≤ k && k < b + 2 ^ 30 then some (n, w) else none
    else none

/-- The frame of a location; none for a scratchpad or a Turnstile slot. -/
def State.frameOf (s : State) (k : Nat) : Option Nat :=
  match homeOf k with
  | .spad _ | .ts => none
  | .pool => (s.regionOfKey k).map fun r => (paPool + r.1 * 2 ^ 30 + (k - poolKey s r.1 0)) / 256
  | _ => some (k / 256)

/-- A peer's traffic is cut: the device or the peer is fenced, or the peer has left (R19, R43). -/
def State.peerCut (s : State) (d : Nat) : Bool :=
  bit (s.hreg oFabst) 0 || s.coh.fenced.contains d || !s.coh.present.contains d

/-- A location whose accesses may be cached now: its peer is not cut, its region is ATTACHED (R43, R47). -/
def State.cacheable (s : State) (k : Nat) : Bool :=
  match homeOf k with
  | .peer d => !s.peerCut d
  | .pool => match s.regionOfKey k with | some r => regionState s r.1 == 1 | none => false
  | .hbm | .host => true
  | _ => false

/-- The first and last word of a frame that n bytes at a location touch (R31). -/
def firstWord (k : Nat) : Nat := k % 256 / 8
def lastWord (k n : Nat) : Nat := (k % 256 + n - 1) / 8

/-! Slices and their ways (R120, R122, R125, R128). -/

/-- The active slices of a die (R23), and those of a column. -/
def State.lostSlices (s : State) (q : Nat) : List Nat := SMap.get [] s.pkg.lostSlices q
def State.slices (s : State) (q : Nat) : Nat := 256 - (s.lostSlices q).length
def State.columnSlices (s : State) (q col : Nat) : List Nat :=
  ((List.range 32).map fun i => 8 * i + col).filter fun i => !(s.lostSlices q).contains i

/-- The slice of die q that a frame homes in, or is held in as a guest: in column a[10:8], by the hash of a[51:11]. -/
def State.sliceOf (s : State) (q f : Nat) : Nat :=
  let l := s.columnSlices q (f % 8)
  l.getD (Config.sliceHash l.length (f / 8) % l.length) (f % 8)

/-- The pinned ways of a die (R122). -/
def pinnedWays (w : Word) : Nat := match bits w 2 0 with | 0 => 0 | 1 => 1 | 2 => 2 | _ => 4

/-- The ways of a die's slices that may hold data: neither pinned nor in a group that is gated or waking. -/
def State.dataWays (s : State) (q : Nat) : List Nat :=
  (List.range (16 - pinnedWays (s.hreg (oTsctl q)))).filter fun w =>
    !(s.hub.l2gated.contains (4 * q + w / 4)) && !(s.hub.l2waking.contains (4 * q + w / 4))

/-! Directory entries. -/

/-- A directory entry: records, VECTOR mode, the fab bit (R33). -/
def State.dirEntry (s : State) (home f : Nat) : List Rec × Bool × Bool :=
  SMap.get ([], false, false) s.coh.dir (2 ^ 56 * home + f)
def State.setDir (s : State) (home f : Nat) (e : List Rec × Bool × Bool) : State :=
  { s with coh := { s.coh with dir := SMap.set ([], false, false) s.coh.dir (2 ^ 56 * home + f) e } }

/-- A filter entry (R42). -/
def State.filterEntry (s : State) (f : Nat) : List Rec × Bool × Bool :=
  SMap.get ([], false, false) s.coh.filter f
def State.setFilter (s : State) (f : Nat) (e : List Rec × Bool × Bool) : State :=
  { s with coh := { s.coh with filter := SMap.set ([], false, false) s.coh.filter f e } }

def isRemote (h : Holder) : Bool := match h with | .dev _ => true | _ => false

def Rec.meets (r : Rec) (first last : Nat) : Bool := r.first ≤ last && first ≤ r.last

/-- A record goes; EMPTY once the last one is gone. -/
def dropRec (e : List Rec × Bool × Bool) (h : Holder) : List Rec × Bool × Bool :=
  let recs := e.1.filter fun r => r.h != h
  (recs, e.2.1 && !recs.isEmpty, e.2.2)
/-- A record is no longer an owner's. -/
def shareRec (e : List Rec × Bool × Bool) (h : Holder) : List Rec × Bool × Bool :=
  (e.1.map fun r => if r.h = h then { r with own := false } else r, e.2)

/-- A fifth distinct holder requests (R33). -/
def isFifth (e : List Rec × Bool × Bool) (h : Holder) : Bool :=
  !e.2.1 && e.1.length ≥ 4 && !(e.1.any fun r => r.h == h)

/-- VECTOR: every holder with a record is marked, its span the whole frame, shared (R33, R34). -/
def toVector (e : List Rec × Bool × Bool) : List Rec × Bool × Bool :=
  (e.1.map fun r => { r with first := 0, last := 31, own := false }, true, e.2.2)

/-- The other holders that a request selects (R34, R36): for GETS the owners that overlap, for GETO and UPG every
record that overlaps, and in VECTOR every marked holder. -/
def selected (e : List Rec × Bool × Bool) (k : ReqKind) (h : Option Holder) (first last : Nat) : List Holder :=
  (e.1.filter fun r => some r.h != h && (match k with
    | .gets => r.own && r.meets first last
    | _ => e.2.1 || r.meets first last)).map (·.h)

/-- The requester's record is added or widened (R32, R34, R36 step 4). -/
def addRec (e : List Rec × Bool × Bool) (h : Holder) (first last : Nat) (own : Bool) : List Rec × Bool × Bool :=
  let (recs, vector, fab) := e
  if vector && own then ([{ h, first, last, own }], false, fab)
  else
    let recs := match recs.find? fun r => r.h == h with
      | some _ => recs.map fun r =>
          if r.h = h then { r with first := min r.first first, last := max r.last last, own } else r
      | none => recs ++ [{ h, first, last, own }]
    if vector then toVector (recs, vector, fab) else (recs, false, fab)

/-! Lines. -/

/-- The line of a holder. -/
def State.lineOf (s : State) (h : Holder) (f : Nat) : Option Line :=
  s.coh.lines.find? fun l => l.h == h && l.frame == f
def State.dropLine (s : State) (h : Holder) (f : Nat) : State :=
  { s with coh := { s.coh with lines := s.coh.lines.filter fun l => !(l.h == h && l.frame == f) } }
/-- The line becomes its holder's most recently used. -/
def State.setLine (s : State) (l : Line) : State :=
  let s := s.dropLine l.h l.frame
  { s with coh := { s.coh with lines := s.coh.lines ++ [l] } }

/-- A line covers words with the rights that an access needs, and its holder has not failed to answer (R32, R37). -/
def State.holds (s : State) (h : Holder) (f first last : Nat) (own : Bool) : Bool :=
  !s.coh.silent.contains (h, f) &&
  match s.lineOf h f with
  | some l => l.first ≤ first && last ≤ l.last && (!own || l.st != .s)
  | none => false

/-- The evicted line whose PUTD is on its way (R48). -/
def State.evicted (s : State) (h : Holder) (f : Nat) : Option Line :=
  s.coh.wb.find? fun l => l.h == h && l.frame == f

/-- Dirty words reach the home slice: its copy, or memory where it has none (R36 step 3, R128). -/
def State.mergeHome (s : State) (f words : Nat) : State :=
  let q := homeDie f
  if s.coh.hasWay q f then { s with coh := { s.coh with dirty := markDirty s.coh.dirty q f words s.clk } } else s

/-- Dirty words reach the slice of die q: its home copy, or its guest copy; a guest without one sends them home (R36
step 3, R39, R125). -/
def State.mergeAt (s : State) (q f words : Nat) : State :=
  if words = 0 then s
  else if q = homeDie f then s.mergeHome f words
  else match s.lineOf (.die q) f with
    | some l => s.setLine { l with dirty := l.dirty ||| words, st := .m, at_ := s.clk }
    | none => s.mergeHome f words

/-- Frames of a choice, by hart and frame, that were fetched for a strip are invalidated (R124). -/
def State.cutStrips (s : State) (of : Nat → Nat → Bool) : State :=
  s.harts.foldl (fun s e =>
    let h := s.hart e.1
    if h.strip.any (of e.1) then s.setHart e.1 { h with strip := h.strip.filter fun f => !of e.1 f } else s) s

/-- A frame fetched for a strip is invalidated with its holder (R124). -/
def State.dropStrips (s : State) (h : Holder) (f : Nat) : State :=
  let hit (hid : Nat) : Bool := match h with
    | .cc _ => holderOf hid == h
    | .die q => dieOf hid == q
    | .dev _ => false
  s.cutStrips fun hid g => hit hid && g == f

/-- A holder's answer to a probe: from its cache, or from its write-back buffer (R35, R48). -/
def State.answer (s : State) (h : Holder) (f : Nat) : Answer :=
  match s.lineOf h f with
  | some l => if l.dirty = 0 then .ack else .data l.dirty
  | none => match s.evicted h f with
    | some l => if l.dirty = 0 then .absent else .data l.dirty
    | none => .absent

/-- The holder's own part of a probe (R35, R48): it invalidates its span, or keeps it shared and clean; a write-back
on its way gives up its words. -/
def State.giveUp (s : State) (h : Holder) (f : Nat) (inv : Bool) : State :=
  let taken (l : Line) : Line := if l.h = h ∧ l.frame = f then { l with dirty := 0 } else l
  let s := { s with coh := { s.coh with wb := s.coh.wb.map taken } }
  if inv then (s.dropLine h f).dropStrips h f
  else match s.lineOf h f with
    | some l => s.setLine { l with st := .s, dirty := 0 }
    | none => s

/-- The words of an answer. -/
def Answer.words (a : Answer) : Nat := match a with | .data d => d | _ => 0

/-- The record after an answer: gone where it was invalidated or absent, shared otherwise (R36 step 3). -/
def Answer.update (a : Answer) (inv : Bool) (e : List Rec × Bool × Bool) (h : Holder) : List Rec × Bool × Bool :=
  if inv || a == .absent then dropRec e h else shareRec e h

/-- One probe of a holder of die q's entry, its answer merged and its record updated. -/
def State.probeCc (s : State) (q f : Nat) (inv : Bool) (h : Holder) : State :=
  let a := s.answer h f
  let s := (s.giveUp h f inv).mergeAt q f a.words
  s.setDir q f (a.update inv (s.dirEntry q f) h)

/-- A guest die applies a probe to its own L1s first (R39). -/
def State.probeGuest (s : State) (g f : Nat) (inv : Bool) : State :=
  ((s.dirEntry g f).1.filter fun r => inv || r.own).foldl (fun s r => s.probeCc g f inv r.h) s

/-- The L2 ways that hold a frame on a die are given back. -/
def State.dropWays (s : State) (q f : Nat) : State :=
  { s with coh := { s.coh with l2 := s.coh.l2.filter fun w => !(w.die == q && w.frame == f) } }

/-- A probe reaches a holder: a guest die asks its own L1s first, and loses its copy with an invalidation. -/
def State.reachHolder (s : State) (h : Holder) (f : Nat) (inv : Bool) : State :=
  match h with
  | .die g => let s := s.probeGuest g f inv; if inv then s.dropWays g f else s
  | _ => s

/-- Probe a holder of the home entry or of a filter entry, at once. -/
def State.probe1 (s : State) (q f : Nat) (inv : Bool) (h : Holder) : State :=
  let s := s.reachHolder h f inv
  if isRemote h then
    let a := s.answer h f
    let s := (s.giveUp h f inv).mergeAt q f a.words
    s.setFilter f (a.update inv (s.filterEntry f) h)
  else s.probeCc q f inv h

/-- A fifth holder's request brings VECTOR first: the owners are downgraded, and every record covers the frame (R34). -/
def State.makeRoom (s : State) (q f : Nat) (h : Option Holder) : State :=
  match h with
  | some h =>
    if isFifth (s.dirEntry q f) h then
      let s := (((s.dirEntry q f).1.filter (·.own)).map (·.h)).foldl (fun s o => s.probe1 q f false o) s
      s.setDir q f (toVector (s.dirEntry q f))
    else s
  | none => s

/-- Steps 1 to 3 of R36 at die q's entry for a request of holder h (none: the slice, for a vector access, R38); a
fifth holder brings VECTOR first (R34), and while fab is set the filter's holders are probed too (R42). -/
def State.serve (s : State) (q f : Nat) (k : ReqKind) (h : Option Holder) (first last : Nat) : State :=
  let s := s.makeRoom q f h
  let inv := k != .gets
  let e := s.dirEntry q f
  let s := (selected e k h first last).foldl (fun s o => s.probe1 q f inv o) s
  if e.2.2 then (selected (s.filterEntry f) k none first last).foldl (fun s o => s.probe1 q f inv o) s else s

/-- The slice of die q may give words away as owned: a guest, or a proxy home of a peer's memory, only what it owns
itself (R39, R41; DEDUCED, log entry 29). -/
def State.sliceOwns (s : State) (q f first last : Nat) : Bool :=
  if q = homeDie f then !peerFrame f || s.holds (.dev s.deviceId) f first last true
  else s.holds (.die q) f first last true

/-- GETS obtains E where no other record overlaps and the entry is not VECTOR, S otherwise; GETO and UPG obtain E
(R35). -/
def State.obtains (s : State) (q f : Nat) (k : ReqKind) (h : Holder) (first last : Nat) : Bool :=
  let e := s.dirEntry q f
  let others := (e.1 ++ (if e.2.2 then (s.filterEntry f).1 else [])).any fun x => x.h != h && x.meets first last
  k != .gets || (!others && !e.2.1 && s.sliceOwns q f first last)

/-- The home slice's words of a frame are no longer dirty. -/
def State.homeClean (s : State) (f : Nat) : State :=
  { s with coh := { s.coh with dirty := s.coh.dirty.filter fun d => d.frame != f } }

/-- A guest die, or this device toward the fabric, that becomes a sharer downgrades the owners that it keeps records of;
the fabric takes the words (R39, R41). -/
def State.shareInside (s : State) (h : Holder) (f : Nat) : State :=
  match h with
  | .cc _ => s
  | .die g => s.probeGuest g f false
  | .dev d =>
    if peerFrame f && d == s.deviceId then
      let q := homeDie f
      ((((s.dirEntry q f).1.filter (·.own)).map (·.h)).foldl (fun s o => s.probe1 q f false o) s).homeClean f
    else s

/-- The holder's span widens under the state that it obtains (R32): a span that becomes shared gives its dirty words
to its slice. -/
def State.install (s : State) (q : Nat) (h : Holder) (f first last : Nat) (own : Bool) : State :=
  let s := if own then s else s.shareInside h f
  match s.lineOf h f with
  | some l =>
    let s := if own then s else s.mergeAt q f l.dirty
    let d := if own then l.dirty else 0
    s.setLine { l with first := min l.first first, last := max l.last last, dirty := d,
                       st := if !own then .s else if d = 0 then .e else .m }
  | none => s.setLine { h, frame := f, st := if own then .e else .s, first, last, dirty := 0, at_ := s.clk }

/-- The words that a holder asks for: what it has of the frame and what it needs, as one span (R32). -/
def State.hull (s : State) (h : Holder) (f first last : Nat) : Nat × Nat :=
  match s.lineOf h f with
  | some l => (min l.first first, max l.last last)
  | none => (first, last)

/-- The request that a holder sends (R35, R48): an upgrade where it has the words shared. -/
def State.kindOf (s : State) (h : Holder) (f first last : Nat) (own : Bool) : ReqKind :=
  if !own then .gets
  else match s.lineOf h f with
    | some l => if l.first ≤ first && last ≤ l.last then .upg else .geto
    | none => .geto

/-- A whole request of a holder at die q's entry (R36), the words installed at the holder. -/
def State.request (s : State) (q : Nat) (h : Holder) (f first last : Nat) (own : Bool) : State :=
  let k := s.kindOf h f first last own
  let (first, last) := s.hull h f first last
  let s := { s with coh := { s.coh with silent := s.coh.silent.erase (h, f) } }
  let s := s.serve q f k (some h) first last
  let own := s.obtains q f k h first last
  (s.setDir q f (addRec (s.dirEntry q f) h first last own)).install q h f first last own

/-! Capacity (R1, R111, R120, R128). -/

/-- An L1 gives a span up (R35): dirty words go to its die's slice and its record goes, and with the record what was
fetched for a strip (R124); a clean span goes silently. -/
def State.evictL1 (s : State) (l : Line) : State :=
  let q := s.entryOf l.h l.frame
  let s := s.dropLine l.h l.frame
  if l.dirty = 0 then s
  else ((s.dropStrips l.h l.frame).mergeAt q l.frame l.dirty).setDir q l.frame (dropRec (s.dirEntry q l.frame) l.h)

/-- 256 frames in 32 sets of 8 ways (R1, R111).  The set of a frame, its number modulo 32, and that the least recently
used of an overfull set leaves are the model's (DESIGN CHOICE, log entry 102). -/
def State.fitL1 (s : State) (h : Holder) (f : Nat) : State :=
  let mine := s.coh.lines.filter fun l => l.h == h && l.frame % 32 == f % 32
  match mine with
  | old :: _ => if mine.length > 8 then s.evictL1 old else s
  | [] => s

/-- The words that a proxy home holds of a peer's frame are dirty: those of its slice, and of this device's span. -/
def State.dirtyHere (s : State) (f : Nat) : Bool :=
  s.coh.dirty.any fun d => d.frame == f && d.words != 0

/-- A slice gives a frame's data up: a home copy's dirty words are written back; a guest copy leaves with its L1s'
spans, by PUTD where it is dirty, silently otherwise, and so does the copy of a peer's frame at its proxy home, toward the
fabric (R35, R39, R40, R41). -/
def State.evictFrame (s : State) (q f : Nat) : State :=
  let home := homeDie f
  if q = home then
    if peerFrame f then
      let s := ((s.dirEntry q f).1.map (·.h)).foldl (fun s h => s.probe1 q f true h) s
      let me := Holder.dev s.deviceId
      let dirty := s.dirtyHere f
      let s := ((s.dropWays q f).dropLine me f).homeClean f
      if dirty then s.setDir fabricHome f (dropRec (s.dirEntry fabricHome f) me) else s
    else (s.dropWays q f).homeClean f
  else
    let s := s.dropWays q f
    let s := s.probeGuest q f true
    match s.lineOf (.die q) f with
    | none => s
    | some l =>
      let s := s.dropLine (.die q) f
      if l.dirty = 0 then s
      else (s.mergeAt home f l.dirty).setDir home f (dropRec (s.dirEntry home f) (.die q))

/-- A slice's data of a frame goes with a gated way: dirty words are written back first, and the records in the
directories are unchanged (R125). -/
def State.gateFrame (s : State) (q f : Nat) : State :=
  let s := s.dropWays q f
  if q = homeDie f then
    let s := s.homeClean f
    if peerFrame f then s.dropLine (.dev s.deviceId) f else s
  else match s.lineOf (.die q) f with
    | some l => (s.dropLine (.die q) f).mergeAt (homeDie f) f l.dirty
    | none => s

/-- Hints that a page's attribute lets stand (R128). -/
def hintFor (a : Attr) (h : Hint) : Hint :=
  match a, h with
  | .pool, .keep => .none
  | .uc, _ => .bypass
  | .dev, _ => .bypass
  | _, h => h

/-- The way of a slice that a frame missing there takes: a free one, or that of the least recently used frame, which
leaves it, those allocated under `.keep` last (R120, R128). -/
def State.wayFor (s : State) (q f : Nat) : Option (Nat × Option Way) :=
  let here := s.coh.l2.filter fun w => w.die == q && w.slice == s.sliceOf q f && w.set == Config.sliceSet f % 128
  match (s.dataWays q).find? fun k => !(here.any fun w => w.way == k) with
  | some k => some (k, none)
  | none =>
    match here.find? fun w => !w.keep with
    | some w => some (w.way, some w)
    | none => here.head?.map fun w => (w.way, some w)

/-- At most 8 ways of the set of a way are retained: the oldest is demoted beyond that (R128). -/
def demote (l : List Way) (w : Way) : List Way :=
  let kept := l.filter fun v => v.die == w.die && v.slice == w.slice && v.set == w.set && v.keep
  match kept with
  | k :: _ => if kept.length > 8 then l.map fun v => if v = k then { v with keep := false } else v else l
  | [] => l

/-- The list of ways with one more, as its hint ranks it (R128). -/
def addWay (l : List Way) (w : Way) (hint : Hint) : List Way :=
  demote (if hint = .stream then w :: l else l ++ [w]) w

/-- A frame that misses in its slice of die q allocates there. -/
def State.takeWay (s : State) (q f : Nat) (hint : Hint) : State :=
  match s.wayFor q f with
  | none => s
  | some (way, out) =>
    let s := match out with | some w => s.evictFrame q w.frame | none => s
    let w : Way := ⟨q, s.sliceOf q f, Config.sliceSet f % 128, way, f, hint == .keep⟩
    { s with coh := { s.coh with l2 := addWay s.coh.l2 w hint } }

/-- A frame's data in a slice of die q (R120, R128): a hit becomes the most recently used; a miss counts for its
context (R203) and allocates as its hint says. -/
def State.allocate (s : State) (q f : Nat) (hint : Hint) (slot : Option Nat) : State :=
  let l := s.coh.l2
  match l.find? fun w => w.die == q && w.frame == f with
  | some w =>
    let w' := if hint = .keep then { w with keep := true } else w
    { s with coh := { s.coh with l2 := demote (l.erase w ++ [w']) w' } }
  | none =>
    let s := match slot with | some n => s.count n 30 1 | none => s
    if hint = .bypass then s else s.takeWay q f hint

/-! What an access does. -/

/-- The proxy home of a peer's memory obtains the words that an access needs from the fabric (R41). -/
def State.fabricHas (s : State) (f first last : Nat) (own : Bool) : State :=
  if !peerFrame f || s.holds (.dev s.deviceId) f first last own then s
  else
    let h := Holder.dev s.deviceId
    let (first, last) := s.hull h f first last
    { s with coh := { s.coh with silent := s.coh.silent.erase (h, f) } }.install (homeDie f) h f first last own

/-- A slice has the words of a frame with the rights that an access needs: a proxy home from the fabric, a guest slice from
the home (R39, R41). -/
def State.sliceHas (s : State) (q f first last : Nat) (own : Bool) (hint : Hint) (slot : Option Nat) : State :=
  if q = homeDie f then s.fabricHas f first last own
  else if s.holds (.die q) f first last own then s
  else
    let (lo, hi) := s.hull (.die q) f first last
    ((s.fabricHas f lo hi own).request (homeDie f) (.die q) f first last own).allocate (homeDie f) f hint slot

/-- A write of words in a span that its holder owns. -/
def State.dirtyWords (s : State) (h : Holder) (f words : Nat) : State :=
  match s.lineOf h f with
  | some l => s.setLine { l with st := .m, dirty := l.dirty ||| words, at_ := s.clk }
  | none => s

/-- A scalar access of a hart or its fetch, through its L1 (R32, R111). -/
def State.l1Access (s : State) (hid f first last : Nat) (store : Bool) : State :=
  let h := holderOf hid
  let q := dieOf hid
  let slot := (s.hart hid).slot
  let s :=
    if s.holds h f first last store then
      match s.lineOf h f with | some l => s.setLine l | none => s
    else (((s.sliceHas q f first last store .none slot).request q h f first last store).allocate q f .none slot).fitL1 h f
  if store then (s.dropStrips h f).dirtyWords h f (2 ^ (last + 1) - 2 ^ first) else s

/-- The die whose slice serves an access of die q that no record tracks: with `.bypass` a guest slice without a copy
leaves it to the home (R128). -/
def State.servingDie (s : State) (q f : Nat) (hint : Hint) : Nat :=
  if hint = .bypass && (s.lineOf (.die q) f).isNone then homeDie f else q

/-- With `.bypass` a proxy home that has no copy of a peer's frame obtains none: the words pass through (R41, R128). -/
def State.passesBy (s : State) (q f : Nat) (hint : Hint) : Bool :=
  hint == .bypass && q == homeDie f && (s.lineOf (.dev s.deviceId) f).isNone

/-- An access at a slice of die q, which no record tracks: a vector access (R38), an engine's, a walker's. -/
def State.sliceAccess (s : State) (q f first last : Nat) (store : Bool) (hint : Hint) (slot : Option Nat) : State :=
  let q := s.servingDie q f hint
  let s := if s.passesBy q f hint then s else s.sliceHas q f first last store hint slot
  let s := s.serve q f (if store then .geto else .gets) none first last
  let s := s.allocate q f hint slot
  if store && q != homeDie f then s.dirtyWords (.die q) f (2 ^ (last + 1) - 2 ^ first) else s

/-- No request for a frame is under way, so that an access takes its transaction at once (R36). -/
def State.idle (s : State) (f : Nat) : Bool := !(s.coh.reqs.any fun r => r.frame == f)

/-- A page's accesses go through the caches (R111, R112). -/
def Attr.cached (a : Attr) : Bool := a == .wb || a == .pool

/-- A scalar read of n bytes at a location may perform: it hits its L1, or its frame is idle. -/
def State.l1Ready (s : State) (hid k n : Nat) (store : Bool) : Bool :=
  match if s.cacheable k then s.frameOf k else none with
  | none => true
  | some f => s.idle f || s.holds (holderOf hid) f (firstWord k) (lastWord k n) store

/-- The scalar access of a location through the L1. -/
def State.touchL1 (s : State) (hid k n : Nat) (store : Bool) : State :=
  match if s.cacheable k then s.frameOf k else none with
  | none => s
  | some f => s.l1Access hid f (firstWord k) (lastWord k n) store

/-! Vector accesses (R38, R112). -/

/-- The parts of an access in the frames that it touches. -/
def byFrame (a : Nat × Nat) : List (Nat × Nat) :=
  ((List.range ((a.1 % 256 + a.2 + 255) / 256)).map fun i =>
    let f := 256 * (a.1 / 256 + i)
    (max a.1 f, min (a.1 + a.2) (f + 256) - max a.1 f)).filter fun x => x.2 != 0

/-- The frames of some accesses, each with the smallest span that covers them: first and last word (R31). -/
def spansOf (l : List (Nat × Nat)) : List (Nat × Nat × Nat) :=
  (l.flatMap byFrame).foldl (fun acc a =>
    let f := a.1 / 256
    let lo := firstWord a.1
    let hi := lastWord a.1 a.2
    if acc.any fun e => e.1 == f then
      acc.map fun e => if e.1 = f then (f, min e.2.1 lo, max e.2.2 hi) else e
    else acc ++ [(f, lo, hi)]) []

/-- The accesses of a vector or engine instruction at die q's slices, one request for each frame (R38, R112): physical
addresses and sizes of those to WB and POOL pages. -/
def State.touchSlices (s : State) (q : Nat) (l : List (Nat × Nat)) (store : Bool) (hint : Hint) (slot : Option Nat) :
    State :=
  (spansOf l).foldl (fun s e => s.sliceAccess q e.1 e.2.1 e.2.2 store hint slot) s

/-- Every frame of some accesses is idle. -/
def State.framesIdle (s : State) (l : List (Nat × Nat)) : Bool :=
  s.coh.reqs.isEmpty || (l.flatMap byFrame).all fun a => s.idle (a.1 / 256)

/-- Every copy, record and request of some frames goes, dirty words with them (R43, R44, R47). -/
def State.forget (s : State) (of : Nat → Bool) : State :=
  let s := s.cutStrips fun _ f => of f
  { s with
    coh := { s.coh with
      lines := s.coh.lines.filter fun l => !of l.frame
      wb := s.coh.wb.filter fun l => !of l.frame
      silent := s.coh.silent.filter fun e => !of e.2
      dir := s.coh.dir.filter fun e => !of (e.1 % 2 ^ 56)
      reqs := s.coh.reqs.filter fun r => !of r.frame
      answers := s.coh.answers.filter fun a => !of a.2.2.1
      dirty := s.coh.dirty.filter fun d => !of d.frame
      l2 := s.coh.l2.filter fun w => !of w.frame } }

end Sys2Proof.Machine
end

