-- ==== Sys2Proof/Machine/Ordering.lean ====
section
/-!
DEFINITION. The ordering machine: places of writes, completeness, reads, store buffers, drains, fences and
atomics at a home (R130 to R149).
-/
namespace Sys2Proof.Machine

/-! Places and completeness (R131). -/

/-- The last byte of an entry is at loc + n - 1. -/
def WEntry.covers (e : WEntry) (y : Nat) : Bool := e.loc ≤ y && y < e.loc + e.n
def WEntry.overlaps (e : WEntry) (loc n : Nat) : Bool := e.loc < loc + n && loc < e.loc + e.n

def State.coreQueue (s : State) (c : Nat) : List WEntry := SMap.get [] s.coreQ c
def State.setCoreQueue (s : State) (c : Nat) (l : List WEntry) : State :=
  { s with coreQ := SMap.set [] s.coreQ c l }

/-- The place of write id: 0 a store buffer, 1 a core queue, 2 the device queue or the quarantine, 3 the fabric
queue, 4 the pool image before the acknowledgement; none when it has reached its home. -/
def State.placeOf (s : State) (id : Nat) : Option Nat :=
  let is (e : WEntry) := e.id == id
  if s.mems.any fun m => m.2.sb.any is then some 0
  else if s.coreQ.any fun q => q.2.any is then some 1
  else if s.devQ.any is || s.pool.quar.any fun q => is q.entry then some 2
  else if s.fabQ.any is then some 3
  else if s.unacked.any is then some 4
  else none

/-- A write at a place is complete at a scope (R131, R147). -/
def doneAt (S : Scope) (place : Option Nat) : Bool :=
  match place with
  | none => true
  | some r =>
    match S with
    | .core => r ≥ 1
    | .dev => r ≥ 2
    | .fabric => r ≥ 3
    | .pool => false

/-- The engine instructions of a hart that have not ended. -/
def State.copiesOf (s : State) (hid : Nat) : List Copy :=
  s.eng.flatMap fun q => q.2.filter fun c => c.hid == hid

/-- Every earlier access of the hart is complete at the scope, and every write that its earlier reads returned
(R136); with eng, its earlier engine instructions too (R138). -/
def State.earlierDone (s : State) (hid ino : Nat) (S : Scope) (eng : Bool) (obs : List Nat) : Bool :=
  let mine (e : WEntry) := e.hid == hid && e.ino < ino && (!e.eng || eng)
  let m := s.hmem hid
  !(m.bag.any fun b => b.ino < ino) && !(m.posts.any fun p => p.mark.ino < ino) && !(m.sb.any mine) &&
  (S == .core || !(s.coreQ.any fun q => q.2.any mine)) &&
  (S == .core || S == .dev || !(s.devQ.any mine || s.pool.quar.any fun q => mine q.entry)) &&
  (S != .pool || !(s.fabQ.any mine || s.unacked.any mine)) &&
  obs.all (fun id => doneAt S (s.placeOf id)) &&
  (!eng || !((s.copiesOf hid).any fun c => c.ino < ino))

/-- The condition of a mark holds. -/
def State.markReady (s : State) (hid : Nat) (m : FenceMark) : Bool :=
  s.earlierDone hid m.ino m.scope m.eng m.obs

/-- No mark holds back a write of instruction ino (R136, R138). -/
def State.mayLeave (s : State) (hid ino : Nat) : Bool :=
  (s.hmem hid).fences.all fun m =>
    !(if m.later then m.ino < ino else m.ino == ino) || s.markReady hid m

/-- Marks whose condition has come to hold are dropped: it holds from then on. -/
def State.dropMarks (s : State) (hid : Nat) : State :=
  let m := s.hmem hid
  if m.fences.isEmpty then s
  else s.setHmem hid { m with fences := m.fences.filter fun f => !s.markReady hid f }

/-- Add a mark. -/
def State.addMark (s : State) (hid ino : Nat) (later : Bool) (S : Scope) (eng : Bool) : State :=
  let m := s.hmem hid
  s.setHmem hid { m with fences := m.fences ++ [⟨ino, later, S, eng, m.obs⟩] }

/-! Reads (R132). -/

/-- The youngest entry of a place that covers a byte. -/
def youngest (l : List WEntry) (y : Nat) : Option WEntry :=
  l.foldl (fun acc e => if e.covers y then some e else acc) none

/-- The places that a read searches: from the store buffer (0), the core queue (1) or the device queue (2). -/
def State.searchPath (s : State) (start hid core : Nat) : List (List WEntry) :=
  match start with
  | 0 => [(s.hmem hid).sb, s.coreQueue core, s.devQ, s.fabQ]
  | 1 => [s.coreQueue core, s.devQ, s.fabQ]
  | _ => [s.devQ, s.fabQ]

/-- One byte: its value, the write it comes from where that is not complete, and whether an uncorrectable word
gave it. -/
def State.readByte (s : State) (places : List (List WEntry)) (y : Nat) : Byte × Option Nat × Bool :=
  match places.findSome? fun p => youngest p y with
  | some e => (byteOf e.val.toNat (y - e.loc), some e.id, false)
  | none => (s.img y, (youngest s.unacked y).map (·.id), s.isBad y 1)

/-- read_value (R132): the value of n bytes at loc, the unfinished writes it returned, and whether an
uncorrectable word was met. -/
def State.readValue (s : State) (places : List (List WEntry)) (loc n : Nat) : Nat × List Nat × Bool :=
  let l := (List.range n).map fun j => s.readByte places (loc + j)
  (ofBytes (l.map (·.1)), (l.filterMap (·.2.1)).eraseDups, l.any (·.2.2))

/-- Writes that have not reached their homes, or are not acknowledged. -/
def State.flight (s : State) : List WEntry :=
  s.mems.flatMap (·.2.sb) ++ s.coreQ.flatMap (·.2) ++ s.devQ ++ s.fabQ ++ s.unacked ++ s.pool.quar.map (·.entry)

/-- The other harts whose writes a read of n bytes at loc returned; ids are those on their way (R53). -/
def State.writersOf (s : State) (hid loc n : Nat) (ids : List Nat) : List Nat :=
  let home := ((List.range n).map fun j => (loc + j) / 8).eraseDups.filterMap fun w =>
    let e := SMap.get (0, 0, 0) s.wlog w
    if e.1 = 0 then none else some e.2.1
  let sent := if ids.isEmpty then [] else (s.flight.filter fun e => ids.contains e.id).map (·.hid)
  ((home ++ sent).filter (· != hid)).eraseDups

/-- Record that instruction ino of a hart has read n bytes at loc, and the unfinished writes it saw: for
cumulativity (R136), for `wait` (R270) and for FENCE (R53). -/
def State.noteRead (s : State) (hid ino loc n : Nat) (ids : List Nat) : State :=
  let m := s.hmem hid
  let add (l : List Nat) := l ++ ids.filter fun i => !l.contains i
  let words := (List.range n).foldl (fun l j => SMap.set 0 l ((loc + j) / 8) s.drv.nextId) m.rlog
  let obs := if ids.isEmpty then m.obs else (add m.obs).filter fun i => (s.placeOf i).isSome
  let seen (f : FenceMark) : FenceMark := if ino < f.ino then { f with obs := add f.obs } else f
  let fences := if ids.isEmpty then m.fences else m.fences.map seen
  let posts := if ids.isEmpty then m.posts else m.posts.map fun p => { p with mark := seen p.mark }
  let s := if ids.isEmpty then s
    else { s with eng := s.eng.map fun q => (q.1, q.2.map fun c =>
      if c.hid = hid ∧ ino < c.ino then { c with obs := add c.obs } else c) }
  let seen := m.seen ++ (s.writersOf hid loc n ids).filter fun i => !m.seen.contains i
  s.setHmem hid { m with rlog := words, obs, fences, posts, seen }

/-! Writes. -/

/-- A write of an instruction: its place, bytes and value. -/
structure Piece where
  p : Phys
  n : Nat
  val : Nat
  va : Nat
deriving DecidableEq, Repr

def Piece.overlaps (a b : Piece) : Bool := a.p.key < b.p.key + b.n && b.p.key < a.p.key + a.n

/-- Overlapping writes of one instruction merge: the last one's bytes remain (R134). -/
def mergePieces : List Piece → List Piece
  | [] => []
  | w :: ws => let r := mergePieces ws; if ws.any (·.overlaps w) then r else w :: r

/-- Buffer one write (R132); l1: a scalar store to a cached page (R111). -/
def State.buffer (s : State) (hid ino : Nat) (w : Piece) (rel : Option Scope) (oe : Option Nat) (l1 : Bool) : State :=
  let m := s.hmem hid
  let e : WEntry := { hid, ino, id := s.drv.nextId, loc := w.p.key, n := w.n, val := BitVec.ofNat 64 w.val,
                      rel, oe, eng := false, va := w.va, l1 := l1 && w.p.attr.cached, old := 0 }
  (s.setHmem hid { m with sb := m.sb ++ [e] }).bump

/-- A page attribute whose accesses neither queue nor merge (R112, R135). -/
def Attr.direct (a : Attr) : Bool := a == .uc || a == .dev

/-- The Buffer steps of an instruction's writes, in ascending element order; UC writes perform at their home. -/
def State.bufferAll (s : State) (hid ino : Nat) (ws : List Piece) (rel : Option Scope) (oe : Option Nat)
    (l1 : Bool) : State :=
  let queued := ws.filter fun w => !w.p.attr.direct
  let queued := if oe.isSome then queued else mergePieces queued
  let s := queued.foldl (fun s w => s.buffer hid ino w rel oe l1) s
  let s := (ws.filter fun w => w.p.attr == .uc).foldl (fun s w => s.writeHome w.p.key w.n w.val ino hid) s
  match rel with
  | some S => s.addMark hid ino false S false
  | none => s

/-! Drains (R135, R140, R147). -/

/-- Entry k of a place may move: no older entry for an overlapping location, and no older entry of its `.oe`
instruction, waits there. -/
def mayMove (l : List WEntry) (k : Nat) : Bool :=
  match l[k]? with
  | none => false
  | some e => !((l.take k).any fun o => o.overlaps e.loc e.n || (e.oe.isSome && o.oe == e.oe && o.hid == e.hid))

/-- Bytes of quarantine that the spans of a choice hold: 8 for each word of the one span of each frame (R31, R47). -/
def State.quarBytes (s : State) (f : QSpan → Bool) : Nat :=
  8 * ((spansOf ((s.pool.quar.filter f).map fun q => (q.entry.loc, q.entry.n))).map fun e => e.2.2 + 1 - e.2.1).sum

/-- A region takes a state, and its change is reported (R47, R198); failed marks a failed identity check. -/
def State.setRegion (s : State) (n st : Nat) : State :=
  s.setHreg (oPregion n) (setBits (s.hreg (oPregion n)) 63 62 st)
def State.reportRegion (s : State) (n : Nat) (failed : Bool) : State :=
  s.report repRegion n (regionState s n + if failed then 4 else 0) 0 0 none none

/-- A region goes LOST: its quarantined spans and unacknowledged writes are discarded (R47). -/
def State.loseRegion (s : State) (n : Nat) : State :=
  let mine (e : WEntry) := match s.regionOfKey e.loc with | some (m, _) => m == n | none => false
  let s := { s with
    pool := { s.pool with quar := s.pool.quar.filter fun q => q.region != n
                          writeback := s.pool.writeback.filter (· != n) }
    unacked := s.unacked.filter fun e => !mine e }
  (s.setRegion n 3).reportRegion n false

/-- A write to a DETACHED region joins the quarantine; a region whose spans do not all fit in 64 MiB is LOST
(R47 step 3). -/
def State.quarantine (s : State) (n : Nat) (e : WEntry) : State :=
  let port := bits (s.hreg (oPregion n)) 61 60
  let s := { s with pool := { s.pool with quar := s.pool.quar ++ [⟨n, port, e⟩] } }
  if s.quarBytes (fun _ => true) ≤ 2 ^ 26 then s else s.loseRegion n

/-- An entry performs at its home; in a pool image it replaces bytes until the pooled device acknowledges it (R147). -/
def State.arrive (s : State) (e : WEntry) : State :=
  let s1 := s.writeHome e.loc e.n e.val.toNat e.ino (if e.eng then 1024 else e.hid)
  match homeOf e.loc with
  | .pool => { s1 with unacked := s1.unacked ++ [{ e with old := s.imgRead e.loc e.n }] }
  | _ => s1

/-- A write of an instruction performs at its home at once (R139, R141). -/
def State.writeNow (s : State) (hid ino loc n v va : Nat) : State :=
  match homeOf loc with
  | .pool => s.bump.arrive { hid, ino, id := s.drv.nextId, loc, n, val := BitVec.ofNat 64 v, rel := none, oe := none,
                             eng := false, va, l1 := false, old := 0 }
  | _ => s.writeHome loc n v ino hid

/-- One Drain step out of a store buffer; a scalar store is made in its L1, once the L1 can own the words (R32, R111). -/
def State.drainSb (s : State) (hid k : Nat) : Option State :=
  let m := s.hmem hid
  match m.sb[k]? with
  | none => none
  | some e =>
    if mayMove m.sb k && s.mayLeave hid e.ino && (!e.l1 || s.l1Ready hid e.loc e.n true) then
      let s := if e.l1 then s.touchL1 hid e.loc e.n true else s
      let s := s.setHmem hid { m with sb := m.sb.eraseIdx k }
      let s := match homeOf e.loc with
        | .spad _ => s.arrive e
        | _ => s.setCoreQueue (coreOf hid) (s.coreQueue (coreOf hid) ++ [e])
      some (s.dropMarks hid)
    else none

/-- One Drain step out of a core queue. -/
def State.drainCore (s : State) (c k : Nat) : Option State :=
  let l := s.coreQueue c
  match l[k]? with
  | none => none
  | some e =>
    if mayMove l k then
      let s := s.setCoreQueue c (l.eraseIdx k)
      some (match homeOf e.loc with
        | .hbm | .ts | .spad _ => s.arrive e
        | _ => { s with devQ := s.devQ ++ [e] })
    else none

/-- One Drain step out of the device queue.  A write to a fenced peer is discarded (R43); one to a region whose
port is being rerouted stays, one to a DETACHED region joins the quarantine (R47), one to a region that is gone is
dropped. -/
def State.drainDev (s : State) (k : Nat) : Option State :=
  match s.devQ[k]? with
  | none => none
  | some e =>
    if mayMove s.devQ k then
      let out : State := { s with devQ := s.devQ.eraseIdx k }
      match homeOf e.loc with
      | .peer d => if s.peerCut d then some out else some { out with fabQ := out.fabQ ++ [e] }
      | .pool =>
        match s.regionOfKey e.loc with
        | some (n, w) =>
          match regionState s n with
          | 1 =>
            if s.pool.reroute.any fun p => p.1 == bits w 61 60 then none
            else some (out.arrive e)
          | 2 => if s.pool.writeback.contains n then none else some (out.quarantine n e)
          | _ => some out
        | none => some out
      | _ => some (out.arrive e)
    else none

/-- One Drain step out of the fabric queue. -/
def State.drainFab (s : State) (k : Nat) : Option State :=
  match s.fabQ[k]? with
  | none => none
  | some e =>
    if mayMove s.fabQ k then
      let out : State := { s with fabQ := s.fabQ.eraseIdx k }
      match homeOf e.loc with
      | .peer d => if s.peerCut d then some out else some (out.arrive e)
      | _ => some (out.arrive e)
    else none

/-- One Drain step (R135). -/
def State.drain (s : State) (p : Place) (k : Nat) : Option State :=
  match p with
  | .sb hid => s.drainSb hid k
  | .core c => s.drainCore c k
  | .device => s.drainDev k
  | .fabric => s.drainFab k

/-- The pooled device acknowledges a write of its image (R45, R147): its words are no longer dirty here. -/
def State.ackWrite (s : State) (k : Nat) : State :=
  let rest := s.unacked.eraseIdx k
  let s := match s.unacked[k]? with
    | some e => match s.frameOf e.loc with
      | some f =>
        if rest.any fun o => o.loc / 256 == e.loc / 256 then s
        else { s with coh := s.coh.cleaned f (wordMask e.loc e.n) }
      | none => s
    | none => s
  let s := { s with unacked := rest }
  s.mems.foldl (fun s m => s.dropMarks m.1) s

/-! Atomics at a home (R139, R267, R321). -/

/-- The result of an operation on the old value of n bytes, and its flags. -/
def amoResult (rm : Rm) (op : AmoOp) (tag : Option Tag) (n old opnd cmp : Nat) : Nat × Nat :=
  let w := 8 * n
  let old := old % 2 ^ w
  let x := opnd % 2 ^ w
  let sgn (v : Nat) : Int := sextNat v w
  let plain : Nat :=
    match op with
    | .add => (old + x) % 2 ^ w
    | .and => old &&& x
    | .or => old ||| x
    | .xor => old ^^^ x
    | .min => if sgn x < sgn old then x else old
    | .max => if sgn old < sgn x then x else old
    | .minn => if x < old then x else old
    | .maxn => if old < x then x else old
    | .swap => x
    | .cas => if old = cmp % 2 ^ w then x else old
  match tag with
  | none => (plain, 0)
  | some t =>
    if t.isFloat then
      let f := t.fmt
      match op with
      | .add => fAdd f rm (val t old) (val t x)
      | .min => fMinMax f false (val t old) (val t x) old x
      | .max => fMinMax f true (val t old) (val t x) old x
      | _ => (plain, 0)
    else (plain, 0)

/-- The updates of one location in order: the value left, the old values, the flags. -/
def amoUpdates (rm : Rm) (op : AmoOp) (tag : Option Tag) (n : Nat) : List Update → Nat → Nat × List Nat × Nat
  | [], v => (v, [], 0)
  | u :: us, v =>
    let (nv, fl) := amoResult rm op tag n v u.opnd.toNat u.cmp.toNat
    let (last, olds, fl') := amoUpdates rm op tag n us nv
    (last, v :: olds, fl ||| fl')

/-- An older write of the hart to these bytes has not reached the home (R139). -/
def State.olderPending (s : State) (hid ino loc n : Nat) : Bool :=
  let older (e : WEntry) := e.hid == hid && e.ino < ino && !e.eng && e.overlaps loc n
  (s.hmem hid).sb.any older || (s.coreQ.any fun q => q.2.any older) || s.devQ.any older || s.fabQ.any older

/-- An older access of the hart to these bytes waits in its bag (R134). -/
def State.olderHeld (s : State) (hid ino loc n : Nat) : Bool :=
  (s.hmem hid).bag.any fun b => b.ino < ino && b.loc < loc + n && loc < b.loc + b.n

/-! Values that a read leaves in registers. -/

/-- The loaded value of a size code (R260). -/
def loadValue (z : LdSize) (v : Nat) : Word :=
  match z with
  | .b8 => BitVec.ofInt 64 (sextNat v 8)
  | .b16 => BitVec.ofInt 64 (sextNat v 16)
  | .b32 => BitVec.ofInt 64 (sextNat v 32)
  | .b64 => BitVec.ofNat 64 v
  | .z8 => BitVec.ofNat 64 (v % 2 ^ 8)
  | .z16 => BitVec.ofNat 64 (v % 2 ^ 16)
  | .z32 => BitVec.ofNat 64 (v % 2 ^ 32)

/-- The bytes of a size code. -/
def ldBytes : LdSize → Nat
  | .b8 | .z8 => 1
  | .b16 | .z16 => 2
  | .b32 | .z32 => 4
  | .b64 => 8

def stBytes : StSize → Nat
  | .b8 => 1
  | .b16 => 2
  | .b32 => 4
  | .b64 => 8

/-- Write n bytes into the image of the register group at v (R105). -/
def Hart.setVBytes (h : Hart) (v : VR) (off : Nat) : Nat → Nat → Hart
  | 0, _ => h
  | n + 1, x =>
    let h := h.setVBytes v off n x
    { h with v := SMap.set (0 : Byte) h.v (0x4000 * v.val + off + n) (byteOf x n) }

/-- Bytes of that image as a number. -/
def Hart.vBytes (h : Hart) (v : VR) (off n : Nat) : Nat :=
  ofBytes ((List.range n).map fun j => SMap.get (0 : Byte) h.v (0x4000 * v.val + off + j))

/-- Deliver a read's value to a register. -/
def Hart.deliver (h : Hart) (d : Dst) (val : Nat) : Hart :=
  match d with
  | .x n z => h.setX n (loadValue z val)
  | .v n elem b => h.setVBytes n (elem * b) b val
  | .t _ => h
  | .none => h

/-- Deliver a read's value to a register of hart hid, or to an accumulator of its core (R345). -/
def State.deliver (s : State) (hid : Nat) (d : Dst) (val : Nat) : State :=
  match d with
  | .t k => let c := coreOf hid; s.setCore c { s.core c with acc := SMap.set 0 (s.core c).acc k (BitVec.ofNat 32 val) }
  | d => s.setHart hid ((s.hart hid).deliver d val)

/-! Bags (R130, R132). -/

/-- Where a read of an access starts its search: an `.sc` read at the device queue (R141). -/
def BagItem.start (b : BagItem) : Nat := if b.sc then 2 else 0

/-- A scalar read goes through its L1; a vector's reads have drawn their frames at issue (R38, R111). -/
def BagItem.byL1 (b : BagItem) : Bool := b.cached && (match b.act with | .rd (.x _ _) => true | _ => false)

/-- The kind of an access, for a PAGEFAULT (R183). -/
def BagItem.kind (b : BagItem) : Acc := match b.act with | .rd _ => .load | _ => .store

/-- Older accesses hold an access of a bag back: same-location order (R134), ascending order under `.oe` and `.sc`
(R140, R141). -/
def BagItem.behind (b o : BagItem) : Bool :=
  (o.ino < b.ino && o.loc < b.loc + b.n && b.loc < o.loc + o.n) || (b.oe.isSome && o.oe == b.oe) ||
  (b.sc && o.sc && o.ino == b.ino)

/-- What a frame has become since an access of die q to it was checked. -/
def State.fateAt (s : State) (q k : Nat) : Fate :=
  if (match s.frameOf k with | some f => s.waysWake q f | none => false) then .stall
  else match homeOf k with
  | .peer d => if s.peerCut d then .fault .fenced 0 else .ok
  | .pool => match s.regionOfKey k with
    | some (n, w) => match regionState s n with
      | 0 => .fault .pagefault 0
      | 1 => if s.pool.reroute.any fun e => e.1 == bits w 61 60 then .stall else .ok
      | 2 => if s.pool.writeback.contains n then .stall else .fault .pooldetach 0
      | _ => .fault .poollost 0
    | none => .fault .pagefault 0
  | _ => .ok

/-- A read of a bag performs and is delivered. -/
def State.performRead (s : State) (hid : Nat) (b : BagItem) (d : Dst) : State :=
  let (v, ids, _) := s.readValue (s.searchPath b.start hid (coreOf hid)) b.loc b.n
  let s := s.noteRead hid b.ino b.loc b.n ids
  s.deliver hid d v

/-- A write of a bag performs: an `.sc` write and one to a UC page go to their home or to the device queue (R135, R141),
any other enters the store buffer (R134). -/
def State.performWrite (s : State) (hid : Nat) (b : BagItem) (v : Word) : State :=
  if b.direct then s.writeNow hid b.ino b.loc b.n v.toNat b.va
  else
    let e : WEntry := { hid, ino := b.ino, id := s.drv.nextId, loc := b.loc, n := b.n, val := v, rel := none,
                        oe := if b.sc then none else b.oe, eng := false, va := b.va, l1 := false, old := 0 }
    if b.sc then
      match homeOf b.loc with
      | .spad _ | .hbm | .ts => s.writeHome b.loc b.n v.toNat b.ino hid
      | _ => { s with devQ := s.devQ ++ [e] }.bump
    else
      let m := s.hmem hid
      (s.setHmem hid { m with sb := m.sb ++ [{ e with l1 := b.cached }] }).bump

/-- An atomic performs at its home, in one step (R139). -/
def State.performAmo (s : State) (hid : Nat) (b : BagItem) (op : AmoOp) (tag : Option Tag) (rm : Rm)
    (ups : List Update) : State :=
  let (old, ids, _) := s.readValue [] b.loc b.n
  let (v, olds, fl) := amoUpdates rm op tag b.n ups old
  let h := (ups.zip olds).foldl (fun h u => h.deliver u.1.dst u.2) ((s.hart hid).orFlags fl)
  let s := s.noteRead hid b.ino b.loc b.n ids
  (s.setHart hid h).writeNow hid b.ino b.loc b.n v b.va

/-- The slices serve an atomic as an owner, over the span of its instruction's accesses in the frame (R38, R139). -/
def State.touchAmo (s : State) (hid : Nat) (b : BagItem) : State :=
  match if b.cached && s.cacheable b.loc then s.frameOf b.loc else none with
  | none => s
  | some f => s.sliceAccess (dieOf hid) f b.lo b.hi true .none (s.hart hid).slot
def State.amoIdle (s : State) (k : Nat) (cached : Bool) : Bool :=
  match if cached then s.frameOf k else none with | none => true | some f => s.idle f

/-- A fault that a held access meets when it performs is raised as a deferred one (DESIGN CHOICE, log entry 18). -/
def State.deferAt (s : State) (hid : Nat) (c : Cause) (sub va : Nat) : State :=
  let h := s.hart hid
  let s := if c = .dataerr then s.report c.code sub 0 0 va (some hid) h.task else s
  s.setHart hid { h with deferred := h.deferred ++ [({ Trap.at0 c sub va with dfr := true }.word, BitVec.ofNat 64 va)] }

/-- Perform item k of a hart's bag, if it may: after the accesses that hold it back, where its frame can be reached and
no request for it is under way; an atomic after the older entries have drained, a write in the order of R138. -/
def State.performItem (s : State) (hid k : Nat) : Option State :=
  let m := s.hmem hid
  match m.bag[k]? with
  | none => none
  | some b =>
    if (m.bag.take k).any b.behind then none
    else
      let bag := m.bag.eraseIdx k
      let out := s.setHmem hid { m with bag, pcs := m.pcs.filter fun e => bag.any fun b => b.ino == e.1 }
      match s.fateAt (dieOf hid) b.loc with
      | .stall => none
      | .fault c sub => some (out.deferAt hid c (if c = .pagefault then b.kind.sub else sub) b.va)
      | .ok =>
        match b.act with
        | .rd d =>
          if b.byL1 && !s.l1Ready hid b.loc b.n false then none
          else if (s.readValue (s.searchPath b.start hid (coreOf hid)) b.loc b.n).2.2 then
            some (out.deferAt hid .dataerr (s.eccSub b.loc b.n) b.va)
          else some ((if b.byL1 then out.touchL1 hid b.loc b.n false else out).performRead hid b d)
        | .wr v =>
          if (b.sc || b.direct) && !s.mayLeave hid b.ino then none else some (out.performWrite hid b v)
        | .amo op tag rm ups =>
          if s.olderPending hid b.ino b.loc b.n || !s.mayLeave hid b.ino || !s.amoIdle b.loc b.cached then none
          else if s.isBad b.loc b.n then some (out.deferAt hid .dataerr (s.eccSub b.loc b.n) b.va)
          else some ((out.touchAmo hid b).performAmo hid b op tag rm ups)

/-- The accesses of a hart's bag perform in order, as far as they can. -/
def State.performAll (s : State) (hid : Nat) : Nat → State
  | 0 => s
  | n + 1 => match s.performItem hid 0 with
    | some s => s.performAll hid n
    | none => s

/-- Accesses of a choice that were sent before an event perform before it. -/
def State.settleHeld (s : State) (f : BagItem → Bool) : State :=
  s.mems.foldl (fun s m => if m.2.bag.any f then s.performAll m.1 m.2.bag.length else s) s

/-- A held read of a hart of core c goes to the tiles (R345). -/
def State.tilesHeld (s : State) (c : Nat) : Bool :=
  s.mems.any fun m => coreOf m.1 == c && m.2.bag.any fun b => match b.act with | .rd (.t _) => true | _ => false

/-- A store-release at POOL scope, or any later access after an acquire, waits at issue until this holds. -/
def State.bagEmpty (s : State) (hid : Nat) : Bool := (s.hmem hid).bag.isEmpty

end Sys2Proof.Machine
end

