-- ==== Sys2Proof/Machine/Lanes.lean ====
section
/-!
DEFINITION. Lane partition, lane allocation tables, renegotiation, and what a change of grant does to the
registers (R79 to R84, R99, R100, R108).
-/
namespace Sys2Proof.Machine

/-- The number of logical lane groups of core c. -/
def State.groups (s : State) (c : Nat) : Nat := (s.core c).lmod / 8

/-- lpart.split; values above 8 count as 8 (R79). -/
def State.split (s : State) (c : Nat) : Nat := min 8 (bits (s.core c).lpart 3 0)

/-- The control core whose share has group g (R79, R80). -/
def State.side (s : State) (c g : Nat) : Nat := if g < s.split c then 0 else 1

/-- pcap.cap of a die (R83). -/
def State.cap (s : State) (q : Nat) : Nat := bits (s.hreg (oPcap q)) 19 16

/-- The holders of group g: bit k for hart k of the control core whose share has it. -/
def State.holders (s : State) (c g : Nat) : Nat := SMap.get 0 s.ring.lanes (8 * c + g)
def State.setHolders (s : State) (c g m : Nat) : State :=
  { s with ring := { s.ring with lanes := SMap.set 0 s.ring.lanes (8 * c + g) m } }

/-- The share of a control core, and its groups that are neither GATED nor marked for gating (R81, R83). -/
def State.share (s : State) (c cc : Nat) : List Nat := (List.range 8).filter fun g => s.side c g == cc
def State.usable (s : State) (c cc : Nat) : List Nat :=
  ((s.share c cc).take (s.cap (c / 32))).filter fun g => g < s.groups c

/-- The groups that a hart holds, ascending. -/
def State.heldBy (s : State) (hid : Nat) : List Nat :=
  (s.share (coreOf hid) (ccOf hid)).filter fun g => (s.holders (coreOf hid) g).testBit (hid % 4)

/-- vgrant (R81, R99). -/
def State.vgrant (s : State) (hid : Nat) : Nat := 8 * (s.heldBy hid).length

/-- The held groups as a mask (R186, egrant.held). -/
def State.heldMask (s : State) (hid : Nat) : Nat := (s.heldBy hid).foldl (fun a g => a + 2 ^ g) 0

/-- A hart takes or leaves a group. -/
def State.joinGroup (s : State) (hid g : Nat) : State :=
  s.setHolders (coreOf hid) g (s.holders (coreOf hid) g ||| 2 ^ (hid % 4))
def State.leaveGroup (s : State) (hid g : Nat) : State :=
  let m := s.holders (coreOf hid) g
  let k := 2 ^ (hid % 4)
  let s := s.setHolders (coreOf hid) g (if m.testBit (hid % 4) then m - k else m)
  if m = k then { s with ring := { s.ring with marked := s.ring.marked.del (8 * coreOf hid + g) } } else s

/-- Leave every group (R81 step 1, R86, R356). -/
def State.releaseLanes (s : State) (hid : Nat) : State :=
  (s.heldBy hid).foldl (fun s g => s.leaveGroup hid g) s

/-- A FREE group of a list. -/
def State.freeIn (s : State) (c : Nat) (u : List Nat) : Option Nat := u.find? fun g => s.holders c g == 0

/-- How many harts of the control core hold a group, counting this one (R81). -/
def State.holdersOfShare (s : State) (hid : Nat) : Nat :=
  let c := coreOf hid
  let all := (s.share c (ccOf hid)).foldl (fun a g => a ||| s.holders c g) (2 ^ (hid % 4))
  popCount 4 all

/-- want (R81). -/
def State.want (s : State) (hid : Nat) : Nat :=
  let h := s.hart hid
  let n := (s.usable (coreOf hid) (ccOf hid)).length
  let lreq := match h.task with | some t => (s.task t).lreq | none => 0
  let lim := min 8 (bits (h.mreg mPowcap) 3 0)
  let w := if lreq = 0 then max 1 (n / s.holdersOfShare hid) else lreq
  let w := if lim = 0 then w else min w lim
  min w n

/-- The four steps of a renegotiation (R81) on the lane tables. -/
def State.moveLanes (s : State) (hid : Nat) : State :=
  let c := coreOf hid
  let u := s.usable c (ccOf hid)
  let want := s.want hid
  let held := s.heldBy hid
  let keep := (held.filter u.contains).take want
  let s := (held.filter fun g => !keep.contains g).reverse.foldl (fun s g => s.leaveGroup hid g) s
  let shared := keep.filter fun g => s.holders c g != 2 ^ (hid % 4)
  let s := shared.foldl (fun s g =>
    match s.freeIn c u with
    | some f => (s.leaveGroup hid g).joinGroup hid f
    | none => s) s
  let s := (List.range (want - keep.length)).foldl (fun s _ =>
    match s.freeIn c u with
    | some f => s.joinGroup hid f
    | none => s) s
  if (s.heldBy hid).isEmpty then
    let best := u.foldl (fun acc g =>
      match acc with
      | none => some g
      | some b => if popCount 4 (s.holders c g) < popCount 4 (s.holders c b) then some g else acc) none
    match best with
    | some g => s.joinGroup hid g
    | none => s
  else s

/-- The registers of the group that a register belongs to under its own tag (R104, R108): 1 where the tag is
too wide for the element width. -/
def groupSize (t : Tag) (ew : Ew) : Nat :=
  let w := t.width
  let e := ew.bits
  if w ≤ e then 1 else if w = 2 * e then 2 else if w = 4 * e then 4 else 1

/-- The bytes of its 16 KiB image that register n holds under L lanes (R93, R104).  Its group is taken from its own tag and its
number, whatever its neighbours' tags and alignment (DESIGN CHOICE, log entry 109). -/
def Hart.regBytes (h : Hart) (n L : Nat) : Nat :=
  let g := groupSize (SMap.get .s32 h.tag n) h.ew
  min 0x4000 (g * 256 * L - n % g * 0x4000)

/-- The bytes of its image that a register's frame stands for under L lanes: the granted-lane bytes (R105, R106), and with
them what its group's elements take of its place. -/
def Hart.frameBytes (h : Hart) (n L : Nat) : Nat := min 0x4000 (max (256 * L) (h.regBytes n L))

/-- Elements at or above the capacity of their group under a grant of L lanes become zero, in the registers and in those
that are spilled or clean (R108). -/
def Hart.cutTo (h : Hart) (L : Nat) : Hart :=
  { h with
    v := h.v.filter fun b => decide (b.1 % 0x4000 < h.regBytes (b.1 / 0x4000) L)
    spilled := h.spilled.map fun r => (r.1, min r.2 (h.regBytes r.1 L))
    clean := h.clean.map fun r => (r.1, min r.2 (h.regBytes r.1 L)) }

/-- Register n is not resident. -/
def Hart.isSpilled (h : Hart) (n : Nat) : Bool := h.spilled.any fun r => r.1 == n

/-- A held read of an element that a change of grant cuts off delivers nowhere (R108). -/
def Hart.cutDst (h : Hart) (L : Nat) (d : Dst) : Dst :=
  match d with
  | .v n e b => if (0x4000 * n.val + e * b) % 0x4000 < h.regBytes ((0x4000 * n.val + e * b) / 0x4000) L then d else .none
  | d => d
def Hart.cutItem (h : Hart) (L : Nat) (b : BagItem) : BagItem :=
  match b.act with
  | .rd d => { b with act := .rd (h.cutDst L d) }
  | .amo op t rm ups => { b with act := .amo op t rm (ups.map fun u => { u with dst := h.cutDst L u.dst }) }
  | .wr _ => b

/-- The lanes of a hart change, and its registers with them (R108). -/
def State.withLanes (s : State) (hid : Nat) (f : State → State) : State :=
  let old := s.vgrant hid
  let s := f s
  let new := s.vgrant hid
  if new < old then
    let h := s.hart hid
    let m := s.hmem hid
    (s.setHmem hid { m with bag := m.bag.map (h.cutItem new) }).setHart hid (h.cutTo new)
  else s

/-- Renegotiation (R81). -/
def State.renegotiate (s : State) (hid : Nat) : State := s.withLanes hid fun s => s.moveLanes hid

/-- A member keeps only its n lowest groups (R82). -/
def State.shrinkTo (s : State) (hid n : Nat) : State :=
  s.withLanes hid fun s => ((s.heldBy hid).drop n).reverse.foldl (fun s g => s.leaveGroup hid g) s

/-- ltab: byte g describes group g (R80).  After reset R80's Reset column gives 0, its Meaning column the side of lpart,
which resets to 4 (R79): the model reads as the Meaning says (DESIGN CHOICE, log entry 99). -/
def State.ltab (s : State) (c : Nat) : Word :=
  BitVec.ofNat 64 ((List.range 8).foldl (fun a g =>
    let m := s.holders c g
    let n := popCount 4 m
    let mode := if n = 0 then (if (s.usable c (s.side c g)).contains g then 0 else 3) else if n = 1 then 1 else 2
    a + (s.side c g * 128 + mode * 32 + m) * 2 ^ (8 * g)) 0)

/-- lrmap: byte g describes group g (R100). -/
def State.lrmap (s : State) (c : Nat) : Word :=
  let k := s.core c
  let alive := (List.range 8).filter fun p => !k.lost.contains p
  BitVec.ofNat 64 ((List.range 8).foldl (fun a g =>
    if g < k.lmod / 8 then a + (128 + alive.getD g 0 * 16 + SMap.get 8 k.skip g) * 2 ^ (8 * g) else a) 0)

/-- The mark for gating of the held groups beyond the cap (R83); those within it are unmarked. -/
def State.markGroups (s : State) (q : Nat) : State :=
  (List.range 32).foldl (fun s i =>
    let c := 32 * q + i
    (List.range 8).foldl (fun s g =>
      let key := 8 * c + g
      if (s.usable c (s.side c g)).contains g || s.holders c g == 0 then
        { s with ring := { s.ring with marked := s.ring.marked.del key } }
      else if s.ring.marked.any fun e => e.1 == key then s
      else { s with ring := { s.ring with marked := s.ring.marked.put key s.clk } }) s) s

end Sys2Proof.Machine
end

