-- ==== Sys2Proof/Machine/Traps.lean ====
section
/-!
DEFINITION. The restart point, entry into S and into M, and the way back (R102, R182 to R188).
-/
namespace Sys2Proof.Machine

/-- The hart resumes inside an instruction. -/
def Resume.pending (r : Resume) : Bool := r.sfx != 0 || r.slip != 0 || r.cu

/-- The grant description in egrant layout (R186). -/
def Resume.desc (r : Resume) : Word :=
  BitVec.ofNat 64 ((if r.cu then 2 ^ 63 else 0) + r.cidx % 2 ^ 16 * 2 ^ 32 + r.held % 256 * 2 ^ 16 +
    r.lmod % 128 * 2 ^ 8 + r.grant % 128)

/-- The restart point that an epc, a slip and a grant description give (R103, R188). -/
def Resume.ofWords (epc slip g : Word) : Resume :=
  { sfx := bits epc 63 55, slip := bits slip 15 0, grant := bits g 6 0, held := bits g 23 16, lmod := bits g 14 8,
    cu := bit g 63, cidx := bits g 47 32 }

/-- The lanes held at present, with a suffix and deltas. -/
def State.resumeNow (s : State) (hid sfx slip : Nat) : Resume :=
  { sfx, slip, grant := s.vgrant hid, held := s.heldMask hid, lmod := (s.core (coreOf hid)).lmod, cu := false,
    cidx := 0 }

/-- The code of a level (R186). -/
def Level.code : Level → Nat
  | .u => 0
  | .s => 1
  | .m => 2

def Level.ofCode (n : Nat) : Level := if n = 0 then .u else if n = 1 then .s else .m

/-- The restart point that a trap leaves (R102, R103). -/
def State.stopPoint (s : State) (hid : Nat) (t : Trap) : Resume :=
  let r := (s.hart hid).resume
  match t.cidx with
  | some c => { r with cu := true, cidx := c }
  | none => if t.old then r else s.resumeNow hid t.sfx t.slip

/-- epc of a restart point. -/
def epcWord (pc : BitVec 55) (r : Resume) : Word := BitVec.ofNat 64 (pc.toNat + r.sfx % 512 * 2 ^ 55)

/-- The loop context after placement (R90, R184): no loop, element width 32, no element. -/
def Hart.clearLoop (h : Hart) : Hart :=
  ((((h.setMreg mAvl (mregReset mAvl)).setMreg mStrip 0).setMreg mVhead 0).setMreg mVl 0).setMreg mSlip 0

/-- The loop context goes to the shadow registers (R184 step 4). -/
def Hart.setAside (h : Hart) (slip desc : Word) : Hart :=
  (((((h.setMreg mEavl (h.mreg mAvl)).setMreg mEstrip (h.mreg mStrip)).setMreg mEhead (h.mreg mVhead)).setMreg
    mEvl (h.mreg mVl)).setMreg mEslip slip).setMreg mEgrant desc

/-- estat at entry (R184 step 3). -/
def estatEntry (w : Word) (ppl : Nat) (lx : Bool) : Word :=
  let w := setBits w 14 14 (if lx then 1 else 0)
  let w := setBits w 13 12 ppl
  let w := setBits w 11 11 (bits w 10 10)
  let w := setBits w 10 10 0
  setBits w 15 15 1

/-- What no longer holds once a hart has been stopped; strips younger than the one that stops are discarded (R96). -/
def Hart.unwait (h : Hart) : Hart :=
  { h with waiting := .no, resume := Resume.zero, setvlg := none, killing := none, coll := none, wpSkip := false, bpSkip := false,
           paused := false, blocked := none, par := none }

/-- Remember where a breakpoint or watchpoint stopped, at the level that takes its trap (R187, R206, R207). -/
def Hart.noteBreak (h : Hart) (t : Trap) : Hart :=
  if t.cause = .brk then
    (if h.level = .m ∨ bit (h.mreg mEstat) 15 then { h with kbrkPc := h.pc } else { h with brkPc := h.pc })
  else h

/-- The hart goes on at a level and a PC. -/
def Hart.goTo (h : Hart) (l : Level) (pc : BitVec 55) : Hart := { h with level := l, pc := pc }

/-- The restart point of a trap into M is kept beside kret. -/
def Hart.setKres (h : Hart) (r : Resume) : Hart := { h with kres := r }

/-- The hart returns to a level and a PC, at a restart point; bp and wp: past a breakpoint or watchpoint. -/
def Hart.comeBack (h : Hart) (l : Level) (pc : BitVec 55) (r : Resume) (bp wp : Bool) : Hart :=
  { h with level := l, pc := pc, resume := if r.pending then r else Resume.zero, waiting := .no, bpSkip := bp,
           wpSkip := wp }

/-- A trap into S (R184): slip keeps the deltas of the stop, which step 4 does not clear. -/
def State.enterS (s : State) (hid : Nat) (t : Trap) : State :=
  let h := (s.hart hid).noteBreak t
  let r := s.stopPoint hid t
  let lx := bit (h.mreg mAvl) 63
  let h' := (((h.setMreg mEpc (epcWord h.pc r)).setMreg mEcause t.word).setMreg mEtval
    (BitVec.ofNat 64 t.tval)).setMreg mEstat (estatEntry (h.mreg mEstat) h.level.code lx)
  let h' := (h'.setAside (BitVec.ofNat 64 r.slip) r.desc).clearLoop.setMreg mSlip (BitVec.ofNat 64 r.slip)
  s.setHart hid (h'.unwait.goTo .s (BitVec.ofNat 55 (bits (h.mreg mEvec) 54 2 * 4)))

/-- A trap into M (R184, R186): the loop context stays. -/
def State.enterM (s : State) (hid : Nat) (t : Trap) : State :=
  let h := (s.hart hid).noteBreak t
  let r := s.stopPoint hid t
  let h' := ((h.setMreg mKret (epcWord h.pc r)).setMreg mKwhy t.word).setMreg mKaddr (BitVec.ofNat 64 t.tval)
  let h' := (h'.setMreg mKstat (setBits (setBits (h.mreg mKstat) 3 2 h.level.code) 1 1 1)).setMreg mSlip
    (BitVec.ofNat 64 r.slip)
  s.setHart hid ((h'.unwait.setKres r).goTo .m (BitVec.ofNat 55 (bits (h.mreg mKentry) 54 2 * 4)))

/-- A loop context is one that hardware could have left (R188, R196). -/
def loopOk (avl strip vl : Word) : Bool :=
  !(bit avl 63 && (bits strip 47 0 ≥ bits avl 47 0 || bits vl 16 0 > bits avl 47 0 - bits strip 47 0)) &&
  bits vl 16 0 ≤ 32768

/-- The trap that a cause word records was a breakpoint (2) or watchpoint (3) of the instruction at pc (R206, R207). -/
def stopsAt (why : Word) (brkPc pc : BitVec 55) (sub : Nat) : Bool :=
  bits why 8 0 == Cause.brk.code && bits why 31 16 == sub && brkPc == pc

/-- The array that the hart's handler took is given up (R188). -/
def State.dropMown (s : State) (hid : Nat) : State :=
  let c := coreOf hid
  let mown := (s.core c).mown
  if bit mown 15 && bits mown 14 13 == 1 && bits mown 2 0 == hid % 8 then
    s.setCore c { s.core c with mown := setBits mown 15 15 0 }
  else s

/-- The return at S, after its check (R188); a restored estat.ppl above S counts as S, for no instruction at S raises the
level (R109; DEDUCED, log entry 96). -/
def State.leaveS (s : State) (hid : Nat) : State :=
  let h := s.hart hid
  let st := h.mreg mEstat
  let r := Resume.ofWords (h.mreg mEpc) (h.mreg mEslip) (h.mreg mEgrant)
  let h' := h.setMreg mEstat (setBits (setBits st 10 10 (bits st 11 11)) 15 15 0)
  let h' := ((((h'.setMreg mAvl (h.mreg mEavl)).setMreg mStrip (h.mreg mEstrip)).setMreg mVhead
    (h.mreg mEhead)).setMreg mVl (h.mreg mEvl)).setMreg mSlip (h.mreg mEslip)
  let pc := BitVec.ofNat 55 (bits (h.mreg mEpc) 54 0)
  (s.setHart hid (h'.comeBack (Level.ofCode (min 1 (bits st 13 12))) pc r
    (stopsAt (h.mreg mEcause) h.brkPc pc 2) (stopsAt (h.mreg mEcause) h.brkPc pc 3))).dropMown hid

/-- The return at M (R188). -/
def State.leaveM (s : State) (hid : Nat) : State :=
  let h := s.hart hid
  let st := h.mreg mKstat
  let r := { h.kres with sfx := bits (h.mreg mKret) 63 55, slip := bits (h.mreg mSlip) 15 0 }
  let h' := h.setMreg mKstat (setBits st 1 1 0)
  let pc := BitVec.ofNat 55 (bits (h.mreg mKret) 54 0)
  s.setHart hid (h'.comeBack (Level.ofCode (bits st 3 2)) pc r (stopsAt (h.mreg mKwhy) h.kbrkPc pc 2)
    (stopsAt (h.mreg mKwhy) h.kbrkPc pc 3))

end Sys2Proof.Machine
end

