-- ==== Sys2Proof/Machine/Backing.lean ====
section
/-!
DEFINITION. Memory images of saved state: a hart's backing area, a tile save area, and the transfers that the
Ringmaster makes (R57, R105, R192, R194 to R196, R346).
-/
namespace Sys2Proof.Machine

/-- Tags by code (R157). -/
def tagTable : List Tag :=
  [.z8, .z16, .z32, .z64, .s8, .s16, .s32, .s64, .s4, .f16, .bf16, .f32, .f64, .e5m2, .e4m3, .e3m2, .e2m3, .e2m1,
   .e4m3x, .e2m1x, .e8m0]

/-- The code of a tag (R157). -/
def tagCode (t : Tag) : Nat := tagTable.idxOf t

/-! Transfers. -/

/-- Translate an address and meet the frame's fate, for an agent that waits out every stall. -/
def reach (s : State) (w : Who) (va : Nat) (k : Acc) (store : Bool) : Except Trap (State × Phys) :=
  match translate s w va k store with
  | .fault _ t => .error t
  | .mig _ => .error (pageFault k va)
  | .ok s p =>
    if p.attr = .dev then .error (pageFault k va)
    else match fate s (w.core / 32) p store with
      | .fault .pagefault _ => .error (pageFault k va)
      | .fault c sub => .error { Trap.at0 c sub va with pa := p.pa }
      | _ => .ok (s, p)

/-- A transfer of hardware reaches n bytes of a page: copies of its frames give up their words (R36, R38).  Frames that
no cache holds are left as they are, and whole pages are written through to memory (DESIGN CHOICE, log entry 97). -/
def State.touchPage (s : State) (w : Who) (p : Phys) (n : Nat) (store : Bool) : State :=
  if p.attr.cached && s.cacheable p.key then
    let fs := ((s.coh.lines.map (·.frame)).filter fun f => decide (p.pa / 256 ≤ f) && decide (256 * f < p.pa + n)).eraseDups
    fs.foldl (fun s f => s.sliceAccess (w.core / 32) f 0 31 store .none w.slot) s
  else s

/-- Read n bytes at an address within one page, as the device sees them. -/
def reachRead (s : State) (w : Who) (va n : Nat) (k : Acc) : Except Trap (State × Nat) :=
  match reach s w va k false with
  | .error t => .error t
  | .ok (s, p) =>
    let (v, _, bad) := s.readValue (s.searchPath 2 0 0) p.key n
    if bad then .error { Trap.at0 .dataerr (s.eccSub p.key n) va with pa := p.pa } else .ok (s.touchPage w p n false, v)

/-- Write n bytes, at most 8, at an address within one page, straight to their home. -/
def reachWrite (s : State) (w : Who) (va n v : Nat) (k : Acc) : Except Trap State :=
  match reach s w va k true with
  | .error t => .error t
  | .ok (s, p) => .ok ((s.touchPage w p n true).writeHome p.key n v s.drv.nextId 1024)

/-- The listed bytes from lo up to hi, in canonical form. -/
def cellsIn (lo hi : Nat) : List Host.Cell → List Host.Cell
  | [] => []
  | c :: cs => if lo ≤ c.1 ∧ c.1 < hi ∧ c.2 ≠ 0 then c :: cellsIn (c.1 + 1) hi cs else cellsIn lo hi cs

/-- Replace the cells of a range by listed bytes of that range. -/
def replaceRange (m : List Host.Cell) (k n : Nat) (new : List Host.Cell) : List Host.Cell :=
  m.filter (fun c => decide (c.1 < k)) ++ cellsIn k (k + n) new ++ m.filter (fun c => decide (k + n ≤ c.1))

/-- The words of a range that a hart has read or waits for, which alone a write can wake (R270). -/
def State.watchedIn (s : State) (k n : Nat) : List Nat :=
  let read := s.mems.flatMap fun m => m.2.rlog.map (·.1)
  let wait := s.harts.filterMap fun h => match h.2.waiting with | .word (some a) _ _ => some (a / 8) | _ => none
  ((read ++ wait).filter fun w => decide (k < 8 * w + 8) && decide (8 * w < k + n)).eraseDups

/-- Hardware writes n bytes at k at their home. -/
def State.writeRange (s : State) (k n : Nat) (cells : List Host.Cell) (writer : Nat) : State :=
  { s with
    mem := replaceRange s.mem k n cells
    bad := s.bad.filter fun b => !(k ≤ b.loc && b.loc + b.size ≤ k + n)
    wlog := (s.watchedIn k n).foldl (fun w a => stampWord w a s.drv.nextId writer) s.wlog
    drv := { s.drv with nextId := s.drv.nextId + 1 } }

/-- Write the bytes of an image that fall in pages i to i + n - 1 of the area at va: the first size j bytes of page j.  An
error leaves the pages before it written. -/
def savePages (s : State) (w : Who) (k : Acc) (va : Nat) (image : SMap Byte) (size : Nat → Nat) :
    Nat → Nat → Except (Trap × State) State
  | 0, _ => .ok s
  | n + 1, i =>
    if size i = 0 then savePages s w k va image size n (i + 1)
    else match reach s w (va + 4096 * i) k true with
    | .error t => .error (t, s)
    | .ok (s, p) =>
      let part := image.filter fun b => 4096 * i ≤ b.1 && b.1 < 4096 * i + size i
      let part := part.map fun b => (p.key + (b.1 - 4096 * i), b.2)
      let s := (s.touchPage w p (size i) true).writeRange p.key (size i) part 1024
      savePages s w k va image size n (i + 1)

/-- Bytes of entries on their way, over an image of n bytes at k: the first of the list are the oldest. -/
def overlay (l : List WEntry) (k n : Nat) (m : List Host.Cell) : List Host.Cell :=
  (l.filter fun e => e.overlaps k n).foldl (fun m e => memWrite m e.loc e.n e.val.toNat) m

/-- Read the first size bytes of pages i to i + n - 1 of the area at va, under the entries of the places that the
reader's path passes (R107, R132). -/
def loadPages (s : State) (w : Who) (k : Acc) (places : List (List WEntry)) (va size : Nat) :
    Nat → Nat → SMap Byte → Except Trap (State × SMap Byte)
  | 0, _, image => .ok (s, image)
  | n + 1, i, image =>
    match reach s w (va + 4096 * i) k false with
    | .error t => .error t
    | .ok (s, p) =>
      let len := min 4096 (size - 4096 * i)
      if len != 0 && s.isBad p.key len then
        .error { Trap.at0 .dataerr (s.eccSub p.key len) (va + 4096 * i) with pa := p.pa }
      else
        let part := s.mem.filter fun b => p.key ≤ b.1 && b.1 < p.key + len
        let part := (overlay places.reverse.flatten p.key len part).filter fun b => p.key ≤ b.1 && b.1 < p.key + len
        loadPages (s.touchPage w p len false) w k places va size n (i + 1)
          (image ++ part.map fun b => (b.1 - p.key + 4096 * i, b.2))

/-! Images. -/

/-- n bytes of an image as a number, and an image with n bytes replaced. -/
def imgGet (m : SMap Byte) (off n : Nat) : Nat := ofBytes ((List.range n).map fun j => SMap.get 0 m (off + j))
def imgSet (m : SMap Byte) (off : Nat) : Nat → Nat → SMap Byte
  | 0, _ => m
  | n + 1, v => SMap.set 0 (imgSet m off n v) (off + n) (byteOf v n)

/-- The layout that `msave` writes (R346). -/
def Core.tileImage (k : Core) : SMap Byte :=
  let words := k.acc.flatMap fun (i, w) =>
    ((List.range 4).map fun j => (4 * i + j, byteOf w.toNat j)).filter fun b => b.2 != 0
  let tail := imgSet [] 0x40000 8 k.mcfg.toNat
  let tail := imgSet tail 0x40008 8 k.mscale.toNat
  words ++ imgSet tail 0x40010 8 (k.mT.toNat + if k.mvalid then 2 ^ 32 else 0)

/-- The array of a saved layout. -/
def accOf (m : SMap Byte) : SMap (BitVec 32) :=
  ((m.filter fun b => b.1 < 0x40000).map fun b => b.1 / 4).eraseDups.map fun i =>
    (i, BitVec.ofNat 32 (imgGet m (4 * i) 4))

/-- The reserved bits of a saved configuration are zero (R346). -/
def tileImageOk (m : SMap Byte) : Bool :=
  let c := BitVec.ofNat 64 (imgGet m 0x40000 8)
  bits c 31 24 == 0 && bits c 7 0 == 0 && imgGet m 0x40010 8 / 2 ^ 33 == 0

/-- The array and the configuration take a saved layout. -/
def Core.fromTileImage (k : Core) (m : SMap Byte) : Core :=
  { k with acc := accOf m, mcfg := BitVec.ofNat 64 (imgGet m 0x40000 8),
           mscale := BitVec.ofNat 64 (imgGet m 0x40008 8), mT := BitVec.ofNat 32 (imgGet m 0x40010 4),
           mvalid := imgGet m 0x40014 1 % 2 == 1 }

/-- The half of a tile save area that a level uses (R192). -/
def msaHalf (msa : Word) (l : Level) : Nat := bits msa 54 12 * 4096 + if l = .s then 0x41000 else 0

/-- The S registers in the order of R195. -/
def savedSRegs : List Nat :=
  [mEstat, mEpc, mEcause, mEtval, mEvec, mEscratch, mEavl, mEstrip, mEhead, mEvl, mEslip, mEgrant]

/-- The image of a hart's backing area (R105, R195); live names the levels whose tiles are live in msa. -/
def State.hartImage (s : State) (hid live : Nat) : SMap Byte :=
  let h := s.hart hid
  let r := if h.resume.pending then h.resume else s.resumeNow hid 0 0
  let put (m : SMap Byte) (off : Nat) (w : Word) := imgSet m off 8 w.toNat
  let ones : SMap Byte := (List.range 0x1000).map fun i => (0x80000 + i, 0xFF)
  let preds : SMap Byte := h.p.foldl (fun m b =>
    let o := 0x80000 + b.1 / 8
    SMap.set 0 m o (SMap.get 0 m o ||| BitVec.ofNat 8 (2 ^ (b.1 % 8)))) []
  let m := (List.range 32).foldl (fun m n =>
    SMap.set 0 m (0x90000 + n) (BitVec.ofNat 8 (tagCode (SMap.get .s32 h.tag n)))) preds
  let m := h.x.foldl (fun m e => put m (0xA0000 + 8 * e.1) e.2) m
  let m := put m 0xA0100 (epcWord h.pc r)
  let m := imgSet m 0xA0108 8 h.level.code
  let m := put m 0xA0110 (h.mreg mVl)
  let m := put m 0xA0118 (h.mreg mAvl)
  let m := put m 0xA0120 (h.mreg mStrip)
  let m := put m 0xA0128 (h.mreg mVhead)
  let m := imgSet m 0xA0130 8 r.slip
  let m := put m 0xA0138 r.desc
  let m := put m 0xA0140 (h.mreg mFctl)
  let m := put m 0xA0148 (h.mreg mFflags)
  let m := put m 0xA0150 (setBits (h.mreg mPowcap) 19 16 (s.cap (dieOf hid)))
  let m := match h.deferred with
    | [] => m
    | (w, v) :: _ => put (put m 0xA0158 w) 0xA0160 v
  let m := imgSet m 0xA0168 8 Cause.preempt.code
  let m := imgSet m 0xA0170 8 (h.deferred.length - 1)
  let m := (savedSRegs.zipIdx).foldl (fun m e => put m (0xA0200 + 8 * e.2) (h.mreg e.1)) m
  let m := imgSet m 0xA0300 8 live
  let m := ((h.deferred.drop 1).zipIdx).foldl (fun m e =>
    put (put m (0xA1000 + 16 * e.2) e.1.1) (0xA1008 + 16 * e.2) e.1.2) m
  h.v ++ ones ++ m

/-- The bytes of page i of a hart's backing area that a save writes: the granted-lane bytes of a resident register that is
dirty, nothing of any other register, and the whole of the pages behind them (R105, R106, R194). -/
def Hart.savePage (h : Hart) (L i : Nat) : Nat :=
  let n := i / 4
  let size := h.frameBytes n L
  if 128 ≤ i then 4096
  else if (h.spilled.any fun r => r.1 == n) || (h.clean.any fun r => r.1 == n && decide (size ≤ r.2)) then 0
  else min 4096 (size - 4096 * (i % 4))

/-- The bytes of each register's image that the area holds after a save. -/
def Hart.validBytes (h : Hart) (L : Nat) : List (Nat × Nat) :=
  (List.range 32).map fun n => match h.spilled.find? fun r => r.1 == n with
    | some r => r
    | none => (n, h.frameBytes n L)

/-- A deferred fault as it was saved. -/
def savedDeferred (m : SMap Byte) : List (Word × Word) :=
  let w (off : Nat) : Word := BitVec.ofNat 64 (imgGet m off 8)
  if w 0xA0158 = 0 then []
  else (w 0xA0158, w 0xA0160) ::
    (List.range (min 1024 (imgGet m 0xA0170 8))).map fun k => (w (0xA1000 + 16 * k), w (0xA1008 + 16 * k))

/-- Whether every saved tag code names a tag (R196). -/
def savedTagsOk (m : SMap Byte) : Bool := (List.range 32).all fun n => imgGet m (0x90000 + n) 1 % 32 < 21

/-- The tags of a saved area: a reserved code is z8 (R196). -/
def savedTags (m : SMap Byte) : SMap Tag :=
  (List.range 32).foldl (fun t n => SMap.set .s32 t n (tagTable.getD (imgGet m (0x90000 + n) 1 % 32) .z8)) []

/-- The predicate bits of a saved area; p0 is always 1 and not listed. -/
def savedPreds (m : SMap Byte) : SMap Bool :=
  (m.filter fun b => 0x81000 ≤ b.1 && b.1 < 0x90000).flatMap fun b =>
    ((List.range 8).filter fun j => b.2.toNat.testBit j).map fun j => (8 * (b.1 - 0x80000) + j, true)

/-- The hart that a saved area describes (R196); its registers hold what the area holds of them. -/
def Hart.fromImage (h : Hart) (m : SMap Byte) (kept : Kept) : Hart :=
  let valid (n : Nat) : Nat := ((kept.valid.find? fun r => r.1 == n).map (·.2)).getD 0x4000
  let w (off : Nat) : Word := BitVec.ofNat 64 (imgGet m off 8)
  let x : SMap Word := (List.range 31).foldl (fun x k =>
    SMap.set 0 x (k + 1) (w (0xA0000 + 8 * (k + 1)))) []
  let regs := [(mVl, w 0xA0110), (mAvl, w 0xA0118), (mStrip, w 0xA0120), (mVhead, w 0xA0128),
    (mSlip, w 0xA0130), (mFctl, w 0xA0140), (mFflags, w 0xA0148), (mPowcap, w 0xA0150)] ++ (savedSRegs.zipIdx).map fun e => (e.1, w (0xA0200 + 8 * e.2))
  let h := regs.foldl (fun h e => h.setMreg e.1 (e.2 &&& mregMask e.1)) h
  let r := Resume.ofWords (w 0xA0100) (w 0xA0130) (w 0xA0138)
  { h with x, v := m.filter fun b => b.1 < 0x80000 && decide (b.1 % 0x4000 < valid (b.1 / 0x4000)), tag := savedTags m, p := savedPreds m,
           pc := BitVec.ofNat 55 (bits (w 0xA0100) 54 1 * 2),
           level := if bits (w 0xA0108) 1 0 = 0 then .u else .s,
           brkPc := BitVec.ofNat 55 (bits (w 0xA0208) 54 0)
           resume := if r.pending then r else Resume.zero, deferred := savedDeferred m,
           bpSkip := kept.bp, wpSkip := kept.wp, brkAll := kept.all
           clean := (List.range 32).map fun n => (n, valid n) }

end Sys2Proof.Machine
end

