-- ==== Sys2Proof/Machine/Turn.lean ====
section
/-!
DEFINITION. The Turnstile: handles, slots, allocation queues and pending tables (R365 to R375).
-/
namespace Sys2Proof.Machine

/-- A handle (R366). -/
structure Handle where
  gen : Nat
  die : Nat
  part : Nat
  slot : Nat
deriving DecidableEq, Repr

def Handle.code (h : Handle) : Nat := h.gen % 2 ^ 14 * 2 ^ 18 + h.die * 2 ^ 16 + h.part * 2 ^ 11 + h.slot
def Handle.ofCode (v : Nat) : Handle :=
  { gen := v / 2 ^ 18 % 2 ^ 14, die := v / 2 ^ 16 % 4, part := v / 2 ^ 11 % 32, slot := v % 2 ^ 11 }

def Handle.key (h : Handle) : Nat := 65536 * h.die + 2048 * h.part + h.slot

/-- A slot, and a partition's register word. -/
def State.tslot (s : State) (k : Nat) : TsSlot := SMap.get TsSlot.reset s.ts.slots k
def State.setTslot (s : State) (k : Nat) (t : TsSlot) : State :=
  { s with ts := { s.ts with slots := SMap.set TsSlot.reset s.ts.slots k t } }
def State.tspart (s : State) (q p : Nat) : Word := s.hreg (oTspart q p)

def partOn (w : Word) : Bool := bit w 63
def partSlot (w : Word) : Nat := bits w 62 57
def partBase (w : Word) : Nat := bits w 56 40 * 1024
def partSize (w : Word) : Nat := 2 ^ bits w 39 37 * 1024
def partCount (w : Word) : Nat := bits w 36 24
def partSeq (w : Word) : Nat := bits w 23 0

/-- The size of a die's carve-out (R122, R365). -/
def State.carve (s : State) (q : Nat) : Nat := s.slices q * 32768 * pinnedWays (s.hreg (oTsctl q))

/-- The location of a byte of a slot (R365). -/
def State.tileKey (s : State) (h : Handle) (off : Nat) : Nat :=
  let w := s.tspart h.die h.part
  tsKey h.die (partBase w + h.slot * partSize w + off)

/-- Sequences compare modulo 2^24 within a window of 2^23 (R373). -/
def seqLe (a b : Nat) : Bool := (b + 2 ^ 24 - a) % 2 ^ 24 < 2 ^ 23

/-- The slots of a partition that hold a state, ascending. -/
def State.partSlots (s : State) (q p : Nat) (f : TsSlot → Bool) : List Nat :=
  (List.range (partCount (s.tspart q p))).filter fun i => f (s.tslot (65536 * q + 2048 * p + i))

/-- Waiting harts of a partition. -/
def State.tsWaiters (s : State) (q p : Nat) : List (Nat × Nat) := SMap.get [] s.ts.waiters (32 * q + p)
def State.setTsWaiters (s : State) (q p : Nat) (l : List (Nat × Nat)) : State :=
  { s with ts := { s.ts with waiters := SMap.set [] s.ts.waiters (32 * q + p) l } }

/-- Every slot of a partition is ALLOC with a task as owner (R368). -/
def State.allOwned (s : State) (q p task : Nat) : Bool :=
  (s.partSlots q p fun t => !(t.st == .alloc && t.owner == task)).isEmpty

/-- A slot has changed state: a waiter that has become deadlocked leaves the queue, and takes TDEADLOCK at its `talloc`
(R368). -/
def State.markDead (s : State) (q p : Nat) : State :=
  let dead := (s.tsWaiters q p).filter fun e => s.allOwned q p ((s.hart e.1).task.getD 0)
  if dead.isEmpty then s
  else
    let s := s.setTsWaiters q p ((s.tsWaiters q p).filter fun e => !dead.contains e)
    { s with ts := { s.ts with dead := s.ts.dead ++ dead.map (·.1) } }

/-- A slot is granted to a hart's task (R367, R368). -/
def State.grantSlot (s : State) (hid : Nat) (h : Handle) (joined : Nat) : State :=
  let task := (s.hart hid).task.getD 0
  let w := s.clk - joined
  let s := s.setTslot h.key { s.tslot h.key with st := .alloc, gen := h.gen, owner := task, reads := 0, dropped := 0 }
  let s := s.markDead h.die h.part
  s.traceRec h.die 8 (some hid) (some task) (h.code + min 0xFFFF (w / Config.clkPerUs) * 2 ^ 32)

/-- A FREE slot goes to the head waiter of its partition (R368). -/
def State.serveWaiter (s : State) (q p : Nat) : State :=
  match s.tsWaiters q p, s.partSlots q p (fun t => t.st == .free) with
  | (hid, joined) :: rest, i :: _ =>
    let h : Handle := { gen := (s.tslot (65536 * q + 2048 * p + i)).gen, die := q, part := p, slot := i }
    let s := (s.setTsWaiters q p rest).grantSlot hid h joined
    { s with ts := { s.ts with grants := s.ts.grants ++ [(hid, h.code)] } }
  | _, _ => s

/-- At the end of a clk the slots that are FREE go to the waiting harts, after those that joined in it (R375). -/
def State.serveAll (s : State) : State :=
  s.ts.waiters.foldl (fun s w =>
    w.2.foldl (fun s _ => s.serveWaiter (w.1 / 32) (w.1 % 32)) s) s

/-- A slot becomes FREE at its next generation (R367). -/
def State.freeSlot (s : State) (h : Handle) : State :=
  let t := s.tslot h.key
  let s := if t.st = .published then
      s.traceAs h.die 9 (partSlot (s.tspart h.die h.part)) 0 0
        ({ h with gen := t.gen }.code + min 0xFFFF t.dropped * 2 ^ 32)
    else s
  s.setTslot h.key { t with st := .free, gen := (t.gen + 1) % 2 ^ 14, owner := 0, reads := 0, dropped := 0,
                            freed := s.clk + 1 }

/-- One read of a published slot is taken, or dropped (R367). -/
def State.takeRead (s : State) (h : Handle) (drop : Bool) : State :=
  let t := s.tslot h.key
  let t := if drop then { t with reads := t.reads - 1, dropped := t.dropped + 1 } else { t with reads := t.reads - 1 }
  let s := s.setTslot h.key t
  if t.reads = 0 then s.freeSlot h else s

/-- A hart leaves every Turnstile queue (R368). -/
def State.leaveTurnstile (s : State) (hid : Nat) : State :=
  { s with ts := { s.ts with
      dead := s.ts.dead.filter (· != hid)
      waiters := (s.ts.waiters.map fun w => (w.1, w.2.filter fun e => e.1 != hid)).filter fun w => !w.2.isEmpty } }

/-- The pending table of a partition. -/
def State.tsPend (s : State) (q p : Nat) : List (Nat × Nat) := SMap.get [] s.ts.pend (32 * q + p)
def State.setTsPend (s : State) (q p : Nat) (l : List (Nat × Nat)) : State :=
  { s with ts := { s.ts with pend := SMap.set [] s.ts.pend (32 * q + p) l } }

/-- Add one abandoned read up to a last sequence; none when the table is full (R374). -/
def State.addPend (s : State) (q p last : Nat) : Option State :=
  let l := s.tsPend q p
  if l.any fun e => e.1 == last then
    some (s.setTsPend q p (l.map fun e => if e.1 = last then (e.1, e.2 + 1) else e))
  else if l.length < 16 then some (s.setTsPend q p (l ++ [(last, 1)]))
  else none

/-- Publish a slot with r reads at the partition's next sequence, less the pending drops (R367, R374). -/
def State.publish (s : State) (h : Handle) (r : Nat) (slot : Option Nat) : State :=
  let w := s.tspart h.die h.part
  let q := partSeq w
  let pend := s.tsPend h.die h.part
  let d := (pend.filter fun e => seqLe q e.1).foldl (fun a e => a + e.2) 0
  let s := s.setTsPend h.die h.part (pend.filter fun e => !seqLe e.1 q)
  let s := match slot with | some n => s.count n 20 (min d r) | none => s
  let s := s.setHreg (oTspart h.die h.part) (setBits w 23 0 (q + 1))
  let t := s.tslot h.key
  if d < r then s.setTslot h.key { t with st := .published, reads := r - d, seq := q, dropped := d }
  else s.freeSlot h

end Sys2Proof.Machine
end

