-- ==== Sys2Proof/Machine/Tasks.lean ====
section
/-!
DEFINITION. The Ringmaster: arming, counters, ready queues, completion, kill, placement, pre-emption and the
transfers of saved state (R57, R66 to R78, R86, R88, R116, R194 to R196, R374).
-/
namespace Sys2Proof.Machine

/-! Cores and engines. -/

/-- An active core (R75, R23). -/
def State.active (s : State) (c : Nat) : Bool := c < 128 && !(s.core c).removed

/-- The core and offset that an engine address names, for a copy issued on a core (R323). -/
def engSpad (issuing addr : Nat) : Option (Nat × Nat) :=
  if winBase ≤ addr ∧ addr < winBase + 2 ^ 20 then some (issuing, addr - winBase)
  else if 0x7FFFFF00000000 ≤ addr ∧ addr < 0x7FFFFF00000000 + 128 * 2 ^ 20 then
    some ((addr - 0x7FFFFF00000000) / 2 ^ 20, (addr - 0x7FFFFF00000000) % 2 ^ 20)
  else none

/-- Copies under way, with their queues (R123). -/
def State.copies (s : State) : List (Nat × Copy) := s.eng.flatMap fun q => q.2.map fun c => (q.1, c)

/-- Copies with an endpoint in a hart's registers hold its grant (R325). -/
def State.regCopies (s : State) (hid : Nat) : Bool :=
  let h := s.hart hid
  s.copies.any fun e =>
    (e.2.hid == hid && (e.2.kind == .cpyr || e.2.kind == .cpyw || e.2.kind == .cpyx)) ||
    (e.2.kind == .cpyx && h.task == some e.2.task && h.member == e.2.n)

/-- The address of the arrival word that a designator names (R324). -/
def arrivalOf (des : Word) : Option Nat := if bits des 63 62 = 2 then some (bits des 54 0) else none

/-- A copy is a transfer to or from core c's scratchpad (R116); a designator's arrival word counts. -/
def Copy.names (e : Copy) (c : Nat) : Bool :=
  let at_ (a : Nat) := match engSpad e.core a with | some (k, _) => k == c | none => false
  at_ e.dst || at_ e.src || (match arrivalOf e.des with | some a => at_ a | none => false)

/-- The cores whose scratchpads a copy names. -/
def Copy.spads (e : Copy) : List Nat :=
  ((e.dst :: e.src :: (arrivalOf e.des).toList).filterMap fun a => (engSpad e.core a).map (·.1)).eraseDups

/-- A copy is no longer pending: from now on, no transfer of it keeps its scratchpads in use (R126). -/
def State.leftSpads (s : State) (e : Copy) : State :=
  e.spads.foldl (fun s k => s.setCore k { s.core k with emptySince := s.clk }) s

/-- A transfer of another context to or from the scratchpad is pending (R116). -/
def State.spadBusy (s : State) (c slot : Nat) : Bool :=
  s.copies.any fun e => slotOf e.2.task != slot && e.2.names c

/-- The number that stands for a member's hart while it has no slot, and the number of a hart that has ended:
both are 1,024 or more, and a multiple of 1,024 above the place they had. -/
def parkHid (task member : Nat) : Nat := 1024 * (2 * (16 * task + member) + 1)
def ghostHid (fresh slot hid : Nat) : Nat := 1024 * (2 * (64 * (fresh + 1) + slot)) + hid % 1024
/-- The context slot of a hart number. -/
def State.slotOfHid (s : State) (hid : Nat) : Option Nat :=
  let k := hid / 1024
  if k = 0 then (s.hart hid).slot else some (if k % 2 = 1 then slotOf (k / 32) else k / 2 % 64)

/-- Writes, reads and copies of a hart take another number. -/
def State.renameHid (s : State) (old new : Nat) : State :=
  let re (e : WEntry) : WEntry := if e.hid = old then { e with hid := new } else e
  { s with
    mems := s.mems.map fun m => (m.1, { m.2 with seen := m.2.seen.map fun i => if i = old then new else i })
    wlog := s.wlog.map fun e => if e.2.2.1 = old then (e.1, e.2.1, new, e.2.2.2) else e
    coreQ := s.coreQ.map fun q => (q.1, q.2.map re)
    devQ := s.devQ.map re
    fabQ := s.fabQ.map re
    unacked := s.unacked.map re
    pool := { s.pool with quar := s.pool.quar.map fun q => { q with entry := re q.entry } }
    eng := s.eng.map fun q => (q.1, q.2.map fun c => if c.hid = old then { c with hid := new } else c)
    xlat := { s.xlat with xinv := s.xlat.xinv.map fun x => if x.hid = old then { x with hid := new } else x } }

/-- The part of a hart's ordering state that stays with a member without a slot: what its reads returned, its fences and
publishes, the order of its `.oe` instructions, and the latest reads of its words (R136, R138, R140, R270, R370). -/
def Mem.parked (m : Mem) : Mem :=
  { Mem.reset with fences := m.fences, obs := m.obs, seen := m.seen, rlog := m.rlog, oe := m.oe, posts := m.posts }

/-! Hart slots. -/

/-- The monitor's registers stay with the slot (R78). -/
def Hart.vacant (h : Hart) : Hart := { Hart.reset with mr := h.mr.filter fun e => 0x201 ≤ e.1 }

/-- The slots of a core in which a hart is placed. -/
def State.placedOn (s : State) (c : Nat) : List Nat :=
  ((List.range 8).map (8 * c + ·)).filter fun h => (s.hart h).task.isSome

/-- mown names this hart, at either level (R192). -/
def State.ownsTiles (s : State) (hid : Nat) : Bool :=
  let m := (s.core (coreOf hid)).mown
  bit m 15 && bits m 2 0 == hid % 8

/-- mown.v = 0, the tiles being discarded or saved (R71, R194, R356). -/
def State.dropTiles (s : State) (hid : Nat) : State :=
  if s.ownsTiles hid then
    let c := coreOf hid
    s.setCore c { s.core c with mown := setBits (s.core c).mown 15 15 0 }
  else s

/-- A hart leaves its slot: lanes, tiles and queues are given up (R81, R86, R356). -/
def State.vacate (s : State) (hid : Nat) : State :=
  let s := ((s.releaseLanes hid).dropTiles hid).leaveTurnstile hid
  let s := { s with
    ts := { s.ts with grants := s.ts.grants.filter fun g => g.1 != hid }
    xlat := { s.xlat with xinv := s.xlat.xinv.filter fun x => x.hid != hid }
    mems := s.mems.del hid }
  let s := s.setHart hid (s.hart hid).vacant
  let d := s.hreg oDbghart
  let s := if bit d 63 && bits d 9 0 == hid then s.setHreg oDbghart (setBits d 63 63 0) else s
  let c := coreOf hid
  let s := (s.renew (regKey hid 0) (2 ^ 19)).setCore c { s.core c with frames := (s.core c).frames.filter fun f => f.1 != hid }
  if (s.placedOn c).isEmpty then s.setCore c { s.core c with emptySince := s.clk } else s

/-- A hart of a root task ends under a number of its own.  The FENCE of its queue covers its writes and copies, the writes
that it read, and those on their way of harts of its context that it read from: it waited for them (R53; DEDUCED, log entry
20). -/
def State.noteLaunch (s : State) (key ended : Nat) (m : Mem) : State :=
  let waited := (s.flight.filter fun e => m.seen.contains e.hid && s.slotOfHid e.hid == some (slotOf key)).map (·.id)
  let add (q : Nat × LQueue) : Nat × LQueue :=
    if q.1 = slotOf key ∧ q.2.out.contains key then
      (q.1, { q.2 with obs := (q.2.obs ++ m.obs ++ waited).eraseDups, ended := q.2.ended ++ [ended] })
    else q
  { s with hub := { s.hub with lq := s.hub.lq.map add } }

/-- The copies of a killed hart with a register endpoint are discarded (R325). -/
def State.dropRegCopies (s : State) (hid : Nat) : State :=
  let gone (c : Copy) : Bool := c.hid == hid && c.kind != .cpy
  let t := (s.copies.filter fun e => gone e.2).foldl (fun s e => s.leftSpads e.2) s
  { t with eng := (t.eng.map fun q => (q.1, q.2.filter fun c => !gone c)).filter fun q => !q.2.isEmpty }

/-- What remains of a hart that ends: its stores drain under a number of their own, and the accesses of its
bag are discarded (R149); its copies with a register endpoint are discarded, if it was killed (R325). -/
def State.retireHart (s : State) (hid : Nat) (killed : Bool) : State :=
  let m := s.hmem hid
  let key := (s.hart hid).task.getD 0
  let ghost := ghostHid s.drv.nextId (slotOf key) hid
  let s := (s.noteLaunch key ghost m).bump
  let s := if killed then s.dropRegCopies hid else s
  let s := s.renameHid hid ghost
  let s := { s with xlat := { s.xlat with xinv := s.xlat.xinv.filter fun x => x.hid != ghost } }
  let s := s.vacate hid
  if m.sb.isEmpty then s
  else s.setHmem ghost { Mem.reset with sb := m.sb.map fun e => { e with hid := ghost }, fences := m.fences }

/-! Descriptors and queues (R66 to R72). -/

/-- Active cores of a die. -/
def State.activeOn (s : State) (q : Nat) : Nat :=
  ((List.range 32).filter fun i => s.active (32 * q + i)).length

/-- A task record that a descriptor arms (R66). -/
def Task.ofWords (w : List Word) : Task :=
  let t := { Task.reset with w0 := w.getD 0 0, w1 := w.getD 1 0, w2 := w.getD 2 0, w3 := w.getD 3 0,
                             w4 := w.getD 4 0, w5 := w.getD 5 0 }
  { t with cnt := bits t.w2 31 16, members := List.replicate t.gsz .fresh, units := List.replicate t.gsz none,
           barE := t.gsz }

/-- A descriptor is not rejected (R67). -/
def State.descOk (s : State) (w : List Word) : Bool :=
  let t := Task.ofWords w
  bits t.w0 63 55 == 0 && !bit t.w0 0 && bits t.w1 63 55 == 0 && bits t.w2 63 35 == 0 && bits t.w2 33 32 != 3 &&
  t.lreq ≤ 8 &&
  ((List.range 4).any fun q => t.dmask.testBit q && t.gsz ≤ s.activeOn q) &&
  bits t.w3 63 55 == 0 && (bits t.w5 15 0 == 0 || !bit t.w3 0) &&
  bits t.w4 63 55 == 0 && (bits t.w5 31 16 == 0 || t.w4 != 0) && bits t.w5 63 32 == 0 &&
  w.getD 6 0 == 0 && w.getD 7 0 == 0

/-- The first die of a mask in cyclic order from one (R72). -/
def firstDie (mask start : Nat) : Nat :=
  (((List.range 4).map fun k => (start + k) % 4).find? fun q => mask.testBit q).getD 0

def State.dequeOf (s : State) (c n : Nat) : List Word := SMap.get [] s.ring.deque (8 * c + n)
/-- The rank of a thief of core v among those that reach a deque in one clk: the owner, of rank 0, goes first, then thieves
in ascending order of their core, the owner's core among them (R73, R362). -/
def thiefRank (v : Nat) : Nat := 1 + v
/-- An operation of that rank may take effect now: none of a later rank has in this clk (R73, R354, R359, R360). -/
def State.inTurn (s : State) (k rank : Nat) : Bool :=
  let l := SMap.get (0, 0) s.ring.turns k
  decide (l.1 < s.clk) || (l.1 == s.clk && decide (l.2 ≤ rank))
def State.noteTurn (s : State) (k rank : Nat) : State :=
  { s with ring := { s.ring with turns := SMap.set (0, 0) s.ring.turns k (s.clk, rank) } }
def State.dequeTurn (s : State) (c n rank : Nat) : Bool := s.inTurn (8 * c + n) rank
def State.noteDeque (s : State) (c n rank : Nat) : State := s.noteTurn (8 * c + n) rank
/-- The Ringmaster's push to deque 0 stands in the owner's turn: in this clk, or in the next one where a thief has gone
before it (R72, R73). -/
def State.notePush (s : State) (c : Nat) : State :=
  if s.dequeTurn c 0 0 then s.noteDeque c 0 0
  else { s with ring := { s.ring with turns := SMap.set (0, 0) s.ring.turns (8 * c) (s.clk + 1, 0) } }

/-- What else takes effect in an order within one clk: arrivals at a barrier register and writes of it, by member (R359,
R360), and the arming of a task, by hart slot and LAUNCH packets last (R354). -/
def barTurn (n : Nat) : Nat := 1024 + n
def barSetTurn (n : Nat) : Nat := 2048 + n
def armTurn (key : Nat) : Nat := 2 ^ 22 + key
def launchRank : Nat := 1024
def State.setDeque (s : State) (c n : Nat) (l : List Word) : State :=
  { s with ring := { s.ring with deque := SMap.set [] s.ring.deque (8 * c + n) l } }
def State.readyQ (s : State) (q prio : Nat) : List Nat := SMap.get [] s.ring.ready (8 * q + prio)
def State.setReadyQ (s : State) (q prio : Nat) (l : List Nat) : State :=
  { s with ring := { s.ring with ready := SMap.set [] s.ring.ready (8 * q + prio) l } }

/-- A task enters READY (R72); src is the core of the decrement or arming, none for a host's, a LAUNCH's and
pre-emption's. -/
def State.becomeReady (s : State) (key : Nat) (src : Option Nat) : State :=
  let t := { s.task key with st := .ready, readyAt := s.clk }
  let s := s.setTask key t
  match src with
  | some c =>
    if t.gsz = 1 ∧ t.dmask.testBit (c / 32) ∧ (s.dequeOf c 0).length < 256 then
      let s := (s.notePush c).setDeque c 0 (BitVec.ofNat 64 key :: s.dequeOf c 0)
      s.traceRec (c / 32) 5 none (some key) (t.prio + 8)
    else
      let q := firstDie t.dmask (c / 32)
      (s.setReadyQ q t.prio (s.readyQ q t.prio ++ [key])).traceRec q 5 none (some key) t.prio
  | none =>
    let q := firstDie t.dmask 0
    (s.setReadyQ q t.prio (s.readyQ q t.prio ++ [key])).traceRec q 5 none (some key) t.prio

/-- A task returns to READY at the tail of a queue of the die on which it ran (R24). -/
def State.readyOn (s : State) (key q : Nat) : State :=
  let t := { s.task key with st := .ready, readyAt := s.clk }
  let s := s.setTask key t
  (s.setReadyQ q t.prio (s.readyQ q t.prio ++ [key])).traceRec q 5 none (some key) t.prio

/-- Arm a task that is EMPTY (R69). -/
def State.arm (s : State) (key : Nat) (w : List Word) (src : Option Nat) : State :=
  let t := Task.ofWords w
  if t.cnt = 0 then (s.setTask key { t with st := .ready }).becomeReady key src
  else s.setTask key { t with st := .waiting }

/-- Decrement a counter (R70). -/
def State.decrement (s : State) (key amount : Nat) (src : Option Nat) : State :=
  let t := s.task key
  if t.st = .waiting then
    let s := if t.cnt < amount then s.count (slotOf key) 17 (amount - t.cnt) else s
    let s := s.setTask key { t with cnt := t.cnt - amount, byCore := src }
    if t.cnt ≤ amount then s.becomeReady key src else s
  else s.count (slotOf key) 18 amount

/-- Take a task out of every queue. -/
def State.unqueue (s : State) (key : Nat) : State :=
  { s with ring := { s.ring with
      ready := (s.ring.ready.map fun q => (q.1, q.2.filter fun k => k != key)).filter fun q => !q.2.isEmpty
      deque := (s.ring.deque.map fun d =>
        if d.1 % 8 = 0 then (d.1, d.2.filter fun k => k.toNat != key) else d).filter fun d => !d.2.isEmpty
      reserving := s.ring.reserving.filter fun r => r.2 != some key } }

/-- min(15, prio + floor(w / agep)) (R88). -/
def State.effPrio (s : State) (key : Nat) : Nat :=
  let t := s.task key
  let agep := max 1 (bits (s.hreg oRmctl) 39 24) * Config.clkPerUs
  min 15 (t.prio + (s.clk - t.readyAt) / agep)

/-! The Ringmaster's own reads and writes in a context (R71, R373, R374). -/

/-- It reads and writes at U in the slot's address space (R55). -/
def ringWho (s : State) (slot die : Nat) : Who :=
  let c := s.hreg (oCtxst slot)
  { core := 32 * die, level := .u, asid := bits c 11 0, ptbase := bits c 51 12 * 4096, slot := some slot }

def ringRead (s : State) (slot die va n : Nat) : Except Trap (State × Nat) :=
  if va ≥ winBase then .error (pageFault .load va) else reachRead s (ringWho s slot die) va n .load

def ringWrite (s : State) (slot die va n v : Nat) : Except Trap State :=
  if va ≥ winBase then .error (pageFault .store va) else reachWrite s (ringWho s slot die) va n v .store

/-- A report about a task, and about the hart of a member. -/
def State.reportOf (s : State) (key : Nat) (t : Trap) (hid : Option Nat) : State :=
  s.report t.cause.code t.sub 0 t.pa t.tval hid (some key)
def State.reportTask (s : State) (key : Nat) (t : Trap) : State := s.reportOf key t none

/-! Completion (R71, R374). -/

/-- Decrement the successors from entry i on, n of them (R71). -/
def State.signalSuccs (s : State) (key : Nat) (src : Option Nat) : Nat → Nat → State
  | 0, _ => s
  | n + 1, i =>
    let t := s.task key
    match ringRead s (slotOf key) t.die (bits t.w3 54 0 + 2 * i) 2 with
    | .error tr => s.reportTask key tr
    | .ok (s, id) => (s.decrement (65536 * slotOf key + id) 1 src).signalSuccs key src n (i + 1)

/-- The published tiles of a partition with sequence from a to b, as handles, in ascending sequence. -/
def State.tilesIn (s : State) (q p a b : Nat) : List Handle :=
  let l := (s.partSlots q p fun t => t.st == .published && seqLe a t.seq && seqLe t.seq b).map fun i =>
    ((s.tslot (65536 * q + 2048 * p + i)).seq, i)
  let ins (l : List (Nat × Nat)) (x : Nat × Nat) : List (Nat × Nat) :=
    l.takeWhile (fun y => (y.1 + 2 ^ 24 - a) % 2 ^ 24 ≤ (x.1 + 2 ^ 24 - a) % 2 ^ 24) ++
      x :: l.dropWhile (fun y => (y.1 + 2 ^ 24 - a) % 2 ^ 24 ≤ (x.1 + 2 ^ 24 - a) % 2 ^ 24)
  (l.foldl ins []).map fun x =>
    { gen := (s.tslot (65536 * q + 2048 * p + x.2)).gen, die := q, part := p, slot := x.2 }

/-- The list words of a task from entry i on, n of them, as they are before the rule (R374). -/
def State.owedWords (s : State) (key : Nat) : Nat → Nat → Except Trap (State × List Word)
  | 0, _ => .ok (s, [])
  | n + 1, i =>
    let t := s.task key
    let va := bits t.w4 54 0 + 8 * i
    if va % 8 ≠ 0 then .error (Trap.at0 .misalign 0 va)
    else match ringRead s (slotOf key) t.die va 8 with
    | .error tr => .error tr
    | .ok (s, v) => match s.owedWords key n (i + 1) with
      | .error tr => .error tr
      | .ok (s, l) => .ok (s, BitVec.ofNat 64 v :: l)

/-- The abandoned-reader rule on list words, the first of them entry i (R374): the state, and where it waits for room in a
pending table.  from_: the sequence at which the first entry goes on. -/
def State.abandonFrom (s : State) (key : Nat) : List Word → Nat → Option Nat → State × Option (Nat × Nat)
  | [], _, _ => (s, none)
  | w :: l, i, from_ =>
    let t := s.task key
    let slot := slotOf key
    let va := bits t.w4 54 0 + 8 * i
    let q := bits w 63 62
    let p := bits w 61 57
    let next := from_.getD (bits w 47 24)
    let last := bits w 23 0
    let part := s.tspart q p
    let valid := partOn part && partSlot part == slot
    let s := if valid then (s.tilesIn q p next last).foldl (fun s h => (s.takeRead h true).count slot 20 1) s else s
    let spent (s : State) : State :=
      match ringWrite s slot t.die va 8 (setBits w 47 24 (last + 1)).toNat with
      | .ok s => s
      | .error tr => s.reportTask key tr
    if valid && next != (last + 1) % 2 ^ 24 && seqLe (partSeq part) last then
      match s.addPend q p last with
      | some s => (spent s).abandonFrom key l (i + 1) none
      | none => (s, some (i, if seqLe next (partSeq part) then partSeq part else next))
    else (spent s).abandonFrom key l (i + 1) none

/-- Free the slots that a task still owns (R367, R374). -/
def State.freeOwned (s : State) (key : Nat) : State :=
  (s.ts.slots.filter fun e => e.2.st == .alloc && e.2.owner == key).foldl (fun s e =>
    s.freeSlot { gen := e.2.gen, die := e.1 / 65536, part := e.1 / 2048 % 32, slot := e.1 % 2048 }) s

/-- A task's debug set is freed with its record (R205). -/
def State.clearTask (s : State) (key : Nat) : State :=
  let s := match (s.task key).dset with
    | some n => { s with hub := { s.hub with dset := s.hub.dset.filter fun e => e.1 / 32 != n } }
    | none => s
  s.setTask key Task.reset

/-- DONE to EMPTY, unless the task is kept or its abandoned reads wait (R69, R71, R374). -/
def State.leaveDone (s : State) (key : Nat) : State :=
  let t := s.task key
  if t.st = .done && !t.keep && t.readerAt.isNone then s.clearTask key else s

/-- The abandoned-reader rule, from an entry on; where the list cannot be read it is skipped for the task, with a report
(R374). -/
def State.abandon (s : State) (key i : Nat) (from_ : Option Nat) : State :=
  match s.owedWords key (bits (s.task key).w5 31 16 - i) i with
  | .error tr => ((s.reportTask key tr).setTask key { (s.reportTask key tr).task key with readerAt := none }).leaveDone key
  | .ok (s, l) =>
    let (s, stuck) := s.abandonFrom key l i from_
    (s.setTask key { s.task key with readerAt := stuck }).leaveDone key

/-- A task enters DONE (R69, R71). -/
def State.toDone (s : State) (key : Nat) (killed : Bool) (src : Option Nat) : State :=
  let s := s.unqueue key
  let t := s.task key
  let s := { s with
    ring := { s.ring with bars := s.ring.bars.filter fun b => b.2.task != some key }
    hub := { s.hub with lq := s.hub.lq.map fun (q : Nat × LQueue) =>
      (q.1, { q.2 with out := q.2.out.filter (· != key), kills := q.2.kills.filter (· != key) }) }
    harts := s.harts.map fun (h : Nat × Hart) =>
      if h.2.killing = some (key, false) then (h.1, { h.2 with killing := some (key, true) }) else h }
  let s := s.setTask key { t with st := .done, killed, pre := none, dying := none,
                                  members := t.members.map fun _ => .finished }
  let s := s.traceRec t.die 7 none (some key) (if killed then 1 else 0)
  let s := if killed then s else s.signalSuccs key src (bits t.w5 15 0) 0
  (s.freeOwned key).abandon key 0 none

/-- The unit of a member (R57). -/
def State.unitBase (s : State) (slot u : Nat) : Nat :=
  (bits (s.hreg (oCtxbk slot)) 54 21 * 2 ^ 21 + u * 2 ^ 21) % 2 ^ 55

/-- Deferred faults of a killed task are discarded with a report each (R191). -/
def State.dropDeferred (s : State) (l : List (Word × Word)) (hid : Option Nat) (key : Nat) : State :=
  l.foldl (fun s d => s.report repEngdrop 0 0 0 d.2.toNat hid (some key)) s

/-- The saved deferred faults of a member. -/
def State.savedFaults (s : State) (key i : Nat) : List (Word × Word) :=
  match (s.task key).units.getD i none with
  | none => []
  | some u =>
    let w := ringWho s (slotOf key) (s.task key).die
    match reachRead s { w with level := .s } (s.unitBase (slotOf key) u + 0x182000) 8 .fill with
    | .error _ => []
    | .ok (s, rbs) =>
      match loadPages s { w with level := .s } .fill (s.searchPath 2 0 0) rbs 0x100000 6 160 [] with
      | .error _ => []
      | .ok (_, m) => savedDeferred m

/-- A placed member of a task executes at M. -/
def State.atMonitor (s : State) (t : Task) : Bool := t.hids.any fun hid => (s.hart hid).level == .m

/-- Kill a task (R71): a member at M returns first (R194), and the task goes once none is there; its other members issue
no more. -/
def State.kill (s : State) (key : Nat) (src : Option Nat) : State :=
  let t := s.task key
  match t.st with
  | .empty | .done => s
  | _ =>
    if s.atMonitor t then s.setTask key { t with dying := some src }
    else
      let s := (t.members.zipIdx).foldl (fun s m =>
        match m.1 with
        | .placed hid => (s.dropDeferred (s.hart hid).deferred (some hid) key).retireHart hid true
        | .saved =>
          let park := parkHid key m.2
          let ghost := ghostHid s.drv.nextId (slotOf key) 0
          let s := (s.dropDeferred (s.savedFaults key m.2) none key).noteLaunch key ghost (s.hmem park)
          let s := (s.dropRegCopies park).bump
          let s := { s with mems := s.mems.del park
                            xlat := { s.xlat with xinv := s.xlat.xinv.filter fun x => x.hid != park } }
          s.renameHid park ghost
        | _ => s) s
      let s := { s with ring := { s.ring with rxSave := s.ring.rxSave.filter fun e => e.1 / 16 != key
                                              kept := s.ring.kept.filter fun e => e.1 / 16 != key } }
      s.toDone key true src

/-- A hart has returned from M: a kill that waited for it is taken up again. -/
def State.killWaiting (s : State) (hid : Nat) : State :=
  match (s.hart hid).task with
  | none => s
  | some key => match (s.task key).dying with
    | some src => s.kill key src
    | none => s

/-- Kill the task for a transfer of a member's state that failed (R197). -/
def State.killFor (s : State) (key : Nat) (t : Trap) (hid : Option Nat) : State := (s.reportOf key t hid).kill key none

/-- Every task of a context slot that is not EMPTY. -/
def State.tasksOf (s : State) (slot : Nat) : List Nat :=
  (s.ring.tasks.filter fun t => slotOf t.1 == slot).map (·.1)

/-! Placement (R57, R74 to R78, R116). -/

/-- Units of the slot's pool in use, and the pool's size (R57). -/
def State.unitsUsed (s : State) (slot : Nat) : List Nat :=
  (s.ring.tasks.filter fun t => slotOf t.1 == slot).flatMap fun t => t.2.units.filterMap id
def State.poolSize (s : State) (slot : Nat) : Nat := 2 ^ min 16 (bits (s.hreg (oCtxbk slot)) 63 59)

/-- A lane or bank spare, or a new lpart, waits for a quiesce of the core (R24, R79). -/
def State.quiesceDue (s : State) (c : Nat) : Bool :=
  !(s.core c).spareDue.isEmpty || (s.core c).lpartNew.isSome

/-- The slot that core c offers a member of a context (R75, R116): control core A's if it has one and its part has a group
that is not gated or lost (DESIGN CHOICE, log entry 108). -/
def State.coreSlot (s : State) (c slot : Nat) : Option Nat :=
  let placed := s.placedOn c
  if !s.active c || s.quiesceDue c || (placed.any fun h => (s.hart h).slot != some slot) || s.spadBusy c slot then none
  else ((List.range 8).map (8 * c + ·)).find? fun h => !placed.contains h && !(s.usable c (ccOf h)).isEmpty

/-- FREE lane groups of a core. -/
def State.freeGroups (s : State) (c : Nat) : Nat :=
  ((List.range 8).filter fun g => s.holders c g == 0 && (s.usable c (s.side c g)).contains g).length

/-- A core's slots are held for the die's reserving gang (R76). -/
def State.heldFor (s : State) (key c : Nat) : Bool :=
  match SMap.get none s.ring.reserving (c / 32) with
  | some k => k != key && s.effPrio key ≤ s.effPrio k && (s.coreSlot c (slotOf k)).isSome
  | none => false

/-- Insert by a key, stable, ascending. -/
def insertBy (f : Nat → Nat) (x : Nat) : List Nat → List Nat
  | [] => [x]
  | y :: l => if f y ≤ f x then y :: insertBy f x l else x :: y :: l

/-- Members still to run. -/
def Task.open_ (t : Task) : List Nat := (List.range t.gsz).filter fun i => t.members.getD i .finished != .finished

/-- The hart slots that would take the members of a gang on a die (R57, R75, R116). -/
def State.fit (s : State) (key q : Nat) (only : Option Nat) : Option (List (Nat × Nat)) :=
  let t := s.task key
  let slot := slotOf key
  let todo := t.open_
  let needUnits := (todo.filter fun i => (t.units.getD i none).isNone).length
  let barFree := t.gsz == 1 || (List.range 64).any fun n =>
    (SMap.get Bar.reset s.ring.bars (64 * q + n)).task.isNone
  let cores := match only with | some c => [c] | none => (List.range 32).map (32 * q + ·)
  let offers := cores.filter fun c => (s.coreSlot c slot).isSome && !s.heldFor key c
  let offers := if t.pack then offers
    else (offers.reverse.foldl (fun l c => insertBy (fun c => 8 - s.freeGroups c) c l) []).foldl
      (fun l c => insertBy (fun c => (8 - s.freeGroups c) * 128 + c) c l) []
  if t.dmask.testBit q && barFree && (s.unitsUsed slot).length + needUnits ≤ s.poolSize slot &&
      todo.length ≤ offers.length then
    some ((todo.zip offers).filterMap fun m => (s.coreSlot m.2 slot).map fun h => (m.1, h))
  else none

/-- Every mapped word of a scratchpad reads zero, and its user deques are empty (R116, R362); stores to it that ended
harts have left in their buffers have gone before. -/
def State.zeroSpad (s : State) (c : Nat) : State :=
  let k := spadKey c 0
  let ended (hid : Nat) (e : WEntry) : Bool := 1024 ≤ hid && homeOf e.loc == .spad c
  { s with
    mems := (s.mems.map fun m => (m.1, { m.2 with sb := m.2.sb.filter fun e => !ended m.1 e })).filter fun m =>
      decide (m.2 ≠ Mem.reset)
    mem := replaceRange s.mem k winSize []
    bad := s.bad.filter fun b => !(k ≤ b.loc && b.loc < k + winSize)
    ring := { s.ring with deque := s.ring.deque.filter fun d => d.1 / 8 != c || d.1 % 8 == 0 } }

/-- Gated groups of a scratchpad begin to wake (R126, R127). -/
def State.wakeSpad (s : State) (c : Nat) : State :=
  let k := s.core c
  if k.gated.isEmpty then s else s.setCore c { k with gated := [], waking := k.gated }

/-- A core comes to a context (R116). -/
def State.claimCore (s : State) (c slot : Nat) : State :=
  let s := s.wakeSpad c
  let k := s.core c
  match k.owner with
  | none => s.setCore c { k with owner := some slot }
  | some o =>
    if o = slot then s
    else (s.zeroSpad c).setCore c { k with owner := some slot, filling := true }

/-- mcctl.frames (R329). -/
def State.rxFrames (s : State) (q : Nat) : Nat := max 1 (min 8 (bits (s.hreg (oMcctl q)) 3 0))

/-- A member starts at entry (R57, R77, R78, R90). -/
def State.startMember (s : State) (key i hid : Nat) : Except (Trap × State) State :=
  let t := s.task key
  let slot := slotOf key
  let used := s.unitsUsed slot
  let u := ((List.range (used.length + 1)).find? fun u => !used.contains u).getD 0
  let base := s.unitBase slot u
  let ctx := s.hreg (oCtxst slot)
  let h := (s.hart hid).vacant
  let h := { h with task := some key, member := i, pc := BitVec.ofNat 55 (bits t.w0 54 0),
                    rxMax := s.rxFrames (dieOf hid) }
  let h := (h.setX 1 (BitVec.ofNat 64 (bits t.w1 54 0))).setX 2 (BitVec.ofNat 64 i)
  let h := (h.setMreg mRbs (BitVec.ofNat 64 base &&& mregMask mRbs)).setMreg mMsa
    (BitVec.ofNat 64 (base + 0x100000) &&& mregMask mMsa)
  let h := ((h.setMreg mAsid (ctx &&& mregMask mAsid)).setMreg mPtbase (ctx &&& mregMask mPtbase)).setMreg mEvec
    (s.hreg (oCtxtrap slot) &&& mregMask mEvec)
  let s := s.setTask key { t with units := t.units.set i (some u), members := t.members.set i (.placed hid) }
  let s := s.setHart hid h
  let w := { whoOf s hid with level := .s }
  match reachWrite s w (base + 0x140FF8) 8 0 .fill with
  | .error tr => .error (tr, s)
  | .ok s => match reachWrite s w (base + 0x181FF8) 8 0 .fill with
    | .error tr => .error (tr, s)
    | .ok s => .ok s

/-- A member's unit words are reached in its slot's address space (R57). -/
def State.unitWho (s : State) (key hid : Nat) : Who := { ringWho s (slotOf key) 0 with core := coreOf hid, level := .s }

/-- A restored member's registers that hold values take frame slots (R105). -/
def State.holdFrames (s : State) (hid : Nat) : State :=
  let h := s.hart hid
  let c := coreOf hid
  let regs := (List.range 32).filter fun n => h.v.any fun b => b.1 / 0x4000 == n
  s.setCore c { s.core c with frames := (s.core c).frames ++ regs.map fun n => (hid, n) }

/-- A restored member renegotiates, once no copy with an endpoint in its registers is pending (R81, R325). -/
def State.regrantNow (s : State) (hid : Nat) : State :=
  match (s.hart hid).regrant with
  | none => s
  | some old =>
    if s.regCopies hid then s
    else
      let s := s.moveLanes hid
      let new := s.vgrant hid
      let h := { s.hart hid with regrant := none }
      s.setHart hid (if new < old then h.cutTo new else h)

/-- A saved member is restored (R81, R196). -/
def State.restoreMember (s : State) (key i hid : Nat) : Except (Trap × State) State :=
  let t := s.task key
  let slot := slotOf key
  let base := s.unitBase slot ((t.units.getD i none).getD 0)
  let ctx := s.hreg (oCtxst slot)
  let park := parkHid key i
  let h := (s.hart hid).vacant
  let h := { h with task := some key, member := i }
  let h := (h.setMreg mAsid (ctx &&& mregMask mAsid)).setMreg mPtbase (ctx &&& mregMask mPtbase)
  let s := s.setTask key { t with members := t.members.set i (.placed hid) }
  let s := s.setHart hid h
  let w := s.unitWho key hid
  match reachRead s w (base + 0x182000) 8 .fill with
  | .error tr => .error (tr, s)
  | .ok (s, rbs) =>
    match reachRead s w (base + 0x182008) 8 .fill with
    | .error tr => .error (tr, s)
    | .ok (s, msa) =>
      match loadPages s w .fill (s.searchPath 2 0 0) rbs 0x100000 256 0 [] with
      | .error tr => .error (tr, s)
      | .ok (s, m) =>
        let kept := (SMap.get none s.ring.kept (16 * key + i)).getD
          ⟨false, false, false, bits (BitVec.ofNat 64 (imgGet m 0xA0138 8)) 6 0, []⟩
        let old := kept.grant
        let h := (h.setMreg mRbs (BitVec.ofNat 64 rbs &&& mregMask mRbs)).setMreg mMsa
          (BitVec.ofNat 64 msa &&& mregMask mMsa)
        let h : Hart := { h.fromImage m kept with
          rx := SMap.get [] s.ring.rxSave (16 * key + i)
          rxMax := s.rxFrames (dieOf hid)
          regrant := some old }
        let s := { s with ring := { s.ring with rxSave := s.ring.rxSave.del (16 * key + i)
                                                kept := s.ring.kept.del (16 * key + i) } }
        let s := ((s.setHart hid h).setHmem hid (s.hmem park)).setHmem park Mem.reset
        let s := ((s.renameHid park hid).holdFrames hid).regrantNow hid
        let ok := loopOk (h.mreg mAvl) (h.mreg mStrip) (h.mreg mVl) && savedTagsOk m
        let tr := { Trap.at0 .badtag 4 0 with old := h.resume.pending }
        if ok then .ok s
        else
        let s := s.count slot 29 1
        if h.level = .u then .ok (s.enterS hid tr)
        else .ok (s.enterM hid tr)

/-- Place the members of a gang (R75, R77, R78). -/
def State.placeMembers (s : State) (key : Nat) : List (Nat × Nat) → Except (Nat × Trap × State) State
  | [] => .ok s
  | (i, hid) :: l =>
    let s := s.claimCore (coreOf hid) (slotOf key)
    let saved := (s.task key).members.getD i .finished == .saved
    match if saved then s.restoreMember key i hid else s.startMember key i hid with
    | .error (t, s) => .error (hid, t, s)
    | .ok s => s.placeMembers key l

/-- A gang is placed whole in one clk (R75); its record names member 0, and no hart where that one has finished (R210). -/
def State.place (s : State) (key q : Nat) (l : List (Nat × Nat)) : State :=
  let s := s.unqueue key
  let t := s.task key
  let n := ((List.range 64).find? fun n => (SMap.get Bar.reset s.ring.bars (64 * q + n)).task.isNone).getD 0
  let s := if t.gsz > 1 then
      { s with ring := { s.ring with
          bars := s.ring.bars.put (64 * q + n) { task := some key, exp := t.barE, arrived := 0, gen := t.barGen } } }
    else s
  let s := s.setTask key { t with st := .running, placedAt := s.clk, die := q, pre := none }
  let s := s.traceRec q 6 ((l.find? fun m => m.1 == 0).map (·.2)) (some key) (t.gsz - 1)
  match s.placeMembers key l with
  | .ok s => s
  | .error (hid, tr, s) => s.killFor key tr (some hid)

/-- A candidate comes before another (R74): the higher effective priority, on a tie the entry of a deque, then the queue
head that became READY earlier. -/
def State.before (s : State) (a b : Nat × Bool) : Bool :=
  let ea := s.effPrio a.1
  let eb := s.effPrio b.1
  ea > eb || (ea == eb && ((a.2 && !b.2) || (a.2 == b.2 && (s.task a.1).readyAt ≤ (s.task b.1).readyAt)))

/-- READY tasks that core c may take, best first (R74): the bottom of its deque 0, then the queue heads. -/
def State.candidates (s : State) (c : Nat) : List (Nat × Bool) :=
  let dq := match s.dequeOf c 0 with | k :: _ => [(k.toNat, true)] | [] => []
  let heads := (List.range 8).filterMap fun p => match s.readyQ (c / 32) p with | k :: _ => some (k, false) | [] => none
  (dq ++ heads).foldl (fun l x => l.takeWhile (fun y => s.before y x) ++ x :: l.dropWhile (fun y => s.before y x)) []

/-! Pre-emption (R86, R149, R194, R329). -/

/-- The oldest writes of a hart have left for the device (R149). -/
def State.drainedToDevice (s : State) (hid : Nat) : Bool :=
  let mine (e : WEntry) := e.hid == hid && !e.eng
  (s.hmem hid).sb.isEmpty && (s.hmem hid).bag.isEmpty && !(s.coreQ.any fun q => q.2.any mine)

/-- No write of the hart to its backing area is on its way (R107). -/
def State.areaClear (s : State) (hid : Nat) : Bool :=
  let rbs := ((s.hart hid).mreg mRbs).toNat
  let mine (e : WEntry) := e.hid == hid && decide (rbs ≤ e.va) && decide (e.va < rbs + 2 ^ 20)
  !((s.hmem hid).sb.any mine) && !(s.coreQ.any fun q => q.2.any mine) && !(s.devQ.any mine) && !(s.fabQ.any mine)

/-- A member may be saved now. -/
def State.savable (s : State) (hid : Nat) : Bool :=
  let h := s.hart hid
  h.level != .m && s.drainedToDevice hid && s.areaClear hid && (s.hmem hid).posts.isEmpty && (s.hmem hid).stall.isNone && !(s.xlat.xinv.any fun x => x.hid == hid) && !h.barDone &&
  !(s.ts.grants.any fun g => g.1 == hid) && h.rx.all (·.landed)

/-- Room in the receive save area (R329): 256 MiB of 16 KiB strips. -/
def State.rxFits (s : State) (t : Task) : Bool :=
  let saved := s.ring.rxSave.foldl (fun a e => a + e.2.length) 0
  saved + (t.hids.foldl (fun a h => a + (s.hart h).rx.length) 0) ≤ 16384

/-- Save the tiles that a hart owns (R194 step 2). -/
def State.saveTiles (s : State) (w : Who) (hid : Nat) : Except (Trap × State) State :=
  if s.ownsTiles hid then
    let k := s.core (coreOf hid)
    let lvl := Level.ofCode (bits k.mown 14 13)
    let image := imgSet k.tileImage 0x40FF8 8 1
    match savePages s w .fill (msaHalf ((s.hart hid).mreg mMsa) lvl) image (fun _ => 4096) 65 0 with
    | .error t => .error t
    | .ok s => .ok (s.dropTiles hid)
  else .ok s

/-- The levels whose halves are live (R195). -/
def State.liveHalves (s : State) (w : Who) (hid : Nat) : Except Trap (State × Nat) :=
  let msa := (s.hart hid).mreg mMsa
  match reachRead s w (msaHalf msa .u + 0x40FF8) 8 .fill with
  | .error t => .error t
  | .ok (s, a) =>
    match reachRead s w (msaHalf msa .s + 0x40FF8) 8 .fill with
    | .error t => .error t
    | .ok (s, b) => .ok (s, a % 2 + 2 * (b % 2))

/-- The unit's words that locate a saved member's areas (R57). -/
def State.saveUnit (s : State) (key i hid : Nat) : Except Trap State :=
  let h := s.hart hid
  let base := s.unitBase (slotOf key) (((s.task key).units.getD i none).getD 0)
  match reachWrite s (s.unitWho key hid) (base + 0x182000) 8 (h.mreg mRbs).toNat .fill with
  | .error t => .error t
  | .ok s => reachWrite s (s.unitWho key hid) (base + 0x182008) 8 (h.mreg mMsa).toNat .fill

/-- The member leaves its slot; what stays of its ordering state takes its parking number. -/
def State.parkMember (s : State) (key i hid : Nat) : State :=
  let h := s.hart hid
  let m := s.hmem hid
  let s := if h.rx.isEmpty then s
    else { s with ring := { s.ring with rxSave := SMap.set [] s.ring.rxSave (16 * key + i) h.rx } }
  let kept : Kept := ⟨h.bpSkip, h.wpSkip, h.brkAll, h.regrant.getD (s.vgrant hid), h.validBytes (s.vgrant hid)⟩
  let s := { s with ring := { s.ring with kept := SMap.set none s.ring.kept (16 * key + i) (some kept) } }
  let s := ((s.renameHid hid (parkHid key i)).vacate hid).setHmem (parkHid key i) m.parked
  s.setTask key { s.task key with members := (s.task key).members.set i .saved }

/-- The save of one member (R57, R194).  An error leaves what was written before it. -/
def State.saveMember (s : State) (key i hid : Nat) : Except (Trap × State) State :=
  let w := { whoOf s hid with level := .s }
  match s.saveTiles w hid with
  | .error t => .error t
  | .ok s =>
    match s.liveHalves w hid with
    | .error t => .error (t, s)
    | .ok (s, live) =>
      let h := s.hart hid
      if s.isBad (regKey hid 0) (2 ^ 19) then .error (Trap.at0 .dataerr 1 (h.mreg mRbs).toNat, s)
      else match savePages s w .fill (h.mreg mRbs).toNat (s.hartImage hid live) (h.savePage (s.vgrant hid)) 256 0 with
      | .error t => .error t
      | .ok s =>
        match s.saveUnit key i hid with
        | .error t => .error (t, s)
        | .ok s => .ok (s.parkMember key i hid)

def State.saveMembers (s : State) (key : Nat) : List (Nat × MemberSt) → Except (Nat × Trap × State) State
  | [] => .ok s
  | (i, .placed hid) :: l =>
    match s.saveMember key i hid with
    | .error (t, s) => .error (hid, t, s)
    | .ok s => s.saveMembers key l
  | _ :: l => s.saveMembers key l

/-- The bits of a pre-emption's trace record (R210). -/
def PreCause.payload : PreCause → Nat
  | .arrival => 0
  | .slice => 1
  | .cap => 2
  | .quiesce => 0
  | .fail => 0

/-- Steps 2 to 4 of a pre-emption, when every member has stopped and drained (R86, R194, R361). -/
def State.preempt (s : State) (key : Nat) (why : PreCause) : State :=
  let t := s.task key
  if t.st == .running && (t.hids.all s.savable) && s.rxFits t then
    let bar := (s.ring.bars.find? fun b => b.2.task == some key).map (·.2)
    match s.saveMembers key ((List.range t.members.length).zip t.members) with
    | .error (hid, tr, s) => s.killFor key tr (some hid)
    | .ok s =>
      let t := s.task key
      let t := match bar with | some b => { t with barE := b.exp, barGen := b.gen } | none => t
      let s := { s with ring := { s.ring with bars := s.ring.bars.filter fun b => b.2.task != some key } }
      let s := s.setTask key { t with pre := none }
      let s := s.count (slotOf key) 21 1
      let s := s.traceRec t.die 10 none (some key) why.payload
      if why = .fail then s.readyOn key t.die else s.becomeReady key none
  else s

/-- A trigger of pre-emption (R86): the gang stops at its next granule boundaries. -/
def State.trigger (s : State) (key : Nat) (why : PreCause) : State :=
  let t := s.task key
  if t.st == .running && t.pre.isNone && s.rxFits t then s.setTask key { t with pre := some why } else s

end Sys2Proof.Machine
end

