-- ==== Sys2Proof/Machine/Hub.lean ====
section
/-!
DEFINITION. The hub register block: reads and writes of its registers (R22, R40, R44, R46, R47, R49 to R58, R80,
R83, R87, R100, R122, R198, R199, R202, R205, R208, R209, R212, R329, R365).
-/
namespace Sys2Proof.Machine

/-! Register fills (R106 to R108). -/

/-- Fill a register of a hart that is not resident from its backing area: the granted-lane bytes that its spill left there,
as the hart's own reads at CORE scope find them; what a change of grant has cut off is zero. -/
def State.fillHart (s : State) (hid n : Nat) : Except Trap State :=
  let h := s.hart hid
  match h.spilled.find? fun r => r.1 == n with
  | none => .ok s
  | some r =>
    let size := r.2
    let base := (h.mreg mRbs).toNat + 0x4000 * n
    match loadPages s (whoOf s hid) .fill (s.searchPath 0 hid (coreOf hid)) base size (ceilDiv size 4096) 0 [] with
    | .error t => .error t
    | .ok (s, image) =>
      let lo := 0x4000 * n
      let new := image.map fun b => (lo + b.1, b.2)
      let h := s.hart hid
      let s := s.setHart hid { h with v := replaceRange h.v lo size new, spilled := h.spilled.filter fun r => r.1 != n
                                      clean := h.clean ++ [(n, size)] }
      .ok (match h.slot with | some k => s.count k 24 1 | none => s)

/-! Launch queues (R49 to R51, R54). -/

/-- A queue stops with an error code, and its vector is raised (R54). -/
def State.lqStop (s : State) (n code : Nat) : State :=
  let c := s.hreg (oLqctl n)
  let s := s.setHreg (oLqctl n) (setBits c 39 36 code)
  { s with hub := { s.hub with msix := s.hub.msix ++ [bits c 34 24] } }

def State.lqSize (s : State) (n : Nat) : Nat := 2 ^ max 4 (bits (s.hreg (oLqctl n)) 7 4)
def State.lqHead (s : State) (n : Nat) : Nat := bits (s.hreg (oLqhead n)) 15 0
def State.lqTail (s : State) (n : Nat) : Nat := bits (s.hreg (oLqdb n)) 15 0
def State.lq (s : State) (n : Nat) : LQueue := SMap.get LQueue.reset s.hub.lq n
def State.setLq (s : State) (n : Nat) (q : LQueue) : State :=
  { s with hub := { s.hub with lq := SMap.set LQueue.reset s.hub.lq n q } }

/-- A write of lqbase (R49, R50). -/
def State.writeLqbase (s : State) (n : Nat) (v : Word) : State :=
  if bit (s.hreg (oLqctl n)) 0 then s
  else ((s.setHreg (oLqbase n) (v &&& fieldMask 51 12)).setHreg (oLqhead n) 0).setHreg (oLqdb n) 0

/-- A doorbell (R51).  One out of range of a queue that runs leaves the old tail; on a queue stopped by another error it
writes the new code and raises the vector again (DESIGN CHOICE, log entry 100). -/
def State.ringLqdb (s : State) (n : Nat) (v : Word) : State :=
  let tail := bits v 15 0
  let c := s.hreg (oLqctl n)
  if tail = s.lqTail n then s
  else if bit c 0 && tail ≥ s.lqSize n then s.lqStop n 0xA
  else s.setHreg (oLqdb n) (BitVec.ofNat 64 tail)

/-- A write of lqctl (R49, R50, R54).  A tail that was out of range of the ring when the queue was enabled stays as it
was written, after the stop and after `rst` (DESIGN CHOICE, log entry 100). -/
def State.writeLqctl (s : State) (n : Nat) (v : Word) : State :=
  let c := s.hreg (oLqctl n)
  let lgsz := max 4 (bits v 7 4)
  let c' := setBits c 34 24 (bits v 34 24)
  let c' := if bit c 0 then c' else setBits (setBits c' 7 4 lgsz) 3 3 (bits v 3 3)
  let c' := setBits c' 0 0 (bits v 0 0)
  let c' := if bit v 35 then setBits c' 39 36 0 else c'
  let s := s.setHreg (oLqctl n) c'
  -- the packet at head is fetched again
  let s := if bit v 35 && bits c 39 36 != 0 then s.setLq n { s.lq n with st := .none, pkt := [] } else s
  let s := if bit c 0 && !bit v 0 then s.setLq n { s.lq n with st := .none, pkt := [] } else s
  if !bit c 0 && bit v 0 && s.lqTail n ≥ s.lqSize n then s.lqStop n 0xA else s

/-- lqhead with its idle bit (R49). -/
def State.readLqhead (s : State) (n : Nat) : Word :=
  let idle := s.lqHead n == s.lqTail n && (s.lq n).st == .none
  setBits (s.hreg (oLqhead n)) 16 16 (if idle then 1 else 0)

/-! Turnstile registers (R122, R365). -/

/-- Ways of a die's slices that come to be pinned are emptied first, and their group is not gated (R122, R125). -/
def State.pinWays (s : State) (q : Nat) (v : Word) : State :=
  let n := pinnedWays v
  if n = 0 then s
  else
    let l := s.coh.l2.filter fun w => w.die == q && decide (16 - n ≤ w.way)
    let s := l.foldl (fun s w => s.gateFrame q w.frame) s
    { s with hub := { s.hub with l2gated := s.hub.l2gated.filter (· != 4 * q + 3)
                                 l2waking := s.hub.l2waking.filter (· != 4 * q + 3) } }

/-- A write of tsctl (R122). -/
def State.writeTsctl (s : State) (q : Nat) (v : Word) : State :=
  let used := s.ts.slots.any fun e => e.1 / 65536 == q && e.2.st != .free
  if bits v 2 0 > 3 || used then s else (s.pinWays q v).setHreg (oTsctl q) (v &&& 7)

/-- A write of tspart (R365). -/
def State.writeTspart (s : State) (q p : Nat) (v : Word) : State :=
  let old := s.tspart q p
  let inPart (k : Nat) := k / 65536 == q && k / 2048 % 32 == p
  let used := s.ts.slots.any fun e => inPart e.1 && e.2.st != .free
  let lo := partBase v
  let hi := partBase v + partCount v * partSize v
  let overlap := (List.range 32).any fun r =>
    let w := s.tspart q r
    r != p && partOn w && lo < partBase w + partCount w * partSize w && partBase w < hi
  let bad := bits v 39 37 > 4 || (partOn v && (partCount v == 0 || partCount v > 2048 || hi > s.carve q || overlap))
  if used || !(s.tsWaiters q p).isEmpty || bad then s
  else
    let w := setBits v 23 0 (if partOn old && partOn v then partSeq old else if partOn v then 0 else partSeq old)
    let s := s.setHreg (oTspart q p) w
    let s := if partOn v && !partOn old then
        { s with ts := { s.ts with slots := s.ts.slots.filter fun e => !inPart e.1 } }
      else s
    if partOn old && partOn v then s else s.setTsPend q p []

/-! Pool region table (R46). -/

/-- Regions of a port in a state, ascending (R46, R47). -/
def State.regionsOn (s : State) (port st : Nat) : List Nat :=
  (s.hub.reg.filterMap fun e => if 0x10000 ≤ e.1 ∧ e.1 < 0x12000 then some ((e.1 - 0x10000) / 8) else none).filter
    fun n => bits (s.hreg (oPregion n)) 61 60 == port && regionState s n == st

/-- Milliseconds left of the grace of a port (R47); 0 where none runs. -/
def State.graceLeft (s : State) (p : Nat) : Nat :=
  match s.pool.grace.find? fun g => g.1 == p with
  | some g => if (s.regionsOn p 2).isEmpty then 0 else 2000 - (s.clk - g.2) / (1000 * Config.clkPerUs)
  | none => 0

/-- Frames of a pool region. -/
def regionFrame (n f : Nat) : Bool := regionOf (256 * f) == some n

/-- Some cached translation, or an engine chunk that waits with one, maps a frame of region n (R46). -/
def State.regionMapped (s : State) (n : Nat) : Bool :=
  let lo := paPool + n * 2 ^ 30
  s.xlat.tlb.any fun t => t.frame < lo + 2 ^ 30 && lo < t.frame + t.size

/-- Accesses to a region that its harts hold perform before a change of the region. -/
def State.settleRegion (s : State) (n : Nat) : State :=
  s.settleHeld fun b => match s.regionOfKey b.loc with | some r => r.1 == n | none => false

/-- What the pool machinery holds for a region is dropped: its quarantined spans, a check, a write-back.  The spec does
not say what becomes of them where a DETACHED region is written FREE (DESIGN CHOICE, log entry 98). -/
def State.dropRegion (s : State) (n : Nat) : State :=
  { s with pool := { s.pool with quar := s.pool.quar.filter fun q => q.region != n
                                 writeback := s.pool.writeback.filter (· != n)
                                 checks := s.pool.checks.filter fun c => c.1 != n } }

/-- A write of a pregion entry (R46): the entry reads the fields written while its identity check runs, and after.  A write
while an identity check of the entry runs is dropped.  A region written FREE leaves nothing behind: an ATTACHED one's dirty
spans are forgotten, its writes on their way are dropped at the hub, and those not acknowledged stay so (DESIGN CHOICE, log
entry 98). -/
def State.writePregion (s : State) (n : Nat) (v : Word) : State :=
  let fields : Word := v &&& (fieldMask 61 24)
  match regionState s n, bits v 63 62 with
  | 0, 1 =>
    if s.pool.checks.any fun c => c.1 == n then s
    else { s with pool := { s.pool with checks := s.pool.checks ++ [(n, false, s.clk)] } }.setHreg (oPregion n) fields
  | 1, 0 =>
    let s := s.settleRegion n
    if s.regionMapped n then s else (s.forget (regionFrame n)).setHreg (oPregion n) fields
  | 2, 0 | 3, 0 => (s.dropRegion n).setHreg (oPregion n) fields
  | _, _ => s

/-! Debug sets, and halting (R205, R212, R213). -/

/-- The task that dbgtask names. -/
def State.dbgTask (s : State) : Nat := bits (s.hreg oDbgtask) 21 0

/-- Debug sets in use. -/
def State.setsUsed (s : State) : List Nat := s.ring.tasks.filterMap fun t => t.2.dset

/-- The word of a set that an offset names: dbgbp at 0 to 7, dbgwa at 8 to 15, dbgwc at 16 to 23. -/
def dbgIndex (off : Nat) : Option Nat :=
  if 0x7100 ≤ off ∧ off < 0x7140 then some ((off - 0x7100) / 8)
  else if 0x7200 ≤ off ∧ off < 0x7280 then
    some (if off % 16 = 0 then 8 + (off - 0x7200) / 16 else 16 + (off - 0x7200) / 16)
  else none

def State.dsetWord (s : State) (set k : Nat) : Word := SMap.get 0 s.hub.dset (32 * set + k)

/-- RW bits of a debug set word. -/
def dbgMask (k : Nat) : Word :=
  if k < 8 then 0xF07FFFFFFFFFFFFE else if k < 16 then fieldMask 54 0 else 0xFFC0FFFFFFFF0000

/-- The named task holds no set and none is free. -/
def State.noSet (s : State) : Bool :=
  (s.task s.dbgTask).dset.isNone && s.setsUsed.eraseDups.length ≥ 256

/-- A write of dbgbp, dbgwa or dbgwc (R205). -/
def State.writeDbg (s : State) (k : Nat) (v : Word) : State :=
  let key := s.dbgTask
  let t := s.task key
  let used := s.setsUsed
  let set := match t.dset with
    | some n => some n
    | none => if t.st = .empty then none else (List.range 256).find? fun n => !used.contains n
  match set with
  | none => s
  | some n =>
    let s := { s with hub := { s.hub with dset := SMap.set 0 s.hub.dset (32 * n + k) (v &&& dbgMask k) } }
    let on := (List.range 8).any fun i => bit (s.dsetWord n i) 63 || bit (s.dsetWord n (16 + i)) 63
    if on then s.setTask key { t with dset := some n }
    else
      let s := { s with hub := { s.hub with dset := s.hub.dset.filter fun e => e.1 / 32 != n } }
      s.setTask key { t with dset := none }

/-- A withdrawal of the hart is under way: neither a trap nor an interrupt comes before it ends (R273). -/
def State.withdrawing (s : State) (hid : Nat) : Bool := s.xlat.xinv.any fun x => x.hid == hid

/-- A hart stands within an instruction that has begun: a vector or matrix instruction at a granule, an arrival at a
barrier, `setvl.g`, collective or Turnstile queue that is not over, a withdrawal or a kill that it waits for. -/
def State.within (s : State) (hid : Nat) : Bool :=
  let h := s.hart hid
  h.paused || h.atBar || h.barDone || h.setvlg.isSome || h.coll.isSome || h.killing.isSome ||
  (s.ts.grants.any fun g => g.1 == hid) || (s.ts.waiters.any fun q => q.2.any fun e => e.1 == hid) || s.ts.dead.contains hid ||
  s.withdrawing hid

/-- The debugger's hart is halted: it stops at its next instruction boundary (R212). -/
def State.halted (s : State) (hid : Nat) : Bool :=
  let d := s.hreg oDbghart
  bit d 63 && bits d 9 0 == hid && (s.hart hid).task.isSome && !s.within hid

/-- A write of dbghart (R212); clearing halt ends a `halt` instruction too (R271). -/
def State.writeDbghart (s : State) (v : Word) : State :=
  let d := s.hreg oDbghart
  let t := if bit d 63 then bits d 9 0 else bits v 9 0
  let s' := s.setHreg oDbghart (BitVec.ofNat 64 (t + bits v 63 63 * 2 ^ 63))
  if bit d 63 && !bit v 63 then
    let h := s'.hart t
    if h.waiting = .halt then s'.setHart t { h with waiting := .no } else s'
  else s'

/-- The register of dbgsel is resident: it is filled for the debugger's access (R106, R212). -/
def State.dbgFill (s : State) : State :=
  let hid := bits (s.hreg oDbghart) 9 0
  if bits (s.hreg oDbgsel) 62 60 = 1 ∧ s.halted hid then
    match s.fillHart hid (bits (s.hreg oDbgsel) 20 16) with
    | .ok s => s
    | .error _ => s
  else s

/-- The read of dbgdat: the value, and whether it is refused (R212); a register whose fill faults is refused. -/
def State.dbgRead (s : State) : Word × Bool :=
  let hid := bits (s.hreg oDbghart) 9 0
  let h := s.hart hid
  let sel := s.hreg oDbgsel
  let n := bits sel 20 16
  let off := bits sel 15 3 * 8
  if !s.halted hid then (0, true)
  else match bits sel 62 60 with
    | 0 => (h.getX (Fin.ofNat 32 n), false)
    | 1 => if off ≥ 256 * s.vgrant hid || h.isSpilled n || s.isBad (regKey hid (0x4000 * n + off)) 8 then (0, true)
           else (BitVec.ofNat 64 (h.vBytes (Fin.ofNat 32 n) off 8), false)
    | 2 => if off ≥ 4096 then (0, true)
           else
             let n := n % 16
             let v := (List.range 64).foldl (fun a j =>
               if n = 0 || SMap.get false h.p (0x8000 * n + 8 * off + j) then a + 2 ^ j else a) 0
             (BitVec.ofNat 64 v, false)
    | 3 => (BitVec.ofNat 64 (tagCode (SMap.get .s32 h.tag n)), false)
    | 4 => (epcWord h.pc h.resume, false)
    | _ => (0, true)

/-- Loads still outstanding lose their write-back to a written register: an element group at a time for a
vector register (R213).  An atomic still writes its location. -/
def State.cancelLoads (s : State) (hid : Nat) (hits : Dst → Bool) : State :=
  let m := s.hmem hid
  let cut (b : BagItem) : BagItem :=
    match b.act with
    | .rd d => if hits d then { b with act := .rd .none } else b
    | .amo op tag rm ups =>
      { b with act := .amo op tag rm (ups.map fun u => if hits u.dst then { u with dst := .none } else u) }
    | .wr _ => b
  if m.bag.isEmpty then s else s.setHmem hid { m with bag := m.bag.map cut }

/-- A copy fills registers of a hart: its own, or those of the member that it names (R327, R328). -/
def State.fills (s : State) (hid : Nat) (c : Copy) : Bool :=
  let h := s.hart hid
  (c.kind == .cpyr && c.hid == hid) || (c.kind == .cpyx && h.task == some c.task && h.member == c.n)

/-- Copies under way write byte off of register n no more, nor its element group (R213). -/
def State.cancelCopies (s : State) (hid n off : Nat) : State :=
  { s with eng := s.eng.map fun q => (q.1, q.2.map fun c =>
    if s.fills hid c then { c with cut := c.cut ++ [(n, off)] } else c) }

/-- Whether element i under a w-bit tag of the group at vr lies in register n, and in the element group, 8 lanes of one
pass, of one of the 8 bytes from off on. -/
def groupMeets (L w n off r i : Nat) : Bool :=
  let g (e : Nat) := e / L * 8 + e % L / 8
  (0x8000 * r + i * (w / 4)) / 0x8000 == n && (List.range 16).any fun j =>
    let k := 0x8000 * n + 2 * off + j - 0x8000 * r
    decide (0x8000 * r ≤ 0x8000 * n) && g (k / (w / 4)) == g i

/-- Whether a pending element of a load lies in the element group of the bytes at off of vn. -/
def sameGroup (L n off : Nat) (d : Dst) : Bool :=
  match d with
  | .v r elem b => groupMeets L (8 * b) n off r.val elem
  | _ => false

/-- Copies under way write the tag of register n no more (R213). -/
def State.keepTag (s : State) (hid n : Nat) : State :=
  { s with eng := s.eng.map fun q => (q.1, q.2.map fun c =>
    if s.fills hid c then { c with cutTags := c.cutTags ++ [n] } else c) }

/-- A write of dbgdat: none when it is refused (R212, R213). -/
def State.dbgWrite (s : State) (v : Word) : Option State :=
  let hid := bits (s.hreg oDbghart) 9 0
  let h := s.hart hid
  let sel := s.hreg oDbgsel
  let n := bits sel 20 16
  let off := bits sel 15 3 * 8
  if !s.halted hid then none
  else match bits sel 62 60 with
    | 0 =>
      let s := s.cancelLoads hid fun d => match d with | .x r _ => r.val == n | _ => false
      some (s.setHart hid (h.setX (Fin.ofNat 32 n) v))
    | 1 => if off ≥ 256 * s.vgrant hid || h.isSpilled n then none
           else
             let s := (s.cancelLoads hid (sameGroup (max 1 (s.vgrant hid)) n off)).cancelCopies hid n off
             some ((s.renew (regKey hid (0x4000 * n + off)) 8).setHart hid { h.setVBytes (Fin.ofNat 32 n) off 8 v.toNat with clean := h.clean.filter (·.1 != n) })
    | 2 => if off ≥ 4096 then none
           else
             let n := n % 16
             let p := if n = 0 then h.p else (List.range 64).foldl (fun p j =>
               SMap.set false p (0x8000 * n + 8 * off + j) (v.getLsbD j)) h.p
             some (s.setHart hid { h with p })
    | 3 => if v.toNat > 20 then none
           else some ((s.keepTag hid n).setHart hid { h with tag := SMap.set .s32 h.tag n (tagTable.getD v.toNat .s32) })
    | 4 => some (s.setHart hid { h with pc := BitVec.ofNat 55 (bits v 54 1 * 2), resume := Resume.zero })
    | _ => none

/-- A copy has still to fill the element group of byte off of register n (R213). -/
def Copy.owes (c : Copy) (n off : Nat) : Bool :=
  let L := if c.kind = .cpyx then 8 else max 1 c.lanes
  let g := groupSize c.tag c.ew
  let starts := if c.kind = .cpyx then [c.dst] else (List.range (c.n / g)).map fun j => c.dst + j * g
  (List.range (ceilDiv c.vl L)).any fun k => !c.done.contains k && (List.range L).any fun j =>
    decide (k * L + j < c.vl) && starts.any fun r => groupMeets (max 1 c.lanes) c.tag.width n off r (k * L + j)

/-- The register that dbgsel names is the destination of a load still outstanding (R213). -/
def State.dbgOutstanding (s : State) : Bool :=
  let hid := bits (s.hreg oDbghart) 9 0
  let sel := s.hreg oDbgsel
  let n := bits sel 20 16
  let off := bits sel 15 3 * 8
  let hit (d : Dst) : Bool := match bits sel 62 60, d with
    | 0, .x r _ => r.val == n
    | 1, d => sameGroup (max 1 (s.vgrant hid)) n off d
    | _, _ => false
  ((s.hmem hid).bag.any fun b => match b.act with
    | .rd d => hit d
    | .amo _ _ _ ups => ups.any fun u => hit u.dst
    | .wr _ => false) ||
  (bits sel 62 60 == 1 && s.copies.any fun e => s.fills hid e.2 && e.2.owes n off)

/-- What a read of dbgdat waits for is brought in, as far as it can be: the hart's held accesses in order, and the
register's fill (R106, R213). -/
def State.dbgSettle (s : State) : State :=
  let hid := bits (s.hreg oDbghart) 9 0
  (if s.dbgOutstanding then s.performAll hid (s.hmem hid).bag.length else s).dbgFill

/-- A read of a hub register can be answered: one of dbgdat waits for the write-backs to its register, 100 µs at most
(R213). -/
def State.hubReady (s : State) (off : Nat) : Bool :=
  off != oDbgdat || !s.dbgSettle.dbgOutstanding ||
  match s.hub.dbgWait with | some t => decide (t + 100 * Config.clkPerUs ≤ s.clk) | none => false

/-- A read of a hub register waits: from now on, if it is the first time. -/
def State.hubWait (s : State) (off : Nat) : State :=
  if off = oDbgdat && s.hub.dbgWait.isNone then { s with hub := { s.hub with dbgWait := some s.clk } } else s

/-- No read of dbgdat waits: the next one begins its 100 µs anew. -/
def State.freshRead (s : State) : State := { s with hub := { s.hub with dbgWait := none } }

/-- The error bit of dbgsel. -/
def State.dbgErr (s : State) (e : Bool) : State :=
  if e then s.setHreg oDbgsel (setBits (s.hreg oDbgsel) 63 63 1) else s

/-! Reads (R22). -/

/-- One 8-byte read of a hub register. -/
def State.hubRead (s : State) (off : Nat) : State × Word :=
  let raw := s.hreg off
  if off = oFabst then (s, setBits raw 1 1 0)
  else if 0x3100 ≤ off ∧ off < 0x3120 then
    let p := (off - 0x3100) / 8
    (s, setBits (setBits raw 16 0 (ceilDiv (s.quarBytes fun q => q.port == p) 1024)) 43 32 (s.graceLeft p))
  else if off = oSwint then (s, 0)
  else if 0x4000 ≤ off ∧ off < 0x4800 ∧ off % 32 = 0x10 then (s, 0)
  else if 0x4000 ≤ off ∧ off < 0x4800 ∧ off % 32 = 0x18 then (s, s.readLqhead ((off - 0x4000) / 32))
  else if 0x6000 ≤ off ∧ off < 0x6400 then (s, s.ltab ((off - 0x6000) / 8))
  else if 0x6400 ≤ off ∧ off < 0x6800 then (s, s.lrmap ((off - 0x6400) / 8))
  else if off = oDbgtask then (s, setBits raw 22 22 (if s.noSet then 1 else 0))
  else match dbgIndex off with
    | some k => (s, match (s.task s.dbgTask).dset with | some n => s.dsetWord n k | none => 0)
    | none =>
      if off = oDbghart then (s, setBits raw 62 62 (if s.halted (bits raw 9 0) then 1 else 0))
      else if off = oDbgdat then
        let s := s.dbgSettle
        let (v, e) := if s.dbgOutstanding then (0, true) else s.dbgRead
        ({ s.dbgErr e with hub := { (s.dbgErr e).hub with dbgWait := none } }, v)
      else if 0x10000 ≤ off ∧ off < 0x12000 then
        let n := (off - 0x10000) / 8
        (s, setBits raw 0 0 (if s.pool.quar.any fun q => q.region == n then 1 else 0))
      else if 0x800000 ≤ off ∧ off < 0x1000000 then
        let o := off - 0x800000
        let r := SMap.get 0 s.hub.trace (2 ^ 17 * (o / 2 ^ 21) + o % 2 ^ 21 / 16)
        (s, BitVec.ofNat 64 (r.toNat / (if o % 16 = 8 then 2 ^ 64 else 1)))
      else (s, raw)

/-! Writes (R22). -/

/-- The registers that the host may write (R58). -/
def hostMay (off : Nat) : Bool :=
  (0x4000 ≤ off && off < 0x4800) || off == oDbgtask || (dbgIndex off).isSome || (0x7400 ≤ off && off < 0x7800) ||
  (0x7800 ≤ off && off < 0x7820) || off == oDbghart || off == oDbgsel || off == oDbgdat || off == oSwint

/-- A register whose written bits are kept under a mask, the others staying. -/
def State.writeMasked (s : State) (off : Nat) (v mask : Word) : State :=
  s.setHreg off (maskWrite (s.hreg off) v mask)

/-- Writes on their way to a peer, past the store buffers. -/
def toPeer (e : WEntry) : Bool := match homeOf e.loc with | .peer _ => true | _ => false

/-- A rejoin, while the device is fenced: its lines of peer windows are dropped with their dirty words, and the fabric
manager is asked to clear the fence (R44). -/
def State.rejoin (s : State) : State :=
  if bit (s.hreg oFabst) 0 then
    let s := s.forget peerFrame
    { s with
      coreQ := (s.coreQ.map fun q => (q.1, q.2.filter fun e => !toPeer e)).filter fun q => !q.2.isEmpty
      devQ := s.devQ.filter fun e => !toPeer e
      fabQ := s.fabQ.filter fun e => !toPeer e
      coh := { s.coh with rejoin := true } }
  else s

/-- One 8-byte write of a hub register. -/
def State.hubWrite (s : State) (off : Nat) (v : Word) : State :=
  let raw := s.hreg off
  if off = oFabst then
    if bit v 1 then s.rejoin else s
  else if (0x1000 ≤ off ∧ off < 0x10C0) ∨ (0x2000 ≤ off ∧ off < 0x2020) then
    if bit v 0 then s.setHreg off (setBits raw 0 0 0) else s
  else if 0x3000 ≤ off ∧ off < 0x3020 then s.writeMasked off v 0x1FFFF
  else if 0x3200 ≤ off ∧ off < 0x3220 then s.writeTsctl ((off - 0x3200) / 8) v
  else if 0x3300 ≤ off ∧ off < 0x3320 then s.writeMasked off v 0xF
  else if off = oElbase then s.writeMasked off v (fieldMask 51 12)
  else if off = oElctl then
    let w := maskWrite raw v 0xFFFF00FFD000
    let w := setBits w 13 13 (if bit v 13 then 0 else bits raw 13 13)
    s.setHreg off (setBits w 11 8 (max 4 (bits v 11 8)))
  else if off = oSwint then
    let hid := bits v 9 0
    if s.active (coreOf hid) && !s.hub.irqSw.contains hid then
      { s with hub := { s.hub with irqSw := s.hub.irqSw ++ [hid] } }
    else s
  else if 0x4000 ≤ off ∧ off < 0x4800 then
    let n := (off - 0x4000) / 32
    match off % 32 with
    | 0 => s.writeLqbase n v
    | 8 => s.writeLqctl n v
    | 16 => s.ringLqdb n v
    | _ => s
  else if 0x4A00 ≤ off ∧ off < 0x4C00 then
    let n := (off - 0x4A00) / 8
    if (s.unitsUsed n).isEmpty then s.setHreg off (v &&& (0xF800000000000000 ||| fieldMask 54 21)) else s
  else if 0x4C00 ≤ off ∧ off < 0x4E00 then s.writeMasked off v (fieldMask 54 2)
  else if off = oRmctl then
    let w := setBits raw 19 0 (bits v 19 0)
    s.setHreg off (if bits v 39 24 = 0 then w else setBits w 39 24 (bits v 39 24))
  else if off = oDbgtask then s.writeMasked off v 0x3FFFFF
  else if 0x7400 ≤ off ∧ off < 0x7800 then
    if off % 16 = 0 then s.writeMasked off v (fieldMask 51 12)
    else s.setHreg off (setBits (maskWrite raw v 0x80000000FFFF0FFF) 15 12 (max 4 (bits v 15 12)))
  else if 0x7800 ≤ off ∧ off < 0x7820 then
    let s' := s.writeMasked off v (fieldMask 63 44)
    if bit v 63 && !bit raw 63 then s'.setHreg (oTrst ((off - 0x7800) / 8)) 0 else s'
  else if off = oDbghart then (s.writeDbghart v).freshRead
  else if off = oDbgsel then
    let w := maskWrite raw v 0x70000000001FFFFF
    (s.setHreg off (setBits w 63 63 (if bit v 63 then 0 else bits raw 63 63))).freshRead
  else if off = oDbgdat then
    match s.dbgFill.dbgWrite v with
    | some s => s
    | none => s.dbgErr true
  else match dbgIndex off with
    | some k => s.writeDbg k v
    | none =>
      if 0xC000 ≤ off ∧ off < 0xC400 then s.writeTspart ((off - 0xC000) / 256) ((off - 0xC000) / 8 % 32) v
      else if 0x10000 ≤ off ∧ off < 0x12000 then s.writePregion ((off - 0x10000) / 8) v
      else s

/-- A write of a hub register has performed at the word's home (R270). -/
def State.stampHub (s : State) (off writer : Nat) : State :=
  { s with wlog := stampWord s.wlog ((paHub + off) / 8) s.drv.nextId writer
           drv := { s.drv with nextId := s.drv.nextId + 1 } }

/-- A write of a hub register by a hart, or by the host (1,024). -/
def State.hubStore (s : State) (off : Nat) (v : Word) (writer : Nat) : State := (s.stampHub off writer).hubWrite off v

/-- A write by the host (R58): refused writes are recorded in AER. -/
def State.hostWrite (s : State) (off size : Nat) (v : Word) : State :=
  if size = 8 && off % 8 == 0 && hostMay off then s.hubStore off v 1024
  else { s with hub := { s.hub with aer := s.hub.aer + 1 } }

end Sys2Proof.Machine
end

