-- ==== Sys2Proof/Machine/Frames.lean ====
section
/-!
DEFINITION. Frame slots of the register file: which registers hold them, spills, and the use of a register (R105 to
R107, R197, R198, R329).
-/
namespace Sys2Proof.Machine

/-- A copy under way reads or fills register n of a hart (R327, R328). -/
def Copy.onReg (c : Copy) (h : Hart) (hid n : Nat) : Bool :=
  match c.kind with
  | .cpyr => c.hid == hid && decide (c.dst ≤ n) && decide (n < c.dst + c.n)
  | .cpyw => c.hid == hid && decide (c.src ≤ n) && decide (n < c.src + c.n)
  | .cpyx => h.task == some c.task && h.member == c.n && decide (c.dst ≤ n) && decide (n < c.dst + groupSize c.tag c.ew)
  | _ => false

/-- The vector register that a destination lies in. -/
def Dst.reg (d : Dst) : Option Nat :=
  match d with
  | .v r e w => some ((0x4000 * r.val + e * w) / 0x4000)
  | _ => Option.none

/-- Whether a held access or a copy under way will reach register n of a hart. -/
def State.regPending (s : State) (hid n : Nat) : Bool :=
  (s.copies.any fun e => e.2.onReg (s.hart hid) hid n) || (s.hmem hid).bag.any fun b => match b.act with
    | .rd d => d.reg == some n
    | .amo _ _ _ ups => ups.any fun u => u.dst.reg == some n
    | .wr _ => false

/-- A write of the hart to these bytes is on its way to their home. -/
def State.onItsWay (s : State) (hid loc n : Nat) : Bool :=
  let mine (e : WEntry) := e.hid == hid && e.overlaps loc n
  (s.hmem hid).sb.any mine || (s.coreQ.any fun q => q.2.any mine) || s.devQ.any mine || s.fabQ.any mine

/-- Write the first size bytes of a register, from page i of its place on, as the hart's own accesses (R106, R107); no
trap where an older store of the hart has to drain first. -/
def spillPages (s : State) (hid va size : Nat) (image : SMap Byte) : Nat → Nat → Except (Option Trap) State
  | 0, _ => .ok s
  | n + 1, i =>
    match reach s (whoOf s hid) (va + 4096 * i) .fill true with
    | .error t => .error (some t)
    | .ok (s, p) =>
      let len := min 4096 (size - 4096 * i)
      if s.onItsWay hid p.key len then .error none
      else
        let part := (image.filter fun b => 4096 * i ≤ b.1 && b.1 < 4096 * i + len).map fun b => (p.key + (b.1 - 4096 * i), b.2)
        let s := (s.touchPage (whoOf s hid) p len true).writeRange p.key len part hid
        spillPages s hid va size image n (i + 1)

/-- The register's frame is given up: the backing area holds its bytes. -/
def State.dropFrame (s : State) (hid reg bytes : Nat) : State :=
  let h := s.hart hid
  let c := coreOf hid
  let lo := 0x4000 * reg
  let s := s.setHart hid { h with spilled := h.spilled ++ [(reg, bytes)], clean := h.clean.filter fun r => r.1 != reg
                                  v := h.v.filter fun b => !(lo ≤ b.1 && b.1 < lo + bytes) }
  (s.renew (regKey hid lo) 0x4000).setCore c { s.core c with frames := (s.core c).frames.filter (· != (hid, reg)) }

/-- The fault of a spill leaves the frame resident and reaches the hart at its next boundary (R106); a DATAERR is in the
error ring too (R197, R198). -/
def State.spillFault (s : State) (hid : Nat) (t : Trap) : State :=
  let h := s.hart hid
  let s := s.setHart hid { h with deferred := h.deferred ++ [({ t with dfr := true }.word, BitVec.ofNat 64 t.tval)] }
  if t.cause = .dataerr then s.report t.cause.code t.sub 0 t.pa t.tval (some hid) h.task else s

/-- A spill (R106): of a resident register that no access under way will reach; a dirty one is written to the backing
area first.  Whether a register is dirty is its own mark: a move of rbs, and a store of software over its place, leave a
clean one clean (DESIGN CHOICE, log entry 104).  None where it cannot be made now. -/
def State.spillReg (s : State) (hid reg : Nat) : Option State :=
  let h := s.hart hid
  if h.task.isNone || decide (32 ≤ reg) || h.isSpilled reg || s.regPending hid reg then none
  else
    let size := h.frameBytes reg (s.vgrant hid)
    let lo := 0x4000 * reg
    let image : SMap Byte := (h.v.filter fun b => lo ≤ b.1 && b.1 < lo + 0x4000).map fun b => (b.1 - lo, b.2)
    if h.clean.any fun r => r.1 == reg && decide (size ≤ r.2) then some (s.dropFrame hid reg size)
    else if s.isBad (regKey hid lo) size then some (s.spillFault hid (Trap.at0 .dataerr 1 0))
    else match spillPages s hid ((h.mreg mRbs).toNat + lo) size image (ceilDiv size 4096) 0 with
      | .ok s => some ((match h.slot with | some n => s.count n 25 1 | none => s).dropFrame hid reg size)
      | .error (some t) => some (s.spillFault hid t)
      | .error none => none

/-- The registers in use on group g of core c, the least recently used first (R105). -/
def State.framesOn (s : State) (c g : Nat) : List (Nat × Nat) :=
  (s.core c).frames.filter fun f => (s.heldBy f.1).contains g

/-- The frame slots of group g in use: those of registers, and the receive frames of its holders (R105, R329). -/
def State.slotsUsed (s : State) (c g : Nat) : Nat :=
  (s.framesOn c g).length +
    (((s.placedOn c).filter fun hid => (s.heldBy hid).contains g).map fun hid => (s.hart hid).rxMax).sum

/-- The least recently used registers of group g, of any holder, are spilled until n of its 64 slots are free (R106). -/
def State.clearSlots (s : State) (c n g : Nat) : State :=
  (List.range (s.slotsUsed c g + n - 64)).foldl (fun s _ =>
    let l := (s.framesOn c g).filter fun f => (s.hart f.1).deferred.isEmpty
    (l.findSome? fun f => s.spillReg f.1 f.2).getD s) s

/-- A register of a hart takes a frame slot in each of its lane groups, or becomes the most recently used (R105). -/
def State.useFrame (s : State) (hid reg : Nat) : State :=
  let c := coreOf hid
  let k := s.core c
  if k.frames.contains (hid, reg) then s.setCore c { k with frames := k.frames.erase (hid, reg) ++ [(hid, reg)] }
  else
    let s := (s.heldBy hid).foldl (fun s g => s.clearSlots c 1 g) s
    if (s.heldBy hid).any fun g => decide (64 ≤ s.slotsUsed c g) then s
    else s.setCore c { s.core c with frames := (s.core c).frames ++ [(hid, reg)] }
def State.useFrames (s : State) (hid : Nat) (l : List Nat) : State := l.foldl (fun s r => s.useFrame hid r) s

/-- Registers that hold values now take their slots, whatever their number: where a group has more than 64 in use, the
next spills bring it down. -/
def State.takeFrames (s : State) (hid : Nat) (l : List Nat) : State :=
  let c := coreOf hid
  let new := l.filter fun r => !(s.core c).frames.contains (hid, r)
  let s := (s.setCore c { s.core c with frames := (s.core c).frames ++ new.map fun r => (hid, r) })
  (s.heldBy hid).foldl (fun s g => s.clearSlots c 0 g) s

/-- Every lane group of some cores has at most 64 slots in use, as far as spills can be made now. -/
def State.fitFrames (s : State) (cores : List Nat) : State :=
  cores.foldl (fun s c => (List.range 8).foldl (fun s g => s.clearSlots c 0 g) s) s

/-- Every register of a list has its frame slots, and no group of the hart has more than 64 in use (R105). -/
def State.framed (s : State) (hid : Nat) (l : List Nat) : Bool :=
  l.isEmpty || ((l.all fun r => (s.core (coreOf hid)).frames.contains (hid, r)) &&
    (s.heldBy hid).all fun g => decide (s.slotsUsed (coreOf hid) g ≤ 64))

end Sys2Proof.Machine
end

