-- ==== Sys2Proof/Machine/Ops.lean ====
section
/-!
DEFINITION. Operations that the meanings share: retiring, taking a trap and returning from one, one scalar
access and its checks, fences, atomics, and the machine registers (R110, R136 to R139, R182 to R188, R197, R207,
R253, R260, R261, R267, R275).
-/
namespace Sys2Proof.Machine

/-- The outcome of a step. -/
abbrev Out := Host.Outcome State Fault Refusal

/-! Taking an exception and returning from one. -/

/-- The task of a hart that can go no further is killed (R197); the hart itself keeps nothing at M waiting. -/
def State.endTaskOf (s : State) (hid : Nat) : State :=
  match (s.hart hid).task with
  | some key => (s.setHart hid { s.hart hid with level := .s }).kill key (some (coreOf hid))
  | none => s

/-- What the hart's instruction waited for is forgotten; an access that owes a POOLDETACH does not forget it unless the
instruction has ended. -/
def State.clearStall (s : State) (hid : Nat) (ended : Bool) : State :=
  match (s.hmem hid).stall with
  | none => s
  | some (.owed _) => if ended then s.setHmem hid { s.hmem hid with stall := none } else s
  | some _ => s.setHmem hid { s.hmem hid with stall := none }

/-- A trap of hart hid (R184, R186, R187): into M for MOWNER, from M, and while a supervisor handler is busy;
into S otherwise.  One raised at M while the monitor is busy stops the hart: its task is killed, with a report of
kind HARTSTOP.  Every DATAERR is reported, a deferred one when it arises (R198).  Accesses of earlier
instructions that were held perform first (R184 step 1); one that cannot yet keeps what names its register waiting.  A DATAERR in
catch-up kills the task instead (R197). -/
def State.takeTrap (s : State) (hid : Nat) (t : Trap) : State :=
  let s := (s.performAll hid (s.hmem hid).bag.length).clearStall hid true
  let h := s.hart hid
  let s := if t.cause = .dataerr ∧ !t.dfr then s.report t.cause.code t.sub 0 t.pa t.tval (some hid) h.task else s
  if h.level = .m ∧ bit (h.mreg mKstat) 1 then
    (s.report repHartstop 0 0 0 0 (some hid) h.task).endTaskOf hid
  else if t.cause = .dataerr ∧ t.cidx.isSome then s.endTaskOf hid
  else
    let s := match h.slot with | some n => s.count n 29 1 | none => s
    if h.level = .m ∨ bit (h.mreg mEstat) 15 ∨ t.cause = .mowner then s.enterM hid t else s.enterS hid t

/-- shadow_ok() (R188). -/
def Hart.shadowOk (h : Hart) : Bool := loopOk (h.mreg mEavl) (h.mreg mEstrip) (h.mreg mEvl)

/-! Retiring. -/

/-- The instruction has retired: it counts, and the next one restarts nowhere (R203). -/
def State.retired (s : State) : State :=
  let h := s.me
  (s.setMe { h with resume := Resume.zero, wpSkip := false, bpSkip := false, paused := false }).countMe 12 1

/-- The instruction stops here, to be taken up again: at a boundary of granules, blocks or units (R86, R102). -/
def State.pausedAt (s : State) (sfx slip : Nat) : State :=
  let r := s.resumeNow s.cur sfx slip
  s.setMe { s.me with resume := r, paused := true
                      wpSkip := s.me.wpSkip && sfx == s.me.resume.sfx && slip == s.me.resume.slip }

/-- pc_next of an instruction of n bytes (R253). -/
def Hart.pcNext (h : Hart) (n : Nat) : BitVec 55 := h.pc + BitVec.ofNat 55 n

/-- The PC moves past the instruction. -/
def State.advance (s : State) (n : Nat) : State := s.setMe { s.me with pc := s.me.pcNext n }

/-- A stop of the executing hart, as a state: the trap is taken, or the instruction waits. -/
def Stop.state : Stop → State
  | .trap t s => s.takeTrap s.cur t
  | .wait s => s

/-- The end of an instruction of n bytes. -/
def complete (n : Nat) (r : Res) : Out :=
  match r with
  | .ok s => .next (s.advance n).retired
  | .error e => .next e.state

/-- The end of a vector or matrix instruction of n bytes (R203). -/
def completeV (n : Nat) (r : Res) : Out :=
  match r with
  | .ok s => .next ((s.advance n).retired.countMe 13 1)
  | .error e => .next e.state

/-- The end of an instruction that sets the PC. -/
def completeAt (r : Except Stop (State × BitVec 55)) : Out :=
  match r with
  | .ok (s, pc) => .next (s.setMe { s.me with pc }).retired
  | .error e => .next e.state

/-- A precise fault before the instruction has had any effect (R253); a restart point that the hart resumed
from stays. -/
def State.fails (s : State) (c : Cause) (sub tval : Nat) : Stop :=
  .trap { Trap.at0 c sub tval with old := s.me.resume.pending } s

/-- Faults whose etval is the written word (R183). -/
def State.illegal (s : State) : Stop := s.fails .illegal 0 s.drv.ir.toNat
def State.priv (s : State) : Stop := s.fails .priv 0 s.drv.ir.toNat
def State.badTag (s : State) : Stop := s.fails .badtag 1 s.drv.ir.toNat
def State.badShape (s : State) : Stop := s.fails .badtag 2 s.drv.ir.toNat

/-- Go on only where a check holds. -/
def need (ok : Bool) (e : Stop) : Except Stop Unit := if ok then .ok () else .error e

/-- An instruction of S and M only (R268). -/
def State.needS (s : State) : Except Stop Unit := need (s.me.level != .u) s.priv

/-! Watchpoints (R205 to R207). -/

/-- The watchpoint of the executing hart that an access of element e matches. -/
def State.watchHit (s : State) (va n elem : Nat) (rd wr : Bool) : Option Nat :=
  let h := s.me
  match h.task with
  | none => none
  | some key =>
    match (s.task key).dset with
    | none => none
    | some d => (List.range 8).find? fun k =>
      let c := s.dsetWord d (16 + k)
      let lg := bits c 57 54
      let a := bits (s.dsetWord d (8 + k)) 54 0 / 2 ^ lg * 2 ^ lg
      bit c 63 && ((rd && bit c 62) || (wr && bit c 61)) &&
      (match h.level with | .u => bit c 58 | .s => bit c 59 | .m => false) &&
      va < a + 2 ^ lg && a < va + n && bits c 31 16 ≤ elem && elem ≤ bits c 47 32

/-- Every other placed member of the gang stops at its next boundary (R206). -/
def State.stopOthers (s : State) (hid : Nat) : State :=
  match (s.hart hid).task with
  | none => s
  | some key => ((s.task key).hids.filter (· != hid)).foldl (fun s h => s.setHart h { s.hart h with brkAll := true }) s

/-- The fault of a watchpoint: the state, and the trap. -/
def State.watchTrap (s : State) (k va : Nat) : State × Trap :=
  let all := match s.me.task with
    | some key => match (s.task key).dset with | some d => bit (s.dsetWord d (16 + k)) 60 | none => false
    | none => false
  (if all then s.stopOthers s.cur else s, Trap.at0 .brk 3 va)

/-! One access (R22, R189, R207, R253, R260). -/

/-- The fault of an element access, or that it waits. -/
inductive AccStop
  | fault (t : Trap) (s : State)
  | stall (why : Option Stall)
deriving Repr

/-- The subcode of the DATAERR of an access whose request was not answered (R26, R37). -/
def State.unanswered (s : State) (hid : Nat) (p : Phys) : Option Nat :=
  match (s.hmem hid).accErr with
  | some (none, e) => some e
  | some (some f, e) => if s.frameOf p.key = some f then some e else none
  | none => none

/-- What an access that stalls waits for (R127, R400). -/
def State.stallOf (s : State) (q : Nat) (p : Phys) : Option Stall :=
  let pool := match p.attr, regionOf p.pa with | .pool, some n => some (Stall.region n) | _, _ => none
  match p.attr with
  | .spad => if (s.core ((p.key - keySpad) / 2 ^ 20)).filling then none else some .wake
  | _ => if s.waysWake q (p.pa / 256) then some .wake else pool

/-- The gang of a hart is being pre-empted or killed (R71, R86). -/
def State.quits (s : State) (hid : Nat) : Bool :=
  match (s.hart hid).task with
  | some key => (s.task key).pre.isSome || (s.task key).dying.isSome
  | none => false

/-- The executing hart's access waits; a pre-emption or a kill abandons it (R400). -/
def State.noteStall (s : State) (k : Option Stall) : State :=
  let k := if s.quits s.cur then none else k
  if (s.hmem s.cur).stall = k then s else s.setHmem s.cur { s.hmem s.cur with stall := k }

/-- The access of a hart waited for a region when it became DETACHED (R400). -/
def State.owes (s : State) (hid : Nat) (p : Phys) : Bool :=
  match (s.hmem hid).stall, p.attr, regionOf p.pa with
  | some (.owed n), .pool, some m => n == m
  | _, _, _ => false

/-- Check one access of n bytes at va as element elem, in the order of R189; amo: an atomic, which may not
address a DEV page (R267, R321). -/
def State.access (s : State) (va n elem : Nat) (store amo watch : Bool) : Except AccStop (State × Phys) :=
  let k : Acc := if store then .store else .load
  if va % n ≠ 0 then .error (.fault (Trap.at0 .misalign 0 va) s)
  else match translate s (whoOf s s.cur) va k store with
    | .fault s t => .error (.fault t s)
    | .mig s => .error (.fault (pageFault k va) s)
    | .ok s p =>
      if amo && p.attr == .dev then .error (.fault (pageFault .store va) s)
      else if p.attr == .dev && n != 8 then .error (.fault (Trap.at0 .misalign 0 va) s)
      else match if watch then s.watchHit va n elem (!store || amo) store else none with
        | some w => let (s, t) := s.watchTrap w va; .error (.fault t s)
        | none =>
          if s.owes s.cur p then .error (.fault { Trap.at0 .pooldetach 0 va with pa := p.pa } (s.noteStall none))
          else match fate s (dieOf s.cur) p (store && !amo) with
          | .stall => .error (.stall (s.stallOf (dieOf s.cur) p))
          | .fault .pagefault _ => .error (.fault (pageFault k va) s)
          | .fault c sub => .error (.fault { Trap.at0 c sub va with pa := p.pa } s)
          | .ok =>
            match s.unanswered s.cur p with
            | some e =>
              let s := s.setHmem s.cur { s.hmem s.cur with accErr := none }
              .error (.fault { Trap.at0 .dataerr e va with pa := p.pa } s)
            | none =>
              let s := if paPeer ≤ p.pa && p.pa < paPool then s.countMe 31 1 else s
              .ok (s, p)

/-- One access of a scalar instruction, as element 0. -/
def State.scalarAccess (s : State) (va n : Nat) (store amo : Bool) : Except Stop (State × Phys) :=
  match s.access va n 0 store amo (!s.me.wpSkip) with
  | .ok r => .ok r
  | .error (.stall k) => .error (.wait (s.noteStall k))
  | .error (.fault t s) => .error (.trap t s)

/-- The search path of a read of the executing hart (R132), of a UC page too (log entry 15). -/
def State.myPath (s : State) : List (List WEntry) := s.searchPath 0 s.cur (coreOf s.cur)

/-- The effective address of base and offset, modulo 2^55 (R260). -/
def effAddr (a b : Word) : Nat := (a + b).toNat % 2 ^ 55

/-- An access of an instruction for the bag. -/
def BagItem.of (ino : Nat) (p : Phys) (n va : Nat) (act : Act) (oe : Option Nat) (sc blocks : Bool) : BagItem :=
  { ino, loc := p.key, n, va, act, oe, sc, cached := p.attr.cached, lo := firstWord p.key, hi := lastWord p.key n,
    direct := p.attr.direct, blocks }

/-- The accesses of a vector instruction to a frame go by one request, over the smallest span that covers them (R31, R38,
R112). -/
def mergeSpans (l : List BagItem) : List BagItem :=
  let spans := spansOf ((l.filter (·.cached)).map fun b => (b.loc, b.n))
  l.map fun b => match spans.find? fun e => b.cached && e.1 == b.loc / 256 with
    | some e => { b with lo := e.2.1, hi := e.2.2 }
    | none => b

/-- Accesses enter a hart's bag. -/
def State.holdAll (s : State) (hid : Nat) (l : List BagItem) : State :=
  let m := s.hmem hid
  let pc := (s.hart hid).pc.toNat
  s.setHmem hid { m with bag := m.bag ++ l, pcs := m.pcs ++ (l.take 1).map fun b => (b.ino, pc) }

/-- A load of a hub register; one of dbgdat waits for what it would read (R213). -/
def State.loadDev (s s1 : State) (k off : Nat) (d : XR) : Res :=
  if s1.hubReady off then
    let r := ((s1.noteRead s.cur s1.drv.nextId k 8 []).bump).hubRead off
    .ok (r.1.setX d r.2)
  else .error (.wait (s.hubWait off))

/-- A load whose read performs now, through the L1 (R111). -/
def State.loadNow (s s1 : State) (p : Phys) (va : Nat) (z : LdSize) (d : XR) : Res :=
  let n := ldBytes z
  if p.attr.cached && !s1.l1Ready s.cur p.key n false then .error (.wait s)
  else
    let (v, ids, bad) := s1.readValue s1.myPath p.key n
    if bad then .error (.trap { Trap.at0 .dataerr (s1.eccSub p.key n) va with pa := p.pa } s1)
    else
      let s2 := if p.attr.cached then s1.touchL1 s.cur p.key n false else s1
      .ok (((s2.noteRead s.cur s1.drv.nextId p.key n ids).bump).setX d (loadValue z v))

/-- A read of n bytes stays in the bag: under a turn with hold, and behind an older held access to its bytes (R134).  One
that meets an uncorrectable word, or a request for its frame under way, does not: what it raises is raised at it (R37,
R260). -/
def State.mayHold (s : State) (hid ino : Nat) (p : Phys) (n : Nat) : Bool :=
  s.olderHeld hid ino p.key n || (s.drv.hold && !s.isBad p.key n && (!p.attr.cached || s.l1Ready hid p.key n false))

/-- A load (R260, R261): the read performs now, or stays in the bag; an acquire lets no later instruction issue before it
has performed (R137). -/
def State.load (s : State) (va : Nat) (z : LdSize) (d : XR) (acq : Bool) : Res :=
  let n := ldBytes z
  match s.scalarAccess va n false false with
  | .error e => .error e
  | .ok (s1, p) =>
    let ino := s1.drv.nextId
    if p.attr = .dev then
      if s1.isBad p.key n then .error (.trap { Trap.at0 .dataerr (s1.eccSub p.key n) va with pa := p.pa } s1)
      else s.loadDev s1 p.key (p.pa - paHub) d
    else if p.attr.direct && s1.olderHeld s.cur ino p.key n then .error (.wait s)
    else if !p.attr.direct && s1.mayHold s.cur ino p n then
      .ok (s1.holdAll s.cur [BagItem.of ino p n va (.rd (.x d z)) none false acq]).bump
    else s.loadNow s1 p va z d

/-- A write that a held POOL release waits for has lost its region (R47 step 2). -/
def State.detachedBefore (s : State) (hid ino : Nat) : Bool :=
  let obs := (s.hmem hid).obs
  let hit (e : WEntry) := ((e.hid == hid && e.ino < ino) || obs.contains e.id) &&
    (match s.regionOfKey e.loc with
     | some (n, _) => regionState s n == 2 && !s.pool.writeback.contains n
     | none => false)
  s.unacked.any hit || s.devQ.any hit || s.pool.quar.any fun q => hit q.entry

/-- What a release waits for before it can perform at once (R136): a POOL release holds its hart's issue
until it can leave the store buffer, past every earlier fence too (R138), and a release that performs at its home must be in order there. -/
def State.releaseWait (s s1 : State) (ino va : Nat) (rel : Option Scope) (atHome : Bool) : Except Stop Unit :=
  let obs := (s1.hmem s.cur).obs
  match rel with
  | some .pool =>
    if s1.detachedBefore s.cur ino then .error (.trap (Trap.at0 .pooldetach 0 va) s1)
    else if s1.earlierDone s.cur ino .pool false obs && s1.mayLeave s.cur ino then .ok () else .error (.wait s)
  | some S => if !atHome || s1.earlierDone s.cur ino S false obs then .ok () else .error (.wait s)
  | none => .ok ()

/-- A POOL release whose condition holds leaves the store buffer at once (R136). -/
def State.leaveNow (s : State) (hid ino : Nat) : State :=
  let m := s.hmem hid
  let out := m.sb.filter fun e => e.ino == ino
  let s := s.setHmem hid { m with sb := m.sb.filter fun e => e.ino != ino }
  let c := coreOf hid
  out.foldl (fun s e =>
    let s := if e.l1 then s.touchL1 hid e.loc e.n true else s
    match homeOf e.loc with
    | .spad _ => s.arrive e
    | _ => s.setCoreQueue c (s.coreQueue c ++ [e])) s

/-- A store's write enters the store buffer, or goes to the hub. -/
def State.storeNow (s1 : State) (p : Phys) (va n : Nat) (v : Word) (rel : Option Scope) : State :=
  let ino := s1.drv.nextId
  let s2 := s1.bump
  if p.attr = .dev then s2.hubStore (p.pa - paHub) v s1.cur
  else
    let w : Piece := { p, n, val := v.toNat % 2 ^ (8 * n), va }
    let s3 := s2.bufferAll s1.cur ino [w] rel none true
    if rel = some .pool then s3.leaveNow s1.cur ino else s3

/-- A store (R260, R261); a plain one stays in the bag behind an older held access to its bytes (R134). -/
def State.store (s : State) (va n : Nat) (v : Word) (rel : Option Scope) : Res :=
  match s.scalarAccess va n true false with
  | .error e => .error e
  | .ok (s1, p) =>
    let ino := s1.drv.nextId
    if s1.olderHeld s.cur ino p.key n then
      if p.attr.direct || rel.isSome then .error (.wait s)
      else
        let w := BitVec.ofNat 64 (v.toNat % 2 ^ (8 * n))
        .ok (s1.holdAll s.cur [BagItem.of ino p n va (.wr w) none false false]).bump
    else match s.releaseWait s1 ino va rel p.attr.direct with
      | .error e => .error e
      | .ok () =>
        if p.attr.direct && !s1.mayLeave s.cur ino then .error (.wait s)
        else if rel = some .pool && p.attr.cached && !s1.l1Ready s.cur p.key n true then .error (.wait s)
        else .ok (s1.storeNow p va n v rel)

/-- A held release waits in the bag for what came before it (R136). -/
def State.markRelease (s : State) (hid ino : Nat) (rel : Option Scope) : State :=
  match rel with
  | some S => s.addMark hid ino false S false
  | none => s

/-- An atomic (R139, R267): after every older entry of the hart for the location has drained, read and write in
one step at the home; one to a UC page in the order of R135. -/
def State.amo (s : State) (op : AmoOp) (d a b : XR) (wide acq rel : Bool) (S : Scope) : Res :=
  let va := (s.getX a).toNat % 2 ^ 55
  let n := if wide then 8 else 4
  match s.scalarAccess va n true true with
  | .error e => .error e
  | .ok (s1, p) =>
    let ino := s1.drv.nextId
    let u : Update := { dst := .x d (if wide then .b64 else .b32), opnd := s.getX b, cmp := s.getX d }
    let it := BagItem.of ino p n va (.amo op none 0 [u]) none false acq
    let relS := if rel then some S else none
    let behind := s1.olderHeld s.cur ino p.key n || s1.olderPending s.cur ino p.key n
    if s1.isBad p.key n then
      if behind then .error (.wait s)
      else .error (.trap { Trap.at0 .dataerr (s1.eccSub p.key n) va with pa := p.pa } s1)
    else if s.drv.hold && !p.attr.direct && relS != some .pool && s1.amoIdle p.key p.attr.cached then
      .ok ((s1.holdAll s.cur [it]).markRelease s.cur ino relS).bump
    else if behind || !s1.mayLeave s.cur ino || !s1.amoIdle p.key p.attr.cached then .error (.wait s)
    else match s.releaseWait s1 ino va relS true with
      | .error e => .error e
      | .ok () => .ok ((s1.touchAmo s.cur it).bump.performAmo s.cur it op none 0 [u])

/-! Fences (R138, R272). -/

/-- The fence kinds. -/
inductive FenceK | acq | rel | rw
deriving DecidableEq, Repr

/-- `fence`: acq waits for the hart's reads, rw for every earlier access; rel binds later writes only. -/
def State.fence (s : State) (k : FenceK) (eng : Bool) (S : Scope) : Res :=
  let ino := s.drv.nextId
  let obs := (s.hmem s.cur).obs
  match k with
  | .acq => if s.bagEmpty s.cur then .ok s.bump else .error (.wait s)
  | .rel => .ok ((s.addMark s.cur ino true S eng).bump)
  | .rw => if s.earlierDone s.cur ino S eng obs then .ok s.bump else .error (.wait s)

/-- Every earlier access of the executing hart, and with eng every engine instruction, is complete (R144, R359,
R363). -/
def State.settledAt (s : State) (S : Scope) (eng : Bool) : Bool :=
  s.earlierDone s.cur s.drv.nextId S eng (s.hmem s.cur).obs

/-! Machine registers (R92, R110, R252, R275). -/

/-- The level that a register number needs to be read (R110). -/
def mregLevel (n : Nat) : Level := if n < 0x100 then .u else if n < 0x200 then .s else .m

/-- A register number names a register (R252). -/
def mregKnown (n : Nat) : Bool := n ≤ 0x00C || (0x100 ≤ n && n ≤ 0x110) || (0x200 ≤ n && n ≤ 0x206)

def Level.ge : Level → Level → Bool
  | .m, _ => true
  | .s, .m => false
  | .s, _ => true
  | .u, .u => true
  | .u, _ => false

/-- gang (R77). -/
def State.gangWord (s : State) (hid : Nat) : Word :=
  let h := s.hart hid
  match h.task with
  | none => 0
  | some key =>
    let t := s.task key
    let bar := s.ring.bars.find? fun b => b.2.task == some key
    BitVec.ofNat 64 (h.member % 16 + (t.gsz - 1) * 2 ^ 8 +
      match bar with | some b => b.1 % 64 * 2 ^ 16 + 2 ^ 22 | none => 0)

/-- The value of a machine register of hart hid (R252). -/
def State.readMreg (s : State) (hid n : Nat) : Word :=
  let h := s.hart hid
  let k := s.core (coreOf hid)
  if n = mVgrant then BitVec.ofNat 64 (s.vgrant hid)
  else if n = mLmod then BitVec.ofNat 64 k.lmod
  else if n = mHartid then BitVec.ofNat 64 (hid % 1024)
  else if n = mGang then s.gangWord hid
  else if n = mTaskid then BitVec.ofNat 64 (h.task.getD 0 % 2 ^ 22)
  else if n = mMown then k.mown
  else if n = mLpart then k.lpartNew.getD k.lpart
  else if n = mPowcap then setBits (h.mreg mPowcap) 19 16 (s.cap (dieOf hid))
  else h.mreg n

/-- A register whose fields are all RO, or that is not stored with the hart. -/
def mregReadOnly (n : Nat) : Bool :=
  n == mVl || n == mAvl || n == mStrip || n == mVgrant || n == mLmod || n == mSlip || n == mHartid || n == mGang ||
  n == mTaskid || n == mVhead

/-- The value that a write leaves in a stored register, with the field rules of R84, R165 and R186. -/
def mregWritten (n : Nat) (old v : Word) : Word :=
  let w := maskWrite old v (mregMask n)
  if n = mFctl then (if bits v 2 0 > 4 then setBits w 2 0 (bits old 2 0) else w)
  else if n = mEstat then (if bits v 13 12 > 1 then setBits w 13 12 (bits old 13 12) else w)
  else if n = mKstat then (if bits v 3 2 = 3 then setBits w 3 2 (bits old 3 2) else w)
  else w

/-- Write a machine register of the executing hart (R275). -/
def State.writeMreg (s : State) (n : Nat) (v : Word) : State :=
  let c := coreOf s.cur
  if mregReadOnly n then s
  else if n = mMown then s.setCore c { s.core c with mown := maskWrite (s.core c).mown v (mregMask mMown) }
  else if n = mLpart then s.setCore c { s.core c with lpartNew := some (v &&& 0xF) }
  else s.setMreg n (mregWritten n (s.mreg n) v)

/-! Interrupts (R185). -/

/-- An interrupt of a subcode is pending for a hart slot (R185). -/
def State.pendingIrq (s : State) (hid sub : Nat) : Bool :=
  if sub = 1 then s.hub.irqErr && bits (s.hreg oElctl) 23 14 == hid
  else sub == 2 && s.hub.irqSw.contains hid

/-- The access that the hart's instruction waits with raises POOLDETACH (R47, R400). -/
def State.owesDetach (s : State) (hid : Nat) : Bool :=
  match (s.hmem hid).stall with | some (.owed _) => true | _ => false

/-- A hart can take an interrupt: always at U, at S while ie is set, at an instruction boundary (R185), and never while
halted (R212). -/
def State.takesIrq (s : State) (hid : Nat) : Bool :=
  let h := s.hart hid
  h.task.isSome && !h.paused && !s.halted hid && !s.owesDetach hid && (match h.level with
    | .u => true
    | .s => bit (h.mreg mEstat) 10
    | .m => false)

/-- The subcode of the interrupt that hart hid can take now. -/
def State.deliverable (s : State) (hid : Nat) : Option Nat :=
  if !s.takesIrq hid then none else [1, 2].find? fun sub => s.pendingIrq hid sub

/-- A stop at an instruction boundary, not by the instruction at the PC (R185, R191, R206). -/
def State.boundaryTrap (s : State) (hid : Nat) (c : Cause) (sub tval : Nat) (dfr : Bool) (eq : Nat) : State :=
  let s := s.leaveTurnstile hid
  s.takeTrap hid { Trap.at0 c sub tval with old := (s.hart hid).resume.pending, dfr, eq }

end Sys2Proof.Machine
end

