-- ==== Sys2Proof/Machine/Operands.lean ====
section
/-!
DEFINITION. Operands of vector instructions: register groups and their elements, predicates, operand checks and
register fills, the passes that are done and the place of a stop, and the two ways in which a vector instruction
writes its results (R26, R101 to R106, R158, R166, R189, R282, R297).
-/
namespace Sys2Proof.Machine

/-! Tags and groups (R104). -/

/-- The tag of register v. -/
def Hart.tagOf (h : Hart) (v : VR) : Tag := SMap.get .s32 h.tag v.val

/-- Set the tags of g registers from v on. -/
def Hart.setTags (h : Hart) (v : VR) (t : Tag) : Nat → Hart
  | 0 => h
  | g + 1 => let h := h.setTags v t g; { h with tag := SMap.set .s32 h.tag (v.val + g) t }

/-- The registers of the group that an operand with tag t occupies at v, none where R104 forbids it. -/
def groupOf (t : Tag) (ew : Ew) (v : VR) : Option Nat :=
  let w := t.width
  let e := ew.bits
  if w ≤ e then some 1
  else if w = 2 * e then (if v.val % 2 = 0 then some 2 else none)
  else if w = 4 * e then (if v.val % 4 = 0 then some 4 else none)
  else none

/-- Two groups share a register without being the same. -/
def partOverlap (v : VR) (g : Nat) (u : VR) (k : Nat) : Bool :=
  v.val < u.val + k && u.val < v.val + g && !(v.val == u.val && g == k)

/-- Two groups share a register. -/
def meets (v : VR) (g : Nat) (u : VR) (k : Nat) : Bool := v.val < u.val + k && u.val < v.val + g

/-! Elements (R104, R158). -/

/-- The w-bit code of element i of the group at v; four-bit elements stand two to a byte. -/
def Hart.code (h : Hart) (v : VR) (w i : Nat) : Nat :=
  if w = 4 then
    let b := (SMap.get (0 : Byte) h.v (0x4000 * v.val + i / 2)).toNat
    if i % 2 = 0 then b % 16 else b / 16
  else h.vBytes v (i * (w / 8)) (w / 8)

/-- Element i of the group at v under its tag. -/
def Hart.elem (h : Hart) (v : VR) (i : Nat) : Nat := h.code v (h.tagOf v).width i

/-- Write element i. -/
def Hart.setCode (h : Hart) (v : VR) (w i x : Nat) : Hart :=
  if w = 4 then
    let k := 0x4000 * v.val + i / 2
    let b := (SMap.get (0 : Byte) h.v k).toNat
    let b := if i % 2 = 0 then b / 16 * 16 + x % 16 else b % 16 + x % 16 * 16
    { h with v := SMap.set (0 : Byte) h.v k (BitVec.ofNat 8 b) }
  else h.setVBytes v (i * (w / 8)) (w / 8) x

/-- Write elements: each by its index and code. -/
def Hart.setCodes (h : Hart) (v : VR) (w : Nat) (l : List (Nat × Nat)) : Hart :=
  l.foldl (fun h e => h.setCode v w e.1 e.2) h

/-- Every byte of g registers from v becomes zero. -/
def Hart.clearGroup (h : Hart) (v : VR) (g : Nat) : Hart :=
  { h with v := h.v.filter fun b => !(0x4000 * v.val ≤ b.1 && b.1 < 0x4000 * (v.val + g)) }

/-! Predicates (R90, R253). -/

/-- pred(p, i): bit i of the 32,768 of predicate p; always 1 for p0. -/
def Hart.pred (h : Hart) (p : PR) (i : Nat) : Bool :=
  p = 0 || (decide (i < 0x8000) && SMap.get false h.p (0x8000 * p.val + i))

/-- Write bit i of a predicate; a write to p0 is discarded. -/
def Hart.setPred (h : Hart) (p : PR) (i : Nat) (b : Bool) : Hart :=
  if p = 0 ∨ 0x8000 ≤ i then h else { h with p := SMap.set false h.p (0x8000 * p.val + i) b }

/-- Write the bits below vl. -/
def Hart.setPreds (h : Hart) (p : PR) (f : Nat → Bool) : Nat → Hart
  | 0 => h
  | n + 1 => (h.setPreds p f n).setPred p n (f n)

/-- active(i) for i below vl (R253). -/
def Hart.actives (h : Hart) (p : PR) : List Nat := (List.range h.vl).filter fun i => h.pred p i

/-! Sources. -/

/-- A source operand: a vector register, or a scalar register that carries the tag of the first source. -/
inductive Src
  | v (n : VR)
  | x (n : XR)
deriving DecidableEq, Repr

/-- The second source of a form: sb chooses an x register (R250). -/
def srcOf (n : Fin 32) (sb : Bool) : Src := if sb then .x n else .v n

/-- The tags of sources in order. -/
def Hart.srcTags (h : Hart) (l : List Src) : List Tag :=
  let first := match l with | .v n :: _ => h.tagOf n | _ => .s32
  l.map fun | .v n => h.tagOf n | .x _ => first

/-- The codes of element i of the sources. -/
def Hart.srcCodes (h : Hart) (l : List Src) (i : Nat) : List Nat :=
  (l.zip (h.srcTags l)).map fun
    | (.v n, t) => h.code n t.width i
    | (.x n, t) => (h.getX n).toNat % 2 ^ t.width

/-- The vector registers among the sources, with their tags. -/
def Hart.srcRegs (h : Hart) (l : List Src) : List (VR × Tag) :=
  l.filterMap fun | .v n => some (n, h.tagOf n) | .x _ => none

/-! Checks and fills (R104, R106, R282). -/

/-- Every register has its group, and the destination overlaps no source in part (R104, R282). -/
def groupsOk (ew : Ew) (srcs : List (VR × Tag)) (dst : Option (VR × Tag)) : Bool :=
  (srcs.all fun r => (groupOf r.2 ew r.1).isSome) &&
  match dst with
  | none => true
  | some (d, t) =>
    match groupOf t ew d with
    | none => false
    | some g => srcs.all fun r => !partOverlap d g r.1 ((groupOf r.2 ew r.1).getD 1)

/-- Fill a spilled register of the executing hart from its backing area, before any element (R106, R107). -/
def State.fillReg (s : State) (n : Nat) : Res :=
  match s.fillHart s.cur n with
  | .error t => .error (.trap { t with old := s.me.resume.pending } s)
  | .ok s => .ok s

def State.fillList (s : State) : List Nat → Res
  | [] => .ok s
  | n :: l => do (← s.fillReg n).fillList l

/-- The hart resumes past the last pass, so that no element is left to perform (R188). -/
def Hart.spent (h : Hart) : Bool :=
  h.resume.pending && !h.resume.cu && h.vl != 0 && decide (h.vl ≤ h.resume.sfx * max 1 h.resume.grant)

/-- Fill the groups of an instruction's registers; with no element there is no fault (R90). -/
def State.fillGroups (s : State) (rs : List (VR × Tag)) : Res :=
  if s.me.vl = 0 || s.me.spilled.isEmpty then .ok s
  else s.fillList (rs.flatMap fun r =>
    (List.range ((groupOf r.2 s.me.ew r.1).getD 1)).map fun k => r.1.val + k)

/-- The operand checks of a vector instruction, and its fills: tags first, then groups; with no element left to perform
nothing is filled (R188). -/
def State.operands (s : State) (tagsOk : Bool) (srcs : List (VR × Tag)) (dst : Option (VR × Tag)) : Res := do
  need tagsOk s.badTag
  need (groupsOk s.me.ew srcs dst) s.badShape
  if s.me.spent then .ok s else s.fillGroups (srcs ++ dst.toList)

/-! Passes, and where a stop falls (R98, R101 to R103, R189). -/

/-- Lanes held: their number and the logical groups. -/
structure Grain where
  lanes : Nat
  held : List Nat
deriving DecidableEq, Repr

/-- The lanes that a hart holds now, and those of a restart point. -/
def State.grain (s : State) : Grain := ⟨max 1 (s.vgrant s.cur), s.heldBy s.cur⟩
def Resume.grain (r : Resume) : Grain := ⟨max 1 r.grant, bitList 8 r.held⟩

/-- The cluster of element e (R96, R98). -/
def Grain.cluster (g : Grain) (e : Nat) : Nat := g.held.getD (e % g.lanes / 8) 0 / 2

/-- The clusters with held lanes. -/
def Grain.clusters (g : Grain) : List Nat := (g.held.map (· / 2)).eraseDups

/-- The restart pass of cluster k. -/
def Resume.pass (r : Resume) (k : Nat) : Nat := r.sfx + r.slip / 2 ^ (4 * k) % 16

/-- Element e had completed at the restart point (R103). -/
def Resume.did (r : Resume) (e : Nat) : Bool :=
  r.pending && (e / r.grain.lanes < r.pass (r.grain.cluster e) || (r.cu && e < r.cidx))

/-- The restart point is that of the lanes held now, so no conversion is needed. -/
def State.sameLanes (s : State) (r : Resume) : Bool :=
  !r.cu && r.grant == s.vgrant s.cur && r.held == s.heldMask s.cur && r.lmod == (s.core (coreOf s.cur)).lmod

/-- E1: where catch-up ends (R103). -/
def State.catchEnd (s : State) (r : Resume) : Nat :=
  let L := s.grain.lanes
  let top := (r.grain.clusters.map fun k => r.pass k * r.grain.lanes).foldl max 0
  min s.me.vl (ceilDiv top L * L)

/-- A stop inside a vector instruction: which of the elements still to do are performed first, the element
whose fault is reported, and the restart point. -/
structure StopAt where
  keep : List Nat
  elem : Nat
  sfx : Nat
  slip : Nat
  cidx : Option Nat
deriving DecidableEq, Repr

/-- Where catch-up ends, 0 where there is none (R103). -/
def State.catchUp (s : State) : Nat :=
  let r := s.me.resume
  if r.pending && !s.sameLanes r then s.catchEnd r else 0

/-- Where an instruction stops whose elements todo (ascending) are still to be done and whose elements bad
(ascending, among them) fault.  A fault in catch-up is precise at its element; otherwise the suffix is the least
faulting pass, and other clusters may lead by up to 15 passes in which they have elements, as the model's `leads`
chooses. -/
def State.stopAt (s : State) (todo bad : List Nat) : Option StopAt :=
  match bad with
  | [] => none
  | e0 :: _ =>
    let r := s.me.resume
    let e1 := s.catchUp
    let vl := s.me.vl
    if e0 < e1 then some ⟨todo.filter (· < e0), e0, 0, 0, some e0⟩
    else
      let g := s.grain
      let L := g.lanes
      let passes := ceilDiv vl L
      let own (k : Nat) : Nat := ceilDiv (vl - ((List.range L).find? fun j => g.cluster j == k).getD vl) L
      let first (k : Nat) : Nat :=
        ((bad.filter fun e => g.cluster e == k).map (· / L)).foldl min (own k)
      let sfx := (bad.map (· / L)).foldl min passes
      let from_ (k : Nat) : Nat := if r.pending && s.sameLanes r then r.pass k else 0
      let upTo (k : Nat) : Nat :=
        max sfx (max (min (from_ k) (sfx + 15)) (min (first k) (sfx + s.drv.leads / 2 ^ (4 * k) % 16)))
      let slip := g.clusters.foldl (fun a k => a + (upTo k - sfx) * 2 ^ (4 * k)) 0
      let who := (bad.find? fun e => e / L == sfx && upTo (g.cluster e) == sfx).getD e0
      some ⟨todo.filter fun e => e < e1 || e / L < upTo (g.cluster e), who, sfx, slip, none⟩

/-- Where an instruction stops at a granule boundary for a pre-emption or a kill, after catch-up, where no element that
faults comes before (R71, R86, R103). -/
def State.pauseAt (s : State) (todo bad : List Nat) : Option StopAt :=
  match s.drv.pause with
  | none => none
  | some p =>
    let L := s.grain.lanes
    let e1 := s.catchUp
    if bad.any fun e => e < e1 || e / L < p then none
    else s.stopAt todo (todo.filter fun e => e1 ≤ e && p ≤ e / L)

/-- The granule at which a residue check fails: the elements of one pass in one cluster (R26). -/
def State.residueBad (s : State) (todo : List Nat) : List Nat :=
  match (s.hmem s.cur).resErr with
  | none => []
  | some p =>
    let g := s.grain
    let L := g.lanes
    let p := min p (ceilDiv s.me.vl L - 1)
    let k := g.cluster (p * L)
    todo.filter fun e => e / L == p && g.cluster e == k

/-- The failed check is spent. -/
def State.clearResidue (s : State) : State :=
  if (s.hmem s.cur).resErr.isNone then s else s.setHmem s.cur { s.hmem s.cur with resErr := none }

/-- A residue check fails at an instruction that is not precise by granules (R289, R297). -/
def State.residue (s : State) : Except Stop Unit :=
  if s.me.vl ≠ 0 ∧ (s.hmem s.cur).resErr.isSome then
    .error (.trap (Trap.at0 .dataerr 3 0) s.clearResidue)
  else .ok ()

/-! Uncorrectable words of the register file (R26). -/

/-- Element e of the group at v, under a tag, stands in an uncorrectable word. -/
def State.elemBad (s : State) (v : VR) (t : Tag) (e : Nat) : Bool :=
  !s.bad.isEmpty && s.isBad (regKey s.cur (0x4000 * v.val + e * t.width / 8)) (max 1 (t.width / 8))

/-- What an instruction that is not precise by granules meets before it computes: a bad word among the elements that it
reads (source k reads elements k), then a failed residue check (R26, R289, R297). -/
def State.sound (s : State) (rs : List (VR × Tag)) (elements : Nat → List Nat) : Except Stop Unit :=
  if s.me.vl ≠ 0 ∧ rs.zipIdx.any (fun r => (elements r.2).any fun e => s.elemBad r.1.1 r.1.2 e) then
    .error (.trap (Trap.at0 .dataerr 1 0) s)
  else s.residue

/-! Elementwise instructions (R282). -/

/-- An elementwise instruction: the result tag from the destination's old tag and the sources' tags (none: BADTAG,
subcode tag), and each element's code and flags from the tags, the index, the sources' codes and whether pm selects
it; with all, every element below vl is written.  Element e of the result reads element `reads k e` of source k. -/
structure ElemOp where
  rt : Tag → List Tag → Option Tag
  f : Hart → List Tag → Nat → Bool → List Nat → Coded
  all : Bool
  reads : Nat → Nat → Nat := fun _ e => e

/-- The elements below vl that an instruction writes. -/
def Hart.targets (h : Hart) (pm : PR) (all : Bool) : List Nat :=
  if all then List.range h.vl else h.actives pm

/-- The results of some elements, from the sources as they stand: codes by index, and the union of the flags. -/
def Hart.results (h : Hart) (o : ElemOp) (srcs : List Src) (pm : PR) (l : List Nat) :
    List (Nat × Nat) × Nat :=
  let tags := h.srcTags srcs
  l.foldr (fun i acc =>
    let r := o.f h tags i (h.pred pm i) (h.srcCodes srcs i)
    ((i, r.1) :: acc.1, r.2 ||| acc.2)) ([], 0)

/-- The destination when an instruction completes: the result tag; unwritten elements keep their bits, or become
zero where the width changes (R282).  written: the elements below vl that the instruction writes; new: the codes
written now. -/
def Hart.land (h : Hart) (vd : VR) (rt : Tag) (written : List Nat) (new : List (Nat × Nat)) : Hart :=
  let w := rt.width
  let g := (groupOf rt h.ew vd).getD 1
  let h1 := h.setCodes vd w new
  let h2 := if (h.tagOf vd).width = w then h1
    else (h1.clearGroup vd g).setCodes vd w (written.map fun i => (i, h1.code vd w i))
  h2.setTags vd rt g

/-- The destination and some source are the same registers under different widths. -/
def Hart.mixes (h : Hart) (vd : VR) (rt : Tag) (srcs : List Src) : Bool :=
  (h.srcRegs srcs).any fun r => r.1 == vd && r.2.width != rt.width

/-- Element e of the result reads a bad word of the register file. -/
def State.srcBad (s : State) (o : ElemOp) (rs : List (VR × Tag)) (e : Nat) : Bool :=
  !s.bad.isEmpty && rs.zipIdx.any fun r => s.elemBad r.1.1 r.1.2 (o.reads r.2 e)

/-- The stop of an elementwise instruction at the elements that fault: a bad register word (subcode 1) or a failed residue
check (3), which is then spent; none: with no element performed. -/
def State.elemTrap (s : State) (residue : Bool) (st : Option StopAt) (upTo : Hart → Hart) : Stop :=
  let s := if residue then s.clearResidue else s
  let t := Trap.at0 .dataerr (if residue then 3 else 1) 0
  match st with
  | none => .trap { t with old := s.me.resume.pending } s
  | some st => .trap { t with sfx := st.sfx, slip := st.slip, cidx := st.cidx } (s.setMe (upTo s.me))

/-- An elementwise instruction of n bytes (R282). -/
def State.elementwise (s : State) (o : ElemOp) (srcs : List Src) (vd : VR) (pm : PR) : Res := do
  let h := s.me
  let rt := o.rt (h.tagOf vd) (h.srcTags srcs)
  let s ← s.operands rt.isSome (h.srcRegs srcs) (rt.map fun t => (vd, t))
  let h := s.me
  let rt := rt.getD .s32
  if h.vl = 0 then .ok s
  else
    let all := h.targets pm o.all
    let todo := all.filter fun e => !h.resume.did e
    let failed := s.residueBad todo
    let bad := if s.bad.isEmpty then failed
      else todo.filter fun e => failed.contains e || s.srcBad o (h.srcRegs srcs) e
    let upTo (l : List Nat) (h : Hart) : Hart :=
      let (new, fl) := h.results o srcs pm l
      (h.setCodes vd rt.width new).orFlags fl
    let mixes := h.mixes vd rt srcs
    match if mixes then none else s.pauseAt todo bad with
    | some st => .error (.wait ((s.setMe (upTo st.keep h)).pausedAt st.sfx st.slip))
    | none =>
      match s.stopAt todo bad with
      | none =>
        let (new, fl) := h.results o srcs pm todo
        .ok (s.clearResidue.setMe ((h.land vd rt all new).orFlags fl))
      | some st => .error (s.elemTrap (failed.contains st.elem) (if mixes then none else some st) (upTo st.keep))

/-! Instructions that write only when they complete (R289, R297). -/

/-- Write elements of a destination at completion, the others following R282. -/
def Hart.whole (h : Hart) (vd : VR) (rt : Tag) (new : List (Nat × Nat)) (fl : Nat) : Hart :=
  if h.vl = 0 then h else (h.land vd rt (new.map (·.1)) new).orFlags fl

/-- An instruction that writes only when it completes starts at its first element, wherever a restart point short of its
end says (R297). -/
def State.fromStart (s : State) : State :=
  let h := s.me
  if !h.resume.pending || h.spent then s else s.setMe { h with resume := Resume.zero }

/-- An instruction that writes the group at vd when it completes: its sources, the result tag, and the elements
it writes with its flags; source k reads the elements that `reads` gives. -/
def State.wholesale (s : State) (srcs : List Src) (vd : VR) (rt : Tag → List Tag → Option Tag)
    (f : Hart → List Tag → List (Nat × Nat) × Nat)
    (reads : Hart → Nat → List Nat := fun h _ => List.range h.vl) : Res := do
  let h := s.me
  let tags := h.srcTags srcs
  let t := rt (h.tagOf vd) tags
  let s ← s.fromStart.operands t.isSome (h.srcRegs srcs) (t.map fun t => (vd, t))
  if h.spent then .ok (s.setMe (s.me.land vd (t.getD .s32) (List.range h.vl) []))
  else
    s.sound (h.srcRegs srcs) (reads s.me)
    let (new, fl) := f s.me tags
    .ok (s.setMe (s.me.whole vd (t.getD .s32) new fl))

/-- An instruction that writes predicate bits below vl when it completes. -/
def State.toPred (s : State) (srcs : List Src) (tagsOk : List Tag → Bool) (pd : PR)
    (f : Hart → List Tag → (Nat → Bool) × Nat) : Res := do
  let h := s.me
  let tags := h.srcTags srcs
  let s ← s.fromStart.operands (tagsOk tags) (h.srcRegs srcs) none
  if h.spent then .ok s
  else
    s.sound (h.srcRegs srcs) fun _ => List.range s.me.vl
    let h := s.me
    let (b, fl) := f h tags
    .ok (s.setMe (if h.vl = 0 then h else (h.setPreds pd b h.vl).orFlags fl))

/-- An instruction that writes an x register when it completes; none leaves it unchanged. -/
def State.toScalar (s : State) (srcs : List Src) (tagsOk : List Tag → Bool) (xd : XR)
    (f : Hart → List Tag → Option Word) : Res := do
  let h := s.me
  let tags := h.srcTags srcs
  let s ← s.fromStart.operands (tagsOk tags) (h.srcRegs srcs) none
  if h.spent then .ok s
  else
    s.sound (h.srcRegs srcs) fun _ => List.range s.me.vl
    match f s.me tags with
    | none => .ok s
    | some v => .ok (s.setX xd v)

end Sys2Proof.Machine
end

