-- ==== Sys2Proof/Machine/VecArith.lean ====
section
/-!
DEFINITION. Vector arithmetic: binary, shift, ternary, unary, move, select, compare, reduction and conversion
instructions (R170, R171, R283 to R292).
-/
namespace Sys2Proof.Machine

/-! Binary operations (R283). -/

/-- The two-operand operations. -/
inductive BinOp
  | add | sub | mul | min | max | and | or | xor | mulh | div | rem | sadd | ssub | avg | absd | mulhr
deriving DecidableEq, Repr

/-- The operations with a float entry. -/
def BinOp.hasFloat : BinOp → Bool
  | .add | .sub | .mul | .min | .max | .div | .absd => true
  | _ => false

/-- The integer entries, on values of class t, before wrapping or clamping. -/
def BinOp.int (o : BinOp) (fixrm : Nat) (t : Tag) (x y : Int) : Coded :=
  let w := t.width
  let wrap (i : Int) : Coded := (wrapNat w i, 0)
  match o with
  | .add => wrap (x + y)
  | .sub => wrap (x - y)
  | .mul => wrap (x * y)
  | .min => wrap (if y < x then y else x)
  | .max => wrap (if x < y then y else x)
  | .and => (wrapNat w x &&& wrapNat w y, 0)
  | .or => (wrapNat w x ||| wrapNat w y, 0)
  | .xor => (wrapNat w x ^^^ wrapNat w y, 0)
  | .mulh => wrap (x * y / (2 : Int) ^ w)
  | .div => wrap (divInt t x y)
  | .rem => wrap (remInt x y)
  | .sadd => satInt t (x + y)
  | .ssub => satInt t (x - y)
  | .avg => wrap (fixnarrow fixrm (x + y) 1)
  | .absd => wrap (if x < y then y - x else x - y)
  | .mulhr => if t.isUns then wrap (fixnarrow fixrm (x * y) w) else satInt t (fixnarrow fixrm (x * y) (w - 1))

/-- The float entries, on codes of t. -/
def BinOp.flt (o : BinOp) (rm : Rm) (t : Tag) (a b : Nat) : Coded :=
  let f := t.fmt
  let x := val t a
  let y := val t b
  match o with
  | .add => fAdd f rm x y
  | .sub => fSub f rm x y
  | .mul => fMul f rm x y
  | .min => fMinMax f false x y a b
  | .max => fMinMax f true x y a b
  | .div => fDiv f rm x y
  | .absd => let d := numAdd rm x y.neg; finish f rm (d.1.abs, d.2)
  | _ => (0, 0)

/-- The operation tag of two ordinary tags (R163), none where one is narrow or a scale (R158). -/
def opTag (a b : Tag) : Option Tag := if a.ordinary && b.ordinary then some (promote a b) else none

/-- The result tag of an operation (R283). -/
def BinOp.rt (o : BinOp) (t : Tag) : Option Tag :=
  if t.isFloat then (if o.hasFloat then some t else none)
  else if o = .absd then some (Tag.unsigned t.width) else some t

/-- f on two codes after their conversion to the operation tag (R164). -/
def withConv (rm : Rm) (ta tb t : Tag) (f : Nat → Nat → Coded) (a b : Nat) : Coded :=
  let ca := convTag ta t rm a
  let cb := convTag tb t rm b
  let r := f ca.1 cb.1
  (r.1, ca.2 ||| cb.2 ||| r.2)

/-- A binary operation on two codes in tag t. -/
def BinOp.calc (o : BinOp) (h : Hart) (t : Tag) (a b : Nat) : Coded :=
  if t.isFloat then o.flt h.rm t a b else o.int h.fixrm t (intVal t a) (intVal t b)

/-- A binary instruction, element by element. -/
def binElem (o : BinOp) : ElemOp where
  rt _ ts := match ts with
    | [a, b] => (opTag a b).bind o.rt
    | _ => none
  f h ts _ _ cs := match ts, cs with
    | [ta, tb], [a, b] =>
      let t := promote ta tb
      withConv h.rm ta tb t (o.calc h t) a b
    | _, _ => (0, 0)
  all := false

/-- Binary instructions of n bytes. -/
def State.vbin (s : State) (n : Nat) (o : BinOp) (d : VR) (a : VR) (b : Src) (p : PR) : Out :=
  completeV n (s.elementwise (binElem o) [.v a, b] d p)

/-- `vadd` (R283). -/
def execVadd (d a b : VR) (p : PR) (_ca _cb : Bool) (s : State) : Out := s.vbin 4 .add d a (.v b) p
/-- `vsub` (R283). -/
def execVsub (d a b : VR) (p : PR) (_ca _cb : Bool) (s : State) : Out := s.vbin 4 .sub d a (.v b) p
/-- `vmul` (R283). -/
def execVmul (d a b : VR) (p : PR) (_ca _cb : Bool) (s : State) : Out := s.vbin 4 .mul d a (.v b) p
/-- `vmin` (R283). -/
def execVmin (d a b : VR) (p : PR) (_ca _cb : Bool) (s : State) : Out := s.vbin 4 .min d a (.v b) p
/-- `vmax` (R283). -/
def execVmax (d a b : VR) (p : PR) (_ca _cb : Bool) (s : State) : Out := s.vbin 4 .max d a (.v b) p
/-- `vand` (R283). -/
def execVand (d a b : VR) (p : PR) (_ca _cb : Bool) (s : State) : Out := s.vbin 4 .and d a (.v b) p
/-- `vor` (R283). -/
def execVor (d a b : VR) (p : PR) (_ca _cb : Bool) (s : State) : Out := s.vbin 4 .or d a (.v b) p
/-- `vxor` (R283). -/
def execVxor (d a b : VR) (p : PR) (_ca _cb : Bool) (s : State) : Out := s.vbin 4 .xor d a (.v b) p
/-- `vadd` with a scalar (R283). -/
def execVaddVx (d a : VR) (x : XR) (p : PR) (_ca : Bool) (s : State) : Out := s.vbin 4 .add d a (.x x) p
/-- `vsub` with a scalar (R283). -/
def execVsubVx (d a : VR) (x : XR) (p : PR) (_ca : Bool) (s : State) : Out := s.vbin 4 .sub d a (.x x) p
/-- `vmul` with a scalar (R283). -/
def execVmulVx (d a : VR) (x : XR) (p : PR) (_ca : Bool) (s : State) : Out := s.vbin 4 .mul d a (.x x) p
/-- `vmin` with a scalar (R283). -/
def execVminVx (d a : VR) (x : XR) (p : PR) (_ca : Bool) (s : State) : Out := s.vbin 4 .min d a (.x x) p
/-- `vmax` with a scalar (R283). -/
def execVmaxVx (d a : VR) (x : XR) (p : PR) (_ca : Bool) (s : State) : Out := s.vbin 4 .max d a (.x x) p
/-- `vand` with a scalar (R283). -/
def execVandVx (d a : VR) (x : XR) (p : PR) (_ca : Bool) (s : State) : Out := s.vbin 4 .and d a (.x x) p
/-- `vor` with a scalar (R283). -/
def execVorVx (d a : VR) (x : XR) (p : PR) (_ca : Bool) (s : State) : Out := s.vbin 4 .or d a (.x x) p
/-- `vxor` with a scalar (R283). -/
def execVxorVx (d a : VR) (x : XR) (p : PR) (_ca : Bool) (s : State) : Out := s.vbin 4 .xor d a (.x x) p
/-- `vmulh` (R283). -/
def execVmulh (d a b : Fin 32) (p : PR) (_ca _cb sb : Bool) (s : State) : Out := s.vbin 8 .mulh d a (srcOf b sb) p
/-- `vdiv` (R283). -/
def execVdiv (d a b : Fin 32) (p : PR) (_ca _cb sb : Bool) (s : State) : Out := s.vbin 8 .div d a (srcOf b sb) p
/-- `vrem` (R283). -/
def execVrem (d a b : Fin 32) (p : PR) (_ca _cb sb : Bool) (s : State) : Out := s.vbin 8 .rem d a (srcOf b sb) p
/-- `vsadd` (R283). -/
def execVsadd (d a b : Fin 32) (p : PR) (_ca _cb sb : Bool) (s : State) : Out := s.vbin 8 .sadd d a (srcOf b sb) p
/-- `vssub` (R283). -/
def execVssub (d a b : Fin 32) (p : PR) (_ca _cb sb : Bool) (s : State) : Out := s.vbin 8 .ssub d a (srcOf b sb) p
/-- `vavg` (R283). -/
def execVavg (d a b : Fin 32) (p : PR) (_ca _cb sb : Bool) (s : State) : Out := s.vbin 8 .avg d a (srcOf b sb) p
/-- `vabsd` (R283). -/
def execVabsd (d a b : Fin 32) (p : PR) (_ca _cb sb : Bool) (s : State) : Out := s.vbin 8 .absd d a (srcOf b sb) p
/-- `vmulhr` (R283). -/
def execVmulhr (d a b : Fin 32) (p : PR) (_ca _cb sb : Bool) (s : State) : Out :=
  s.vbin 8 .mulhr d a (srcOf b sb) p

/-! Shifts (R284). -/

/-- A shift: the count is exempt from promotion. -/
def shiftElem (left : Bool) : ElemOp where
  rt _ ts := match ts with
    | [a, b] => if a.isInt && b.isInt then some a else none
    | _ => none
  f _ ts _ _ cs := match ts, cs with
    | [ta, _], [a, b] =>
      let w := ta.width
      let n := b % w
      (wrapNat w (if left then intVal ta a * (2 : Int) ^ n else intVal ta a / (2 : Int) ^ n), 0)
    | _, _ => (0, 0)
  all := false

def State.vshift (s : State) (n : Nat) (left : Bool) (d a : VR) (b : Src) (p : PR) : Out :=
  completeV n (s.elementwise (shiftElem left) [.v a, b] d p)

/-- `vshl` (R284). -/
def execVshl (d a b : VR) (p : PR) (_ca _cb : Bool) (s : State) : Out := s.vshift 4 true d a (.v b) p
/-- `vshr` (R284). -/
def execVshr (d a b : VR) (p : PR) (_ca _cb : Bool) (s : State) : Out := s.vshift 4 false d a (.v b) p
/-- `vshl` with a scalar count (R284). -/
def execVshlVx (d a : VR) (x : XR) (p : PR) (_ca : Bool) (s : State) : Out := s.vshift 4 true d a (.x x) p
/-- `vshr` with a scalar count (R284). -/
def execVshrVx (d a : VR) (x : XR) (p : PR) (_ca : Bool) (s : State) : Out := s.vshift 4 false d a (.x x) p

/-! Ternary operations (R285). -/

inductive TerOp | fma | fms | fnma | macw
deriving DecidableEq, Repr

/-- wid(t): the tag of twice the width (R285), none for 64 bits. -/
def wid : Tag → Option Tag
  | .s8 => some .s16
  | .s16 => some .s32
  | .s32 => some .s64
  | .z8 => some .z16
  | .z16 => some .z32
  | .z32 => some .z64
  | .f16 => some .f32
  | .bf16 => some .f32
  | .f32 => some .f64
  | _ => none

/-- The result tag of a ternary operation on tags a, b and the addend's. -/
def TerOp.rt (o : TerOp) (a b c : Tag) : Option Tag :=
  if !(a.ordinary && b.ordinary && c.ordinary) then none
  else match o with
    | .macw => match wid (promote a b) with | some t => if c = t then some t else none | none => none
    | _ => some (promote (promote a b) c)

/-- The value of a ternary operation: codes a, b in tag t, the addend in rt. -/
def TerOp.calc (o : TerOp) (rm : Rm) (t rt : Tag) (a b c : Nat) : Coded :=
  if t.isFloat then
    let x := val t a
    let y := val t b
    let z := val rt c
    match o with
    | .fma | .macw => fFma rt.fmt rm x y z
    | .fms => fFma rt.fmt rm x y z.neg
    | .fnma => fFma rt.fmt rm x.neg y z
  else
    let p := intVal t a * intVal t b
    let z := intVal rt c
    (wrapNat rt.width (match o with
      | .fma | .macw => p + z
      | .fms => p - z
      | .fnma => z - p), 0)

/-- A ternary instruction on va, vb (or a scalar) and the addend. -/
def terElem (o : TerOp) : ElemOp where
  rt _ ts := match ts with
    | [a, b, c] => o.rt a b c
    | _ => none
  f h ts _ _ cs := match ts, cs with
    | [ta, tb, tc], [a, b, c] =>
      let rt := (o.rt ta tb tc).getD .s32
      let t := if o = .macw then promote ta tb else rt
      let ca := convTag ta t h.rm a
      let cb := convTag tb t h.rm b
      let cc := convTag tc rt h.rm c
      let r := o.calc h.rm t rt ca.1 cb.1 cc.1
      (r.1, ca.2 ||| cb.2 ||| cc.2 ||| r.2)
    | _, _ => (0, 0)
  all := false

def State.vter (s : State) (n : Nat) (o : TerOp) (d a : VR) (b : Src) (c : VR) (p : PR) : Out :=
  completeV n (s.elementwise (terElem o) [.v a, b, .v c] d p)

/-- `vfma` (R285). -/
def execVfma (d a b : VR) (p : PR) (_ca _cb : Bool) (s : State) : Out := s.vter 4 .fma d a (.v b) d p
/-- `vfms` (R285). -/
def execVfms (d a b : VR) (p : PR) (_ca _cb : Bool) (s : State) : Out := s.vter 4 .fms d a (.v b) d p
/-- `vfnma` (R285). -/
def execVfnma (d a b : VR) (p : PR) (_ca _cb : Bool) (s : State) : Out := s.vter 4 .fnma d a (.v b) d p
/-- `vmacw` (R285). -/
def execVmacw (d a b : VR) (p : PR) (_ca _cb : Bool) (s : State) : Out := s.vter 4 .macw d a (.v b) d p
/-- `vfma` with a scalar (R285). -/
def execVfmaVx (d a : VR) (x : XR) (p : PR) (_ca : Bool) (s : State) : Out := s.vter 4 .fma d a (.x x) d p
/-- `vfms` with a scalar (R285). -/
def execVfmsVx (d a : VR) (x : XR) (p : PR) (_ca : Bool) (s : State) : Out := s.vter 4 .fms d a (.x x) d p
/-- `vfnma` with a scalar (R285). -/
def execVfnmaVx (d a : VR) (x : XR) (p : PR) (_ca : Bool) (s : State) : Out := s.vter 4 .fnma d a (.x x) d p
/-- `vmacw` with a scalar (R285). -/
def execVmacwVx (d a : VR) (x : XR) (p : PR) (_ca : Bool) (s : State) : Out := s.vter 4 .macw d a (.x x) d p

/-! Unary operations (R286). -/

inductive UnOp | neg | abs | sqrt | rcp | rsqrt | exp2 | clz | popc | cls | mv
deriving DecidableEq, Repr

def UnOp.rt (o : UnOp) (t : Tag) : Option Tag :=
  if !t.ordinary then none
  else match o with
    | .neg | .abs | .mv => some t
    | .sqrt | .rcp | .rsqrt | .exp2 => if t.isFloat then some t else none
    | .clz | .popc => if t.isFloat then none else some t
    | .cls => if t.isFloat then some .z16 else none

/-- The sign bit of a float code inverted, or cleared; a NaN gives the canonical NaN. -/
def signOp (t : Tag) (c : Nat) (f : Bool → Bool) : Coded :=
  if (val t c).isNan then (t.fmt.nanCode, 0)
  else
    let k := 2 ^ (t.width - 1)
    (c % k + (if f (c / k % 2 == 1) then k else 0), 0)

def UnOp.calc (o : UnOp) (rm : Rm) (t : Tag) (c : Nat) : Coded :=
  let w := t.width
  let f := t.fmt
  match o with
  | .neg => if t.isFloat then signOp t c (!·) else (wrapNat w (-intVal t c), 0)
  | .abs => if t.isFloat then signOp t c (fun _ => false) else (wrapNat w (intVal t c).natAbs, 0)
  | .sqrt => fSqrt f rm (val t c)
  | .rcp => fRcp f rm (val t c)
  | .rsqrt => fRsqrt f rm (val t c)
  | .exp2 => fExp2 f rm (val t c)
  | .clz => (leadZeros w c, 0)
  | .popc => (popCount w c, 0)
  | .cls => (fClass f (val t c), 0)
  | .mv => (c, 0)

def unElem (o : UnOp) : ElemOp where
  rt _ ts := match ts with
    | [a] => o.rt a
    | _ => none
  f h ts _ _ cs := match ts, cs with
    | [t], [c] => o.calc h.rm t c
    | _, _ => (0, 0)
  all := false

def State.vun (s : State) (n : Nat) (o : UnOp) (d a : VR) (p : PR) : Out :=
  completeV n (s.elementwise (unElem o) [.v a] d p)

/-- `vneg` (R286). -/
def execVneg (d a : VR) (p : PR) (_ca : Bool) (s : State) : Out := s.vun 4 .neg d a p
/-- `vabs` (R286). -/
def execVabs (d a : VR) (p : PR) (_ca : Bool) (s : State) : Out := s.vun 4 .abs d a p
/-- `vsqrt` (R286). -/
def execVsqrt (d a : VR) (p : PR) (_ca : Bool) (s : State) : Out := s.vun 4 .sqrt d a p
/-- `vrcp` (R286). -/
def execVrcp (d a : VR) (p : PR) (_ca : Bool) (s : State) : Out := s.vun 4 .rcp d a p
/-- `vrsqrt` (R286). -/
def execVrsqrt (d a : VR) (p : PR) (_ca : Bool) (s : State) : Out := s.vun 4 .rsqrt d a p
/-- `vexp2` (R286). -/
def execVexp2 (d a : VR) (p : PR) (_ca : Bool) (s : State) : Out := s.vun 4 .exp2 d a p
/-- `vclz` (R286). -/
def execVclz (d a : VR) (p : PR) (_ca : Bool) (s : State) : Out := s.vun 4 .clz d a p
/-- `vpopc` (R286). -/
def execVpopc (d a : VR) (p : PR) (_ca : Bool) (s : State) : Out := s.vun 4 .popc d a p
/-- `vclass` (R286). -/
def execVclass (d a : VR) (p : PR) (_ca : Bool) (s : State) : Out := s.vun 4 .cls d a p
/-- `vmv` (R286). -/
def execVmv (d a : VR) (p : PR) (_ca : Bool) (s : State) : Out := s.vun 4 .mv d a p

/-! Move and select (R287). -/

/-- `vsel`: the predicate chooses between the two sources; all of [0, vl) is written. -/
def selElem : ElemOp where
  rt _ ts := match ts with
    | [a, b] => opTag a b
    | _ => none
  f h ts _ m cs := match ts, cs with
    | [ta, tb], [a, b] =>
      let t := promote ta tb
      if m then convTag ta t h.rm a else ((convTag tb t h.rm b).1, 0)
    | _, _ => (0, 0)
  all := true

/-- `vsplat`: the low bits of a scalar, in the destination's tag. -/
def splatElem (x : XR) (vd : VR) : ElemOp where
  rt d _ := if d.ordinary then some d else none
  f h _ _ _ _ := ((h.getX x).toNat % 2 ^ (h.tagOf vd).width, 0)
  all := false

/-- `vid`: the element's index, in the destination's tag. -/
def idElem (vd : VR) : ElemOp where
  rt d _ := if d.isInt then some d else none
  f h _ i _ _ := (i % 2 ^ (h.tagOf vd).width, 0)
  all := false

def State.vsel (s : State) (n : Nat) (d a b : VR) (p : PR) : Out :=
  completeV n (s.elementwise selElem [.v a, .v b] d p)
def State.vsplat (s : State) (n : Nat) (d : VR) (x : XR) (p : PR) : Out :=
  completeV n (s.elementwise (splatElem x d) [] d p)
def State.vid (s : State) (n : Nat) (d : VR) (p : PR) : Out := completeV n (s.elementwise (idElem d) [] d p)

/-- `vsel` (R287). -/
def execVsel (d a b : VR) (p : PR) (_ca _cb : Bool) (s : State) : Out := s.vsel 4 d a b p
/-- `vsplat` (R287). -/
def execVsplat (d : VR) (x : XR) (p : PR) (s : State) : Out := s.vsplat 4 d x p
/-- `vid` (R287). -/
def execVid (d : VR) (p : PR) (s : State) : Out := s.vid 4 d p

/-! Compare (R288). -/

/-- A condition on two codes of tag t. -/
def condCalc (n : Cond) (t : Tag) (a b : Nat) : Bool × Nat :=
  if t.isFloat then fCmp n (val t a) (val t b)
  else
    let x := intVal t a
    let y := intVal t b
    (match n with
      | .eq => x == y
      | .ne => x != y
      | .lt => decide (x < y)
      | .le => decide (x ≤ y)
      | .gt => decide (x > y)
      | .ge => decide (x ≥ y)
      | .un => false, 0)

/-- A comparison of two codes after promotion. -/
def cmpElem (n : Cond) (rm : Rm) (ta tb : Tag) (a b : Nat) : Bool × Nat :=
  let t := promote ta tb
  let ca := convTag ta t rm a
  let cb := convTag tb t rm b
  let r := condCalc n t ca.1 cb.1
  (r.1, ca.2 ||| cb.2 ||| r.2)

/-- The bits that a comparison gives the listed elements, with the flags; an inactive element gives 0. -/
def Hart.compared (h : Hart) (n : Cond) (srcs : List Src) (pm : PR) (l : List Nat) :
    List (Nat × Bool) × Nat :=
  match h.srcTags srcs with
  | [ta, tb] =>
    l.foldr (fun i acc =>
      if h.pred pm i then
        match h.srcCodes srcs i with
        | [a, b] =>
          let r := cmpElem n h.rm ta tb a b
          ((i, r.1) :: acc.1, r.2 ||| acc.2)
        | _ => acc
      else ((i, false) :: acc.1, acc.2)) ([], 0)
  | _ => ([], 0)

def Hart.setBitsAt (h : Hart) (pd : PR) (l : List (Nat × Bool)) : Hart :=
  l.foldl (fun h e => h.setPred pd e.1 e.2) h

/-- `vcmp`: precise by granules like every instruction of R282. -/
def State.compare (s : State) (n : Cond) (srcs : List Src) (pd pm : PR) : Res := do
  let h := s.me
  let ok := match h.srcTags srcs with | [a, b] => (opTag a b).isSome | _ => false
  let s ← s.operands ok (h.srcRegs srcs) none
  let h := s.me
  if h.vl = 0 then .ok s
  else
    let todo := (List.range h.vl).filter fun e => !h.resume.did e
    let failed := s.residueBad todo
    let bad := if s.bad.isEmpty then failed
      else todo.filter fun e => failed.contains e || (h.srcRegs srcs).any fun r => s.elemBad r.1 r.2 e
    let upTo (l : List Nat) (h : Hart) : Hart :=
      let (bits, fl) := h.compared n srcs pm l
      (h.setBitsAt pd bits).orFlags fl
    match if pd = pm then none else s.pauseAt todo bad with
    | some st => .error (.wait ((s.setMe (upTo st.keep h)).pausedAt st.sfx st.slip))
    | none =>
      match s.stopAt todo bad with
      | none => .ok (s.clearResidue.setMe (upTo todo h))
      | some st => .error (s.elemTrap (failed.contains st.elem) (if pd = pm then none else some st) (upTo st.keep))

def State.vcmp (s : State) (len : Nat) (n : Cond) (q : PR) (a : VR) (b : Src) (m : PR) : Out :=
  completeV len (s.compare n [.v a, b] q m)

/-- `vcmp` (R288). -/
def execVcmp (q : PR) (a b : VR) (m : PR) (_ca _cb : Bool) (n : Cond) (s : State) : Out := s.vcmp 4 n q a (.v b) m
/-- `vcmp` with a scalar (R288). -/
def execVcmpVx (q : PR) (a : VR) (x : XR) (m : PR) (_ca : Bool) (n : Cond) (s : State) : Out :=
  s.vcmp 4 n q a (.x x) m

/-! Reductions (R170, R171, R289). -/

inductive RedOp | sum | sumOrd | min | max | and | or
deriving DecidableEq, Repr

/-- One addition of codes with its flags, a missing side giving the other. -/
def combine (f : Fmt) (rm : Rm) (t : Tag) (a b : Option Coded) : Option Coded :=
  match a, b with
  | none, b => b
  | a, none => a
  | some a, some b =>
    let r := fAdd f rm (val t a.1) (val t b.1)
    some (r.1, a.2 ||| b.2 ||| r.2)

/-- Each pair of neighbours combined. -/
def pairUp (g : Option Coded → Option Coded → Option Coded) : List (Option Coded) → List (Option Coded)
  | a :: b :: l => g a b :: pairUp g l
  | l => l

/-- red_tree: six levels over 64 virtual lanes. -/
def redTree (g : Option Coded → Option Coded → Option Coded) (l : List (Option Coded)) : Option Coded :=
  ((pairUp g (pairUp g (pairUp g (pairUp g (pairUp g (pairUp g l)))))).head?).getD none

/-- The unordered float sum of elements, given by index and code (R170). -/
def treeSum (f : Fmt) (rm : Rm) (t : Tag) (l : List (Nat × Nat)) : Coded :=
  let g := combine f rm t
  let lane (q : Nat) : Option Coded :=
    (l.filter fun e => e.1 % 64 == q).foldl (fun acc e => g acc (some (e.2, 0))) none
  (redTree g ((List.range 64).map lane)).getD (0, 0)

/-- One step of a reduction on codes of tag t. -/
def RedOp.step (o : RedOp) (rm : Rm) (t : Tag) (r x : Nat) : Coded :=
  match o with
  | .sum | .sumOrd => if t.isFloat then BinOp.flt .add rm t r x else BinOp.int .add 0 t (intVal t r) (intVal t x)
  | .min => if t.isFloat then BinOp.flt .min rm t r x else BinOp.int .min 0 t (intVal t r) (intVal t x)
  | .max => if t.isFloat then BinOp.flt .max rm t r x else BinOp.int .max 0 t (intVal t r) (intVal t x)
  | .and => (r &&& x, 0)
  | .or => (r ||| x, 0)

/-- A reduction of elements (index and code in t) with a start; a NaN start gives the canonical NaN, and a signalling one
raises NV (R160, R171). -/
def RedOp.reduce (o : RedOp) (rm : Rm) (t : Tag) (start : Nat) (l : List (Nat × Nat)) : Coded :=
  if o = .sum ∧ t.isFloat then
    let r := treeSum t.fmt rm t l
    let q := fAdd t.fmt rm (val t r.1) (val t start)
    (q.1, r.2 ||| q.2)
  else
    let first := if t.isFloat then RedOp.min.step rm t start start else (start, 0)
    l.foldl (fun acc e => let r := o.step rm t acc.1 e.2; (r.1, acc.2 ||| r.2)) first

/-- The result of a reduction: element 0 of vd. -/
def Hart.reduced (o : RedOp) (a b : VR) (p : PR) (h : Hart) (ts : List Tag) : List (Nat × Nat) × Nat :=
  match ts with
  | [ta, tb] =>
    let t := promote ta tb
    let conv := (h.actives p).map fun i => (i, convTag ta t h.rm (h.code a ta.width i))
    let start := convTag tb t h.rm (h.code b tb.width 0)
    let r := o.reduce h.rm t start.1 (conv.map fun e => (e.1, e.2.1))
    ([(0, r.1)], conv.foldl (fun fl e => fl ||| e.2.2) (start.2 ||| r.2))
  | _ => ([], 0)

def State.vred (s : State) (n : Nat) (o : RedOp) (d a b : VR) (p : PR) : Out :=
  completeV n (s.wholesale [.v a, .v b] d
    (fun _ ts => match ts with
      | [ta, tb] => (opTag ta tb).bind fun t =>
          if t.isFloat && (o == .and || o == .or) then none else some t
      | _ => none)
    (Hart.reduced o a b p) fun h k => if k = 0 then h.actives p else [0])

/-- `vredsum` (R170, R289). -/
def execVredsum (d a b : VR) (p : PR) (_ca _cb : Bool) (s : State) : Out := s.vred 4 .sum d a b p
/-- `vredsum.ord` (R170, R289). -/
def execVredsumOrd (d a b : VR) (p : PR) (_ca _cb : Bool) (s : State) : Out := s.vred 4 .sumOrd d a b p
/-- `vredmin` (R289). -/
def execVredmin (d a b : VR) (p : PR) (_ca _cb : Bool) (s : State) : Out := s.vred 4 .min d a b p
/-- `vredmax` (R289). -/
def execVredmax (d a b : VR) (p : PR) (_ca _cb : Bool) (s : State) : Out := s.vred 4 .max d a b p
/-- `vredand` (R289). -/
def execVredand (d a b : VR) (p : PR) (_ca _cb : Bool) (s : State) : Out := s.vred 4 .and d a b p
/-- `vredor` (R289). -/
def execVredor (d a b : VR) (p : PR) (_ca _cb : Bool) (s : State) : Out := s.vred 4 .or d a b p

/-! Conversions (R290 to R292). -/

/-- `vcvt`: any tag to any tag. -/
def cvtElem (rt : Tag) : ElemOp where
  rt _ _ := some rt
  f h ts _ _ cs := match ts, cs with
    | [t], [c] => convAny t rt h.rm c
    | _, _ => (0, 0)
  all := false

/-- The tag of half the width, for `vnarrow`. -/
def half : Tag → Option Tag
  | .s8 => some .s4
  | .s16 => some .s8
  | .s32 => some .s16
  | .s64 => some .s32
  | .z16 => some .z8
  | .z32 => some .z16
  | .z64 => some .z32
  | _ => none

/-- `vnarrow`: shift, round and clamp. -/
def narrowElem (x : XR) : ElemOp where
  rt _ ts := match ts with
    | [a] => half a
    | _ => none
  f h ts _ _ cs := match ts, cs with
    | [t], [c] =>
      let sh := min ((h.getX x).toNat % 64) t.width
      satInt ((half t).getD .s8) (fixnarrow h.fixrm (intVal t c) sh)
    | _, _ => (0, 0)
  all := false

/-- The tag of double the width, for `vwiden`. -/
def double : Tag → Option Tag
  | .s4 => some .s8
  | t => wid t

/-- `vwiden`: exact, without a flag. -/
def widenElem : ElemOp where
  rt _ ts := match ts with
    | [a] => double a
    | _ => none
  f h ts _ _ cs := match ts, cs with
    | [t], [c] => ((convAny t ((double t).getD .s8) h.rm c).1, 0)
    | _, _ => (0, 0)
  all := false

def State.vcvt (s : State) (n : Nat) (d a : VR) (t : Tag) (p : PR) : Out :=
  completeV n (s.elementwise (cvtElem t) [.v a] d p)
def State.vnarrow (s : State) (n : Nat) (d a : VR) (x : XR) (p : PR) : Out :=
  completeV n (s.elementwise (narrowElem x) [.v a] d p)
def State.vwiden (s : State) (n : Nat) (d a : VR) (p : PR) : Out :=
  completeV n (s.elementwise widenElem [.v a] d p)

/-- `vcvt` (R290). -/
def execVcvt (d a : VR) (t : Tag) (p : PR) (_ca : Bool) (s : State) : Out := s.vcvt 4 d a t p
/-- `vnarrow` (R291). -/
def execVnarrow (d a : VR) (x : XR) (p : PR) (_ca : Bool) (s : State) : Out := s.vnarrow 4 d a x p
/-- `vwiden` (R292). -/
def execVwiden (d a : VR) (p : PR) (_ca : Bool) (s : State) : Out := s.vwiden 4 d a p

end Sys2Proof.Machine
end

