-- ==== Sys2Proof/Machine/VecPerm.lean ====
section
/-!
DEFINITION. Permutes, scans, run-time dependence and predicate logic (R297 to R307).
-/
namespace Sys2Proof.Machine

/-! Permutes (R298, R299). -/

/-- The result tag of a permute: that of its one vector source. -/
def sameTag (_ : Tag) : List Tag → Option Tag
  | a :: _ => if a.ordinary then some a else none
  | _ => none

/-- The codes that elements of a list take from element src i of the group at a, or 0. -/
def Hart.gather (h : Hart) (a : VR) (l : List (Nat × Option Nat)) : List (Nat × Nat) :=
  l.map fun e => (e.1, match e.2 with | some j => h.elem a j | none => 0)

/-- `vraise`: elements move up by k. -/
def Hart.raised (a : VR) (x : XR) (p : PR) (h : Hart) (_ : List Tag) : List (Nat × Nat) × Nat :=
  let k := (h.getX x).toNat
  (h.gather a (((h.actives p).filter fun i => k ≤ i).map fun i => (i, some (i - k))), 0)

/-- `vlower`: elements move down by k, zeros follow. -/
def Hart.lowered (a : VR) (x : XR) (p : PR) (h : Hart) (_ : List Tag) : List (Nat × Nat) × Nat :=
  let k := (h.getX x).toNat
  (h.gather a ((h.actives p).map fun i => (i, if i + k < h.vl then some (i + k) else none)), 0)

/-- `vperm`: elements by index. -/
def Hart.permuted (a b : VR) (p : PR) (h : Hart) (_ : List Tag) : List (Nat × Nat) × Nat :=
  (h.gather a ((h.actives p).map fun i =>
    (i, let n := h.elem b i; if n < h.vl then some n else none)), 0)

/-- `vrev`. -/
def Hart.reversed (a : VR) (p : PR) (h : Hart) (_ : List Tag) : List (Nat × Nat) × Nat :=
  (h.gather a ((h.actives p).map fun i => (i, some (h.vl - 1 - i))), 0)

/-- `vzip`. -/
def Hart.zipped (a b : VR) (p : PR) (h : Hart) (_ : List Tag) : List (Nat × Nat) × Nat :=
  ((h.actives p).map fun i => (i, if i % 2 = 0 then h.elem a (i / 2) else h.elem b (i / 2)), 0)

/-- `vunzip`. -/
def Hart.unzipped (a b : VR) (p : PR) (h : Hart) (_ : List Tag) : List (Nat × Nat) × Nat :=
  let m := (h.vl + 1) / 2
  ((h.actives p).map fun i => (i, if i < m then h.elem a (2 * i) else h.elem b (2 * (i - m) + 1)), 0)

/-- `vsqueeze`: the selected elements side by side. -/
def Hart.squeezed (a : VR) (p : PR) (h : Hart) (_ : List Tag) : List (Nat × Nat) × Nat :=
  ((h.actives p).zipIdx.map fun e => (e.2, h.elem a e.1), 0)

/-- `vspread`: elements side by side go to the selected places. -/
def Hart.spread (a : VR) (p : PR) (h : Hart) (_ : List Tag) : List (Nat × Nat) × Nat :=
  ((h.actives p).zipIdx.map fun e => (e.1, h.elem a e.2), 0)

/-- `vrank`: how many selected elements lie below each. -/
def Hart.ranked (d : VR) (p : PR) (h : Hart) (_ : List Tag) : List (Nat × Nat) × Nat :=
  let w := (h.tagOf d).width
  ((List.range h.vl).map fun i => (i, ((h.actives p).filter (· < i)).length % 2 ^ w), 0)

def State.vraise (s : State) (n : Nat) (d a : VR) (x : XR) (p : PR) : Out :=
  completeV n (s.wholesale [.v a] d sameTag (Hart.raised a x p))
def State.vlower (s : State) (n : Nat) (d a : VR) (x : XR) (p : PR) : Out :=
  completeV n (s.wholesale [.v a] d sameTag (Hart.lowered a x p))
def State.vperm (s : State) (n : Nat) (d a b : VR) (p : PR) : Out :=
  completeV n (s.wholesale [.v a, .v b] d
    (fun _ ts => match ts with
      | [a, b] => if a.ordinary && b.isInt then some a else none
      | _ => none)
    (Hart.permuted a b p))
def State.vrev (s : State) (n : Nat) (d a : VR) (p : PR) : Out :=
  completeV n (s.wholesale [.v a] d sameTag (Hart.reversed a p))
/-- The result tag of `vzip` and `vunzip`: both sources carry it. -/
def pairTag (_ : Tag) : List Tag → Option Tag
  | [a, b] => if a.ordinary && a == b then some a else none
  | _ => none
def State.vzip (s : State) (n : Nat) (d a b : VR) (p : PR) : Out :=
  completeV n (s.wholesale [.v a, .v b] d pairTag (Hart.zipped a b p))
def State.vunzip (s : State) (n : Nat) (d a b : VR) (p : PR) : Out :=
  completeV n (s.wholesale [.v a, .v b] d pairTag (Hart.unzipped a b p))
def State.vsqueeze (s : State) (n : Nat) (d a : VR) (p : PR) : Out :=
  completeV n (s.wholesale [.v a] d sameTag (Hart.squeezed a p))
def State.vspread (s : State) (n : Nat) (d a : VR) (p : PR) : Out :=
  completeV n (s.wholesale [.v a] d sameTag (Hart.spread a p))
def State.vrank (s : State) (n : Nat) (d : VR) (p : PR) : Out :=
  completeV n (s.wholesale [] d (fun t _ => if t.isInt then some t else none) (Hart.ranked d p))

/-- `vraise` (R298). -/
def execVraise (d a : VR) (x : XR) (p : PR) (_ca : Bool) (s : State) : Out := s.vraise 4 d a x p
/-- `vlower` (R298). -/
def execVlower (d a : VR) (x : XR) (p : PR) (_ca : Bool) (s : State) : Out := s.vlower 4 d a x p
/-- `vperm` (R298). -/
def execVperm (d a b : VR) (p : PR) (_ca _cb : Bool) (s : State) : Out := s.vperm 4 d a b p
/-- `vrev` (R298). -/
def execVrev (d a : VR) (p : PR) (_ca : Bool) (s : State) : Out := s.vrev 4 d a p
/-- `vzip` (R298). -/
def execVzip (d a b : VR) (p : PR) (_ca _cb : Bool) (s : State) : Out := s.vzip 4 d a b p
/-- `vunzip` (R298). -/
def execVunzip (d a b : VR) (p : PR) (_ca _cb : Bool) (s : State) : Out := s.vunzip 4 d a b p
/-- `vsqueeze` (R299). -/
def execVsqueeze (d a : VR) (p : PR) (_ca : Bool) (s : State) : Out := s.vsqueeze 4 d a p
/-- `vspread` (R299). -/
def execVspread (d a : VR) (p : PR) (_ca : Bool) (s : State) : Out := s.vspread 4 d a p
/-- `vrank` (R299). -/
def execVrank (d : VR) (p : PR) (s : State) : Out := s.vrank 4 d p

/-! Scans (R300). -/

/-- The identity of a scan operation in a tag. -/
def scanIdent (o : ScanOp) (t : Tag) : Nat :=
  match o with
  | .add | .or => 0
  | .min => if t.isFloat then t.fmt.infCode false else wrapNat t.width t.maxInt
  | .max => if t.isFloat then t.fmt.infCode true else wrapNat t.width t.minInt

/-- The step of a scan. -/
def scanRed : ScanOp → RedOp
  | .add => .sum
  | .min => .min
  | .max => .max
  | .or => .or

/-- The running values of a scan over the listed elements: each with its start and its selection. -/
def scanLoop (o : ScanOp) (rm : Rm) (t : Tag) :
    List (Nat × Bool × Bool × Nat) → Option Nat → List (Nat × Nat) × Nat
  | [], _ => ([], 0)
  | (i, start, on, x) :: l, r =>
    let r := if start then none else r
    let (r, fl) : Option Nat × Nat :=
      if on then
        match r with
        | none => (some x, 0)
        | some v => let q := (scanRed o).step rm t v x; (some q.1, q.2)
      else (r, 0)
    let (rest, fl') := scanLoop o rm t l r
    ((i, r.getD (scanIdent o t)) :: rest, fl ||| fl')

/-- The elements of a scan; seg names the predicate that starts segments. -/
def Hart.scanned (o : ScanOp) (seg : Option PR) (a : VR) (p : PR) (h : Hart) (_ : List Tag) :
    List (Nat × Nat) × Nat :=
  scanLoop o h.rm (h.tagOf a) ((List.range h.vl).map fun i =>
    (i, (match seg with | some q => h.pred q i | none => false), h.pred p i, h.elem a i)) none

def State.vscan (s : State) (n : Nat) (o : ScanOp) (seg : Option PR) (d a : VR) (p : PR) : Out :=
  completeV n (s.wholesale [.v a] d
    (fun _ ts => match ts with
      | [a] => if a.ordinary && !(a.isFloat && o == .or) then some a else none
      | _ => none)
    (Hart.scanned o seg a p))

/-- `vscan` (R300). -/
def execVscan (d a : VR) (p : PR) (_ca : Bool) (o : ScanOp) (s : State) : Out := s.vscan 4 o none d a p
/-- `vscan.seg` (R300). -/
def execVscanSeg (d a : VR) (q p : PR) (_ca : Bool) (o : ScanOp) (s : State) : Out := s.vscan 4 o (some q) d a p

/-! Run-time dependence (R301 to R305). -/

/-- The last earlier active element with the same key, or -1. -/
def Hart.conflict (h : Hart) (a : VR) (p : PR) (i : Nat) : Int :=
  if h.pred p i then
    match ((List.range i).filter fun j => h.pred p j && h.elem a j == h.elem a i).getLast? with
    | some j => j
    | none => -1
  else -1

/-- `vconf`: every element below vl is written. -/
def Hart.conflicts (a : VR) (p : PR) (h : Hart) (_ : List Tag) : List (Nat × Nat) × Nat :=
  ((List.range h.vl).map fun i => (i, wrapNat 32 (h.conflict a p i)), 0)

/-- `vpart`: the run that starts at the first bit of ps. -/
def Hart.run (a : VR) (q : PR) (h : Hart) (ts : List Tag) : (Nat → Bool) × Nat :=
  let t := ts.headD .s32
  match (List.range h.vl).find? fun i => h.pred q i with
  | none => (fun _ => false, 0)
  | some b =>
    let e := ((List.range h.vl).find? fun i => b < i && decide (intVal t (h.elem a i) ≥ (b : Int))).getD h.vl
    (fun i => b ≤ i && i < e, 0)

/-- The first active element with a bit of pa, or vl. -/
def Hart.firstCut (h : Hart) (a m : PR) : Nat :=
  ((List.range h.vl).find? fun i => h.pred m i && h.pred a i).getD h.vl

/-- The value of an element in an x register (R305). -/
def scalarOf (t : Tag) (c : Nat) : Word :=
  if t.isSgn then BitVec.ofInt 64 (sextNat c t.width) else BitVec.ofNat 64 c

/-- The tag check of an instruction with one source. -/
def oneTag (f : Tag → Bool) : List Tag → Bool
  | [a] => f a
  | _ => false

def State.vconf (s : State) (n : Nat) (d a : VR) (p : PR) : Out :=
  completeV n (s.wholesale [.v a] d
    (fun _ ts => if oneTag Tag.isInt ts then some .s32 else none) (Hart.conflicts a p))
def State.vpart (s : State) (n : Nat) (q : PR) (a : VR) (p : PR) : Out :=
  completeV n (s.toPred [.v a] (oneTag fun t => t.isInt && t.isSgn) q (Hart.run a p))
def State.vcut (s : State) (n : Nat) (inc : Bool) (q a m : PR) : Out :=
  completeV n (s.toPred [] (fun _ => true) q fun h _ =>
    let f := h.firstCut a m
    (fun i => h.pred m i && (i < f || (inc && i == f)), 0))
def State.vpick (s : State) (n : Nat) (last : Bool) (d : XR) (a : VR) (p : PR) : Out :=
  completeV n (s.toScalar [.v a] (oneTag Tag.ordinary) d fun h _ =>
    let l := h.actives p
    (if last then l.getLast? else l.head?).map fun i => scalarOf (h.tagOf a) (h.elem a i))

/-- `vconf` (R301). -/
def execVconf (d a : VR) (p : PR) (_ca : Bool) (s : State) : Out := s.vconf 4 d a p
/-- `vpart` (R302). -/
def execVpart (q : PR) (a : VR) (p : PR) (_ca : Bool) (s : State) : Out := s.vpart 4 q a p
/-- `vcuti` (R304). -/
def execVcuti (q a m : PR) (s : State) : Out := s.vcut 4 true q a m
/-- `vcutx` (R304). -/
def execVcutx (q a m : PR) (s : State) : Out := s.vcut 4 false q a m
/-- `vlast` (R305). -/
def execVlast (d : XR) (a : VR) (p : PR) (_ca : Bool) (s : State) : Out := s.vpick 4 true d a p
/-- `vfirst` (R305). -/
def execVfirst (d : XR) (a : VR) (p : PR) (_ca : Bool) (s : State) : Out := s.vpick 4 false d a p

/-! Predicate logic (R303, R306, R307). -/

/-- A bitwise predicate instruction: the bit from m, a and b. -/
def State.plogic (s : State) (n : Nat) (f : Bool → Bool → Bool) (d a b p : PR) : Out :=
  completeV n (s.toPred [] (fun _ => true) d fun h _ => (fun i => h.pred p i && f (h.pred a i) (h.pred b i), 0))

/-- `pafter`: the elements above the last bit of pa. -/
def State.pafter (s : State) (n : Nat) (d a p : PR) : Out :=
  completeV n (s.toPred [] (fun _ => true) d fun h _ =>
    match ((List.range h.vl).filter fun i => h.pred a i).getLast? with
    | none => (fun _ => false, 0)
    | some l => (fun i => h.pred p i && l < i, 0))

/-- The elements below vl with bits in both predicates. -/
def Hart.both (h : Hart) (a p : PR) : List Nat := (List.range h.vl).filter fun i => h.pred a i && h.pred p i

def State.pcnt (s : State) (n : Nat) (d : XR) (a p : PR) : Out :=
  completeV n (s.toScalar [] (fun _ => true) d fun h _ => some (BitVec.ofNat 64 (h.both a p).length))
def State.pfirst (s : State) (n : Nat) (d : XR) (a p : PR) : Out :=
  completeV n (s.toScalar [] (fun _ => true) d fun h _ => some (BitVec.ofNat 64 ((h.both a p).head?.getD h.vl)))

/-- `pand` (R306). -/
def execPand (d a b p : PR) (s : State) : Out := s.plogic 4 (fun x y => x && y) d a b p
/-- `por` (R306). -/
def execPor (d a b p : PR) (s : State) : Out := s.plogic 4 (fun x y => x || y) d a b p
/-- `pxor` (R306). -/
def execPxor (d a b p : PR) (s : State) : Out := s.plogic 4 (fun x y => x != y) d a b p
/-- `pnot` (R306). -/
def execPnot (d a p : PR) (s : State) : Out := s.plogic 4 (fun x _ => !x) d a 0 p
/-- `pandn` (R306). -/
def execPandn (d a b p : PR) (s : State) : Out := s.plogic 4 (fun x y => x && !y) d a b p
/-- `pafter` (R303). -/
def execPafter (d a p : PR) (s : State) : Out := s.pafter 4 d a p
/-- `pset` (R306). -/
def execPset (d p : PR) (s : State) : Out := s.plogic 4 (fun _ _ => true) d 0 0 p
/-- `pclr` (R306). -/
def execPclr (d : PR) (s : State) : Out := s.plogic 4 (fun _ _ => false) d 0 0 0
/-- `pcnt` (R307). -/
def execPcnt (d : XR) (a p : PR) (s : State) : Out := s.pcnt 4 d a p
/-- `pfirst` (R307). -/
def execPfirst (d : XR) (a p : PR) (s : State) : Out := s.pfirst 4 d a p

/-! Extended forms (R250, R308). -/

/-- A predicate held in a 5-bit slot: its low four bits (R240). -/
def prOf (n : Fin 32) : PR := Fin.ofNat 16 n.val

/-- The unary operations by code (R246). -/
def unOps : List UnOp := [.neg, .abs, .sqrt, .rcp, .rsqrt, .exp2, .clz, .popc, .cls, .mv]

/-- An EV word with fn9[8] = 0: the 32-bit instruction, with p0 to p15, a scalar chosen by sb, and for the ternary
forms the addend in vc. -/
def execEvExtended (op : EvOp) (d a b c : Fin 32) (p : PR) (_ca _cb _cc sb : Bool) (s : State) : Out :=
  let y := srcOf b sb
  match op with
  | .vadd => s.vbin 8 .add d a y p
  | .vsub => s.vbin 8 .sub d a y p
  | .vmul => s.vbin 8 .mul d a y p
  | .vmin => s.vbin 8 .min d a y p
  | .vmax => s.vbin 8 .max d a y p
  | .vand => s.vbin 8 .and d a y p
  | .vor => s.vbin 8 .or d a y p
  | .vxor => s.vbin 8 .xor d a y p
  | .vfma => s.vter 8 .fma d a y c p
  | .vfms => s.vter 8 .fms d a y c p
  | .vfnma => s.vter 8 .fnma d a y c p
  | .vmacw => s.vter 8 .macw d a y c p
  | .unary => s.vun 8 (unOps.getD b.val .mv) d a p
  | .vsel => s.vsel 8 d a b p
  | .vsplat => s.vsplat 8 d b p
  | .vid => s.vid 8 d p
  | .vshl => s.vshift 8 true d a y p
  | .vshr => s.vshift 8 false d a y p
  | .vcmp n => s.vcmp 8 n (prOf d) a y p
  | .vredsum => s.vred 8 .sum d a b p
  | .vredsumOrd => s.vred 8 .sumOrd d a b p
  | .vredmin => s.vred 8 .min d a b p
  | .vredmax => s.vred 8 .max d a b p
  | .vredand => s.vred 8 .and d a b p
  | .vredor => s.vred 8 .or d a b p
  | .vscan o => s.vscan 8 o none d a p
  | .vscanSeg o => s.vscan 8 o (some (prOf b)) d a p
  | .vraise => s.vraise 8 d a b p
  | .vlower => s.vlower 8 d a b p
  | .vperm => s.vperm 8 d a b p
  | .vrev => s.vrev 8 d a p
  | .vzip => s.vzip 8 d a b p
  | .vunzip => s.vunzip 8 d a b p
  | .vsqueeze => s.vsqueeze 8 d a p
  | .vspread => s.vspread 8 d a p
  | .vrank => s.vrank 8 d p
  | .vconf => s.vconf 8 d a p
  | .vpart => s.vpart 8 (prOf d) a (prOf b)
  | .vcuti => s.vcut 8 true (prOf d) (prOf a) p
  | .vcutx => s.vcut 8 false (prOf d) (prOf a) p
  | .vlast => s.vpick 8 true d a p
  | .vfirst => s.vpick 8 false d a p
  | .vcvt => s.vcvt 8 d a (tagTable.getD b.val .s32) p
  | .vnarrow => s.vnarrow 8 d a b p
  | .vwiden => s.vwiden 8 d a p
  | .pand => s.plogic 8 (fun x y => x && y) (prOf d) (prOf a) (prOf b) p
  | .por => s.plogic 8 (fun x y => x || y) (prOf d) (prOf a) (prOf b) p
  | .pxor => s.plogic 8 (fun x y => x != y) (prOf d) (prOf a) (prOf b) p
  | .pnot => s.plogic 8 (fun x _ => !x) (prOf d) (prOf a) 0 p
  | .pandn => s.plogic 8 (fun x y => x && !y) (prOf d) (prOf a) (prOf b) p
  | .pafter => s.pafter 8 (prOf d) (prOf a) p
  | .pset => s.plogic 8 (fun _ _ => true) (prOf d) 0 0 p
  | .pclr => s.plogic 8 (fun _ _ => false) (prOf d) 0 0 0
  | .pcnt => s.pcnt 8 d (prOf a) p
  | .pfirst => s.pfirst 8 d (prOf a) p

end Sys2Proof.Machine
end

