-- ==== Sys2Proof/Machine/Scalar.lean ====
section
/-!
DEFINITION. Scalar integer, load, store, branch, jump and atomic instructions, and the compressed forms (R237,
R238, R256 to R263, R267).
-/
namespace Sys2Proof.Machine

/-! Integer operations (R257). -/

/-- An instruction of n bytes that writes v to rd. -/
def State.alu (s : State) (n : Nat) (d : XR) (v : Word) : Out := complete n (.ok (s.setX d v))

/-- Shifts by the low six bits. -/
def shl64 (a b : Word) : Word := a <<< (b.toNat % 64)
def shr64 (a b : Word) : Word := a >>> (b.toNat % 64)
def sar64 (a b : Word) : Word := a.sshiftRight (b.toNat % 64)

/-- 1 or 0. -/
def flag64 (b : Bool) : Word := if b then 1 else 0

/-- Quotient and remainder with their borderlines. -/
def div64 (a b : Word) : Word := BitVec.ofInt 64 (divInt .s64 a.toInt b.toInt)
def divn64 (a b : Word) : Word := BitVec.ofInt 64 (divInt .z64 a.toNat b.toNat)
def rem64 (a b : Word) : Word := BitVec.ofInt 64 (remInt a.toInt b.toInt)
def remn64 (a b : Word) : Word := BitVec.ofInt 64 (remInt a.toNat b.toNat)

/-- The high words of products. -/
def mulh64 (a b : Word) : Word := BitVec.ofInt 64 (a.toInt * b.toInt / (2 : Int) ^ 64)
def mulhn64 (a b : Word) : Word := BitVec.ofNat 64 (a.toNat * b.toNat / 2 ^ 64)

/-- `add` (R257). -/
def execAdd (d a b : XR) (s : State) : Out := s.alu 4 d (s.getX a + s.getX b)
/-- `sub` (R257). -/
def execSub (d a b : XR) (s : State) : Out := s.alu 4 d (s.getX a - s.getX b)
/-- `and` (R257). -/
def execAnd (d a b : XR) (s : State) : Out := s.alu 4 d (s.getX a &&& s.getX b)
/-- `or` (R257). -/
def execOr (d a b : XR) (s : State) : Out := s.alu 4 d (s.getX a ||| s.getX b)
/-- `xor` (R257). -/
def execXor (d a b : XR) (s : State) : Out := s.alu 4 d (s.getX a ^^^ s.getX b)
/-- `shl` (R257). -/
def execShl (d a b : XR) (s : State) : Out := s.alu 4 d (shl64 (s.getX a) (s.getX b))
/-- `shr` (R257). -/
def execShr (d a b : XR) (s : State) : Out := s.alu 4 d (shr64 (s.getX a) (s.getX b))
/-- `sar` (R257). -/
def execSar (d a b : XR) (s : State) : Out := s.alu 4 d (sar64 (s.getX a) (s.getX b))
/-- `slt` (R257). -/
def execSlt (d a b : XR) (s : State) : Out := s.alu 4 d (flag64 ((s.getX a).slt (s.getX b)))
/-- `sltn` (R257). -/
def execSltn (d a b : XR) (s : State) : Out := s.alu 4 d (flag64 ((s.getX a).ult (s.getX b)))
/-- `mul` (R257). -/
def execMul (d a b : XR) (s : State) : Out := s.alu 4 d (s.getX a * s.getX b)
/-- `mulh` (R257). -/
def execMulh (d a b : XR) (s : State) : Out := s.alu 4 d (mulh64 (s.getX a) (s.getX b))
/-- `mulhn` (R257). -/
def execMulhn (d a b : XR) (s : State) : Out := s.alu 4 d (mulhn64 (s.getX a) (s.getX b))
/-- `div` (R257). -/
def execDiv (d a b : XR) (s : State) : Out := s.alu 4 d (div64 (s.getX a) (s.getX b))
/-- `divn` (R257). -/
def execDivn (d a b : XR) (s : State) : Out := s.alu 4 d (divn64 (s.getX a) (s.getX b))
/-- `rem` (R257). -/
def execRem (d a b : XR) (s : State) : Out := s.alu 4 d (rem64 (s.getX a) (s.getX b))
/-- `remn` (R257). -/
def execRemn (d a b : XR) (s : State) : Out := s.alu 4 d (remn64 (s.getX a) (s.getX b))
/-- `min` (R257). -/
def execMin (d a b : XR) (s : State) : Out :=
  s.alu 4 d (if (s.getX a).slt (s.getX b) then s.getX a else s.getX b)
/-- `max` (R257). -/
def execMax (d a b : XR) (s : State) : Out :=
  s.alu 4 d (if (s.getX a).slt (s.getX b) then s.getX b else s.getX a)
/-- `minn` (R257). -/
def execMinn (d a b : XR) (s : State) : Out :=
  s.alu 4 d (if (s.getX a).ult (s.getX b) then s.getX a else s.getX b)
/-- `maxn` (R257). -/
def execMaxn (d a b : XR) (s : State) : Out :=
  s.alu 4 d (if (s.getX a).ult (s.getX b) then s.getX b else s.getX a)
/-- `clz` (R257). -/
def execClz (d a : XR) (s : State) : Out := s.alu 4 d (BitVec.ofNat 64 (leadZeros 64 (s.getX a).toNat))
/-- `ctz` (R257). -/
def execCtz (d a : XR) (s : State) : Out := s.alu 4 d (BitVec.ofNat 64 (trailZeros 64 (s.getX a).toNat))
/-- `popc` (R257). -/
def execPopc (d a : XR) (s : State) : Out := s.alu 4 d (BitVec.ofNat 64 (popCount 64 (s.getX a).toNat))

/-! Immediates (R258, R259). -/

/-- `addi` (R258). -/
def execAddi (d a : XR) (i : BitVec 11) (s : State) : Out := s.alu 4 d (s.getX a + sext64 i)
/-- `andi` (R258). -/
def execAndi (d a : XR) (i : BitVec 11) (s : State) : Out := s.alu 4 d (s.getX a &&& sext64 i)
/-- `ori` (R258). -/
def execOri (d a : XR) (i : BitVec 11) (s : State) : Out := s.alu 4 d (s.getX a ||| sext64 i)
/-- `xori` (R258). -/
def execXori (d a : XR) (i : BitVec 11) (s : State) : Out := s.alu 4 d (s.getX a ^^^ sext64 i)
/-- `slti` (R258). -/
def execSlti (d a : XR) (i : BitVec 11) (s : State) : Out := s.alu 4 d (flag64 ((s.getX a).slt (sext64 i)))
/-- `shli` (R258). -/
def execShli (d a : XR) (i : BitVec 6) (s : State) : Out := s.alu 4 d (shl64 (s.getX a) (i.setWidth 64))
/-- `shri` (R258). -/
def execShri (d a : XR) (i : BitVec 6) (s : State) : Out := s.alu 4 d (shr64 (s.getX a) (i.setWidth 64))
/-- `sari` (R258). -/
def execSari (d a : XR) (i : BitVec 6) (s : State) : Out := s.alu 4 d (sar64 (s.getX a) (i.setWidth 64))
/-- `pcrel` (R259). -/
def execPcrel (d : XR) (i : BitVec 19) (s : State) : Out :=
  s.alu 4 d (s.me.pc.setWidth 64 + (sext64 i <<< 11))
/-- `imhi` (R259). -/
def execImhi (d : XR) (i : BitVec 19) (s : State) : Out := s.alu 4 d (sext64 i <<< 11)

/-! Loads and stores (R260, R261). -/

/-- A plain load of n bytes of code. -/
def State.loadAt (s : State) (n : Nat) (d a : XR) (off : Word) (z : LdSize) : Out :=
  complete n (s.load (effAddr (s.getX a) off) z d false)
/-- A plain store. -/
def State.storeAt (s : State) (n : Nat) (v a : XR) (off : Word) (z : StSize) : Out :=
  complete n (s.store (effAddr (s.getX a) off) (stBytes z) (s.getX v) none)

/-- `ld8` (R260). -/
def execLd8 (d a : XR) (i : BitVec 11) (s : State) : Out := s.loadAt 4 d a (sext64 i) .b8
/-- `ld16` (R260). -/
def execLd16 (d a : XR) (i : BitVec 11) (s : State) : Out := s.loadAt 4 d a (sext64 i) .b16
/-- `ld32` (R260). -/
def execLd32 (d a : XR) (i : BitVec 11) (s : State) : Out := s.loadAt 4 d a (sext64 i) .b32
/-- `ld64` (R260). -/
def execLd64 (d a : XR) (i : BitVec 11) (s : State) : Out := s.loadAt 4 d a (sext64 i) .b64
/-- `ld8z` (R260). -/
def execLd8z (d a : XR) (i : BitVec 11) (s : State) : Out := s.loadAt 4 d a (sext64 i) .z8
/-- `ld16z` (R260). -/
def execLd16z (d a : XR) (i : BitVec 11) (s : State) : Out := s.loadAt 4 d a (sext64 i) .z16
/-- `ld32z` (R260). -/
def execLd32z (d a : XR) (i : BitVec 11) (s : State) : Out := s.loadAt 4 d a (sext64 i) .z32
/-- `ldN.acq.S` (R261): the machine gives an acquire the same step at every scope (R137). -/
def execLdAcq (d a : XR) (_sc : Scope) (z : LdSize) (o : BitVec 6) (s : State) : Out :=
  complete 4 (s.load (effAddr (s.getX a) (BitVec.ofNat 64 (o.toNat * ldBytes z))) z d true)
/-- `st8` (R260). -/
def execSt8 (v a : XR) (i : BitVec 11) (s : State) : Out := s.storeAt 4 v a (sext64 i) .b8
/-- `st16` (R260). -/
def execSt16 (v a : XR) (i : BitVec 11) (s : State) : Out := s.storeAt 4 v a (sext64 i) .b16
/-- `st32` (R260). -/
def execSt32 (v a : XR) (i : BitVec 11) (s : State) : Out := s.storeAt 4 v a (sext64 i) .b32
/-- `st64` (R260). -/
def execSt64 (v a : XR) (i : BitVec 11) (s : State) : Out := s.storeAt 4 v a (sext64 i) .b64
/-- `stN.rel.S` (R261). -/
def execStRel (v a : XR) (sc : Scope) (z : StSize) (o : BitVec 6) (s : State) : Out :=
  complete 4 (s.store (effAddr (s.getX a) (BitVec.ofNat 64 (o.toNat * stBytes z))) (stBytes z) (s.getX v) (some sc))

/-! Branches and jumps (R262, R263). -/

/-- The target of a halfword offset. -/
def Hart.target {n : Nat} (h : Hart) (o : BitVec n) : BitVec 55 := h.pc + (o.signExtend 55 <<< 1)

/-- A branch of n bytes. -/
def State.branch (s : State) (n : Nat) (cond : Bool) (t : BitVec 55) : Out :=
  completeAt (.ok (s, if cond then t else s.me.pcNext n))

/-- `beq` (R262). -/
def execBeq (a b : XR) (o : BitVec 11) (s : State) : Out := s.branch 4 (s.getX a == s.getX b) (s.me.target o)
/-- `bne` (R262). -/
def execBne (a b : XR) (o : BitVec 11) (s : State) : Out := s.branch 4 (s.getX a != s.getX b) (s.me.target o)
/-- `blt` (R262). -/
def execBlt (a b : XR) (o : BitVec 11) (s : State) : Out :=
  s.branch 4 ((s.getX a).slt (s.getX b)) (s.me.target o)
/-- `bge` (R262). -/
def execBge (a b : XR) (o : BitVec 11) (s : State) : Out :=
  s.branch 4 (!(s.getX a).slt (s.getX b)) (s.me.target o)
/-- `bltn` (R262). -/
def execBltn (a b : XR) (o : BitVec 11) (s : State) : Out :=
  s.branch 4 ((s.getX a).ult (s.getX b)) (s.me.target o)
/-- `bgen` (R262). -/
def execBgen (a b : XR) (o : BitVec 11) (s : State) : Out :=
  s.branch 4 (!(s.getX a).ult (s.getX b)) (s.me.target o)

/-- A jump of n bytes to t: the link receives pc_next. -/
def State.jump (s : State) (n : Nat) (l : XR) (t : BitVec 55) : Out :=
  completeAt (.ok (s.setX l ((s.me.pcNext n).setWidth 64), t))

/-- `jlr` of n bytes: an odd target is misaligned and nothing is written. -/
def State.jumpReg (s : State) (n : Nat) (l a : XR) (off : Word) : Out :=
  let t := effAddr (s.getX a) off
  if t % 2 = 1 then completeAt (.error (s.fails .misalign 0 t)) else s.jump n l (BitVec.ofNat 55 t)

/-- `jl` (R263). -/
def execJl (l : XR) (o : BitVec 19) (s : State) : Out := s.jump 4 l (s.me.target o)
/-- `jlr` (R263). -/
def execJlr (l a : XR) (i : BitVec 11) (s : State) : Out := s.jumpReg 4 l a (sext64 i)

/-! Compressed forms (R237). -/

/-- `add rd, rd, rb`. -/
def execCAdd (d b : XR) (s : State) : Out := s.alu 2 d (s.getX d + s.getX b)
/-- `sub rd, rd, rb`. -/
def execCSub (d b : XR) (s : State) : Out := s.alu 2 d (s.getX d - s.getX b)
/-- `and rd, rd, rb`. -/
def execCAnd (d b : XR) (s : State) : Out := s.alu 2 d (s.getX d &&& s.getX b)
/-- `or rd, rd, rb`. -/
def execCOr (d b : XR) (s : State) : Out := s.alu 2 d (s.getX d ||| s.getX b)
/-- `xor rd, rd, rb`. -/
def execCXor (d b : XR) (s : State) : Out := s.alu 2 d (s.getX d ^^^ s.getX b)
/-- `add rd, x0, rb`. -/
def execCMv (d b : XR) (s : State) : Out := s.alu 2 d (s.getX b)
/-- `jlr rd, 0(rb)`. -/
def execCJlr (d b : XR) (s : State) : Out := s.jumpReg 2 d b 0
/-- `addi rd, rd, i5`. -/
def execCAddi (d : XR) (i : BitVec 5) (s : State) : Out := s.alu 2 d (s.getX d + sext64 i)
/-- `addi rd, x0, i5`. -/
def execCAddiX0 (d : XR) (i : BitVec 5) (s : State) : Out := s.alu 2 d (sext64 i)
/-- `shli rd, rd, i5`. -/
def execCShli (d : XR) (i : BitVec 5) (s : State) : Out := s.alu 2 d (shl64 (s.getX d) (i.setWidth 64))
/-- `shri rd, rd, i5`. -/
def execCShri (d : XR) (i : BitVec 5) (s : State) : Out := s.alu 2 d (shr64 (s.getX d) (i.setWidth 64))
/-- `sari rd, rd, i5`. -/
def execCSari (d : XR) (i : BitVec 5) (s : State) : Out := s.alu 2 d (sar64 (s.getX d) (i.setWidth 64))
/-- `andi rd, rd, i5`. -/
def execCAndi (d : XR) (i : BitVec 5) (s : State) : Out := s.alu 2 d (s.getX d &&& sext64 i)
/-- `ld64 rd, 8×o3(ra)`. -/
def execCLd64 (d a : XR) (o : BitVec 3) (s : State) : Out := s.loadAt 2 d a (BitVec.ofNat 64 (8 * o.toNat)) .b64
/-- `st64 rs, 8×o3(ra)`. -/
def execCSt64 (v a : XR) (o : BitVec 3) (s : State) : Out := s.storeAt 2 v a (BitVec.ofNat 64 (8 * o.toNat)) .b64
/-- `beq ra, x0`. -/
def execCBeq (a : XR) (o : BitVec 7) (s : State) : Out := s.branch 2 (s.getX a == 0) (s.me.target o)
/-- `bne ra, x0`. -/
def execCBne (a : XR) (o : BitVec 7) (s : State) : Out := s.branch 2 (s.getX a != 0) (s.me.target o)
/-- `jl x0`. -/
def execCJ (o : BitVec 13) (s : State) : Out := s.jump 2 0 (s.me.target o)
/-- `nop` of 16 bits. -/
def execCNop (s : State) : Out := complete 2 (.ok s)

/-! Atomics (R267). -/

/-- `amo.add` (R267). -/
def execAmoAdd (d a b : XR) (w q r : Bool) (sc : Scope) (s : State) : Out := complete 4 (s.amo .add d a b w q r sc)
/-- `amo.and` (R267). -/
def execAmoAnd (d a b : XR) (w q r : Bool) (sc : Scope) (s : State) : Out := complete 4 (s.amo .and d a b w q r sc)
/-- `amo.or` (R267). -/
def execAmoOr (d a b : XR) (w q r : Bool) (sc : Scope) (s : State) : Out := complete 4 (s.amo .or d a b w q r sc)
/-- `amo.xor` (R267). -/
def execAmoXor (d a b : XR) (w q r : Bool) (sc : Scope) (s : State) : Out := complete 4 (s.amo .xor d a b w q r sc)
/-- `amo.min` (R267). -/
def execAmoMin (d a b : XR) (w n q r : Bool) (sc : Scope) (s : State) : Out :=
  complete 4 (s.amo (if n then .minn else .min) d a b w q r sc)
/-- `amo.max` (R267). -/
def execAmoMax (d a b : XR) (w n q r : Bool) (sc : Scope) (s : State) : Out :=
  complete 4 (s.amo (if n then .maxn else .max) d a b w q r sc)
/-- `amo.swap` (R267). -/
def execAmoSwap (d a b : XR) (w q r : Bool) (sc : Scope) (s : State) : Out :=
  complete 4 (s.amo .swap d a b w q r sc)
/-- `amo.cas` (R267). -/
def execAmoCas (d a b : XR) (w q r : Bool) (sc : Scope) (s : State) : Out := complete 4 (s.amo .cas d a b w q r sc)

end Sys2Proof.Machine
end

