-- ==== Sys2Proof/Machine/Float.lean ====
section
/-!
DEFINITION. Scalar floating point (R264 to R266).
-/
namespace Sys2Proof.Machine

/-- The code that an x register holds in a tag: its low bits. -/
def State.codeX (s : State) (t : Tag) (n : XR) : Nat := (s.getX n).toNat % 2 ^ t.width

/-- The value of that code. -/
def State.numX (s : State) (t : Tag) (n : XR) : Num := val t (s.codeX t n)

/-- A float result: the low bits of rd, zeros above, and the flags. -/
def State.putFloat (s : State) (d : XR) (r : Coded) : Out :=
  complete 4 (.ok ((s.orFlags r.2).setX d (BitVec.ofNat 64 r.1)))

/-- A comparison result: 1 or 0. -/
def State.putCmp (s : State) (d : XR) (r : Bool × Nat) : Out :=
  complete 4 (.ok ((s.orFlags r.2).setX d (flag64 r.1)))

/-- `fadd` (R264). -/
def execFadd (d a b : XR) (t : Tag) (s : State) : Out :=
  s.putFloat d (fAdd t.fmt s.me.rm (s.numX t a) (s.numX t b))
/-- `fsub` (R264). -/
def execFsub (d a b : XR) (t : Tag) (s : State) : Out :=
  s.putFloat d (fSub t.fmt s.me.rm (s.numX t a) (s.numX t b))
/-- `fmul` (R264). -/
def execFmul (d a b : XR) (t : Tag) (s : State) : Out :=
  s.putFloat d (fMul t.fmt s.me.rm (s.numX t a) (s.numX t b))
/-- `fdiv` (R264). -/
def execFdiv (d a b : XR) (t : Tag) (s : State) : Out :=
  s.putFloat d (fDiv t.fmt s.me.rm (s.numX t a) (s.numX t b))
/-- `fsqrt` (R264). -/
def execFsqrt (d a : XR) (t : Tag) (s : State) : Out := s.putFloat d (fSqrt t.fmt s.me.rm (s.numX t a))
/-- `fma` (R264): rd is also the addend. -/
def execFma (d a b : XR) (t : Tag) (s : State) : Out :=
  s.putFloat d (fFma t.fmt s.me.rm (s.numX t a) (s.numX t b) (s.numX t d))
/-- `fmin` (R264). -/
def execFmin (d a b : XR) (t : Tag) (s : State) : Out :=
  s.putFloat d (fMinMax t.fmt false (s.numX t a) (s.numX t b) (s.codeX t a) (s.codeX t b))
/-- `fmax` (R264). -/
def execFmax (d a b : XR) (t : Tag) (s : State) : Out :=
  s.putFloat d (fMinMax t.fmt true (s.numX t a) (s.numX t b) (s.codeX t a) (s.codeX t b))
/-- `fcmp.eq` (R264). -/
def execFcmpEq (d a b : XR) (t : Tag) (s : State) : Out := s.putCmp d (fCmp .eq (s.numX t a) (s.numX t b))
/-- `fcmp.lt` (R264). -/
def execFcmpLt (d a b : XR) (t : Tag) (s : State) : Out := s.putCmp d (fCmp .lt (s.numX t a) (s.numX t b))
/-- `fcmp.le` (R264). -/
def execFcmpLe (d a b : XR) (t : Tag) (s : State) : Out := s.putCmp d (fCmp .le (s.numX t a) (s.numX t b))
/-- `fcmp.un` (R264). -/
def execFcmpUn (d a b : XR) (t : Tag) (s : State) : Out := s.putCmp d (fCmp .un (s.numX t a) (s.numX t b))

/-- The value that fcvt writes, and its flags (R265). -/
def fcvtCalc (f t : Tag) (rm : Rm) (c : Nat) : Word × Nat :=
  let x := val f c
  if t.isFloat then
    let r := roundNum t.fmt rm x
    (BitVec.ofNat 64 r.1, r.2 ||| x.sigFlag)
  else
    let r := toInt t rm x
    (if t = .s32 then BitVec.ofInt 64 (sextNat r.1 32) else BitVec.ofNat 64 r.1, r.2)

/-- `fcvt` (R265): from tag f to tag t. -/
def execFcvt (d a : XR) (f t : Tag) (s : State) : Out :=
  let r := fcvtCalc f t s.me.rm (s.codeX f a)
  complete 4 (.ok ((s.orFlags r.2).setX d r.1))

/-- `fclass` (R266). -/
def execFclass (d a : XR) (t : Tag) (s : State) : Out := s.alu 4 d (BitVec.ofNat 64 (fClass t.fmt (s.numX t a)))

end Sys2Proof.Machine
end

