-- ==== Sys2Proof/Machine/System.lean ====
section
/-!
DEFINITION. System instructions (R63, R188, R238, R254, R268 to R275).
-/
namespace Sys2Proof.Machine

/-- `nop` (R238). -/
def execNop (s : State) : Out := complete 4 (.ok s)
/-- `trap` (R269): SYSCALL with the immediate. -/
def execTrap (i : BitVec 19) (s : State) : Out := complete 4 (.error (s.fails .syscall 0 i.toNat))
/-- `brk` (R269). -/
def execBrk (s : State) : Out := complete 4 (.error (s.fails .brk 1 s.me.pc.toNat))

/-- `eret` (R188): from S after the check of the shadow registers, from M at once; a kill that waited for the return
from M goes on (R194). -/
def execEret (s : State) : Out :=
  match s.me.level with
  | .u => complete 4 (.error s.priv)
  | .s =>
    if s.me.shadowOk then .next ((s.leaveS s.cur).countMe 12 1)
    else complete 4 (.error (s.fails .badtag 4 0))
  | .m => .next (((s.leaveM s.cur).countMe 12 1).killWaiting s.cur)

/-- The stamp from which a write ends a wait on a word: that of the hart's latest read of it, or of the wait. -/
def State.waitStamp (s : State) (loc : Nat) : Nat :=
  let r := SMap.get 0 (s.hmem s.cur).rlog (loc / 8)
  if r = 0 then s.drv.nextId else r

/-- The hart waits, its pc past the instruction. -/
def State.rest (s : State) (w : Waiting) : Res := .ok (s.setMe { s.me with waiting := w })

/-- `wait` (R270): the location is checked as for `ld64`, and its word's earlier reads of the hart have performed. -/
def State.waitOn (s : State) (a : XR) : Res :=
  let deadline := s.clk + 100 * Config.clkPerUs
  if a = 0 then s.rest (.word none 0 deadline)
  else
    let va := (s.getX a).toNat % 2 ^ 55
    match s.scalarAccess va 8 false false with
    | .error e => .error e
    | .ok (s1, p) =>
      if s1.isBad p.key 8 then .error (.trap { Trap.at0 .dataerr (s1.eccSub p.key 8) va with pa := p.pa } s1)
      else if s1.olderHeld s.cur s1.drv.nextId p.key 8 then .error (.wait s)
      else s1.rest (.word (some p.key) (s1.waitStamp p.key) deadline)

/-- `wait` (R270). -/
def execWait (a : XR) (s : State) : Out := complete 4 (s.waitOn a)
/-- `halt` (R271). -/
def execHalt (s : State) : Out := complete 4 (do s.needS; s.rest .halt)

/-- `fence.acq` (R138). -/
def execFenceAcq (S : Scope) (s : State) : Out := complete 4 (s.fence .acq false S)
/-- `fence.rel` (R138). -/
def execFenceRel (e : Bool) (S : Scope) (s : State) : Out := complete 4 (s.fence .rel e S)
/-- `fence.rw` (R138). -/
def execFenceRw (e : Bool) (S : Scope) (s : State) : Out := complete 4 (s.fence .rw e S)

/-! Withdrawing translations (R63, R273). -/

/-- Engine chunks that wait on a migrating page are due. -/
def State.wakeStalls (s : State) : State :=
  { s with eng := s.eng.map fun q => (q.1, q.2.map fun c => { c with stall := c.stall.map fun x => (x.1, 0) }) }

/-- Begin a withdrawal of [lo, hi) once the earlier stores are complete at DEVICE; it completes when every unit
has acknowledged.  An empty range only waits for the stores; its completion too wakes the stalled chunks (R64). -/
def State.withdraw (s : State) (lo hi : Nat) : Res :=
  let hid := s.cur
  let asid := bits (s.mreg mAsid) 11 0
  match s.xlat.xinv.find? fun x => x.hid == hid && x.asid == asid && x.lo == lo && x.hi == hi with
  | some x =>
    if x.acked then .ok { s with xlat := { s.xlat with xinv := s.xlat.xinv.erase x } }
    else .error (.wait s)
  | none =>
    if s.earlierDone hid s.drv.nextId .dev false [] then
      if lo = hi then .ok s.wakeStalls
      else
      let x : Xinv := { hid, asid, lo, hi, acked := false }
      .error (.wait { s with xlat := { s.xlat with xinv := s.xlat.xinv ++ [x] } })
    else .error (.wait s)

/-- `xinv` (R273). -/
def execXinv (a b : XR) (s : State) : Out :=
  complete 4 (do
    s.needS
    let lo := (s.getX a).toNat % 2 ^ 55
    s.withdraw lo (min (2 ^ 55) (lo + (s.getX b).toNat)))
/-- `xinv.all` (R273). -/
def execXinvAll (s : State) : Out := complete 4 (do s.needS; s.withdraw 0 (2 ^ 55))

/-! Cache operations (R274). -/

/-- Holders of this device: not a remote device, whose copies of an exported frame are its own. -/
def State.isOurs (s : State) (h : Holder) (f : Nat) : Bool :=
  match h with
  | .dev d => peerFrame f && d == s.deviceId
  | _ => true

/-- This device's copies of a frame are clean: their dirty words have been written back. -/
def State.cleanFrame (s : State) (f : Nat) : State :=
  { s with coh := { s.coh with
      lines := s.coh.lines.map fun l => if l.frame = f ∧ s.isOurs l.h f then l.clean l.dirty else l
      wb := s.coh.wb.map fun l => if l.frame = f ∧ s.isOurs l.h f then l.clean l.dirty else l
      dirty := s.coh.dirty.filter fun d => d.frame != f } }

/-- This device's copies of a frame are invalidated, with their records. -/
def State.dropCopies (s : State) (f : Nat) : State :=
  let none (e : Nat × List Rec × Bool × Bool) : Nat × List Rec × Bool × Bool :=
    if e.1 % 2 ^ 56 = f then (e.1, [], false, e.2.2.2) else e
  let s := s.cutStrips fun _ g => g == f
  { s with
    coh := { s.coh with
      lines := s.coh.lines.filter fun l => !(l.frame == f && s.isOurs l.h f)
      dir := (s.coh.dir.map none).filter fun e => decide (e.2 ≠ ([], false, false))
      l2 := s.coh.l2.filter fun w => w.frame != f } }

/-- Writes of a frame that have been made in a cache and have not reached the home, or are not acknowledged. -/
def State.inFlight (s : State) (f : Nat) : Bool :=
  let of (e : WEntry) := s.frameOf e.loc == some f
  (s.coreQ.any fun q => q.2.any of) || s.devQ.any of || s.fabQ.any of || s.unacked.any of

/-- What a cache operation does to a frame, once its requests and, unless the write-back may go on in the background,
its writes are done. -/
def State.opFrame (s : State) (f : Nat) (drop : Bool) : State :=
  let s := s.cleanFrame f
  if drop then s.dropCopies f else s

/-- A cache operation on the frame that contains X(xa): no effect on the scratchpad window and on UC and DEV
pages. -/
def State.cacheop (s : State) (a : XR) (store drop background : Bool) : Res :=
  let va := (s.getX a).toNat % 2 ^ 55
  let k : Acc := if store then .store else .load
  if va ≥ winBase then .ok s
  else match translate s (whoOf s s.cur) va k store with
    | .fault s t => .error (.trap t s)
    | .mig s => .error (.trap (pageFault k va) s)
    | .ok s1 p =>
      if p.attr.direct then .ok s1
      else match fate s1 (dieOf s.cur) p false with
        | .stall => .error (.wait (s.noteStall (s1.stallOf (dieOf s.cur) p)))
        | .fault .pagefault _ => .error (.trap (pageFault k va) s1)
        | .fault c sub => .error (.trap { Trap.at0 c sub va with pa := p.pa } s1)
        | .ok =>
          let f := p.pa / 256
          if s1.idle f && (background || !s1.inFlight f) then .ok (s1.opFrame f drop) else .error (.wait s)

/-- `cacheop.wb` (R274). -/
def execCacheopWb (a : XR) (s : State) : Out := complete 4 (s.cacheop a false false false)
/-- `cacheop.wbinv` (R274). -/
def execCacheopWbinv (a : XR) (s : State) : Out := complete 4 (s.cacheop a true true false)
/-- `cacheop.inv` (R274). -/
def execCacheopInv (a : XR) (s : State) : Out := complete 4 (do s.needS; s.cacheop a true true true)
/-- `cacheop.ifetch` (R274): the parcels fetched ahead are discarded. -/
def execCacheopIfetch (s : State) : Out := complete 4 (.ok (s.setMe { s.me with pre := [] }))

/-! Machine registers (R110, R252, R275). -/

/-- The level that a write of a register needs (R84, R105, R110, R192). -/
def mwrLevel (n : Nat) : Level := if n = mRbs then .s else if n = mMown then .m else mregLevel n

/-- fflags and other effects of earlier instructions are complete: no access of the hart is held. -/
def State.settledRegs (s : State) (n : Nat) : Bool := n != mFflags || s.bagEmpty s.cur

/-- `mrd` (R275). -/
def execMrd (d : XR) (m : BitVec 12) (s : State) : Out :=
  complete 4 (do
    need (mregKnown m.toNat) s.illegal
    need (s.me.level.ge (mregLevel m.toNat)) s.priv
    need (s.settledRegs m.toNat) (.wait s)
    .ok (s.setX d (s.readMreg s.cur m.toNat)))
/-- `mwr` (R275). -/
def execMwr (a : XR) (m : BitVec 12) (s : State) : Out :=
  complete 4 (do
    need (mregKnown m.toNat) s.illegal
    need (s.me.level.ge (mwrLevel m.toNat)) s.priv
    need (s.settledRegs m.toNat) (.wait s)
    .ok (s.writeMreg m.toNat (s.getX a)))

/-! Words that are no instruction, and fetches that fail (R236, R254). -/

/-- NON_INSTRUCTION: the written word raises ILLEGAL (R254). -/
def execNonInstruction (w : Word) (s : State) : Out :=
  complete 2 (.error (s.fails .illegal 0 w.toNat))
/-- FETCH_FAULT: a parcel that cannot be fetched (R236). -/
def execFetchFault (va : Nat) (s : State) : Out :=
  complete 2 (.error (.trap { pageFault .fetch (va % 2 ^ 55) with old := s.me.resume.pending } s))

end Sys2Proof.Machine
end

