-- ==== Sys2Proof/Machine/VecConfig.lean ====
section
/-!
DEFINITION. Vector configuration and loops (R81, R82, R92 to R97, R124, R277 to R281, R330).
-/
namespace Sys2Proof.Machine

/-- The code of an element width (R92). -/
def ewCode : Ew → Nat
  | .e4 => 0
  | .e8 => 1
  | .e16 => 2
  | .e32 => 3
  | .e64 => 4

/-- avl.act (R92). -/
def Hart.looping (h : Hart) : Bool := bit (h.mreg mAvl) 63
/-- avl.par (R92). -/
def Hart.parallel (h : Hart) : Bool := bit (h.mreg mAvl) 62

/-- The loop ends, and its stream with it (R94, R95, R124). -/
def Hart.endLoop (h : Hart) : Hart :=
  let h := h.setMreg mAvl (setBits (h.mreg mAvl) 63 62 0)
  { h with stream := none, strip := [], par := none }

/-- The capacity of a hart at an element width (R93). -/
def State.capacity (s : State) (hid : Nat) (w : Ew) : Nat := 2048 * s.vgrant hid / w.bits

/-- The end of `setvl` at hart hid (R277): vl, avl and strip, and xd. -/
def State.setLength (s : State) (hid : Nat) (d : XR) (len : Nat) (w : Ew) : State :=
  let vl := min len (s.capacity hid w)
  let h := s.hart hid
  let h := h.setMreg mAvl (BitVec.ofNat 64 (ewCode w * 2 ^ 59 + vl))
  let h := (h.setMreg mStrip 0).setMreg mVl (BitVec.ofNat 64 vl)
  s.setHart hid (h.setX d (BitVec.ofNat 64 vl))

/-- An instruction of M raises ILLEGAL (R187), and one that renegotiates waits for register copies (R325). -/
def State.mayRegrant (s : State) : Except Stop Unit := do
  need (s.me.level != .m) s.illegal
  need (!s.regCopies s.cur) (.wait s)

/-- `setvl` (R277). -/
def State.setvl (s : State) (d a : XR) (w : Ew) : Res := do
  s.mayRegrant
  let len := (s.getX a).toNat
  let s := (s.setMe s.me.endLoop).renegotiate s.cur
  .ok (s.setLength s.cur d len w)

/-- `setvl` (R277). -/
def execSetvl (d a : XR) (w : Ew) (s : State) : Out := complete 4 (s.setvl d a w)

/-- The placed members of the hart's gang, and whether they are all its members: one that has finished never arrives
(R82, R278). -/
def State.gangHids (s : State) : List Nat := match s.me.task with | some key => (s.task key).hids | none => [s.cur]

def State.gangWhole (s : State) : Bool :=
  match s.me.task with | some key => s.gangHids.length == (s.task key).gsz | none => true

/-- A member arrives at its `setvl.g`: it renegotiates and waits. -/
def State.arriveSetvlg (s : State) (d a : XR) (w : Ew) : State :=
  let len := (s.getX a).toNat
  let s := (s.setMe s.me.endLoop).renegotiate s.cur
  s.setMe { s.me with setvlg := some (len, ewCode w + 8 * d.val) }

/-- The grant of a gang: the smallest of its members' (R82). -/
def State.gangGrant (s : State) (l : List Nat) : Nat := (l.map s.vgrant).foldl min 64

/-- One waiting member completes its `setvl.g` at gang grant G. -/
def State.finishSetvlg (s : State) (G hid : Nat) : State :=
  match (s.hart hid).setvlg with
  | none => s
  | some (len, c) =>
    let s := s.shrinkTo hid (G / 8)
    let s := s.setLength hid (Fin.ofNat 32 (c / 8)) len (ewOf (c % 8))
    let h := s.hart hid
    let s := s.setHart hid { h with setvlg := none, pc := h.pcNext 4, resume := Resume.zero, wpSkip := false,
                                    bpSkip := false, paused := false }
    match (s.hart hid).slot with
    | some n => s.count n 12 1
    | none => s

/-- `setvl.g` (R82, R278): the last member to arrive completes every member's in one step. -/
def execSetvlG (d a : XR) (w : Ew) (s : State) : Out :=
  match s.mayRegrant with
  | .error e => complete 4 (.error e)
  | .ok () =>
    if (match s.me.task with | some key => (s.task key).gsz | none => 1) = 1 then complete 4 (s.setvl d a w)
    else
      let s := if s.me.setvlg.isNone then s.arriveSetvlg d a w else s
      let l := s.gangHids
      if s.gangWhole && l.all fun hid => (s.hart hid).setvlg.isSome then
        .next (l.foldl (fun t hid => t.finishSetvlg (s.gangGrant l) hid) s)
      else .next s

/-- vl of the strip that begins at pos, under a capacity (R93). -/
def Hart.stripVl (h : Hart) (pos c : Nat) : Nat :=
  let cap := bits (h.mreg mStrip) 63 48
  let vl := min (bits (h.mreg mAvl) 47 0 - pos) c
  if cap ≠ 0 then min vl cap else vl

/-! Parallel strips (R96). -/

/-- The lanes that a hart holds in a lane cluster. -/
def State.clusterLanes (s : State) (hid k : Nat) : Nat := 8 * ((s.heldBy hid).filter fun g => g / 2 == k).length

/-- The clusters that a hart holds, ascending. -/
def State.clusters (s : State) (hid : Nat) : List Nat := (List.range 4).filter fun k => s.clusterLanes hid k != 0

/-- The cluster on which the oldest strip starts, where its hart runs strips at once: the driver's choice. -/
def State.splits (s : State) : Option Nat :=
  if s.drv.split && s.me.parallel && s.me.spilled.isEmpty && decide (2 ≤ (s.clusters s.cur).length) then (s.clusters s.cur).head? else none

def Hart.regs (h : Hart) : Regs := { x := h.x, v := h.v, tag := h.tag, p := h.p }

/-- The next strip opens: the lanes, then vl (R93), with the lanes of one cluster where strips run at once (R96). -/
def State.openStrip (s : State) : State :=
  let s := s.renegotiate s.cur
  let h := s.me
  let pos := bits (h.mreg mStrip) 47 0
  match s.splits with
  | some k =>
    let c := 2048 * s.clusterLanes s.cur k / h.ew.bits
    s.setMe { h.setMreg mVl (BitVec.ofNat 64 (h.stripVl pos c)) with par := some ⟨k, h.regs, h.regs, []⟩ }
  | none => s.setMreg mVl (BitVec.ofNat 64 (h.stripVl pos (s.capacity s.cur h.ew)))

/-- A range of keys that a strip has written comes from its copy. -/
def overRange {α : Type} [DecidableEq α] (d : α) (own : SMap α) (m : SMap α) (r : Nat × Nat) : SMap α :=
  (List.range r.2).foldl (fun m k => SMap.set d m (r.1 + k) (SMap.get d own (r.1 + k))) m

/-- Registers with what a strip has written over them. -/
def Strip.over (S : Strip) (r : Regs) : Regs :=
  { x := S.xw.foldl (fun m n => overRange 0 S.regs.x m (n, 1)) r.x
    v := S.vw.foldl (overRange 0 S.regs.v) r.v
    tag := S.tw.foldl (fun m n => overRange .s32 S.regs.tag m (n, 1)) r.tag
    p := S.pw.foldl (overRange false S.regs.p) r.p }

/-- The accesses of a strip stand behind those of the older one, its instructions numbered from k on. -/
def Mem.join (m n : Mem) (k : Nat) : Mem :=
  { m with sb := m.sb ++ n.sb.map fun e => { e with ino := k + e.ino }
           obs := (m.obs ++ n.obs).eraseDups, seen := (m.seen ++ n.seen).eraseDups
           rlog := n.rlog.foldl (fun r e => SMap.set 0 r e.1 (max e.2 (SMap.get 0 r e.1))) m.rlog }

/-- The oldest strip has completed: the next one, which runs already, is the oldest now, and its registers are its hart's.
Where the hart has registers spilled the younger strips are discarded (DESIGN CHOICE, log entry 79). -/
def State.takeStrip (s : State) (P : Par) : Option (State × BitVec 55) :=
  let h := s.me
  match P.young with
  | S :: rest =>
    if !h.spilled.isEmpty then none
    else
      let r := S.over h.regs
      let h' := { h with x := r.x, v := r.v, tag := r.tag, p := r.p
                         clean := h.clean.filter fun c => !(S.vw.any fun r => r.1 / 0x4000 == c.1)
                         par := some ⟨S.cluster, S.start, h.regs, rest⟩ }
      let h' := (h'.setMreg mVl (BitVec.ofNat 64 S.vl)).orFlags S.flags.toNat
      let s := (s.setMe h').setHmem s.cur ((s.hmem s.cur).join S.mem s.drv.nextId)
      some ({ s with drv := { s.drv with nextId := 2 * s.drv.nextId } }, S.pc)
  | [] => none

/-- `vloop` of n bytes (R94, R279): e is the distance to its `vend` in halfwords. -/
def State.vloop (s : State) (n : Nat) (par : Bool) (l c : XR) (w : Ew) (e : Nat) : Out :=
  completeAt (do
    need (s.me.level != .m) s.illegal
    need (!s.me.looping) s.illegal
    let len := (s.getX l).toNat % 2 ^ 48
    let cap := min (s.getX c).toNat 65535
    let h := s.me
    let next := h.pcNext n
    let h := h.setMreg mVhead (next.setWidth 64)
    let h := h.setMreg mStrip (BitVec.ofNat 64 (cap * 2 ^ 48))
    let h := h.setMreg mAvl (BitVec.ofNat 64
      ((if len = 0 then 0 else 2 ^ 63 + if par then 2 ^ 62 else 0) + ewCode w * 2 ^ 59 + len))
    if len = 0 then
      .ok (s.setMe (h.setMreg mVl 0), h.pc + BitVec.ofNat 55 (2 * e + 4))
    else
      need (!s.regCopies s.cur) (.wait s)
      .ok ((s.setMe h).openStrip, next))

/-- `vloop` (R94). -/
def execVloop (l c : XR) (w : Ew) (e : BitVec 8) (s : State) : Out := s.vloop 4 false l c w e.toNat
/-- `vloop.par` (R96). -/
def execVloopPar (l c : XR) (w : Ew) (e : BitVec 8) (s : State) : Out := s.vloop 4 true l c w e.toNat
/-- The long `vloop` (R279). -/
def execVloopLong (par : Bool) (l c : XR) (w : Ew) (e : BitVec 14) (s : State) : Out :=
  s.vloop 8 par l c w e.toNat

/-- The frames that a strip stream fetches as a strip retires (R124, R330): addresses that do not translate, or
lie outside a WB page, are skipped. -/
def State.streamFrames (s : State) (base stride : Word) (lo hi : Nat) : List Nat :=
  let w := whoOf s s.cur
  let b := max 1 (s.me.ew.bits / 8)
  (((List.range (hi - lo)).flatMap fun j =>
    let va := (base + BitVec.ofNat 64 (lo + j) * stride).toNat % 2 ^ 55
    [va, (va + b - 1) % 2 ^ 55]).filterMap fun va =>
      match translate s w va .load false with
      | .ok _ p => if p.attr = .wb then some (p.pa / 256) else none
      | _ => none).eraseDups

/-- A frame comes into the strip buffer: its core is recorded as a GETS holder (R124). -/
def State.streamIn (s : State) (f : Nat) : State :=
  let h := holderOf s.cur
  let q := dieOf s.cur
  let s := (s.sliceHas q f 0 31 false .none s.me.slot).serve q f .gets (some h) 0 31
  let own := (s.dirEntry q f).1.any fun r => r.h == h && r.own
  let s := s.setDir q f (addRec (s.dirEntry q f) h 0 31 own)
  s.setMe { s.me with strip := s.me.strip ++ [f] }

/-- The frames that the strip buffer of the hart's core can still take: 64 KiB in all (R124). -/
def State.stripRoom (s : State) : Nat :=
  256 - ((s.placedOn (coreOf s.cur)).map fun hid => (s.hart hid).strip.length).sum

/-- The stream of a retiring strip. -/
def State.prefetch (s : State) : State :=
  let h := s.me
  match h.stream with
  | none => s
  | some (base, stride) =>
    let lo := bits (h.mreg mStrip) 47 0 + h.vl
    let hi := min (bits (h.mreg mAvl) 47 0) (lo + 2 * h.vl)
    let new := (s.streamFrames base stride lo hi).filter fun f => !h.strip.contains f && s.idle f
    (new.take s.stripRoom).foldl State.streamIn s

/-- `vend` (R94, R280). -/
def execVend (a : XR) (s : State) : Out :=
  completeAt (do
    let h := s.me
    need (h.level != .m) s.illegal
    need h.looping s.illegal
    need (!(a != 0 && h.parallel)) s.illegal
    let adv := if a = 0 then h.vl else (s.getX a).toNat
    need (adv != 0 && adv ≤ h.vl) (s.fails .badtag 3 s.drv.ir.toNat)
    let pos := bits (h.mreg mStrip) 47 0 + adv
    let h' := h.setMreg mStrip (setBits (h.mreg mStrip) 47 0 pos)
    if pos = bits (h.mreg mAvl) 47 0 then .ok (s.setMe h'.endLoop, h.pcNext 4)
    else
      need (!s.regCopies s.cur) (.wait s)
      need (h.par.isNone || s.bagEmpty s.cur) (.wait s)
      let s := s.prefetch
      let s := s.setMe { h' with strip := s.me.strip }
      match h.par.bind s.takeStrip with
      | some r => .ok r
      | none =>
        let s := if h.par.isSome then s.setMe { s.me with par := none } else s
        .ok (s.openStrip, BitVec.ofNat 55 (bits (h.mreg mVhead) 54 0)))

/-- `vtag` (R281). -/
def State.retag (s : State) (v : VR) (t : Tag) : Res :=
  let h := s.me
  match groupOf t h.ew v with
  | none => .error s.badShape
  | some g =>
    if groupOf (h.tagOf v) h.ew v = some g then .ok (s.setMe (h.setTags v t g)) else .error s.badShape

/-- `vtag` (R281). -/
def execVtag (d : VR) (t : Tag) (s : State) : Out := completeV 4 (s.retag d t)

end Sys2Proof.Machine
end

