-- ==== Sys2Proof/Machine/VecMem.lean ====
section
/-!
DEFINITION. Vector memory instructions: loads, stores, windowed gather, atomics, save and restore (R134 to R141,
R189, R190, R313 to R322).
-/
namespace Sys2Proof.Machine

/-- A load or store of elements: the data register, the fields of an element, the address of field f of element
e, its mode, and the scope of an acquire or release. -/
structure VMem where
  v : VR
  nf : Nat
  addr : Nat → Nat → Nat
  store : Bool
  mode : VMode
  ord : Option Scope
  pm : PR
  hint : Hint
  /-- The index register. -/
  idx : Option VR := none
  /-- The number that the accesses of an `.oe` instruction order under (R140). -/
  grp : Option Nat := none
  /-- Elements of a unit, for an instruction that restarts by units (R322, R345, R346). -/
  unit : Option Nat := none
  /-- Its data are elements of vector registers. -/
  file : Bool := true

/-- One access of an instruction: element, field, address. -/
structure ElemAcc where
  e : Nat
  f : Nat
  va : Nat
deriving DecidableEq, Repr

/-- The accesses of some elements, in ascending order of element and field. -/
def VMem.accs (m : VMem) (l : List Nat) : List ElemAcc :=
  l.flatMap fun e => (List.range m.nf).map fun f => ⟨e, f, m.addr e f⟩

/-- Elements are accessed in ascending order (R140, R141). -/
def ordered : VMode → Bool
  | .oe | .sc => true
  | _ => false

/-! Checking (R189). -/

/-- Whether reading n bytes there now meets an uncorrectable word. -/
def State.readsBad (s : State) (start : Nat) (p : Phys) (n : Nat) : Bool :=
  if p.attr = .dev then false
  else (s.readValue (s.searchPath start s.cur (coreOf s.cur)) p.key n).2.2

/-- The first unit still to be moved by an instruction that restarts by units. -/
def Resume.unit (r : Resume) : Nat := if r.pending then r.sfx else 0

/-- An element is performed without watchpoint matching: after a return to a watchpoint's instruction, in the restart pass
of its cluster or the restart unit, and in catch-up (R207). -/
def State.unwatched (s : State) (unit : Option Nat) (e : Nat) : Bool :=
  let r := s.me.resume
  let g := s.grain
  s.me.wpSkip && match unit with
    | some n => e / n == r.unit
    | none => e < s.catchUp ||
        e / g.lanes == if r.pending && s.sameLanes r then r.pass (g.cluster e) else s.catchUp / g.lanes

/-- Where the reads of an instruction start their search (R132, R141). -/
def VMem.start (m : VMem) : Nat := if m.mode = .sc then 2 else 0

/-- One access checked in a state: where it goes, or why it does not. -/
def State.probe (s : State) (m : VMem) (b : Nat) (a : ElemAcc) : Except AccStop (State × Phys) :=
  match s.access a.va b a.e m.store false (!s.unwatched m.unit a.e) with
  | .error e => .error e
  | .ok (s, p) =>
    if !m.store && s.readsBad m.start p b then
      .error (.fault { Trap.at0 .dataerr (s.eccSub p.key b) a.va with pa := p.pa } s)
    else .ok (s, p)

/-- The cause of a stop. -/
def AccStop.cause : AccStop → Option Cause
  | .fault t _ => some t.cause
  | .stall _ => none

/-- What a stop waits for. -/
def AccStop.why : AccStop → Option Stall
  | .fault _ _ => none
  | .stall k => k

/-- The order of the faults of one element (R189, R207); a stall comes before what may follow it. -/
def AccStop.rank (x : AccStop) : Nat :=
  match x.cause with
  | some .misalign => 0
  | some .pagefault => 1
  | some .brk => 2
  | some .fenced => 3
  | none => 4
  | some .pooldetach => 5
  | some .poollost => 6
  | some _ => 7

/-- The register of field f, in groups of g. -/
def VMem.reg (m : VMem) (g f : Nat) : VR := Fin.ofNat 32 (m.v.val + f * g)

/-- The data of an element to be stored stand in an uncorrectable word of the register file (R26). -/
def State.dataBad (s : State) (m : VMem) (b e : Nat) : Bool :=
  let g := if m.unit.isSome then 1 else groupSize (s.me.tagOf m.v) s.me.ew
  !s.bad.isEmpty && m.store && m.file && decide (e * b < g * 256 * s.vgrant s.cur) &&
    (List.range m.nf).any fun f => s.isBad (regKey s.cur (0x4000 * (m.reg g f).val + e * b)) b

/-- A bad word of the register file. -/
def State.regStop (s : State) : AccStop := .fault (Trap.at0 .dataerr 1 0) s

/-- The reason why element e cannot be accessed: a bad word of its index, by which it has no address; else among its
fields' the first in the order of R189, the word of its data last. -/
def State.elemStop (s : State) (m : VMem) (b e : Nat) : Option AccStop :=
  if m.idx.any fun i => s.elemBad i (s.me.tagOf i) e then some s.regStop
  else
    match (m.accs [e]).foldl (fun acc a =>
      match s.probe m b a, acc with
      | .error x, some y => if x.rank < y.rank then some x else acc
      | .error x, none => some x
      | .ok _, acc => acc) none with
    | some x => some x
    | none => if s.dataBad m b e then some s.regStop else none

/-- A fault that shortens a `.ff` load (R190). -/
def AccStop.shortens (x : AccStop) : Bool :=
  match x.cause with
  | some .pagefault | some .fenced | some .pooldetach | some .poollost => true
  | _ => false

/-- Where an `.oe` or `.sc` instruction stops (R140): a pass is checked before its first access performs; a
DATAERR leaves the pass's earlier elements performed. -/
def State.orderedStop (s : State) (todo : List Nat) (bad : List (Nat × AccStop)) : Option StopAt :=
  match bad with
  | [] => none
  | (e0, _) :: _ =>
    if e0 < s.catchUp then some ⟨todo.filter (· < e0), e0, 0, 0, some e0⟩
    else
      let L := s.grain.lanes
      let p := e0 / L
      match bad.find? fun x => x.1 / L == p && x.2.cause != some .dataerr with
      | some x => some ⟨todo.filter fun e => e / L < p, x.1, p, 0, none⟩
      | none => some ⟨todo.filter (· < e0), e0, p, 0, none⟩

/-- Where an `.oe` or `.sc` instruction stops at a pass boundary for a pre-emption or a kill (R140). -/
def State.orderedPause (s : State) (todo : List Nat) (bad : List (Nat × AccStop)) : Option StopAt :=
  match s.drv.pause with
  | none => none
  | some p =>
    let before (e : Nat) : Bool := e < s.catchUp || e / s.grain.lanes < p
    if (bad.any fun x => before x.1) || todo.all before then none else some ⟨todo.filter before, 0, p, 0, none⟩

/-! Performing. -/

/-- The data of field f of an element: an element of the group of its field. -/
def VMem.dst (m : VMem) (b g : Nat) (a : ElemAcc) : Dst := .v (m.reg g a.f) a.e b

/-- One element read performs now, and is delivered. -/
def State.readElem (s : State) (m : VMem) (dst : ElemAcc → Dst) (ino b : Nat) (a : ElemAcc) : State :=
  match s.probe m b a with
  | .error _ => s
  | .ok (s, p) =>
    if p.attr = .dev then
      let r := (s.noteRead s.cur ino p.key b []).hubRead (p.pa - paHub)
      r.1.deliver s.cur (dst a) r.2.toNat
    else
      let (v, ids, _) := s.readValue (s.searchPath m.start s.cur (coreOf s.cur)) p.key b
      (s.noteRead s.cur ino p.key b ids).deliver s.cur (dst a) v

/-- A vector access for the bag; its frame is drawn at issue, so that it passes no L1 (R38). -/
def BagItem.vec (m : VMem) (ino : Nat) (p : Phys) (b va : Nat) (act : Act) : BagItem :=
  { BagItem.of ino p b va act m.grp (m.mode == .sc) (m.ord.isSome || p.attr.direct) with cached := false }

/-- A held element read. -/
def State.holdElem (s : State) (m : VMem) (dst : ElemAcc → Dst) (ino b : Nat) (a : ElemAcc) : State :=
  match s.probe m b a with
  | .error _ => s
  | .ok (s, p) => s.holdAll s.cur [BagItem.vec m ino p b a.va (.rd (dst a))]

/-- The write of one element: its place and bytes. -/
def State.elemPiece (s : State) (m : VMem) (b g : Nat) (a : ElemAcc) : State × Option Piece :=
  match s.probe m b a with
  | .error _ => (s, none)
  | .ok (s, p) => (s, some { p, n := b, val := s.me.vBytes (m.reg g a.f) (a.e * b) b, va := a.va })

/-- The writes of some accesses, in order. -/
def State.pieces (s : State) (m : VMem) (b g : Nat) : List ElemAcc → State × List Piece
  | [] => (s, [])
  | a :: l =>
    let (s, w) := s.elemPiece m b g a
    let (s, ws) := s.pieces m b g l
    (s, w.toList ++ ws)

/-- The bag item of a write. -/
def Piece.item (m : VMem) (ino : Nat) (w : Piece) : BagItem :=
  { BagItem.vec m ino w.p w.n w.va (.wr (BitVec.ofNat 64 w.val)) with blocks := m.mode == .sc }

/-- An `.sc` write goes straight to its home at the core or device point, or to the device queue (R141). -/
def State.scWrite (s : State) (m : VMem) (ino : Nat) (w : Piece) : State :=
  if w.p.attr = .dev then s.hubStore (w.p.pa - paHub) (BitVec.ofNat 64 w.val) s.cur
  else s.performWrite s.cur (w.item m ino) (BitVec.ofNat 64 w.val)

/-- n tickets are drawn by the executing hart (R141). -/
def State.draw (s : State) (n : Nat) : State := ({ s with ticket := s.ticket + n }).countMe 26 n

/-- Perform the accesses of a load; held reads stay in the bag. -/
def State.performLoad (s : State) (m : VMem) (dst : ElemAcc → Dst) (ino b : Nat) (l : List ElemAcc) (held : Bool) :
    State :=
  let s := s.bump
  if held then l.foldl (fun s a => s.holdElem m dst ino b a) s
  else
    let s := l.foldl (fun s a => s.readElem m dst ino b a) s
    if m.mode = .sc then s.draw l.length else s

/-- Perform the accesses of a store; held writes stay in the bag. -/
def State.performStore (s : State) (m : VMem) (ino : Nat) (ws : List Piece) (held : Bool) : State :=
  let s := s.bump
  if held then s.holdAll s.cur ((if ordered m.mode then ws else mergePieces ws).map (·.item m ino))
  else if m.mode = .sc then (ws.foldl (fun s w => s.scWrite m ino w) s).draw ws.length
  else
    let dev := ws.filter fun w => w.p.attr == .dev
    let s := s.bufferAll s.cur ino (ws.filter fun w => w.p.attr != .dev) m.ord m.grp false
    let s := dev.foldl (fun s w => s.hubStore (w.p.pa - paHub) (BitVec.ofNat 64 w.val) s.cur) s
    if m.ord = some .pool then s.leaveNow s.cur ino else s

/-! Conditions at issue. -/

/-- Some access goes to bytes of an older held access (R134). -/
def State.overHeld (s1 : State) (ino b : Nat) (ps : List (Phys × Nat)) : Bool :=
  ps.any fun p => s1.olderHeld s1.cur ino p.1.key b

/-- The accesses of some places that go through the caches. -/
def cachedOf (a : Attr) (b : Nat) (ps : List (Phys × Nat)) : List (Nat × Nat) :=
  (ps.filter fun p => p.1.attr == a).map fun p => (p.1.pa, b)

/-- What an instruction waits for before its accesses perform: the conditions of `.sc` (R141) and of a release (R136), for
UC and DEV pages the order at the home (R135), an answer of dbgdat (R213), and requests under way for its frames (R36). -/
def State.vmemWait (s s1 : State) (m : VMem) (ino b : Nat) (ps : List (Phys × Nat)) (held : Bool) : Except Stop Unit := do
  let obs := (s1.hmem s.cur).obs
  let direct := ps.any fun p => p.1.attr.direct
  need (held || !s1.overHeld ino b ps) (.wait s)
  need (m.mode != .sc || s1.earlierDone s.cur ino .dev false obs) (.wait s)
  need (!m.store || !(direct || m.mode == .sc) || s1.mayLeave s.cur ino) (.wait s)
  need (m.store || ps.all fun p => p.1.attr != .dev || s1.hubReady (p.1.pa - paHub)) (.wait (s.hubWait oDbgdat))
  need (s1.framesIdle (cachedOf .wb b ps ++ cachedOf .pool b ps)) (.wait s)
  if m.store then s.releaseWait s1 ino ((ps.head?.map (·.2)).getD 0) m.ord (direct || m.mode == .sc) else .ok ()

/-- The slices serve the frames of an instruction, one request each, under its hint as the attribute lets it stand (R38,
R112, R128). -/
def State.drawFrames (s : State) (store : Bool) (hint : Hint) (b : Nat) (ps : List (Phys × Nat)) : State :=
  let draw (s : State) (a : Attr) : State :=
    let ok (p : Phys × Nat) : Bool := s.cacheable p.1.key
    s.touchSlices (dieOf s.cur) (cachedOf a b (ps.filter ok)) store (hintFor a hint) s.me.slot
  draw (draw s .wb) .pool

/-- Where the accesses go, in the state before any of them. -/
def State.places (s : State) (m : VMem) (b : Nat) (l : List ElemAcc) : List (Phys × Nat) :=
  l.filterMap fun a =>
    match s.probe m b a with
    | .ok (_, p) => some (p, a.va)
    | .error _ => none

/-- The trap of a stop: the fault of its element as it is met in the state that the stop leaves. -/
def State.stopTrap (s : State) (m : VMem) (b : Nat) (st : StopAt) (x : AccStop) : Stop :=
  let (t, s) : Trap × State :=
    match s.elemStop m b st.elem, x with
    | some (.fault t s), _ => (t, s)
    | _, .fault t _ => (t, s)
    | _, .stall _ => (Trap.at0 .dataerr 4 0, s)
  .trap { t with sfx := st.sfx, slip := st.slip, cidx := st.cidx } s

/-- Perform the accesses of listed elements. -/
def State.performElems (s : State) (m : VMem) (ino b g : Nat) (l : List Nat) (held : Bool) : State :=
  if m.store then
    let (s, ws) := s.pieces m b g (m.accs l)
    s.performStore m ino ws held
  else s.performLoad m (m.dst b g) ino b (m.accs l) held

/-- The accesses of an instruction stay in the bag: where the driver says so, or behind older held ones (R132, R134).
Stores wait in the store buffer instead, but for `.sc` ones and those behind a held access. -/
def State.staysHeld (s s1 : State) (m : VMem) (ino b : Nat) (ps : List (Phys × Nat)) : Bool :=
  let behind := s1.overHeld ino b ps
  !(ps.any fun p => p.1.attr == .dev || (m.store && p.1.attr.direct)) &&
  (if m.store then m.ord.isNone && (behind || (s.drv.hold && m.mode == .sc)) else s.drv.hold || behind)

/-- A page attribute overrides a hint (R128). -/
def overrides (h : Hint) (a : Attr) : Bool :=
  match h with
  | .keep => a == .pool || a == .uc || a == .dev
  | .stream => a == .uc || a == .dev
  | _ => false

/-- An instruction whose hint is overridden for some element counts once, as it completes (R129). -/
def State.countHint (s : State) (h : Hint) (l : List (Phys × Nat)) : State :=
  if l.any fun p => overrides h p.1.attr then s.countMe 16 1 else s

/-- Elements that a `.ff` load leaves out: it stops short at the first such fault beyond its first active element (R190). -/
def shortAt (m : VMem) (active : List Nat) (bad : List (Nat × AccStop)) : Option Nat :=
  if m.mode = .ff then (bad.find? fun x => x.2.shortens && some x.1 != active.head?).map (·.1) else none

/-- The number that an `.oe` instruction orders under: that of its earlier passes where it resumes (R140). -/
def State.orderOf (s : State) (ino : Nat) (mode : VMode) : Option Nat :=
  if mode = .oe then
    let kept := if s.me.resume.pending then (s.hmem s.cur).oe.find? fun e => e.1 == s.me.pc.toNat else none
    some ((kept.map (·.2)).getD ino)
  else none

/-- An `.oe` instruction stops, and its passes keep their order; or it is complete. -/
def State.keepOrder (s : State) (m : VMem) (stops : Bool) : State :=
  match m.grp with
  | none => s
  | some k =>
    let h := s.hmem s.cur
    let rest := h.oe.filter fun e => e.1 != s.me.pc.toNat
    s.setHmem s.cur { h with oe := if stops then rest ++ [(s.me.pc.toNat, k)] else rest }

/-- The instruction stops before an element that waits, as a fault would stop it (R400). -/
def State.pausedBy (s : State) (st : StopAt) : State :=
  match st.cidx with
  | some c => s.setMe { s.me with resume := { s.me.resume with cu := true, cidx := c }, paused := true }
  | none => s.pausedAt st.sfx st.slip

/-- A vector load or store after its operand checks: g registers to a field, elements of b bytes.  An element that waits
holds the instruction, and stops it for a pre-emption or a kill (R400). -/
def State.vmemRun (s : State) (m : VMem) (g : Nat) : Res := do
  let h := s.me
  let b := (h.tagOf m.v).width / 8
  let ino := s.drv.nextId
  let m := { m with grp := s.orderOf ino m.mode }
  let active := h.actives m.pm
  let todo := active.filter fun e => !h.resume.did e
  let bad := todo.filterMap fun e => (s.elemStop m b e).map fun x => (e, x)
  let short := shortAt m active bad
  let below (e : Nat) : Bool := match short with | some k => e < k | none => true
  let todo := todo.filter below
  let bad := bad.filter fun x => below x.1
  let pause := if ordered m.mode then s.orderedPause todo bad else s.pauseAt todo (bad.map (·.1))
  let stop := if pause.isSome then pause
    else if ordered m.mode then s.orderedStop todo bad else s.stopAt todo (bad.map (·.1))
  let met : Option AccStop := if pause.isSome then none
    else stop.bind fun st => (bad.find? fun x => x.1 == st.elem).map (·.2)
  need (s.quits s.cur || !(met.any fun x => x.cause.isNone)) (.wait (s.noteStall (met.bind AccStop.why)))
  let keep := match stop with | some st => st.keep | none => todo
  let ps := s.places m b (m.accs keep)
  let held := stop.isNone && s.staysHeld s m ino b ps
  s.vmemWait s m ino b ps held
  let hinted := if m.hint = .none then [] else s.places m b (m.accs (active.filter below))
  let s := ((s.drawFrames m.store m.hint b ps).performElems m ino b g keep held).keepOrder m stop.isSome
  match stop with
  | some st =>
    if pause.isSome then .error (.wait (s.pausedAt st.sfx st.slip))
    else match met with
      | some (.stall _) => .error (.wait ((s.noteStall none).pausedBy st))
      | some x => .error (s.stopTrap m b st x)
      | none => .ok s
  | none =>
    let s := s.countHint m.hint hinted
    .ok (match short with | some k => s.setMreg mVl (BitVec.ofNat 64 k) | none => s)

/-- A register fill comes with the element faults, after the MISALIGN of the first element to be performed (R189). -/
def State.fillData (s : State) (m : VMem) (b : Nat) (regs : List (VR × Tag)) : Res :=
  match s.fillGroups regs with
  | .ok s => .ok s
  | .error e =>
    match (s.me.actives m.pm).find? fun e => !s.me.resume.did e with
    | some k =>
      if m.addr k 0 % b ≠ 0 then
        .error (.trap { Trap.at0 .misalign 0 (m.addr k 0) with old := s.me.resume.pending } s)
      else .error e
    | none => .error e

/-- A vector load or store: `.ff` in a parallel loop is ILLEGAL (R97), then the operand checks (R313 to R315). -/
def State.vmem (s : State) (m : VMem) : Res := do
  let h := s.me
  let t := h.tagOf m.v
  need (!(m.mode == .ff && h.looping && h.parallel)) s.illegal
  let g := groupSize t h.ew
  let field (f : Nat) : VR := Fin.ofNat 32 (m.v.val + f * g)
  let idxOk := match m.idx with | some i => (h.tagOf i).isInt | none => true
  let fits := m.v.val + m.nf * g ≤ 32
  let same := !m.store || !fits || (List.range m.nf).all fun f => h.tagOf (field f) == t
  need (t.ordinary && idxOk && same) s.badTag
  need ((groupOf t h.ew m.v).isSome && fits) s.badShape
  let index := match m.idx with | some i => [(i, h.tagOf i)] | none => []
  need (groupsOk h.ew index none) s.badShape
  let clash := !m.store && index.any fun r => meets m.v (m.nf * g) r.1 ((groupOf r.2 h.ew r.1).getD 1)
  need (!clash) s.badShape
  let regs := (List.range m.nf).map fun f => (field f, t)
  let s ← if h.spent then .ok s else s.fillGroups index
  let s ← if h.spent then .ok s else s.fillData m (t.width / 8) regs
  s.vmemRun m g

/-! Addresses (R314). -/

/-- The value of index element i: signed or unsigned by its tag. -/
def Hart.index (h : Hart) (v : VR) (i : Nat) : Int := intVal (h.tagOf v) (h.elem v i)

def Hart.unitAddr (h : Hart) (x : XR) (b : Nat) (e _f : Nat) : Nat := ((h.getX x).toNat + e * b) % 2 ^ 55
def Hart.strideAddr (h : Hart) (x st : XR) (e _f : Nat) : Nat :=
  (h.getX x + BitVec.ofNat 64 e * h.getX st).toNat % 2 ^ 55
def Hart.indexAddr (h : Hart) (x : XR) (v : VR) (e _f : Nat) : Nat :=
  (h.getX x + BitVec.ofInt 64 (h.index v e)).toNat % 2 ^ 55
def Hart.segAddr (h : Hart) (x : XR) (b nf : Nat) (e f : Nat) : Nat :=
  ((h.getX x).toNat + (e * nf + f) * b) % 2 ^ 55

/-- The bytes of an element of v. -/
def Hart.elemBytes (h : Hart) (v : VR) : Nat := (h.tagOf v).width / 8

/-- Unit-stride, strided, indexed and segment accesses. -/
def State.vunit (s : State) (n : Nat) (store : Bool) (v : VR) (x : XR) (p : PR) (m : VMode) (o : Option Scope) (hh : Hint) :
    Out :=
  completeV n (s.vmem { v, nf := 1, addr := s.me.unitAddr x (s.me.elemBytes v), store, mode := m, ord := o, pm := p, hint := hh })
def State.vstrided (s : State) (n : Nat) (store : Bool) (v : VR) (x st : XR) (p : PR) (m : VMode)
    (o : Option Scope) (hh : Hint) : Out :=
  completeV n (s.vmem { v, nf := 1, addr := s.me.strideAddr x st, store, mode := m, ord := o, pm := p, hint := hh })
def State.vindexed (s : State) (n : Nat) (store : Bool) (v : VR) (x : XR) (i : VR) (p : PR) (m : VMode)
    (o : Option Scope) (hh : Hint) : Out :=
  completeV n (s.vmem { v, nf := 1, addr := s.me.indexAddr x i, store, mode := m, ord := o, pm := p, hint := hh, idx := some i })
def State.vsegment (s : State) (n : Nat) (store : Bool) (v : VR) (x : XR) (nf : Nat) (p : PR) (m : VMode)
    (o : Option Scope) (hh : Hint) : Out :=
  completeV n (s.vmem { v, nf, addr := s.me.segAddr x (s.me.elemBytes v) nf, store, mode := m, ord := o, pm := p, hint := hh })

/-- `vld` (R314). -/
def execVld (v : VR) (b : XR) (p : PR) (m : VMode) (h : Hint) (s : State) : Out := s.vunit 4 false v b p m none h
/-- `vlds` (R314). -/
def execVlds (v : VR) (b st : XR) (p : PR) (m : VMode) (h : Hint) (s : State) : Out :=
  s.vstrided 4 false v b st p m none h
/-- `vldx` (R314). -/
def execVldx (v : VR) (b : XR) (i : VR) (p : PR) (m : VMode) (h : Hint) (s : State) : Out :=
  s.vindexed 4 false v b i p m none h
/-- `vldseg` (R314). -/
def execVldseg (v : VR) (b : XR) (n : Fin 8) (p : PR) (m : VMode) (h : Hint) (s : State) : Out :=
  s.vsegment 4 false v b (n.val + 1) p m none h
/-- `vst` (R315). -/
def execVst (v : VR) (b : XR) (p : PR) (m : VMode) (h : Hint) (s : State) : Out := s.vunit 4 true v b p m none h
/-- `vsts` (R315). -/
def execVsts (v : VR) (b st : XR) (p : PR) (m : VMode) (h : Hint) (s : State) : Out :=
  s.vstrided 4 true v b st p m none h
/-- `vstx` (R315). -/
def execVstx (v : VR) (b : XR) (i : VR) (p : PR) (m : VMode) (h : Hint) (s : State) : Out :=
  s.vindexed 4 true v b i p m none h
/-- `vstseg` (R315). -/
def execVstseg (v : VR) (b : XR) (n : Fin 8) (p : PR) (m : VMode) (h : Hint) (s : State) : Out :=
  s.vsegment 4 true v b (n.val + 1) p m none h

/-- A long form (R317). -/
def State.vlong (s : State) (store : Bool) (v : VR) (b : XR) (x : Fin 32) (k : VKind) (m : VMode) (o : Bool)
    (sc : Scope) (n : Fin 8) (p : PR) (hh : Hint) : Out :=
  let ord := if o then some sc else none
  match k with
  | .unit => s.vunit 8 store v b p m ord hh
  | .strided => s.vstrided 8 store v b x p m ord hh
  | .indexed => s.vindexed 8 store v b x p m ord hh
  | .segment => s.vsegment 8 store v b (n.val + 1) p m ord hh

/-- The long loads (R317). -/
def execVldLong (v : VR) (b : XR) (x : Fin 32) (k : VKind) (m : VMode) (h : Hint) (o : Bool) (sc : Scope)
    (n : Fin 8) (p : PR) (_cb : Bool) (s : State) : Out := s.vlong false v b x k m o sc n p h
/-- The long stores (R317). -/
def execVstLong (v : VR) (b : XR) (x : Fin 32) (k : VKind) (m : VMode) (h : Hint) (o : Bool) (sc : Scope)
    (n : Fin 8) (p : PR) (_cb : Bool) (s : State) : Out := s.vlong true v b x k m o sc n p h

/-! Windowed gather (R320). -/

/-- The serving phase: hits go to vd, the other active elements to pout. -/
def Hart.serve (h : Hart) (d w i : VR) (o p : PR) (b : Nat) : Hart :=
  let t := h.tagOf w
  let hit (e : Nat) : Bool := h.pred p e && decide (0 ≤ h.index i e) && decide (h.index i e < (h.vl * b : Nat))
  let new := ((List.range h.vl).filter hit).map fun e => (e, h.elem w ((h.index i e).toNat / b))
  let h' := h.setCodes d t.width new
  h'.setPreds o (fun e => h.pred p e && !hit e) h.vl

/-- A hit whose offset is not a multiple of the element size. -/
def Hart.skewed (h : Hart) (i : VR) (p : PR) (b : Nat) : Option Nat :=
  (List.range h.vl).find? fun e =>
    h.pred p e && decide (0 ≤ h.index i e) && decide (h.index i e < (h.vl * b : Nat)) && (h.index i e).toNat % b != 0

/-- The window phase of `vgathw`. -/
def windowMem (w : VR) (addr : Nat → Nat → Nat) : VMem :=
  { v := w, nf := 1, addr, store := false, mode := .plain, ord := none, pm := 0, hint := .none }

/-- `vgathw` (R320): the window phase is a `vld`, the serving phase writes when it completes. -/
def State.vgathw (s : State) (d w i : VR) (x : XR) (o p : PR) : Res := do
  let h := s.me
  let t := h.tagOf w
  need (t.ordinary && h.tagOf d == t && (h.tagOf i).isInt) s.badTag
  let ok := (groupOf t h.ew d).isSome && (groupOf t h.ew w).isSome && (groupOf (h.tagOf i) h.ew i).isSome
  let g := groupSize t h.ew
  let gi := groupSize (h.tagOf i) h.ew
  need (ok && !meets d g w g && !meets d g i gi && !meets w g i gi) s.badShape
  let b := t.width / 8
  let m := windowMem w (s.me.unitAddr x b)
  let s ← s.fillData m b [(d, t), (w, t), (i, h.tagOf i)]
  let s ← s.vmemRun m g
  -- the window phase is over once its reads have performed
  need (s.bagEmpty s.cur) (.wait (s.pausedAt (ceilDiv s.me.vl s.grain.lanes) 0))
  s.sound [(w, t), (i, h.tagOf i)] fun _ => List.range s.me.vl
  let h := s.me
  match h.skewed i p b with
  | some e => .error (.trap (Trap.at0 .misalign 0
      ((h.getX x + BitVec.ofInt 64 (h.index i e)).toNat % 2 ^ 55)) s)
  | none => .ok (if h.vl = 0 then s else s.setMe (h.serve d w i o p b))

/-- `vgathw` (R320). -/
def execVgathw (d w i : VR) (x : XR) (o p : PR) (_cb : Bool) (s : State) : Out := completeV 8 (s.vgathw d w i x o p)

/-! Atomics (R321). -/

/-- The operations, by tag class. -/
def vamoOp (o : VamoOp) (t : Tag) : AmoOp :=
  match o with
  | .add => .add
  | .and => .and
  | .or => .or
  | .xor => .xor
  | .min => if t.isUns then .minn else .min
  | .max => if t.isUns then .maxn else .max
  | .swap => .swap

/-- The tags of `vamo`. -/
def vamoTag (o : VamoOp) (t : Tag) : Bool :=
  match t with
  | .s32 | .s64 | .z32 | .z64 => true
  | .f32 | .f64 => o == .add || o == .min || o == .max || o == .swap
  | _ => false

/-- The distinct locations of some elements in order of their first element, each with its elements ascending. -/
def byLoc (l : List (Nat × Phys)) : List (Phys × List Nat) :=
  (l.map (·.2.key)).eraseDups.filterMap fun k =>
    (l.find? fun x => x.2.key == k).map fun x => (x.2, (l.filter fun y => y.2.key == k).map (·.1))

/-- Translate and check the elements of an atomic, in ascending order; one on an uncorrectable word waits for the older
accesses to its bytes.  ind and dat: the element's index or operand stands in a bad word of the register file. -/
def State.vamoCheck (s : State) (addr : Nat → Nat) (b : Nat) (ind dat : Nat → Bool) : List Nat →
    Except AccStop (State × List (Nat × Phys))
  | [] => .ok (s, [])
  | e :: l =>
    if ind e then .error s.regStop
    else match s.access (addr e) b e true true (!s.unwatched none e) with
    | .error x => .error x
    | .ok (s, p) =>
      if s.isBad p.key b then
        if s.olderHeld s.cur s.drv.nextId p.key b || s.olderPending s.cur s.drv.nextId p.key b then .error (.stall none)
        else .error (.fault { Trap.at0 .dataerr (s.eccSub p.key b) (addr e) with pa := p.pa } s)
      else if dat e then .error s.regStop
      else
        match s.vamoCheck addr b ind dat l with
        | .error x => .error x
        | .ok (s, ps) => .ok (s, (e, p) :: ps)

/-- The atomics of an instruction, one for each location: its elements' updates in ascending order, under the rounding
mode at issue. -/
def State.vamoItems (s : State) (addr : Nat → Nat) (o : AmoOp) (t : Tag) (v : VR) (b ino : Nat) (acq : Bool)
    (locs : List (Phys × List Nat)) : List BagItem :=
  let h := s.me
  let up (e : Nat) : Update := { dst := .v v e b, opnd := BitVec.ofNat 64 (h.elem v e), cmp := 0 }
  locs.map fun l => BagItem.of ino l.1 b (addr (l.2.headD 0)) (.amo o (some t) h.rm (l.2.map up)) none false acq

/-- An atomic performs now. -/
def State.amoNow (s : State) (it : BagItem) : State :=
  match it.act with
  | .amo op tag rm ups => s.performAmo s.cur it op tag rm ups
  | _ => s

/-- `vamo` (R321): every fault arises before any effect, so that it starts at its first element always. -/
def State.vamo (s : State) (v : VR) (x : XR) (i : VR) (p : PR) (o : VamoOp) (q r : Bool) : Res := do
  let h := s.me
  let t := h.tagOf v
  need (vamoTag o t && (h.tagOf i).isInt) s.badTag
  let ok := (groupOf t h.ew v).isSome && (groupOf (h.tagOf i) h.ew i).isSome
  need (ok && !meets v (groupSize t h.ew) i (groupSize (h.tagOf i) h.ew)) s.badShape
  if h.spent then .ok s
  else
  let ti := h.tagOf i
  let s ← s.fromStart.fillGroups [(i, ti)]
  let b := t.width / 8
  let m : VMem := { v, nf := 1, addr := s.me.indexAddr x i, store := true, mode := .plain, ord := none, pm := p,
                    hint := .none }
  let s ← s.fillData m b [(v, t)]
  let h := s.me
  let addr (e : Nat) : Nat := h.indexAddr x i e 0
  let ino := s.drv.nextId
  match s.vamoCheck addr b (s.elemBad i ti) (s.elemBad v t) (h.actives p) with
  | .error (.stall k) => .error (.wait (s.noteStall k))
  | .error (.fault t s') => .error (.trap t s')
  | .ok (s1, ps) =>
    let locs := byLoc ps
    let items := mergeSpans (s1.vamoItems addr (vamoOp o t) t v b ino q locs)
    let direct := locs.any fun l => l.1.attr.direct
    let rel := if r then some Scope.dev else none
    if s.drv.hold && !direct && items.all (fun it => s1.amoIdle it.loc it.cached) then
      .ok ((s1.holdAll s.cur items).markRelease s.cur ino rel).bump
    else
    need (locs.all fun l => !s1.olderHeld s.cur ino l.1.key b && !s1.olderPending s.cur ino l.1.key b) (.wait s)
    need (s1.mayLeave s.cur ino) (.wait s)
    let places := ps.map fun x => (x.2, addr x.1)
    need (s1.framesIdle (cachedOf .wb b places ++ cachedOf .pool b places)) (.wait s)
    s.releaseWait s1 ino ((ps.head?.map fun x => addr x.1).getD 0) rel true
    .ok (items.foldl State.amoNow (s1.drawFrames true .none b places).bump)

/-- `vamo` (R321). -/
def execVamo (v : VR) (b : XR) (i : VR) (p : PR) (o : VamoOp) (q r : Bool) (s : State) : Out :=
  completeV 4 (s.vamo v b i p o q r)

/-! Save and restore of one register (R322). -/

/-- The 8-byte elements of a 16 KiB image, in units of 1 KiB. -/
def imageMem (store : Bool) (v : VR) (base : Nat) : VMem :=
  { v, nf := 1, addr := fun e _ => (base + 8 * e) % 2 ^ 55, store, mode := .plain, ord := none, pm := 0, hint := .none,
    unit := some 128 }

/-- The units of a transfer that run (R322, R345, R346): the elements to perform, the first element that cannot be
accessed, and the unit at which it stops for a pre-emption or a kill. -/
def State.unitPlan (s : State) (m : VMem) (b unit : Nat) (todo : List Nat) :
    Except Stop (List Nat × Option (Nat × AccStop) × Option Nat) :=
  let bad := todo.findSome? fun e => (s.elemStop m b e).map fun x => (e, x)
  match bad with
  | some (e, .stall k) =>
    if s.quits s.cur then .ok (todo.filter (· / unit < e / unit), none, some (e / unit))
    else .error (.wait (s.noteStall k))
  | _ =>
    let limit := match bad, todo.getLast? with
      | some (e, _), _ => e / unit
      | none, some e => e / unit + 1
      | none, none => 0
    let pause := match s.drv.pause with
      | some u => let u := max u (todo.headD 0 / unit); if u < limit then some u else none
      | none => none
    .ok (todo.filter (· / unit < pause.getD limit), bad, pause)

/-- The end of such a transfer: sfx names the first unit not performed. -/
def State.unitEnd (s : State) (m : VMem) (b unit : Nat) (bad : Option (Nat × AccStop)) (pause : Option Nat) : Res :=
  match bad, pause with
  | _, some u => .error (.wait (s.pausedAt u 0))
  | some (e, x), none => .error (s.stopTrap m b ⟨[], e, e / unit, 0, none⟩ x)
  | none, none => .ok s

/-- `vsave` and `vrest`: units of 1 KiB in ascending order; a stop names the first unit not completed.  Bytes above the
grant are written as zero, and read and discarded. -/
def State.moveImage (s : State) (store : Bool) (v : VR) (x : XR) : Res := do
  let base := (s.getX x).toNat % 2 ^ 55
  need (base % 64 = 0) (s.fails .misalign 0 base)
  let s ← s.fillReg v.val
  let m := imageMem store v base
  let ino := s.drv.nextId
  let size := 32 * s.vgrant s.cur
  let todo := (List.range 2048).filter fun e => s.me.resume.unit ≤ e / 128
  let (keep, bad, pause) ← s.unitPlan m 8 128 todo
  let ps := s.places m 8 (m.accs keep)
  let held := bad.isNone && pause.isNone && s.staysHeld s m ino 8 ps
  s.vmemWait s m ino 8 ps held
  let s := s.drawFrames store .none 8 ps
  let dst (a : ElemAcc) : Dst := if a.e < size then .v v a.e 8 else .none
  let s := if store then
      let (s, ws) := s.pieces m 8 1 (m.accs keep)
      s.performStore m ino ((ws.zip keep).map fun w => if w.2 < size then w.1 else { w.1 with val := 0 }) held
    else s.performLoad m dst ino 8 (m.accs keep) held
  s.unitEnd m 8 128 bad pause

/-- `vsave` (R322). -/
def execVsave (v : VR) (b : XR) (s : State) : Out := completeV 4 (s.moveImage true v b)
/-- `vrest` (R322). -/
def execVrest (v : VR) (b : XR) (s : State) : Out := completeV 4 (s.moveImage false v b)

end Sys2Proof.Machine
end

