-- ==== Sys2Proof/Machine/Engines.lean ====
section
/-!
DEFINITION. Copy engines: issue, chunks, designators, arrival words, deferred faults, multicast, and the engine
instructions (R64, R116, R118, R119, R123, R124, R142 to R146, R191, R210, R323 to R332).
-/
namespace Sys2Proof.Machine

/-! Queues (R123, R325). -/

def State.engQ (s : State) (q : Nat) : List Copy := SMap.get [] s.eng q
def State.setEngQ (s : State) (q : Nat) (l : List Copy) : State := { s with eng := SMap.set [] s.eng q l }

/-- The entries of a queue. -/
def engCap (q : Nat) : Nat := if q < 128 then 32 else 64

/-- The queue of an instruction: a bulk engine's for a `cpy` between two memory addresses. -/
def engQueue (kind : CopyKind) (core dst src : Nat) : Nat :=
  if kind = .cpy ∧ (engSpad core dst).isNone ∧ (engSpad core src).isNone then
    128 + 8 * (core / 32) + dst / 4096 % 8
  else core

/-- The die of a queue, and how a trace record names an entry (R210). -/
def engDie (q : Nat) : Nat := if q < 128 then q / 32 else (q - 128) / 8
def Copy.payload (c : Copy) (q bytes : Nat) : Nat :=
  (if q < 128 then 8 else (q - 128) % 8) * 2 ^ 44 + c.eq % 64 * 2 ^ 38 + bytes % 2 ^ 32

/-- The bytes of an element, where they are whole bytes. -/
def Copy.elemSize (c : Copy) : Nat := c.tag.width / 8

/-- The bytes that a copy was asked for. -/
def Copy.asked (c : Copy) : Nat :=
  match c.kind with
  | .cpy => c.n
  | .cpyr | .cpyw => c.n / groupSize c.tag c.ew * c.vl * c.elemSize
  | .cpyx | .cpym => ceilDiv (c.vl * c.tag.width) 8

/-- The number of chunks (R326 to R329). -/
def Copy.chunks (c : Copy) : Nat :=
  match c.kind with
  | .cpy => if c.n = 0 then 1 else ceilDiv (c.dst % 4096 + c.n) 4096
  | .cpyr | .cpyw => ceilDiv c.vl c.lanes
  | .cpyx => ceilDiv c.vl 8
  | .cpym => popCount 16 c.n

/-! Completion designators (R324). -/

/-- A designator obeys its table: an arrival word is a 16-byte aligned word of a mapped scratchpad. -/
def State.desOk (s : State) (core : Nat) (d : Word) : Bool :=
  let t := bits d 54 0
  bits d 61 55 == 0 &&
  match bits d 63 62 with
  | 0 => t == 0
  | 1 => decide (t < 65536)
  | 2 => t % 16 == 0 && (match engSpad core t with | some (k, o) => s.active k && decide (o < winSize) | none => false)
  | _ => false

/-! Where engine bytes stand (R323). -/

/-- Why a chunk does not perform: it faults, its page is migrating, or a frame stalls it. -/
inductive EngStop
  | fault (t : Trap)
  | mig
  | stall
deriving DecidableEq, Repr

/-- Who translates for a copy. -/
def Copy.who (c : Copy) : Who :=
  { core := c.core, level := c.level, asid := c.asid, ptbase := c.ptbase, slot := some (slotOf c.task) }

/-- A piece of a chunk: n bytes of one page. -/
structure EngPiece where
  p : Phys
  va : Nat
  n : Nat
deriving DecidableEq, Repr

/-- A chunk's access to a peer window counts (R203). -/
def State.countPeer (s : State) (c : Copy) (p : Phys) : State :=
  if paPeer ≤ p.pa && p.pa < paPool then s.count (slotOf c.task) 31 1 else s

/-- Where an engine address leads. -/
def State.engReach (s : State) (c : Copy) (va : Nat) (store : Bool) : Except EngStop (State × Phys) :=
  let pf := EngStop.fault (pageFault .engine va)
  let met (s : State) (p : Phys) : Except EngStop (State × Phys) :=
    match fate s (c.core / 32) p store with
    | .ok => .ok (s.countPeer c p, p)
    | .stall => .error .stall
    | .fault .pagefault _ => .error pf
    | .fault cs sub => .error (.fault { Trap.at0 cs sub va with pa := p.pa })
  match engSpad c.core va with
  | some (k, o) =>
    if o ≥ winSize || !s.active k || (k != c.core && (s.core k).owner != some (slotOf c.task)) then .error pf
    else met s ⟨spadKey k o, 0, .spad⟩
  | none =>
    match translateMem s c.who va .engine store with
    | .fault _ t => .error (.fault t)
    | .mig _ => .error .mig
    | .ok s p => if p.attr = .dev then .error pf else met s p

/-- Cut n bytes at va at page boundaries; fuel is the number of pages they can touch. -/
def cutPages : Nat → Nat → Nat → List (Nat × Nat)
  | 0, _, _ => []
  | fuel + 1, va, n =>
    if n = 0 then []
    else
      let m := min n (4096 - va % 4096)
      (va, m) :: cutPages fuel ((va + m) % 2 ^ 55) (n - m)

/-- Translate pieces in order. -/
def State.engPieces (s : State) (c : Copy) (store : Bool) : List (Nat × Nat) → Except EngStop (State × List EngPiece)
  | [] => .ok (s, [])
  | (va, n) :: l => do
    let (s, p) ← s.engReach c va store
    let (s, ps) ← s.engPieces c store l
    .ok (s, ⟨p, va, n⟩ :: ps)

/-- The bytes of a read (R132), or the position of the first byte that an uncorrectable word gave. -/
def State.engBytes (s : State) (start core : Nat) (p : EngPiece) : Except Nat (List Byte) :=
  let places := s.searchPath start 0 core
  let l := (List.range p.n).map fun j => s.readByte places (p.p.key + j)
  match (l.zipIdx).find? fun b => b.1.2.2 with
  | some b => .error b.2
  | none => .ok (l.map (·.1))

/-- Read pieces: a core engine starts its search at its core queue, a bulk engine at the device queue. -/
def State.engRead (s : State) (q : Nat) (c : Copy) : List EngPiece → Except EngStop (List Byte)
  | [] => .ok []
  | p :: l =>
    match s.engBytes (if q < 128 then 1 else 2) c.core p with
    | .error j =>
      .error (.fault { Trap.at0 .dataerr (s.eccSub (p.p.key + j) 1) ((p.va + j) % 2 ^ 55) with pa := p.p.pa + j })
    | .ok b => do
      let r ← s.engRead q c l
      .ok (b ++ r)

/-- One write of an engine: to the image of a scratchpad or of the device, to the home of a UC page, or into the
device queue (R142). -/
def State.engWrite (s : State) (c : Copy) (p : Phys) (n v va : Nat) : State :=
  if p.attr = .uc then s.writeHome p.key n v c.ino 1024
  else match homeOf p.key with
    | .spad _ | .hbm | .ts => s.writeHome p.key n v c.ino 1024
    | _ =>
      let e : WEntry := { hid := c.hid, ino := c.ino, id := s.drv.nextId, loc := p.key, n,
                          val := BitVec.ofNat 64 v, rel := none, oe := none, eng := true, va, l1 := false, old := 0 }
      { s with devQ := s.devQ ++ [e] }.bump

/-- Write bytes from key on, a word at a time; fuel is the number of words. -/
def State.engWords (s : State) (c : Copy) : Nat → Phys → Nat → List Byte → State
  | 0, _, _, _ => s
  | fuel + 1, p, va, b =>
    if b.isEmpty then s
    else
      let m := 8 - p.key % 8
      let w := b.take m
      let s := s.engWrite c p w.length (ofBytes w) va
      s.engWords c fuel { p with key := p.key + m, pa := p.pa + m } (va + m) (b.drop m)

/-- Write the bytes of pieces. -/
def State.engWriteAll (s : State) (c : Copy) : List EngPiece → List Byte → State
  | [], _ => s
  | p :: l, b =>
    (s.engWords c (p.n / 8 + 2) p.p p.va (b.take p.n)).engWriteAll c l (b.drop p.n)

/-- The slices of the engine's die serve the frames of a chunk's pieces, one request each (R38, R112); it stalls while a
request for one is under way. -/
def State.engDraw (s : State) (c : Copy) (store : Bool) (l : List EngPiece) : Except EngStop State :=
  let l := l.filter fun x => x.p.attr.cached && s.cacheable x.p.key
  let fs := l.map fun x => (x.p.pa, x.n)
  if s.framesIdle fs then .ok (s.touchSlices (c.core / 32) fs store .none (some (slotOf c.task))) else .error .stall

/-! Register endpoints (R325). -/

/-- Where the registers of a member are: in a slot, or in the backing area of a saved member. -/
structure RegEnd where
  hid : Option Nat
  who : Who
  rbs : Nat
deriving DecidableEq, Repr

/-- A fault of an access that a chunk makes for a register (R191). -/
def Trap.ofChunk (t : Trap) : EngStop :=
  .fault (if t.cause = .pagefault then { t with sub := Acc.engine.sub } else t)

/-- Where a chunk's access to a saved member's state leads: it stalls on a migrating page (R64) and on a frame that
stalls it. -/
def State.areaReach (s : State) (w : Who) (va : Nat) (store : Bool) : Except EngStop (State × Phys) :=
  match translate s w va .fill store with
  | .fault _ t => .error t.ofChunk
  | .mig _ => .error .mig
  | .ok s p =>
    if p.attr = .dev then .error (pageFault .fill va).ofChunk
    else match fate s (w.core / 32) p store with
      | .ok => .ok (s, p)
      | .stall => .error .stall
      | .fault .pagefault _ => .error (pageFault .fill va).ofChunk
      | .fault c sub => .error (.fault { Trap.at0 c sub va with pa := p.pa })
def State.savedRead (s : State) (w : Who) (va n : Nat) : Except EngStop (State × Nat) := do
  let (s, p) ← s.areaReach w va false
  let (v, _, bad) := s.readValue (s.searchPath 2 0 0) p.key n
  if bad then .error (.fault { Trap.at0 .dataerr (s.eccSub p.key n) va with pa := p.pa })
  else .ok (s.touchPage w p n false, v)

/-- A read and a write of a saved member's area by a chunk. -/
def State.areaRead (s : State) (r : RegEnd) (off n : Nat) : Except EngStop (State × Nat) := s.savedRead r.who (r.rbs + off) n
def State.areaWrite (s : State) (r : RegEnd) (off n v : Nat) : Except EngStop State := do
  let (s, p) ← s.areaReach r.who (r.rbs + off) true
  .ok ((s.touchPage r.who p n true).writeHome p.key n v s.drv.nextId 1024)

/-- The endpoint of a member: none when it has finished. -/
def State.regEnd (s : State) (task member : Nat) : Except EngStop (State × Option RegEnd) :=
  let t := s.task task
  match t.members.getD member .finished with
  | .placed hid =>
    .ok (s, some { hid := some hid, who := { whoOf s hid with level := .s }, rbs := ((s.hart hid).mreg mRbs).toNat })
  | .saved =>
    let w := { ringWho s (slotOf task) t.die with level := .s }
    match s.savedRead w (s.unitBase (slotOf task) ((t.units.getD member none).getD 0) + 0x182000) 8 with
    | .ok (s, rbs) => .ok (s, some { hid := none, who := w, rbs })
    | .error e => .error e
  | _ => .ok (s, none)

/-- The register whose byte stands at an offset of a placed member's register file is filled. -/
def State.regFilled (s : State) (hid off : Nat) : Except EngStop State :=
  let n := off / 0x4000
  let moving (i : Nat) : Bool := match translate s (whoOf s hid) (((s.hart hid).mreg mRbs).toNat + 4096 * (4 * n + i)) .fill false with
    | .mig _ => true
    | _ => false
  if (s.hart hid).isSpilled n && (List.range 4).any moving then .error .mig
  else match s.fillHart hid n with | .ok s => .ok s | .error t => .error t.ofChunk

/-- n bytes of a register file. -/
def State.regRead (s : State) (r : RegEnd) (off n : Nat) : Except EngStop (State × Nat) := do
  match r.hid with
  | some hid =>
    let s ← s.regFilled hid off
    if s.isBad (regKey hid off) n then .error (Trap.at0 .dataerr 1 0).ofChunk
    else .ok (s, (s.hart hid).vBytes 0 off n)
  | none => s.areaRead r off n

/-- Write n bytes of a register file. -/
def State.regWrite (s : State) (r : RegEnd) (off n v : Nat) : Except EngStop State := do
  match r.hid with
  | some hid =>
    let s ← s.regFilled hid off
    let h := (s.hart hid).setVBytes 0 off n v
    .ok ((s.renew (regKey hid off) n).setHart hid { h with clean := h.clean.filter (·.1 != off / 0x4000) })
  | none => s.areaWrite r off n v

/-- Registers of a placed member that a chunk fills hold frame slots (R105); the chunk waits for one. -/
def State.regFramed (s : State) (r : RegEnd) (l : List Nat) : Except EngStop State :=
  match r.hid with
  | none => .ok s
  | some hid =>
    let s := s.useFrames hid l
    if s.framed hid l then .ok s else .error .stall

/-- Element i under a w-bit tag of the group at v. -/
def State.regElem (s : State) (r : RegEnd) (v w i : Nat) : Except EngStop (State × Nat) := do
  if w = 4 then
    let (s, b) ← s.regRead r (0x4000 * v + i / 2) 1
    .ok (s, if i % 2 = 0 then b % 16 else b / 16)
  else s.regRead r (0x4000 * v + i * (w / 8)) (w / 8)

def State.regSetElem (s : State) (r : RegEnd) (v w i x : Nat) : Except EngStop State := do
  if w = 4 then
    let off := 0x4000 * v + i / 2
    let (s, b) ← s.regRead r off 1
    s.regWrite r off 1 (if i % 2 = 0 then b / 16 * 16 + x % 16 else b % 16 + x % 16 * 16)
  else s.regWrite r (0x4000 * v + i * (w / 8)) (w / 8) x

/-- The elements of a list under a w-bit tag, and writing them: each by its index. -/
def State.regElems (s : State) (r : RegEnd) (v w : Nat) : List Nat → Except EngStop (State × List Nat)
  | [] => .ok (s, [])
  | i :: l => do
    let (s, x) ← s.regElem r v w i
    let (s, xs) ← s.regElems r v w l
    .ok (s, x :: xs)
def State.regSetElems (s : State) (r : RegEnd) (v w : Nat) : List (Nat × Nat) → Except EngStop State
  | [] => .ok s
  | (i, x) :: l => do (← s.regSetElem r v w i x).regSetElems r v w l

/-- Set bits of a predicate. -/
def State.regSetPreds (s : State) (r : RegEnd) (p : Nat) : List Nat → Except EngStop State
  | [] => .ok s
  | i :: l => do
    let s ← match r.hid with
      | some hid => .ok (s.setHart hid ((s.hart hid).setPred (Fin.ofNat 16 p) i true))
      | none => do
        let off := 0x80000 + 0x1000 * p + i / 8
        let (s, b) ← s.areaRead r off 1
        s.areaWrite r off 1 (b ||| 2 ^ (i % 8))
    s.regSetPreds r p l

/-- Set the tags of registers. -/
def State.regSetTags (s : State) (r : RegEnd) (t : Tag) : List Nat → Except EngStop State
  | [] => .ok s
  | v :: l => do
    let s ← match r.hid with
      | some hid => .ok (s.setHart hid ((s.hart hid).setTags (Fin.ofNat 32 v) t 1))
      | none => s.areaWrite r (0x90000 + v) 1 (tagCode t)
    s.regSetTags r t l

/-- The elements that a receiver can hold (R93, R328). -/
def State.regCapacity (s : State) (r : RegEnd) : Except EngStop (State × Nat) := do
  match r.hid with
  | some hid => .ok (s, s.capacity hid (s.hart hid).ew)
  | none =>
    let (s, a) ← s.areaRead r 0xA0118 8
    let (s, g) ← s.areaRead r 0xA0138 8
    .ok (s, 2048 * (g % 128) / ({ Hart.reset with mr := [(mAvl, BitVec.ofNat 64 a)] } : Hart).ew.bits)

/-! Arrivals (R119). -/

/-- The arrival word after n more bytes. -/
def arrivalStep (w : BitVec 128) (n : Nat) : BitVec 128 :=
  let x := w.toNat
  let target := x % 2 ^ 32
  let count := (x / 2 ^ 32 % 2 ^ 32 + n) % 2 ^ 32
  let gen := x / 2 ^ 64 % 2 ^ 32
  let ovr := x / 2 ^ 96 % 2
  let wrap := x / 2 ^ 97 % 2
  let rsvd := x / 2 ^ 98
  let full := target != 0 && decide (target ≤ count)
  let count' := if full then count - target else count
  let gen' := if full then (gen + 1) % 2 ^ 32 else gen
  let wrap' := if full && gen' == 0 then 1 else wrap
  let ovr' := if full && decide (target ≤ count') then 1 else ovr
  BitVec.ofNat 128 (target + count' * 2 ^ 32 + gen' * 2 ^ 64 + ovr' * 2 ^ 96 + wrap' * 2 ^ 97 + rsvd * 2 ^ 98)

/-- The 16 bytes at a key, and writing them in one step. -/
def State.word16 (s : State) (k : Nat) : BitVec 128 := BitVec.ofNat 128 (s.imgRead k 16)
def State.setWord16 (s : State) (k : Nat) (w : BitVec 128) (ino writer : Nat) : State :=
  (s.writeHome k 8 (w.toNat % 2 ^ 64) ino writer).writeHome (k + 8) 8 (w.toNat / 2 ^ 64) ino writer

/-- Where the arrival word of a copy stands, if it names one: checked like the chunk's own addresses. -/
def State.arrivalAt (s : State) (c : Copy) : Except EngStop (Option Nat) :=
  match arrivalOf c.des with
  | none => .ok none
  | some va =>
    match s.engReach c va true with
    | .error e => .error e
    | .ok (_, p) =>
      if s.isBad p.key 16 then .error (.fault { Trap.at0 .dataerr (s.eccSub p.key 16) va with pa := p.pa })
      else .ok (some p.key)

/-! Chunks (R142, R326 to R328). -/

/-- The destination address, source address and size of chunk k of a `cpy`. -/
def Copy.span (c : Copy) (k : Nat) : Nat × Nat × Nat :=
  let first := if k = 0 then 0 else 4096 * k - c.dst % 4096
  let last := min c.n (4096 * (k + 1) - c.dst % 4096)
  ((c.dst + first) % 2 ^ 55, (c.src + first) % 2 ^ 55, last - first)

/-- The elements of chunk k of a copy with a register endpoint. -/
def Copy.elems (c : Copy) (k : Nat) : Nat × Nat :=
  let L := match c.kind with | .cpyx => 8 | _ => c.lanes
  (k * L, min ((k + 1) * L) c.vl)

/-- The memory bytes of chunk k of a `cpyr` or `cpyw`: for each group, its pages. -/
def Copy.groupSpans (c : Copy) (base k : Nat) : List (List (Nat × Nat)) :=
  let (lo, hi) := c.elems k
  let b := c.elemSize
  (List.range (c.n / groupSize c.tag c.ew)).map fun g =>
    cutPages 5 ((base + (g * c.vl + lo) * b) % 2 ^ 55) ((hi - lo) * b)

/-- The memory bytes that chunk k writes, and the register bytes: a register file by its member (R142). -/
def State.chunkWrites (s : State) (c : Copy) (k : Nat) : List (Nat × Nat) :=
  let mem (l : List (Nat × Nat)) : List (Nat × Nat) := l.map fun x =>
    match s.engReach c x.1 true with
    | .ok (_, p) => (p.key, x.2)
    | .error _ => (2 ^ 90 + x.1, x.2)
  let file (m v : Nat) : Nat := 2 ^ 100 + (16 * c.task + m) * 2 ^ 21 + 0x4000 * v
  let (lo, hi) := c.elems k
  match c.kind with
  | .cpy => let (d, _, n) := c.span k; mem (cutPages 2 d n)
  | .cpyw => mem (c.groupSpans c.dst k).flatten
  | .cpyr =>
    let g := groupSize c.tag c.ew
    let b := c.elemSize
    (List.range (c.n / g)).map fun j => (file c.member (c.dst + j * g) + lo * b, (hi - lo) * b)
  | .cpyx => [(file c.n c.dst + lo * c.tag.width / 8, ceilDiv ((hi - lo) * c.tag.width) 8)]
  | .cpym => []

/-- An earlier entry's chunk that writes the same bytes has not performed (R142). -/
def State.chunkBlocked (s : State) (c : Copy) (k : Nat) (earlier : List Copy) : Bool :=
  let mine := s.chunkWrites c k
  earlier.any fun o => (List.range o.chunks).any fun j => !o.done.contains j &&
    (s.chunkWrites o j).any fun a => mine.any fun b => a.1 < b.1 + b.2 && b.1 < a.1 + a.2

/-- Split a list into parts of given lengths. -/
def splitLens {α : Type} : List Nat → List α → List (List α)
  | [], _ => []
  | n :: ns, l => l.take n :: splitLens ns (l.drop n)

/-- The debugger has taken the element group of an element from a copy (R213). -/
def Copy.isCut (c : Copy) (v i : Nat) : Bool :=
  c.cut.any fun x => groupMeets (max 1 c.lanes) c.tag.width x.1 x.2 v i

/-- The elements of a list that a copy still writes into the group at v, with their codes. -/
def Copy.kept (c : Copy) (v : Nat) (elems codes : List Nat) : List (Nat × Nat) :=
  (elems.zip codes).filter fun x => !c.isCut v x.1

/-- The arrival of n bytes at the word that a copy names. -/
def State.arrived (s : State) (c : Copy) (arr : Option Nat) (n : Nat) : State :=
  match arr with
  | some key => s.setWord16 key (arrivalStep (s.word16 key) n) c.ino 1024
  | none => s

/-- A chunk of a `cpy`: n bytes from address a to address d. -/
def State.cpyChunk (s : State) (q : Nat) (c : Copy) (arr : Option Nat) (d a n : Nat) : Except EngStop (State × Nat) := do
  let (s, rd) ← s.engPieces c false (cutPages 2 a n)
  let (s, wr) ← s.engPieces c true (cutPages 2 d n)
  let s ← s.engDraw c false rd
  let bytes ← s.engRead q c rd
  let s ← s.engDraw c true wr
  .ok ((s.engWriteAll c wr bytes).arrived c arr n, n)

/-- The groups of a copy's registers, each with its part of a chunk's bytes, are written. -/
def State.fillParts (s : State) (r : RegEnd) (c : Copy) (elems : List Nat) : List (Nat × List Byte) → Except EngStop State
  | [] => .ok s
  | (v, bytes) :: l => do
    let b := c.elemSize
    let code (k : Nat) : Nat := ofBytes ((bytes.drop (k * b)).take b)
    let s ← s.regSetElems r v c.tag.width (c.kept v elems ((List.range elems.length).map code))
    s.fillParts r c elems l

/-- The bytes of a chunk that the groups of a copy's registers give. -/
def State.drainParts (s : State) (r : RegEnd) (c : Copy) (elems : List Nat) : List Nat → Except EngStop (State × List Byte)
  | [] => .ok (s, [])
  | v :: l => do
    let (s, xs) ← s.regElems r v c.tag.width elems
    let (s, rest) ← s.drainParts r c elems l
    .ok (s, (xs.flatMap fun x => (List.range c.elemSize).map (byteOf x)) ++ rest)

/-- Chunk k performs: the state, and the bytes written. -/
def State.chunkEffect (s : State) (q : Nat) (c : Copy) (k : Nat) : Except EngStop (State × Nat) := do
  let arr ← s.arrivalAt c
  let (lo, hi) := c.elems k
  let G := groupSize c.tag c.ew
  let b := c.elemSize
  let elems := (List.range (hi - lo)).map (lo + ·)
  let groups (v : Nat) : List Nat := (List.range (c.n / G)).map fun g => v + g * G
  match c.kind with
  | .cpy => let (d, a, n) := c.span k; s.cpyChunk q c arr d a n
  | .cpyr =>
    let (s, ps) ← s.engPieces c false (c.groupSpans c.src k).flatten
    let s ← s.engDraw c false ps
    let bytes ← s.engRead q c ps
    let parts := splitLens (List.replicate (c.n / G) ((hi - lo) * b)) bytes
    match ← s.regEnd c.task c.member with
    | (s, none) => .ok (s, 0)
    | (s, some r) =>
      let s ← s.fillParts r c elems ((groups c.dst).zip parts)
      .ok (← s.regSetPreds r c.pk elems, (c.n / G) * ((hi - lo) * b))
  | .cpyw =>
    let (s, ps) ← s.engPieces c true (c.groupSpans c.dst k).flatten
    match ← s.regEnd c.task c.member with
    | (s, none) => .ok (s, 0)
    | (s, some r) =>
      let (s, bytes) ← s.drainParts r c elems (groups c.src)
      let s ← s.engDraw c true ps
      let s := s.engWriteAll c ps bytes
      .ok (← s.regSetPreds r c.pk elems, bytes.length)
  | .cpyx =>
    match ← s.regEnd c.task c.n with
    | (s, none) => .ok (s, 0)
    | (s, some r) =>
      let (s, cap) ← s.regCapacity r
      let w := c.tag.width
      let code (i : Nat) : Nat :=
        if w = 4 then
          let x := (SMap.get (0 : Byte) c.image (i / 2)).toNat
          if i % 2 = 0 then x % 16 else x / 16
        else imgGet c.image (i * b) b
      let land := elems.filter (· < cap)
      let s ← s.regFramed r ((land.map fun i => c.dst + i * w / 8 / 0x4000).eraseDups)
      let s ← s.regSetElems r c.dst w (c.kept c.dst land (land.map code))
      let last := c.done.length + 1 = c.chunks
      let tags := ((List.range G).map (c.dst + ·)).filter fun v => !c.cutTags.contains v
      let s ← if last then s.regSetTags r c.tag tags else .ok s
      .ok (s, ceilDiv (land.length * w) 8)
  | .cpym => .error .stall

/-- A deferred fault joins the saved state of a member (R191, R195). -/
def State.deferSaved (s : State) (c : Copy) (w v : Word) : Except EngStop State := do
  match ← s.regEnd c.task c.member with
  | (s, none) => .ok s
  | (s, some r) =>
    let put (s : State) (off : Nat) : Except EngStop State := do
      (← s.areaWrite r off 8 w.toNat).areaWrite r (off + 8) 8 v.toNat
    let (s, first) ← s.areaRead r 0xA0158 8
    if first = 0 then put s 0xA0158
    else
      let (s, n) ← s.areaRead r 0xA0170 8
      (← put s (0xA1000 + 16 * n)).areaWrite r 0xA0170 8 (n + 1)

/-- A deferred fault reaches its hart: in its slot, in its saved state, or not at all when its task was killed
(R191).  A saved state whose page migrates or stalls holds it up. -/
def State.deferFault (s : State) (c : Copy) (t : Trap) : Except EngStop State :=
  let w := { t with dfr := true, eq := c.eq }.word
  let v : Word := BitVec.ofNat 64 t.tval
  let s := if t.cause = .dataerr then s.report t.cause.code t.sub 0 t.pa t.tval
      (some (if c.hid < 1024 then c.hid else c.slot)) (some c.task) else s
  if c.hid < 1024 then
    let h := s.hart c.hid
    .ok (s.setHart c.hid { h with deferred := h.deferred ++ [(w, v)] })
  else if c.hid = parkHid c.task c.member then
    match s.deferSaved c w v with
    | .error (.fault t) => .ok (s.killFor c.task t none)
    | r => r
  else .ok (s.report repEngdrop 0 0 0 t.tval none (some c.task))

/-- An entry leaves its queue, with its trace record. -/
def State.dequeue (s : State) (q : Nat) (c : Copy) (abandoned : Bool) : State :=
  let s := (s.setEngQ q ((s.engQ q).filter fun o => o.eq != c.eq)).leftSpads c
  s.traceRec (engDie q) 2 (some c.slot) (some c.task)
    (c.payload q c.wrote + if abandoned then 2 ^ 32 else 0)

/-- The end of a copy: a task designator decrements its task (R144, R324). -/
def State.finishCopy (s : State) (q : Nat) (c : Copy) : State :=
  let s := s.dequeue q c false
  if bits c.des 63 62 = 1 then
    s.decrement (65536 * slotOf c.task + bits c.des 15 0) 1 (some c.core)
  else s

/-- Replace an entry. -/
def State.setCopy (s : State) (q : Nat) (c : Copy) : State :=
  s.setEngQ q ((s.engQ q).map fun o => if o.eq = c.eq then c else o)

/-- Chunk k of an entry has performed, n bytes of it; the last one ends the copy. -/
def State.chunkDone (s : State) (q : Nat) (c : Copy) (k n : Nat) : State :=
  let c := { c with done := c.done ++ [k], wrote := c.wrote + n }
  let s := (s.setCopy q c).count (slotOf c.task) 15 n
  if c.done.length = c.chunks then s.finishCopy q c else s

/-- A chunk performs, faults, or stalls: on a migrating page, or on a gated scratchpad, which it wakes (R126, R127). -/
def State.runChunk (s : State) (q : Nat) (c : Copy) (k : Nat) : State :=
  let c := { c with started := true, stall := c.stall.filter fun x => x.1 != k }
  let waits (e : EngStop) : State :=
    if e = .mig then s.setCopy q { c with stall := c.stall ++ [(k, s.clk + 10 * Config.clkPerUs)] }
    else c.spads.foldl State.wakeSpad (s.setCopy q c)
  match s.chunkEffect q c k with
  | .ok (s, n) => s.chunkDone q c k n
  | .error (.fault t) => match (s.dequeue q c true).deferFault c t with
    | .ok s => s
    | .error e => waits e
  | .error e => waits e

/-- Entry eq of a queue. -/
def State.copyAt (s : State) (q eq : Nat) : Option Copy := (s.engQ q).find? fun c => c.eq == eq

/-- A chunk may start (R142). -/
def State.chunkReady (s : State) (q : Nat) (c : Copy) (k : Nat) : Bool :=
  c.kind != .cpym && decide (k < c.chunks) && !c.done.contains k &&
  (c.started || s.earlierDone c.hid c.ino .dev false c.obs) &&
  !s.chunkBlocked c k ((s.engQ q).takeWhile fun o => o.eq != c.eq)

/-- The strip of a `cpym` for member k has no receiver any more: the member has finished, and its receive frames are gone
with its slot.  The strip lands nowhere, and the copy goes on to its end (DESIGN CHOICE, log entry 105). -/
def State.stripLost (s : State) (c : Copy) (k : Nat) : Bool :=
  c.kind == .cpym && c.n.testBit k && !c.done.contains k &&
  ((s.task c.task).members.getD k .finished == .finished) && (c.started || s.earlierDone c.hid c.ino .dev false c.obs)

/-- ENGINE_CHUNK: chunk k of entry eq performs in one engine step (R142 to R144); of a `cpym`, the strip for a member k
that has finished. -/
def execEngineChunk (q eq k : Nat) (s : State) : Out :=
  match s.copyAt q eq with
  | none => .next s
  | some c =>
    if s.stripLost c k then .next (s.chunkDone q { c with started := true } k 0)
    else if s.chunkReady q c k && !(c.stall.any fun x => x.1 == k) then .next (s.runChunk q c k) else .next s

/-- ENGINE_MIG_RETRY: the first chunk of entry eq that waits on a migrating page and is due walks again (R64). -/
def execEngineMigRetry (q eq : Nat) (s : State) : Out :=
  match s.copyAt q eq with
  | none => .next s
  | some c =>
    match c.stall.find? fun x => x.2 ≤ s.clk with
    | some x => if s.chunkReady q c x.1 then .next (s.runChunk q c x.1) else .next s
    | none => .next s

/-! Multicast (R146, R329). -/

/-- STRIP_LAND: the strip reserved as entry i of a receiver's list lands (R146). -/
def execStripLand (hid i : Nat) (s : State) : Out :=
  let h := s.hart hid
  match h.rx[i]?, h.task with
  | some f, some key =>
    let hit (c : Copy) : Bool := c.kind == .cpym && c.task == key && c.member == f.sender && c.ino == f.ino
    match s.copies.find? fun e => hit e.2 with
    | some (q, c) =>
      if f.landed || !(c.started || s.earlierDone c.hid c.ino .dev false c.obs) then .next s
      else
        let f := { f with landed := true, tag := c.tag, len := c.vl, bytes := c.image }
        let s := s.setHart hid { h with rx := h.rx.set i f }
        .next (s.chunkDone q { c with started := true } h.member (ceilDiv (c.vl * c.tag.width) 8))
    | none => .next s
  | _, _ => .next s

/-! Issue (R325). -/

/-- A copy of the executing hart, not yet in a queue. -/
def State.newCopy (s : State) (kind : CopyKind) (dst src n : Nat) (des : Word) (pk : PR) (tag : Tag) (vl : Nat)
    (image : SMap Byte) : Copy :=
  let h := s.me
  let w := whoOf s s.cur
  { kind, hid := s.cur, core := coreOf s.cur, task := h.task.getD 0, member := h.member, ino := s.drv.nextId,
    level := h.level, asid := w.asid, ptbase := w.ptbase, dst, src, n, des, pk := pk.val, tag, vl, ew := h.ew,
    lanes := max 1 (s.vgrant s.cur), image, done := [], wrote := 0, stall := [], obs := (s.hmem s.cur).obs,
    started := false, eq := 0, cut := [], cutTags := [], slot := s.cur }

/-- The queue has an entry for a copy. -/
def State.engRoom (s : State) (q : Nat) : Bool := decide ((s.engQ q).length < engCap q)

/-- A copy enters its queue, in the lowest free entry. -/
def State.enqueue (s : State) (q : Nat) (c : Copy) : State :=
  let used := (s.engQ q).map (·.eq)
  let eq := ((List.range (engCap q)).find? fun e => !used.contains e).getD 0
  let c := { c with eq }
  let s := (s.setEngQ q (s.engQ q ++ [c])).bump
  s.traceRec (engDie q) 1 (some s.cur) (some c.task) (c.payload q c.asked)

/-- Copies of the executing hart that name a predicate and have not ended (R327, R331). -/
def State.maskBusy (s : State) (pk : PR) : Bool := (s.copiesOf s.cur).any fun c => c.pk == pk.val && c.pk != 0

/-- An engine address operand. -/
def State.engAddr (s : State) (x : XR) : Nat := (s.getX x).toNat % 2 ^ 55

/-- `cpy` (R326). -/
def State.cpy (s : State) (d a n e : XR) : Res := do
  let core := coreOf s.cur
  need ((s.getX n).toNat ≤ 2 ^ 40 && s.desOk core (s.getX e)) s.badShape
  let c := s.newCopy .cpy (s.engAddr d) (s.engAddr a) (s.getX n).toNat (s.getX e) 0 .z8 0 []
  let q := engQueue .cpy core c.dst c.src
  need (s.engRoom q) (.wait s)
  .ok (s.enqueue q c)

/-- `cpy` (R326). -/
def execCpy (d a n e : XR) (s : State) : Out := complete 4 (s.cpy d a n e)

/-- `cpyr` and `cpyw` (R327). -/
def State.cpyReg (s : State) (kind : CopyKind) (v : VR) (a : XR) (n : Nat) (k : PR) : Res := do
  let h := s.me
  let t := h.tagOf v
  need t.ordinary s.badTag
  let G := groupSize t h.ew
  need ((groupOf t h.ew v).isSome && n % G == 0 && decide (v.val + n ≤ 32)) s.badShape
  let addr := s.engAddr a
  need (addr % (t.width / 8) == 0) (s.fails .misalign 0 addr)
  let q := coreOf s.cur
  need (!s.maskBusy k && s.engRoom q) (.wait s)
  let s ← s.fillGroups ((List.range (n / G)).map fun g => (Fin.ofNat 32 (v.val + g * G), t))
  let vl := s.me.vl
  let dst := if kind = .cpyr then v.val else addr
  let src := if kind = .cpyr then addr else v.val
  let c := s.newCopy kind dst src n 0 k t vl []
  if vl = 0 then .ok s
  else .ok ((s.setMe (s.me.setPreds k (fun _ => false) vl)).enqueue q c)

/-- `cpyr` (R327). -/
def execCpyr (v : VR) (a : XR) (n : Fin 8) (k : PR) (s : State) : Out :=
  complete 4 (s.cpyReg .cpyr v a (n.val + 1) k)
/-- `cpyw` (R327). -/
def execCpyw (v : VR) (a : XR) (n : Fin 8) (k : PR) (s : State) : Out :=
  complete 4 (s.cpyReg .cpyw v a (n.val + 1) k)

/-- The bytes of the elements below vl of the group at v. -/
def Hart.sent (h : Hart) (v : VR) : SMap Byte :=
  let lo := 0x4000 * v.val
  let n := ceilDiv (h.vl * (h.tagOf v).width) 8
  (h.v.filter fun b => lo ≤ b.1 && b.1 < lo + n).map fun b => (b.1 - lo, b.2)

/-- An uncorrectable word of the register file stands in the elements that a copy captures at issue (R26). -/
def State.sendsBad (s : State) (v : VR) : Bool :=
  !s.bad.isEmpty && s.isBad (regKey s.cur (0x4000 * v.val)) (ceilDiv (s.me.vl * (s.me.tagOf v).width) 8)

/-- `cpyx` (R328): like every instruction but conversions, quantises and matrix ones, for ordinary tags (R158). -/
def State.cpyx (s : State) (d : VR) (x : XR) (v : VR) : Res := do
  let h := s.me
  let t := h.tagOf v
  need t.ordinary s.badTag
  let target := (s.getX x).toNat
  let peer := match h.task with
    | some key => target != s.cur && (s.task key).hids.contains target
    | none => false
  need (peer && (groupOf t h.ew v).isSome && (groupOf t h.ew d).isSome) s.badShape
  let q := coreOf s.cur
  need (s.engRoom q) (.wait s)
  let s ← s.fillGroups [(v, t)]
  let h := s.me
  need (!s.sendsBad v) (s.fails .dataerr 1 0)
  if h.vl = 0 then .ok s
  else .ok (s.enqueue q (s.newCopy .cpyx d.val v.val (s.hart target).member 0 0 t h.vl (h.sent v)))

/-- `cpyx` (R328). -/
def execCpyx (d : VR) (c : XR) (v : VR) (s : State) : Out := complete 4 (s.cpyx d c v)

/-- The slot of a member of the executing hart's gang. -/
def State.memberSlot (s : State) (i : Nat) : Option Nat :=
  match s.me.task with
  | none => none
  | some key => match (s.task key).members.getD i .finished with | .placed hid => some hid | _ => none

/-- A target has a frame in its receive list. -/
def State.hasFrame (s : State) (i : Nat) : Bool :=
  match s.memberSlot i with
  | some hid => decide ((s.hart hid).rx.length < (s.hart hid).rxMax)
  | none => false

/-- Reserve a frame of a target. -/
def State.reserveFrame (s : State) (t : Tag) (i : Nat) : State :=
  match s.memberSlot i with
  | none => s
  | some hid =>
    let h := s.hart hid
    let f : RxFrame := { sender := s.me.member, ino := s.drv.nextId, tag := t, len := 0, bytes := [], landed := false }
    s.setHart hid { h with rx := h.rx ++ [f] }

/-- `cpym` (R158, R329). -/
def State.cpym (s : State) (v : VR) (m : XR) : Res := do
  let h := s.me
  let t := h.tagOf v
  need t.ordinary s.badTag
  let mask := (s.getX m).toNat
  let gsz := match h.task with | some key => (s.task key).gsz | none => 1
  need (decide (mask < 2 ^ gsz) && !mask.testBit h.member && groupOf t h.ew v == some 1) s.badShape
  let q := coreOf s.cur
  let targets := bitList 16 mask
  need (targets.all s.hasFrame && s.engRoom q) (.wait s)
  let s ← s.fillGroups [(v, t)]
  need (mask = 0 || !s.sendsBad v) (s.fails .dataerr 1 0)
  if mask = 0 then .ok s
  else
    let c := s.newCopy .cpym 0 v.val mask 0 0 t s.me.vl (s.me.sent v)
    .ok ((targets.foldl (fun s i => s.reserveFrame t i) s).enqueue q c)

/-- `cpym` (R329). -/
def execCpym (v : VR) (m : XR) (s : State) : Out := complete 4 (s.cpym v m)

/-- `vrecv` (R329). -/
def State.vrecv (s : State) (d : VR) : Res :=
  let h := s.me
  match h.rx with
  | [] => .error (.wait s)
  | f :: l =>
    if !f.landed then .error (.wait s)
    else if !f.tag.ordinary then .error s.badTag
    else if groupOf f.tag h.ew d ≠ some 1 then .error s.badShape
    else
      let lo := 0x4000 * d.val
      let size := 256 * s.vgrant s.cur
      let new := (f.bytes.filter fun b => b.1 < size).map fun b => (lo + b.1, b.2)
      let h := { h with rx := l, v := replaceRange h.v lo 0x4000 new,
                          spilled := h.spilled.filter fun r => r.1 != d.val,
                          clean := h.clean.filter fun r => r.1 != d.val }
      .ok (s.setMe (h.setTags d f.tag 1))

/-- `vrecv` (R329). -/
def execVrecv (d : VR) (s : State) : Out := complete 4 (s.vrecv d)

/-- `vstream` (R330). -/
def execVstream (b st : XR) (s : State) : Out :=
  complete 4 (do
    need s.me.looping s.illegal
    .ok (s.setMe { s.me with stream := some (s.getX b, s.getX st) }))

/-- `pwait` (R331). -/
def execPwait (k : PR) (s : State) : Out :=
  complete 4 (do need (!s.maskBusy k) (.wait s); .ok s)

/-! Arrival words (R332). -/

/-- The checks of `arw` and `await`, in the order of R189, and the key of the word. -/
def State.arrivalWord (s : State) (a : XR) (store : Bool) : Except Stop (State × Nat) := do
  let va := s.engAddr a
  let k : Acc := if store then .store else .load
  need (va % 16 == 0) (s.fails .misalign 0 va)
  need (decide (winBase ≤ va) && decide (va < winBase + winSize)) (s.fails .pagefault k.sub va)
  let (s1, p) ← s.scalarAccess va 16 store store
  let ino := s1.drv.nextId
  need (!s1.isBad p.key 16) (.trap { Trap.at0 .dataerr (s1.eccSub p.key 16) va with pa := p.pa } s1)
  need (!s1.olderHeld s.cur ino p.key 16 && !s1.olderPending s.cur ino p.key 16) (.wait s)
  need (!store || s1.mayLeave s.cur ino) (.wait s)
  .ok (s1, p.key)

/-- The generation and count of an arrival word. -/
def genCount (w : BitVec 128) : Word := BitVec.ofNat 64 (w.toNat / 2 ^ 64 % 2 ^ 32 * 2 ^ 32 + w.toNat / 2 ^ 32 % 2 ^ 32)

/-- `arw` (R332): the generation and the reserved bits stay. -/
def execArw (d a x : XR) (s : State) : Out :=
  complete 4 (do
    let (s, k) ← s.arrivalWord a true
    let w := s.word16 k
    let new := w.toNat / 2 ^ 98 * 2 ^ 98 + w.toNat / 2 ^ 64 % 2 ^ 32 * 2 ^ 64 + (s.getX x).toNat % 2 ^ 32
    let ino := s.drv.nextId
    let s := (s.noteRead s.cur ino k 16 []).bump
    .ok ((s.setWord16 k (BitVec.ofNat 128 new) ino s.cur).setX d (genCount w)))

/-- `await` (R332). -/
def execAwait (d a x : XR) (s : State) : Out :=
  complete 4 (do
    let (s1, k) ← s.arrivalWord a false
    let w := s1.word16 k
    need (w.toNat / 2 ^ 64 % 2 ^ 32 != (s.getX x).toNat % 2 ^ 32) (.wait s)
    .ok (((s1.noteRead s.cur s1.drv.nextId k 16 []).bump).setX d (genCount w)))

end Sys2Proof.Machine
end

