-- ==== Sys2Proof/Machine/Quant.lean ====
section
/-!
DEFINITION. Outlier lists, and the quantise and dequantise instructions (R161, R162, R169, R172, R177 to R179, R183,
R293 to R296).
-/
namespace Sys2Proof.Machine

/-! Outlier lists (R177, R178, R293). -/

/-- A list descriptor: X is the piece extent. -/
structure ListDesc where
  kbase : Nat
  X : Nat
  off : Nat
deriving DecidableEq, Repr

/-- The descriptor of a register value, with the checks of its own fields. -/
def listDesc (w : Word) : Option ListDesc :=
  if bits w 63 48 = 0 ∧ bits w 19 0 % 16 = 0 then
    some { kbase := bits w 47 32, X := bits w 31 20 + 1, off := bits w 19 0 }
  else none

/-- A list header (R177). -/
structure ListHdr where
  cap : Nat
  count : Nat
  tile : Nat
  side : Bool
  ovf : Bool
  rsvd : Nat
deriving DecidableEq, Repr

/-- The header of its two 8-byte halves, and the halves of a header. -/
def ListHdr.ofHalves (lo hi : Nat) : ListHdr :=
  { cap := lo % 2 ^ 32, count := lo / 2 ^ 32 % 2 ^ 32, tile := hi % 2 ^ 32, side := hi / 2 ^ 32 % 2 == 1,
    ovf := hi / 2 ^ 33 % 2 == 1, rsvd := hi / 2 ^ 34 % 2 ^ 30 }
def ListHdr.lo (h : ListHdr) : Nat := h.cap + h.count * 2 ^ 32
def ListHdr.hi (h : ListHdr) : Nat := h.tile + h.side.toNat * 2 ^ 32 + h.ovf.toNat * 2 ^ 33 + h.rsvd * 2 ^ 34

/-- The header is well formed in its own fields, and the list fits the window from off. -/
def ListHdr.ok (h : ListHdr) (off : Nat) : Bool :=
  decide (h.cap ≤ 4096) && decide (h.count ≤ h.cap) && h.rsvd == 0 && decide (off + 16 + 8 * h.cap ≤ winSize)

/-- An entry: its row or column, its k, its f32 value and its reserved bits (R178). -/
structure ListEnt where
  pos : Nat
  k : Nat
  v : Nat
  rsvd : Nat
deriving DecidableEq, Repr

def ListEnt.ofWord (side : Bool) (w : Nat) : ListEnt :=
  if side then { pos := w / 2 ^ 36 % 2 ^ 12, k := w / 2 ^ 48 % 2 ^ 16, v := w % 2 ^ 32, rsvd := w / 2 ^ 32 % 16 }
  else { pos := w / 2 ^ 52 % 2 ^ 12, k := w / 2 ^ 36 % 2 ^ 16, v := w % 2 ^ 32, rsvd := w / 2 ^ 32 % 16 }

def ListEnt.word (side : Bool) (e : ListEnt) : Nat :=
  if side then e.k * 2 ^ 48 + e.pos * 2 ^ 36 + e.v else e.pos * 2 ^ 52 + e.k * 2 ^ 36 + e.v

/-- The restart point of a trap before any further effect stays the one that the hart resumed from. -/
def Stop.keepPoint (e : Stop) (old : Bool) : Stop :=
  match e with
  | .trap t s => .trap { t with old } s
  | .wait s => .wait s

/-- One 8-byte scratchpad access of the executing hart at a window offset; watch: watchpoints match it (R207). -/
def State.listAccess (s : State) (off : Nat) (store watch : Bool) : Except Stop (State × Phys) :=
  match s.access (winBase + off) 8 0 store false watch with
  | .ok r => .ok r
  | .error (.stall k) => .error (.wait (s.noteStall k))
  | .error (.fault t s1) => .error (.trap { t with old := s.me.resume.pending } s1)

/-- One 8-byte Read step of a list; with settled, after every earlier write of the hart to it has reached the
image (R295, R343). -/
def State.listRead (s : State) (off : Nat) (settled : Bool) : Except Stop (State × Nat) := do
  let (s1, p) ← s.listAccess off false (!s.me.wpSkip)
  let ino := s1.drv.nextId
  let (v, ids, bad) := s1.readValue s1.myPath p.key 8
  need (!bad) (.trap { Trap.at0 .dataerr (s1.eccSub p.key 8) (winBase + off) with old := s.me.resume.pending } s1)
  need (!s1.olderHeld s.cur ino p.key 8 && !(settled && s1.olderPending s.cur ino p.key 8)) (.wait s)
  .ok (s1.noteRead s.cur ino p.key 8 ids, v)

/-- The header at off. -/
def State.listHeader (s : State) (off : Nat) (settled : Bool) : Except Stop (State × ListHdr) := do
  let (s, lo) ← s.listRead off settled
  let (s, hi) ← s.listRead (off + 8) settled
  .ok (s, ListHdr.ofHalves lo hi)

/-- n entries from entry i on. -/
def State.listEntries (s : State) (off : Nat) (side : Bool) : Nat → Nat → Except Stop (State × List ListEnt)
  | 0, _ => .ok (s, [])
  | n + 1, i => do
    let (s, w) ← s.listRead (off + 16 + 8 * i) true
    let (s, l) ← s.listEntries off side n (i + 1)
    .ok (s, ListEnt.ofWord side w :: l)

/-- The Buffer steps of list words, in order: window offsets and values. -/
def State.listWrite (s : State) (l : List (Nat × Nat)) : State :=
  let core := coreOf s.cur
  let ino := s.drv.nextId
  s.bump.bufferAll s.cur ino (l.map fun w =>
    { p := ⟨spadKey core w.1, 0, .spad⟩, n := 8, val := w.2, va := winBase + w.1 }) none none false

/-- The two words of a header. -/
def ListHdr.words (h : ListHdr) (off : Nat) : List (Nat × Nat) := [(off, h.lo), (off + 8, h.hi)]

/-! Quantising one block (R179). -/

/-- emax of the narrow formats (R161), as fmt gives it. -/
def tagEmax (t : Tag) : Int := t.fmt.emax

/-- Infinities and NaNs. -/
def numSpecial : Num → Bool
  | .fin _ _ _ => false
  | _ => true

/-- A value times a power of two. -/
def numShift (x : Num) (k : Int) : Num :=
  match x with
  | .fin n m e => .fin n m (e + k)
  | x => x

/-- Candidate a is elected before b: infinities and NaNs first, then larger magnitudes; ties go by index. -/
def electBefore (a b : Nat × Num) : Bool :=
  if numSpecial a.2 || numSpecial b.2 then numSpecial a.2 && !numSpecial b.2 else numLt b.2.abs a.2.abs

/-- The elected elements of a block, in the order of election. -/
def elect (E : Nat) (θ : Num) (xs : List (Nat × Num)) : List (Nat × Num) :=
  let cand := xs.filter fun x => numSpecial x.2 || (!θ.isNan && numLt θ x.2.abs)
  let put (l : List (Nat × Num)) (x : Nat × Num) : List (Nat × Num) :=
    l.takeWhile (fun y => !electBefore x y) ++ x :: l.dropWhile (fun y => !electBefore x y)
  (cand.foldl put []).take E

/-- A quantised block: its scale code, the codes, the elected elements ascending, and the flags. -/
structure QBlock where
  scale : Nat
  codes : List (Nat × Nat)
  elected : List Nat
  flags : Nat
deriving DecidableEq, Repr

/-- The scale exponent of the largest magnitude: none for a NaN (R179, R294). -/
def blockScale (t : Tag) (xs : List Num) : Option Int :=
  if xs.any Num.isNan then none
  else if xs.any numSpecial then some 127
  else
    let m := xs.foldl (fun a x => if numLt a x.abs then x.abs else a) (.fin false 0 0)
    match m with
    | .fin _ (n + 1) e => some (max (-127) (min 127 (floorLog2 (n + 1) e - tagEmax t)))
    | _ => some (-127)

/-- Quantise the active elements xs of a block. -/
def quantBlock (t : Tag) (rm : Rm) (E : Nat) (θ : Num) (xs : List (Nat × Num)) : QBlock :=
  let el := (elect E θ xs).map (·.1)
  let rest := xs.filter fun x => !el.contains x.1
  let esc := (xs.filter fun x => el.contains x.1).map fun x => (x.1, t.escape.getD 0)
  match blockScale t (rest.map (·.2)) with
  | none =>
    { scale := 0xFF, codes := esc ++ rest.map fun x => (x.1, 0), elected := esc.map (·.1), flags := flNV }
  | some k =>
    let r := rest.map fun x => (x.1, encNarrow t rm (numShift x.2 (-k)))
    { scale := (127 + k).toNat, codes := esc ++ r.map fun x => (x.1, x.2.1), elected := esc.map (·.1),
      flags := r.foldl (fun a x => a ||| x.2.2) 0 }

/-- The values of the active elements among some. -/
def Hart.actVals (h : Hart) (v : VR) (pm : PR) (es : List Nat) : List (Nat × Num) :=
  (es.filter (h.pred pm)).map fun e => (e, val (h.tagOf v) (h.elem v e))

/-! vqnt (R294). -/

/-- The groups of a quantise instruction are pairwise disjoint. -/
def quantGroups (ew : Ew) (d : VR) (t : Tag) (sc : VR) (a : VR) (ta : Tag) : Bool :=
  match groupOf t ew d, groupOf .e8m0 ew sc, groupOf ta ew a with
  | some gd, some gs, some ga => !meets d gd sc gs && !meets d gd a ga && !meets sc gs a ga
  | _, _, _ => false

/-- `vqnt` (R294): blocks of 32 elements in vector layout. -/
def State.vqnt (s : State) (d sc a : VR) (t : Tag) (p : PR) : Res := do
  let h := s.me
  let ta := h.tagOf a
  need (ta.isFloat && t.isNarrow) s.badTag
  need (quantGroups h.ew d t sc a ta) s.badShape
  let s ← if h.spent then .ok s else s.fromStart.fillGroups [(d, t), (sc, .e8m0), (a, ta)]
  let nb := ceilDiv h.vl 32
  if h.spent then .ok (s.setMe ((s.me.land d t (List.range h.vl) []).land sc .e8m0 (List.range nb) []))
  else
  s.sound [(a, ta)] fun _ => s.me.actives p
  let h := s.me
  if h.vl = 0 then .ok s
  else
    let blocks := (List.range nb).map fun b =>
      quantBlock t h.rm 0 (.nan false) (h.actVals a p ((List.range 32).map (32 * b + ·) |>.filter (· < h.vl)))
    let codes := blocks.flatMap (·.codes)
    let fl := blocks.foldl (fun x b => x ||| b.flags) 0
    let h := h.land d t (codes.map (·.1)) codes
    let h := h.land sc .e8m0 (List.range nb) ((List.range nb).zip (blocks.map (·.scale)))
    .ok (s.setMe (h.orFlags fl))

/-- `vqnt` (R294). -/
def execVqnt (d sc a : VR) (t : Tag) (p : PR) (_ca : Bool) (s : State) : Out := completeV 8 (s.vqnt d sc a t p)

/-! vqnte (R295). -/

/-- What the steps of `vqnte` have done so far: codes, scales, list words (each with its step), the header and flags. -/
structure QAcc where
  codes : List (Nat × Nat)
  scales : List (Nat × Nat)
  words : List (Nat × Nat × Nat)
  hdr : ListHdr
  flags : Nat
deriving DecidableEq, Repr

/-- One step: the blocks (b, i) of all rows or columns i. -/
def quantStep (h : Hart) (a : VR) (t : Tag) (E : Nat) (θ : Num) (p : PR) (D : ListDesc) (b : Nat) : List QBlock :=
  (List.range D.X).map fun i =>
    quantBlock t h.rm E θ (h.actVals a p ((List.range 32).map fun k => (32 * b + k) * D.X + i))

/-- The f32 value of an element in its entry, and the flags of its rounding. -/
def entryValue (h : Hart) (a : VR) (e : Nat) : Nat × Nat :=
  let ta := h.tagOf a
  if ta = .f32 then (h.elem a e, 0) else roundNum Tag.f32.fmt h.rm (val ta (h.elem a e))

/-- Append the entries of a step, and what it writes. -/
def QAcc.apply (q : QAcc) (h : Hart) (a : VR) (D : ListDesc) (b : Nat) (bl : List QBlock) : QAcc :=
  let ents := (bl.zipIdx).flatMap fun x => x.1.elected.map fun e =>
    let v := entryValue h a e
    ((⟨x.2, D.kbase + e / D.X, v.1, 0⟩ : ListEnt).word q.hdr.side, v.2)
  let hdr := { q.hdr with count := q.hdr.count + ents.length }
  { codes := q.codes ++ bl.flatMap (·.codes)
    scales := q.scales ++ (bl.zipIdx).map fun x => (b * D.X + x.2, x.1.scale)
    words := q.words ++
      (((ents.zipIdx).map fun x => (D.off + 16 + 8 * (q.hdr.count + x.2), x.1.1)) ++ hdr.words D.off).map fun w => (b, w)
    hdr
    flags := (q.flags ||| bl.foldl (fun x y => x ||| y.flags) 0) ||| ents.foldl (fun x y => x ||| y.2) 0 }

/-- Steps from b on, n of them: what they do, and the step that does not fit. -/
def quantSteps (h : Hart) (a : VR) (t : Tag) (E : Nat) (θ : Num) (p : PR) (D : ListDesc) :
    Nat → Nat → QAcc → QAcc × Option Nat
  | 0, _, q => (q, none)
  | n + 1, b, q =>
    let bl := quantStep h a t E θ p D b
    let new := (bl.map (·.elected.length)).sum
    if q.hdr.count + new > q.hdr.cap then
      ({ q with words := q.words ++ ({ q.hdr with ovf := true }.words D.off).map fun w => (b, w) }, some b)
    else quantSteps h a t E θ p D n (b + 1) (q.apply h a D b bl)

/-- The first word of a list that cannot be written: its step and offset.  After a return to a watchpoint's instruction
the restart step matches none (R207). -/
def State.listStop (s : State) (b0 : Nat) (words : List (Nat × Nat × Nat)) : Option (Nat × Nat) :=
  words.findSome? fun w => match s.listAccess w.2.1 true (!(s.me.wpSkip && w.1 == b0)) with
    | .ok _ => none
    | .error _ => some (w.1, w.2.1)

/-- `vqnte` (R295): steps from the restart point on; OLFULL, DATAERR and a pre-emption are precise by step.  A stop after
some step leaves the result tags with the codes and scales of the steps before it (DEDUCED). -/
def State.vqnte (s : State) (d sc a : VR) (t : Tag) (E : Nat) (xth xl : XR) (p : PR) : Res := do
  let h := s.me
  let ta := h.tagOf a
  need (ta.isFloat && t.escape.isSome) s.badTag
  need (quantGroups h.ew d t sc a ta) s.badShape
  let D := (listDesc (s.getX xl)).getD ⟨0, 1, winSize⟩
  need ((listDesc (s.getX xl)).isSome && decide (D.off + 16 ≤ winSize) && h.vl % (32 * D.X) == 0 &&
    decide (h.vl / (32 * D.X) ≤ 512) && decide (h.vl = 0 ∨ D.kbase + h.vl / D.X ≤ 65536)) s.badShape
  let start := s
  let (s, hdr) ← s.listHeader D.off true
  need (hdr.ok D.off) start.badShape
  let s ← s.fillGroups [(d, t), (sc, .e8m0), (a, ta)]
  let h := s.me
  let nb := h.vl / (32 * D.X)
  let b0 := if h.resume.pending then h.resume.sfx else 0
  let failB := match (s.hmem s.cur).resErr with
    | some g => if b0 < nb then some (max b0 (min g (nb - 1))) else none
    | none => none
  let wordB := if s.bad.isEmpty then none else
    ((h.actives p).find? fun e => decide (b0 ≤ e / (32 * D.X)) && s.elemBad a ta e).map (· / (32 * D.X))
  let stopB := match failB, wordB with
    | some x, some y => some (min x y)
    | x, y => x.or y
  let θ := val .f32 ((s.getX xth).toNat % 2 ^ 32)
  let pauseB := match s.drv.pause with
    | some g => if b0 < nb ∧ g < stopB.getD nb then some (max b0 g) else none
    | none => none
  let upTo := pauseB.getD (stopB.getD nb)
  let run (n : Nat) : QAcc × Option Nat := quantSteps h a t E θ p D (n - b0) b0 ⟨[], [], [], hdr, 0⟩
  let stopW := s.listStop b0 (run upTo).1.words
  let (q, full) := run (match stopW with | some w => w.1 | none => upTo)
  need (q.words.all fun w => !s.olderHeld s.cur s.drv.nextId (spadKey (coreOf s.cur) w.2.1) 8) (.wait start)
  let s := if q.words.isEmpty then s else s.listWrite (q.words.map (·.2))
  let partial_ : State := if q.scales.isEmpty then s else
    s.setMe (((h.land d t (q.codes.map (·.1)) q.codes).land sc .e8m0 (q.scales.map (·.1)) q.scales).orFlags q.flags)
  match stopW with
  | some (b, off) => match partial_.listAccess off true true with
    | .error (.trap t s) => .error (.trap { t with sfx := b, old := false } s)
    | .error (.wait s) => .error (.wait (s.pausedAt b 0))
    | .ok (s, _) => .error (.wait (s.pausedAt b 0))
  | none =>
  match full, pauseB, stopB with
  | some b, _, _ => .error (.trap { Trap.at0 .olfull 0 (winBase + D.off) with sfx := b } partial_)
  | none, some b, _ => .error (.wait (partial_.pausedAt b 0))
  | none, none, some b =>
    if failB = some b then .error (.trap { Trap.at0 .dataerr 3 0 with sfx := b } partial_.clearResidue)
    else .error (.trap { Trap.at0 .dataerr 1 0 with sfx := b } partial_)
  | none, none, none =>
    if h.vl = 0 then .ok s
    else
      let all := h.actives p
      let h := h.land d t all q.codes
      .ok (s.setMe ((h.land sc .e8m0 (List.range (nb * D.X)) q.scales).orFlags q.flags))

/-- `vqnte` (R295). -/
def execVqnte (d sc a : VR) (t : Tag) (E : Fin 8) (th l : XR) (p : PR) (_ca : Bool) (s : State) : Out :=
  completeV 8 (s.vqnte d sc a t E.val th l p)

/-! vdqnt (R296). -/

/-- 2^scale of a scale code: none for the NaN code. -/
def scaleOf (c : Nat) : Option Int := if c % 256 = 255 then none else some ((c % 256 : Nat) - 127 : Int)

/-- The dequantised element: c its code, sc its scale code, e the value of an escape's list entry. -/
def dequant (t rt : Tag) (rm : Rm) (c sc : Nat) (e : Option Nat) : Coded :=
  if t.escape = some c then
    match e with
    | some v => roundNum rt.fmt rm (val .f32 v)
    | none => (rt.fmt.nanCode, flNV)
  else match scaleOf sc with
    | none => (rt.fmt.nanCode, 0)
    | some k => roundNum rt.fmt rm (numShift (val t c) k)

/-- The list of a dequantise instruction passes its check (R296): among the entries in range, every escape at an
active element has exactly one, and each names an escape. -/
def dequantListOk (h : Hart) (a : VR) (p : PR) (D : ListDesc) (l : List ListEnt) : Bool :=
  let t := h.tagOf a
  let at_ (x : ListEnt) : Nat := (x.k - D.kbase) * D.X + x.pos
  (l.all fun x => decide (x.pos < D.X) && t.escape == some (h.elem a (at_ x))) &&
  (h.actives p).all fun e => t.escape != some (h.elem a e) || (l.filter fun x => at_ x == e).length == 1

/-- The entries that a dequantise instruction uses, after the checks of the descriptor and header (R293). -/
def State.dequantList (s : State) (xl : XR) : Except Stop (State × ListDesc × List ListEnt) := do
  let h := s.me
  let D := (listDesc (s.getX xl)).getD ⟨0, 1, winSize⟩
  need ((listDesc (s.getX xl)).isSome && decide (D.off + 16 ≤ winSize) && h.vl % (32 * D.X) == 0 &&
    decide (h.vl / (32 * D.X) ≤ 512) && decide (h.vl = 0 ∨ D.kbase + h.vl / D.X ≤ 65536)) s.badShape
  let start := s
  let (s, hdr) ← s.listHeader D.off true
  need (hdr.ok D.off) start.badShape
  let (s, l) ← s.listEntries D.off hdr.side hdr.count 0
  need (l.all fun x => x.rsvd == 0) start.badShape
  .ok (s, D, l.filter fun x => decide (D.kbase ≤ x.k) && decide (x.k < D.kbase + h.vl / D.X))

/-- `vdqnt` as an elementwise instruction: sc gives the scale element of an element, ent its entry. -/
def dequantOp (a sc : VR) (rt : Tag) (scAt : Nat → Nat) (ent : Nat → Option Nat) : ElemOp :=
  { rt := fun _ _ => if rt.isFloat then some rt else none
    f := fun h tags i _ codes =>
      dequant (tags.getD 0 (h.tagOf a)) rt h.rm (codes.getD 0 0) (h.code sc 8 (scAt i)) (ent i)
    all := false
    reads := fun k e => if k = 1 then scAt e else e }

/-- `vdqnt` (R296). -/
def State.vdqnt (s : State) (d a sc : VR) (t : Tag) (xl : XR) (p : PR) : Res := do
  let h := s.me
  need ((h.tagOf a).isNarrow && h.tagOf sc == .e8m0 && t.isFloat) s.badTag
  let srcs := [(a, h.tagOf a), (sc, .e8m0)]
  need (groupsOk h.ew srcs (some (d, t))) s.badShape
  if xl = 0 then s.elementwise (dequantOp a sc t (· / 32) fun _ => none) [.v a, .v sc] d p
  else
    let start := s
    let (s, D, l) ← s.dequantList xl
    let s ← if h.spent then .ok s else s.fillGroups (srcs ++ [(d, t)])
    need (h.spent || dequantListOk s.me a p D l) start.badShape
    let scAt (e : Nat) : Nat := e / (32 * D.X) * D.X + e % D.X
    let ent (e : Nat) : Option Nat :=
      (l.find? fun x => x.k - D.kbase == e / D.X && x.pos == e % D.X).map (·.v)
    s.elementwise (dequantOp a sc t scAt ent) [.v a, .v sc] d p

/-- `vdqnt` (R296). -/
def execVdqnt (d a sc : VR) (t : Tag) (l : XR) (p : PR) (_ca _cb : Bool) (s : State) : Out :=
  completeV 8 (s.vdqnt d a sc t l p)

end Sys2Proof.Machine
end

