-- ==== Sys2Proof/Machine/Matrix.lean ====
section
/-!
DEFINITION. The accumulator array, its ownership, and the matrix and outlier-list instructions (R172 to R181, R192,
R193, R334 to R350).
-/
namespace Sys2Proof.Machine

/-! Views (R334). -/

/-- Rows and columns of a view, and the array word of (r, c). -/
def viewSize (t : TileRef) : Nat := match t with | .joined => 256 | _ => 128
def viewWord (t : TileRef) (r c : Nat) : Nat :=
  match t with
  | .joined | .t0 => 256 * r + c
  | .t1 => 256 * r + 128 + c
  | .t2 => 256 * (128 + r) + c
  | .t3 => 256 * (128 + r) + 128 + c

/-- Word (r, c) of a view of an array. -/
def Core.tile (k : Core) (t : TileRef) (r c : Nat) : BitVec 32 := SMap.get 0 k.acc (viewWord t r c)

/-- Write words of an array. -/
def accPut (acc : SMap (BitVec 32)) (l : List (Nat × BitVec 32)) : SMap (BitVec 32) :=
  l.foldl (fun a w => SMap.set 0 a w.1 w.2) acc

/-- Every word of a view becomes zero (R339). -/
def accZero (acc : SMap (BitVec 32)) (t : TileRef) : SMap (BitVec 32) :=
  let inView (i : Nat) : Bool :=
    let r := i / 256
    let c := i % 256
    match t with
    | .joined => true
    | .t0 => r < 128 && c < 128
    | .t1 => r < 128 && 128 ≤ c
    | .t2 => 128 ≤ r && c < 128
    | .t3 => 128 ≤ r && 128 ≤ c
  acc.filter fun w => !inView w.1

/-- The core of the executing hart. -/
def State.myCore (s : State) : Core := s.core (coreOf s.cur)
def State.setMyCore (s : State) (k : Core) : State := s.setCore (coreOf s.cur) k

/-- The configuration in force (R335): M, N and the tile identity. -/
def Core.cfgM (k : Core) : Nat := bits k.mcfg 23 16 + 1
def Core.cfgN (k : Core) : Nat := bits k.mcfg 15 8 + 1
def Core.cfgTid (k : Core) : Nat := bits k.mcfg 63 32

/-- The configuration is valid and fits a view (R341). -/
def Core.cfgFits (k : Core) (t : TileRef) : Bool :=
  k.mvalid && decide (k.cfgM ≤ viewSize t) && decide (k.cfgN ≤ viewSize t)

/-! Ownership (R192, R193, R336). -/

/-- mown names a hart at a level with v = 1. -/
def State.owns (s : State) (hid : Nat) : Bool :=
  let m := (s.core (coreOf hid)).mown
  s.ownsTiles hid && bits m 14 13 == (s.hart hid).level.code

/-- The hart that mown names, and the level. -/
def State.ownerHid (s : State) : Nat := 8 * coreOf s.cur + bits s.myCore.mown 2 0
def State.ownerLevel (s : State) : Level := Level.ofCode (bits s.myCore.mown 14 13)

/-- The half of the save area that mown locates (R193). -/
def State.ownerHalf (s : State) : Nat := msaHalf ((s.hart s.ownerHid).mreg mMsa) s.ownerLevel

/-- Offset of the live word in a half (R192). -/
def liveOff : Nat := 0x40FF8

/-- The image of the owner's half: the array, with the live word set. -/
def Core.liveImage (k : Core) : SMap Byte := imgSet k.tileImage liveOff 8 1

/-- The monitor saves the array in the owner's half and sets its live word (R193 step 1). -/
def State.saveOwner (s : State) (w : Who) : Except (Trap × State) State :=
  savePages s w .store s.ownerHalf s.myCore.liveImage (fun _ => 4096) 65 0

/-- The monitor clears the requester's live word and gives it its tiles. -/
def State.giveTiles (s : State) (w : Who) (half : Nat) (m : SMap Byte) : Except (Trap × State) State :=
  if !tileImageOk m then .error (Trap.at0 .badtag 4 0, s)
  else match reachWrite s w (half + liveOff) 8 0 .store with
    | .error t => .error (t, s)
    | .ok s => .ok (s.setMyCore (s.myCore.fromTileImage m))

/-- The monitor restores the requester's tiles from its half, or zeroes them (R193 step 2, R335). -/
def State.takeTiles (s : State) (w : Who) (half : Nat) : Except (Trap × State) State :=
  match reachRead s w (half + liveOff) 8 .load with
  | .error t => .error (t, s)
  | .ok (s, live) =>
    if live % 2 = 0 then
      .ok (s.setMyCore { s.myCore with acc := [], mcfg := 0, mscale := 0, mT := 0, mvalid := false })
    else match loadPages s w .load (s.searchPath 0 s.cur (coreOf s.cur)) half 0x41000 65 0 [] with
      | .error t => .error (t, s)
      | .ok (s, m) => s.giveTiles w half m

/-- Step 2 of the service: mown names the requester, with v = 1 once it has its tiles. -/
def State.nameOwner (s : State) (w : Who) (lvl : Level) : Except (Trap × State) State :=
  let named := BitVec.ofNat 64 (lvl.code * 2 ^ 13 + s.cur % 8)
  match (s.setMyCore { s.myCore with mown := named }).takeTiles w (msaHalf (s.mreg mMsa) lvl) with
  | .error e => .error e
  | .ok s => .ok (s.setMyCore { s.myCore with mown := setBits named 15 15 1 })

/-- The service of the monitor (R193), and its return.  A failure is a trap at M: its task is killed with a HARTSTOP
report, and what was written stays (R187). -/
def State.serveOwner (s : State) : State :=
  let lvl := Level.ofCode (bits (s.mreg mKstat) 3 2)
  let w := { whoOf s s.cur with level := .m }
  let r : Except (Trap × State) State := do
    let s ← if bit s.myCore.mown 15 then s.saveOwner w else .ok s
    s.nameOwner w lvl
  match r with
  | .error (t, s) => s.takeTrap s.cur t
  | .ok s => (s.leaveM s.cur).killWaiting s.cur

/-- The executing hart has entered M by MOWNER where kentry names no monitor: the monitor is built in (DEDUCED, log
entry 59). -/
def State.builtIn (s : State) : Bool :=
  s.me.level == .m && bits (s.mreg mKentry) 54 2 == 0 && s.me.pc == 0 && bit (s.mreg mKstat) 1 &&
  bits (s.mreg mKwhy) 8 0 == Cause.mowner.code

/-- The built-in monitor serves once the hart's earlier accesses are complete at DEVICE, and the reads of the array's
`mld` have performed. -/
def State.monitor (s : State) : State :=
  if s.settledAt .dev false && !s.tilesHeld (coreOf s.cur) then s.serveOwner else s

/-- MOWNER (R193): it enters M. -/
def State.mowner (s : State) : State :=
  s.takeTrap s.cur { Trap.at0 .mowner 0 s.myCore.mown.toNat with old := s.me.resume.pending }

/-- A matrix instruction at U or S that does not own the array (R336). -/
def State.unowned (s : State) : Bool := s.me.level != .m && !s.owns s.cur

/-- A matrix instruction: the ownership check, then its own part. -/
def State.matrix (s : State) (f : State → Res) : Out :=
  if s.unowned then .next s.mowner else completeV 8 (f s)

/-! Configuration and zeroing (R338, R339). -/

/-- T, the f32 product of the two scale words (R173). -/
def tensorScale (rm : Rm) (w : Word) : Coded :=
  fMul Tag.f32.fmt rm (val .f32 (bits w 31 0)) (val .f32 (bits w 63 32))

/-- `mcfg` (R338). -/
def State.mcfg (s : State) (a b : XR) : Res := do
  let c := s.getX a
  need (bits c 31 24 == 0 && bits c 7 0 == 0) s.badShape
  let (t, fl) := tensorScale s.me.rm (s.getX b)
  let k := { s.myCore with mcfg := c, mscale := s.getX b, mT := BitVec.ofNat 32 t, mvalid := true }
  .ok ((s.setMyCore k).orFlags fl)

/-- `mcfg` (R338). -/
def execMcfg (a b : XR) (s : State) : Out := s.matrix fun s => s.mcfg a b
/-- `mzero` (R339).  At M with mown.v = 0 it is the zeroing of a service, which leaves the configuration not valid (R335;
DEDUCED, log entry 59). -/
def execMzero (t : TileRef) (s : State) : Out :=
  s.matrix fun s =>
    let k := s.myCore
    let serves := s.me.level == .m && !bit k.mown 15
    .ok (s.setMyCore { k with acc := accZero k.acc t, mvalid := k.mvalid && !serves })

/-! Products (R340 to R343). -/

/-- An element of an operand piece: the value of its code, whether it is an escape, and its value in the Sideshow. -/
structure MElem where
  v : Num
  esc : Bool
  x : Num
deriving DecidableEq, Repr

/-- NaNs are taken as quiet (R175). -/
def quiet (x : Num) : Num :=
  match x with
  | .nan _ => .nan false
  | x => x

/-- The exact sum of the products of a block, escapes left out (R174). -/
def blockSum (a b : List MElem) : Num :=
  (a.zip b).foldl (fun p e => if e.1.esc || e.2.esc then p else (numAdd 0 p (numMul e.1.v e.2.v).1).1)
    (.fin false 0 0)

/-- The Sideshow steps over a block: Z and the NV that they raise (R174, R175). -/
def sideshow (z : Num) (a b : List MElem) : Num × Nat :=
  (a.zip b).foldl (fun z e =>
    if e.1.esc || e.2.esc then
      let w := numMul e.1.x e.2.x
      let r := numAdd 0 z.1 w.1
      (rto64 r.1, z.2 ||| w.2 ||| r.2)
    else z) (z, 0)

/-- The accumulator after one block: its bits and the flags (R174 to R176). -/
def accStep (rm : Rm) (acc1 : Bool) (acc : Nat) (z t : Num) (fl : Nat) : Coded :=
  if z.isZero then (acc, fl)
  else if z.isNan then (Tag.f32.fmt.nanCode, fl)
  else
    let p := numMul z t
    let r := numAdd rm (val .f32 acc) p.1
    let c := accRound rm acc1 r.1
    (c.1, fl ||| p.2 ||| r.2 ||| c.2)

/-- Y for the scales of a block: a NaN scale gives NaN. -/
def scaled2 (p : Num) (sa sb : Option Int) : Num :=
  match sa, sb with
  | some a, some b => numShift p (a + b)
  | _, _ => .nan false

/-- The pairs of formats (R341): 1 float, 2 block-scaled, 3 integer. -/
def pairKind (a b : Tag) : Option Nat :=
  let h (t : Tag) := t == .bf16 || t == .f16
  let i (t : Tag) := t == .s8 || t == .s4
  if a = .f32 ∧ b = .f32 then some 1
  else if h a && h b then some 1
  else if a.isNarrow && b.isNarrow then some 2
  else if i a && i b then some 3
  else none

/-- A product instruction's operands. -/
structure Mop where
  t : TileRef
  va : VR
  vb : VR
  sa : VR
  sb : VR
  xa : XR
  xb : XR
  pm : PR
  /-- The sparsity, where there is one: N1, N2 and the metadata register (R180). -/
  sparse : Option (Nat × Nat × VR)
deriving DecidableEq, Repr

/-- P = N1 × N2; 32 for a dense instruction, whose superblock keeps every element. -/
def Mop.pack (o : Mop) : Nat := match o.sparse with | some (a, b, _) => a * b | none => 32

/-- K (R340). -/
def Mop.K (o : Mop) (vl M : Nat) : Nat :=
  match o.sparse with
  | some _ => 32 * vl / (M * o.pack)
  | none => vl / M

/-- The metadata word of row i and superblock b. -/
def Mop.meta (o : Mop) (h : Hart) (M i b : Nat) : Nat :=
  match o.sparse with
  | some (_, _, vm) => h.code vm 32 (b * M + i)
  | none => 2 ^ 32 - 1

/-- The packed element of A for position k of row i, where it is kept (R340). -/
def Mop.slot (o : Mop) (h : Hart) (M i k : Nat) : Option Nat :=
  match o.sparse with
  | none => some (k * M + i)
  | some _ =>
    let w := o.meta h M i (k / 32)
    if w.testBit (k % 32) then some ((k / 32 * o.pack + popCount (k % 32) w) * M + i) else none

/-- The code of A[i][k]: none where it reads as +0 without an escape. -/
def Mop.aCode (o : Mop) (h : Hart) (M i k : Nat) : Option Nat :=
  match o.slot h M i k with
  | some e => if h.pred o.pm e then some (h.elem o.va e) else none
  | none => none

/-- An entry of A names an inactive element, and is ignored (R340). -/
def Mop.aIgnored (o : Mop) (h : Hart) (M i k : Nat) : Bool :=
  match o.slot h M i k with
  | some e => decide (i < M) && !h.pred o.pm e
  | none => false

/-- The code of B[k][j]. -/
def Mop.bCode (o : Mop) (h : Hart) (N k j : Nat) : Nat := h.elem o.vb (k * N + j)

/-- The elements that the group at a register holds at its tag under the current grant (R93, R104, R341). -/
def State.groupHolds (s : State) (v : VR) : Nat :=
  let h := s.me
  groupSize (h.tagOf v) h.ew * 2048 * s.vgrant s.cur / (h.tagOf v).width

/-- The checks of R341 before those that read elements. -/
def State.mopShape (s : State) (o : Mop) : Except Stop Unit := do
  let h := s.me
  let k := s.myCore
  let ta := h.tagOf o.va
  let tb := h.tagOf o.vb
  let M := k.cfgM
  let N := k.cfgN
  let kind := pairKind ta tb
  let K := o.K h.vl M
  need kind.isSome s.badTag
  need (k.cfgFits o.t) s.badShape
  need (h.vl % (o.pack * M) == 0 && decide (K ≤ 16384)) s.badShape
  let scaled := kind == some 2
  let regs := [(o.va, ta), (o.vb, tb)] ++
    (if scaled then [(o.sa, h.tagOf o.sa), (o.sb, h.tagOf o.sb)] else []) ++
    (match o.sparse with | some (_, _, vm) => [(vm, h.tagOf vm)] | none => [])
  need (groupsOk h.ew regs none) s.badShape
  let room := decide (K * N ≤ s.groupHolds o.vb) &&
    (!scaled || (decide (K / 32 * M ≤ s.groupHolds o.sa) && decide (K / 32 * N ≤ s.groupHolds o.sb))) &&
    (match o.sparse with | some (_, _, vm) => decide (K / 32 * M ≤ s.groupHolds vm) | none => true)
  need room s.badShape
  need (!scaled || (h.tagOf o.sa == .e8m0 && h.tagOf o.sb == .e8m0)) s.badTag
  need (scaled || (o.sa == 0 && o.sb == 0)) s.badShape
  need (match o.sparse with | some (_, _, vm) => h.tagOf vm == .z32 | none => true) s.badTag

/-- The registers of a product, for their fills. -/
def State.mopRegs (s : State) (o : Mop) : List (VR × Tag) :=
  let h := s.me
  let t (v : VR) := (v, h.tagOf v)
  let scaled := pairKind (h.tagOf o.va) (h.tagOf o.vb) == some 2
  [t o.va, t o.vb] ++ (if scaled then [t o.sa, t o.sb] else []) ++
    (match o.sparse with | some (_, _, vm) => [t vm] | none => [])

/-- The entries of a list operand within the range of k, after the checks of its descriptor and header (R293,
R341): X is the extent and side the side that the operand needs.  With K = 0 no list is read (R342). -/
def State.mopList (s : State) (x : XR) (side : Bool) (X K tid : Nat) : Except Stop (State × List (Nat × Nat × Nat)) :=
  if x = 0 then .ok (s, [])
  else do
    let D := (listDesc (s.getX x)).getD ⟨0, 1, winSize⟩
    need ((listDesc (s.getX x)).isSome && decide (D.off + 16 ≤ winSize) && D.X == X &&
      decide (D.kbase + K ≤ 65536)) s.badShape
    if K = 0 then return (s, [])
    let start := s
    let (s, hdr) ← s.listHeader D.off true
    need (hdr.ok D.off && hdr.side == side && hdr.tile == tid) start.badShape
    let (s, l) ← s.listEntries D.off side hdr.count 0
    need (l.all fun e => e.rsvd == 0) start.badShape
    .ok (s, (l.filter fun e => decide (D.kbase ≤ e.k) && decide (e.k < D.kbase + K)).map fun e =>
      (e.pos, e.k - D.kbase, e.v))

/-- Every escape has exactly one entry, and every entry names an escape (R178). -/
def listMatches (esc : Nat → Nat → Bool) (X K : Nat) (l : List (Nat × Nat × Nat)) : Bool :=
  (l.all fun e => decide (e.1 < X) && esc e.1 e.2.1) &&
  (List.range X).all fun i => (List.range K).all fun k =>
    !esc i k || (l.filter fun e => e.1 == i && e.2.1 == k).length == 1

/-- The f32 value that a list holds for a position. -/
def listValue (l : List (Nat × Nat × Nat)) (i k : Nat) : Num :=
  match l.find? fun e => e.1 == i && e.2.1 == k with
  | some e => quiet (val .f32 e.2.2)
  | none => .nan false

/-- A metadata word keeps no more than N1 blocks of no more than N2 elements (R180). -/
def metaOk (n1 n2 w : Nat) : Bool :=
  let bytes := (List.range 4).map fun q => w / 2 ^ (8 * q) % 256
  decide ((bytes.filter (· != 0)).length ≤ n1) && bytes.all fun b => decide (popCount 8 b ≤ n2)

/-- The lowest metadata element that breaks R180. -/
def Mop.badMeta (o : Mop) (h : Hart) (M K : Nat) : Option Nat :=
  match o.sparse with
  | none => none
  | some (n1, n2, vm) => (List.range (K / 32 * M)).find? fun e => !metaOk n1 n2 (h.code vm 32 e)

/-- A piece element of a block-scaled operand: its code, its scale, its list value. -/
def pieceElem (t : Tag) (c : Nat) (sc : Option Int) (x : Num) : MElem :=
  if t.escape = some c then { v := .fin false 0 0, esc := true, x }
  else
    let v := quiet (val t c)
    { v, esc := false, x := match sc with | some k => numShift v k | none => .nan false }

/-- What the blocks of a product are computed from. -/
structure MopIn where
  M : Nat
  N : Nat
  kind : Nat
  rm : Rm
  acc1 : Bool
  T : Num
  la : List (Nat × Nat × Nat)
  lb : List (Nat × Nat × Nat)

/-- The elements of row i of A and column j of B in block b. -/
def Mop.rowA (o : Mop) (h : Hart) (I : MopIn) (b i : Nat) : List MElem :=
  let t := h.tagOf o.va
  let sc := if I.kind = 2 then scaleOf (h.code o.sa 8 (b * I.M + i)) else some 0
  (List.range 32).map fun j =>
    let k := 32 * b + j
    pieceElem t ((o.aCode h I.M i k).getD 0) sc (listValue I.la i k)
def Mop.colB (o : Mop) (h : Hart) (I : MopIn) (b j : Nat) : List MElem :=
  let t := h.tagOf o.vb
  let sc := if I.kind = 2 then scaleOf (h.code o.sb 8 (b * I.N + j)) else some 0
  (List.range 32).map fun q =>
    let k := 32 * b + q
    pieceElem t (o.bCode h I.N k j) sc (listValue I.lb j k)

/-- One word after block b, under its kind: the new bits and the flags. -/
def Mop.word (o : Mop) (h : Hart) (I : MopIn) (b i j acc : Nat) : Coded :=
  let a := o.rowA h I b i
  let c := o.colB h I b j
  match I.kind with
  | 1 => accStep I.rm I.acc1 acc (blockSum a c) (.fin false 1 0) 0
  | 2 =>
    let y := scaled2 (blockSum a c) (scaleOf (h.code o.sa 8 (b * I.M + i))) (scaleOf (h.code o.sb 8 (b * I.N + j)))
    let z := sideshow y a c
    accStep I.rm I.acc1 acc z.1 I.T z.2
  | _ =>
    let p := (List.range 32).foldl (fun p q =>
      let k := 32 * b + q
      p + intVal (h.tagOf o.va) ((o.aCode h I.M i k).getD 0) * intVal (h.tagOf o.vb) (o.bCode h I.N k j)) (0 : Int)
    let r := sextNat acc 32 + p
    if I.acc1 then satInt .s32 r else (wrapNat 32 r, 0)

/-- The products that a block performs (R203): kept ones only. -/
def Mop.macs (o : Mop) (h : Hart) (I : MopIn) (b : Nat) : Nat :=
  ((List.range I.M).map fun i => popCount 32 (o.meta h I.M i b)).sum * I.N

/-- Block b updates every word of the corner. -/
def Mop.block (o : Mop) (h : Hart) (I : MopIn) (b : Nat) (acc : SMap (BitVec 32)) : SMap (BitVec 32) × Nat :=
  let new := (List.range I.M).flatMap fun i => (List.range I.N).map fun j =>
    let k := viewWord o.t i j
    let r := o.word h I b i j (SMap.get 0 acc k).toNat
    (k, r.1, r.2)
  (accPut acc (new.map fun w => (w.1, BitVec.ofNat 32 w.2.1)), new.foldl (fun f w => f ||| w.2.2) 0)

/-- Blocks b0 to b1 - 1 in ascending order. -/
def Mop.blocks (o : Mop) (h : Hart) (I : MopIn) (b0 b1 : Nat) (acc : SMap (BitVec 32)) :
    SMap (BitVec 32) × Nat × Nat :=
  (List.range (b1 - b0)).foldl (fun st n =>
    let r := o.block h I (b0 + n) st.1
    (r.1, st.2.1 ||| r.2, st.2.2 + o.macs h I (b0 + n))) (acc, 0, 0)

/-- The first block at or after b0 that reads a bad word of the register file (R26): A's elements stand pack x M to a block,
B's 32 x N, a scale or a metadata word to each row or column. -/
def State.mopBad (s : State) (o : Mop) (M N b0 nb : Nat) : Option Nat :=
  let h := s.me
  let scaled := pairKind (h.tagOf o.va) (h.tagOf o.vb) == some 2
  let regs : List (VR × Nat) := [(o.va, o.pack * M), (o.vb, 32 * N)] ++
    (if scaled then [(o.sa, M), (o.sb, N)] else []) ++ (match o.sparse with | some (_, _, vm) => [(vm, M)] | none => [])
  if s.bad.isEmpty then none
  else (List.range nb).find? fun b => decide (b0 ≤ b) && regs.any fun r =>
    (List.range r.2).any fun j => s.elemBad r.1 (h.tagOf r.1) (b * r.2 + j)

/-- A failing check of R341 stops the instruction with sfx = 0 and slip 0, wherever it resumed. -/
def Stop.fromZero (e : Stop) : Stop :=
  match e with
  | .trap t s => if t.cause = .badtag ∨ t.cause = .sparsemeta then .trap { t with old := false } s else .trap t s
  | .wait s => .wait s

/-- `mop` and `mops` after the ownership check: the checks of R341, those that read no register before the fills
(R255), then the blocks from the restart point on; a residue error, a pre-emption and a kill stop it between blocks
(R342, R343). -/
def State.mopRun (s : State) (o : Mop) : Res := do
  s.mopShape o
  let k := s.myCore
  let M := k.cfgM
  let N := k.cfgN
  let K := o.K s.me.vl M
  let (s, la) ← s.mopList o.xa false M K k.cfgTid
  let (s, lb) ← s.mopList o.xb true N K k.cfgTid
  let s ← s.fillGroups (s.mopRegs o)
  let start := s
  let h := s.me
  let ta := h.tagOf o.va
  let tb := h.tagOf o.vb
  let la := la.filter fun e => !o.aIgnored h M e.1 e.2.1
  let escA (i x : Nat) : Bool := match o.aCode h M i x with | some c => ta.escape == some c | none => false
  let escB (j x : Nat) : Bool := tb.escape == some (o.bCode h N x j)
  need (listMatches escA M K la && listMatches escB N K lb) start.badShape
  match o.badMeta h M K with
  | some e => .error (start.fails .sparsemeta 0 e)
  | none =>
    let nb := K / 32
    let b0 := if h.resume.pending then h.resume.sfx else 0
    let failB := match (s.hmem s.cur).resErr with
      | some g => if b0 < nb then some (max b0 (min g (nb - 1))) else none
      | none => none
    let wordB := s.mopBad o M N b0 nb
    let stopB := match failB, wordB with
      | some x, some y => some (min x y)
      | x, y => x.or y
    let I : MopIn := { M, N, kind := (pairKind ta tb).getD 1, rm := h.rm, acc1 := h.accmode,
                       T := val .f32 k.mT.toNat, la, lb }
    let pauseB := match s.drv.pause with
      | some g => if b0 < nb ∧ g < stopB.getD nb then some (max b0 g) else none
      | none => none
    let (acc, fl, macs) := o.blocks h I b0 (pauseB.getD (stopB.getD nb)) k.acc
    let s := ((s.setMyCore { k with acc }).orFlags fl).countMe 14 macs
    match pauseB, stopB with
    | some b, _ => .error (.wait (s.pausedAt b 0))
    | none, some b =>
      if failB = some b then .error (.trap { Trap.at0 .dataerr 3 0 with sfx := b } s.clearResidue)
      else .error (.trap { Trap.at0 .dataerr 1 0 with sfx := b } s)
    | none, none => .ok s

/-- `mop` and `mops` after the ownership check. -/
def State.mop (s : State) (o : Mop) : Res :=
  match s.mopRun o with
  | .ok s => .ok s
  | .error e => .error e.fromZero

/-- `mop` (R342). -/
def execMop (t : TileRef) (va vb sa sb : VR) (a b : XR) (p : PR) (_ca _cb : Bool) (s : State) : Out :=
  s.matrix fun s => s.mop ⟨t, va, vb, sa, sb, a, b, p, none⟩
/-- `mops` (R342): the codes of N1 are 1, 2 and 4, those of N2 are 2, 4 and 8 (R251). -/
def execMops (t : TileRef) (va vb sa sb : VR) (a b : XR) (p : PR) (_ca _cb : Bool) (n1 n2 : Fin 3) (vm : VR)
    (s : State) : Out :=
  s.matrix fun s => s.mop ⟨t, va, vb, sa, sb, a, b, p, some (2 ^ n1.val, 2 ^ (n2.val + 1), vm)⟩

/-! Row access (R344). -/

/-- The row segment of vl words lies in the view. -/
def State.rowOk (s : State) (t : TileRef) (a b : XR) : Bool :=
  decide ((s.getX a).toNat < viewSize t) && decide ((s.getX b).toNat + s.me.vl ≤ viewSize t)

/-- The tags of 32-bit words. -/
def tag32 (t : Tag) : Bool := t == .s32 || t == .z32 || t == .f32

/-- `mrow` (R344). -/
def State.mrow (s : State) (t : TileRef) (d : VR) (a b : XR) (p : PR) : Res := do
  let h := s.me
  let rt := if tag32 (h.tagOf d) then h.tagOf d else .f32
  need ((groupOf rt h.ew d).isSome && s.rowOk t a b) s.badShape
  let s ← if h.spent then .ok s else s.fromStart.fillGroups [(d, rt)]
  if h.spent then .ok (s.setMe (s.me.land d rt (List.range h.vl) []))
  else
  s.residue
  let r := (s.getX a).toNat
  let c := (s.getX b).toNat
  let k := s.myCore
  .ok (s.setMe (s.me.whole d rt ((s.me.actives p).map fun j => (j, (k.tile t r (c + j)).toNat)) 0))

/-- `mrow` (R344). -/
def execMrow (t : TileRef) (d : VR) (a b : XR) (p : PR) (s : State) : Out := s.matrix fun s => s.mrow t d a b p

/-- `mwrow` (R344). -/
def State.mwrow (s : State) (t : TileRef) (v : VR) (a b : XR) (p : PR) : Res := do
  let h := s.me
  need (tag32 (h.tagOf v)) s.badTag
  need ((groupOf (h.tagOf v) h.ew v).isSome && s.rowOk t a b) s.badShape
  let s ← if h.spent then .ok s else s.fromStart.fillGroups [(v, h.tagOf v)]
  if h.spent then .ok s
  else
  s.sound [(v, h.tagOf v)] fun _ => s.me.actives p
  let h := s.me
  let r := (s.getX a).toNat
  let c := (s.getX b).toNat
  let k := s.myCore
  let new := (h.actives p).map fun j => (viewWord t r (c + j), BitVec.ofNat 32 (h.elem v j))
  .ok (s.setMyCore { k with acc := accPut k.acc new })

/-- `mwrow` (R344). -/
def execMwrow (t : TileRef) (v : VR) (a b : XR) (p : PR) (_ca : Bool) (s : State) : Out :=
  s.matrix fun s => s.mwrow t v a b p

/-! Tile load and store (R345). -/

/-- The elements of the corner in order: row i, column j is element i × N + j. -/
def tileMem (base stride : Word) (N : Nat) (store : Bool) : VMem :=
  { v := 0, nf := 1
    addr := fun e _ => (base + BitVec.ofNat 64 (e / N) * stride + BitVec.ofNat 64 (4 * (e % N))).toNat % 2 ^ 55
    store, mode := .plain, ord := none, pm := 0, hint := .none, unit := some (max 1 N), file := false }

/-- One element read of b bytes that performs now: `mrest` reads before it changes anything (R346). -/
def State.readWord (s : State) (m : VMem) (ino b : Nat) (a : ElemAcc) : State × Nat :=
  match s.probe m b a with
  | .error _ => (s, 0)
  | .ok (s, p) =>
    if p.attr = .dev then let r := (s.noteRead s.cur ino p.key b []).hubRead (p.pa - paHub); (r.1, r.2.toNat)
    else
      let (v, ids, _) := s.readValue s.myPath p.key b
      (s.noteRead s.cur ino p.key b ids, v)

/-- Element reads in order, and their values. -/
def State.readWords (s : State) (m : VMem) (ino b : Nat) : List ElemAcc → State × List Nat
  | [] => (s, [])
  | a :: l =>
    let (s, v) := s.readWord m ino b a
    let (s, vs) := s.readWords m ino b l
    (s, v :: vs)

/-- Where a read of `mld` is delivered. -/
def tileDst (t : TileRef) (N : Nat) (a : ElemAcc) : Dst := .t (viewWord t (a.e / N) (a.e % N))

/-- `mld` and `mst` (R345): row by row. -/
def State.tileMove (s : State) (store : Bool) (t : TileRef) (a b : XR) : Res := do
  let k := s.myCore
  need (k.cfgFits t) s.badShape
  let M := k.cfgM
  let N := k.cfgN
  let m := tileMem (s.getX a) (s.getX b) N store
  let ino := s.drv.nextId
  let todo := (List.range (M * N)).filter fun e => s.me.resume.unit ≤ e / N
  let (keep, bad, pause) ← s.unitPlan m 4 N todo
  let ps := s.places m 4 (m.accs keep)
  let held := bad.isNone && pause.isNone && s.staysHeld s m ino 4 ps
  s.vmemWait s m ino 4 ps held
  let s := s.drawFrames store .none 4 ps
  let s := if store then
      let (s1, ws) := s.pieces m 4 1 (m.accs keep)
      s1.performStore m ino ((ws.zip keep).map fun (w : Piece × Nat) =>
        { w.1 with val := (k.tile t (w.2 / N) (w.2 % N)).toNat }) held
    else s.performLoad m (tileDst t N) ino 4 (m.accs keep) held
  s.unitEnd m 4 N bad pause

/-- `mld` (R345). -/
def execMld (t : TileRef) (a b : XR) (s : State) : Out := s.matrix fun s => s.tileMove false t a b
/-- `mst` (R345). -/
def execMst (t : TileRef) (a b : XR) (s : State) : Out := s.matrix fun s => s.tileMove true t a b

/-! Save and restore (R346). -/

/-- The base of `msave` and `mrest`: X(xa), or at M the half that mown locates (R193). -/
def State.msBase (s : State) (a : XR) : Except Stop Nat :=
  if s.me.level = .m then .ok s.ownerHalf
  else
    let base := (s.getX a).toNat % 2 ^ 55
    if base % 4096 = 0 then .ok base else .error (s.fails .misalign 0 base)

/-- Elements of 8 bytes from the base on; the 260 units of `msave` are 128 elements each, the last one 127, and `mrest` is
one unit, for it restarts at its first. -/
def saveElems : Nat := 0x40FF8 / 8
def saveMem (base : Nat) (store : Bool) : VMem :=
  { v := 0, nf := 1, addr := fun e _ => (base + 8 * e) % 2 ^ 55, store, mode := .plain, ord := none, pm := 0, hint := .none,
    unit := some (if store then 128 else saveElems), file := false }

/-- The first n elements of an image are stored by units of 1 KiB, from the restart point on. -/
def State.saveUnits (s : State) (base : Nat) (image : SMap Byte) (n : Nat) : Res := do
  let m := saveMem base true
  let ino := s.drv.nextId
  let (keep, bad, pause) ← s.unitPlan m 8 128 ((List.range n).filter fun e => s.me.resume.unit ≤ e / 128)
  let ps := s.places m 8 (m.accs keep)
  let held := bad.isNone && pause.isNone && s.staysHeld s m ino 8 ps
  s.vmemWait s m ino 8 ps held
  let (s, ws) := (s.drawFrames true .none 8 ps).pieces m 8 1 (m.accs keep)
  let ws := (ws.zip keep).map fun w => { w.1 with val := imgGet image (8 * w.2) 8 }
  (s.performStore m ino ws held).unitEnd m 8 128 bad pause

/-- `msave` by the owner, or at M. -/
def State.msave (s : State) (a : XR) : Res := do
  let base ← s.msBase a
  s.saveUnits base s.myCore.tileImage saveElems

/-- `msave` at S by a hart that does not own the array (R193): if it is owned, the owner's half and its live word are
stored as the executing hart's stores; and then the array is its own. -/
def State.msaveTake (s : State) : Res := do
  let s ← if bit s.myCore.mown 15 then s.saveUnits s.ownerHalf s.myCore.liveImage (saveElems + 1) else .ok s
  .ok (s.setMyCore { s.myCore with mown := BitVec.ofNat 64 (2 ^ 15 + 2 ^ 13 + s.cur % 8) })

/-- `msave` (R193, R346). -/
def execMsave (a : XR) (s : State) : Out :=
  if s.me.level = .s ∧ s.unowned then completeV 8 s.msaveTake
  else s.matrix fun s => s.msave a

/-- `mrest` (R346): every unit is read before anything changes. -/
def State.mrest (s : State) (a : XR) : Res := do
  let base ← s.msBase a
  let m := saveMem base false
  let ino := s.drv.nextId
  let all := List.range saveElems
  match all.findSome? fun e => (s.elemStop m 8 e).map fun x => (e, x) with
  | some (_, .stall k) => .error (.wait (s.noteStall k))
  | some (e, x) => .error (s.stopTrap m 8 ⟨[], e, 0, 0, none⟩ x)
  | none =>
    let ps := s.places m 8 (m.accs all)
    s.vmemWait s m ino 8 ps false
    let (s1, vs) := (s.drawFrames false .none 8 ps).bump.readWords m ino 8 (m.accs all)
    let image : SMap Byte := ((all.zip vs).flatMap fun w =>
      (List.range 8).map fun j => (8 * w.1 + j, byteOf w.2 j)).filter fun b => b.2 != 0
    need (tileImageOk image) (s1.fails .badtag 4 0)
    .ok (s1.setMyCore (s1.myCore.fromTileImage image))

/-- `mrest` (R346). -/
def execMrest (a : XR) (s : State) : Out := s.matrix fun s => s.mrest a

/-! Gang collectives (R347, R348). -/

/-- A hart other than the executing one completes an instruction of n bytes. -/
def State.finishAt (s : State) (hid n : Nat) : State :=
  let h := s.hart hid
  let s := s.setHart hid { h with pc := h.pcNext n, resume := Resume.zero, wpSkip := false, bpSkip := false,
                                  coll := none, paused := false }
  match h.slot with
  | some k => (s.count k 12 1).count k 13 1
  | none => s

/-- One word of the root after the sum over the other members: its bits and the flags. -/
def joinWord (s32 : Bool) (rm : Rm) (acc1 : Bool) : List (BitVec 32) → BitVec 32 → BitVec 32 × Nat
  | [], v => (v, 0)
  | x :: l, v =>
    let r : Coded :=
      if s32 then
        let i := sextNat v.toNat 32 + sextNat x.toNat 32
        if acc1 then satInt .s32 i else (wrapNat 32 i, 0)
      else
        let a := numAdd rm (val .f32 v.toNat) (val .f32 x.toNat)
        let c := accRound rm acc1 a.1
        (c.1, a.2 ||| c.2)
    let (w, fl) := joinWord s32 rm acc1 l (BitVec.ofNat 32 r.1)
    (w, r.2 ||| fl)

/-- The words of blocks b0 to b1 - 1 of 16 rows of a view. -/
def viewWords (t : TileRef) (b0 b1 : Nat) : List Nat :=
  (List.range (16 * (b1 - b0))).flatMap fun r => (List.range (viewSize t)).map fun c => viewWord t (16 * b0 + r) c

/-- Blocks b0 to b1 - 1 of the collective of root and others: `mjoin` changes the root's view, `msplit` the others'. -/
def State.collect (s : State) (c : Collective) (root : Nat) (others : List Nat) (b0 b1 : Nat) : State :=
  let k := s.core (coreOf root)
  if c.join then
    let rm := rmOf c.fctl
    let accs := others.map fun hid => (s.core (coreOf hid)).acc
    let new : List (Nat × BitVec 32 × Nat) := (viewWords c.tile b0 b1).map fun i =>
      let r := joinWord c.s32 rm (bit c.fctl 6) (accs.map fun a => SMap.get 0 a i) (SMap.get 0 k.acc i)
      (i, r.1, r.2)
    let s := s.setCore (coreOf root) { k with acc := accPut k.acc (new.map fun w => (w.1, w.2.1)) }
    s.setHart root ((s.hart root).orFlags (new.foldl (fun f w => f ||| w.2.2) 0))
  else
    let view := (viewWords c.tile b0 b1).map fun i => (i, SMap.get 0 k.acc i)
    others.foldl (fun s hid =>
      let o := s.core (coreOf hid)
      s.setCore (coreOf hid) { o with acc := accPut o.acc view }) s

/-- Two collectives can proceed together. -/
def Collective.agrees (a b : Collective) : Bool :=
  a.join == b.join && a.mask == b.mask && a.tile == b.tile && a.s32 == b.s32

/-- The members of a mask that have arrived and own their arrays: none while some is missing. -/
def State.arrivedAll (s : State) (mask : Nat) : Option (List (Nat × Collective)) :=
  let l := (bitList 16 mask).map fun i =>
    match s.memberSlot i with
    | some hid => if s.owns hid || (s.hart hid).level == .m then (s.hart hid).coll.map fun c => (hid, c) else none
    | none => none
  if l.all Option.isSome then some (l.filterMap id) else none

/-- A member of a collective stops between its blocks (R348). -/
def State.pauseMember (s : State) (hid b : Nat) : State :=
  s.setHart hid { s.hart hid with resume := s.resumeNow hid b 0, paused := true }

/-- The collective runs from the root's restart point to its end, or to the block where a pre-emption or a kill stops it
(R347, R348). -/
def State.proceed (s : State) (c : Collective) (root : Nat) (others : List Nat) : State :=
  let n := viewSize c.tile / 16
  let b0 := (s.hart root).resume.unit
  let all := root :: others
  match s.drv.pause with
  | some u =>
    if max b0 u < n then all.foldl (fun s hid => s.pauseMember hid (max b0 u)) (s.collect c root others b0 (max b0 u))
    else all.foldl (fun s hid => s.finishAt hid 8) (s.collect c root others b0 n)
  | none => all.foldl (fun s hid => s.finishAt hid 8) (s.collect c root others b0 n)

/-- A member arrives, and the last one lets all of them proceed. -/
def State.collective (s : State) (c : Collective) : State :=
  let s := if s.me.coll.isSome then s else s.setMe { s.me with coll := some c }
  match s.arrivedAll c.mask with
  | none => s
  | some l =>
    let s := l.foldl (fun s m => s.setHart m.1 { s.hart m.1 with coll := none }) s
    match l with
    | [] => s
    | (root, rc) :: others =>
      if l.all fun m => rc.agrees m.2 then s.proceed rc root (others.map (·.1))
      else l.foldl (fun s m => s.takeTrap m.1 (Trap.at0 .badtag 2 m.2.ir.toNat)) s

/-- `mjoin` and `msplit` (R347): the checks at the issuer, the arrival, and the collective. -/
def State.gangTile (s : State) (join : Bool) (t : TileRef) (a : XR) (typ : Word) : Out :=
  if s.unowned then .next s.mowner
  else
    let m := (s.getX a).toNat
    let gsz := match s.me.task with | some key => (s.task key).gsz | none => 1
    if !(decide (m < 2 ^ gsz) && m.testBit s.me.member && decide (typ.toNat < 2)) then completeV 8 (.error s.badShape)
    else if m = 2 ^ s.me.member then completeV 8 (.ok s)
    else match s.residue with
      | .error e => completeV 8 (.error e)
      | .ok () =>
        .next (s.collective { join, mask := m, tile := t, s32 := typ.toNat == 1, fctl := s.mreg mFctl, ir := s.drv.ir })

/-- `mjoin` (R347). -/
def execMjoin (t : TileRef) (a b : XR) (s : State) : Out := s.gangTile true t a (s.getX b)
/-- `msplit` (R347). -/
def execMsplit (t : TileRef) (a : XR) (s : State) : Out := s.gangTile false t a 0

/-! Outlier-list instructions (R349, R350). -/

/-- Both halves of a header can be accessed. -/
def State.hdrAccess (s : State) (off : Nat) : Except Stop State := do
  let (s1, p) ← s.listAccess off true (!s.me.wpSkip)
  let (s2, q) ← s1.listAccess (off + 8) true (!s.me.wpSkip)
  let ino := s2.drv.nextId
  need (!s2.olderHeld s.cur ino p.key 8 && !s2.olderHeld s.cur ino q.key 8) (.wait s)
  .ok s2

/-- `olset` (R349). -/
def State.olset (s : State) (a b : XR) : Res := do
  let off := bits (s.getX a) 19 0
  let w := s.getX b
  let cap := bits w 15 0
  need (bits w 31 17 == 0 && decide (cap ≤ 4096) && off % 16 == 0 && decide (off + 16 + 8 * cap ≤ winSize)) s.badShape
  let s ← s.hdrAccess off
  let h : ListHdr := { cap, count := 0, tile := bits w 63 32, side := bit w 16, ovf := false, rsvd := 0 }
  .ok (s.listWrite (h.words off))

/-- `olset` (R349). -/
def execOlset (a b : XR) (s : State) : Out := completeV 8 (s.olset a b)

/-- The check of an off (R350). -/
def State.offOk (s : State) (a : XR) : Except Stop Nat :=
  let off := bits (s.getX a) 19 0
  if off % 16 = 0 ∧ off + 16 ≤ winSize then .ok off else .error s.badShape

/-- `olclr` (R350). -/
def State.olclr (s : State) (a : XR) : Res := do
  let off ← s.offOk a
  let (s, h) ← s.listHeader off false
  let s ← s.hdrAccess off
  .ok (s.listWrite ({ h with count := 0, ovf := false }.words off))

/-- `olclr` (R350). -/
def execOlclr (a : XR) (s : State) : Out := completeV 8 (s.olclr a)

/-- `olcnt` (R350). -/
def State.olcnt (s : State) (d a : XR) : Res := do
  let off ← s.offOk a
  let (s, h) ← s.listHeader off false
  .ok (s.bump.setX d (BitVec.ofNat 64
    (h.count + h.cap % 2 ^ 16 * 2 ^ 32 + h.ovf.toNat * 2 ^ 48 + h.side.toNat * 2 ^ 49)))

/-- `olcnt` (R350). -/
def execOlcnt (d a : XR) (s : State) : Out := completeV 8 (s.olcnt d a)

end Sys2Proof.Machine
end

