-- ==== Sys2Proof/Machine/TaskInstr.lean ====
section
/-!
DEFINITION. Task, barrier, deque and Turnstile instructions (R73, R86, R144, R145, R351 to R375).
-/
namespace Sys2Proof.Machine

/-! Common rules (R352, R353). -/

/-- The instructions of this family raise ILLEGAL at M. -/
def State.notM (s : State) : Except Stop Unit := need (s.me.level != .m) s.illegal

/-- The executing hart's task and context slot. -/
def State.myTask (s : State) : Nat := s.me.task.getD 0
def State.mySlot (s : State) : Nat := slotOf s.myTask

/-- The task that a task reference names. -/
def State.taskRef (s : State) (w : Word) : Except Stop Nat := do
  need (decide (w.toNat < 2 ^ 22)) s.badShape
  need (w.toNat / 65536 == s.mySlot) s.priv
  .ok w.toNat

/-! Task instructions (R354 to R358). -/

/-- n aligned 8-byte reads of the executing hart from va on. -/
def State.readDesc (s : State) (va : Nat) : Nat → Except Stop (State × List Word)
  | 0 => .ok (s, [])
  | n + 1 => do
    let (s1, p) ← s.scalarAccess va 8 false false
    let s2 ←
      (if p.attr = .dev then .ok ((s1.noteRead s.cur s1.drv.nextId p.key 8 []).hubRead (p.pa - paHub))
       else
        let (v, ids, bad) := s1.readValue s1.myPath p.key 8
        if p.attr.cached && !s1.l1Ready s.cur p.key 8 false then .error (.wait s)
        else if bad then .error (.trap { Trap.at0 .dataerr (s1.eccSub p.key 8) va with pa := p.pa } s1)
        else
          let s1 := if p.attr.cached then s1.touchL1 s.cur p.key 8 false else s1
          .ok (s1.noteRead s.cur s1.drv.nextId p.key 8 ids, BitVec.ofNat 64 v) : Except Stop (State × Word))
    let (s3, l) ← s2.1.readDesc ((va + 8) % 2 ^ 55) n
    .ok (s3, s2.2 :: l)

/-- `tspawn` (R354). -/
def State.tspawn (s : State) (a b : XR) : Res := do
  s.notM
  let key ← s.taskRef (s.getX b)
  let va := (s.getX a).toNat % 2 ^ 55
  need (va % 64 == 0) (s.fails .misalign 0 va)
  need (s.settledAt .dev true && s.inTurn (armTurn key) s.cur) (.wait s)
  let (s1, w) ← s.readDesc va 8
  need (s1.descOk w) s1.badShape
  need ((s1.task key).st == .empty) s1.badShape
  .ok ((s1.bump.arm key w (some (coreOf s.cur))).noteTurn (armTurn key) s.cur)

/-- `tspawn` (R354). -/
def execTspawn (a b : XR) (s : State) : Out := complete 4 (s.tspawn a b)

/-- `tsig` (R355). -/
def execTsig (a b : XR) (s : State) : Out :=
  complete 4 (do
    s.notM
    let w := s.getX a
    let n := (s.getX b).toNat
    need (decide (w.toNat < 2 ^ 22) && decide (1 ≤ n) && decide (n ≤ 65535)) s.badShape
    let key ← s.taskRef w
    need (s.settledAt .dev true) (.wait s)
    .ok (s.decrement key n (some (coreOf s.cur))))

/-- The barrier register of a task: its number and contents (R75). -/
def State.barOf (s : State) (key : Nat) : Option (Nat × Bar) := s.ring.bars.find? fun b => b.2.task == some key
def State.setBar (s : State) (n : Nat) (b : Bar) : State :=
  { s with ring := { s.ring with bars := s.ring.bars.put n b } }

/-- Every waiting member of a gang is released (R359). -/
def State.releaseBar (s : State) (key n : Nat) (b : Bar) : State :=
  let s := s.setBar n { b with arrived := 0, gen := b.gen + 1 }
  let s := ((s.task key).hids.filter fun hid => (s.hart hid).atBar).foldl (fun s hid =>
    s.setHart hid { s.hart hid with atBar := false, barDone := true }) s
  s.traceRec (n / 64) 4 (some s.cur) (some key) (n % 64)

/-- `tdone` lowers the expected count (R361). -/
def State.lowerBar (s : State) (key : Nat) : State :=
  match s.barOf key with
  | none => s
  | some (n, b) =>
    let b := { b with exp := max 1 (b.exp - 1) }
    if b.arrived ≠ 0 ∧ b.exp ≤ b.arrived then s.releaseBar key n b else s.setBar n b

/-- The end of the executing hart's part of its task (R356). -/
def State.endPart (s : State) : State :=
  let key := s.myTask
  let i := s.me.member
  let c := coreOf s.cur
  let s := (s.retired.lowerBar key).retireHart s.cur false
  let t := s.task key
  let t := { t with members := t.members.set i .finished }
  let s := s.setTask key t
  if t.members.all (· == .finished) then s.toDone key false (some c) else s

/-- `tdone` (R356). -/
def execTdone (s : State) : Out :=
  match (do s.notM; need (s.settledAt (s.task s.myTask).cscope true) (.wait s) : Except Stop Unit) with
  | .error e => complete 4 (.error e)
  | .ok () => .next s.endPart

/-- `tkill` (R357): it completes once the target's harts have stopped (a member at M returns first, R194), and a hart
that kills its own task stops there.  One that waits has killed already, and ends when that arming is DONE. -/
def execTkill (a : XR) (s : State) : Out :=
  match (do s.notM; s.taskRef (s.getX a) : Except Stop Nat) with
  | .error e => complete 4 (.error e)
  | .ok key =>
    let ends (s : State) : Out := complete 4 (.ok (s.setMe { s.me with killing := none }))
    match s.me.killing with
    | some (k, done) => if k = key ∧ done then ends s else complete 4 (.error (.wait s))
    | none =>
      let own := key == s.myTask
      let s := s.kill key (some (coreOf s.cur))
      if own then .next s
      else if (s.task key).dying.isSome then complete 4 (.error (.wait (s.setMe { s.me with killing := some (key, false) })))
      else ends s

/-- A READY task of an effective priority of at least n waits on a die and cannot be placed there (R86). -/
def State.contender (s : State) (q n : Nat) : Option Nat :=
  let keys := ((List.range 8).flatMap fun p => s.readyQ q p) ++
    (List.range 32).flatMap fun i => (s.dequeOf (32 * q + i) 0).map (·.toNat)
  keys.find? fun key => decide (n ≤ s.effPrio key) && (s.fit key q none).isNone

/-- `tyield` (R358). -/
def execTyield (s : State) : Out :=
  match s.notM with
  | .error e => complete 4 (.error e)
  | .ok () =>
    let key := s.myTask
    let t := s.task key
    match s.contender (dieOf s.cur) t.prio with
    | some _ => complete 4 (.ok (s.trigger key .slice))
    | none => complete 4 (.ok s)

/-! Barriers (R359, R360). -/

/-- A member arrives at its barrier: the last one releases all of them. -/
def State.arriveBar (s : State) (key n : Nat) (b : Bar) : State :=
  let s := (s.noteTurn (barTurn n) s.me.member).setMe { s.me with atBar := true }
  let b := { b with arrived := b.arrived + 1 }
  let s := s.traceRec (n / 64) 3 (some s.cur) (some key) (n % 64 + b.arrived * 2 ^ 8)
  if b.exp ≤ b.arrived then s.releaseBar key n b else s.setBar n b

/-- `bar` (R359). -/
def State.bar (s : State) : Res := do
  s.notM
  let done (s : State) : Res := .ok (s.setMe { s.me with barDone := false })
  if s.me.barDone then done s
  else if s.me.atBar then .error (.wait s)
  else
    need (s.settledAt .dev false) (.wait s)
    match s.barOf s.myTask with
    | none => .ok s
    | some (n, b) =>
      need (s.inTurn (barTurn n) s.me.member) (.wait s)
      let s := s.arriveBar s.myTask n b
      if s.me.barDone then done s else .error (.wait s)

/-- `bar` (R359). -/
def execBar (s : State) : Out := complete 4 s.bar

/-- `barinit` (R360). -/
def execBarinit (a : XR) (s : State) : Out :=
  complete 4 (do
    s.notM
    let n := (s.getX a).toNat
    let gsz := (s.task s.myTask).gsz
    match s.barOf s.myTask with
    | none => .error s.badShape
    | some (k, b) =>
      need (decide (1 ≤ n) && decide (n ≤ gsz) && gsz != 1 && b.arrived == 0) s.badShape
      need (s.inTurn (barSetTurn k) s.me.member) (.wait s)
      .ok ((s.noteTurn (barSetTurn k) s.me.member).setBar k { b with exp := n }))

/-! User deques (R362, R363). -/

/-- A deque operand. -/
def dequeOk (w : Word) : Bool := decide (1 ≤ w.toNat) && decide (w.toNat ≤ 7)

/-- The word of an item, and of EMPTY. -/
def dequeItem (l : Option Word) : Word := match l with | some v => v ||| 0x8000000000000000 | none => 0

/-- `qpush` (R362). -/
def execQpush (a b : XR) (s : State) : Out :=
  complete 4 (do
    s.notM
    need (dequeOk (s.getX a) && !bit (s.getX b) 63) s.badShape
    need (s.settledAt .dev false) (.wait s)
    let c := coreOf s.cur
    let n := (s.getX a).toNat
    need (s.dequeTurn c n 0) (.wait s)
    let l := s.dequeOf c n
    let s := s.noteDeque c n 0
    if l.length < 256 then .ok ((s.setDeque c n (s.getX b :: l)).setX a 1) else .ok (s.setX a 0))

/-- `qpop` (R362). -/
def execQpop (d a : XR) (s : State) : Out :=
  complete 4 (do
    s.notM
    need (dequeOk (s.getX a)) s.badShape
    let c := coreOf s.cur
    let n := (s.getX a).toNat
    need (s.dequeTurn c n 0) (.wait s)
    let l := s.dequeOf c n
    .ok (((s.noteDeque c n 0).setDeque c n l.tail).setX d (dequeItem l.head?)))

/-- `qsteal` (R362): always as a thief. -/
def execQsteal (d a b : XR) (s : State) : Out :=
  complete 4 (do
    s.notM
    let c := (s.getX a).toNat
    need (dequeOk (s.getX b) && s.active c) s.badShape
    need ((s.core c).owner == some s.mySlot) s.priv
    let n := (s.getX b).toNat
    let rank := thiefRank (coreOf s.cur)
    need (s.dequeTurn c n rank) (.wait s)
    let l := s.dequeOf c n
    .ok (((s.noteDeque c n rank).setDeque c n l.dropLast).setX d (dequeItem l.getLast?)))

/-! Turnstile (R366 to R373). -/

/-- The handle in a register, with the checks of R366. -/
def State.handleOf (s : State) (a : XR) : Except Stop Handle := do
  let w := s.getX a
  let h := Handle.ofCode w.toNat
  let p := s.tspart h.die h.part
  need (decide (w.toNat < 2 ^ 32) && partOn p && decide (h.slot < partCount p)) s.badShape
  need (partSlot p == s.mySlot) s.priv
  .ok h

/-- TSTALE and TDEADLOCK. -/
def State.stale (s : State) (h : Handle) : Stop := s.fails .tstale 0 h.code
def State.deadlock (s : State) (p : Nat) : Stop := s.fails .tdeadlock 0 p

/-- Every slot of a partition is ALLOC with this task as owner (R368). -/
def State.allMine (s : State) (q p : Nat) : Bool := s.allOwned q p s.myTask

/-- Turnstile instructions take effect in program order: a publish of the hart has not taken effect yet (R393). -/
def State.posting (s : State) : Bool := !(s.hmem s.cur).posts.isEmpty

/-- A hart joins the tail of a queue, before those of later hart slots that joined in the same clk (R368). -/
def joinQueue (l : List (Nat × Nat)) (hid clk : Nat) : List (Nat × Nat) :=
  let later (e : Nat × Nat) : Bool := e.2 == clk && decide (hid < e.1)
  l.takeWhile (fun e => !later e) ++ (hid, clk) :: l.dropWhile fun e => !later e

/-- `talloc` (R368); a slot that became FREE in this clk goes out at its end, to the head of the queue (R375). -/
def State.talloc (s : State) (d a : XR) : Res := do
  s.notM
  let w := s.getX a
  let q := dieOf s.cur
  let p := w.toNat % 32
  let part := s.tspart q p
  need (decide (w.toNat < 32) && partOn part) s.badShape
  need (partSlot part == s.mySlot) s.priv
  need (!s.posting) (.wait s)
  let hid := s.cur
  match s.ts.grants.find? fun g => g.1 == hid with
  | some g =>
    let s := { s with ts := { s.ts with grants := s.ts.grants.filter fun g => g.1 != hid } }
    .ok (s.setX d (BitVec.ofNat 64 g.2))
  | none =>
    let l := s.tsWaiters q p
    if s.ts.dead.contains hid then .error ((s.leaveTurnstile hid).deadlock p)
    else if l.any fun e => e.1 == hid then .error (.wait s)
    else match l, s.partSlots q p (fun t => t.st == .free && t.freed != s.clk + 1) with
      | [], i :: _ =>
        let h : Handle := { gen := (s.tslot (65536 * q + 2048 * p + i)).gen, die := q, part := p, slot := i }
        .ok ((s.grantSlot hid h s.clk).setX d (BitVec.ofNat 64 h.code))
      | _, _ =>
        if s.allMine q p then .error (s.deadlock p)
        else .error (.wait (s.setTsWaiters q p (joinQueue l hid s.clk)))

/-- `talloc` (R368). -/
def execTalloc (d a : XR) (s : State) : Out := complete 4 (s.talloc d a)

/-- The slot is ALLOC at the handle's generation and owned by the issuing task (R369). -/
def State.mineAlloc (s : State) (h : Handle) : Bool :=
  let t := s.tslot h.key
  t.st == .alloc && t.gen == h.gen && t.owner == s.myTask

/-- `tst` (R369). -/
def State.tst (s : State) (v : VR) (a : XR) : Res := do
  s.notM
  let h ← s.handleOf a
  let r := s.me
  let t := r.tagOf v
  let b := t.width / 8
  need t.ordinary s.badTag
  need ((groupOf t r.ew v).isSome && decide (r.vl * b ≤ partSize (s.tspart h.die h.part))) s.badShape
  need (!s.posting) (.wait s)
  need (s.mineAlloc h) (s.stale h)
  let s ← s.fillGroups [(v, t)]
  let r := s.me
  need (!((List.range r.vl).any fun i => s.elemBad v t i)) (.trap { Trap.at0 .dataerr 1 0 with old := r.resume.pending } s)
  let ino := s.drv.nextId
  let ws : List Piece := (List.range r.vl).map fun i =>
    { p := ⟨s.tileKey h (i * b), 0, .wb⟩, n := b, val := r.elem v i, va := 0 }
  need (!(ws.any fun w => s.olderHeld s.cur ino w.p.key w.n)) (.wait s)
  let s := s.bump.bufferAll s.cur ino ws none none false
  .ok (s.setTslot h.key { s.tslot h.key with tag := t, n := r.vl })

/-- `tst` (R369). -/
def execTst (v : VR) (a : XR) (s : State) : Out := complete 4 (s.tst v a)

/-- The publish of a `tpost` that has been released. -/
def State.postNow (s : State) (h : Handle) (r : Nat) : State := s.publish h r (some s.mySlot)

/-- `tpost` (R370): it publishes once what comes before it is complete at DEVICE (R145); until then, and under a turn with
hold, it waits beside the bag, and later instructions go on (R395). -/
def execTpost (a b : XR) (s : State) : Out :=
  complete 4 (do
    s.notM
    let h ← s.handleOf a
    let r := (s.getX b).toNat
    need (decide (1 ≤ r) && decide (r ≤ 65535)) s.badShape
    need (!s.posting) (.wait s)
    need (s.mineAlloc h) (s.stale h)
    if s.settledAt .dev false && !s.drv.hold then .ok (s.postNow h r)
    else
      let m := s.hmem s.cur
      let p : Post := { mark := ⟨s.drv.nextId, false, .dev, false, m.obs⟩, handle := h.code, reads := r }
      .ok (s.setHmem s.cur { m with posts := m.posts ++ [p] }).bump)

/-- What a `tld` or `tdrop` meets at its slot (R371): TSTALE, TDEADLOCK, a wait, or a published tile. -/
def State.published (s : State) (h : Handle) : Except Stop TsSlot :=
  let t := s.tslot h.key
  if t.gen ≠ h.gen then .error (s.stale h)
  else match t.st with
    | .free => .error (.wait s)
    | .alloc =>
      if t.owner = s.myTask ∧ (s.task s.myTask).gsz = 1 then .error (s.deadlock h.part) else .error (.wait s)
    | .published => .ok t

/-- A fault at an owed-tile entry: PAGEFAULT takes subcode store (R373). -/
def owedFault (t : Trap) : Trap := if t.cause = .pagefault then { t with sub := Acc.store.sub } else t

/-- The first entry from i on, n of them, that covers a tile (R373): its address and word. -/
def State.owedEntry (s : State) (h : Handle) (seq ptr : Nat) : Nat → Nat → Except Stop (State × Option (Nat × Word))
  | 0, _ => .ok (s, none)
  | n + 1, i =>
    let va := (ptr + 8 * i) % 2 ^ 55
    match ringRead s s.mySlot (dieOf s.cur) va 8 with
    | .error t => .error (.trap { owedFault t with old := s.me.resume.pending } s)
    | .ok (s, v) =>
      let w := BitVec.ofNat 64 v
      if bits w 63 62 = h.die ∧ bits w 61 57 = h.part ∧ seqLe (bits w 47 24) seq ∧ seqLe seq (bits w 23 0) then
        .ok (s, some (va, w))
      else s.owedEntry h seq ptr n (i + 1)

/-- The check of the owed-tile list for a tile, and the entry to be rewritten. -/
def State.owedCheck (s : State) (h : Handle) (seq : Nat) : Except Stop (State × Option (Nat × Word)) := do
  let t := s.task s.myTask
  let ptr := bits t.w4 54 0
  let n := bits t.w5 31 16
  if n = 0 then .ok (s, none)
  else
    need (ptr % 8 == 0) (s.fails .misalign 0 ptr)
    let start := s
    let (s, e) ← s.owedEntry h seq ptr n 0
    match e with
    | none => .ok (s, none)
    | some (va, w) =>
      need (bits w 47 24 == seq) start.badShape
      match reach s (ringWho s s.mySlot (dieOf s.cur)) va .store true with
      | .error tr => .error (.trap { owedFault tr with old := s.me.resume.pending } s)
      | .ok (s, p) =>
        need (!s.olderPending s.cur s.drv.nextId p.key 8 && !s.olderHeld s.cur s.drv.nextId p.key 8) (.wait start)
        .ok (s.touchPage (ringWho s s.mySlot (dieOf s.cur)) p 8 true, some (p.key, setBits w 47 24 (seq + 1)))

/-- The entry's update and the decrement, in one step. -/
def State.owedTake (s : State) (h : Handle) (e : Option (Nat × Word)) (drop : Bool) : State :=
  let s := match e with
    | some (k, w) => s.writeHome k 8 w.toNat s.drv.nextId s.cur
    | none => s
  s.takeRead h drop

/-- Element i of a tile. -/
def State.tileElem (s : State) (h : Handle) (b i : Nat) : Nat :=
  (s.readValue (s.searchPath 0 s.cur (coreOf s.cur)) (s.tileKey h (i * b)) b).1

/-- `tld` (R371). -/
def State.tld (s : State) (d : VR) (a : XR) : Res := do
  s.notM
  let h ← s.handleOf a
  need (!s.posting) (.wait s)
  let t ← s.published h
  let r := s.me
  need (r.vl == 0 || (groupOf t.tag r.ew d).isSome) s.badShape
  let (s, e) ← s.owedCheck h t.seq
  let s ← s.fillGroups [(d, t.tag)]
  let r := s.me
  let b := t.tag.width / 8
  let n := min r.vl t.n
  need (!s.isBad (s.tileKey h 0) (n * b) || n == 0)
    (.trap { Trap.at0 .dataerr 1 h.code with old := r.resume.pending } s)
  let new := (List.range r.vl).map fun i => (i, if i < n then s.tileElem h b i else 0)
  .ok ((s.setMe (r.whole d t.tag new 0)).owedTake h e false)

/-- `tld` (R371). -/
def execTld (d : VR) (a : XR) (s : State) : Out := complete 4 (s.tld d a)

/-- `tdrop` (R372). -/
def execTdrop (a : XR) (s : State) : Out :=
  complete 4 (do
    s.notM
    let h ← s.handleOf a
    need (!s.posting) (.wait s)
    let t ← s.published h
    let (s, e) ← s.owedCheck h t.seq
    .ok (s.owedTake h e true))

end Sys2Proof.Machine
end

