-- ==== Sys2Proof/Machine/Fetch.lean ====
section
/-!
DEFINITION. Fetching an instruction's parcels (R234 to R236, R254).
-/
namespace Sys2Proof.Machine

/-- What a fetch gives. -/
inductive Fetched
  /-- The bytes of the instruction. -/
  | bytes (s : State) (l : List Byte)
  /-- A parcel that translation refuses (R236): its address. -/
  | refused (s : State) (va : Nat)
  /-- Another fault of a parcel. -/
  | fault (s : State) (t : Trap)
  | stall

/-- One parcel of a hart, at va, read now. -/
def State.readParcel (s : State) (hid va : Nat) : Fetched :=
  match translate s (whoOf s hid) va .fetch false with
  | .fault s t => if t.cause = .pagefault then .refused s va else .fault s { t with tval := va }
  | .mig s => .refused s va
  | .ok s p =>
    if p.attr = .dev then .refused s va
    else match fate s (dieOf hid) p false with
      | .stall => .stall
      | .fault .pagefault _ => .refused s va
      | .fault c sub => .fault s { Trap.at0 c sub va with pa := p.pa }
      | .ok =>
        let (v, _, bad) := s.readValue (s.searchPath 0 hid (coreOf hid)) p.key 2
        if p.attr.cached && !s.l1Ready hid p.key 2 false then .stall
        else if bad then .fault s { Trap.at0 .dataerr (s.eccSub p.key 2) va with pa := p.pa }
        else .bytes (if p.attr.cached then s.touchL1 hid p.key 2 false else s) [byteOf v 0, byteOf v 1]

/-- The byte at va that was fetched ahead at the hart's level. -/
def Hart.ahead (h : Hart) (va : Nat) : Option Byte :=
  (h.pre.find? fun e => e.1 == va && e.2.1 == h.level).map (·.2.2)

/-- The bytes of a parcel are used, and what was fetched ahead of it is forgotten. -/
def State.usePre (s : State) (hid va : Nat) (l : List Byte) : Fetched :=
  let h := s.hart hid
  if h.pre.isEmpty then .bytes s l
  else .bytes (s.setHart hid { h with pre := h.pre.filter fun e => e.1 / 2 != va / 2 }) l

/-- One parcel of a hart, at va: a byte that was fetched ahead at this level is used as it was; so one that a store has
changed since may still be the old one (R236). -/
def State.fetchParcel (s : State) (hid va : Nat) : Fetched :=
  let h := s.hart hid
  match h.ahead va, h.ahead (va + 1) with
  | some a, some b => s.usePre hid va [a, b]
  | a, b => match s.readParcel hid va with
    | .bytes s [x, y] => s.usePre hid va [a.getD x, b.getD y]
    | r => r

/-- The byte at va is fetched ahead of its issue (R236). -/
def State.fetchAhead (s : State) (hid va : Nat) : State :=
  if (s.hart hid).task.isSome && decide (va < 2 ^ 55) && ((s.hart hid).ahead va).isNone then
    match s.readParcel hid (va / 2 * 2) with
    | .bytes s l =>
      let h := s.hart hid
      s.setHart hid { h with pre := h.pre ++ [(va, h.level, l.getD (va % 2) 0)] }
    | _ => s
  else s

/-- n parcels from va on. -/
def State.fetchParcels (s : State) (hid va : Nat) : Nat → List Byte → Fetched
  | 0, l => .bytes s l
  | n + 1, l =>
    match s.fetchParcel hid (va % 2 ^ 55) with
    | .bytes s b => s.fetchParcels hid (va + 2) n (l ++ b)
    | r => r

/-- The instruction at the PC of a hart: the first parcel gives the length (R234), and every parcel is fetched
before it is decoded (R236). -/
def State.fetch (s : State) (hid : Nat) : Fetched :=
  let va := (s.hart hid).pc.toNat
  match s.fetchParcel hid va with
  | .bytes s [lo, hi] => s.fetchParcels hid (va + 2) (parcelBits (parcelOf lo hi) / 16 - 1) [lo, hi]
  | r => r

/-- Whether the first parcel begins a vector instruction (R242, R249). -/
def vectorParcel (p : Nat) : Bool :=
  match parcelBits p with
  | 32 => decide (17 ≤ fld p 8 5) && decide (fld p 8 5 ≤ 28)
  | 64 => fld p 8 5 == 1
  | _ => false

/-- Whether a written word of n bytes is a vector or a matrix instruction, which the sequencer takes (R242, R249). -/
def sequencedWord (n w : Nat) : Bool :=
  let p := w / 2 ^ (8 * n - 16)
  vectorParcel p || (n == 8 && fld p 8 5 == 8)

end Sys2Proof.Machine
end

