-- ==== Sys2Proof/Machine/Package.lean ====
section
/-!
DEFINITION. Device reset, links, spares, pool ports and regions, attestation (R16, R19, R22 to R30, R42 to R47,
R65).  An event that cannot happen in a state leaves it as it is.
-/
namespace Sys2Proof.Machine

/-! Retirement record (R23). -/

/-- Lane 9 g + k of a core, links, channels, slices and cores have their own numbers in the record. -/
def laneUnit (c g k : Nat) : Nat := 72 * c + 9 * g + k
def channelUnit (q ch : Nat) : Nat := 96 * q + ch
def sliceUnit (q n : Nat) : Nat := 264 * q + n

/-- A spare is brought in, or a unit retired: recorded and reported (R23). -/
def State.recordSpare (s : State) (k : Spare) (n : Nat) (retired : Bool) : State :=
  ({ s with pkg := { s.pkg with otp := s.pkg.otp ++ [(k, n, retired)] } }).report repSpare 0 0 0 0 none none

/-- How often a unit kind has been recorded for a choice of numbers. -/
def State.spares (s : State) (k : Spare) (f : Nat → Bool) : Nat :=
  (s.pkg.otp.filter fun e => e.1 == k && f e.2.1).length

/-! Device reset (R22, R23, R29, R100, R116). -/

/-- Cores that a reset takes out: the die's first two failures bring spares in, the others stay out (R23). -/
def State.coresOut (s : State) : List Nat :=
  s.pkg.otp.filterMap fun e => if e.1 = .core ∧ e.2.2 then some e.2.1 else none

/-- What a core keeps over a reset: its remap, unless a spare core takes its place at this one (R23, R100). -/
def State.coreAtReset (s : State) (c : Nat) : Core :=
  let k := s.core c
  let out := s.coresOut.contains c
  if k.removed && !out then Core.reset
  else { Core.reset with removed := out, skip := k.skip, lost := k.lost, deadSpare := k.deadSpare,
                         spareDue := k.spareDue, lmod := 8 * (8 - k.lost.length) }

/-- The units of a die that the record retires: their numbers within the die. -/
def State.retiredOf (s : State) (k : Spare) (perDie q : Nat) : List Nat :=
  s.pkg.otp.filterMap fun e => if e.1 = k ∧ e.2.2 ∧ e.2.1 / perDie = q then some (e.2.1 % perDie) else none

/-- The state that a reset leaves: every register at its Reset column, with the degraded units of the record. -/
def State.afterReset (s : State) : State :=
  let cores := (List.range 128).foldl (fun m c => SMap.set Core.reset m c (s.coreAtReset c)) []
  let perDie (f : Nat → List Nat) : SMap (List Nat) := (List.range 4).foldl (fun m q => SMap.set [] m q (f q)) []
  { State.reset with
    cores
    mem := s.mem.filter fun c => decide (c.1 < keySpad)
    bad := s.bad.filter fun b => decide (b.loc < keySpad) && !(decide (paHub ≤ b.loc) && decide (b.loc < paPeer))
    coh := { State.reset.coh with present := s.coh.present, fenced := s.coh.fenced }
    pkg := { State.reset.pkg with otp := s.pkg.otp, rollback := s.pkg.rollback
                                  lostSlices := perDie (s.retiredOf .slice 264)
                                  lostChannels := perDie (s.retiredOf .channel 96) }
    drv := s.drv }

/-- The monitor measures a later image into the next register, up to register 7; images beyond it are measured into none
(R29; DESIGN CHOICE, log entry 12). -/
def State.measureNext (s : State) (digest : BitVec 512) : State :=
  let k := s.pkg.measure.length
  if s.pkg.recovery.isNone && 1 ≤ k && k ≤ 7 then
    { s with pkg := { s.pkg with measure := s.pkg.measure.put k (Config.extend 0 digest) } }
  else s

/-- Failure codes of the boot status: a signature, or the rollback counter (R29). -/
def bootBadSig : Nat := 1
def bootRollback : Nat := 2

/-- DEVICE_RESET (R29). -/
def execDeviceReset (sigOk : Bool) (version : Nat) (digest : BitVec 512) (s : State) : Out :=
  let s := s.afterReset
  if !sigOk then .next { s with pkg := { s.pkg with recovery := some bootBadSig } }
  else if version < s.pkg.rollback then .next { s with pkg := { s.pkg with recovery := some bootRollback } }
  else .next { s with pkg := { s.pkg with measure := s.pkg.measure.put 0 (Config.extend 0 digest) } }

/-! Links (R16, R19, R22, R23, R26, R42). -/

/-- HOST_LINK_TRAIN (R16): rate in GT/s, at most 64; 0 where it cannot train. -/
def execHostLinkTrain (rate width : Nat) (s : State) : Out :=
  if rate ≤ 64 ∧ width ≤ 16 then
    .next { s with pkg := { s.pkg with hostRate := rate, hostWidth := width, hostUp := rate != 0 && width != 0 } }
  else .next s

/-- The CXL features that the device supports, on the host link or on the pool ports (R18); 68-byte flits below 64 GT/s
only, and in recovery only CXL.io (R29). -/
def Package.supports (p : Package) (pool : Bool) (f : CxlFeature) : Bool :=
  match f, pool with
  | .io, _ => true
  | .cache, false | .mem, _ | .flit256, _ | .ide, _ | .dynCap, true | .pbr, true => p.recovery.isNone
  | .flit68, false => p.recovery.isNone && decide (p.hostRate < 64)
  | _, _ => false

/-- The features that the device advertises. -/
def Package.advertised (p : Package) (pool : Bool) : List CxlFeature :=
  [CxlFeature.io, .cache, .mem, .flit256, .flit68, .ide, .dynCap, .pbr, .gfam, .type3].filter (p.supports pool)

/-- A peer enables a feature, or is refused (R18). -/
def State.enableFeature (s : State) (pool : Bool) (f : CxlFeature) : State :=
  if s.pkg.supports pool f && !s.pkg.features.contains (pool, f) then
    { s with pkg := { s.pkg with features := s.pkg.features ++ [(pool, f)] } }
  else s

/-- Flit mode of the host link: 256 bytes at 64 GT/s, 68 bytes below (R16). -/
def Package.flit (p : Package) : Nat := if p.hostRate = 64 then 256 else 68

/-- States of a link or port (R22). -/
def linkState (w : Word) : Nat := bits w 10 9
def withLink (w : Word) (st lanes : Nat) : Word := setBits (setBits w 10 9 st) 15 11 lanes
def lnkDown : Nat := 0
def lnkTraining : Nat := 1
def lnkUp : Nat := 2
def lnkRetired : Nat := 3

/-- The Mbawyn links that are UP. -/
def State.upLinks (s : State) : List Nat := (List.range 24).filter fun n => linkState (s.hreg (oLnkst n)) == lnkUp

/-- FABRIC_ID_ASSIGN (R19): once, when the first link has trained. -/
def execFabricIdAssign (dev : Nat) (s : State) : Out :=
  if dev < 256 ∧ !bit (s.hreg oFabid) 8 ∧ !s.upLinks.isEmpty then
    .next ((s.setHreg oFabid (BitVec.ofNat 64 (256 + dev))))
  else .next s

/-- A pool port goes DOWN: accesses to its regions that harts hold perform before, and the hub tries to reroute them
(R47), and those that were rerouted over it (R23). -/
def State.portDown (s : State) (p : Nat) : State :=
  let both := p :: ((s.pool.via.filter fun e => e.2 == p).map (·.1))
  let s := s.settleHeld fun b => match s.regionOfKey b.loc with | some (_, w) => both.contains (bits w 61 60) | none => false
  let s := s.setHreg (oPst p) (withLink (s.hreg (oPst p)) lnkDown 0)
  let new := both.filter fun q => !(s.pool.reroute.any fun e => e.1 == q)
  { s with pool := { s.pool with reroute := s.pool.reroute ++ new.map fun q => (q, s.clk)
                                 via := s.pool.via.filter fun e => e.2 != p } }

/-- A pool port trains: with 16 lanes at 64 GT/s it is UP, a path for its regions again; otherwise it has failed (R17). -/
def State.portTrains (s : State) (n : Nat) (up : Bool) : State :=
  if up then
    let s := s.setHreg (oPst n) (withLink (s.hreg (oPst n)) lnkUp 16)
    { s with pool := { s.pool with reroute := s.pool.reroute.filter fun e => e.1 != n
                                   via := s.pool.via.filter fun e => e.1 != n } }
  else s.portDown n

/-- A Mbawyn link trains (R22, R23): one that the record retires is RETIRED again, and one whose spare lane has been
brought in runs on it. -/
def State.linkTrains (s : State) (n lanes swid : Nat) : State :=
  let up := lanes == 8
  let w := setBits (s.hreg (oLnkst n)) 23 16 swid
  if s.pkg.otp.contains (.linkLane, n, true) then s.setHreg (oLnkst n) (withLink w lnkRetired 7)
  else
    let w := setBits w 8 8 (if up && s.pkg.otp.contains (.linkLane, n, false) then 1 else 0)
    s.setHreg (oLnkst n) (withLink w (if up then lnkUp else lnkDown) (if up then 8 else 0))

/-- LINK_OR_PORT_TRAINS (R22): UP with its working lanes, or DOWN where lanes is 0.  A pool port trains with 16
lanes at 64 GT/s or not at all (R17): another rate is a training with lanes 0. -/
def execLinkOrPortTrains (pool : Bool) (n lanes swid : Nat) (s : State) : Out :=
  if pool then .next (if n < 4 then s.portTrains n (lanes == 16) else s)
  else if n < 24 ∧ linkState (s.hreg (oLnkst n)) ≠ lnkRetired then
    .next (s.linkTrains n lanes swid)
  else .next s

/-- A switch frees a filter entry after PINV to every holder it records: the remote copies are gone, their dirty
words merged at the home (R42).  The home's fab bit is cleared with the entry, and nowhere else: the spec says only when
it is set (DESIGN CHOICE, log entry 34). -/
def State.recallFilter (s : State) (frame : Nat) : State :=
  let q := homeDie frame
  let s := ((s.filterEntry frame).1.map (·.h)).foldl (fun s h => s.probe1 q frame true h) s
  let e := s.dirEntry q frame
  (s.setFilter frame ([], false, false)).setDir q frame (e.1, e.2.1, false)

/-- A link retires (R23, R42): every filter entry that it served is recalled. -/
def State.retireLink (s : State) (n : Nat) : State :=
  let up := s.upLinks
  let w := s.hreg (oLnkst n)
  let s := s.setHreg (oLnkst n) (withLink w lnkRetired (bits w 15 11 - 1))
  let s := s.recordSpare .linkLane n true
  ((s.coh.filter.map (·.1)).filter fun f => Config.filterLink up f == n).foldl (fun s f => s.recallFilter f) s

/-- A lane of an UP link fails (R23). -/
def State.spareLink (s : State) (n : Nat) : State :=
  let w := s.hreg (oLnkst n)
  if n < 24 ∧ linkState w = lnkUp then
    if bit w 8 then s.retireLink n
    else (s.setHreg (oLnkst n) (setBits (withLink w lnkTraining (bits w 15 11)) 8 8 1)).recordSpare .linkLane n false
  else s

/-- MBAWYN_LANE_SPARE (R23). -/
def execMbawynLaneSpare (n : Nat) (s : State) : Out := .next (s.spareLink n)

/-- LINK_RETRAIN_DONE (R23): the link is whole again. -/
def execLinkRetrainDone (n : Nat) (s : State) : Out :=
  let w := s.hreg (oLnkst n)
  if n < 24 ∧ linkState w = lnkTraining then .next (s.setHreg (oLnkst n) (withLink w lnkUp 8)) else .next s

/-- LINK_RETIRE (R42). -/
def execLinkRetire (n : Nat) (s : State) : Out :=
  if n < 24 ∧ linkState (s.hreg (oLnkst n)) ≠ lnkRetired then .next (s.retireLink n) else .next s

/-! Pool ports and regions (R23, R45 to R47). -/

/-- POOL_PORT_DOWN (R47). -/
def execPoolPortDown (port : Nat) (s : State) : Out := .next (if port < 4 then s.portDown port else s)

/-- FLIT_CRC_ERROR (R26): up to 8 replays; beyond them a lane spare, or the link goes DOWN. -/
def execFlitCrcError (kind : LinkKind) (n replays : Nat) (s : State) : Out :=
  match kind with
  | .host => if replays ≤ 8 then .next s else .next { s with pkg := { s.pkg with hostUp := false } }
  | .pool =>
    if n < 4 then
      let s1 := s.setHreg (oPst n) (setBits (s.hreg (oPst n)) 0 0 1)
      .next (if replays ≤ 8 then s1 else s1.portDown n)
    else .next s
  | .mbawyn =>
    if n < 24 then
      let s := s.setHreg (oLnkst n) (setBits (s.hreg (oLnkst n)) 0 0 1)
      .next (if replays ≤ 8 then s else s.spareLink n)
    else .next s

/-- 500 µs and 100 ms in clk (R23, R46). -/
def rerouteBound : Nat := 500 * Config.clkPerUs
def checkBound : Nat := 100000 * Config.clkPerUs

/-- POOL_REROUTE_DONE (R23): the regions are reached through another port; their accesses proceed. -/
def execPoolRerouteDone (port via : Nat) (s : State) : Out :=
  if via < 4 ∧ via ≠ port ∧ linkState (s.hreg (oPst via)) = lnkUp ∧
      s.pool.reroute.any (fun e => e.1 == port && decide (s.clk ≤ e.2 + rerouteBound)) then
    .next { s with pool := { s.pool with reroute := s.pool.reroute.filter fun e => e.1 != port
                                         via := s.pool.via ++ [(port, via)] } }
  else .next s

/-- An unacknowledged write of a pool image is taken back: the pooled device has not taken it (R47, R147). -/
def State.undo (e : WEntry) (s : State) : State := { s with mem := memWrite s.mem e.loc e.n e.old }

/-- Accesses that wait for a region owe POOLDETACH from now on (R400). -/
def State.oweDetach (s : State) (n : Nat) : State :=
  s.mems.foldl (fun s m =>
    if m.2.stall = some (.region n) then s.setHmem m.1 { m.2 with stall := some (.owed n) } else s) s

/-- A region becomes DETACHED (R47 steps 1 to 3, R400, R404): its copies are invalidated, the accesses that wait for it
raise POOLDETACH, and its dirty words, which stand in its unacknowledged writes and in those on their way, join the
quarantine in their order. -/
def State.detachRegion (s : State) (n : Nat) : State :=
  let mine (e : WEntry) := match s.regionOfKey e.loc with | some (m, _) => m == n | none => false
  let sent := s.unacked.filter mine
  let moved := sent ++ s.devQ.filter mine
  let s := ((s.oweDetach n).setRegion n 2).reportRegion n false
  let s := sent.foldr State.undo s
  let s := ({ s with devQ := s.devQ.filter fun e => !mine e
                     unacked := s.unacked.filter fun e => !mine e }).forget (regionFrame n)
  moved.foldl (fun s e => if regionState s n = 2 then s.quarantine n e else s) s

/-- REROUTE_TIMEOUT (R47): no path within 500 µs. -/
def execRerouteTimeout (port : Nat) (s : State) : Out :=
  if s.pool.reroute.any fun e => e.1 == port && decide (e.2 + rerouteBound ≤ s.clk) then
    let s := { s with pool := { s.pool with reroute := s.pool.reroute.filter fun e => e.1 != port } }
    let l := s.regionsOn port 1
    let s := if l.isEmpty then s
      else { s with pool := { s.pool with
        grace := (s.pool.grace.filter fun (g : Nat × Nat) => g.1 != port) ++ [(port, s.clk)] } }
    .next (l.foldl (fun s n => s.detachRegion n) s)
  else .next s

/-- POOL_PATH_RETURN (R47 step 5): the identity re-checks begin. -/
def execPoolPathReturn (port : Nat) (s : State) : Out :=
  let l := (s.regionsOn port 2).filter fun n =>
    !(s.pool.checks.any fun c => c.1 == n) && !s.pool.writeback.contains n
  .next { s with pool := { s.pool with
    checks := s.pool.checks ++ l.map fun n => (n, true, s.clk) } }

/-- A check ends. -/
def State.endCheck (s : State) (n : Nat) : State :=
  { s with pool := { s.pool with checks := s.pool.checks.filter fun c => c.1 != n } }

/-- A check that has not completed within 100 ms is abandoned, and counts as failed (R46, R47). -/
def State.inBound (s : State) (began : Nat) : Bool := decide (s.clk ≤ began + checkBound)

/-- The grace of a region's port has not reached 0 (R47 step 6). -/
def State.inGrace (s : State) (n : Nat) : Bool := s.graceLeft (bits (s.hreg (oPregion n)) 61 60) != 0

/-- REATTACH_CHECK_DONE (R47): on a match within the bound, and before the grace has reached 0, the quarantined spans are
written back. -/
def execReattachCheckDone (region : Nat) (ok : Bool) (s : State) : Out :=
  match s.pool.checks.find? fun c => c.1 == region && c.2.1 with
  | some c =>
    let s := s.endCheck region
    if ok && s.inBound c.2.2 && s.inGrace region then .next { s with pool := { s.pool with writeback := s.pool.writeback ++ [region] } }
    else .next (s.reportRegion region true)
  | none => .next s

/-- The grace of a port ends with its last DETACHED region. -/
def State.trimGrace (s : State) : State :=
  { s with pool := { s.pool with grace := s.pool.grace.filter fun g => !(s.regionsOn g.1 2).isEmpty } }

/-- QUARANTINE_WRITEBACK_DONE (R47): the spans have been written back in order, and the region is ATTACHED. -/
def execQuarantineWritebackDone (region : Nat) (s : State) : Out :=
  if s.pool.writeback.contains region then
    let l := s.pool.quar.filter fun q => q.region == region
    let s := l.foldl (fun s q => s.arrive q.entry) s
    let s := { s with pool := { s.pool with quar := s.pool.quar.filter fun q => q.region != region
                                            writeback := s.pool.writeback.filter (· != region) } }
    .next ((s.setRegion region 1).reportRegion region false).trimGrace
  else .next s

/-- GRACE_EXPIRY (R47 step 6): the port's DETACHED regions are LOST. -/
def execGraceExpiry (port : Nat) (s : State) : Out :=
  if (s.pool.grace.any fun g => g.1 == port) && s.graceLeft port == 0 then
    let l := (s.regionsOn port 2).filter fun n => !s.pool.writeback.contains n
    let s := l.foldl (fun s n => (s.endCheck n).loseRegion n) s
    .next s.trimGrace
  else .next s

/-- What a back-invalidation of frames waits for (R45, R48): fills that are under way, evicted lines that have not been
served, and writes of the frames that the pooled device has not acknowledged. -/
def State.bisnpReady (s : State) (of : Nat → Bool) : Bool :=
  let hit (e : WEntry) : Bool := match s.frameOf e.loc with | some f => of f | none => false
  !(s.coh.reqs.any fun r => of r.frame) && !(s.coh.wb.any fun l => of l.frame) && !s.unacked.any hit &&
  !s.devQ.any hit && !s.coreQ.any fun q => q.2.any hit

/-- A back-invalidation of one frame at its proxy home: PINV to every internal holder, or PDWN to the owners; the proxy
home's own words are then clean, and gone with PINV. -/
def State.backInvalidate (s : State) (f : Nat) (inv : Bool) : State :=
  let q := homeDie f
  let s := (((s.dirEntry q f).1.filter fun r => inv || r.own).map (·.h)).foldl (fun s h => s.probe1 q f inv h) s
  let s := { s with coh := s.coh.cleaned f (2 ^ 32 - 1) }
  if inv then s.dropWays q f else s

/-- BISNP (R45): PINV or PDWN over a range of frames at the internal holders; the dirty words have been written back
before the answer. -/
def execBisnp (region first count : Nat) (inv : Bool) (s : State) : Out :=
  let lo := (paPool + region * 2 ^ 30) / 256 + first
  let inR (f : Nat) : Bool := decide (lo ≤ f) && decide (f < lo + count) && regionFrame region f
  if s.bisnpReady inR then
    let dir := s.coh.dir.map fun (e : Nat × List Rec × Bool × Bool) => e.1 % 2 ^ 56
    let fs := (dir ++ s.coh.dirty.map (·.frame) ++ s.coh.l2.map (·.frame)).filter inR
    let s := fs.eraseDups.foldl (fun s f => s.backInvalidate f inv) s
    .next { s with pool := { s.pool with biRsp := s.pool.biRsp ++ [(region, first, count)] } }
  else .next s

/-- POOL_WRITE_ACK (R45): a write of an ATTACHED region is acknowledged, after the older ones of its bytes. -/
def execPoolWriteAck (k : Nat) (s : State) : Out :=
  match s.unacked[k]? with
  | some e =>
    if !mayMove s.unacked k then .next s
    else match s.regionOfKey e.loc with
      | some (n, _) => if regionState s n = 1 then .next (s.ackWrite k) else .next s
      | none => .next (s.ackWrite k)
  | none => .next s

/-- DYNAMIC_CAPACITY_RELEASE (R46): refused as in use where the region is not FREE. -/
def execDynamicCapacityRelease (region : Nat) (s : State) : Out :=
  .next { s with pool := { s.pool with dcAns := s.pool.dcAns ++ [(region, regionState s region == 0)] } }

/-! Memory channels and cores (R23, R24). -/

/-- HBM_CHANNEL_RETRAIN (R23): one of two redundant bits is brought in live; with none left the channel is
retired at the next reset. -/
def execHbmChannelRetrain (die ch : Nat) (s : State) : Out :=
  if die < 4 ∧ (s.activeChannels die).contains ch then
    let n := channelUnit die ch
    if s.spares .channel (· == n) < 2 then
      let s := s.recordSpare .channel n false
      .next { s with pkg := { s.pkg with hbmStall := s.pkg.hbmStall ++ [(die, ch)] } }
    else if s.pkg.otp.contains (.channel, n, true) then .next s
    else .next (s.recordSpare .channel n true)
  else .next s

/-- HBM_RETRAIN_DONE (R23). -/
def execHbmRetrainDone (die ch : Nat) (s : State) : Out :=
  .next { s with pkg := { s.pkg with hbmStall := s.pkg.hbmStall.filter fun e => e != (die, ch) } }

/-- The tasks with a member on a core. -/
def State.tasksOn (s : State) (c : Nat) : List Nat :=
  ((s.placedOn c).filterMap fun h => (s.hart h).task).eraseDups

/-- The gangs with a member on a core that leaves placement: one that the left cores of its die can no longer hold takes
GANGLOST, the others are pre-empted and placed on other cores of the die (R24). -/
def State.loseGangs (s : State) (c left : Nat) : State :=
  (s.tasksOn c).foldl (fun s key =>
    if (s.task key).gsz ≤ left then s.setTask key { s.task key with pre := some .fail }
    else s.killFor key (Trap.at0 .ganglost 0 0) none) s

/-- A core is taken out of placement (R23, R24). -/
def State.failCore (s : State) (c : Nat) : State :=
  let q := c / 32
  let retired := s.spares .core (fun n => n / 32 == q) ≥ 2
  let s := (s.setCore c { s.core c with removed := true }).recordSpare .core c retired
  s.loseGangs c (s.activeOn q)

/-- CORE_FAIL (R23). -/
def execCoreFail (core : Nat) (s : State) : Out :=
  if s.active core then .next (s.failCore core) else .next s

/-- Bank spares that the core in place c has used: those recorded since a spare core last took the place (R23). -/
def State.banksUsed (s : State) (c : Nat) : Nat :=
  ((s.pkg.otp.reverse.takeWhile fun e => !(e.1 == .core && e.2.1 == c)).filter fun e => e.1 == .bank && e.2.1 == c).length

/-- A core without one physical lane group (R23, R100). -/
def Core.loseGroup (k : Core) (g : Nat) : Core :=
  let alive := (List.range 8).filter fun p => !k.lost.contains p
  let skip := (alive.filter (· != g)).zipIdx.foldl (fun m e =>
    SMap.set 8 m e.2 (SMap.get 8 k.skip (alive.idxOf e.1))) []
  { k with skip, lost := k.lost ++ [g], lmod := k.lmod - 8 }

/-- One lane or bank failure takes effect on an empty core (R23, R100, R117).  A group whose spare lane is in use, or has
failed itself, is lost. -/
def State.applySpare (s : State) (c : Nat) (u : Option (Nat × Nat)) : State :=
  match u with
  | none =>
    if s.banksUsed c = 0 then s.recordSpare .bank c false
    else (s.recordSpare .bank c true).failCore c
  | some (g, k) =>
    let k0 := s.core c
    let logical := ((List.range 8).filter fun p => !k0.lost.contains p).idxOf g
    let skip := SMap.get 8 k0.skip logical
    if k0.lost.contains g || skip == k then s
    else if skip == 8 && !k0.deadSpare.contains g then
      (s.setCore c { k0 with skip := SMap.set 8 k0.skip logical k }).recordSpare .lane (laneUnit c g k) false
    else
      let s := (s.setCore c (k0.loseGroup g)).recordSpare .lane (laneUnit c g k) true
      if k0.lmod ≤ 8 then s.failCore c else s

/-- What waits for a quiesce takes effect on an empty core (R24, R79). -/
def State.applyQuiesce (s : State) (c : Nat) : State :=
  let k := s.core c
  let s := s.setCore c { k with spareDue := [], lpartNew := none, lpart := k.lpartNew.getD k.lpart }
  k.spareDue.foldl (fun s u => s.applySpare c u) s

/-- The quiesce that is due takes the core out of placement. -/
def State.quiesceRetires (s : State) (c : Nat) : Bool := ((s.applyQuiesce c).core c).removed

/-- Every gang with a member on the core is pre-empted, as far as it has stopped; where the core is then retired, the
gangs stay on their die or take GANGLOST (R24). -/
def State.quiesceGangs (s : State) (c : Nat) : State :=
  let s := if s.quiesceRetires c then s.loseGangs c (s.activeOn (c / 32) - 1) else s
  (s.tasksOn c).foldl (fun s key =>
    let s := if (s.task key).pre.isNone then s.setTask key { s.task key with pre := some .quiesce } else s
    s.preempt key ((s.task key).pre.getD .quiesce)) s

/-- CORE_QUIESCE (R24): the gangs on the core are pre-empted; once it is empty, the remap, lmod and lpart are
updated. -/
def execCoreQuiesce (core : Nat) (s : State) : Out :=
  if s.active core && s.quiesceDue core then
    let s := s.quiesceGangs core
    .next (if (s.placedOn core).isEmpty then s.applyQuiesce core else s)
  else .next s

/-! Attestation (R30, R65). -/

/-- The sections of a report that are signed (R30).  The numbers of the unit kinds, and the three numbers that stand for
an entry of the retirement record, are the model's (DESIGN CHOICE, log entry 12). -/
def State.reportBody (s : State) (nonce : BitVec 512) : List Nat :=
  [Config.reportVersion, Config.serial, nonce.toNat] ++
  (List.range 8).map (fun k => (SMap.get 0 s.pkg.measure k).toNat) ++
  ((List.range 4).flatMap fun q =>
    [s.activeOn q, s.slices q, (s.activeChannels q).length, populated s q false]) ++
  (List.range 128).map (fun c => (s.core c).lmod) ++
  (s.pkg.otp.flatMap fun e =>
    [([Spare.lane, .bank, .core, .slice, .channel, .linkLane, .port].idxOf e.1), e.2.1, if e.2.2 then 1 else 0]) ++
  (List.range 1024).flatMap fun n => [n, regionState s n, bits (s.hreg (oPregion n)) 61 60]

/-- ATTESTATION_REQUEST (R65): only P-521 with SHA-512 is negotiated; in recovery, only the four requests that
R65 names are answered. -/
def execAttestationRequest (req : SpdmReq) (nonce : BitVec 512) (s : State) : Out :=
  let answer (a : SpdmAns) : Out := .next { s with hub := { s.hub with spdm := s.hub.spdm ++ [a] } }
  match req, s.pkg.recovery with
  | .getVersion, _ | .getCapabilities, _ | .getCertificate, _ => answer .plain
  | .negotiate ok, _ => if ok then answer .plain else answer (.refused 0)
  | _, some code => answer (.refused code)
  | .measure, none =>
    let body := s.reportBody nonce
    answer (.report body (Config.sign body))
  | .other, none => answer .plain

end Sys2Proof.Machine
end

