-- ==== Sys2Proof/Machine/Coherence.lean ====
section
/-!
DEFINITION. The directories: requests, probes and answers, write-backs, time-outs, the switch filters and fencing
(R31 to R44, R48).  Values stand in the images of the ordering machine, and these tables hold who has which words.  A
message that is not under way leaves the state as it is.
-/
namespace Sys2Proof.Machine

/-! Requests (R35, R36). -/

/-- The request that die q's entry (or the fabric, 4) serves for a frame. -/
def State.serving (s : State) (q f : Nat) : Option HomeReq := s.coh.reqs.find? fun r => r.home == q && r.frame == f
def State.setReq (s : State) (r : HomeReq) : State :=
  let put (x : HomeReq) : HomeReq := if x.home = r.home ∧ x.frame = r.frame ∧ x.h = r.h then r else x
  { s with coh := { s.coh with reqs := s.coh.reqs.map put } }

/-- The request of a device of the domain for a frame that this one exports: its record stands in the filter. -/
def HomeReq.remote (r : HomeReq) : Bool := isRemote r.h && r.home != fabricHome

/-- The entry that has the requester's record: the filter's for another device's, the directory's otherwise. -/
def State.entryFor (s : State) (r : HomeReq) : List Rec × Bool × Bool :=
  if r.remote then s.filterEntry r.frame else s.dirEntry r.home r.frame
def State.setEntryFor (s : State) (r : HomeReq) (e : List Rec × Bool × Bool) : State :=
  if r.remote then s.setFilter r.frame e else s.setDir r.home r.frame e

/-- The holders that a request probes (R36, R42): those of its own entry; the home's for another device's request, and
while fab is set the filter's for one of this device. -/
def State.probesOf (s : State) (r : HomeReq) : List Holder :=
  let e := s.dirEntry r.home r.frame
  selected (s.entryFor r) r.kind (some r.h) r.first r.last ++
  (if r.remote then selected e r.kind none r.first r.last
   else if e.2.2 then selected (s.filterEntry r.frame) r.kind none r.first r.last else [])

/-- Probes are sent. -/
def HomeReq.ask (r : HomeReq) (l : List Holder) (down overflow : Bool) (clk : Nat) : HomeReq :=
  { r with probes := l, waiting := l, down, overflow, since := clk }

/-- The probes of the request proper. -/
def State.mainPhase (s : State) (r : HomeReq) : State := s.setReq (r.ask (s.probesOf r) (r.kind == .gets) false s.clk)

/-- A request begins to be served: a UPG without a record is a GETO (R48), and a fifth holder brings VECTOR, every owner
being downgraded first (R34). -/
def State.startReq (s : State) (r : HomeReq) : State :=
  let e := s.entryFor r
  let r := if r.kind = .upg ∧ !(e.1.any fun x => x.h == r.h) then { r with kind := .geto } else r
  let owners := (e.1.filter (·.own)).map (·.h)
  if !isFifth e r.h then s.mainPhase r
  else if owners.isEmpty then (s.setEntryFor r (toVector e)).mainPhase r
  else s.setReq (r.ask owners true true s.clk)

/-- The downgrades of an overflow have all been answered. -/
def State.overflowed (s : State) (q f : Nat) : State :=
  match s.serving q f with
  | some r =>
    if r.overflow && r.waiting.isEmpty then (s.setEntryFor r (toVector (s.entryFor r))).mainPhase r else s
  | none => s

/-- Whether a holder may ask for a frame: an L1, a die other than the home, a device of the domain for memory that this
one exports, or this one for a peer's (R33, R39, R41 to R43). -/
def State.mayAsk (s : State) (h : Holder) (f : Nat) : Bool :=
  s.cacheable (keyOf s (256 * f)) && (match h with
    | .cc n => decide (n < 256)
    | .die q => decide (q < 4) && q != homeDie f
    | .dev d => if d == s.deviceId then peerFrame f
                else decide (256 * f < 4 * paDie) && !s.peerCut d)

/-- A request arrives at its home (R36): one to a frame is served at a time, in arrival order; it asks for what the
holder has and what it needs as one span (R32).  Accesses to the frame that harts hold were sent before, and perform
first. -/
def State.arriveReq (s : State) (k : ReqKind) (h : Holder) (f first last : Nat) : State :=
  let q := s.entryOf h f
  if first ≤ last ∧ last ≤ 31 ∧ s.mayAsk h f ∧ !(s.coh.reqs.any fun r => r.h == h && r.frame == f) then
    let s := s.settleHeld fun b => s.frameOf b.loc == some f
    let (lo, hi) := s.hull h f first last
    let r : HomeReq := { kind := k, h, home := q, frame := f, first := lo, last := hi, probes := [], waiting := [],
                         dataSent := false, down := false, overflow := false, since := s.clk }
    let busy := (s.serving q f).isSome
    let s := { s with coh := { s.coh with reqs := s.coh.reqs ++ [r] } }
    if busy then s else s.startReq r
  else s

/-- GETS (R36). -/
def execGets (h : Holder) (frame first last : Nat) (s : State) : Out := .next (s.arriveReq .gets h frame first last)
/-- GETO (R36). -/
def execGeto (h : Holder) (frame first last : Nat) (s : State) : Out := .next (s.arriveReq .geto h frame first last)
/-- UPG (R36). -/
def execUpg (h : Holder) (frame first last : Nat) (s : State) : Out := .next (s.arriveReq .upg h frame first last)

/-- A request ends.  Where it was being served, its late answers are dropped and the next one begins. -/
def State.endReq (s : State) (q f : Nat) (h : Holder) : State :=
  let served := match s.serving q f with | some r => r.h == h | none => false
  let s := { s with coh := { s.coh with
    reqs := s.coh.reqs.filter fun r => !(r.home == q && r.frame == f && r.h == h) } }
  if served then
    let s := { s with coh := { s.coh with answers := s.coh.answers.filter fun a => !(a.2.1 == q && a.2.2.1 == f) } }
    match s.serving q f with
    | some r => s.startReq r
    | none => s
  else s

/-! Probes and answers (R35, R36 steps 2 and 3, R39, R48). -/

/-- A guest's fill has landed, and the access that caused it is still to be granted: the guest holds a probe until then
(R48). -/
def State.guestBusy (s : State) (h : Holder) (f : Nat) : Bool :=
  match h with
  | .die g => match s.serving g f with
    | some r => s.holds h f r.first r.last (r.kind != .gets)
    | none => false
  | _ => false

/-- The peer's filter probes this device (R41): the proxy home's holders are probed first, and the dirty words of all of
them and of its slice go with the answer. -/
def State.probeMe (s : State) (f : Nat) (inv : Bool) : State :=
  let q := homeDie f
  let me := Holder.dev s.deviceId
  if s.coh.reqs.any fun r => r.frame == f then s
  else
    let l := ((s.dirEntry q f).1.filter fun r => inv || r.own).map (·.h)
    let s := l.foldl (fun s h => s.probe1 q f inv h) s
    let own := s.answer me f
    let words := ((s.coh.dirty.filter fun d => d.frame == f).map (·.words)).foldl (· ||| ·) own.words
    let a : Answer := if words ≠ 0 then .data words else if l.isEmpty then own else .ack
    let s := (s.giveUp me f inv).homeClean f
    let s := { s with coh := { s.coh with fabAns := s.coh.fabAns ++ [(f, a)] } }
    if inv then s.dropWays q f else s

/-- The request whose probe of a holder is under way: at the holder's own entry, or at the home for a device that the
filter tracks, and for the home's holders where another device asks. -/
def State.probing (s : State) (h : Holder) (f : Nat) (inv : Bool) : Option HomeReq :=
  match s.serving (s.entryOf h f) f with
  | some r => if r.probes.contains h && inv != r.down then some r else none
  | none => none

/-- A probe reaches a holder. -/
def State.probeHolder (s : State) (h : Holder) (f : Nat) (inv : Bool) : State :=
  if peerFrame f && h == .dev s.deviceId then s.probeMe f inv
  else match s.probing h f inv with
    | some r =>
      if s.guestBusy h f then s
      else
        let s := s.reachHolder h f inv
        let a := s.answer h f
        let s := (s.giveUp h f inv).setReq { r with probes := r.probes.erase h }
        { s with coh := { s.coh with answers := s.coh.answers ++ [(h, r.home, f, a)] } }
    | none => s

/-- PINV (R35). -/
def execPinv (h : Holder) (frame : Nat) (s : State) : Out := .next (s.probeHolder h frame true)
/-- PDWN (R35). -/
def execPdwn (h : Holder) (frame : Nat) (s : State) : Out := .next (s.probeHolder h frame false)

/-- An answer of a kind reaches the home: its words are merged, and the holder's record is updated (R36 step 3). -/
def State.takeAnswer (s : State) (h : Holder) (f : Nat) (is : Answer → Bool) : Option State :=
  let q := s.entryOf h f
  match s.coh.answers.find? fun a => a.1 == h && a.2.1 == q && a.2.2.1 == f && is a.2.2.2, s.serving q f with
  | some a, some r =>
    let s := { s with coh := { s.coh with answers := s.coh.answers.erase a } }
    let s := s.mergeAt q f a.2.2.2.words
    let upd := a.2.2.2.update !r.down
    let s := if isRemote h then s.setFilter f (upd (s.filterEntry f) h) else s.setDir q f (upd (s.dirEntry q f) h)
    some ((s.setReq { r with waiting := r.waiting.erase h }).overflowed q f)
  | _, _ => none

/-- DATA (R35): dirty words that a probe draws, merged at the home; or the data of a grant. -/
def execData (h : Holder) (frame : Nat) (s : State) : Out :=
  match s.takeAnswer h frame fun a => match a with | .data _ => true | _ => false with
  | some s => .next s
  | none => match s.serving (s.entryOf h frame) frame with
    | some r =>
      if r.h == h && r.waiting.isEmpty && r.kind != .upg then .next (s.setReq { r with dataSent := true })
      else .next s
    | none => .next s
/-- ACK (R35). -/
def execAck (h : Holder) (frame : Nat) (s : State) : Out :=
  match s.takeAnswer h frame fun a => a == .ack with
  | some s => .next s
  | none => .next s
/-- ABSENT (R35). -/
def execAbsent (h : Holder) (frame : Nat) (s : State) : Out :=
  match s.takeAnswer h frame fun a => a == .absent with
  | some s => .next s
  | none => .next s

/-! Grants (R35, R36 step 4). -/

/-- The slice that grants has the words itself, with the rights it gives (R39, R41). -/
def State.sliceReady (s : State) (r : HomeReq) : Bool :=
  let own := r.kind != .gets
  match r.h with
  | .dev _ => true
  | _ =>
    if r.home = homeDie r.frame then
      !peerFrame r.frame || s.holds (.dev s.deviceId) r.frame r.first r.last own
    else s.holds (.die r.home) r.frame r.first r.last own

/-- The state that a request obtains: the exporting device decides for the fabric, and the model takes S for a GETS there
(DESIGN CHOICE, log entry 29). -/
def State.grantOwn (s : State) (r : HomeReq) : Bool :=
  if r.home = fabricHome then r.kind != .gets
  else if r.remote then
    let others := ((s.dirEntry r.home r.frame).1 ++ (s.filterEntry r.frame).1).any fun x =>
      x.h != r.h && x.meets r.first r.last
    r.kind != .gets || (!others && !(s.filterEntry r.frame).2.1)
  else s.obtains r.home r.frame r.kind r.h r.first r.last

/-- The granted record and span are in place (R32, R36 step 4); the first remote holder sets fab (R42). -/
def State.grant (s : State) (r : HomeReq) : State :=
  let own := s.grantOwn r
  let s := s.setEntryFor r (addRec (s.entryFor r) r.h r.first r.last own)
  let e := s.dirEntry r.home r.frame
  let s := if r.remote then s.setDir r.home r.frame (e.1, e.2.1, true) else s
  let q := if r.home = fabricHome then homeDie r.frame else r.home
  let s := s.install q r.h r.frame r.first r.last own
  let s := { s with coh := { s.coh with silent := s.coh.silent.erase (r.h, r.frame) } }
  match r.h with
  | .cc _ => s.fitL1 r.h r.frame
  | .die g => s.allocate g r.frame .none none
  | .dev _ => s

/-- GRANT (R35, R36 step 4). -/
def execGrant (h : Holder) (frame : Nat) (s : State) : Out :=
  let q := s.entryOf h frame
  match s.serving q frame with
  | some r =>
    if r.h == h && r.waiting.isEmpty && !r.overflow && (r.kind == .upg || r.dataSent) && s.sliceReady r &&
        s.cacheable (keyOf s (256 * frame)) then
      .next ((s.grant r).endReq q frame h)
    else .next s
  | none => .next s

/-! Write-backs (R35, R40, R48). -/

/-- The home serves the PUTD of an evicted line: its words are merged and its record goes; it is stale where a probe has
drawn the words, and discarded. -/
def State.servePutd (s : State) (l : Line) : State :=
  let q := s.entryOf l.h l.frame
  let s := { s with coh := { s.coh with wb := s.coh.wb.erase l } }
  if l.dirty = 0 then s
  else
    let s := s.mergeAt q l.frame l.dirty
    if (s.lineOf l.h l.frame).isSome then s
    else if isRemote l.h && q != fabricHome then s.setFilter l.frame (dropRec (s.filterEntry l.frame) l.h)
    else s.setDir q l.frame (dropRec (s.dirEntry q l.frame) l.h)

/-- A guest copy is evicted with the spans of its die's L1s (R39). -/
def State.evictToWb (s : State) (l : Line) : State :=
  let s := match l.h with | .die g => s.probeGuest g l.frame true | _ => s
  match s.lineOf l.h l.frame with
  | none => s
  | some l =>
    let s := (s.dropLine l.h l.frame).dropStrips l.h l.frame
    let s := match l.h with | .die g => s.dropWays g l.frame | _ => s
    { s with coh := { s.coh with wb := s.coh.wb ++ [l] } }

/-- PUTD (R35, R48).  With keep the dirty words go home and the holder stays in E.  Without it the line first
moves to the write-back buffer, and the next PUTD of it is served at the home. -/
def execPutd (h : Holder) (frame : Nat) (keep : Bool) (s : State) : Out :=
  match s.evicted h frame, s.lineOf h frame with
  | some l, _ => .next (s.servePutd l)
  | none, some l =>
    if l.dirty = 0 then .next s
    else if keep then .next ((s.mergeAt (s.entryOf h frame) frame l.dirty).setLine { l with dirty := 0, st := .e })
    else .next (s.evictToWb l)
  | none, none => .next s

/-- No demand request is queued for the HBM channel that holds a frame, and it is not being retrained (R23, R40). -/
def State.channelIdle (s : State) (f : Nat) : Bool :=
  let q := homeDie f
  let ch := s.channelAt q (256 * f % paDie)
  let at_ (g : Nat) : Bool := decide (256 * g < 4 * paDie) && homeDie g == q && s.channelAt q (256 * g % paDie) == ch
  decide (4 * paDie ≤ 256 * f) ||
  (!s.pkg.hbmStall.contains (q, ch) && !(s.coh.reqs.any fun r => at_ r.frame) &&
   !(s.coreQ.any fun l => l.2.any fun e => match homeOf e.loc with | .hbm => at_ (e.loc / 256) | _ => false))

/-- The Roustabout of a die is on, and a span's last write is older than cohctl.age ns (R40). -/
def State.oldEnough (s : State) (die at_ : Nat) : Bool :=
  let c := s.hreg (oCohctl die)
  bit c 16 && decide (bits c 15 0 * 19 ≤ (s.clk - at_) * 10)

/-- ROUSTABOUT_WRITEBACK (R40): the dirty words of a frame homed in the slice, or proxied by it, are written to where it
lives, those of a guest copy are sent home by PUTD with keep. -/
def execRoustaboutWriteback (die frame : Nat) (s : State) : Out :=
  if !s.channelIdle frame then .next s
  else if die = homeDie frame then
    match s.coh.dirty.find? fun d => d.die == die && d.frame == frame with
    | some d =>
      if s.oldEnough die d.at_ && s.cacheable (keyOf s (256 * frame)) then
        .next { s with coh := { s.coh with dirty := s.coh.dirty.erase d } }
      else .next s
    | none => .next s
  else match s.lineOf (.die die) frame with
    | some l =>
      if s.oldEnough die l.at_ && l.dirty != 0 then
        .next ((s.mergeAt (homeDie frame) frame l.dirty).setLine { l with dirty := 0, st := .e })
      else .next s
    | none => .next s

/-! Time-outs and scrubbing (R26, R27, R37). -/

/-- The holder acts for a hart: its control core, or its die as a guest. -/
def asksFor (h : Holder) (hid : Nat) : Bool := h == holderOf hid || h == .die (dieOf hid)

/-- PROBE_TIMEOUT (R37): a probe that no holder has answered for 100 µs ends the waiting request with DATAERR at the
requesting hart, at its access to the frame; the entry keeps its records, and the next access of each silent holder to the
frame is a new request. -/
def execProbeTimeout (hid frame : Nat) (s : State) : Out :=
  match s.coh.reqs.find? fun r => r.frame == frame && !r.waiting.isEmpty && asksFor r.h hid &&
      decide (r.since + 100 * Config.clkPerUs ≤ s.clk) with
  | some r =>
    let s := { s with coh := { s.coh with silent := s.coh.silent ++ r.waiting.map fun h => (h, frame) } }
    let s := s.endReq r.home frame r.h
    .next (s.setHmem hid { s.hmem hid with accErr := some (some frame, 4) })
  | none => .next s

/-- CONTROL_TIMEOUT (R26): an on-device request of the hart ends with DATAERR. -/
def execControlTimeout (hid : Nat) (s : State) : Out :=
  if (s.hart hid).task.isSome then .next (s.setHmem hid { s.hmem hid with accErr := some (none, 4) }) else .next s

/-- A copy of a location's frame stands in the SRAM of an L1 or of an L2 slice of this device. -/
def State.copied (s : State) (loc : Nat) : Bool :=
  match s.frameOf loc with
  | some f => s.coh.l2.any (fun w => w.frame == f) || s.coh.lines.any fun l => l.frame == f && !isRemote l.h
  | none => false

/-- An ECC word becomes uncorrectable (R26), at its home or, with sram, in the copy of a cache; accesses of it that were
sent before perform first.  A word of a copy is met by every access to its bytes until it is written over (DESIGN CHOICE,
log entry 103). -/
def State.spoil (s : State) (loc : Nat) (sram : Bool) : State :=
  let n := if sram then 8 else eccSize loc
  let b := loc / n * n
  if s.isBad loc 1 || (sram && !s.copied loc) then s
  else
    let s := s.settleHeld fun i => decide (i.loc < b + n) && decide (b < i.loc + i.n)
    { s with bad := s.bad ++ [{ loc := b, size := n, ino := 0, cover := 0 }] }

/-- PATROL_SCRUB (R26, R27): an uncorrectable word is reported and stays so; bad marks one that the scrub is the
first to find. -/
def execPatrolScrub (loc : Nat) (bad : Bool) (s : State) : Out :=
  let s := if bad then s.spoil loc false else s
  if s.isBad loc 1 then
    .next (s.report Cause.dataerr.code (s.eccSub loc 1) 0 (if loc < keyPool then loc else 0) 0 none none)
  else .next s

/-! Filters and fences (R42 to R44). -/

/-- FILTER_ENTRY_FREE (R42). -/
def execFilterEntryFree (frame : Nat) (s : State) : Out :=
  .next (if (s.filterEntry frame).1.isEmpty then s else s.recallFilter frame)

/-- Accesses that harts hold to a peer's window perform before its traffic is cut; none: to every peer's. -/
def State.settlePeer (s : State) (d : Option Nat) : State :=
  s.settleHeld fun b => match homeOf b.loc with | .peer e => d.isNone || d == some e | _ => false

/-- A frame of device d's exported memory. -/
def frameOfPeer (d f : Nat) : Bool := peerFrame f && (256 * f - paPeer) / 2 ^ 42 == d

/-- The lines of a fenced device's memory are invalidated, with one report for each frame (R43 step 4). -/
def State.dropFenced (s : State) (d : Nat) : State :=
  let of := frameOfPeer d
  let held := ((s.coh.lines ++ s.coh.wb).map (·.frame)) ++ s.coh.dirty.map (·.frame)
  (held.filter of).eraseDups.foldl (fun s f => s.report repFence 0 0 (256 * f) 0 none none) (s.forget of)

/-- A device no longer holds any frame of this one: it is removed from every filter entry, its probes are answered ABSENT,
its requests end, and what it held dirty is lost (R43). -/
def State.dropHolder (s : State) (d : Nat) : State :=
  let h := Holder.dev d
  let s : State := { s with coh := { s.coh with
    filter := (s.coh.filter.map fun e => (e.1, dropRec e.2 h)).filter fun e => decide (e.2 ≠ ([], false, false))
    lines := s.coh.lines.filter fun l => l.h != h
    wb := s.coh.wb.filter fun l => l.h != h
    answers := s.coh.answers.filter fun a => a.1 != h
    reqs := s.coh.reqs.map fun r => { r with probes := r.probes.erase h, waiting := r.waiting.erase h } } }
  let s := (s.coh.reqs.filter fun r => r.h == h).foldl (fun s r => s.endReq r.home r.frame h) s
  s.coh.reqs.foldl (fun s r => s.overflowed r.home r.frame) s

/-- A holder's id is fenced (R43 steps 2 and 3). -/
def State.dropDevice (s : State) (d : Nat) : State :=
  let s := s.dropHolder d
  if s.coh.fenced.contains d then s else { s with coh := { s.coh with fenced := s.coh.fenced ++ [d] } }

/-- What other devices hold of this one's memory is invalidated by their filters, dirty words discarded (R43 step 4). -/
def State.dropExports (s : State) : State :=
  let devs := (((s.coh.filter.flatMap fun e => e.2.1.map (·.h)) ++ s.coh.lines.map (·.h) ++ s.coh.wb.map (·.h) ++
    s.coh.reqs.map (·.h)).filterMap fun h => match h with | .dev d => if d = s.deviceId then none else some d | _ => none)
  let s := devs.eraseDups.foldl (fun s d => s.dropHolder d) s
  let s := (s.coh.filter.map (·.1)).foldl (fun s f =>
    let e := s.dirEntry (homeDie f) f
    s.setDir (homeDie f) f (e.1, e.2.1, false)) s
  { s with coh := { s.coh with filter := [] } }

/-- FILTER_PROBE_TIMEOUT (R43): a holder has not answered a filter's probe on any path for 50 µs, and the switch fences
it. -/
def execFilterProbeTimeout (dev : Nat) (s : State) : Out :=
  if s.coh.reqs.any fun r => r.waiting.contains (.dev dev) && decide (r.since + 50 * Config.clkPerUs ≤ s.clk) then
    .next (((s.settlePeer (some dev)).dropDevice dev).dropFenced dev)
  else .next s

/-- DEVICE_FENCED (R43, R44): a switch of the domain has fenced this device. -/
def execDeviceFenced (s : State) : Out :=
  let s := (s.settlePeer none).dropExports
  .next (s.setHreg oFabst (setBits (s.hreg oFabst) 0 0 1))

/-- The fence of another device has been cleared (R44). -/
def State.unfence (s : State) (d : Nat) : State :=
  if d = s.deviceId then s else { s with coh := { s.coh with fenced := s.coh.fenced.filter (· != d) } }

/-- FENCE_CLEARED (R44 step 3): after a rejoin. -/
def execFenceCleared (s : State) : Out :=
  if bit (s.hreg oFabst) 0 && s.coh.rejoin then
    .next { s.setHreg oFabst (setBits (s.hreg oFabst) 0 0 0) with
      coh := { s.coh with rejoin := false, fenced := s.coh.fenced.erase s.deviceId } }
  else .next s

end Sys2Proof.Machine
end

