-- ==== Sys2Proof/Machine/Sched.lean ====
section
/-!
DEFINITION. Power gating and the scheduler's events (R72 to R76, R83, R86, R88, R116, R125 to R127, R196, R374).
An event that cannot happen in a state leaves it as it is.
-/
namespace Sys2Proof.Machine

/-! Power (R83, R125 to R127). -/

/-- POWER_CAP_UPDATE (R83): the controller's cap for a die; upd counts changes. -/
def execPowerCapUpdate (die cap : Nat) (s : State) : Out :=
  if die < 4 ∧ 1 ≤ cap ∧ cap ≤ 8 then
    let w := s.hreg (oPcap die)
    let w' := if bits w 19 16 = cap then w else setBits (setBits w 19 16 cap) 15 0 (bits w 15 0 + 1)
    .next ((s.setHreg (oPcap die) w').markGroups die)
  else .next s

/-- A hart of the task holds a group that has been marked for 100 µs. -/
def State.heldMarked (s : State) (key : Nat) : Bool :=
  (s.task key).hids.any fun hid => (s.heldBy hid).any fun g =>
    s.ring.marked.any fun m => m.1 == 8 * coreOf hid + g && decide (m.2 + 100 * Config.clkPerUs ≤ s.clk)

/-- GATING_MARK_TIMEOUT (R83): pre-emption for the cap. -/
def execGatingMarkTimeout (slot id : Nat) (s : State) : Out :=
  let key := 65536 * slot + id
  .next (if s.heldMarked key then s.trigger key .cap else s)

/-- L2_WAY_GATE (R125): never ways 0 to 3, and never a group with a pinned way; its dirty spans are written
back first, and its data is dropped. -/
def execL2WayGate (die group : Nat) (s : State) : Out :=
  let key := 4 * die + group
  if die < 4 ∧ 1 ≤ group ∧ group ≤ 3 ∧ (group ≠ 3 ∨ pinnedWays (s.hreg (oTsctl die)) = 0) ∧
      !s.hub.l2gated.contains key ∧ !s.hub.l2waking.contains key then
    let l := s.coh.l2.filter fun w => w.die == die && w.way / 4 == group
    let s := l.foldl (fun s w => s.gateFrame die w.frame) s
    .next { s with hub := { s.hub with l2gated := s.hub.l2gated ++ [key] } }
  else .next s

/-- A gated way group begins to wake (R125, R127). -/
def State.wakeL2 (s : State) (die group : Nat) : State :=
  let key := 4 * die + group
  if s.hub.l2gated.contains key then
    { s with hub := { s.hub with l2gated := s.hub.l2gated.erase key, l2waking := s.hub.l2waking ++ [key] } }
  else s

/-- SCRATCHPAD_GATE (R126): 100 µs with no placed hart and no transfer pending.  The 192 physical banks form
12 groups. -/
def execScratchpadGate (core : Nat) (s : State) : Out :=
  let k := s.core core
  if core < 128 ∧ (s.placedOn core).isEmpty ∧ !(s.copies.any fun e => e.2.names core) ∧
      k.emptySince + 100 * Config.clkPerUs ≤ s.clk ∧ k.gated.isEmpty ∧ k.waking.isEmpty then
    .next (s.setCore core { k with gated := List.range 12 })
  else .next s

/-- Every mapped word of a scratchpad reads zero; its deques stay (R126, R362). -/
def State.wakeZero (s : State) (c : Nat) : State :=
  let k := spadKey c 0
  { s with mem := replaceRange s.mem k winSize []
           bad := s.bad.filter fun b => !(k ≤ b.loc && b.loc < k + winSize) }

/-- WAKE_COMPLETE (R127): a way group returns with every way invalid, a bank group zero-filled. -/
def execWakeComplete (l2 : Bool) (unit group : Nat) (s : State) : Out :=
  if l2 then .next { s with hub := { s.hub with l2waking := s.hub.l2waking.filter (· != 4 * unit + group) } }
  else
    let k := s.core unit
    if k.waking.contains group then
      .next ((s.wakeZero unit).setCore unit { k with waking := k.waking.erase group })
    else .next s

/-- ZERO_FILL_COMPLETE (R116). -/
def execZeroFillComplete (core : Nat) (s : State) : Out :=
  if (s.core core).filling then .next (s.setCore core { s.core core with filling := false }) else .next s

/-! Placement (R74 to R76, R116, R196). -/

/-- A slot that the members of a queue head would take belongs to the bottom of its core's deque 0, which comes before
the head and fits there (R74). -/
def State.outranked (s : State) (key : Nat) (m : List (Nat × Nat)) : Bool :=
  m.any fun x =>
    let c := coreOf x.2
    match s.dequeOf c 0 with
    | k :: _ => s.before (k.toNat, true) (key, false) && (s.fit k.toNat (c / 32) (some c)).isSome
    | [] => false

/-- The READY task that a freed slot of core c goes to, and the slots its members take (R74, R75). -/
def State.nextPlaced (s : State) (c : Nat) : List (Nat × Bool) → Option (Nat × List (Nat × Nat))
  | [] => none
  | (key, dq) :: l =>
    match s.fit key (c / 32) (if dq then some c else none) with
    | some m => if !dq && s.outranked key m then none else some (key, m)
    | none => s.nextPlaced c l

/-- A queued task can be placed to core c (R74): by itself, or as a gang with a member there. -/
def State.headFor (s : State) (c : Nat) : Bool :=
  (s.candidates c).any fun k => (s.fit k.1 (c / 32) (some c)).isSome ||
    match s.fit k.1 (c / 32) none with
    | some m => m.any fun x => coreOf x.2 == c
    | none => false

/-- A gang is placed, and the frame slots of its cores hold what their harts bring (R75, R105). -/
def State.placeAll (s : State) (key q : Nat) (m : List (Nat × Nat)) : State :=
  (s.place key q m).fitFrames (m.map fun x => coreOf x.2)

/-- A task has members whose state was saved. -/
def State.wasSaved (s : State) (key : Nat) : Bool := (s.task key).members.any (· == .saved)

/-- A task leaves the deque 0 it stands in, for core c, in the order of R73: taken by the deque's own core as its owner, by
another as a thief; one of a ready queue just goes. -/
def State.leavesDeque (s : State) (key c : Nat) : Option State :=
  match (List.range 128).find? fun v => (s.dequeOf v 0).any fun k => k.toNat == key with
  | none => some s
  | some v =>
    let rank := if v = c then 0 else thiefRank c
    if s.dequeTurn v 0 rank then some (s.noteDeque v 0 rank) else none

/-- A task is placed for core c. -/
def State.placeFor (s : State) (c key : Nat) (m : List (Nat × Nat)) : State :=
  match s.leavesDeque key c with
  | some s => s.placeAll key (c / 32) m
  | none => s

/-- GANG_PLACEMENT (R75): a task that starts. -/
def execGangPlacement (core : Nat) (s : State) : Out :=
  match s.nextPlaced core (s.candidates core) with
  | some (key, m) => .next (if s.wasSaved key then s else s.placeFor core key m)
  | none => .next s

/-- RE_PLACEMENT (R196): a task that was pre-empted. -/
def execRePlacement (core : Nat) (s : State) : Out :=
  match s.nextPlaced core (s.candidates core) with
  | some (key, m) => .next (if s.wasSaved key then s.placeFor core key m else s)
  | none => .next s

/-- The gangs at the heads of a die's queues that have waited agep µs and cannot be placed (R76). -/
def State.reservers (s : State) (q : Nat) : List Nat :=
  let agep := max 1 (bits (s.hreg oRmctl) 39 24) * Config.clkPerUs
  (List.range 8).reverse.filterMap fun p =>
    match s.readyQ q p with
    | k :: _ => if (s.task k).readyAt + agep ≤ s.clk ∧ (s.fit k q none).isNone then some k else none
    | [] => none

/-- GANG_RESERVE (R76): at most one reserving gang on a die, the one of highest effective priority. -/
def execGangReserve (die : Nat) (s : State) : Out :=
  match SMap.get none s.ring.reserving die, s.reservers die with
  | none, k :: l =>
    let best := l.foldl (fun b x => if s.effPrio b < s.effPrio x then x else b) k
    .next { s with ring := { s.ring with reserving := SMap.set none s.ring.reserving die (some best) } }
  | _, _ => .next s

/-- The cores whose deque 0 an idle core looks at, in order (R74): its die's from c + 1 on, and those of the other
dies only where no core of its die holds a READY task. -/
def State.victims (s : State) (c : Nat) : List Nat :=
  let q := c / 32
  let own := (List.range 31).map fun k => 32 * q + (c % 32 + 1 + k) % 32
  let far := (List.range 3).flatMap fun k => (List.range 32).map fun i => 32 * ((q + 1 + k) % 4) + i
  if own.all fun v => (s.dequeOf v 0).isEmpty then far else own

/-- The task on top of a core's deque 0. -/
def State.topTask (s : State) (v : Nat) : Option Nat := (s.dequeOf v 0).getLast?.map (·.toNat)

/-- WORK_STEAL (R74): only tasks whose dmask includes the core's die. -/
def execWorkSteal (core : Nat) (s : State) : Out :=
  if (s.dequeOf core 0).isEmpty && !s.headFor core then
    let can (v : Nat) : Option (Nat × List (Nat × Nat)) :=
      match s.topTask v with
      | some key => (s.fit key (core / 32) (some core)).map fun m => (key, m)
      | none => none
    match (s.victims core).findSome? can with
    | some (key, m) => .next (s.placeFor core key m)
    | none => .next s
  else .next s

/-! Pre-emption (R86). -/

/-- The die on which a READY task waits. -/
def State.waitDie (s : State) (key : Nat) : Option Nat :=
  match s.ring.ready.find? fun q => q.2.contains key with
  | some q => some (q.1 / 8)
  | none => (s.ring.deque.find? fun d => d.1 % 8 == 0 && d.2.any fun k => k.toNat == key).map (·.1 / 256)

/-- The state as it would be without a gang's harts. -/
def State.without (s : State) (key : Nat) : State :=
  let s := (s.task key).hids.foldl (fun s hid => (s.releaseLanes hid).setHart hid Hart.reset) s
  { s with ring := { s.ring with bars := s.ring.bars.filter fun b => b.2.task != some key } }

/-- Victims one after another until the arrival fits: those taken, where some set of them is enough. -/
def State.chooseVictims (s : State) (key q : Nat) : List Nat → List Nat → Option (List Nat)
  | [], _ => none
  | v :: l, acc =>
    let s := s.without v
    if (s.fit key q none).isSome then some (acc ++ [v]) else s.chooseVictims key q l (acc ++ [v])

/-- The running gangs of a die below a priority: lowest base priority first, then the one placed longest ago. -/
def State.lowerGangs (s : State) (q prio : Nat) : List Nat :=
  let l := (s.ring.tasks.filter fun t => t.2.st == .running && t.2.die == q && decide (t.2.prio < prio) &&
    t.2.pre.isNone && s.rxFits t.2).map (·.1)
  let byAge := l.foldl (fun acc k => insertBy (fun k => (s.task k).placedAt) k acc) []
  byAge.foldl (fun acc k => insertBy (fun k => (s.task k).prio) k acc) []

/-- The state as it will be once the gangs of a die that are being pre-empted have left. -/
def State.drained (s : State) (q : Nat) : State :=
  let l := (s.ring.tasks.filter fun t => t.2.st == .running && t.2.die == q && t.2.pre.isSome).map (·.1)
  l.foldl (fun s k => s.without k) s

/-- ARRIVAL_PREEMPTION (R86): task id of a slot is READY, and cannot be placed, nor will it be once the pre-emptions that
are under way have ended. -/
def execArrivalPreemption (slot id : Nat) (s : State) : Out :=
  let key := 65536 * slot + id
  match s.waitDie key with
  | some q =>
    if (s.task key).st == .ready && (s.fit key q none).isNone && ((s.drained q).fit key q none).isNone then
      match (s.drained q).chooseVictims key q (s.lowerGangs q (s.effPrio key)) [] with
      | some l => .next (l.foldl (fun s v => s.trigger v .arrival) s)
      | none => .next s
    else .next s
  | none => .next s

/-- TIME_SLICE_EXPIRY (R86): the gang has run rmctl.slice µs, and an equal or higher task waits on its die. -/
def execTimeSliceExpiry (slot id : Nat) (s : State) : Out :=
  let key := 65536 * slot + id
  let t := s.task key
  let slice := bits (s.hreg oRmctl) 19 0
  if t.st = .running ∧ slice ≠ 0 ∧ t.placedAt + slice * Config.clkPerUs ≤ s.clk ∧
      (s.contender t.die t.prio).isSome then
    .next (s.trigger key .slice)
  else .next s

/-- PREEMPTION (R86, R194): a gang whose pre-emption has been triggered, and whose members have stopped and
drained, is saved. -/
def execPreemption (slot id : Nat) (s : State) : Out :=
  let key := 65536 * slot + id
  match (s.task key).pre with
  | some why => .next (s.preempt key why)
  | none => .next s

/-- PENDING_TABLE_FIT (R374): the entries that waited for room are taken up again. -/
def execPendingTableFit (slot id : Nat) (s : State) : Out :=
  let key := 65536 * slot + id
  let t := s.task key
  match t.st, t.readerAt with
  | .done, some (i, n) => .next (s.abandon key i (some n))
  | _, _ => .next s

end Sys2Proof.Machine
end

