-- ==== Sys2Proof/Machine/Events.lean ====
section
/-!
DEFINITION. Events of harts and of the memory system, and writes of hub registers as events (R22, R63, R106, R122,
R132, R135, R141, R185, R191, R199, R205, R208, R209, R212, R213, R270, R365).  An event that cannot happen in a
state leaves it as it is.
-/
namespace Sys2Proof.Machine

/-! Harts (R185, R191, R270). -/

/-- A hart stands at an instruction boundary where it can be stopped: its earlier accesses have performed, it is not
halted, no withdrawal, barrier or Turnstile slot has taken its arrival, and the access that it waits with raises no
POOLDETACH (R400). -/
def State.atBoundary (s : State) (hid : Nat) : Bool :=
  let h := s.hart hid
  h.task.isSome && s.bagEmpty hid && !s.halted hid && !h.atBar && !h.barDone && !h.paused &&
  !(s.ts.grants.any fun g => g.1 == hid) && !s.withdrawing hid && !s.owesDetach hid && h.regrant.isNone

/-- The hub no longer holds an interrupt. -/
def State.clearIrq (s : State) (hid sub : Nat) : State :=
  { s with hub := if sub = 1 then { s.hub with irqErr := false }
                  else { s.hub with irqSw := s.hub.irqSw.filter (· != hid) } }

/-- INTERRUPT_DELIVERY (R185). -/
def execInterruptDelivery (hid sub : Nat) (s : State) : Out :=
  if s.takesIrq hid && s.pendingIrq hid sub && s.atBoundary hid then
    .next ((s.clearIrq hid sub).boundaryTrap hid .interrupt sub 0 false 0)
  else .next s

/-- DEFERRED_FAULT_RAISE (R191): the oldest one. -/
def execDeferredFaultRaise (hid : Nat) (s : State) : Out :=
  match (s.hart hid).deferred with
  | (w, v) :: rest =>
    if s.atBoundary hid then
      let s := s.setHart hid { s.hart hid with deferred := rest }
      .next (s.boundaryTrap hid (Cause.ofCode (bits w 7 0)) (bits w 31 16) v.toNat true (bits w 39 32))
    else .next s
  | [] => .next s

/-- WAIT_TIMEOUT (R270). -/
def execWaitTimeout (hid : Nat) (s : State) : Out :=
  match (s.hart hid).waiting with
  | .word _ _ deadline => if deadline ≤ s.clk then .next (s.setHart hid { s.hart hid with waiting := .no }) else .next s
  | _ => .next s

/-- REGISTER_SPILL (R106). -/
def execRegisterSpill (hid reg : Nat) (s : State) : Out := .next ((s.spillReg hid reg).getD s)

/-! Memory (R132, R135, R141). -/

/-- The oldest `tpost` of a hart that has issued takes effect, once its release is met (R145, R370). -/
def State.postDue (s : State) (hid : Nat) : State :=
  let m := s.hmem hid
  let h := s.hart hid
  match m.posts with
  | p :: l =>
    if s.markReady hid p.mark then
      let s := s.setHmem hid { m with posts := l }
      let k := Handle.ofCode p.handle
      let t := s.tslot k.key
      if t.st == .alloc && t.gen == k.gen && some t.owner == h.task then s.publish k p.reads h.slot else s
    else s
  | [] => s

/-- MEMORY_READ (R132): item of a hart's bag performs, if it may; `.sc` accesses take a ticket first.  Beyond the bag, what
waits beside it: a `tpost`. -/
def execMemoryRead (hid item : Nat) (s : State) : Out :=
  match (s.hmem hid).bag[item]? with
  | some b =>
    if b.sc then .next s
    else match s.performItem hid item with
      | some s => .next s
      | none => .next s
  | none => .next (s.postDue hid)

/-- DRAIN (R135). -/
def execDrain (place : Place) (k : Nat) (s : State) : Out :=
  match s.drain place k with
  | some s => .next s
  | none => .next s

/-- TICKET (R141): the next `.sc` access of a hart draws the next ticket and performs. -/
def execTicket (hid : Nat) (s : State) : Out :=
  let bag := (s.hmem hid).bag
  match (List.range bag.length).find? fun k => (bag[k]?).any (·.sc) with
  | some k =>
    match s.performItem hid k with
    | some s =>
      let s := { s with ticket := s.ticket + 1 }
      .next (match (s.hart hid).slot with | some n => s.count n 26 1 | none => s)
    | none => .next s
  | none => .next s

/-- The cached translations of a range of addresses go: an address space's leaves and the global ones, and the pointer
entries of the range in every space, which lead to global leaves too (R63, R273). -/
def State.dropXlat (s : State) (asid lo hi : Nat) : State :=
  let meets (a g : Bool) (base size : Nat) := (a || g) && decide (lo < hi) && decide (base < hi) && decide (lo < base + size)
  { s with xlat := { s.xlat with
      tlb := s.xlat.tlb.filter fun t => !meets (t.asid == asid) t.global t.base t.size
      ptc := s.xlat.ptc.filter fun t => !meets true false t.base t.size } }

/-- No access that was translated before waits in a bag of any hart for an address of the range (R63 steps 4 and 6). -/
def State.rangeSettled (s : State) (lo hi : Nat) : Bool :=
  !(s.mems.any fun m => m.2.bag.any fun b => decide (b.va < hi) && decide (lo < b.va + b.n))

/-- XINV_COMPLETE (R63, R64): every unit has acknowledged, the accesses under way to the range having performed: its
cached translations are gone, and chunks that wait on a migrating page walk again at once. -/
def execXinvComplete (hid : Nat) (s : State) : Out :=
  match s.xlat.xinv.find? fun x => x.hid == hid && !x.acked && s.rangeSettled x.lo x.hi with
  | some x =>
    let s := { s with xlat := { s.xlat with xinv := s.xlat.xinv.map fun y => if y = x then { y with acked := true } else y } }
    .next (s.dropXlat x.asid x.lo x.hi).wakeStalls
  | none => .next s

/-! PC sampling (R208). -/

/-- The element of a held access that delivers to a vector register. -/
def BagItem.elem (b : BagItem) : Option Nat :=
  match b.act with
  | .rd (.v _ e _) => some e
  | .amo _ _ _ (u :: _) => match u.dst with | .v _ e _ => some e | _ => none
  | _ => none

/-- The next pass of an instruction on a lane group. -/
def Disp.next (d : Disp) (g : Nat) : Nat := max d.first (SMap.get 0 d.pass g)

/-- It has an element group left for lane group g. -/
def Disp.left (d : Disp) (g : Nat) : Bool := d.held.contains g && decide (d.next g < d.last)

/-- The restart point of an instruction whose element groups still issue: the pass of the group that is furthest back, and
the lead of each cluster, at most 15. -/
def State.issuePoint (s : State) (hid : Nat) (d : Disp) : Resume :=
  let next (g : Nat) : Nat := min d.last (d.next g)
  let sfx := match d.held.map next with | [] => d.first | e :: l => l.foldl min e
  let lead (k : Nat) : Nat := match (d.held.filter fun g => g / 2 == k).map next with
    | [] => 0
    | e :: l => min 15 (l.foldl min e - sfx)
  s.resumeNow hid sfx ((List.range 4).foldl (fun a k => a + lead k * 16 ^ k) 0)

/-- The oldest unfinished instruction of a hart: its PC and restart point.  One that waits for accesses of its bag is at
the pass of the lowest element outstanding. -/
def State.unfinished (s : State) (hid : Nat) : BitVec 55 × Resume :=
  let h := s.hart hid
  let m := s.hmem hid
  let seq := h.disp.find? fun d => d.held.any d.left
  let held := match m.pcs, seq with
    | p :: _, some d => if d.ino < p.1 then none else some p
    | p :: _, none => some p
    | [], _ => none
  match held, seq with
  | some (ino, pc), _ =>
    let L := max 1 (s.vgrant hid)
    let es := (m.bag.filter fun b => b.ino == ino).filterMap (·.elem)
    let sfx := match es with | [] => 0 | e :: l => l.foldl min e / L
    (BitVec.ofNat 55 pc, s.resumeNow hid sfx 0)
  | none, some d => (d.pc, s.issuePoint hid d)
  | none, none => (h.pc, h.resume)

/-- Its element pointers: ik of R103 for each cluster, 0xFFFF where the hart holds no lane or the instruction is not a
vector instruction. -/
def State.pointers (s : State) (hid : Nat) : Nat :=
  let (pc, r) := s.unfinished hid
  let at_ := s.setHart hid { s.hart hid with pc, pre := [] }
  let vec := match at_.fetch hid with
    | .bytes _ (lo :: hi :: _) => vectorParcel (parcelOf lo hi)
    | _ => false
  let held := s.heldBy hid
  let L := if r.pending then r.grant else s.vgrant hid
  (List.range 4).foldl (fun a k =>
    let ik := (r.sfx + r.slip / 16 ^ k % 16) * L
    let v := if vec && held.any (fun g => g / 2 == k) then ik % 65536 else 0xFFFF
    a + v * 65536 ^ k) 0

/-- The hart of a context whose turn it is on a core. -/
def State.sampled (s : State) (slot c : Nat) : Option Nat :=
  let l := (s.placedOn c).filter fun h => (s.hart h).slot == some slot
  let last := SMap.get 0 s.hub.turn (64 * c + slot)
  match l.find? fun h => last ≤ h % 8 with
  | some h => some h
  | none => l.head?

/-- PC_SAMPLE (R208): every per × 64 clk; the class is that of the lowest held group's first lane in the latest clk. -/
def execPcSample (slot core : Nat) (s : State) : Out :=
  let c := s.hreg (oSmpctl slot)
  let key := 64 * core + slot
  match s.sampled slot core with
  | some hid =>
    if bit c 63 && bits c 11 0 != 0 && decide (SMap.get 0 s.hub.smpAt key + 64 * bits c 11 0 ≤ s.clk) then
      let s := { s with hub := { s.hub with turn := s.hub.turn.put key (hid % 8 + 1), smpAt := s.hub.smpAt.put key s.clk } }
      let n := 2 ^ max 4 (bits c 15 12)
      let head := bits c 47 32
      if (head + 1) % n = bits c 31 16 then .next (s.count slot 28 1)
      else
        let h := s.hart hid
        let cls := match s.heldBy hid with | [] => 9 | g :: _ => SMap.get 9 s.hub.cls (8 * core + g)
        let a := bits (s.hreg (oSmpbase slot)) 51 12 * 4096 + 32 * head
        let w1 := cls + hid % 8 * 2 ^ 4 + core * 2 ^ 7 + (match h.task with | some t => idOf t | none => 0) * 2 ^ 14
        let put (s : State) (o v : Nat) := s.writeHome (a + o) 8 v 0 1024
        let ptrs := s.pointers hid
        let at_ := s.unfinished hid
        let s := put s 0 (epcWord at_.1 at_.2).toNat
        let s := put (put (put s 8 w1) 16 ptrs) 24 s.clk
        .next ((s.setHreg (oSmpctl slot) (setBits c 47 32 ((head + 1) % n))).count slot 27 1)
    else .next s
  | none => .next s

/-! Writes of hub registers (R22). -/

/-- SWINT (R199). -/
def execSwint (v : Word) (s : State) : Out := .next (s.hubStore oSwint v 1024)
/-- FABST_REJOIN (R44). -/
def execFabstRejoin (s : State) : Out := .next (s.hubStore oFabst 2 1024)
/-- TSCTL_WRITE (R122). -/
def execTsctlWrite (n : Nat) (v : Word) (s : State) : Out :=
  if n < 4 then .next (s.hubStore (oTsctl n) v 1024) else .next s
/-- TSPART_WRITE (R365): partition n % 32 of die n / 32. -/
def execTspartWrite (n : Nat) (v : Word) (s : State) : Out :=
  if n < 128 then .next (s.hubStore (oTspart (n / 32) (n % 32)) v 1024) else .next s
/-- DEBUG_SET_WRITE (R205). -/
def execDebugSetWrite (off : Nat) (v : Word) (s : State) : Out :=
  if (dbgIndex off).isSome && off % 8 == 0 then .next (s.hubStore off v 1024) else .next s
/-- DBGHART_HALT (R212). -/
def execDbghartHalt (v : Word) (s : State) : Out := .next (s.hubStore oDbghart v 1024)
/-- DBGDAT_READ (R212, R213). -/
def execDbgdatRead (s : State) : Out :=
  if s.hubReady oDbgdat then
    let r := s.hubRead oDbgdat
    .next { r.1 with hub := { r.1.hub with dbgdat := r.2 } }
  else .next (s.hubWait oDbgdat)
/-- DBGDAT_WRITE (R213). -/
def execDbgdatWrite (v : Word) (s : State) : Out := .next (s.hubStore oDbgdat v 1024)
/-- TRCTL_WRITE (R209). -/
def execTrctlWrite (n : Nat) (v : Word) (s : State) : Out :=
  if n < 4 then .next (s.hubStore (oTrctl n) v 1024) else .next s
/-- HUB_REGISTER_WRITE (R22, R58): by the host, or by device software; an access that is not an aligned 8-byte one
changes no register (at a hart it raises MISALIGN, in the store that makes it). -/
def execHubRegisterWrite (off size : Nat) (v : Word) (host : Bool) (s : State) : Out :=
  if host then .next (s.hostWrite off size v)
  else if size = 8 ∧ off % 8 = 0 then .next (s.hubStore off v 1024)
  else .next s

end Sys2Proof.Machine
end

