-- ==== Sys2Proof/Machine/Launch.lean ====
section
/-!
DEFINITION. Launch queues: packets, their checks and effects, and the packets that wait (R49 to R56, R69, R204);
the pool region events of R46.  An event that cannot happen in a state leaves it as it is.
-/
namespace Sys2Proof.Machine

/-! Queue registers as events (R50, R51, R54). -/

/-- LQDB_DOORBELL (R51). -/
def execLqdbDoorbell (n : Nat) (v : Word) (s : State) : Out :=
  if n < 64 then .next (s.hubStore (oLqdb n) v 1024) else .next s
/-- LQBASE_WRITE (R50). -/
def execLqbaseWrite (n : Nat) (v : Word) (s : State) : Out :=
  if n < 64 then .next (s.hubStore (oLqbase n) v 1024) else .next s
/-- LQCTL_ENABLE (R50): a write of lqctl with rst = 0. -/
def execLqctlEnable (n : Nat) (v : Word) (s : State) : Out :=
  if n < 64 then .next (s.hubStore (oLqctl n) (setBits v 35 35 0) 1024) else .next s
/-- LQCTL_RST (R54): a write of lqctl with rst = 1. -/
def execLqctlRst (n : Nat) (v : Word) (s : State) : Out :=
  if n < 64 then .next (s.hubStore (oLqctl n) (setBits v 35 35 1) 1024) else .next s

/-! Packets (R52 to R54). -/

/-- The packet kinds (R53). -/
inductive PktKind
  | launch | signal | wait | counterStart | counterStop | fence | ctxload | ctxdrop | kill
deriving DecidableEq, Repr

def PktKind.ofCode : Nat → Option PktKind
  | 1 => some .launch
  | 2 => some .signal
  | 3 => some .wait
  | 4 => some .counterStart
  | 5 => some .counterStop
  | 6 => some .fence
  | 7 => some .ctxload
  | 8 => some .ctxdrop
  | 9 => some .kill
  | _ => none

/-- Error codes (R54). -/
def errBadKind : Nat := 0x1
def errRsvd : Nat := 0x2
def errAlign : Nat := 0x3
def errNoCtx : Nat := 0x4
def errBound : Nat := 0x5
def errTaskBusy : Nat := 0x6
def errBadAddr : Nat := 0x7
def errFault : Nat := 0x8
def errData : Nat := 0x9
def errAsidBusy : Nat := 0xB
def errBadDesc : Nat := 0xC

/-- Word k of a packet. -/
def pktWord (p : List Word) (k : Nat) : Word := p.getD k 0

/-- The bits of words 1 to 3 that a kind names (R53). -/
def PktKind.mask (k : PktKind) (w : Nat) : Word :=
  match k, w with
  | .launch, 1 | .counterStop, 1 => fieldMask 54 0
  | .launch, 2 | .wait, 2 => fieldMask 15 0
  | .signal, 2 => fieldMask 31 0
  | .fence, 1 => fieldMask 51 0
  | .fence, 2 => fieldMask 63 0
  | .fence, 3 => fieldMask 12 0
  | .ctxload, 1 => fieldMask 51 12
  | .ctxload, 2 => fieldMask 11 0
  | .kill, 2 => fieldMask 16 0
  | _, _ => 0

/-- Every reserved field is zero, and a SIGNAL's amount is not (R53). -/
def pktReserved (k : PktKind) (p : List Word) : Bool :=
  bits (pktWord p 0) 63 8 == 0 &&
  ([1, 2, 3, 4, 5, 6, 7].all fun i => pktWord p i &&& ~~~(k.mask i) == 0) &&
  (k != .signal || bits (pktWord p 2) 31 16 != 0)

/-- The addresses of a packet are aligned (R53, R55). -/
def pktAligned (k : PktKind) (p : List Word) : Bool :=
  match k with
  | .launch | .counterStop => (pktWord p 1).toNat % 64 == 0
  | .fence => (pktWord p 1).toNat % 8 == 0
  | .ctxload => bits (pktWord p 1) 13 12 == 0
  | _ => true

/-- A physical address of the ring's space (R49, R53); a host address of 2^50 or more, for which R14's map has no place,
is taken modulo 2^50 (DESIGN CHOICE, log entry 100). -/
def State.ringPa (s : State) (n addr : Nat) : Nat :=
  if bit (s.hreg (oLqctl n)) 3 then addr else paHost + addr % 2 ^ 50

/-- The eight words of the packet at head: none where the ring cannot be read (R54). -/
def State.readPacket (s : State) (n : Nat) : Except Nat (List Word) :=
  let pa := s.ringPa n (bits (s.hreg (oLqbase n)) 51 12 * 4096) + 64 * s.lqHead n
  let dev := bit (s.hreg (oLqctl n)) 3
  if dev && !inDie s false pa 64 then .error errBadAddr
  else if !dev && !s.pkg.hostUp then .error errData
  else
    let words := (List.range 8).map fun k => s.readValue (s.searchPath 2 0 0) (keyOf s (pa + 8 * k)) 8
    if words.any fun w => w.2.2 then .error errData
    else .ok (words.map fun w => BitVec.ofNat 64 w.1)

/-- The packet at head is complete. -/
def State.lqNext (s : State) (n : Nat) : State :=
  let s := s.setHreg (oLqhead n) (BitVec.ofNat 64 ((s.lqHead n + 1) % s.lqSize n))
  s.setLq n { s.lq n with st := .none, pkt := [] }

/-- A packet waits. -/
def State.lqHold (s : State) (n : Nat) (st : PktSt) (p : List Word) : State := s.setLq n { s.lq n with st, pkt := p }

/-- The descriptor of a LAUNCH, read in the slot's address space.  A frame that is DETACHED, LOST or FENCED gives FAULT
too: R54 names no code for it (DESIGN CHOICE, log entry 106). -/
def State.launchDesc (s : State) (n va : Nat) : Nat → Except Nat (State × List Word)
  | 0 => .ok (s, [])
  | k + 1 =>
    match s.launchDesc n va k with
    | .error e => .error e
    | .ok (s, l) =>
      match ringRead s n 0 (va + 8 * k) 8 with
      | .ok (s, v) => .ok (s, l ++ [BitVec.ofNat 64 v])
      | .error t => .error (if t.cause = .dataerr then errData else errFault)

/-- LAUNCH (R53, R66, R67). -/
def State.pktLaunch (s : State) (n : Nat) (p : List Word) : Except Nat State :=
  let key := 65536 * n + bits (pktWord p 2) 15 0
  match s.launchDesc n (bits (pktWord p 1) 54 0) 8 with
  | .error e => .error e
  | .ok (s, w) =>
    if !s.descOk w then .error errBadDesc
    else if (s.task key).st ≠ .empty then .error errTaskBusy
    else
      let s := (s.arm key w none).noteTurn (armTurn key) launchRank
      .ok ((s.setLq n { s.lq n with out := (s.lq n).out ++ [key] }).lqNext n)

/-- CTXLOAD (R55): the whole root table lies in a populated window (DESIGN CHOICE, log entry 106). -/
def State.pktLoad (s : State) (n : Nat) (p : List Word) : Except Nat State :=
  let root := bits (pktWord p 1) 51 12 * 4096
  let asid := bits (pktWord p 2) 11 0
  let c := s.hreg (oCtxst n)
  if !inDie s false root 16384 then .error errBadAddr
  else if bit c 63 then .error errBound
  else if (List.range 64).any fun m => m != n && bit (s.hreg (oCtxst m)) 63 && bits (s.hreg (oCtxst m)) 11 0 == asid then
    .error errAsidBusy
  else .ok ((s.setHreg (oCtxst n) (BitVec.ofNat 64 (2 ^ 63 + root + asid))).lqNext n)

/-- Counter bank n starts at zero (R202). -/
def State.startBank (s : State) (n : Nat) : State :=
  let s := (List.range 32).foldl (fun s k => s.setHreg (oCounter n k) 0) s
  { s.setHreg (oCbctl n) 1 with
    hub := { (s.setHreg (oCbctl n) 1).hub with bank := SMap.set Bank.reset s.hub.bank n { Bank.reset with start := s.clk } } }

/-- Kill every task of a context (R53, R56). -/
def State.killAll (s : State) (n : Nat) : State := (s.tasksOf n).foldl (fun s key => s.kill key none) s

/-- A packet that has passed the common checks is performed, or begins to wait (R53). -/
def State.pktPerform (s : State) (n : Nat) (k : PktKind) (p : List Word) : Except Nat State :=
  let key := 65536 * n + bits (pktWord p 2) 15 0
  match k with
  | .launch => s.pktLaunch n p
  | .signal => .ok ((s.decrement key (bits (pktWord p 2) 31 16) none).lqNext n)
  | .wait => .ok (s.lqHold n .wait p)
  | .counterStart => .ok ((s.startBank n).lqNext n)
  | .counterStop => .ok (s.lqHold n .stop p)
  | .fence =>
    let w3 := pktWord p 3
    let a := bits (pktWord p 1) 51 0
    if bit w3 12 && bit (s.hreg (oLqctl n)) 3 && !inDie s false a 8 then .error errBadAddr
    else .ok (s.lqHold n .fence p)
  | .ctxload => s.pktLoad n p
  | .ctxdrop => .ok ((s.killAll n).lqHold n .drop p)
  | .kill =>
    let s := if bit (pktWord p 2) 16 then s.killAll n else s.kill key none
    let left := (s.tasksOf n).filter fun key => (s.task key).dying.isSome
    let s := s.setLq n { s.lq n with kills := if bit (pktWord p 2) 16 then left else left.filter (· == key) }
    .ok (if (s.lq n).kills.isEmpty then s.lqNext n else s.lqHold n .kill p)

/-- A packet is taken up: its checks in the order of R54. -/
def State.takePacket (s : State) (n : Nat) : Except Nat State :=
  match s.readPacket n with
  | .error e => .error e
  | .ok p =>
    match PktKind.ofCode (bits (pktWord p 0) 7 0) with
    | none => .error errBadKind
    | some k =>
      if !pktReserved k p then .error errRsvd
      else if k ≠ .ctxload ∧ !bit (s.hreg (oCtxst n)) 63 then .error errNoCtx
      else if !pktAligned k p then .error errAlign
      else s.pktPerform n k p

/-- The queue fetches (R50, R51, R54). -/
def State.lqRuns (s : State) (n : Nat) : Bool :=
  bit (s.hreg (oLqctl n)) 0 && bits (s.hreg (oLqctl n)) 39 36 == 0

/-- PACKET_FETCH (R52): the next packet is taken up; a KILL is complete once the tasks that it killed are DONE (R53,
R357). -/
def execPacketFetch (n : Nat) (s : State) : Out :=
  if n < 64 && s.lqRuns n && (s.lq n).st == .kill && (s.lq n).kills.isEmpty then .next (s.lqNext n)
  else if n < 64 && s.lqRuns n && (s.lq n).st == .none && s.lqHead n != s.lqTail n then
    match s.takePacket n with
    | .ok s => .next s
    | .error e => .next (s.lqStop n e)
  else .next s

/-! Packets that wait (R52, R53, R56, R69, R204). -/

/-- The queue's packet waits in a state. -/
def State.lqIn (s : State) (n : Nat) (st : PktSt) : Bool := s.lqRuns n && (s.lq n).st == st

/-- WAIT_PACKET_COMPLETE (R53, R69): a kept task goes to EMPTY. -/
def execWaitPacketComplete (n : Nat) (s : State) : Out :=
  let key := 65536 * n + bits (pktWord (s.lq n).pkt 2) 15 0
  let t := s.task key
  if s.lqIn n .wait && (t.st == .done || t.st == .empty) then
    let s := if t.st = .done then (s.setTask key { t with w2 := setBits t.w2 34 34 0 }).leaveDone key else s
    .next (s.lqNext n)
  else .next s

/-- The words of a per-launch record, from 0x000 on (R204). -/
def State.record (s : State) (n : Nat) : List Word :=
  let b := SMap.get Bank.reset s.hub.bank n
  [BitVec.ofNat 64 (1 + n * 256), BitVec.ofNat 64 b.start, BitVec.ofNat 64 b.freeze, 0, 0, 0, 0, 0] ++
  (List.range 32).map (fun k => s.hreg (oCounter n k)) ++
  [b.use0, b.use1, b.use2, b.use3, b.all0, b.all1, b.all2, b.all3].map (BitVec.ofNat 64) ++
  List.replicate 16 0

/-- Write the words of a record in the slot's address space. -/
def State.writeRecord (s : State) (n va : Nat) : List Word → Except Trap State
  | [] => .ok s
  | w :: l =>
    match ringWrite s n 0 va 8 w.toNat with
    | .ok s => s.writeRecord n (va + 8) l
    | .error t => .error t

/-- COUNTER_FREEZE (R204): after earlier work the bank stops and its record is written. -/
def execCounterFreeze (n : Nat) (s : State) : Out :=
  if s.lqIn n .stop && (s.lq n).out.isEmpty then
    let b := SMap.get Bank.reset s.hub.bank n
    let s1 := if bit (s.hreg (oCbctl n)) 0 then
        { s.setHreg (oCbctl n) 0 with
          hub := { (s.setHreg (oCbctl n) 0).hub with bank := SMap.set Bank.reset s.hub.bank n { b with freeze := s.clk } } }
      else s
    match s1.writeRecord n (bits (pktWord (s.lq n).pkt 1) 54 0) (s1.record n) with
    | .ok s => .next (s.lqNext n)
    | .error _ => .next (s.lqStop n errFault)
  else .next s

/-- What FENCE covers is complete at POOL (R53): the writes that the harts of earlier root tasks had read or waited for,
and those harts' own writes and copies (DEDUCED, log entry 20). -/
def State.fenceCovers (s : State) (q : LQueue) : Bool :=
  (q.obs.all fun id => (s.placeOf id).isNone) && !(s.flight.any fun e => q.ended.contains e.hid) &&
  !(s.copies.any fun c => q.ended.contains c.2.hid)

/-- FENCE_RELEASE (R53): after earlier work, the POOL release of the tasks waited for; then the value and the
vector. -/
def execFenceRelease (n : Nat) (s : State) : Out :=
  let q := s.lq n
  if s.lqIn n .fence && q.out.isEmpty && s.fenceCovers q then
    let w3 := pktWord q.pkt 3
    let s := s.setLq n { q with obs := [], ended := [] }
    let s := if bit w3 12 then
        s.writeHome (s.ringPa n (bits (pktWord q.pkt 1) 51 0)) 8 (pktWord q.pkt 2).toNat 0 1024
      else s
    let s := if bit w3 11 then { s with hub := { s.hub with msix := s.hub.msix ++ [bits w3 10 0] } } else s
    .next (s.lqNext n)
  else .next s

/-- The scratchpads of a context have no owner whose contents would stay (R116): the next context finds them
zero-filled. -/
def State.orphanCores (s : State) (n : Nat) : State :=
  { s with cores := (s.cores.map fun c => (c.1, if c.2.owner = some n then { c.2 with owner := some 64 } else c.2)).filter
                      fun c => decide (c.2 ≠ Core.reset) }

/-- CTXDROP_UNBIND (R56). -/
def execCtxdropUnbind (n : Nat) (s : State) : Out :=
  let idle := (s.tasksOf n).all fun key => (s.task key).st == .done || (s.task key).st == .empty
  if s.lqIn n .drop && idle && !(s.copies.any fun c => slotOf c.2.task == n) then
    let c := s.hreg (oCtxst n)
    let s := ((s.dropXlat (bits c 11 0) 0 (2 ^ 55)).wakeStalls).orphanCores n
    let s := (s.tasksOf n).foldl (fun s key => s.clearTask key) s
    let s := (s.setHreg (oCtxst n) (setBits c 63 63 0)).setHreg (oCbctl n) 0
    let s := s.setLq n { s.lq n with obs := [], ended := [] }
    .next (s.lqNext n)
  else .next s

/-! Pool regions (R46). -/

/-- PREGION_ATTACH (R46): a write of state ATTACHED. -/
def execPregionAttach (n : Nat) (v : Word) (s : State) : Out :=
  if n < 1024 then .next (s.hubStore (oPregion n) (setBits v 63 62 1) 1024) else .next s
/-- PREGION_FREE (R46): a write of state FREE. -/
def execPregionFree (n : Nat) (v : Word) (s : State) : Out :=
  if n < 1024 then .next (s.hubStore (oPregion n) (setBits v 63 62 0) 1024) else .next s

/-- IDENTITY_CHECK_DONE (R46): within its bound the entry reads ATTACHED; otherwise it stays FREE with a report. -/
def execIdentityCheckDone (region : Nat) (ok : Bool) (s : State) : Out :=
  match s.pool.checks.find? fun c => c.1 == region && !c.2.1 with
  | some c =>
    let s := s.endCheck region
    if ok && s.inBound c.2.2 then
      let w := s.hreg (oPregion region)
      let s := s.setHreg (oPregion region) (setBits w 63 62 1)
      .next { s with pool := { s.pool with identity := SMap.set 0 s.pool.identity region
                                             (Config.identityOf (bits w 59 48)) } }
    else .next (s.reportRegion region true)
  | none => .next s

/-- IDENTITY_CHECK_ABANDON (R46, R47): a check that has not completed within 100 ms counts as failed. -/
def execIdentityCheckAbandon (region : Nat) (s : State) : Out :=
  match s.pool.checks.find? fun c => c.1 == region with
  | some c => if c.2.2 + checkBound ≤ s.clk then .next ((s.endCheck region).reportRegion region true) else .next s
  | none => .next s

end Sys2Proof.Machine
end

