-- ==== Sys2Proof/Machine/Issue.lean ====
section
/-!
DEFINITION. When a hart issues, and what it issues: interlocks with reads that are held and with engine copies,
the end of a wait, boundary stops, breakpoints (R133, R141, R206, R236, R254, R270, R271, R327, R328).
-/
namespace Sys2Proof.Machine

/-- The registers of an instruction: scalar registers that it reads or writes, vector registers that it names, those of
them that it writes, and predicates that it writes. -/
structure Uses where
  x : List Nat
  v : List Nat
  vw : List Nat
  pw : List Nat

def Uses.none : Uses := ⟨[], [], [], []⟩

/-- The registers of an EV word, by its operation (R250, R308). -/
def evUses (op : EvOp) (d a b c : Nat) (sb : Bool) : Uses :=
  let y : List Nat := if sb then [] else [b]
  let x : List Nat := if sb then [b] else []
  match op with
  | .vadd | .vsub | .vmul | .vmin | .vmax | .vand | .vor | .vxor | .vshl | .vshr => ⟨x, d :: a :: y, [d], []⟩
  | .vfma | .vfms | .vfnma | .vmacw => ⟨x, d :: a :: c :: y, [d], []⟩
  | .unary | .vscan _ | .vscanSeg _ | .vrev | .vsqueeze | .vspread | .vconf | .vcvt | .vwiden => ⟨[], [d, a], [d], []⟩
  | .vsel | .vredsum | .vredsumOrd | .vredmin | .vredmax | .vredand | .vredor | .vperm | .vzip | .vunzip =>
    ⟨[], [d, a, b], [d], []⟩
  | .vsplat => ⟨[b], [d], [d], []⟩
  | .vid | .vrank => ⟨[], [d], [d], []⟩
  | .vcmp _ => ⟨x, a :: y, [], [d % 16]⟩
  | .vraise | .vlower | .vnarrow => ⟨[b], [d, a], [d], []⟩
  | .vpart => ⟨[], [a], [], [d % 16]⟩
  | .vlast | .vfirst => ⟨[d], [a], [], []⟩
  | .pcnt | .pfirst => ⟨[d], [], [], []⟩
  | .vcuti | .vcutx | .pand | .por | .pxor | .pnot | .pandn | .pafter | .pset | .pclr => ⟨[], [], [], [d % 16]⟩

/-- The registers of each instruction. -/
def usesOf (i : Instr) : Uses :=
  match i with
  | .deviceReset _ _ _ => Uses.none
  | .hostLinkTrain _ _ => Uses.none
  | .fabricIdAssign _ => Uses.none
  | .flitCrcError _ _ _ => Uses.none
  | .mbawynLaneSpare _ => Uses.none
  | .linkRetrainDone _ => Uses.none
  | .linkRetire _ => Uses.none
  | .filterEntryFree _ => Uses.none
  | .filterProbeTimeout _ => Uses.none
  | .deviceFenced => Uses.none
  | .fenceCleared => Uses.none
  | .hbmChannelRetrain _ _ => Uses.none
  | .hbmRetrainDone _ _ => Uses.none
  | .coreFail _ => Uses.none
  | .coreQuiesce _ => Uses.none
  | .poolPortDown _ => Uses.none
  | .poolRerouteDone _ _ => Uses.none
  | .rerouteTimeout _ => Uses.none
  | .poolPathReturn _ => Uses.none
  | .reattachCheckDone _ _ => Uses.none
  | .quarantineWritebackDone _ => Uses.none
  | .graceExpiry _ => Uses.none
  | .bisnp _ _ _ _ => Uses.none
  | .poolWriteAck _ => Uses.none
  | .dynamicCapacityRelease _ => Uses.none
  | .attestationRequest _ _ => Uses.none
  | .gets _ _ _ _ => Uses.none
  | .geto _ _ _ _ => Uses.none
  | .upg _ _ _ _ => Uses.none
  | .putd _ _ _ => Uses.none
  | .pinv _ _ => Uses.none
  | .pdwn _ _ => Uses.none
  | .data _ _ => Uses.none
  | .grant _ _ => Uses.none
  | .ack _ _ => Uses.none
  | .absent _ _ => Uses.none
  | .probeTimeout _ _ => Uses.none
  | .controlTimeout _ => Uses.none
  | .patrolScrub _ _ => Uses.none
  | .roustaboutWriteback _ _ => Uses.none
  | .powerCapUpdate _ _ => Uses.none
  | .gatingMarkTimeout _ _ => Uses.none
  | .l2WayGate _ _ => Uses.none
  | .scratchpadGate _ => Uses.none
  | .wakeComplete _ _ _ => Uses.none
  | .gangPlacement _ => Uses.none
  | .gangReserve _ => Uses.none
  | .workSteal _ => Uses.none
  | .arrivalPreemption _ _ => Uses.none
  | .timeSliceExpiry _ _ => Uses.none
  | .preemption _ _ => Uses.none
  | .rePlacement _ => Uses.none
  | .pendingTableFit _ _ => Uses.none
  | .interruptDelivery _ _ => Uses.none
  | .deferredFaultRaise _ => Uses.none
  | .registerSpill _ _ => Uses.none
  | .memoryRead _ _ => Uses.none
  | .drain _ _ => Uses.none
  | .ticket _ => Uses.none
  | .engineChunk _ _ _ => Uses.none
  | .stripLand _ _ => Uses.none
  | .engineMigRetry _ _ => Uses.none
  | .waitTimeout _ => Uses.none
  | .pcSample _ _ => Uses.none
  | .lqdbDoorbell _ _ => Uses.none
  | .lqbaseWrite _ _ => Uses.none
  | .lqctlEnable _ _ => Uses.none
  | .lqctlRst _ _ => Uses.none
  | .packetFetch _ => Uses.none
  | .waitPacketComplete _ => Uses.none
  | .counterFreeze _ => Uses.none
  | .fenceRelease _ => Uses.none
  | .ctxdropUnbind _ => Uses.none
  | .pregionAttach _ _ => Uses.none
  | .identityCheckDone _ _ => Uses.none
  | .identityCheckAbandon _ => Uses.none
  | .pregionFree _ _ => Uses.none
  | .fabstRejoin => Uses.none
  | .swint _ => Uses.none
  | .tsctlWrite _ _ => Uses.none
  | .tspartWrite _ _ => Uses.none
  | .debugSetWrite _ _ => Uses.none
  | .dbghartHalt _ => Uses.none
  | .dbgdatRead => Uses.none
  | .dbgdatWrite _ => Uses.none
  | .trctlWrite _ _ => Uses.none
  | .hubRegisterWrite _ _ _ _ => Uses.none
  | .xinvComplete _ => Uses.none
  | .cAdd d b => ⟨[d.val, b.val], [], [], []⟩
  | .cSub d b => ⟨[d.val, b.val], [], [], []⟩
  | .cAnd d b => ⟨[d.val, b.val], [], [], []⟩
  | .cOr d b => ⟨[d.val, b.val], [], [], []⟩
  | .cXor d b => ⟨[d.val, b.val], [], [], []⟩
  | .cMv d b => ⟨[d.val, b.val], [], [], []⟩
  | .cJlr d b => ⟨[d.val, b.val], [], [], []⟩
  | .cAddi d _ => ⟨[d.val], [], [], []⟩
  | .cAddiX0 d _ => ⟨[d.val], [], [], []⟩
  | .cShli d _ => ⟨[d.val], [], [], []⟩
  | .cShri d _ => ⟨[d.val], [], [], []⟩
  | .cSari d _ => ⟨[d.val], [], [], []⟩
  | .cAndi d _ => ⟨[d.val], [], [], []⟩
  | .cLd64 d a _ => ⟨[d.val, a.val], [], [], []⟩
  | .cSt64 s a _ => ⟨[s.val, a.val], [], [], []⟩
  | .cBeq a _ => ⟨[a.val], [], [], []⟩
  | .cBne a _ => ⟨[a.val], [], [], []⟩
  | .cJ _ => ⟨[], [], [], []⟩
  | .cNop => ⟨[], [], [], []⟩
  | .add d a b => ⟨[d.val, a.val, b.val], [], [], []⟩
  | .sub d a b => ⟨[d.val, a.val, b.val], [], [], []⟩
  | .and d a b => ⟨[d.val, a.val, b.val], [], [], []⟩
  | .or d a b => ⟨[d.val, a.val, b.val], [], [], []⟩
  | .xor d a b => ⟨[d.val, a.val, b.val], [], [], []⟩
  | .shl d a b => ⟨[d.val, a.val, b.val], [], [], []⟩
  | .shr d a b => ⟨[d.val, a.val, b.val], [], [], []⟩
  | .sar d a b => ⟨[d.val, a.val, b.val], [], [], []⟩
  | .slt d a b => ⟨[d.val, a.val, b.val], [], [], []⟩
  | .sltn d a b => ⟨[d.val, a.val, b.val], [], [], []⟩
  | .mul d a b => ⟨[d.val, a.val, b.val], [], [], []⟩
  | .mulh d a b => ⟨[d.val, a.val, b.val], [], [], []⟩
  | .mulhn d a b => ⟨[d.val, a.val, b.val], [], [], []⟩
  | .div d a b => ⟨[d.val, a.val, b.val], [], [], []⟩
  | .divn d a b => ⟨[d.val, a.val, b.val], [], [], []⟩
  | .rem d a b => ⟨[d.val, a.val, b.val], [], [], []⟩
  | .remn d a b => ⟨[d.val, a.val, b.val], [], [], []⟩
  | .min d a b => ⟨[d.val, a.val, b.val], [], [], []⟩
  | .max d a b => ⟨[d.val, a.val, b.val], [], [], []⟩
  | .minn d a b => ⟨[d.val, a.val, b.val], [], [], []⟩
  | .maxn d a b => ⟨[d.val, a.val, b.val], [], [], []⟩
  | .clz d a => ⟨[d.val, a.val], [], [], []⟩
  | .ctz d a => ⟨[d.val, a.val], [], [], []⟩
  | .popc d a => ⟨[d.val, a.val], [], [], []⟩
  | .pcrel d _ => ⟨[d.val], [], [], []⟩
  | .imhi d _ => ⟨[d.val], [], [], []⟩
  | .addi d a _ => ⟨[d.val, a.val], [], [], []⟩
  | .andi d a _ => ⟨[d.val, a.val], [], [], []⟩
  | .ori d a _ => ⟨[d.val, a.val], [], [], []⟩
  | .xori d a _ => ⟨[d.val, a.val], [], [], []⟩
  | .slti d a _ => ⟨[d.val, a.val], [], [], []⟩
  | .shli d a _ => ⟨[d.val, a.val], [], [], []⟩
  | .shri d a _ => ⟨[d.val, a.val], [], [], []⟩
  | .sari d a _ => ⟨[d.val, a.val], [], [], []⟩
  | .ld8 d a _ => ⟨[d.val, a.val], [], [], []⟩
  | .ld16 d a _ => ⟨[d.val, a.val], [], [], []⟩
  | .ld32 d a _ => ⟨[d.val, a.val], [], [], []⟩
  | .ld64 d a _ => ⟨[d.val, a.val], [], [], []⟩
  | .ld8z d a _ => ⟨[d.val, a.val], [], [], []⟩
  | .ld16z d a _ => ⟨[d.val, a.val], [], [], []⟩
  | .ld32z d a _ => ⟨[d.val, a.val], [], [], []⟩
  | .ldAcq d a _ _ _ => ⟨[d.val, a.val], [], [], []⟩
  | .st8 s a _ => ⟨[s.val, a.val], [], [], []⟩
  | .st16 s a _ => ⟨[s.val, a.val], [], [], []⟩
  | .st32 s a _ => ⟨[s.val, a.val], [], [], []⟩
  | .st64 s a _ => ⟨[s.val, a.val], [], [], []⟩
  | .stRel t a _ _ _ => ⟨[t.val, a.val], [], [], []⟩
  | .beq a b _ => ⟨[a.val, b.val], [], [], []⟩
  | .bne a b _ => ⟨[a.val, b.val], [], [], []⟩
  | .blt a b _ => ⟨[a.val, b.val], [], [], []⟩
  | .bge a b _ => ⟨[a.val, b.val], [], [], []⟩
  | .bltn a b _ => ⟨[a.val, b.val], [], [], []⟩
  | .bgen a b _ => ⟨[a.val, b.val], [], [], []⟩
  | .jl l _ => ⟨[l.val], [], [], []⟩
  | .jlr l a _ => ⟨[l.val, a.val], [], [], []⟩
  | .amoAdd d a b _ _ _ _ => ⟨[d.val, a.val, b.val], [], [], []⟩
  | .amoAnd d a b _ _ _ _ => ⟨[d.val, a.val, b.val], [], [], []⟩
  | .amoOr d a b _ _ _ _ => ⟨[d.val, a.val, b.val], [], [], []⟩
  | .amoXor d a b _ _ _ _ => ⟨[d.val, a.val, b.val], [], [], []⟩
  | .amoMin d a b _ _ _ _ _ => ⟨[d.val, a.val, b.val], [], [], []⟩
  | .amoMax d a b _ _ _ _ _ => ⟨[d.val, a.val, b.val], [], [], []⟩
  | .amoSwap d a b _ _ _ _ => ⟨[d.val, a.val, b.val], [], [], []⟩
  | .amoCas d a b _ _ _ _ => ⟨[d.val, a.val, b.val], [], [], []⟩
  | .fadd d a b _ => ⟨[d.val, a.val, b.val], [], [], []⟩
  | .fsub d a b _ => ⟨[d.val, a.val, b.val], [], [], []⟩
  | .fmul d a b _ => ⟨[d.val, a.val, b.val], [], [], []⟩
  | .fdiv d a b _ => ⟨[d.val, a.val, b.val], [], [], []⟩
  | .fsqrt d a _ => ⟨[d.val, a.val], [], [], []⟩
  | .fma d a b _ => ⟨[d.val, a.val, b.val], [], [], []⟩
  | .fmin d a b _ => ⟨[d.val, a.val, b.val], [], [], []⟩
  | .fmax d a b _ => ⟨[d.val, a.val, b.val], [], [], []⟩
  | .fcmpEq d a b _ => ⟨[d.val, a.val, b.val], [], [], []⟩
  | .fcmpLt d a b _ => ⟨[d.val, a.val, b.val], [], [], []⟩
  | .fcmpLe d a b _ => ⟨[d.val, a.val, b.val], [], [], []⟩
  | .fcmpUn d a b _ => ⟨[d.val, a.val, b.val], [], [], []⟩
  | .fcvt d a _ _ => ⟨[d.val, a.val], [], [], []⟩
  | .fclass d a _ => ⟨[d.val, a.val], [], [], []⟩
  | .nop => ⟨[], [], [], []⟩
  | .trap _ => ⟨[], [], [], []⟩
  | .eret => ⟨[], [], [], []⟩
  | .wait a => ⟨[a.val], [], [], []⟩
  | .fenceAcq _ => ⟨[], [], [], []⟩
  | .fenceRel _ _ => ⟨[], [], [], []⟩
  | .fenceRw _ _ => ⟨[], [], [], []⟩
  | .xinv a b => ⟨[a.val, b.val], [], [], []⟩
  | .xinvAll => ⟨[], [], [], []⟩
  | .cacheopWb a => ⟨[a.val], [], [], []⟩
  | .cacheopWbinv a => ⟨[a.val], [], [], []⟩
  | .cacheopInv a => ⟨[a.val], [], [], []⟩
  | .cacheopIfetch => ⟨[], [], [], []⟩
  | .brk => ⟨[], [], [], []⟩
  | .halt => ⟨[], [], [], []⟩
  | .mrd d _ => ⟨[d.val], [], [], []⟩
  | .mwr a _ => ⟨[a.val], [], [], []⟩
  | .setvl d a _ => ⟨[d.val, a.val], [], [], []⟩
  | .setvlG d a _ => ⟨[d.val, a.val], [], [], []⟩
  | .vloop l c _ _ => ⟨[l.val, c.val], [], [], []⟩
  | .vloopPar l c _ _ => ⟨[l.val, c.val], [], [], []⟩
  | .vloopLong _ l c _ _ => ⟨[l.val, c.val], [], [], []⟩
  | .vend a => ⟨[a.val], [], [], []⟩
  | .vtag d _ => ⟨[], [d.val], [d.val], []⟩
  | .vadd d a b _ _ _ => ⟨[], [d.val, a.val, b.val], [d.val], []⟩
  | .vsub d a b _ _ _ => ⟨[], [d.val, a.val, b.val], [d.val], []⟩
  | .vmul d a b _ _ _ => ⟨[], [d.val, a.val, b.val], [d.val], []⟩
  | .vmin d a b _ _ _ => ⟨[], [d.val, a.val, b.val], [d.val], []⟩
  | .vmax d a b _ _ _ => ⟨[], [d.val, a.val, b.val], [d.val], []⟩
  | .vand d a b _ _ _ => ⟨[], [d.val, a.val, b.val], [d.val], []⟩
  | .vor d a b _ _ _ => ⟨[], [d.val, a.val, b.val], [d.val], []⟩
  | .vxor d a b _ _ _ => ⟨[], [d.val, a.val, b.val], [d.val], []⟩
  | .vaddVx d a x _ _ => ⟨[x.val], [d.val, a.val], [d.val], []⟩
  | .vsubVx d a x _ _ => ⟨[x.val], [d.val, a.val], [d.val], []⟩
  | .vmulVx d a x _ _ => ⟨[x.val], [d.val, a.val], [d.val], []⟩
  | .vminVx d a x _ _ => ⟨[x.val], [d.val, a.val], [d.val], []⟩
  | .vmaxVx d a x _ _ => ⟨[x.val], [d.val, a.val], [d.val], []⟩
  | .vandVx d a x _ _ => ⟨[x.val], [d.val, a.val], [d.val], []⟩
  | .vorVx d a x _ _ => ⟨[x.val], [d.val, a.val], [d.val], []⟩
  | .vxorVx d a x _ _ => ⟨[x.val], [d.val, a.val], [d.val], []⟩
  | .vfma d a b _ _ _ => ⟨[], [d.val, a.val, b.val], [d.val], []⟩
  | .vfms d a b _ _ _ => ⟨[], [d.val, a.val, b.val], [d.val], []⟩
  | .vfnma d a b _ _ _ => ⟨[], [d.val, a.val, b.val], [d.val], []⟩
  | .vmacw d a b _ _ _ => ⟨[], [d.val, a.val, b.val], [d.val], []⟩
  | .vfmaVx d a x _ _ => ⟨[x.val], [d.val, a.val], [d.val], []⟩
  | .vfmsVx d a x _ _ => ⟨[x.val], [d.val, a.val], [d.val], []⟩
  | .vfnmaVx d a x _ _ => ⟨[x.val], [d.val, a.val], [d.val], []⟩
  | .vmacwVx d a x _ _ => ⟨[x.val], [d.val, a.val], [d.val], []⟩
  | .vneg d a _ _ => ⟨[], [d.val, a.val], [d.val], []⟩
  | .vabs d a _ _ => ⟨[], [d.val, a.val], [d.val], []⟩
  | .vsqrt d a _ _ => ⟨[], [d.val, a.val], [d.val], []⟩
  | .vrcp d a _ _ => ⟨[], [d.val, a.val], [d.val], []⟩
  | .vrsqrt d a _ _ => ⟨[], [d.val, a.val], [d.val], []⟩
  | .vexp2 d a _ _ => ⟨[], [d.val, a.val], [d.val], []⟩
  | .vclz d a _ _ => ⟨[], [d.val, a.val], [d.val], []⟩
  | .vpopc d a _ _ => ⟨[], [d.val, a.val], [d.val], []⟩
  | .vclass d a _ _ => ⟨[], [d.val, a.val], [d.val], []⟩
  | .vmv d a _ _ => ⟨[], [d.val, a.val], [d.val], []⟩
  | .vsel d a b _ _ _ => ⟨[], [d.val, a.val, b.val], [d.val], []⟩
  | .vsplat d x _ => ⟨[x.val], [d.val], [d.val], []⟩
  | .vid d _ => ⟨[], [d.val], [d.val], []⟩
  | .vshl d a b _ _ _ => ⟨[], [d.val, a.val, b.val], [d.val], []⟩
  | .vshr d a b _ _ _ => ⟨[], [d.val, a.val, b.val], [d.val], []⟩
  | .vshlVx d a x _ _ => ⟨[x.val], [d.val, a.val], [d.val], []⟩
  | .vshrVx d a x _ _ => ⟨[x.val], [d.val, a.val], [d.val], []⟩
  | .vcmp q a b _ _ _ _ => ⟨[], [a.val, b.val], [], [q.val]⟩
  | .vcmpVx q a x _ _ _ => ⟨[x.val], [a.val], [], [q.val]⟩
  | .vredsum d a b _ _ _ => ⟨[], [d.val, a.val, b.val], [d.val], []⟩
  | .vredsumOrd d a b _ _ _ => ⟨[], [d.val, a.val, b.val], [d.val], []⟩
  | .vredmin d a b _ _ _ => ⟨[], [d.val, a.val, b.val], [d.val], []⟩
  | .vredmax d a b _ _ _ => ⟨[], [d.val, a.val, b.val], [d.val], []⟩
  | .vredand d a b _ _ _ => ⟨[], [d.val, a.val, b.val], [d.val], []⟩
  | .vredor d a b _ _ _ => ⟨[], [d.val, a.val, b.val], [d.val], []⟩
  | .vscan d a _ _ _ => ⟨[], [d.val, a.val], [d.val], []⟩
  | .vscanSeg d a _ _ _ _ => ⟨[], [d.val, a.val], [d.val], []⟩
  | .vraise d a x _ _ => ⟨[x.val], [d.val, a.val], [d.val], []⟩
  | .vlower d a x _ _ => ⟨[x.val], [d.val, a.val], [d.val], []⟩
  | .vperm d a b _ _ _ => ⟨[], [d.val, a.val, b.val], [d.val], []⟩
  | .vrev d a _ _ => ⟨[], [d.val, a.val], [d.val], []⟩
  | .vzip d a b _ _ _ => ⟨[], [d.val, a.val, b.val], [d.val], []⟩
  | .vunzip d a b _ _ _ => ⟨[], [d.val, a.val, b.val], [d.val], []⟩
  | .vsqueeze d a _ _ => ⟨[], [d.val, a.val], [d.val], []⟩
  | .vspread d a _ _ => ⟨[], [d.val, a.val], [d.val], []⟩
  | .vrank d _ => ⟨[], [d.val], [d.val], []⟩
  | .vconf d a _ _ => ⟨[], [d.val, a.val], [d.val], []⟩
  | .vpart q a _ _ => ⟨[], [a.val], [], [q.val]⟩
  | .vcuti q _ _ => ⟨[], [], [], [q.val]⟩
  | .vcutx q _ _ => ⟨[], [], [], [q.val]⟩
  | .vlast d a _ _ => ⟨[d.val], [a.val], [], []⟩
  | .vfirst d a _ _ => ⟨[d.val], [a.val], [], []⟩
  | .vcvt d a _ _ _ => ⟨[], [d.val, a.val], [d.val], []⟩
  | .vnarrow d a x _ _ => ⟨[x.val], [d.val, a.val], [d.val], []⟩
  | .vwiden d a _ _ => ⟨[], [d.val, a.val], [d.val], []⟩
  | .evExtended op d a b c _ _ _ _ sb => evUses op d.val a.val b.val c.val sb
  | .vmulh d a b _ _ _ sb => evUses .vadd d.val a.val b.val 0 sb
  | .vdiv d a b _ _ _ sb => evUses .vadd d.val a.val b.val 0 sb
  | .vrem d a b _ _ _ sb => evUses .vadd d.val a.val b.val 0 sb
  | .vsadd d a b _ _ _ sb => evUses .vadd d.val a.val b.val 0 sb
  | .vssub d a b _ _ _ sb => evUses .vadd d.val a.val b.val 0 sb
  | .vavg d a b _ _ _ sb => evUses .vadd d.val a.val b.val 0 sb
  | .vabsd d a b _ _ _ sb => evUses .vadd d.val a.val b.val 0 sb
  | .vmulhr d a b _ _ _ sb => evUses .vadd d.val a.val b.val 0 sb
  | .vqnt d s a _ _ _ => ⟨[], [d.val, s.val, a.val], [d.val, s.val], []⟩
  | .vqnte d s a _ _ x y _ _ => ⟨[x.val, y.val], [d.val, s.val, a.val], [d.val, s.val], []⟩
  | .vdqnt d a s _ x _ _ _ => ⟨[x.val], [d.val, a.val, s.val], [d.val], []⟩
  | .vgathw d w i x o _ _ => ⟨[x.val], [d.val, w.val, i.val], [d.val, w.val], [o.val]⟩
  | .vld v b _ _ _ => ⟨[b.val], [v.val], [v.val], []⟩
  | .vlds v b s _ _ _ => ⟨[b.val, s.val], [v.val], [v.val], []⟩
  | .vldx v b i _ _ _ => ⟨[b.val], [v.val, i.val], [v.val], []⟩
  | .vldseg v b _ _ _ _ => ⟨[b.val], [v.val], [v.val], []⟩
  | .vst v b _ _ _ => ⟨[b.val], [v.val], [], []⟩
  | .vsts v b s _ _ _ => ⟨[b.val, s.val], [v.val], [], []⟩
  | .vstx v b i _ _ _ => ⟨[b.val], [v.val, i.val], [], []⟩
  | .vstseg v b _ _ _ _ => ⟨[b.val], [v.val], [], []⟩
  | .vldLong v b x .strided _ _ _ _ _ _ _ => ⟨[b.val, x.val], [v.val], [v.val], []⟩
  | .vldLong v b x .indexed _ _ _ _ _ _ _ => ⟨[b.val], [v.val, x.val], [v.val], []⟩
  | .vldLong v b _ _ _ _ _ _ _ _ _ => ⟨[b.val], [v.val], [v.val], []⟩
  | .vstLong v b x .strided _ _ _ _ _ _ _ => ⟨[b.val, x.val], [v.val], [], []⟩
  | .vstLong v b x .indexed _ _ _ _ _ _ _ => ⟨[b.val], [v.val, x.val], [], []⟩
  | .vstLong v b _ _ _ _ _ _ _ _ _ => ⟨[b.val], [v.val], [], []⟩
  | .vamo v b i _ _ _ _ => ⟨[b.val], [v.val, i.val], [v.val], []⟩
  | .vsave v a => ⟨[a.val], [v.val], [], []⟩
  | .vrest v a => ⟨[a.val], [v.val], [v.val], []⟩
  | .pand d _ _ _ => ⟨[], [], [], [d.val]⟩
  | .por d _ _ _ => ⟨[], [], [], [d.val]⟩
  | .pxor d _ _ _ => ⟨[], [], [], [d.val]⟩
  | .pnot d _ _ => ⟨[], [], [], [d.val]⟩
  | .pandn d _ _ _ => ⟨[], [], [], [d.val]⟩
  | .pafter d _ _ => ⟨[], [], [], [d.val]⟩
  | .pset d _ => ⟨[], [], [], [d.val]⟩
  | .pclr d => ⟨[], [], [], [d.val]⟩
  | .pcnt d _ _ => ⟨[d.val], [], [], []⟩
  | .pfirst d _ _ => ⟨[d.val], [], [], []⟩
  | .cpy d s n e => ⟨[d.val, s.val, n.val, e.val], [], [], []⟩
  | .cpyr _ a _ _ => ⟨[a.val], [], [], []⟩
  | .cpyw _ a _ _ => ⟨[a.val], [], [], []⟩
  | .cpyx _ x s => ⟨[x.val], [s.val], [], []⟩
  | .cpym s m => ⟨[m.val], [s.val], [], []⟩
  | .vrecv d => ⟨[], [d.val], [d.val], []⟩
  | .vstream b s => ⟨[b.val, s.val], [], [], []⟩
  | .pwait _ => ⟨[], [], [], []⟩
  | .arw d a s => ⟨[d.val, a.val, s.val], [], [], []⟩
  | .await d a s => ⟨[d.val, a.val, s.val], [], [], []⟩
  | .mcfg a b => ⟨[a.val, b.val], [], [], []⟩
  | .mzero _ => ⟨[], [], [], []⟩
  | .mop _ va vb sa sb a b _ _ _ => ⟨[a.val, b.val], [va.val, vb.val, sa.val, sb.val], [], []⟩
  | .mops _ va vb sa sb a b _ _ _ _ _ vm => ⟨[a.val, b.val], [va.val, vb.val, sa.val, sb.val, vm.val], [], []⟩
  | .mrow _ d a b _ => ⟨[a.val, b.val], [d.val], [d.val], []⟩
  | .mwrow _ v a b _ _ => ⟨[a.val, b.val], [v.val], [], []⟩
  | .mld _ a b => ⟨[a.val, b.val], [], [], []⟩
  | .mst _ a b => ⟨[a.val, b.val], [], [], []⟩
  | .msave a => ⟨[a.val], [], [], []⟩
  | .mrest a => ⟨[a.val], [], [], []⟩
  | .mjoin _ a b => ⟨[a.val, b.val], [], [], []⟩
  | .msplit _ a => ⟨[a.val], [], [], []⟩
  | .olset a b => ⟨[a.val, b.val], [], [], []⟩
  | .olclr a => ⟨[a.val], [], [], []⟩
  | .olcnt a b => ⟨[a.val, b.val], [], [], []⟩
  | .tspawn a b => ⟨[a.val, b.val], [], [], []⟩
  | .tsig a b => ⟨[a.val, b.val], [], [], []⟩
  | .tdone => ⟨[], [], [], []⟩
  | .tkill a => ⟨[a.val], [], [], []⟩
  | .tyield => ⟨[], [], [], []⟩
  | .bar => ⟨[], [], [], []⟩
  | .barinit a => ⟨[a.val], [], [], []⟩
  | .qpush a b => ⟨[a.val, b.val], [], [], []⟩
  | .qpop a b => ⟨[a.val, b.val], [], [], []⟩
  | .qsteal d a b => ⟨[d.val, a.val, b.val], [], [], []⟩
  | .talloc a b => ⟨[a.val, b.val], [], [], []⟩
  | .tst s a => ⟨[a.val], [s.val], [], []⟩
  | .tld d a => ⟨[a.val], [d.val], [d.val], []⟩
  | .tpost a b => ⟨[a.val, b.val], [], [], []⟩
  | .tdrop a => ⟨[a.val], [], [], []⟩
  | .linkOrPortTrains _ _ _ _ => Uses.none
  | .zeroFillComplete _ => Uses.none
  | .nonInstruction _ => Uses.none
  | .fetchFault _ => Uses.none

/-- The predicate that masks an instruction's elements; p0 where none does (R253). -/
def maskOf (i : Instr) : PR :=
  match i with
  | .vadd _ _ _ p _ _ => p
  | .vsub _ _ _ p _ _ => p
  | .vmul _ _ _ p _ _ => p
  | .vmin _ _ _ p _ _ => p
  | .vmax _ _ _ p _ _ => p
  | .vand _ _ _ p _ _ => p
  | .vor _ _ _ p _ _ => p
  | .vxor _ _ _ p _ _ => p
  | .vaddVx _ _ _ p _ => p
  | .vsubVx _ _ _ p _ => p
  | .vmulVx _ _ _ p _ => p
  | .vminVx _ _ _ p _ => p
  | .vmaxVx _ _ _ p _ => p
  | .vandVx _ _ _ p _ => p
  | .vorVx _ _ _ p _ => p
  | .vxorVx _ _ _ p _ => p
  | .vfma _ _ _ p _ _ => p
  | .vfms _ _ _ p _ _ => p
  | .vfnma _ _ _ p _ _ => p
  | .vmacw _ _ _ p _ _ => p
  | .vfmaVx _ _ _ p _ => p
  | .vfmsVx _ _ _ p _ => p
  | .vfnmaVx _ _ _ p _ => p
  | .vmacwVx _ _ _ p _ => p
  | .vneg _ _ p _ => p
  | .vabs _ _ p _ => p
  | .vsqrt _ _ p _ => p
  | .vrcp _ _ p _ => p
  | .vrsqrt _ _ p _ => p
  | .vexp2 _ _ p _ => p
  | .vclz _ _ p _ => p
  | .vpopc _ _ p _ => p
  | .vclass _ _ p _ => p
  | .vmv _ _ p _ => p
  | .vsel _ _ _ p _ _ => p
  | .vsplat _ _ p => p
  | .vid _ p => p
  | .vshl _ _ _ p _ _ => p
  | .vshr _ _ _ p _ _ => p
  | .vshlVx _ _ _ p _ => p
  | .vshrVx _ _ _ p _ => p
  | .vcmp _ _ _ p _ _ _ => p
  | .vcmpVx _ _ _ p _ _ => p
  | .vredsum _ _ _ p _ _ => p
  | .vredsumOrd _ _ _ p _ _ => p
  | .vredmin _ _ _ p _ _ => p
  | .vredmax _ _ _ p _ _ => p
  | .vredand _ _ _ p _ _ => p
  | .vredor _ _ _ p _ _ => p
  | .vscan _ _ p _ _ => p
  | .vscanSeg _ _ _ p _ _ => p
  | .vraise _ _ _ p _ => p
  | .vlower _ _ _ p _ => p
  | .vperm _ _ _ p _ _ => p
  | .vrev _ _ p _ => p
  | .vzip _ _ _ p _ _ => p
  | .vunzip _ _ _ p _ _ => p
  | .vsqueeze _ _ p _ => p
  | .vspread _ _ p _ => p
  | .vrank _ p => p
  | .vconf _ _ p _ => p
  | .vcuti _ _ p => p
  | .vcutx _ _ p => p
  | .vlast _ _ p _ => p
  | .vfirst _ _ p _ => p
  | .vcvt _ _ _ p _ => p
  | .vnarrow _ _ _ p _ => p
  | .vwiden _ _ p _ => p
  | .evExtended _ _ _ _ _ p _ _ _ _ => p
  | .vmulh _ _ _ p _ _ _ => p
  | .vdiv _ _ _ p _ _ _ => p
  | .vrem _ _ _ p _ _ _ => p
  | .vsadd _ _ _ p _ _ _ => p
  | .vssub _ _ _ p _ _ _ => p
  | .vavg _ _ _ p _ _ _ => p
  | .vabsd _ _ _ p _ _ _ => p
  | .vmulhr _ _ _ p _ _ _ => p
  | .vqnt _ _ _ _ p _ => p
  | .vqnte _ _ _ _ _ _ _ p _ => p
  | .vdqnt _ _ _ _ _ p _ _ => p
  | .vgathw _ _ _ _ _ p _ => p
  | .vld _ _ p _ _ => p
  | .vlds _ _ _ p _ _ => p
  | .vldx _ _ _ p _ _ => p
  | .vldseg _ _ _ p _ _ => p
  | .vst _ _ p _ _ => p
  | .vsts _ _ _ p _ _ => p
  | .vstx _ _ _ p _ _ => p
  | .vstseg _ _ _ p _ _ => p
  | .vldLong _ _ _ _ _ _ _ _ _ p _ => p
  | .vstLong _ _ _ _ _ _ _ _ _ p _ => p
  | .vamo _ _ _ p _ _ _ => p
  | .pand _ _ _ p => p
  | .por _ _ _ p => p
  | .pxor _ _ _ p => p
  | .pnot _ _ p => p
  | .pandn _ _ _ p => p
  | .pafter _ _ p => p
  | .pset _ p => p
  | .pcnt _ _ p => p
  | .pfirst _ _ p => p
  | .mop _ _ _ _ _ _ _ p _ _ => p
  | .mops _ _ _ _ _ _ _ p _ _ _ _ _ => p
  | .mrow _ _ _ _ p => p
  | .mwrow _ _ _ _ p _ => p
  | _ => 0

/-- The registers of a run of n from v on. -/
def runOf (v : VR) (n : Nat) : List Nat := (List.range n).map fun k => (v.val + k) % 32

/-- The registers of the group of register r under its own tag. -/
def Hart.groupFrom (h : Hart) (r : Nat) : List Nat :=
  (List.range (groupSize (SMap.get .s32 h.tag r) h.ew)).map fun k => (r + k) % 32

/-- The runs of registers that some forms name: the fields of a segment access, the registers of a copy. -/
def Hart.runs (h : Hart) (i : Instr) : Option (List Nat) :=
  let seg (v : VR) (n : Fin 8) : List Nat := runOf v ((n.val + 1) * (h.groupFrom v.val).length)
  match i with
  | .vldseg v _ n _ _ _ => some (seg v n)
  | .vstseg v _ n _ _ _ => some (seg v n)
  | .vldLong v _ _ .segment _ _ _ _ n _ _ => some (seg v n)
  | .vstLong v _ _ .segment _ _ _ _ n _ _ => some (seg v n)
  | .cpyr v _ n _ => some (runOf v (n.val + 1))
  | .cpyw v _ n _ => some (runOf v (n.val + 1))
  | .vsave v _ => some [v.val]
  | .vrest v _ => some [v.val]
  | _ => none

/-- The vector registers that an instruction of a hart names, which take frame slots (R105). -/
def State.named (s : State) (hid : Nat) (i : Instr) : List Nat :=
  let h := s.hart hid
  (h.runs i).getD ((usesOf i).v.flatMap h.groupFrom).eraseDups

/-- The vector registers that an instruction reads: those it names, less those it only writes; a copy's chunks read theirs
later, and the scales of a `mop` count where its operands are scaled. -/
def Hart.reads (h : Hart) (i : Instr) : List Nat :=
  let u := usesOf i
  let scaled (a b : VR) : Bool := pairKind (h.tagOf a) (h.tagOf b) == some 2
  match i with
  | .cpyr .. | .cpyw .. | .vldseg .. => []
  | .vldLong _ _ _ .segment _ _ _ _ _ _ _ => []
  | .vstseg .. | .vsave .. => (h.runs i).getD []
  | .vstLong _ _ _ .segment _ _ _ _ _ _ _ => (h.runs i).getD []
  | .vfma .. | .vfms .. | .vfnma .. | .vmacw .. => u.v.flatMap h.groupFrom
  | .vfmaVx .. | .vfmsVx .. | .vfnmaVx .. | .vmacwVx .. => u.v.flatMap h.groupFrom
  | .vamo .. => u.v.flatMap h.groupFrom
  | .mop _ va vb sa sb _ _ _ _ _ => ([va, vb] ++ if scaled va vb then [sa, sb] else []).flatMap fun r => h.groupFrom r.val
  | .mops _ va vb sa sb _ _ _ _ _ _ _ vm =>
    ([va, vb, vm] ++ if scaled va vb then [sa, sb] else []).flatMap fun r => h.groupFrom r.val
  | _ => (u.vw.foldl (fun l r => l.erase r) u.v).flatMap h.groupFrom

/-- The vector registers that an instruction has written: the groups of its destinations under their tags after it; one
that has stopped part way may have written those of its result tag too. -/
def State.written (before after : State) (i : Instr) : List Nat :=
  let hid := before.cur
  let h := before.hart hid
  let h' := after.hart hid
  match i with
  | .vldseg .. => (h.runs i).getD []
  | .vldLong _ _ _ .segment _ _ _ _ _ _ _ => (h.runs i).getD []
  | .vrest v _ => [v.val]
  | i => (usesOf i).vw.flatMap fun r =>
    if h'.level == h.level && !h'.paused && h'.pc != h.pc then h'.groupFrom r
    else (List.range 4).map fun k => (r + k) % 32

/-- A held access delivers into a scalar register of the instruction. -/
def Uses.hits (u : Uses) (d : Dst) : Bool :=
  match d with
  | .x n _ => u.x.contains n.val
  | _ => false

/-- The destinations of a held access. -/
def BagItem.dsts (b : BagItem) : List Dst :=
  match b.act with
  | .rd d => [d]
  | .wr _ => []
  | .amo _ _ _ ups => ups.map (·.dst)

/-- A held access will deliver into one of some vector registers. -/
def State.awaited (s : State) (hid : Nat) (l : List Nat) : Bool :=
  (s.hmem hid).bag.any fun b => b.dsts.any fun d => match d.reg with | some r => l.contains r | none => false

/-- An instruction that uses the tiles: it waits for the held reads of a `mld` of its core (R345). -/
def usesTiles (i : Instr) : Bool :=
  match i with
  | .mzero .. | .mop .. | .mops .. | .mrow .. | .mwrow .. | .mld .. | .mst .. | .msave .. | .mrest .. => true
  | .mcfg .. | .mjoin .. | .msplit .. => true
  | _ => false

/-- Bytes of register n that elements below vl occupy in its group. -/
def Hart.liveBytes (h : Hart) (n : Nat) : Nat :=
  let t := SMap.get .s32 h.tag n
  min 0x4000 (ceilDiv (h.vl * t.width) 8 - n % groupSize t h.ew * 0x4000)

/-- The bytes of register n that an instruction can read: of most, those below vl; one that moves elements to other
places, or takes its registers in another shape, may read all of them. -/
def Hart.readBytes (h : Hart) (i : Instr) (n : Nat) : Nat :=
  match i with
  | .vperm .. | .vraise .. | .vlower .. | .vgathw .. | .vsave .. | .mop .. | .mops .. | .mwrow .. => 0x4000
  | .evExtended .vperm .. | .evExtended .vraise .. | .evExtended .vlower .. => 0x4000
  | _ => h.liveBytes n

/-- The elements of a copy whose chunks have not performed. -/
def Copy.pendingElems (c : Copy) : List Nat :=
  let L := match c.kind with | .cpyx => 8 | _ => c.lanes
  (List.range c.vl).filter fun i => !c.done.contains (i / max 1 L)

/-- An instruction reads an element that a `cpyx` still fills (R328). -/
def State.readsPending (s : State) (hid : Nat) (i : Instr) : Bool :=
  let h := s.hart hid
  s.copies.any fun e =>
    let c := e.2
    c.kind == .cpyx && h.task == some c.task && h.member == c.n &&
    let l := (h.reads i).filter fun r => decide (c.dst ≤ r) && decide (r < c.dst + groupSize c.tag c.ew)
    !l.isEmpty && c.pendingElems.any fun k =>
      let at_ := 0x4000 * c.dst + k * c.tag.width / 8
      l.any fun r => at_ / 0x4000 == r && decide (at_ % 0x4000 < h.readBytes i r)

/-- An instruction does not issue before the registers that it reads have their values (R133), nor past an `.sc` access
(R141), an acquire, or an access to a UC page (R135, R137). -/
def State.heldBack (s : State) (hid : Nat) (i : Instr) : Bool :=
  let u := usesOf i
  let bag := (s.hmem hid).bag
  (!bag.isEmpty && ((bag.any fun b => b.sc || b.blocks || b.dsts.any u.hits) || s.awaited hid ((s.hart hid).reads i))) ||
  (usesTiles i && s.tilesHeld (coreOf hid)) || s.readsPending hid i

/-- Registers that an instruction writes are not free: a held access of the hart delivers into them; a copy under way fills
or reads them, or has their predicate as its mask (R142, R327, R328). -/
def State.clobbers (before after : State) (i : Instr) : Bool :=
  let hid := before.cur
  let h := before.hart hid
  let u := usesOf i
  let w := if u.vw.isEmpty then [] else before.written after i
  before.awaited hid w || before.copies.any fun e =>
    let c := e.2
    let mine := c.hid == hid
    match c.kind with
    | .cpyr => mine && (u.pw.contains c.pk || w.any fun r => decide (c.dst ≤ r) && decide (r < c.dst + c.n))
    | .cpyw => mine && (u.pw.contains c.pk || w.any fun r => decide (c.src ≤ r) && decide (r < c.src + c.n) &&
        let j := (r - c.src) % groupSize c.tag c.ew
        c.pendingElems.any fun k => k * c.elemSize / 0x4000 == j)
    | .cpyx => h.task == some c.task && h.member == c.n &&
        w.any fun r => decide (c.dst ≤ r) && decide (r < c.dst + groupSize c.tag c.ew)
    | _ => false

/-- A wait ends (R270): the word was written by another agent since, or an interrupt has become deliverable.  Its
deadline is WAIT_TIMEOUT's; a `halt` ends only by a delivery, a pre-emption or the debugger (R271). -/
def State.waitEnds (s : State) (hid : Nat) : Bool :=
  match (s.hart hid).waiting with
  | .word loc stamp _ =>
    (s.deliverable hid).isSome ||
    (match loc with
     | some k =>
       let (t, who, other) := SMap.get (0, 0, 0) s.wlog (k / 8)
       decide (stamp ≤ if who = hid then other else t) && decide (0 < if who = hid then other else t)
     | none => false)
  | _ => false

/-- The breakpoint that matches the instruction at the PC (R206). -/
def State.breakAt (s : State) (hid : Nat) : Option Nat :=
  let h := s.hart hid
  match h.task with
  | none => none
  | some key => match (s.task key).dset with
    | none => none
    | some d => (List.range 8).find? fun k =>
      let w := s.dsetWord d k
      bit w 63 && (match h.level with | .u => bit w 61 | .s => bit w 62 | .m => false) &&
      bits w 54 1 * 2 == h.pc.toNat

/-- A breakpoint stops the hart, and with `all` every other member (R206). -/
def State.breakTrap (s : State) (hid k : Nat) : State :=
  let all := match (s.hart hid).task with
    | some key => match (s.task key).dset with | some d => bit (s.dsetWord d k) 60 | none => false
    | none => false
  let s := if all then s.stopOthers hid else s
  s.boundaryTrap hid .brk 2 (s.hart hid).pc.toNat false 0

/-- A stop that a hart meets before it fetches: an `all` breakpoint of another member, a deferred fault (R191), a
breakpoint of its own. -/
def State.boundaryStop (s : State) (hid : Nat) : Option State :=
  let h := s.hart hid
  if h.brkAll && h.level != .m then
    some ((s.setHart hid { h with brkAll := false }).boundaryTrap hid .brk 2 0 true 0)
  else match h.deferred with
    | (w, v) :: rest =>
      let s := s.setHart hid { h with deferred := rest }
      some (s.boundaryTrap hid (Cause.ofCode (bits w 7 0)) (bits w 31 16) v.toNat true (bits w 39 32))
    | [] => if h.bpSkip then none else (s.breakAt hid).map fun k => s.breakTrap hid k

/-- A hart has stopped for a pre-emption or a kill of its gang (R71, R86); one at M returns first (R194), one whose
withdrawal, barrier or slot has come completes (R273), and one whose access waits gives it up (R400). -/
def State.stopped (s : State) (hid : Nat) : Bool :=
  let h := s.hart hid
  match h.task with
  | none => true
  | some key => ((s.task key).pre.isSome || (s.task key).dying.isSome) && h.level != .m && !h.barDone &&
    !(s.ts.grants.any fun g => g.1 == hid) && !s.withdrawing hid && (s.hmem hid).stall.isNone

/-- What a hart does when its turn comes. -/
inductive Gate
  /-- The instruction executes in this state. -/
  | go (s : State) (i : Instr)
  /-- No instruction executes: the state after the turn. -/
  | stay (s : State)

/-- A restart point means nothing to an instruction that is not a vector or matrix instruction (R188). -/
def Hart.noRestart (h : Hart) (w : Nat) (n : Nat) : Hart :=
  if h.resume.pending && !sequencedWord n w then { h with resume := Resume.zero } else h

/-- The vector or matrix instruction at the PC is dispatched and waits: for a group that wakes, or for memory (R200). -/
def State.blockOn (s : State) (hid n w : Nat) : State :=
  let h := s.hart hid
  let k := match (s.hmem hid).stall with | some .wake => 8 | _ => 4
  s.setHart hid { h with blocked := if sequencedWord n w then some k else none }

/-- The instruction at the PC, in the state that its fetch leaves; what it names has frame slots. -/
noncomputable def State.fetchGate (s : State) (hid : Nat) (hold : Bool) : Gate :=
  let turn (s : State) : State := { s with drv := { s.drv with cur := hid, due := true } }
  let here (s : State) (w : Nat) : State :=
    { s with drv := { s.drv with cur := hid, hold, ir := BitVec.ofNat 64 w, due := true } }
  let fresh (s : State) (n w : Nat) : State := s.setHart hid ((s.hart hid).noRestart w n)
  match s.fetch hid with
  | .stall => .stay (turn s)
  | .refused s va => .go (here s 0) (.fetchFault va)
  | .fault s t => .stay ((here s 0).takeTrap hid { t with old := (s.hart hid).resume.pending })
  | .bytes s l =>
    match decodeBytes l with
    | .error _ => .stay s
    | .ok (n, w, .error _) => .go (here (fresh s n w) w) (.nonInstruction (BitVec.ofNat 64 w))
    | .ok (n, w, .ok i) =>
      if s.heldBack hid i then .stay (turn (s.blockOn hid n w))
      else
        let s := s.useFrames hid (s.named hid i)
        if !s.framed hid (s.named hid i) then .stay (turn (s.blockOn hid n w))
        else .go (here (fresh s n w) w) i

/-- The turn of a hart.  One that was restored first gets its lanes (R325); one whose access stalled tries it again, and
one whose access owes a POOLDETACH meets nothing before it (R400). -/
noncomputable def State.gate (s : State) (hid : Nat) (hold : Bool) : Gate :=
  let h := s.hart hid
  let turn (s : State) : State := { s with drv := { s.drv with cur := hid, due := true } }
  if s.stopped hid || s.halted hid then .stay (turn s)
  else if h.regrant.isSome then .stay (turn ((s.regrantNow hid).fitFrames [coreOf hid]))
  else
  let s := s.clearStall hid false
  if h.waiting ≠ .no then
    .stay (turn (if s.waitEnds hid then s.setHart hid { h with waiting := .no } else s))
  else if (turn s).builtIn then .stay (turn s).monitor
  else if h.paused || h.atBar || h.barDone || h.killing.isSome || s.withdrawing hid || s.owesDetach hid ||
      s.ts.grants.any fun g => g.1 == hid then
    s.fetchGate hid hold
  else
    match s.boundaryStop hid with
    | some s => .stay (turn s)
    | none => s.fetchGate hid hold

/-- The turn of a hart in which a vector or matrix instruction executes up to a pass, block or unit only: an event that
stops the hart there may come next (R71, R86). -/
noncomputable def State.partGate (s : State) (hid pass : Nat) : Gate :=
  ({ s with drv := { s.drv with pause := some pass } }).gate hid false

/-! The sequencer (R85, R200). -/

/-- A memory instruction of the sequencer. -/
def seqMemory (i : Instr) : Bool :=
  match i with
  | .vld .. | .vlds .. | .vldx .. | .vldseg .. | .vst .. | .vsts .. | .vstx .. | .vstseg .. => true
  | .vldLong .. | .vstLong .. | .vamo .. | .vsave .. | .vrest .. | .vgathw .. | .vqnte .. => true
  | .mld .. | .mst .. | .msave .. | .mrest .. | .mop .. | .mops .. => true
  | _ => false

/-- An instruction is one that the sequencer takes, and its length in bytes. -/
def seqBytes (i : Instr) : Option Nat :=
  match i.encode with
  | some (n, w) => if sequencedWord (n / 8) w then some (n / 8) else none
  | none => none

/-- The hart goes to the sequencer with the passes that an instruction has issued: from its restart point to its end, or
to where it stopped.  How many element groups a matrix instruction has is not given: those of vl (DESIGN CHOICE, log
entry 53). -/
def State.dispatch (before after : State) (i : Instr) : State :=
  let hid := before.cur
  let h := before.hart hid
  let h' := after.hart hid
  match seqBytes i with
  | none => after
  | some n =>
    let L := before.vgrant hid
    let first := if h.resume.pending && h.resume.grant == L then h.resume.sfx else 0
    let all := ceilDiv h.vl (max 1 L)
    let last := if h'.paused then h'.resume.sfx
      else if h'.level == h.level && h'.pc == h.pcNext n then all
      else min all (bits (h'.mreg (if h'.level = .m then mKret else mEpc)) 63 55)
    if L != 0 && h'.task == h.task && (h'.paused || h'.pc != h.pc) && decide (first < last) then
      let off := (List.range h.vl).filter fun e => !h.pred (maskOf i) e
      let d : Disp := { at_ := after.clk, ino := before.drv.nextId, pc := h.pc, mem := seqMemory i, vl := h.vl, lanes := L,
                        held := before.heldBy hid, first, last, pass := [], off }
      after.setHart hid { h' with disp := h'.disp ++ [d] }
    else after

/-- Registers that an instruction has written whole words of: the words of its destinations whose elements are all active
are correct from then on (R27). -/
def State.renewRegs (s : State) (hid : Nat) (l : List Nat) (off : List Nat) : State :=
  let h := s.hart hid
  if s.bad.isEmpty then s
  else l.foldl (fun s n =>
    let t := SMap.get .s32 h.tag n
    let g := groupSize t h.ew
    let whole (k : Nat) : Bool := (List.range (64 / t.width)).all fun j =>
      !off.contains ((n % g * 0x4000 + 8 * k) * 8 / t.width + j)
    ((List.range (h.liveBytes n / 8)).filter whole).foldl (fun s k => s.renew (regKey hid (0x4000 * n + 8 * k)) 8) s) s

/-- Registers that an instruction has written no longer hold what the backing area holds (R106), and hold frame slots
(R105). -/
def State.soil (s : State) (hid : Nat) (l : List Nat) : State :=
  let h := s.hart hid
  if l.isEmpty then s
  else (s.setHart hid { h with clean := h.clean.filter fun r => !l.contains r.1 }).takeFrames hid l

/-- A vector instruction that has not executed waits: the one at the PC, or the one behind a `fence` at the PC that is not
complete (R200). -/
def State.noteBlock (s : State) (hid : Nat) (i : Instr) : State :=
  let h := s.hart hid
  let behind : Bool := match (s.setHart hid { h with pc := h.pcNext 4, pre := [] }).fetch hid with
    | .bytes _ (lo :: hi :: _) => vectorParcel (parcelOf lo hi)
    | _ => false
  match i with
  | .fenceAcq _ | .fenceRel _ _ | .fenceRw _ _ => s.setHart hid { h with blocked := if behind then some 4 else none }
  | i => match i.encode with
    | some (n, w) => s.blockOn hid (n / 8) w
    | none => s

/-- The turn of an instruction that may not issue yet, its destinations not being free. -/
def State.heldTurn (s : State) (i : Instr) : State :=
  let s := s.noteBlock s.cur i
  if s.drv.pause.isSome then { s with drv := { s.drv with pause := none } } else s

/-- What a step adds to an instruction that has executed: its passes at the sequencer, its registers' frames, what it waits
for, and the end of its turn. -/
def State.settle (before after : State) (i : Instr) : State :=
  let hid := before.cur
  let h := before.hart hid
  let h' := after.hart hid
  let ended := h'.pc != h.pc || h'.level != h.level
  let none_ := (usesOf i).vw.isEmpty || !(ended || h'.paused) || h.vl = 0 || (match i with | .vtag _ _ => true | _ => false)
  let w := if none_ then [] else before.written after i
  let s := (before.dispatch after i).soil hid w
  let s := if !ended || h'.level != h.level then s
    else s.renewRegs hid w ((List.range h.vl).filter fun e => !h.pred (maskOf i) e)
  let s := if ended then s.setHart hid { s.hart hid with blocked := none } else s.noteBlock hid i
  let s := if ended || h'.paused then s.clearStall hid true else s
  if s.drv.pause.isSome then { s with drv := { s.drv with pause := none } } else s

end Sys2Proof.Machine
end

