-- ==== Sys2Proof/Machine/Inputs.lean ====
section
/-!
DEFINITION. What else a turn can be: time, agents outside the device, failing units, caches that drop an entry
(R19, R23, R26, R32, R35, R62, R125, R200 to R204).
-/
namespace Sys2Proof.Machine

/-! The sequencer and the classes of lanes (R85, R200, R201). -/

/-- A cluster at the slip limit waits (R101). -/
def Disp.slips (d : Disp) (g : Nat) : Bool :=
  d.held.any fun k => d.left k && decide (d.next k + 15 ≤ d.next g)

/-- Its elements that are left to issue (R85). -/
def Disp.rest (d : Disp) : Nat :=
  ((List.range d.vl).filter fun e => decide (e / d.lanes < d.last) && decide (d.next (d.held.getD (e % d.lanes / 8) 0) ≤ e / d.lanes)).length

/-- It has nothing left on the groups that its hart still holds. -/
def Disp.finished (d : Disp) (held : List Nat) : Bool := !(d.held.any fun g => held.contains g && d.left g)

/-- The element group that a hart has ready on lane group g: of its oldest instruction that has one left there. -/
def Hart.ready (h : Hart) (g : Nat) : Option Disp := h.disp.find? fun d => d.left g

/-- The harts that hold a group. -/
def State.holdersOf (s : State) (c g : Nat) : List Nat :=
  ((List.range 4).filter fun k => (s.holders c g).testBit k).map fun k => 8 * c + 4 * s.side c g + k

/-- The hart that the sequencer serves on a group (R85): one passed over for 64 slots, the longest first; else the one
whose instruction has the fewest elements left; a tie goes to the earlier instruction. -/
def State.serves (s : State) (g : Nat) (l : List (Nat × Disp)) : Option (Nat × Disp) :=
  let late (e : Nat × Disp) : Nat := SMap.get 0 (s.hart e.1).passed g
  let old (a b : Nat × Disp) : Bool := decide (a.2.ino < b.2.ino)
  let first (better : Nat × Disp → Nat × Disp → Bool) (l : List (Nat × Disp)) : Option (Nat × Disp) :=
    l.foldl (fun acc e => match acc with | some b => if better e b then some e else acc | none => some e) none
  match first (fun a b => decide (late b < late a) || (late a == late b && old a b)) (l.filter fun e => decide (64 ≤ late e)) with
  | some e => some e
  | none => first (fun a b => decide (a.2.rest < b.2.rest) || (a.2.rest == b.2.rest && old a b)) l

/-- One element group of hart hid issues on group g; every other hart that had one ready there was passed over (R85). -/
def State.issueOn (s : State) (g : Nat) (l : List (Nat × Disp)) (hid : Nat) (d : Disp) : State :=
  l.foldl (fun s e =>
    let h := s.hart e.1
    if e.1 = hid then
      let go (x : Disp) : Disp := if x = d then { x with pass := SMap.set 0 x.pass g (d.next g + 1) } else x
      s.setHart hid { h with passed := h.passed.del g, disp := h.disp.map go }
    else s.setHart e.1 { h with passed := SMap.set 0 h.passed g (SMap.get 0 h.passed g + 1) }) s

/-- The classes of the eight lanes of a group in which element group p of an instruction issues (R200). -/
def Disp.classes (d : Disp) (g : Nat) : List Nat :=
  (List.range 8).map fun j =>
    let e := d.next g * d.lanes + 8 * d.held.idxOf g + j
    if d.vl ≤ e then 2 else if d.off.contains e then 1 else 0

/-- A wait that a turn names for a group can be one of its oldest instruction there (R200): start-up within 3 clk of the
dispatch; memory, for a memory instruction, or behind one, or behind loads of its hart; a chain, behind another; a bank
conflict, for a memory instruction; contention. -/
def State.waitOk (s : State) (l : List (Nat × Disp)) (k : Nat) : Bool :=
  match l.foldl (fun acc e => match acc with
      | some b => if e.2.ino < b.2.ino then some e else acc
      | none => some e) (none : Option (Nat × Disp)) with
  | none => false
  | some (hid, d) =>
    let before := (s.hart hid).disp.takeWhile (· != d)
    match k with
    | 3 => decide (s.clk ≤ d.at_ + 3)
    | 4 => d.mem || (before.any (·.mem)) || !(s.hmem hid).bag.isEmpty
    | 5 => before.any fun x => !x.mem
    | 6 => d.mem
    | 7 => true
    | _ => false

/-- The sequencer serves one of the harts that have an element group ready; where all are held at the slip limit, none
(R85, R101). -/
def State.groupIssue (s : State) (g : Nat) (l : List (Nat × Disp)) (idle : Nat) : State × List Nat :=
  let l := l.filter fun e => !e.2.slips g
  match s.serves g l with
  | some (h, d) => (s.issueOn g l h d, d.classes g)
  | none => (s, List.replicate 8 idle)

/-- One group of core c in one clk: what issues there, and the classes of its lanes (R85, R200).  Where nothing has been
issued to it, a vector instruction that a holder's turn found waiting gives the class; which of several, and a wait of an
instruction that issues, the turn names. -/
def State.groupClk (s : State) (cls : List (Nat × Nat)) (c g : Nat) : State × List Nat :=
  let all (k : Nat) : List Nat := List.replicate 8 k
  if s.holders c g = 0 then (s, all (if (s.usable c (s.side c g)).contains g then 9 else 8))
  else
    let hs := s.holdersOf c g
    let named := (cls.find? fun e => e.1 == 8 * c + g).map (·.2)
    let waits := hs.filterMap fun h => (s.hart h).blocked
    let blocked (k : Nat) : Nat := match named with
      | some n => if waits.contains n then n else waits.headD k
      | none => waits.headD k
    if hs.all fun h => (s.hart h).disp.isEmpty then (s, all (blocked 9))
    else
      let l := hs.filterMap fun h => ((s.hart h).ready g).map fun d => (h, d)
      match named with
      | some k => if s.waitOk l k then (s, all k) else s.groupIssue g l (blocked 7)
      | none => s.groupIssue g l (blocked 7)

/-- The groups of a core in one clk, with the classes of its lanes. -/
def State.groupsClk (s : State) (cls : List (Nat × Nat)) (c : Nat) : State × List Nat :=
  (List.range (s.groups c)).foldl (fun a g =>
    let (s, k) := a.1.groupClk cls c g
    ({ s with hub := { s.hub with cls := SMap.set 9 s.hub.cls (8 * c + g) (k.getD 0 9) } }, a.2 ++ k)) (s, [])

/-- Instructions of the harts of a core that have issued all their element groups leave the sequencer. -/
def State.sweep (s : State) (c : Nat) : State :=
  (s.placedOn c).foldl (fun s hid =>
    let h := s.hart hid
    if h.disp.isEmpty then s
    else s.setHart hid { h with disp := h.disp.filter fun d => !d.finished (s.heldBy hid) }) s

/-! Time (R201 to R204). -/

/-- The context that owns a core (R201). -/
def State.coreContext (s : State) (c : Nat) : Option Nat :=
  ((s.placedOn c).findSome? fun h => (s.hart h).slot)

/-- n clk of an owned core, its lanes in some classes, count in the context's bank. -/
def State.countCore (s : State) (classes : List Nat) (x c n : Nat) : State :=
  if bit (s.hreg (oCbctl x)) 0 then
    let lanes := classes.length
    let of (k : Nat) := (classes.filter (· == k)).length * n
    let s := (List.range 10).foldl (fun s k => s.count x (k + 1) (of k)) s
    let s := s.count x 11 (lanes * n)
    let b := SMap.get Bank.reset s.hub.bank x
    let b := match c / 32 with
      | 0 => { b with use0 := b.use0 + of 0, all0 := b.all0 + lanes * n }
      | 1 => { b with use1 := b.use1 + of 0, all1 := b.all1 + lanes * n }
      | 2 => { b with use2 := b.use2 + of 0, all2 := b.all2 + lanes * n }
      | _ => { b with use3 := b.use3 + of 0, all3 := b.all3 + lanes * n }
    { s with hub := { s.hub with bank := SMap.set Bank.reset s.hub.bank x b } }
  else s

/-- Lane-cycles of one core over n clk (R201); where n is not 1, nothing is left to issue. -/
def State.tickCore (s : State) (cls : List (Nat × Nat)) (n c : Nat) : State :=
  if !s.active c then s
  else match s.coreContext c with
    | some x =>
      let (s, k) := s.groupsClk cls c
      (s.sweep c).countCore k x c n
    | none => s.setHreg (oIdlelc (c / 32)) (s.hreg (oIdlelc (c / 32)) + BitVec.ofNat 64 ((s.core c).lmod * n))

/-- Running banks count clk (R203). -/
def State.tickBank (s : State) (n k : Nat) : State := if bit (s.hreg (oCbctl k)) 0 then s.count k 0 n else s

/-- Harts that wait in Turnstile allocation count n clk (R203). -/
def State.tickWaiters (s : State) (n : Nat) : State :=
  (s.ts.waiters.flatMap (·.2)).foldl (fun s w => match (s.hart w.1).slot with | some x => s.count x 19 n | none => s) s

/-- n clk pass for every unit. -/
def State.clks (s : State) (cls : List (Nat × Nat)) (n : Nat) : State :=
  let s : State := { s with clk := s.clk + n }
  let s := (List.range 128).foldl (fun s c => s.tickCore cls n c) s
  (List.range 64).foldl (fun s k => s.tickBank n k) (s.tickWaiters n)

/-- The sequencer of some core has element groups to issue. -/
def State.issuing (s : State) : Bool := s.harts.any fun h => !h.2.disp.isEmpty

/-- n clk pass, one after another while the sequencers issue. -/
def State.ticks (cls : List (Nat × Nat)) : Nat → State → State
  | 0, s => s
  | n + 1, s => if s.issuing then State.ticks cls n (s.clks cls 1) else s.clks cls (n + 1)

/-- n clk pass; the slots that became FREE in the clk that ends go to the waiting harts first (R375). -/
def State.tick (s : State) (n : Nat) (cls : List (Nat × Nat)) : State :=
  State.ticks cls n { s.serveAll with drv := { s.drv with due := false } }

/-! Other inputs. -/

/-- A remote device owns the word of a frame (R41, R42). -/
def State.remoteOwns (s : State) (f w : Nat) : Bool :=
  s.coh.lines.any fun l => isRemote l.h && l.frame == f && l.st != .s && decide (l.first ≤ w) && decide (w ≤ l.last)

/-- An agent outside the device writes a byte at a home that it reaches, as part of write ino; copies of the word that are
not its own are invalidated first (R36). -/
def State.outsideByte (s : State) (ino loc : Nat) (v : Byte) : State :=
  match homeOf loc with
  | .spad _ | .ts => s
  | _ =>
    if paHub ≤ loc ∧ loc < paPeer then s
    else
    let s := match s.frameOf loc with
      | some f =>
        if s.remoteOwns f (firstWord loc) || !s.idle f then s
        else s.serve (homeDie f) f .geto none (firstWord loc) (firstWord loc)
      | none => s
    s.writeHome loc 1 v.toNat ino 1025

/-- An agent outside the device writes bytes from loc on, by one write (R27). -/
def State.outsideWrite (s : State) (loc : Nat) (bs : List Byte) : State :=
  let ino := s.drv.nextId
  bs.zipIdx.foldl (fun s b => s.outsideByte ino (loc + b.2) b.1) s.bump

/-- Entry k of the translation caches is dropped (R62). -/
def State.dropEntry (s : State) (k : Nat) : State :=
  let n := s.xlat.tlb.length
  { s with xlat := if k < n then { s.xlat with tlb := s.xlat.tlb.eraseIdx k }
                   else { s.xlat with ptc := s.xlat.ptc.eraseIdx (k - n) } }

/-- A device joins or leaves the fabric domain (R19). -/
def State.peerHere (s : State) (d : Nat) (here : Bool) : State :=
  let s := if here then s else s.settlePeer (some d)
  let l := s.coh.present.filter (· != d)
  { s with coh := { s.coh with present := if here then l ++ [d] else l } }

/-- The spare lane of physical group g is idle. -/
def Core.spareIdle (k : Core) (g : Nat) : Bool :=
  SMap.get 8 k.skip (((List.range 8).filter fun p => !k.lost.contains p).idxOf g) == 8 && !k.deadSpare.contains g &&
  !(k.spareDue.any fun u => match u with | some (p, _) => p == g | none => false)

/-- A lane or a scratchpad bank of a core fails: a spare is due (R23).  A spare lane that fails idle just does not come
in later. -/
def State.unitFails (s : State) (c : Nat) (lane : Option (Nat × Nat)) : State :=
  let k := s.core c
  let ok := match lane with | some (g, j) => decide (g < 8) && decide (j < 9) && !k.lost.contains g | none => true
  let idle := match lane with | some (g, 8) => k.spareIdle g | _ => false
  if s.active c && ok && idle then s.setCore c { k with deadSpare := k.deadSpare ++ [(lane.getD (0, 0)).1] }
  else if s.active c && ok then s.setCore c { s.core c with spareDue := (s.core c).spareDue ++ [lane] } else s

/-- An active L2 slice fails: a spare comes in at the next reset, or the slice is lost (R23). -/
def State.sliceFails (s : State) (q n : Nat) : State :=
  let u := sliceUnit q n
  if q < 4 ∧ n < 256 ∧ !(s.lostSlices q).contains n ∧ !s.pkg.sliceDue.contains u then
    { s with pkg := { s.pkg with sliceDue := s.pkg.sliceDue ++ [u] } }.recordSpare .slice u
      (8 ≤ s.spares .slice fun u => u / 264 == q)
  else s

/-- A remote device writes a word of a span that it owns (R32); its value reaches the frame by writes of an agent outside
the device. -/
def State.dirtyLine (s : State) (k w : Nat) : State :=
  match s.coh.lines[k]? with
  | some l =>
    if isRemote l.h ∧ l.h ≠ .dev s.deviceId ∧ l.st ≠ .s ∧ l.first ≤ w ∧ w ≤ l.last then
      { s with coh := { s.coh with lines := s.coh.lines.set k { l with st := .m, dirty := l.dirty ||| 2 ^ w, at_ := s.clk } } }
    else s
  | none => s

/-- A clean span is dropped silently (R35). -/
def State.evictLine (s : State) (k : Nat) : State :=
  match s.coh.lines[k]? with
  | some l => if l.dirty = 0 then { s with coh := { s.coh with lines := s.coh.lines.eraseIdx k } } else s
  | none => s

/-- The host reads a hub register (R58): an aligned 8-byte access, any other being an Unsupported Request. -/
def State.hostRead (s : State) (off size : Nat) : State :=
  let answer (s : State) (a : Option Word) : State := { s with hub := { s.hub with hostAns := s.hub.hostAns ++ [a] } }
  if size ≠ 8 ∨ off % 8 ≠ 0 then
    answer s none
  else if s.isBad (paHub + off) 8 then answer s none
  else if !s.hubReady off then s.hubWait off
  else
    let r := s.hubRead off
    answer r.1 (some r.2)

/-- What a turn other than a hart's and an event's does. -/
def State.input (s : State) (t : Turn) : State :=
  match t with
  | .hart _ _ => s
  | .part _ _ => s
  | .strip _ _ => s
  | .event _ => s
  | .tick n cls => s.tick n cls
  | .outside loc bs => s.outsideWrite loc bs
  | .upset loc sram => s.spoil loc sram
  | .residue hid pass => s.setHmem hid { s.hmem hid with resErr := some pass }
  | .prefetch hid va => s.fetchAhead hid va
  | .evict k => s.dropEntry k
  | .peer d here => s.peerHere d here
  | .unfence d => s.unfence d
  | .unitFail c lane => s.unitFails c lane
  | .sliceFail q n => s.sliceFails q n
  | .l2Wake die group => s.wakeL2 die group
  | .lineDrop k => s.evictLine k
  | .lineWrite k w => s.dirtyLine k w
  | .feature pool f => s.enableFeature pool f
  | .measure d => s.measureNext d
  | .hostRead off size => s.hostRead off size

end Sys2Proof.Machine
end

