-- ==== Sys2Proof/Machine/Dispatch.lean ====
section
/-!
DEFINITION. One arm for each constructor: a direct call of its meaning.
-/
namespace Sys2Proof.Machine

/-- The meaning of each instruction and event. -/
def exec (i : Instr) (s : State) : Host.Outcome State Fault Refusal :=
  match i with
  | .deviceReset sigOk version digest => Sys2Proof.Machine.execDeviceReset sigOk version digest s
  | .hostLinkTrain rate width => Sys2Proof.Machine.execHostLinkTrain rate width s
  | .fabricIdAssign dev => Sys2Proof.Machine.execFabricIdAssign dev s
  | .flitCrcError kind n replays => Sys2Proof.Machine.execFlitCrcError kind n replays s
  | .mbawynLaneSpare n => Sys2Proof.Machine.execMbawynLaneSpare n s
  | .linkRetrainDone n => Sys2Proof.Machine.execLinkRetrainDone n s
  | .linkRetire n => Sys2Proof.Machine.execLinkRetire n s
  | .filterEntryFree frame => Sys2Proof.Machine.execFilterEntryFree frame s
  | .filterProbeTimeout dev => Sys2Proof.Machine.execFilterProbeTimeout dev s
  | .deviceFenced => Sys2Proof.Machine.execDeviceFenced s
  | .fenceCleared => Sys2Proof.Machine.execFenceCleared s
  | .hbmChannelRetrain die ch => Sys2Proof.Machine.execHbmChannelRetrain die ch s
  | .hbmRetrainDone die ch => Sys2Proof.Machine.execHbmRetrainDone die ch s
  | .coreFail core => Sys2Proof.Machine.execCoreFail core s
  | .coreQuiesce core => Sys2Proof.Machine.execCoreQuiesce core s
  | .poolPortDown port => Sys2Proof.Machine.execPoolPortDown port s
  | .poolRerouteDone port via => Sys2Proof.Machine.execPoolRerouteDone port via s
  | .rerouteTimeout port => Sys2Proof.Machine.execRerouteTimeout port s
  | .poolPathReturn port => Sys2Proof.Machine.execPoolPathReturn port s
  | .reattachCheckDone region ok => Sys2Proof.Machine.execReattachCheckDone region ok s
  | .quarantineWritebackDone region => Sys2Proof.Machine.execQuarantineWritebackDone region s
  | .graceExpiry port => Sys2Proof.Machine.execGraceExpiry port s
  | .bisnp region first count inv => Sys2Proof.Machine.execBisnp region first count inv s
  | .poolWriteAck entry => Sys2Proof.Machine.execPoolWriteAck entry s
  | .dynamicCapacityRelease region => Sys2Proof.Machine.execDynamicCapacityRelease region s
  | .attestationRequest req nonce => Sys2Proof.Machine.execAttestationRequest req nonce s
  | .gets h frame first last => Sys2Proof.Machine.execGets h frame first last s
  | .geto h frame first last => Sys2Proof.Machine.execGeto h frame first last s
  | .upg h frame first last => Sys2Proof.Machine.execUpg h frame first last s
  | .putd h frame keep => Sys2Proof.Machine.execPutd h frame keep s
  | .pinv h frame => Sys2Proof.Machine.execPinv h frame s
  | .pdwn h frame => Sys2Proof.Machine.execPdwn h frame s
  | .data h frame => Sys2Proof.Machine.execData h frame s
  | .grant h frame => Sys2Proof.Machine.execGrant h frame s
  | .ack h frame => Sys2Proof.Machine.execAck h frame s
  | .absent h frame => Sys2Proof.Machine.execAbsent h frame s
  | .probeTimeout hid frame => Sys2Proof.Machine.execProbeTimeout hid frame s
  | .controlTimeout hid => Sys2Proof.Machine.execControlTimeout hid s
  | .patrolScrub loc bad => Sys2Proof.Machine.execPatrolScrub loc bad s
  | .roustaboutWriteback die frame => Sys2Proof.Machine.execRoustaboutWriteback die frame s
  | .powerCapUpdate die cap => Sys2Proof.Machine.execPowerCapUpdate die cap s
  | .gatingMarkTimeout slot id => Sys2Proof.Machine.execGatingMarkTimeout slot id s
  | .l2WayGate die group => Sys2Proof.Machine.execL2WayGate die group s
  | .scratchpadGate core => Sys2Proof.Machine.execScratchpadGate core s
  | .wakeComplete l2 unit group => Sys2Proof.Machine.execWakeComplete l2 unit group s
  | .gangPlacement core => Sys2Proof.Machine.execGangPlacement core s
  | .gangReserve die => Sys2Proof.Machine.execGangReserve die s
  | .workSteal core => Sys2Proof.Machine.execWorkSteal core s
  | .arrivalPreemption slot id => Sys2Proof.Machine.execArrivalPreemption slot id s
  | .timeSliceExpiry slot id => Sys2Proof.Machine.execTimeSliceExpiry slot id s
  | .preemption slot id => Sys2Proof.Machine.execPreemption slot id s
  | .rePlacement core => Sys2Proof.Machine.execRePlacement core s
  | .pendingTableFit slot id => Sys2Proof.Machine.execPendingTableFit slot id s
  | .interruptDelivery hid sub => Sys2Proof.Machine.execInterruptDelivery hid sub s
  | .deferredFaultRaise hid => Sys2Proof.Machine.execDeferredFaultRaise hid s
  | .registerSpill hid reg => Sys2Proof.Machine.execRegisterSpill hid reg s
  | .memoryRead hid item => Sys2Proof.Machine.execMemoryRead hid item s
  | .drain place k => Sys2Proof.Machine.execDrain place k s
  | .ticket hid => Sys2Proof.Machine.execTicket hid s
  | .engineChunk queue entry chunk => Sys2Proof.Machine.execEngineChunk queue entry chunk s
  | .stripLand hid item => Sys2Proof.Machine.execStripLand hid item s
  | .engineMigRetry queue entry => Sys2Proof.Machine.execEngineMigRetry queue entry s
  | .waitTimeout hid => Sys2Proof.Machine.execWaitTimeout hid s
  | .pcSample slot core => Sys2Proof.Machine.execPcSample slot core s
  | .lqdbDoorbell n v => Sys2Proof.Machine.execLqdbDoorbell n v s
  | .lqbaseWrite n v => Sys2Proof.Machine.execLqbaseWrite n v s
  | .lqctlEnable n v => Sys2Proof.Machine.execLqctlEnable n v s
  | .lqctlRst n v => Sys2Proof.Machine.execLqctlRst n v s
  | .packetFetch n => Sys2Proof.Machine.execPacketFetch n s
  | .waitPacketComplete n => Sys2Proof.Machine.execWaitPacketComplete n s
  | .counterFreeze n => Sys2Proof.Machine.execCounterFreeze n s
  | .fenceRelease n => Sys2Proof.Machine.execFenceRelease n s
  | .ctxdropUnbind n => Sys2Proof.Machine.execCtxdropUnbind n s
  | .pregionAttach n v => Sys2Proof.Machine.execPregionAttach n v s
  | .identityCheckDone region ok => Sys2Proof.Machine.execIdentityCheckDone region ok s
  | .identityCheckAbandon region => Sys2Proof.Machine.execIdentityCheckAbandon region s
  | .pregionFree n v => Sys2Proof.Machine.execPregionFree n v s
  | .fabstRejoin => Sys2Proof.Machine.execFabstRejoin s
  | .swint v => Sys2Proof.Machine.execSwint v s
  | .tsctlWrite n v => Sys2Proof.Machine.execTsctlWrite n v s
  | .tspartWrite n v => Sys2Proof.Machine.execTspartWrite n v s
  | .debugSetWrite off v => Sys2Proof.Machine.execDebugSetWrite off v s
  | .dbghartHalt v => Sys2Proof.Machine.execDbghartHalt v s
  | .dbgdatRead => Sys2Proof.Machine.execDbgdatRead s
  | .dbgdatWrite v => Sys2Proof.Machine.execDbgdatWrite v s
  | .trctlWrite n v => Sys2Proof.Machine.execTrctlWrite n v s
  | .hubRegisterWrite off size v host => Sys2Proof.Machine.execHubRegisterWrite off size v host s
  | .xinvComplete hid => Sys2Proof.Machine.execXinvComplete hid s
  | .cAdd d b => Sys2Proof.Machine.execCAdd d b s
  | .cSub d b => Sys2Proof.Machine.execCSub d b s
  | .cAnd d b => Sys2Proof.Machine.execCAnd d b s
  | .cOr d b => Sys2Proof.Machine.execCOr d b s
  | .cXor d b => Sys2Proof.Machine.execCXor d b s
  | .cMv d b => Sys2Proof.Machine.execCMv d b s
  | .cJlr d b => Sys2Proof.Machine.execCJlr d b s
  | .cAddi d ix => Sys2Proof.Machine.execCAddi d ix s
  | .cAddiX0 d ix => Sys2Proof.Machine.execCAddiX0 d ix s
  | .cShli d ix => Sys2Proof.Machine.execCShli d ix s
  | .cShri d ix => Sys2Proof.Machine.execCShri d ix s
  | .cSari d ix => Sys2Proof.Machine.execCSari d ix s
  | .cAndi d ix => Sys2Proof.Machine.execCAndi d ix s
  | .cLd64 d a o => Sys2Proof.Machine.execCLd64 d a o s
  | .cSt64 sc a o => Sys2Proof.Machine.execCSt64 sc a o s
  | .cBeq a o => Sys2Proof.Machine.execCBeq a o s
  | .cBne a o => Sys2Proof.Machine.execCBne a o s
  | .cJ o => Sys2Proof.Machine.execCJ o s
  | .cNop => Sys2Proof.Machine.execCNop s
  | .add d a b => Sys2Proof.Machine.execAdd d a b s
  | .sub d a b => Sys2Proof.Machine.execSub d a b s
  | .and d a b => Sys2Proof.Machine.execAnd d a b s
  | .or d a b => Sys2Proof.Machine.execOr d a b s
  | .xor d a b => Sys2Proof.Machine.execXor d a b s
  | .shl d a b => Sys2Proof.Machine.execShl d a b s
  | .shr d a b => Sys2Proof.Machine.execShr d a b s
  | .sar d a b => Sys2Proof.Machine.execSar d a b s
  | .slt d a b => Sys2Proof.Machine.execSlt d a b s
  | .sltn d a b => Sys2Proof.Machine.execSltn d a b s
  | .mul d a b => Sys2Proof.Machine.execMul d a b s
  | .mulh d a b => Sys2Proof.Machine.execMulh d a b s
  | .mulhn d a b => Sys2Proof.Machine.execMulhn d a b s
  | .div d a b => Sys2Proof.Machine.execDiv d a b s
  | .divn d a b => Sys2Proof.Machine.execDivn d a b s
  | .rem d a b => Sys2Proof.Machine.execRem d a b s
  | .remn d a b => Sys2Proof.Machine.execRemn d a b s
  | .min d a b => Sys2Proof.Machine.execMin d a b s
  | .max d a b => Sys2Proof.Machine.execMax d a b s
  | .minn d a b => Sys2Proof.Machine.execMinn d a b s
  | .maxn d a b => Sys2Proof.Machine.execMaxn d a b s
  | .clz d a => Sys2Proof.Machine.execClz d a s
  | .ctz d a => Sys2Proof.Machine.execCtz d a s
  | .popc d a => Sys2Proof.Machine.execPopc d a s
  | .pcrel d ix => Sys2Proof.Machine.execPcrel d ix s
  | .imhi d ix => Sys2Proof.Machine.execImhi d ix s
  | .addi d a ix => Sys2Proof.Machine.execAddi d a ix s
  | .andi d a ix => Sys2Proof.Machine.execAndi d a ix s
  | .ori d a ix => Sys2Proof.Machine.execOri d a ix s
  | .xori d a ix => Sys2Proof.Machine.execXori d a ix s
  | .slti d a ix => Sys2Proof.Machine.execSlti d a ix s
  | .shli d a ix => Sys2Proof.Machine.execShli d a ix s
  | .shri d a ix => Sys2Proof.Machine.execShri d a ix s
  | .sari d a ix => Sys2Proof.Machine.execSari d a ix s
  | .ld8 d a ix => Sys2Proof.Machine.execLd8 d a ix s
  | .ld16 d a ix => Sys2Proof.Machine.execLd16 d a ix s
  | .ld32 d a ix => Sys2Proof.Machine.execLd32 d a ix s
  | .ld64 d a ix => Sys2Proof.Machine.execLd64 d a ix s
  | .ld8z d a ix => Sys2Proof.Machine.execLd8z d a ix s
  | .ld16z d a ix => Sys2Proof.Machine.execLd16z d a ix s
  | .ld32z d a ix => Sys2Proof.Machine.execLd32z d a ix s
  | .ldAcq d a sc z o => Sys2Proof.Machine.execLdAcq d a sc z o s
  | .st8 sc a ix => Sys2Proof.Machine.execSt8 sc a ix s
  | .st16 sc a ix => Sys2Proof.Machine.execSt16 sc a ix s
  | .st32 sc a ix => Sys2Proof.Machine.execSt32 sc a ix s
  | .st64 sc a ix => Sys2Proof.Machine.execSt64 sc a ix s
  | .stRel t a sc z o => Sys2Proof.Machine.execStRel t a sc z o s
  | .beq a b o => Sys2Proof.Machine.execBeq a b o s
  | .bne a b o => Sys2Proof.Machine.execBne a b o s
  | .blt a b o => Sys2Proof.Machine.execBlt a b o s
  | .bge a b o => Sys2Proof.Machine.execBge a b o s
  | .bltn a b o => Sys2Proof.Machine.execBltn a b o s
  | .bgen a b o => Sys2Proof.Machine.execBgen a b o s
  | .jl l o => Sys2Proof.Machine.execJl l o s
  | .jlr l a ix => Sys2Proof.Machine.execJlr l a ix s
  | .amoAdd d a b w q r sc => Sys2Proof.Machine.execAmoAdd d a b w q r sc s
  | .amoAnd d a b w q r sc => Sys2Proof.Machine.execAmoAnd d a b w q r sc s
  | .amoOr d a b w q r sc => Sys2Proof.Machine.execAmoOr d a b w q r sc s
  | .amoXor d a b w q r sc => Sys2Proof.Machine.execAmoXor d a b w q r sc s
  | .amoMin d a b w n q r sc => Sys2Proof.Machine.execAmoMin d a b w n q r sc s
  | .amoMax d a b w n q r sc => Sys2Proof.Machine.execAmoMax d a b w n q r sc s
  | .amoSwap d a b w q r sc => Sys2Proof.Machine.execAmoSwap d a b w q r sc s
  | .amoCas d a b w q r sc => Sys2Proof.Machine.execAmoCas d a b w q r sc s
  | .fadd d a b t => Sys2Proof.Machine.execFadd d a b t s
  | .fsub d a b t => Sys2Proof.Machine.execFsub d a b t s
  | .fmul d a b t => Sys2Proof.Machine.execFmul d a b t s
  | .fdiv d a b t => Sys2Proof.Machine.execFdiv d a b t s
  | .fsqrt d a t => Sys2Proof.Machine.execFsqrt d a t s
  | .fma d a b t => Sys2Proof.Machine.execFma d a b t s
  | .fmin d a b t => Sys2Proof.Machine.execFmin d a b t s
  | .fmax d a b t => Sys2Proof.Machine.execFmax d a b t s
  | .fcmpEq d a b t => Sys2Proof.Machine.execFcmpEq d a b t s
  | .fcmpLt d a b t => Sys2Proof.Machine.execFcmpLt d a b t s
  | .fcmpLe d a b t => Sys2Proof.Machine.execFcmpLe d a b t s
  | .fcmpUn d a b t => Sys2Proof.Machine.execFcmpUn d a b t s
  | .fcvt d a f t => Sys2Proof.Machine.execFcvt d a f t s
  | .fclass d a t => Sys2Proof.Machine.execFclass d a t s
  | .nop => Sys2Proof.Machine.execNop s
  | .trap ix => Sys2Proof.Machine.execTrap ix s
  | .eret => Sys2Proof.Machine.execEret s
  | .wait a => Sys2Proof.Machine.execWait a s
  | .fenceAcq sc => Sys2Proof.Machine.execFenceAcq sc s
  | .fenceRel e sc => Sys2Proof.Machine.execFenceRel e sc s
  | .fenceRw e sc => Sys2Proof.Machine.execFenceRw e sc s
  | .xinv a b => Sys2Proof.Machine.execXinv a b s
  | .xinvAll => Sys2Proof.Machine.execXinvAll s
  | .cacheopWb a => Sys2Proof.Machine.execCacheopWb a s
  | .cacheopWbinv a => Sys2Proof.Machine.execCacheopWbinv a s
  | .cacheopInv a => Sys2Proof.Machine.execCacheopInv a s
  | .cacheopIfetch => Sys2Proof.Machine.execCacheopIfetch s
  | .brk => Sys2Proof.Machine.execBrk s
  | .halt => Sys2Proof.Machine.execHalt s
  | .mrd d m => Sys2Proof.Machine.execMrd d m s
  | .mwr a m => Sys2Proof.Machine.execMwr a m s
  | .setvl d a w => Sys2Proof.Machine.execSetvl d a w s
  | .setvlG d a w => Sys2Proof.Machine.execSetvlG d a w s
  | .vloop l c w e => Sys2Proof.Machine.execVloop l c w e s
  | .vloopPar l c w e => Sys2Proof.Machine.execVloopPar l c w e s
  | .vloopLong par l c w e => Sys2Proof.Machine.execVloopLong par l c w e s
  | .vend a => Sys2Proof.Machine.execVend a s
  | .vtag d t => Sys2Proof.Machine.execVtag d t s
  | .vadd d a b p c k => Sys2Proof.Machine.execVadd d a b p c k s
  | .vsub d a b p c k => Sys2Proof.Machine.execVsub d a b p c k s
  | .vmul d a b p c k => Sys2Proof.Machine.execVmul d a b p c k s
  | .vmin d a b p c k => Sys2Proof.Machine.execVmin d a b p c k s
  | .vmax d a b p c k => Sys2Proof.Machine.execVmax d a b p c k s
  | .vand d a b p c k => Sys2Proof.Machine.execVand d a b p c k s
  | .vor d a b p c k => Sys2Proof.Machine.execVor d a b p c k s
  | .vxor d a b p c k => Sys2Proof.Machine.execVxor d a b p c k s
  | .vaddVx d a x p c => Sys2Proof.Machine.execVaddVx d a x p c s
  | .vsubVx d a x p c => Sys2Proof.Machine.execVsubVx d a x p c s
  | .vmulVx d a x p c => Sys2Proof.Machine.execVmulVx d a x p c s
  | .vminVx d a x p c => Sys2Proof.Machine.execVminVx d a x p c s
  | .vmaxVx d a x p c => Sys2Proof.Machine.execVmaxVx d a x p c s
  | .vandVx d a x p c => Sys2Proof.Machine.execVandVx d a x p c s
  | .vorVx d a x p c => Sys2Proof.Machine.execVorVx d a x p c s
  | .vxorVx d a x p c => Sys2Proof.Machine.execVxorVx d a x p c s
  | .vfma d a b p c k => Sys2Proof.Machine.execVfma d a b p c k s
  | .vfms d a b p c k => Sys2Proof.Machine.execVfms d a b p c k s
  | .vfnma d a b p c k => Sys2Proof.Machine.execVfnma d a b p c k s
  | .vmacw d a b p c k => Sys2Proof.Machine.execVmacw d a b p c k s
  | .vfmaVx d a x p c => Sys2Proof.Machine.execVfmaVx d a x p c s
  | .vfmsVx d a x p c => Sys2Proof.Machine.execVfmsVx d a x p c s
  | .vfnmaVx d a x p c => Sys2Proof.Machine.execVfnmaVx d a x p c s
  | .vmacwVx d a x p c => Sys2Proof.Machine.execVmacwVx d a x p c s
  | .vneg d a p c => Sys2Proof.Machine.execVneg d a p c s
  | .vabs d a p c => Sys2Proof.Machine.execVabs d a p c s
  | .vsqrt d a p c => Sys2Proof.Machine.execVsqrt d a p c s
  | .vrcp d a p c => Sys2Proof.Machine.execVrcp d a p c s
  | .vrsqrt d a p c => Sys2Proof.Machine.execVrsqrt d a p c s
  | .vexp2 d a p c => Sys2Proof.Machine.execVexp2 d a p c s
  | .vclz d a p c => Sys2Proof.Machine.execVclz d a p c s
  | .vpopc d a p c => Sys2Proof.Machine.execVpopc d a p c s
  | .vclass d a p c => Sys2Proof.Machine.execVclass d a p c s
  | .vmv d a p c => Sys2Proof.Machine.execVmv d a p c s
  | .vsel d a b p c k => Sys2Proof.Machine.execVsel d a b p c k s
  | .vsplat d x p => Sys2Proof.Machine.execVsplat d x p s
  | .vid d p => Sys2Proof.Machine.execVid d p s
  | .vshl d a b p c k => Sys2Proof.Machine.execVshl d a b p c k s
  | .vshr d a b p c k => Sys2Proof.Machine.execVshr d a b p c k s
  | .vshlVx d a x p c => Sys2Proof.Machine.execVshlVx d a x p c s
  | .vshrVx d a x p c => Sys2Proof.Machine.execVshrVx d a x p c s
  | .vcmp q a b m c k n => Sys2Proof.Machine.execVcmp q a b m c k n s
  | .vcmpVx q a x m c n => Sys2Proof.Machine.execVcmpVx q a x m c n s
  | .vredsum d a b p c k => Sys2Proof.Machine.execVredsum d a b p c k s
  | .vredsumOrd d a b p c k => Sys2Proof.Machine.execVredsumOrd d a b p c k s
  | .vredmin d a b p c k => Sys2Proof.Machine.execVredmin d a b p c k s
  | .vredmax d a b p c k => Sys2Proof.Machine.execVredmax d a b p c k s
  | .vredand d a b p c k => Sys2Proof.Machine.execVredand d a b p c k s
  | .vredor d a b p c k => Sys2Proof.Machine.execVredor d a b p c k s
  | .vscan d a p c o => Sys2Proof.Machine.execVscan d a p c o s
  | .vscanSeg d a sc p c o => Sys2Proof.Machine.execVscanSeg d a sc p c o s
  | .vraise d a x p c => Sys2Proof.Machine.execVraise d a x p c s
  | .vlower d a x p c => Sys2Proof.Machine.execVlower d a x p c s
  | .vperm d a b p c k => Sys2Proof.Machine.execVperm d a b p c k s
  | .vrev d a p c => Sys2Proof.Machine.execVrev d a p c s
  | .vzip d a b p c k => Sys2Proof.Machine.execVzip d a b p c k s
  | .vunzip d a b p c k => Sys2Proof.Machine.execVunzip d a b p c k s
  | .vsqueeze d a p c => Sys2Proof.Machine.execVsqueeze d a p c s
  | .vspread d a p c => Sys2Proof.Machine.execVspread d a p c s
  | .vrank d p => Sys2Proof.Machine.execVrank d p s
  | .vconf d a p c => Sys2Proof.Machine.execVconf d a p c s
  | .vpart q a sc c => Sys2Proof.Machine.execVpart q a sc c s
  | .vcuti q r m => Sys2Proof.Machine.execVcuti q r m s
  | .vcutx q r m => Sys2Proof.Machine.execVcutx q r m s
  | .vlast d a p c => Sys2Proof.Machine.execVlast d a p c s
  | .vfirst d a p c => Sys2Proof.Machine.execVfirst d a p c s
  | .vcvt d a t p c => Sys2Proof.Machine.execVcvt d a t p c s
  | .vnarrow d a x p c => Sys2Proof.Machine.execVnarrow d a x p c s
  | .vwiden d a p c => Sys2Proof.Machine.execVwiden d a p c s
  | .evExtended op d a b c p ca cb cc sb => Sys2Proof.Machine.execEvExtended op d a b c p ca cb cc sb s
  | .vmulh d a b p ca cb sb => Sys2Proof.Machine.execVmulh d a b p ca cb sb s
  | .vdiv d a b p ca cb sb => Sys2Proof.Machine.execVdiv d a b p ca cb sb s
  | .vrem d a b p ca cb sb => Sys2Proof.Machine.execVrem d a b p ca cb sb s
  | .vsadd d a b p ca cb sb => Sys2Proof.Machine.execVsadd d a b p ca cb sb s
  | .vssub d a b p ca cb sb => Sys2Proof.Machine.execVssub d a b p ca cb sb s
  | .vavg d a b p ca cb sb => Sys2Proof.Machine.execVavg d a b p ca cb sb s
  | .vabsd d a b p ca cb sb => Sys2Proof.Machine.execVabsd d a b p ca cb sb s
  | .vmulhr d a b p ca cb sb => Sys2Proof.Machine.execVmulhr d a b p ca cb sb s
  | .vqnt d sc a t p ca => Sys2Proof.Machine.execVqnt d sc a t p ca s
  | .vqnte d sc a t e th l p ca => Sys2Proof.Machine.execVqnte d sc a t e th l p ca s
  | .vdqnt d a sc t l p ca cb => Sys2Proof.Machine.execVdqnt d a sc t l p ca cb s
  | .vgathw d w ix x o p cb => Sys2Proof.Machine.execVgathw d w ix x o p cb s
  | .vld v b p m h => Sys2Proof.Machine.execVld v b p m h s
  | .vlds v b sc p m h => Sys2Proof.Machine.execVlds v b sc p m h s
  | .vldx v b ix p m h => Sys2Proof.Machine.execVldx v b ix p m h s
  | .vldseg v b n p m h => Sys2Proof.Machine.execVldseg v b n p m h s
  | .vst v b p m h => Sys2Proof.Machine.execVst v b p m h s
  | .vsts v b sc p m h => Sys2Proof.Machine.execVsts v b sc p m h s
  | .vstx v b ix p m h => Sys2Proof.Machine.execVstx v b ix p m h s
  | .vstseg v b n p m h => Sys2Proof.Machine.execVstseg v b n p m h s
  | .vldLong v b x k m h o sc n p cb => Sys2Proof.Machine.execVldLong v b x k m h o sc n p cb s
  | .vstLong v b x k m h o sc n p cb => Sys2Proof.Machine.execVstLong v b x k m h o sc n p cb s
  | .vamo v b ix p o q r => Sys2Proof.Machine.execVamo v b ix p o q r s
  | .vsave v b => Sys2Proof.Machine.execVsave v b s
  | .vrest v b => Sys2Proof.Machine.execVrest v b s
  | .pand d a b p => Sys2Proof.Machine.execPand d a b p s
  | .por d a b p => Sys2Proof.Machine.execPor d a b p s
  | .pxor d a b p => Sys2Proof.Machine.execPxor d a b p s
  | .pnot d a p => Sys2Proof.Machine.execPnot d a p s
  | .pandn d a b p => Sys2Proof.Machine.execPandn d a b p s
  | .pafter d a p => Sys2Proof.Machine.execPafter d a p s
  | .pset d p => Sys2Proof.Machine.execPset d p s
  | .pclr d => Sys2Proof.Machine.execPclr d s
  | .pcnt d a p => Sys2Proof.Machine.execPcnt d a p s
  | .pfirst d a p => Sys2Proof.Machine.execPfirst d a p s
  | .cpy d sc n e => Sys2Proof.Machine.execCpy d sc n e s
  | .cpyr v a n k => Sys2Proof.Machine.execCpyr v a n k s
  | .cpyw v a n k => Sys2Proof.Machine.execCpyw v a n k s
  | .cpyx d c sc => Sys2Proof.Machine.execCpyx d c sc s
  | .cpym sc m => Sys2Proof.Machine.execCpym sc m s
  | .vrecv d => Sys2Proof.Machine.execVrecv d s
  | .vstream b sc => Sys2Proof.Machine.execVstream b sc s
  | .pwait k => Sys2Proof.Machine.execPwait k s
  | .arw d a sc => Sys2Proof.Machine.execArw d a sc s
  | .await d a sc => Sys2Proof.Machine.execAwait d a sc s
  | .mcfg a b => Sys2Proof.Machine.execMcfg a b s
  | .mzero t => Sys2Proof.Machine.execMzero t s
  | .mop t va vb sa sb a b p ca cb => Sys2Proof.Machine.execMop t va vb sa sb a b p ca cb s
  | .mops t va vb sa sb a b p ca cb n1 n2 vm => Sys2Proof.Machine.execMops t va vb sa sb a b p ca cb n1 n2 vm s
  | .mrow t d a b p => Sys2Proof.Machine.execMrow t d a b p s
  | .mwrow t v a b p ca => Sys2Proof.Machine.execMwrow t v a b p ca s
  | .mld t a b => Sys2Proof.Machine.execMld t a b s
  | .mst t a b => Sys2Proof.Machine.execMst t a b s
  | .msave a => Sys2Proof.Machine.execMsave a s
  | .mrest a => Sys2Proof.Machine.execMrest a s
  | .mjoin t a b => Sys2Proof.Machine.execMjoin t a b s
  | .msplit t a => Sys2Proof.Machine.execMsplit t a s
  | .olset a b => Sys2Proof.Machine.execOlset a b s
  | .olclr a => Sys2Proof.Machine.execOlclr a s
  | .olcnt d a => Sys2Proof.Machine.execOlcnt d a s
  | .tspawn a b => Sys2Proof.Machine.execTspawn a b s
  | .tsig a b => Sys2Proof.Machine.execTsig a b s
  | .tdone => Sys2Proof.Machine.execTdone s
  | .tkill a => Sys2Proof.Machine.execTkill a s
  | .tyield => Sys2Proof.Machine.execTyield s
  | .bar => Sys2Proof.Machine.execBar s
  | .barinit a => Sys2Proof.Machine.execBarinit a s
  | .qpush a b => Sys2Proof.Machine.execQpush a b s
  | .qpop d a => Sys2Proof.Machine.execQpop d a s
  | .qsteal d a b => Sys2Proof.Machine.execQsteal d a b s
  | .talloc d a => Sys2Proof.Machine.execTalloc d a s
  | .tst sc a => Sys2Proof.Machine.execTst sc a s
  | .tld d a => Sys2Proof.Machine.execTld d a s
  | .tpost a b => Sys2Proof.Machine.execTpost a b s
  | .tdrop a => Sys2Proof.Machine.execTdrop a s
  | .linkOrPortTrains pool n lanes swid => Sys2Proof.Machine.execLinkOrPortTrains pool n lanes swid s
  | .zeroFillComplete core => Sys2Proof.Machine.execZeroFillComplete core s
  | .nonInstruction w => Sys2Proof.Machine.execNonInstruction w s
  | .fetchFault va => Sys2Proof.Machine.execFetchFault va s

end Sys2Proof.Machine
end

