-- ==== Sys2Proof/Machine/Strips.lean ====
section
/-!
DEFINITION. Strips of a parallel loop that run at once (R96): the turns of those younger than the one that its hart runs.
-/
namespace Sys2Proof.Machine

/-- What a younger strip may execute before the older ones have completed: its elements' addresses, and what it writes. -/
structure Early where
  /-- It writes the first scalar register that it names. -/
  x : Bool := false
  /-- It writes elements of the group at this register, all of them or those that its predicate selects. -/
  v : Option (VR × Bool) := none
  /-- It writes this predicate below vl. -/
  p : Option PR := none
  /-- The addresses of its accesses. -/
  vas : List Nat := []

/-- Machine registers that a loop's body reads as its own strip's (R96), and its hart's number. -/
def stripRegs : List Nat := [mVl, mAvl, mStrip, mVhead, mHartid]

/-- An instruction that a younger strip may execute early.  Any other waits until its strip is the oldest, which R96 allows
(DESIGN CHOICE, log entry 79). -/
def Hart.early (h : Hart) (i : Instr) : Option Early :=
  let at_ (a : XR) (off : Word) : List Nat := [effAddr (h.getX a) off]
  let els (p : PR) (f : Nat → Nat) : List Nat := (h.actives p).map f
  let size (v : VR) : Nat := (h.tagOf v).width / 8
  match i with
  | .nop | .cNop => some {}
  | .beq .. | .bne .. | .blt .. | .bge .. | .bltn .. | .bgen .. | .cBeq .. | .cBne .. | .cJ .. => some {}
  | .cAdd .. | .cSub .. | .cAnd .. | .cOr .. | .cXor .. | .cMv .. => some { x := true }
  | .cAddi .. | .cAddiX0 .. | .cShli .. | .cShri .. | .cSari .. | .cAndi .. => some { x := true }
  | .add .. | .sub .. | .and .. | .or .. | .xor .. | .shl .. | .shr .. | .sar .. | .slt .. | .sltn .. => some { x := true }
  | .mul .. | .mulh .. | .mulhn .. | .div .. | .divn .. | .rem .. | .remn .. => some { x := true }
  | .min .. | .max .. | .minn .. | .maxn .. | .clz .. | .ctz .. | .popc .. | .pcrel .. | .imhi .. => some { x := true }
  | .addi .. | .andi .. | .ori .. | .xori .. | .slti .. | .shli .. | .shri .. | .sari .. => some { x := true }
  | .fadd .. | .fsub .. | .fmul .. | .fdiv .. | .fsqrt .. | .fma .. | .fmin .. | .fmax .. => some { x := true }
  | .fcmpEq .. | .fcmpLt .. | .fcmpLe .. | .fcmpUn .. | .fcvt .. | .fclass .. => some { x := true }
  | .mrd _ m => if stripRegs.contains m.toNat then some { x := true } else none
  | .cLd64 _ a o => some { x := true, vas := at_ a (BitVec.ofNat 64 (8 * o.toNat)) }
  | .ld8 _ a o | .ld16 _ a o | .ld32 _ a o | .ld64 _ a o => some { x := true, vas := at_ a (sext64 o) }
  | .ld8z _ a o | .ld16z _ a o | .ld32z _ a o => some { x := true, vas := at_ a (sext64 o) }
  | .cSt64 _ a o => some { vas := at_ a (BitVec.ofNat 64 (8 * o.toNat)) }
  | .st8 _ a o | .st16 _ a o | .st32 _ a o | .st64 _ a o => some { vas := at_ a (sext64 o) }
  | .vadd d .. | .vsub d .. | .vmul d .. | .vmin d .. | .vmax d .. | .vand d .. | .vor d .. | .vxor d .. =>
    some { v := some (d, false) }
  | .vaddVx d .. | .vsubVx d .. | .vmulVx d .. | .vminVx d .. | .vmaxVx d .. | .vandVx d .. | .vorVx d .. | .vxorVx d .. =>
    some { v := some (d, false) }
  | .vfma d .. | .vfms d .. | .vfnma d .. | .vmacw d .. | .vfmaVx d .. | .vfmsVx d .. | .vfnmaVx d .. | .vmacwVx d .. =>
    some { v := some (d, false) }
  | .vneg d .. | .vabs d .. | .vsqrt d .. | .vrcp d .. | .vrsqrt d .. | .vexp2 d .. | .vclz d .. | .vpopc d .. =>
    some { v := some (d, false) }
  | .vclass d .. | .vmv d .. | .vsplat d .. | .vid d .. | .vcvt d .. | .vnarrow d .. | .vwiden d .. =>
    some { v := some (d, false) }
  | .vshl d .. | .vshr d .. | .vshlVx d .. | .vshrVx d .. => some { v := some (d, false) }
  | .vsel d .. => some { v := some (d, true) }
  | .vcmp q .. | .vcmpVx q .. => some { p := some q }
  | .pand d .. | .por d .. | .pxor d .. | .pnot d .. | .pandn d .. | .pafter d .. | .pset d .. | .pclr d => some { p := some d }
  | .vld v b p .plain _ => some { v := some (v, false), vas := els p fun e => h.unitAddr b (size v) e 0 }
  | .vlds v b st p .plain _ => some { v := some (v, false), vas := els p fun e => h.strideAddr b st e 0 }
  | .vldx v b x p .plain _ => some { v := some (v, false), vas := els p fun e => h.indexAddr b x e 0 }
  | .vst v b p .plain _ => some { vas := els p fun e => h.unitAddr b (size v) e 0 }
  | .vsts _ b st p .plain _ => some { vas := els p fun e => h.strideAddr b st e 0 }
  | .vstx _ b x p .plain _ => some { vas := els p fun e => h.indexAddr b x e 0 }
  | _ => none

/-- An address is that of no UC or DEV page: loads of these are not performed early (R96). -/
def State.earlyPage (s : State) (va : Nat) : Bool :=
  match translate s (whoOf s s.cur) va .load false with
  | .ok _ p => !p.attr.direct
  | _ => false

/-- The hart as a younger strip sees it. -/
def Strip.enter (S : Strip) (h : Hart) : Hart :=
  let h := { h with pc := S.pc, x := S.regs.x, v := S.regs.v, tag := S.regs.tag, p := S.regs.p, resume := Resume.zero,
                    pre := [], bpSkip := false, wpSkip := false, par := none }
  ((h.setMreg mVl (BitVec.ofNat 64 S.vl)).setMreg mStrip (setBits (h.mreg mStrip) 47 0 S.pos)).setMreg mFflags S.flags

/-- The bytes that an instruction has written of the group at v, whose registers are l: its elements, or the whole group
where the width changes (R282). -/
def earlyBytes (h h' : Hart) (i : Instr) (v : VR) (all : Bool) (l : List Nat) : List (Nat × Nat) :=
  let w := (h'.tagOf v).width
  if w = (h.tagOf v).width ∧ 8 ≤ w then
    ((List.range h.vl).filter fun e => all || h.pred (maskOf i) e).map fun e => (0x4000 * v.val + e * (w / 8), w / 8)
  else l.map fun r => (0x4000 * r, 0x4000)

/-- The strip after an instruction, from the hart before and after it. -/
def Strip.after (S : Strip) (s t : State) (i : Instr) (o : Early) : Strip :=
  let h := s.me
  let h' := t.hart s.cur
  let regs := match o.v with | some _ => s.written t i | none => []
  { S with
    pc := h'.pc, regs := h'.regs, flags := h'.mreg mFflags, mem := t.hmem s.cur
    xw := S.xw ++ (if o.x then (usesOf i).x.take 1 else []).filter (· != 0)
    tw := S.tw ++ regs
    vw := S.vw ++ (match o.v with | some (v, all) => earlyBytes h h' i v all regs | none => [])
    pw := S.pw ++ (match o.p with | some q => if q = 0 then [] else [(0x8000 * q.val, h.vl)] | none => []) }

/-- The instruction of a younger strip has completed, with no effect but on the strip, and on what serves its accesses: a
stop, a wait and a step that would change memory or the hart's frames come when the strip is the oldest (R96). -/
def State.earlyOk (s t : State) : Bool :=
  let h := s.me
  let h' := t.hart s.cur
  h'.pc != h.pc && h'.level == h.level && h'.mreg mEstat == h.mreg mEstat && h'.mreg mKstat == h.mreg mKstat &&
  h'.spilled == h.spilled && !h'.paused && (t.hmem s.cur).bag.isEmpty && decide (t.mem = s.mem)

/-- A younger strip's turn: one instruction of it, where it can execute early. -/
noncomputable def State.stripIssue (s : State) (hid k : Nat) (P : Par) (S : Strip) : State :=
  let h := s.hart hid
  let s0 := (s.setHart hid (S.enter h)).setHmem hid S.mem
  if (s0.boundaryStop hid).isSome then s
  else match s0.fetchGate hid false with
  | .stay _ => s
  | .go s1 i =>
    match s1.me.early i with
    | none => s
    | some o =>
      if !(o.vas.all s1.earlyPage) then s
      else match exec i s1 with
      | .next t =>
        let u := s1.settle t i
        if s1.clobbers t i || !s0.earlyOk u then s
        else
          let h' := u.hart hid
          let P := { P with young := P.young.set k (S.after s1 u i o) }
          (u.setHart hid { h with disp := h'.disp, passed := h'.passed, par := some P }).setHmem hid (s.hmem hid)
      | _ => s

/-- The strip that starts next: on the lowest free cluster, where the last one ends (R96). -/
def State.nextYoung (s : State) (hid : Nat) (P : Par) : Option Strip :=
  let h := s.hart hid
  let used := P.cluster :: P.young.map (·.cluster)
  let pos := match P.young.getLast? with | some S => S.pos + S.vl | none => bits (h.mreg mStrip) 47 0 + h.vl
  if decide (bits (h.mreg mAvl) 47 0 ≤ pos) || h.stream.isSome || s.regCopies hid then none
  else
    ((s.clusters hid).find? fun k => !used.contains k).map fun k =>
      { cluster := k, pc := BitVec.ofNat 55 (bits (h.mreg mVhead) 54 0), pos
        vl := h.stripVl pos (2048 * s.clusterLanes hid k / h.ew.bits), flags := 0
        regs := P.start, start := P.done, xw := [], tw := [], vw := [], pw := [], mem := Mem.reset }

/-- The turn of younger strip k of a hart, counted from 0: it issues, or it is the one to start (R96). -/
noncomputable def State.stripTurn (s : State) (hid k : Nat) : State :=
  let h := s.hart hid
  match h.par with
  | none => s
  | some P =>
    if s.stopped hid || s.halted hid || h.paused || h.waiting != .no || !h.looping || s.owesDetach hid then s
    else match P.young[k]? with
    | some S => s.stripIssue hid k P S
    | none =>
      if k = P.young.length then
        match s.nextYoung hid P with
        | some S => s.setHart hid { h with par := some { P with young := P.young ++ [S] } }
        | none => s
      else s

end Sys2Proof.Machine
end

