-- ==== Sys2Proof/Machine/Policy.lean ====
section
/-!
DEFINITION. The turn that comes next where the driver names none: a fixed order of what can move.
-/
namespace Sys2Proof.Machine

/-- A row of the machine or of the host, which no instruction word names. -/
def Instr.isEvent (i : Instr) : Bool :=
  match i with
  | .nonInstruction _ => false
  | .fetchFault _ => false
  | i => i.encode.isNone

/-- What still acts in recovery: the boot, the host link over CXL.io with the host's register accesses, and attestation
(R29, R58, R65). -/
def Instr.inRecovery : Instr → Bool
  | .deviceReset .. => true
  | .hostLinkTrain .. => true
  | .attestationRequest .. => true
  | .hubRegisterWrite _ _ _ host => host
  | .lqdbDoorbell .. => true
  | .lqbaseWrite .. => true
  | .lqctlEnable .. => true
  | .lqctlRst .. => true
  | .swint .. => true
  | .debugSetWrite .. => true
  | .dbghartHalt .. => true
  | .dbgdatRead => true
  | .dbgdatWrite .. => true
  | .trctlWrite .. => true
  | _ => false

/-- An event: in recovery only those that still act; a row that names an instruction word is no event. -/
def State.runEvent (s : State) (i : Instr) : Host.Outcome State Fault Refusal :=
  if Instr.isEvent i && (s.pkg.recovery.isNone || Instr.inRecovery i) then exec i s else .next s

/-- What a gate gives: the instruction executes, and its passes and frames are settled; or the turn ends. -/
noncomputable def Gate.run : Gate → Host.Outcome State Fault Refusal
  | .go s i => match exec i s with
    | .next t => if s.clobbers t i then .next (s.heldTurn i) else .next (s.settle t i)
    | o => o
  | .stay s => .next (if s.drv.pause.isSome then { s with drv := { s.drv with pause := none } } else s)

/-- The turn of a hart; in recovery no hart runs (R29). -/
noncomputable def State.runHart (s : State) (g : State → Gate) : Host.Outcome State Fault Refusal :=
  if s.pkg.recovery.isSome then .fault .recovery else (g s).run

/-- What a turn other than a hart's gives; in recovery the links carry nothing but the boot (R29). -/
def State.runInput (s : State) (t : Turn) : State :=
  match t, s.pkg.recovery with
  | .outside _ _, some _ => s
  | .lineWrite _ _, some _ => s
  | .feature true _, some _ => s
  | t, _ => s.input t

/-- The turn of a hart in which a strip that opens runs on one lane cluster (R96); the choice ends with it. -/
noncomputable def State.splitGate (s : State) (hid : Nat) : Gate :=
  ({ s with drv := { s.drv with split := true } }).gate hid false
def unsplit (o : Host.Outcome State Fault Refusal) : Host.Outcome State Fault Refusal :=
  match o with
  | .next s => .next { s with drv := { s.drv with split := false } }
  | o => o

/-- What a turn gives. -/
noncomputable def State.runTurn (s : State) (t : Turn) : Host.Outcome State Fault Refusal :=
  match t with
  | .hart hid hold => s.runHart fun s => s.gate hid hold
  | .part hid pass => s.runHart fun s => s.partGate hid pass
  | .strip hid 0 => unsplit (s.runHart fun s => s.splitGate hid)
  | .strip hid (k + 1) => .next (if s.pkg.recovery.isSome then s else s.stripTurn hid k)
  | .event i => s.runEvent i
  | t => .next (s.runInput t)

/-- The turn changes something besides the driver's own fields. -/
noncomputable def State.moves (s : State) (t : Turn) : Bool :=
  match s.runTurn t with
  | .next s' => decide ({ s' with drv := s.drv } ≠ s)
  | _ => true

/-- Turns that bring the requests of the coherence machinery to an end (R36). -/
def State.cohTurns (s : State) : List Turn :=
  (s.coh.reqs.flatMap fun r =>
    (r.probes.map fun h => Turn.event (if r.down then .pdwn h r.frame else .pinv h r.frame)) ++
    (r.waiting.flatMap fun h => [Turn.event (.data h r.frame), .event (.ack h r.frame), .event (.absent h r.frame)]) ++
    [Turn.event (.data r.h r.frame), .event (.grant r.h r.frame)]) ++
  s.coh.wb.map fun l => Turn.event (.putd l.h l.frame false)

/-- Turns of the memory system: drains, acknowledgements, held accesses, engines. -/
def State.memTurns (s : State) : List Turn :=
  let from_ (p : Place) (n : Nat) : List Turn := (List.range n).map fun k => Turn.event (.drain p k)
  (s.mems.flatMap fun m => from_ (.sb m.1) m.2.sb.length) ++
  (s.coreQ.flatMap fun q => from_ (.core q.1) q.2.length) ++
  from_ .device s.devQ.length ++ from_ .fabric s.fabQ.length ++
  (List.range s.unacked.length).map (fun k => Turn.event (.poolWriteAck k)) ++
  (s.mems.flatMap fun m => if m.2.bag.isEmpty then [] else
    [Turn.event (.memoryRead m.1 0), Turn.event (.ticket m.1)]) ++
  (s.mems.filterMap fun m => if m.2.posts.isEmpty then none else some (Turn.event (.memoryRead m.1 m.2.bag.length))) ++
  (s.eng.flatMap fun q => q.2.flatMap fun c =>
    Turn.event (.engineMigRetry q.1 c.eq) ::
      (List.range (if c.kind = .cpym then 16 else c.chunks)).map fun k => Turn.event (.engineChunk q.1 c.eq k)) ++
  (s.harts.flatMap fun h => (List.range h.2.rx.length).map fun i => Turn.event (.stripLand h.1 i))

/-- Turns of the hub and the scheduler. -/
noncomputable def State.hubTurns (s : State) : List Turn :=
  (s.xlat.xinv.map fun x => Turn.event (.xinvComplete x.hid)) ++
  (s.cores.flatMap fun c => Turn.event (.zeroFillComplete c.1) ::
    c.2.waking.map fun g => Turn.event (.wakeComplete false c.1 g)) ++
  (s.hub.l2waking.map fun g => Turn.event (.wakeComplete true (g / 4) (g % 4))) ++
  ((List.range 64).flatMap fun n => [Turn.event (.packetFetch n), .event (.waitPacketComplete n),
    .event (.counterFreeze n), .event (.fenceRelease n), .event (.ctxdropUnbind n)]) ++
  (s.cores.map fun c => Turn.event (.coreQuiesce c.1)) ++
  (s.pool.checks.map fun c => Turn.event (.identityCheckAbandon c.1)) ++
  (s.ring.tasks.flatMap fun t => [Turn.event (.preemption (slotOf t.1) (idOf t.1)),
    .event (.pendingTableFit (slotOf t.1) (idOf t.1)), .event (.timeSliceExpiry (slotOf t.1) (idOf t.1)),
    .event (.gatingMarkTimeout (slotOf t.1) (idOf t.1)), .event (.arrivalPreemption (slotOf t.1) (idOf t.1))]) ++
  ((List.range 128).flatMap fun c => [Turn.event (.gangPlacement c), .event (.rePlacement c)]) ++
  ((List.range 128).map fun c => Turn.event (.workSteal c)) ++
  ((List.range 4).map fun q => Turn.event (.gangReserve q)) ++
  (s.harts.flatMap fun h => [Turn.event (.interruptDelivery h.1 1), .event (.interruptDelivery h.1 2),
    .event (.waitTimeout h.1)])

/-- The placed harts, from the one after the last that had its turn. -/
def State.hartTurns (s : State) : List Turn :=
  let l := s.harts.map (·.1)
  ((l.filter (s.cur < ·)) ++ l.filter (· ≤ s.cur)).map fun h => Turn.hart h false

/-- The fixed policy: a clk after each turn of a hart; then what can move; else a clk. -/
noncomputable def State.policy (s : State) : Turn :=
  if s.drv.due || s.pkg.recovery.isSome then .tick 1 []
  else ((s.memTurns ++ s.cohTurns ++ s.hubTurns ++ s.hartTurns).find? s.moves).getD (.tick 1 [])

end Sys2Proof.Machine
end

