-- ==== Sys2Proof/Machine/Step.lean ====
section
/-!
DEFINITION. One step: the turn that the driver names next, or the policy's; and a state whose next step
fetches a given word.
-/
namespace Sys2Proof.Machine

/-- The turn of the next step, and the state that it acts on. -/
noncomputable def State.nextTurn (s : State) : Turn × State :=
  match s.drv.sched with
  | t :: rest => (t, { s with drv := { s.drv with sched := rest } })
  | [] => (s.policy, s)

/-- One step of the machine. -/
noncomputable def step (s : State) : Host.Outcome State Fault Refusal :=
  s.nextTurn.2.runTurn s.nextTurn.1

/-- Bytes in an image from k on. -/
def putBytes (m : List Host.Cell) (k : Nat) : List Byte → List Host.Cell
  | [] => m
  | b :: bs => putBytes (SMap.set (0 : Byte) m k b) (k + 1) bs

/-- Root task 1 of context slot 0, RUNNING on hart slot 0 at level U with lane group 0, under page tables at
0x1000_0000 that map the first 32 GiB of die 0 onto themselves; its PC is 0x10_0000, where the word stands, and its
turn is next.  This stands for a launch and a placement. -/
def State.withFetchWord (s : State) (nbits w : Nat) : State :=
  let h := { (Hart.reset.setMreg mPtbase 0x10000000) with task := some 1, pc := 0x100000 }
  let t : Task := { Task.reset with st := .running, members := [.placed 0], units := [none] }
  let word := wordBytes (tableParcels nbits) w
  let m := putBytes s.mem 0x100000 (word ++ List.replicate (8 - word.length) 0)
  let m := memWrite (memWrite m 0x10000000 8 0x10004001) 0x10004000 8 0x30F
  let s := ((s.setHart 0 h).setTask 1 t).setHolders 0 0 1
  { s with mem := m, drv := { s.drv with sched := [.hart 0 false] } }

end Sys2Proof.Machine
end

