-- ==== Sys2Proof/Safety.lean ====
section
/-!
DEFINITION. The terms in which claims speak of a step: what an instruction that completes leaves, and what it
leaves alone.
-/
namespace Sys2Proof.Machine

/-- t differs from s in no more than the hart slots and the hub's register words. -/
def State.agrees (s t : State) : Prop := { t with harts := s.harts, hub := { t.hub with reg := s.hub.reg } } = s

/-- t is s after the executing hart has completed an instruction that leaves the hart as h: the hart goes on at pc
with no restart point, one instruction is counted (R203), and nothing else has changed. -/
structure State.Completes (s t : State) (h : Hart) (pc : BitVec 55) : Prop where
  me : t.hart s.cur =
    { h with pc := pc, resume := Resume.zero, wpSkip := false, bpSkip := false, paused := false }
  others : ∀ j, j ≠ s.cur → t.hart j = s.hart j
  words : ∀ o, t.hreg o = (s.countMe 12 1).hreg o
  rest : s.agrees t

/-- The same for a vector or matrix instruction, which counts as such too (R203). -/
structure State.CompletesV (s t : State) (h : Hart) (pc : BitVec 55) : Prop where
  me : t.hart s.cur =
    { h with pc := pc, resume := Resume.zero, wpSkip := false, bpSkip := false, paused := false }
  others : ∀ j, j ≠ s.cur → t.hart j = s.hart j
  words : ∀ o, t.hreg o = ((s.countMe 12 1).countMe 13 1).hreg o
  rest : s.agrees t

/-- An outcome is a next state in which the executing hart has completed, leaving h, and goes on at pc. -/
def State.Goes (s : State) (o : Host.Outcome State Fault Refusal) (h : Hart) (pc : BitVec 55) : Prop :=
  ∃ t, o = .next t ∧ s.Completes t h pc

/-- The same for a vector or matrix instruction. -/
def State.GoesV (s : State) (o : Host.Outcome State Fault Refusal) (h : Hart) (pc : BitVec 55) : Prop :=
  ∃ t, o = .next t ∧ s.CompletesV t h pc

/-- An instruction of n bytes completes and its whole effect is that rd holds v (nothing for x0). -/
def State.Gives (s : State) (o : Host.Outcome State Fault Refusal) (n : Nat) (rd : XR) (v : Word) : Prop :=
  s.Goes o (s.me.setX rd v) (s.me.pcNext n)

/-- The executing hart takes a trap: the outcome is the state after the shared exception operation. -/
def State.Traps (s : State) (o : Host.Outcome State Fault Refusal) (t : Trap) : Prop :=
  o = .next (s.takeTrap s.cur t)

/-- No element below vl of a register of the executing hart stands in an uncorrectable word (R26). -/
def State.wordsSound (s : State) : Prop := ∀ v t e, e < s.me.vl → s.elemBad v t e = false

/-- Nothing stops a vector instruction from outside: no residue check of it fails and no word that it reads is
uncorrectable (R26), no register that it needs is spilled (R106), or it has no element, and its turn ends at no granule of
it (R86). -/
abbrev State.Calm (s : State) : Prop :=
  (s.hmem s.cur).resErr = none ∧ (s.me.vl = 0 ∨ s.me.spilled = []) ∧ s.drv.pause = none ∧ s.wordsSound

/-- An element below vl that the instruction has still to do (R102, R103). -/
def State.fresh (s : State) (e : Nat) : Bool := !s.me.resume.did e

/-- The outcome of an instruction of n bytes is its effect e, and then its completion. -/
def State.Effects (e : State) (o : Host.Outcome State Fault Refusal) (n : Nat) : Prop := e.Goes o e.me (e.me.pcNext n)

/-- The same for a vector or matrix instruction. -/
def State.EffectsV (e : State) (o : Host.Outcome State Fault Refusal) (n : Nat) : Prop := e.GoesV o e.me (e.me.pcNext n)

/-! Accesses to memory. -/

/-- Where n bytes at va lie, for an access of the executing hart that passes every check of R260 and whose
translation is cached, so that checking it changes nothing. -/
def State.reaches (s : State) (va n : Nat) (store amo : Bool) : Option Phys :=
  match s.access va n 0 store amo (!s.me.wpSkip) with
  | .ok (s', p) => if s' = s then some p else none
  | .error _ => none

/-- The effective address of R260. -/
def State.addrOf (s : State) (a : XR) (off : Word) : Nat := (s.getX a + off).toNat % 2 ^ 55

/-- What an access of n bytes at a place leaves of the caches (R38, R111). -/
def State.drawn (s : State) (p : Phys) (n : Nat) (store : Bool) : State :=
  if p.attr.cached then s.touchL1 s.cur p.key n store else s

/-- The effect e of an instruction of len bytes, with h as what it leaves of the executing hart. -/
def State.Leaves (e : State) (o : Host.Outcome State Fault Refusal) (len : Nat) (h : Hart) : Prop :=
  e.Goes o h (e.me.pcNext len)

/-- A load of n bytes at va that passes its checks reads now, where no access of its hart to these bytes is held, the
driver lets it or its page is UC, and no request for its frame is under way: rd receives f of the value that
the hart sees there, the L1 has the words, and the read is noted. -/
def State.LoadsNow (s : State) (o : Host.Outcome State Fault Refusal) (len : Nat) (rd : XR) (va n : Nat)
    (f : Nat → Word) : Prop :=
  ∀ p, s.reaches va n false false = some p → p.attr ≠ .dev →
    s.olderHeld s.cur s.drv.nextId p.key n = false → (s.drv.hold = false ∨ p.attr = .uc) →
    (p.attr.cached = true → s.l1Ready s.cur p.key n false = true) →
    let r := s.readValue s.myPath p.key n
    r.2.2 = false →
    let e := ((s.drawn p n false).noteRead s.cur s.drv.nextId p.key n r.2.1).bump
    e.Leaves o len (e.me.setX rd (f r.1))

/-- A load that stays in the bag, as the driver says or behind an older held access to its bytes: rd is as it was, and the
bag holds the read that will deliver it; an acquire holds every later instruction until then (R134, R137). -/
def State.LoadsLater (s : State) (o : Host.Outcome State Fault Refusal) (len : Nat) (rd : XR) (va n : Nat)
    (z : LdSize) (acq : Bool) : Prop :=
  ∀ p, s.reaches va n false false = some p → p.attr ≠ .dev → p.attr ≠ .uc →
    s.mayHold s.cur s.drv.nextId p n = true →
    (s.holdAll s.cur [BagItem.of s.drv.nextId p n va (.rd (.x rd z)) none false acq]).bump.Leaves o len s.me

/-- A load of 8 bytes from the hub block: rd receives what the register read gives (R22). -/
def State.LoadsHub (s : State) (o : Host.Outcome State Fault Refusal) (len : Nat) (rd : XR) (va : Nat) : Prop :=
  ∀ p, s.reaches va 8 false false = some p → p.attr = .dev → s.isBad p.key 8 = false →
    s.hubReady (p.pa - paHub) = true →
    let r := ((s.noteRead s.cur s.drv.nextId p.key 8 []).bump).hubRead (p.pa - paHub)
    r.1.Leaves o len (r.1.me.setX rd r.2)

/-- A store of the low n bytes of rs at va that passes its checks: where no access of its hart to these bytes is
held and its release may perform, it enters the hart's store buffer; to a UC page it performs at its home, and a POOL
release leaves the buffer at once (R136). -/
def State.Stores (s : State) (o : Host.Outcome State Fault Refusal) (len : Nat) (rs : XR) (va n : Nat)
    (rel : Option Scope) : Prop :=
  ∀ p, s.reaches va n true false = some p → p.attr ≠ .dev →
    s.olderHeld s.cur s.drv.nextId p.key n = false →
    (p.attr = .uc ∨ rel = some .pool → s.mayLeave s.cur s.drv.nextId = true) →
    (rel = some .pool → s.detachedBefore s.cur s.drv.nextId = false ∧
      (p.attr.cached = true → s.l1Ready s.cur p.key n true = true)) →
    (∀ S, rel = some S → (p.attr = .uc ∨ S = .pool) →
      s.earlierDone s.cur s.drv.nextId S false (s.hmem s.cur).obs = true) →
    let w : Piece := { p, n, val := (s.getX rs).toNat % 2 ^ (8 * n), va }
    let e := s.bump.bufferAll s.cur s.drv.nextId [w] rel none true
    (if rel = some .pool then e.leaveNow s.cur s.drv.nextId else e).Effects o len

/-- A plain store that stays in the bag behind an older held access to its bytes (R134). -/
def State.StoresLater (s : State) (o : Host.Outcome State Fault Refusal) (len : Nat) (rs : XR) (va n : Nat) : Prop :=
  ∀ p, s.reaches va n true false = some p → p.attr ≠ .dev → p.attr ≠ .uc →
    s.olderHeld s.cur s.drv.nextId p.key n = true →
    (s.holdAll s.cur [BagItem.of s.drv.nextId p n va (.wr (BitVec.ofNat 64 ((s.getX rs).toNat % 2 ^ (8 * n))))
      none false false]).bump.Leaves o len s.me

/-- A store of 8 bytes to the hub block is that register write (R22). -/
def State.StoresHub (s : State) (o : Host.Outcome State Fault Refusal) (len : Nat) (rs : XR) (va : Nat) : Prop :=
  ∀ p, s.reaches va 8 true false = some p → p.attr = .dev →
    s.olderHeld s.cur s.drv.nextId p.key 8 = false → s.mayLeave s.cur s.drv.nextId = true →
    (s.bump.hubStore (p.pa - paHub) (s.getX rs) s.cur).Effects o len

/-- An atomic at the address in ra that passes its checks, with no older access of its hart to these bytes under
way and no request for its frame: it reads and writes at the home in one step, and rd receives the old value. -/
def State.Updates (s : State) (o : Host.Outcome State Fault Refusal) (rd ra : XR) (wide rel : Bool) (S : Scope)
    (new : Nat → Nat) : Prop :=
  let n := if wide then 8 else 4
  ∀ p, s.reaches (s.addrOf ra 0) n true true = some p → s.isBad p.key n = false →
    s.olderHeld s.cur s.drv.nextId p.key n = false → s.olderPending s.cur s.drv.nextId p.key n = false →
    s.mayLeave s.cur s.drv.nextId = true → s.amoIdle p.key p.attr.cached = true →
    (s.drv.hold = false ∨ p.attr = .uc ∨ rel = true ∧ S = .pool) →
    (rel = true → s.earlierDone s.cur s.drv.nextId S false (s.hmem s.cur).obs = true ∧
      s.detachedBefore s.cur s.drv.nextId = false) →
    let s1 := (s.touchAmo s.cur (BagItem.of s.drv.nextId p n (s.addrOf ra 0) (.rd .none) none false false)).bump
    let r := s1.readValue [] p.key n
    let e := (s1.noteRead s.cur s.drv.nextId p.key n r.2.1).writeNow s.cur s.drv.nextId p.key n (new r.1) (s.addrOf ra 0)
    e.Leaves o 4 (s1.me.setX rd (if wide then BitVec.ofNat 64 r.1 else (BitVec.ofNat 32 r.1).signExtend 64))

end Sys2Proof.Machine
end

