-- ==== Sys2Proof/Forms.lean ====
section
/-!
DEFINITION. The vector instructions by shape, as the statements group them: what each reads, what it writes, and how
its result is computed (R282 to R308, R313 to R317).
-/
namespace Sys2Proof.Machine

/-- An elementwise instruction: its length, its operation, its sources, its destination and its predicate. -/
structure ElemForm where
  len : Nat
  op : ElemOp
  srcs : List Src
  vd : VR
  pm : PR

/-- The elementwise instructions (R283 to R287, R290 to R292). -/
def elemForm : Instr → Option ElemForm
  | .vadd d a b p _ _ => some ⟨4, binElem .add, [.v a, .v b], d, p⟩
  | .vaddVx d a x p _ => some ⟨4, binElem .add, [.v a, .x x], d, p⟩
  | .vsub d a b p _ _ => some ⟨4, binElem .sub, [.v a, .v b], d, p⟩
  | .vsubVx d a x p _ => some ⟨4, binElem .sub, [.v a, .x x], d, p⟩
  | .vmul d a b p _ _ => some ⟨4, binElem .mul, [.v a, .v b], d, p⟩
  | .vmulVx d a x p _ => some ⟨4, binElem .mul, [.v a, .x x], d, p⟩
  | .vmin d a b p _ _ => some ⟨4, binElem .min, [.v a, .v b], d, p⟩
  | .vminVx d a x p _ => some ⟨4, binElem .min, [.v a, .x x], d, p⟩
  | .vmax d a b p _ _ => some ⟨4, binElem .max, [.v a, .v b], d, p⟩
  | .vmaxVx d a x p _ => some ⟨4, binElem .max, [.v a, .x x], d, p⟩
  | .vand d a b p _ _ => some ⟨4, binElem .and, [.v a, .v b], d, p⟩
  | .vandVx d a x p _ => some ⟨4, binElem .and, [.v a, .x x], d, p⟩
  | .vor d a b p _ _ => some ⟨4, binElem .or, [.v a, .v b], d, p⟩
  | .vorVx d a x p _ => some ⟨4, binElem .or, [.v a, .x x], d, p⟩
  | .vxor d a b p _ _ => some ⟨4, binElem .xor, [.v a, .v b], d, p⟩
  | .vxorVx d a x p _ => some ⟨4, binElem .xor, [.v a, .x x], d, p⟩
  | .vmulh d a b p _ _ sb => some ⟨8, binElem .mulh, [.v a, srcOf b sb], d, p⟩
  | .vdiv d a b p _ _ sb => some ⟨8, binElem .div, [.v a, srcOf b sb], d, p⟩
  | .vrem d a b p _ _ sb => some ⟨8, binElem .rem, [.v a, srcOf b sb], d, p⟩
  | .vsadd d a b p _ _ sb => some ⟨8, binElem .sadd, [.v a, srcOf b sb], d, p⟩
  | .vssub d a b p _ _ sb => some ⟨8, binElem .ssub, [.v a, srcOf b sb], d, p⟩
  | .vavg d a b p _ _ sb => some ⟨8, binElem .avg, [.v a, srcOf b sb], d, p⟩
  | .vabsd d a b p _ _ sb => some ⟨8, binElem .absd, [.v a, srcOf b sb], d, p⟩
  | .vmulhr d a b p _ _ sb => some ⟨8, binElem .mulhr, [.v a, srcOf b sb], d, p⟩
  | .vfma d a b p _ _ => some ⟨4, terElem .fma, [.v a, .v b, .v d], d, p⟩
  | .vfmaVx d a x p _ => some ⟨4, terElem .fma, [.v a, .x x, .v d], d, p⟩
  | .vfms d a b p _ _ => some ⟨4, terElem .fms, [.v a, .v b, .v d], d, p⟩
  | .vfmsVx d a x p _ => some ⟨4, terElem .fms, [.v a, .x x, .v d], d, p⟩
  | .vfnma d a b p _ _ => some ⟨4, terElem .fnma, [.v a, .v b, .v d], d, p⟩
  | .vfnmaVx d a x p _ => some ⟨4, terElem .fnma, [.v a, .x x, .v d], d, p⟩
  | .vmacw d a b p _ _ => some ⟨4, terElem .macw, [.v a, .v b, .v d], d, p⟩
  | .vmacwVx d a x p _ => some ⟨4, terElem .macw, [.v a, .x x, .v d], d, p⟩
  | .vneg d a p _ => some ⟨4, unElem .neg, [.v a], d, p⟩
  | .vabs d a p _ => some ⟨4, unElem .abs, [.v a], d, p⟩
  | .vsqrt d a p _ => some ⟨4, unElem .sqrt, [.v a], d, p⟩
  | .vrcp d a p _ => some ⟨4, unElem .rcp, [.v a], d, p⟩
  | .vrsqrt d a p _ => some ⟨4, unElem .rsqrt, [.v a], d, p⟩
  | .vexp2 d a p _ => some ⟨4, unElem .exp2, [.v a], d, p⟩
  | .vclz d a p _ => some ⟨4, unElem .clz, [.v a], d, p⟩
  | .vpopc d a p _ => some ⟨4, unElem .popc, [.v a], d, p⟩
  | .vclass d a p _ => some ⟨4, unElem .cls, [.v a], d, p⟩
  | .vmv d a p _ => some ⟨4, unElem .mv, [.v a], d, p⟩
  | .vsel d a b p _ _ => some ⟨4, selElem, [.v a, .v b], d, p⟩
  | .vsplat d x p => some ⟨4, splatElem x d, [], d, p⟩
  | .vid d p => some ⟨4, idElem d, [], d, p⟩
  | .vshl d a b p _ _ => some ⟨4, shiftElem true, [.v a, .v b], d, p⟩
  | .vshlVx d a x p _ => some ⟨4, shiftElem true, [.v a, .x x], d, p⟩
  | .vshr d a b p _ _ => some ⟨4, shiftElem false, [.v a, .v b], d, p⟩
  | .vshrVx d a x p _ => some ⟨4, shiftElem false, [.v a, .x x], d, p⟩
  | .vcvt d a t p _ => some ⟨4, cvtElem t, [.v a], d, p⟩
  | .vnarrow d a x p _ => some ⟨4, narrowElem x, [.v a], d, p⟩
  | .vwiden d a p _ => some ⟨4, widenElem, [.v a], d, p⟩
  | .evExtended op d a b c p _ _ _ sb =>
    let y := srcOf b sb
    match op with
    | .vadd => some ⟨8, binElem .add, [.v a, y], d, p⟩
    | .vsub => some ⟨8, binElem .sub, [.v a, y], d, p⟩
    | .vmul => some ⟨8, binElem .mul, [.v a, y], d, p⟩
    | .vmin => some ⟨8, binElem .min, [.v a, y], d, p⟩
    | .vmax => some ⟨8, binElem .max, [.v a, y], d, p⟩
    | .vand => some ⟨8, binElem .and, [.v a, y], d, p⟩
    | .vor => some ⟨8, binElem .or, [.v a, y], d, p⟩
    | .vxor => some ⟨8, binElem .xor, [.v a, y], d, p⟩
    | .vfma => some ⟨8, terElem .fma, [.v a, y, .v c], d, p⟩
    | .vfms => some ⟨8, terElem .fms, [.v a, y, .v c], d, p⟩
    | .vfnma => some ⟨8, terElem .fnma, [.v a, y, .v c], d, p⟩
    | .vmacw => some ⟨8, terElem .macw, [.v a, y, .v c], d, p⟩
    | .unary => some ⟨8, unElem (unOps.getD b.val .mv), [.v a], d, p⟩
    | .vsel => some ⟨8, selElem, [.v a, .v b], d, p⟩
    | .vsplat => some ⟨8, splatElem b d, [], d, p⟩
    | .vid => some ⟨8, idElem d, [], d, p⟩
    | .vshl => some ⟨8, shiftElem true, [.v a, y], d, p⟩
    | .vshr => some ⟨8, shiftElem false, [.v a, y], d, p⟩
    | .vcvt => some ⟨8, cvtElem (tagTable.getD b.val .s32), [.v a], d, p⟩
    | .vnarrow => some ⟨8, narrowElem b, [.v a], d, p⟩
    | .vwiden => some ⟨8, widenElem, [.v a], d, p⟩
    | _ => none
  | _ => none

/-- An instruction that writes its destination group when it completes: the elements written and the flags come from
the hart as it stands. -/
structure WholeForm where
  len : Nat
  srcs : List Src
  vd : VR
  rt : Tag → List Tag → Option Tag
  f : Hart → List Tag → List (Nat × Nat) × Nat

/-- The result tag of a reduction: the operation tag, not a float for the bitwise ones (R289). -/
def redTag (o : RedOp) (_ : Tag) : List Tag → Option Tag
  | [a, b] => (opTag a b).bind fun t => if t.isFloat && (o == .and || o == .or) then none else some t
  | _ => none

/-- The result tag of a scan (R300). -/
def scanTag (o : ScanOp) (_ : Tag) : List Tag → Option Tag
  | [a] => if a.ordinary && !(a.isFloat && o == .or) then some a else none
  | _ => none

/-- The result tag of `vperm`: that of the data, with integer indexes (R298). -/
def permTag (_ : Tag) : List Tag → Option Tag
  | [a, b] => if a.ordinary && b.isInt then some a else none
  | _ => none

/-- The result tag of `vrank`: the destination's, an integer (R299). -/
def rankTag (t : Tag) (_ : List Tag) : Option Tag := if t.isInt then some t else none

/-- The result tag of `vconf` (R301). -/
def confTag (_ : Tag) (ts : List Tag) : Option Tag := if oneTag Tag.isInt ts then some .s32 else none

/-- The reductions, permutes, scans and `vconf` (R289, R298 to R301). -/
def wholeForm : Instr → Option WholeForm
  | .vredsum d a b p _ _ => some ⟨4, [.v a, .v b], d, redTag .sum, Hart.reduced .sum a b p⟩
  | .vredsumOrd d a b p _ _ => some ⟨4, [.v a, .v b], d, redTag .sumOrd, Hart.reduced .sumOrd a b p⟩
  | .vredmin d a b p _ _ => some ⟨4, [.v a, .v b], d, redTag .min, Hart.reduced .min a b p⟩
  | .vredmax d a b p _ _ => some ⟨4, [.v a, .v b], d, redTag .max, Hart.reduced .max a b p⟩
  | .vredand d a b p _ _ => some ⟨4, [.v a, .v b], d, redTag .and, Hart.reduced .and a b p⟩
  | .vredor d a b p _ _ => some ⟨4, [.v a, .v b], d, redTag .or, Hart.reduced .or a b p⟩
  | .vscan d a p _ o => some ⟨4, [.v a], d, scanTag o, Hart.scanned o none a p⟩
  | .vscanSeg d a sc p _ o => some ⟨4, [.v a], d, scanTag o, Hart.scanned o (some sc) a p⟩
  | .vraise d a x p _ => some ⟨4, [.v a], d, sameTag, Hart.raised a x p⟩
  | .vlower d a x p _ => some ⟨4, [.v a], d, sameTag, Hart.lowered a x p⟩
  | .vperm d a b p _ _ => some ⟨4, [.v a, .v b], d, permTag, Hart.permuted a b p⟩
  | .vrev d a p _ => some ⟨4, [.v a], d, sameTag, Hart.reversed a p⟩
  | .vzip d a b p _ _ => some ⟨4, [.v a, .v b], d, pairTag, Hart.zipped a b p⟩
  | .vunzip d a b p _ _ => some ⟨4, [.v a, .v b], d, pairTag, Hart.unzipped a b p⟩
  | .vsqueeze d a p _ => some ⟨4, [.v a], d, sameTag, Hart.squeezed a p⟩
  | .vspread d a p _ => some ⟨4, [.v a], d, sameTag, Hart.spread a p⟩
  | .vrank d p => some ⟨4, [], d, rankTag, Hart.ranked d p⟩
  | .vconf d a p _ => some ⟨4, [.v a], d, confTag, Hart.conflicts a p⟩
  | .evExtended op d a b _ p _ _ _ _ =>
    match op with
    | .vredsum => some ⟨8, [.v a, .v b], d, redTag .sum, Hart.reduced .sum a b p⟩
    | .vredsumOrd => some ⟨8, [.v a, .v b], d, redTag .sumOrd, Hart.reduced .sumOrd a b p⟩
    | .vredmin => some ⟨8, [.v a, .v b], d, redTag .min, Hart.reduced .min a b p⟩
    | .vredmax => some ⟨8, [.v a, .v b], d, redTag .max, Hart.reduced .max a b p⟩
    | .vredand => some ⟨8, [.v a, .v b], d, redTag .and, Hart.reduced .and a b p⟩
    | .vredor => some ⟨8, [.v a, .v b], d, redTag .or, Hart.reduced .or a b p⟩
    | .vscan o => some ⟨8, [.v a], d, scanTag o, Hart.scanned o none a p⟩
    | .vscanSeg o => some ⟨8, [.v a], d, scanTag o, Hart.scanned o (some (prOf b)) a p⟩
    | .vraise => some ⟨8, [.v a], d, sameTag, Hart.raised a b p⟩
    | .vlower => some ⟨8, [.v a], d, sameTag, Hart.lowered a b p⟩
    | .vperm => some ⟨8, [.v a, .v b], d, permTag, Hart.permuted a b p⟩
    | .vrev => some ⟨8, [.v a], d, sameTag, Hart.reversed a p⟩
    | .vzip => some ⟨8, [.v a, .v b], d, pairTag, Hart.zipped a b p⟩
    | .vunzip => some ⟨8, [.v a, .v b], d, pairTag, Hart.unzipped a b p⟩
    | .vsqueeze => some ⟨8, [.v a], d, sameTag, Hart.squeezed a p⟩
    | .vspread => some ⟨8, [.v a], d, sameTag, Hart.spread a p⟩
    | .vrank => some ⟨8, [], d, rankTag, Hart.ranked d p⟩
    | .vconf => some ⟨8, [.v a], d, confTag, Hart.conflicts a p⟩
    | _ => none
  | _ => none

/-- A predicate instruction without vector sources: its length, its destination, and bit i of the result. -/
structure PredForm where
  len : Nat
  pd : PR
  f : Hart → Nat → Bool

/-- Predicate logic and cuts (R303, R304, R306). -/
def predForm : Instr → Option PredForm
  | .pand d a b p => some ⟨4, d, fun h i => h.pred p i && (h.pred a i && h.pred b i)⟩
  | .por d a b p => some ⟨4, d, fun h i => h.pred p i && (h.pred a i || h.pred b i)⟩
  | .pxor d a b p => some ⟨4, d, fun h i => h.pred p i && (h.pred a i != h.pred b i)⟩
  | .pnot d a p => some ⟨4, d, fun h i => h.pred p i && !h.pred a i⟩
  | .pandn d a b p => some ⟨4, d, fun h i => h.pred p i && (h.pred a i && !h.pred b i)⟩
  | .pset d p => some ⟨4, d, fun h i => h.pred p i⟩
  | .pclr d => some ⟨4, d, fun _ _ => false⟩
  | .pafter d a p => some ⟨4, d, fun h i => h.pred p i && (List.range h.vl).any (h.pred a) &&
      (List.range h.vl).all fun j => !h.pred a j || decide (j < i)⟩
  | .vcuti d a m => some ⟨4, d, fun h i => h.pred m i && (List.range i).all fun j => !(h.pred m j && h.pred a j)⟩
  | .vcutx d a m => some ⟨4, d, fun h i =>
      h.pred m i && (List.range (i + 1)).all fun j => !(h.pred m j && h.pred a j)⟩
  | .evExtended op d a b _ p _ _ _ _ =>
    let x := prOf a
    let y := prOf b
    match op with
    | .pand => some ⟨8, prOf d, fun h i => h.pred p i && (h.pred x i && h.pred y i)⟩
    | .por => some ⟨8, prOf d, fun h i => h.pred p i && (h.pred x i || h.pred y i)⟩
    | .pxor => some ⟨8, prOf d, fun h i => h.pred p i && (h.pred x i != h.pred y i)⟩
    | .pnot => some ⟨8, prOf d, fun h i => h.pred p i && !h.pred x i⟩
    | .pandn => some ⟨8, prOf d, fun h i => h.pred p i && (h.pred x i && !h.pred y i)⟩
    | .pset => some ⟨8, prOf d, fun h i => h.pred p i⟩
    | .pclr => some ⟨8, prOf d, fun _ _ => false⟩
    | .pafter => some ⟨8, prOf d, fun h i => h.pred p i && (List.range h.vl).any (h.pred x) &&
        (List.range h.vl).all fun j => !h.pred x j || decide (j < i)⟩
    | .vcuti => some ⟨8, prOf d, fun h i =>
        h.pred p i && (List.range i).all fun j => !(h.pred p j && h.pred x j)⟩
    | .vcutx => some ⟨8, prOf d, fun h i =>
        h.pred p i && (List.range (i + 1)).all fun j => !(h.pred p j && h.pred x j)⟩
    | _ => none
  | _ => none

/-- A vector load or store: its length, and what it accesses. -/
structure VMemForm where
  len : Nat
  m : VMem

/-- The vector loads and stores, their addresses from the hart's registers (R313 to R317). -/
def vmemForm (h : Hart) : Instr → Option VMemForm
  | .vld v b p m hh => some ⟨4, ⟨v, 1, h.unitAddr b (h.elemBytes v), false, m, none, p, hh, none, none, none, true⟩⟩
  | .vlds v b sc p m hh => some ⟨4, ⟨v, 1, h.strideAddr b sc, false, m, none, p, hh, none, none, none, true⟩⟩
  | .vldx v b ix p m hh => some ⟨4, ⟨v, 1, h.indexAddr b ix, false, m, none, p, hh, some ix, none, none, true⟩⟩
  | .vldseg v b n p m hh =>
    some ⟨4, ⟨v, n.val + 1, h.segAddr b (h.elemBytes v) (n.val + 1), false, m, none, p, hh, none, none, none, true⟩⟩
  | .vldLong v b x k m hh o sc n p _ =>
    let q : Option Scope := if o then some sc else none
    match k with
    | .unit => some ⟨8, ⟨v, 1, h.unitAddr b (h.elemBytes v), false, m, q, p, hh, none, none, none, true⟩⟩
    | .strided => some ⟨8, ⟨v, 1, h.strideAddr b x, false, m, q, p, hh, none, none, none, true⟩⟩
    | .indexed => some ⟨8, ⟨v, 1, h.indexAddr b x, false, m, q, p, hh, some x, none, none, true⟩⟩
    | .segment =>
      some ⟨8, ⟨v, n.val + 1, h.segAddr b (h.elemBytes v) (n.val + 1), false, m, q, p, hh, none, none, none, true⟩⟩
  | .vst v b p m hh => some ⟨4, ⟨v, 1, h.unitAddr b (h.elemBytes v), true, m, none, p, hh, none, none, none, true⟩⟩
  | .vsts v b sc p m hh => some ⟨4, ⟨v, 1, h.strideAddr b sc, true, m, none, p, hh, none, none, none, true⟩⟩
  | .vstx v b ix p m hh => some ⟨4, ⟨v, 1, h.indexAddr b ix, true, m, none, p, hh, some ix, none, none, true⟩⟩
  | .vstseg v b n p m hh =>
    some ⟨4, ⟨v, n.val + 1, h.segAddr b (h.elemBytes v) (n.val + 1), true, m, none, p, hh, none, none, none, true⟩⟩
  | .vstLong v b x k m hh o sc n p _ =>
    let q : Option Scope := if o then some sc else none
    match k with
    | .unit => some ⟨8, ⟨v, 1, h.unitAddr b (h.elemBytes v), true, m, q, p, hh, none, none, none, true⟩⟩
    | .strided => some ⟨8, ⟨v, 1, h.strideAddr b x, true, m, q, p, hh, none, none, none, true⟩⟩
    | .indexed => some ⟨8, ⟨v, 1, h.indexAddr b x, true, m, q, p, hh, some x, none, none, true⟩⟩
    | .segment =>
      some ⟨8, ⟨v, n.val + 1, h.segAddr b (h.elemBytes v) (n.val + 1), true, m, q, p, hh, none, none, none, true⟩⟩
  | _ => none

end Sys2Proof.Machine
end

