-- ==== Sys2Proof/Certificates/Slice0/Obligations.lean ====
section
/-!
DEFINITION. The statements for the provers.
-/
open Sys2Proof Sys2Proof.Machine

/-! Scalar integer instructions. -/

/-- R237, R257, R258, R259: every scalar register form leaves in rd the value of its table; an immediate form computes
with the sign-extended immediate, and a shift with six bits of it; `imhi` and `pcrel` build addresses from a
19-bit immediate shifted left by 11; a compressed form does what its 32-bit form does, and is two bytes long.
Nothing else changes. -/
def Obligations.ScalarResults : Prop :=
  (∀ (s : State) (d a b : XR),
     let x := s.getX a
     let y := s.getX b
     let k := y.toNat % 64
     s.Gives (exec (.add d a b) s) 4 d (x + y) ∧
     s.Gives (exec (.sub d a b) s) 4 d (x - y) ∧
     s.Gives (exec (.and d a b) s) 4 d (x &&& y) ∧
     s.Gives (exec (.or d a b) s) 4 d (x ||| y) ∧
     s.Gives (exec (.xor d a b) s) 4 d (x ^^^ y) ∧
     s.Gives (exec (.shl d a b) s) 4 d (BitVec.ofNat 64 (x.toNat * 2 ^ k)) ∧
     s.Gives (exec (.shr d a b) s) 4 d (BitVec.ofNat 64 (x.toNat / 2 ^ k)) ∧
     s.Gives (exec (.sar d a b) s) 4 d (BitVec.ofInt 64 (x.toInt / 2 ^ k)) ∧
     s.Gives (exec (.slt d a b) s) 4 d (if x.toInt < y.toInt then 1 else 0) ∧
     s.Gives (exec (.sltn d a b) s) 4 d (if x.toNat < y.toNat then 1 else 0) ∧
     s.Gives (exec (.mul d a b) s) 4 d (BitVec.ofNat 64 (x.toNat * y.toNat)) ∧
     s.Gives (exec (.mulh d a b) s) 4 d (((x.signExtend 128 * y.signExtend 128) >>> 64).setWidth 64) ∧
     s.Gives (exec (.mulhn d a b) s) 4 d (((x.setWidth 128 * y.setWidth 128) >>> 64).setWidth 64) ∧
     s.Gives (exec (.div d a b) s) 4 d (if y = 0 then -1 else x.sdiv y) ∧
     s.Gives (exec (.divn d a b) s) 4 d (if y = 0 then 0xFFFFFFFFFFFFFFFF else x / y) ∧
     s.Gives (exec (.rem d a b) s) 4 d (if y = 0 then x else x.srem y) ∧
     s.Gives (exec (.remn d a b) s) 4 d (if y = 0 then x else x % y) ∧
     s.Gives (exec (.min d a b) s) 4 d (if x.toInt ≤ y.toInt then x else y) ∧
     s.Gives (exec (.max d a b) s) 4 d (if x.toInt ≤ y.toInt then y else x) ∧
     s.Gives (exec (.minn d a b) s) 4 d (if x.toNat ≤ y.toNat then x else y) ∧
     s.Gives (exec (.maxn d a b) s) 4 d (if x.toNat ≤ y.toNat then y else x) ∧
     s.Gives (exec (.clz d a) s) 4 d (if x = 0 then 64 else BitVec.ofNat 64 (63 - x.toNat.log2)) ∧
     s.Gives (exec (.ctz d a) s) 4 d (BitVec.ofNat 64 (((List.range 64).find? fun i => x.getLsbD i).getD 64)) ∧
     s.Gives (exec (.popc d a) s) 4 d (BitVec.ofNat 64 ((List.range 64).filter fun i => x.getLsbD i).length)) ∧
  (∀ (s : State) (d a : XR) (i : BitVec 11) (k : BitVec 6),
     let x := s.getX a
     let y : Word := i.signExtend 64
     s.Gives (exec (.addi d a i) s) 4 d (x + y) ∧
     s.Gives (exec (.andi d a i) s) 4 d (x &&& y) ∧
     s.Gives (exec (.ori d a i) s) 4 d (x ||| y) ∧
     s.Gives (exec (.xori d a i) s) 4 d (x ^^^ y) ∧
     s.Gives (exec (.slti d a i) s) 4 d (if x.toInt < i.toInt then 1 else 0) ∧
     s.Gives (exec (.shli d a k) s) 4 d (BitVec.ofNat 64 (x.toNat * 2 ^ k.toNat)) ∧
     s.Gives (exec (.shri d a k) s) 4 d (BitVec.ofNat 64 (x.toNat / 2 ^ k.toNat)) ∧
     s.Gives (exec (.sari d a k) s) 4 d (BitVec.ofInt 64 (x.toInt / 2 ^ k.toNat))) ∧
  (∀ (s : State) (d : XR) (i : BitVec 19),
     s.Gives (exec (.imhi d i) s) 4 d (BitVec.ofInt 64 (i.toInt * 2 ^ 11)) ∧
     s.Gives (exec (.pcrel d i) s) 4 d (BitVec.ofInt 64 (s.me.pc.toNat + i.toInt * 2 ^ 11))) ∧
  (∀ (s : State) (d b : XR) (i : BitVec 5),
     let x := s.getX d
     let y := s.getX b
     let z : Word := i.signExtend 64
     s.Gives (exec (.cAdd d b) s) 2 d (x + y) ∧
     s.Gives (exec (.cSub d b) s) 2 d (x - y) ∧
     s.Gives (exec (.cAnd d b) s) 2 d (x &&& y) ∧
     s.Gives (exec (.cOr d b) s) 2 d (x ||| y) ∧
     s.Gives (exec (.cXor d b) s) 2 d (x ^^^ y) ∧
     s.Gives (exec (.cMv d b) s) 2 d y ∧
     s.Gives (exec (.cAddi d i) s) 2 d (x + z) ∧
     s.Gives (exec (.cAddiX0 d i) s) 2 d z ∧
     s.Gives (exec (.cAndi d i) s) 2 d (x &&& z) ∧
     s.Gives (exec (.cShli d i) s) 2 d (BitVec.ofNat 64 (x.toNat * 2 ^ i.toNat)) ∧
     s.Gives (exec (.cShri d i) s) 2 d (BitVec.ofNat 64 (x.toNat / 2 ^ i.toNat)) ∧
     s.Gives (exec (.cSari d i) s) 2 d (BitVec.ofInt 64 (x.toInt / 2 ^ i.toNat)))

/-- R262, R263: a branch goes to pc + 2 × off when its condition holds, else past itself; a jump leaves pc_next in its
link and goes to its target; `jlr` to an odd target raises MISALIGN with etval = t and writes nothing. Nothing else
changes. -/
def Obligations.BranchAndJumpResults : Prop :=
  (∀ (s : State) (a b : XR) (o : BitVec 11) (o7 : BitVec 7),
     let x := s.getX a
     let y := s.getX b
     let pc := s.me.pc
     let dest : BitVec 55 := pc + BitVec.ofInt 55 (2 * o.toInt)
     let dest7 : BitVec 55 := pc + BitVec.ofInt 55 (2 * o7.toInt)
     s.Goes (exec (.beq a b o) s) s.me (if x = y then dest else pc + 4) ∧
     s.Goes (exec (.bne a b o) s) s.me (if x ≠ y then dest else pc + 4) ∧
     s.Goes (exec (.blt a b o) s) s.me (if x.toInt < y.toInt then dest else pc + 4) ∧
     s.Goes (exec (.bge a b o) s) s.me (if y.toInt ≤ x.toInt then dest else pc + 4) ∧
     s.Goes (exec (.bltn a b o) s) s.me (if x.toNat < y.toNat then dest else pc + 4) ∧
     s.Goes (exec (.bgen a b o) s) s.me (if y.toNat ≤ x.toNat then dest else pc + 4) ∧
     s.Goes (exec (.cBeq a o7) s) s.me (if x = 0 then dest7 else pc + 2) ∧
     s.Goes (exec (.cBne a o7) s) s.me (if x ≠ 0 then dest7 else pc + 2)) ∧
  (∀ (s : State) (l a : XR) (o : BitVec 19) (o13 : BitVec 13) (i : BitVec 11),
     let pc := s.me.pc
     let t := (s.getX a + i.signExtend 64).toNat % 2 ^ 55
     let u := (s.getX a).toNat % 2 ^ 55
     s.Goes (exec (.jl l o) s) (s.me.setX l ((pc + 4).setWidth 64)) (pc + BitVec.ofInt 55 (2 * o.toInt)) ∧
     s.Goes (exec (.cJ o13) s) s.me (pc + BitVec.ofInt 55 (2 * o13.toInt)) ∧
     (t % 2 = 0 → s.Goes (exec (.jlr l a i) s) (s.me.setX l ((pc + 4).setWidth 64)) (BitVec.ofNat 55 t)) ∧
     (u % 2 = 0 → s.Goes (exec (.cJlr l a) s) (s.me.setX l ((pc + 2).setWidth 64)) (BitVec.ofNat 55 u)) ∧
     (t % 2 = 1 → s.Traps (exec (.jlr l a i) s) { Trap.at0 .misalign 0 t with old := s.me.resume.pending }) ∧
     (u % 2 = 1 → s.Traps (exec (.cJlr l a) s) { Trap.at0 .misalign 0 u with old := s.me.resume.pending })) ∧
  decodeTableWord 16 0xA000 = some .cNop

/-! Loads, stores and atomics. -/

/-- R260, R261: a load of every form writes the value at its effective address to rd, extended as its mnemonic says;
that a read of a UC page searches its hart's writes too is the model's (log entry 15). One that the driver holds, or that an
older held access to its bytes holds, stays in its hart's bag, which will deliver it; that the driver chooses it is the
model's (log entry 14). -/
def Obligations.LoadResults : Prop :=
  ∀ (s : State) (d a : XR) (i : BitVec 11) (sc : Scope) (o : BitVec 6) (o3 : BitVec 3),
    let va := s.addrOf a (i.signExtend 64)
    s.LoadsNow (exec (.ld8 d a i) s) 4 d va 1 (fun v => (BitVec.ofNat 8 v).signExtend 64) ∧
    s.LoadsNow (exec (.ld16 d a i) s) 4 d va 2 (fun v => (BitVec.ofNat 16 v).signExtend 64) ∧
    s.LoadsNow (exec (.ld32 d a i) s) 4 d va 4 (fun v => (BitVec.ofNat 32 v).signExtend 64) ∧
    s.LoadsNow (exec (.ld64 d a i) s) 4 d va 8 (fun v => BitVec.ofNat 64 v) ∧
    s.LoadsNow (exec (.ld8z d a i) s) 4 d va 1 (fun v => (BitVec.ofNat 8 v).setWidth 64) ∧
    s.LoadsNow (exec (.ld16z d a i) s) 4 d va 2 (fun v => (BitVec.ofNat 16 v).setWidth 64) ∧
    s.LoadsNow (exec (.ld32z d a i) s) 4 d va 4 (fun v => (BitVec.ofNat 32 v).setWidth 64) ∧
    s.LoadsNow (exec (.ldAcq d a sc .b8 o) s) 4 d (s.addrOf a (o.setWidth 64)) 1
      (fun v => (BitVec.ofNat 8 v).signExtend 64) ∧
    s.LoadsNow (exec (.ldAcq d a sc .b16 o) s) 4 d (s.addrOf a (2 * o.setWidth 64)) 2
      (fun v => (BitVec.ofNat 16 v).signExtend 64) ∧
    s.LoadsNow (exec (.ldAcq d a sc .b32 o) s) 4 d (s.addrOf a (4 * o.setWidth 64)) 4
      (fun v => (BitVec.ofNat 32 v).signExtend 64) ∧
    s.LoadsNow (exec (.ldAcq d a sc .b64 o) s) 4 d (s.addrOf a (8 * o.setWidth 64)) 8
      (fun v => BitVec.ofNat 64 v) ∧
    s.LoadsNow (exec (.ldAcq d a sc .z8 o) s) 4 d (s.addrOf a (o.setWidth 64)) 1
      (fun v => (BitVec.ofNat 8 v).setWidth 64) ∧
    s.LoadsNow (exec (.ldAcq d a sc .z32 o) s) 4 d (s.addrOf a (4 * o.setWidth 64)) 4
      (fun v => (BitVec.ofNat 32 v).setWidth 64) ∧
    s.LoadsNow (exec (.ldAcq d a sc .z16 o) s) 4 d (s.addrOf a (2 * o.setWidth 64)) 2
      (fun v => (BitVec.ofNat 16 v).setWidth 64) ∧
    s.LoadsNow (exec (.cLd64 d a o3) s) 2 d (s.addrOf a (8 * o3.setWidth 64)) 8 (fun v => BitVec.ofNat 64 v) ∧
    s.LoadsHub (exec (.ld64 d a i) s) 4 d va ∧
    s.LoadsLater (exec (.ld8 d a i) s) 4 d va 1 .b8 false ∧
    s.LoadsLater (exec (.ld16 d a i) s) 4 d va 2 .b16 false ∧
    s.LoadsLater (exec (.ld32 d a i) s) 4 d va 4 .b32 false ∧
    s.LoadsLater (exec (.ld64 d a i) s) 4 d va 8 .b64 false ∧
    s.LoadsLater (exec (.ld8z d a i) s) 4 d va 1 .z8 false ∧
    s.LoadsLater (exec (.ld16z d a i) s) 4 d va 2 .z16 false ∧
    s.LoadsLater (exec (.ld32z d a i) s) 4 d va 4 .z32 false ∧
    s.LoadsLater (exec (.ldAcq d a sc .b8 o) s) 4 d (s.addrOf a (o.setWidth 64)) 1 .b8 true ∧
    s.LoadsLater (exec (.ldAcq d a sc .b16 o) s) 4 d (s.addrOf a (2 * o.setWidth 64)) 2 .b16 true ∧
    s.LoadsLater (exec (.ldAcq d a sc .b32 o) s) 4 d (s.addrOf a (4 * o.setWidth 64)) 4 .b32 true ∧
    s.LoadsLater (exec (.ldAcq d a sc .b64 o) s) 4 d (s.addrOf a (8 * o.setWidth 64)) 8 .b64 true ∧
    s.LoadsLater (exec (.ldAcq d a sc .z8 o) s) 4 d (s.addrOf a (o.setWidth 64)) 1 .z8 true ∧
    s.LoadsLater (exec (.ldAcq d a sc .z16 o) s) 4 d (s.addrOf a (2 * o.setWidth 64)) 2 .z16 true ∧
    s.LoadsLater (exec (.ldAcq d a sc .z32 o) s) 4 d (s.addrOf a (4 * o.setWidth 64)) 4 .z32 true ∧
    s.LoadsLater (exec (.cLd64 d a o3) s) 2 d (s.addrOf a (8 * o3.setWidth 64)) 8 .b64 false

/-- R260, R261: a store of every form puts the low bytes of rs, at its effective address, into its hart's store
buffer, or stays in its bag behind an older held access to these bytes; one to the hub block writes the register
there. That the entry is made at issue, and the bag, are the model's (log entry 14), and so are the path of a store to a UC
page, which performs at its home at issue (log entry 15), and that of a POOL release, which waits at issue and then leaves
the buffer at once (log entry 16). -/
def Obligations.StoreResults : Prop :=
  ∀ (s : State) (v a : XR) (i : BitVec 11) (sc : Scope) (o : BitVec 6) (o3 : BitVec 3),
    let va := s.addrOf a (i.signExtend 64)
    s.Stores (exec (.st8 v a i) s) 4 v va 1 none ∧
    s.Stores (exec (.st16 v a i) s) 4 v va 2 none ∧
    s.Stores (exec (.st32 v a i) s) 4 v va 4 none ∧
    s.Stores (exec (.st64 v a i) s) 4 v va 8 none ∧
    s.Stores (exec (.stRel v a sc .b8 o) s) 4 v (s.addrOf a (o.setWidth 64)) 1 (some sc) ∧
    s.Stores (exec (.stRel v a sc .b16 o) s) 4 v (s.addrOf a (2 * o.setWidth 64)) 2 (some sc) ∧
    s.Stores (exec (.stRel v a sc .b32 o) s) 4 v (s.addrOf a (4 * o.setWidth 64)) 4 (some sc) ∧
    s.Stores (exec (.stRel v a sc .b64 o) s) 4 v (s.addrOf a (8 * o.setWidth 64)) 8 (some sc) ∧
    s.Stores (exec (.cSt64 v a o3) s) 2 v (s.addrOf a (8 * o3.setWidth 64)) 8 none ∧
    s.StoresHub (exec (.st64 v a i) s) 4 v va ∧
    s.StoresLater (exec (.st8 v a i) s) 4 v va 1 ∧
    s.StoresLater (exec (.st16 v a i) s) 4 v va 2 ∧
    s.StoresLater (exec (.st32 v a i) s) 4 v va 4 ∧
    s.StoresLater (exec (.st64 v a i) s) 4 v va 8 ∧
    s.StoresLater (exec (.cSt64 v a o3) s) 2 v (s.addrOf a (8 * o3.setWidth 64)) 8

/-- R134, R260: after a store to a WB, POOL or scratchpad page its hart reads the stored bytes there, and every
other byte reads as before; the images are unchanged. -/
def Obligations.StoreFrame : Prop :=
  ∀ (s : State) (v a : XR) (i : BitVec 11) (t : State) (p : Phys) (n : Nat) (ins : Instr),
    (ins, n) ∈ [(Instr.st8 v a i, 1), (.st16 v a i, 2), (.st32 v a i, 4), (.st64 v a i, 8)] →
    s.reaches (s.addrOf a (i.signExtend 64)) n true false = some p → p.attr ≠ .dev → p.attr ≠ .uc →
    s.olderHeld s.cur s.drv.nextId p.key n = false →
    exec ins s = .next t →
    (∀ y, (t.readByte (t.searchPath 0 s.cur (coreOf s.cur)) y).1 =
      if p.key ≤ y ∧ y < p.key + n then BitVec.ofNat 8 ((s.getX v).toNat / 2 ^ (8 * (y - p.key)))
      else (s.readByte (s.searchPath 0 s.cur (coreOf s.cur)) y).1) ∧
    (∀ y, t.img y = s.img y) ∧
    (∀ r, t.getX r = s.getX r)

/-- R267: every atomic reads and writes in one step at the home, and rd receives the old value. -/
def Obligations.AtomicResults : Prop :=
  ∀ (s : State) (d a b : XR) (w acq rel : Bool) (sc : Scope),
    let k := 2 ^ (if w then 64 else 32)
    let x := (s.getX b).toNat % k
    let c := (s.getX d).toNat % k
    let sg (v : Nat) : Int := if w then (BitVec.ofNat 64 v).toInt else (BitVec.ofNat 32 v).toInt
    s.Updates (exec (.amoAdd d a b w acq rel sc) s) d a w rel sc (fun o => (o + x) % k) ∧
    s.Updates (exec (.amoAnd d a b w acq rel sc) s) d a w rel sc (fun o => o &&& x) ∧
    s.Updates (exec (.amoOr d a b w acq rel sc) s) d a w rel sc (fun o => o ||| x) ∧
    s.Updates (exec (.amoXor d a b w acq rel sc) s) d a w rel sc (fun o => o ^^^ x) ∧
    s.Updates (exec (.amoMin d a b w false acq rel sc) s) d a w rel sc (fun o => if sg x < sg o then x else o) ∧
    s.Updates (exec (.amoMax d a b w false acq rel sc) s) d a w rel sc (fun o => if sg o < sg x then x else o) ∧
    s.Updates (exec (.amoMin d a b w true acq rel sc) s) d a w rel sc (fun o => if x < o then x else o) ∧
    s.Updates (exec (.amoMax d a b w true acq rel sc) s) d a w rel sc (fun o => if o < x then x else o) ∧
    s.Updates (exec (.amoSwap d a b w acq rel sc) s) d a w rel sc (fun _ => x) ∧
    s.Updates (exec (.amoCas d a b w acq rel sc) s) d a w rel sc (fun o => if o = c then x else o)

/-- R131: a write at its home changes exactly its bytes of the images, and keeps the canonical form of memory. -/
def Obligations.HomeWriteFrame : Prop :=
  ∀ (s : State) (k n v ino w y : Nat),
    (s.writeHome k n v ino w).img y =
      (if k ≤ y ∧ y < k + n then BitVec.ofNat 8 (v / 2 ^ (8 * (y - k))) else s.img y) ∧
    (Memory.wf s.mem → Memory.wf (s.writeHome k n v ino w).mem) ∧
    (s.writeHome k n v ino w).harts = s.harts

/-- R189, R260, R267: a scalar access of every form that does not pass its checks traps, and the load, store or atomic has
no effect of its own; at an address that is no multiple of its size it is MISALIGN with the address. -/
def Obligations.AccessFaults : Prop :=
  ∀ (s : State) (d a b : XR) (i : BitVec 11) (sc : Scope) (o : BitVec 6) (o3 : BitVec 3) (acq rel n : Bool),
    let va := s.addrOf a (i.signExtend 64)
    let vo (k : Word) := s.addrOf a (k * o.setWidth 64)
    let vc := s.addrOf a (8 * o3.setWidth 64)
    let v0 := s.addrOf a 0
    let traps (store amo : Bool) (q : Instr × Nat × Nat) : Prop :=
      (∀ (t : Trap) (s' : State), s.access q.2.2 q.2.1 0 store amo (!s.me.wpSkip) = .error (.fault t s') →
        exec q.1 s = .next (s'.takeTrap s'.cur t)) ∧
      (q.2.2 % q.2.1 ≠ 0 → exec q.1 s = .next (s.takeTrap s.cur (Trap.at0 .misalign 0 q.2.2)))
    (∀ q ∈ [(Instr.ld8 d a i, 1, va), (.ld16 d a i, 2, va), (.ld32 d a i, 4, va), (.ld64 d a i, 8, va),
        (.ld8z d a i, 1, va), (.ld16z d a i, 2, va), (.ld32z d a i, 4, va),
        (.ldAcq d a sc .b8 o, 1, vo 1), (.ldAcq d a sc .b16 o, 2, vo 2), (.ldAcq d a sc .b32 o, 4, vo 4),
        (.ldAcq d a sc .b64 o, 8, vo 8), (.ldAcq d a sc .z8 o, 1, vo 1), (.ldAcq d a sc .z16 o, 2, vo 2),
        (.ldAcq d a sc .z32 o, 4, vo 4), (.cLd64 d a o3, 8, vc)], traps false false q) ∧
    (∀ q ∈ [(Instr.st8 d a i, 1, va), (.st16 d a i, 2, va), (.st32 d a i, 4, va), (.st64 d a i, 8, va),
        (.stRel d a sc .b8 o, 1, vo 1), (.stRel d a sc .b16 o, 2, vo 2), (.stRel d a sc .b32 o, 4, vo 4),
        (.stRel d a sc .b64 o, 8, vo 8), (.cSt64 d a o3, 8, vc)], traps true false q) ∧
    (∀ w : Bool, ∀ q ∈ [Instr.amoAdd d a b w acq rel sc, .amoAnd d a b w acq rel sc, .amoOr d a b w acq rel sc,
        .amoXor d a b w acq rel sc, .amoMin d a b w n acq rel sc, .amoMax d a b w n acq rel sc,
        .amoSwap d a b w acq rel sc, .amoCas d a b w acq rel sc], traps true true (q, if w then 8 else 4, v0))

/-! Scalar floating point. -/

/-- R264, R265, R266: a scalar float instruction leaves its rounded code in the low bits of rd with zeros above, and
raises its flags; a comparison leaves 1 or 0, and `fclass` the class bit. -/
def Obligations.FloatResults : Prop :=
  ∀ (s : State) (d a b : XR) (t u : Tag),
    let f := t.fmt
    let m := s.me.rm
    let x := val t ((s.getX a).toNat % 2 ^ t.width)
    let y := val t ((s.getX b).toNat % 2 ^ t.width)
    let z := val t ((s.getX d).toNat % 2 ^ t.width)
    let puts (o : Host.Outcome State Fault Refusal) (r : Coded) : Prop :=
      s.Goes o ((s.me.orFlags r.2).setX d (BitVec.ofNat 64 r.1)) (s.me.pcNext 4)
    let tells (o : Host.Outcome State Fault Refusal) (r : Bool × Nat) : Prop :=
      s.Goes o ((s.me.orFlags r.2).setX d (if r.1 then 1 else 0)) (s.me.pcNext 4)
    puts (exec (.fadd d a b t) s) (finish f m (numAdd m x y)) ∧
    puts (exec (.fsub d a b t) s) (finish f m (numAdd m x y.neg)) ∧
    puts (exec (.fmul d a b t) s) (finish f m (numMul x y)) ∧
    puts (exec (.fdiv d a b t) s) (fDiv f m x y) ∧
    puts (exec (.fsqrt d a t) s) (fSqrt f m x) ∧
    puts (exec (.fma d a b t) s) (fFma f m x y z) ∧
    puts (exec (.fmin d a b t) s)
      (fMinMax f false x y ((s.getX a).toNat % 2 ^ t.width) ((s.getX b).toNat % 2 ^ t.width)) ∧
    puts (exec (.fmax d a b t) s)
      (fMinMax f true x y ((s.getX a).toNat % 2 ^ t.width) ((s.getX b).toNat % 2 ^ t.width)) ∧
    tells (exec (.fcmpEq d a b t) s) (fCmp .eq x y) ∧
    tells (exec (.fcmpLt d a b t) s) (fCmp .lt x y) ∧
    tells (exec (.fcmpLe d a b t) s) (fCmp .le x y) ∧
    tells (exec (.fcmpUn d a b t) s) (fCmp .un x y) ∧
    s.Gives (exec (.fclass d a t) s) 4 d (BitVec.ofNat 64 (fClass f x)) ∧
    (let r := fcvtCalc u t m ((s.getX a).toNat % 2 ^ u.width)
     s.Goes (exec (.fcvt d a u t) s) ((s.me.orFlags r.2).setX d r.1) (s.me.pcNext 4))

/-- R160, R264: with a NaN operand a scalar float operation gives the canonical NaN, and raises NV exactly when an
operand is a signalling NaN. -/
def Obligations.FloatNaNOperands : Prop :=
  ∀ (s : State) (d a b : XR) (t : Tag),
    let x := val t ((s.getX a).toNat % 2 ^ t.width)
    let y := val t ((s.getX b).toNat % 2 ^ t.width)
    t ∈ [Tag.f16, .bf16, .f32, .f64] → (x.isNan = true ∨ y.isNan = true) →
    let fl := if x = .nan true ∨ y = .nan true then 16 else 0
    let gives (o : Host.Outcome State Fault Refusal) : Prop :=
      s.Goes o ((s.me.orFlags fl).setX d (BitVec.ofNat 64 t.fmt.nanCode)) (s.me.pcNext 4)
    gives (exec (.fadd d a b t) s) ∧ gives (exec (.fsub d a b t) s) ∧ gives (exec (.fmul d a b t) s) ∧
    gives (exec (.fdiv d a b t) s) ∧ gives (exec (.fmin d a b t) s) ∧ gives (exec (.fmax d a b t) s)

/-- R167: rounding toward zero never leaves a magnitude above that of the exact value, whatever the format, and
rounding a value that the format holds exactly raises no flag. -/
def Obligations.RoundTowardZero : Prop :=
  ∀ (m sh : Nat) (neg : Bool),
    (roundShift 1 neg m sh false).1 * 2 ^ sh ≤ m ∧
    (∀ rm sticky, rm < 5 → (roundShift rm neg m sh sticky).1 = m / 2 ^ sh ∨
      (roundShift rm neg m sh sticky).1 = m / 2 ^ sh + 1) ∧
    (∀ rm, m % 2 ^ sh = 0 → roundShift rm neg m sh false = (m / 2 ^ sh, false)) ∧
    (0 < sh → 2 * (m % 2 ^ sh) < 2 ^ sh → (roundShift 0 neg m sh false).1 = m / 2 ^ sh) ∧
    (0 < sh → 2 ^ sh < 2 * (m % 2 ^ sh) → (roundShift 0 neg m sh false).1 = m / 2 ^ sh + 1) ∧
    (0 < sh → 2 ^ sh = 2 * (m % 2 ^ sh) → (roundShift 0 neg m sh false).1 % 2 = 0)

/-! System instructions. -/

/-- R238, R270, R271, R274: `nop` and the compressed `nop` move the PC past themselves and do nothing else, and
`cacheop.ifetch` also forgets the parcels that its hart has fetched ahead; `wait` and `halt` leave the hart waiting past the instruction, `wait` for at most 100 µs. -/
def Obligations.NopAndWaitResults : Prop :=
  (∀ s : State,
     s.Goes (exec .nop s) s.me (s.me.pc + 4) ∧
     s.Goes (exec .cNop s) s.me (s.me.pc + 2) ∧
     s.Goes (exec .cacheopIfetch s) { s.me with pre := [] } (s.me.pc + 4)) ∧
  (∀ (s : State) (a : XR) (p : Phys),
     s.Goes (exec (.wait 0) s) { s.me with waiting := .word none 0 (s.clk + 190000) } (s.me.pc + 4) ∧
     (a ≠ 0 → s.reaches (s.addrOf a 0) 8 false false = some p → s.isBad p.key 8 = false →
       s.olderHeld s.cur s.drv.nextId p.key 8 = false →
       s.Goes (exec (.wait a) s) { s.me with waiting := .word (some p.key) (s.waitStamp p.key) (s.clk + 190000) }
         (s.me.pc + 4)) ∧
     (s.me.level ≠ .u → s.Goes (exec .halt s) { s.me with waiting := .halt } (s.me.pc + 4)))

/-- R138, R272: `fence.acq` completes once no read of its hart is held; `fence.rel` completes at once and marks the
store buffer; `fence.rw` completes once every earlier access is complete at its scope. Until then the hart stays at
the fence. A fence that must wait stays at its PC with nothing changed (log entry 8). -/
def Obligations.FenceResults : Prop :=
  ∀ (s : State) (e : Bool) (S : Scope),
    let ino := s.drv.nextId
    let m := s.hmem s.cur
    let done := s.earlierDone s.cur ino S e m.obs
    (m.bag = [] → s.bump.Goes (exec (.fenceAcq S) s) s.me (s.me.pc + 4)) ∧
    (m.bag ≠ [] → exec (.fenceAcq S) s = .next s) ∧
    ((s.setHmem s.cur { m with fences := m.fences ++ [⟨ino, true, S, e, m.obs⟩] }).bump).Goes
      (exec (.fenceRel e S) s) s.me (s.me.pc + 4) ∧
    (done = true → s.bump.Goes (exec (.fenceRw e S) s) s.me (s.me.pc + 4)) ∧
    (done = false → exec (.fenceRw e S) s = .next s)

/-- R63, R273: `xinv` and `xinv.all` begin a withdrawal once the hart's stores are complete at DEVICE, wait until
every unit has acknowledged it, and then complete; a range of no bytes withdraws nothing, and its completion wakes the
chunks that stall on a migrating page (R64). That a withdrawal begins in one step and the instruction stays at its PC until it
has been acknowledged is the model's (log entries 8 and 87). -/
def Obligations.XinvResults : Prop :=
  ∀ (s : State) (a b : XR) (x : Xinv),
    let lo := (s.getX a).toNat % 2 ^ 55
    let hi := min (2 ^ 55) (lo + (s.getX b).toNat)
    let asid := (s.mreg mAsid).toNat % 2 ^ 12
    let mine (lo hi : Nat) (x : Xinv) : Bool := x.hid == s.cur && x.asid == asid && x.lo == lo && x.hi == hi
    s.me.level ≠ .u →
    (s.xlat.xinv.find? (mine lo hi) = some x → x.acked = true →
      ({ s with xlat := { s.xlat with xinv := s.xlat.xinv.erase x } } : State).Goes (exec (.xinv a b) s) s.me
        (s.me.pc + 4)) ∧
    (s.xlat.xinv.find? (mine 0 (2 ^ 55)) = some x → x.acked = true →
      ({ s with xlat := { s.xlat with xinv := s.xlat.xinv.erase x } } : State).Goes (exec .xinvAll s) s.me
        (s.me.pc + 4)) ∧
    (s.xlat.xinv.find? (mine lo hi) = none → s.earlierDone s.cur s.drv.nextId .dev false [] = true → lo ≠ hi →
      exec (.xinv a b) s =
        .next { s with xlat := { s.xlat with xinv := s.xlat.xinv ++ [⟨s.cur, asid, lo, hi, false⟩] } }) ∧
    (s.xlat.xinv.find? (mine lo hi) = none → s.earlierDone s.cur s.drv.nextId .dev false [] = true → lo = hi →
      s.wakeStalls.Goes (exec (.xinv a b) s) s.me (s.me.pc + 4)) ∧
    (s.xlat.xinv.find? (mine lo hi) = none → s.earlierDone s.cur s.drv.nextId .dev false [] = false →
      exec (.xinv a b) s = .next s) ∧
    (s.xlat.xinv.find? (mine lo hi) = some x → x.acked = false → exec (.xinv a b) s = .next s) ∧
    (s.xlat.xinv.find? (mine 0 (2 ^ 55)) = none → s.earlierDone s.cur s.drv.nextId .dev false [] = true →
      exec .xinvAll s =
        .next { s with xlat := { s.xlat with xinv := s.xlat.xinv ++ [⟨s.cur, asid, 0, 2 ^ 55, false⟩] } }) ∧
    (s.xlat.xinv.find? (mine 0 (2 ^ 55)) = none → s.earlierDone s.cur s.drv.nextId .dev false [] = false →
      exec .xinvAll s = .next s) ∧
    (s.xlat.xinv.find? (mine 0 (2 ^ 55)) = some x → x.acked = false → exec .xinvAll s = .next s)

/-- R274: a cache operation has no effect on the scratchpad window and on UC and DEV pages. Elsewhere, once no request
for the frame is under way and, for `wb` and `wbinv`, its writes have reached their home and are acknowledged, it
completes: `wb` leaves no dirty copy of the frame in this device, and `wbinv` and `inv` leave none at all; registers and
memory stay. Until then `wb` and `wbinv` stay at their PC. That what is left is done in one step is the model's choice
(log entry 21). -/
def Obligations.CacheopResults : Prop :=
  ∀ (s : State) (a : XR) (p : Phys),
    let va := (s.getX a).toNat % 2 ^ 55
    let f := p.pa / 256
    let reads : Prop := translate s (whoOf s s.cur) va .load false = .ok s p
    let writes : Prop := translate s (whoOf s s.cur) va .store true = .ok s p
    let same (t : State) : Prop := t.me.pc = s.me.pc + 4 ∧ t.me.x = s.me.x ∧ t.mem = s.mem ∧ t.cur = s.cur
    let clean (t : State) : Prop := (∀ l ∈ t.coh.lines, l.frame = f → s.isOurs l.h f = true → l.dirty = 0) ∧
      (∀ d ∈ t.coh.dirty, d.frame ≠ f)
    let gone (t : State) : Prop := ∀ l ∈ t.coh.lines, l.frame = f → s.isOurs l.h f = false
    (winBase ≤ va →
      s.Goes (exec (.cacheopWb a) s) s.me (s.me.pc + 4) ∧ s.Goes (exec (.cacheopWbinv a) s) s.me (s.me.pc + 4) ∧
      (s.me.level ≠ .u → s.Goes (exec (.cacheopInv a) s) s.me (s.me.pc + 4))) ∧
    (va < winBase → (p.attr = .uc ∨ p.attr = .dev) →
      (reads → s.Goes (exec (.cacheopWb a) s) s.me (s.me.pc + 4)) ∧
      (writes → s.Goes (exec (.cacheopWbinv a) s) s.me (s.me.pc + 4) ∧
        (s.me.level ≠ .u → s.Goes (exec (.cacheopInv a) s) s.me (s.me.pc + 4)))) ∧
    (va < winBase → (p.attr = .wb ∨ p.attr = .pool) → fate s (dieOf s.cur) p false = .ok → s.idle f = true →
      (reads → s.inFlight f = false → ∃ t, exec (.cacheopWb a) s = .next t ∧ same t ∧ clean t) ∧
      (writes → s.inFlight f = false → ∃ t, exec (.cacheopWbinv a) s = .next t ∧ same t ∧ clean t ∧ gone t) ∧
      (writes → s.me.level ≠ .u → ∃ t, exec (.cacheopInv a) s = .next t ∧ same t ∧ clean t ∧ gone t) ∧
      (reads → s.inFlight f = true → exec (.cacheopWb a) s = .next s) ∧
      (writes → s.inFlight f = true → exec (.cacheopWbinv a) s = .next s))

/-- R110, R252, R275: `mrd` gives the register that its number names, at a level that may read it; numbers of M
registers raise PRIV below M, of S registers at U, and a number that names no register raises ILLEGAL. lpart reads as
it was last written (R6, R79). -/
def Obligations.MrdResults : Prop :=
  ∀ (s : State) (d : XR) (m : BitVec 12),
    let n := m.toNat
    let named := n ≤ 0x00C ∨ (0x100 ≤ n ∧ n ≤ 0x110) ∨ (0x200 ≤ n ∧ n ≤ 0x206)
    let may := n < 0x100 ∨ (n < 0x200 ∧ s.me.level ≠ .u) ∨ s.me.level = .m
    let o := exec (.mrd d m) s
    (named → may → n ≠ 6 → n ∉ [3, 4, 8, 9, 10, 0x108, 0x10A, 0x200] → s.Gives o 4 d (s.mreg n)) ∧
    (named → may → n = 6 → (s.hmem s.cur).bag = [] → s.Gives o 4 d (s.mreg mFflags)) ∧
    (n = 3 → s.Gives o 4 d (BitVec.ofNat 64 (s.vgrant s.cur))) ∧
    (n = 4 → s.Gives o 4 d (BitVec.ofNat 64 (s.core (coreOf s.cur)).lmod)) ∧
    (n = 8 → s.Gives o 4 d (BitVec.ofNat 64 (s.cur % 1024))) ∧
    (n = 9 → s.Gives o 4 d (s.gangWord s.cur)) ∧
    (n = 10 → s.Gives o 4 d (BitVec.ofNat 64 (s.me.task.getD 0 % 2 ^ 22))) ∧
    (n = 0x108 → may → s.Gives o 4 d (s.core (coreOf s.cur)).mown) ∧
    (n = 0x10A → may → s.Gives o 4 d (setBits (s.mreg mPowcap) 19 16 (s.cap (dieOf s.cur)))) ∧
    (n = 0x200 → may →
      s.Gives o 4 d (match (s.core (coreOf s.cur)).lpartNew with | some v => v | none => (s.core (coreOf s.cur)).lpart)) ∧
    (named → ¬ may →
      s.Traps o { Trap.at0 .priv 0 s.drv.ir.toNat with old := s.me.resume.pending }) ∧
    (¬ named → s.Traps o { Trap.at0 .illegal 0 s.drv.ir.toNat with old := s.me.resume.pending })

/-- R84, R92, R105, R110, R165, R166, R186, R187, R192, R275: `mwr` writes the RW bits of its register and no others; a
write of a register of the loop context, or of another whose fields are all RO, is discarded; a reserved code of fctl.frm,
estat.ppl or kstat.ppl leaves that field unchanged; mown goes to the core, and lpart waits there for a quiesce. -/
def Obligations.MwrResults : Prop :=
  ∀ (s : State) (a : XR) (m : BitVec 12),
    let n := m.toNat
    let v := s.getX a
    let o := exec (.mwr a m) s
    let put (w : Word) : Prop := s.Goes o (s.me.setMreg n w) (s.me.pc + 4)
    let fields (mask : Word) : Prop := put ((s.mreg n &&& ~~~mask) ||| (v &&& mask))
    (n ∈ [0, 1, 2, 3, 4, 7, 8, 9, 10, 12] → s.Goes o s.me (s.me.pc + 4)) ∧
    (n = 5 → v.toNat % 8 ≤ 4 → put ((s.mreg 5 &&& ~~~0x77) ||| (v &&& 0x77))) ∧
    (n = 5 → 4 < v.toNat % 8 → put (((s.mreg 5 &&& ~~~0x70) ||| (v &&& 0x70)))) ∧
    (n = 6 → (s.hmem s.cur).bag = [] → put ((s.mreg 6 &&& ~~~0x3F) ||| (v &&& 0x3F))) ∧
    (s.me.level ≠ .u →
      (∀ q ∈ [(0x00B, 0x7FFFFFFFF00000), (0x101, 0xFFFFFFFFFFFFFFFE), (0x102, 0xFFFFFF01FF), (0x104, 0x7FFFFFFFFFFFFC),
          (0x106, 0xFFF), (0x107, 0xFFFFFFFFFC000), (0x109, 0x7FFFFFFFFFF000), (0x10A, 0xF),
          (0x10B, 0xF800FFFFFFFFFFFF), (0x10D, 0x7FFFFFFFFFFFFF), (0x10E, 0x1FFFF), (0x10F, 0xFFFF),
          (0x110, 0x8000FFFF00FF7F7F)], n = q.1 → fields q.2) ∧
      (n ∈ [0x103, 0x105, 0x10C] → put v) ∧
      (n = 0x100 → fields (if 1 < v.toNat / 2 ^ 12 % 4 then 0xCC00 else 0xFC00))) ∧
    (s.me.level = .m →
      (∀ q ∈ [(0x202, 0xFFFFFFFFFFFFFFFE), (0x203, 0xFFFFFF01FF), (0x205, 0x7FFFFFFFFFFFFC)], n = q.1 → fields q.2) ∧
      (n ∈ [0x204, 0x206] → put v) ∧
      (n = 0x201 → fields (if v.toNat / 2 ^ 2 % 4 = 3 then 0x2 else 0xE))) ∧
    (s.me.level = .m → n = 0x108 →
      let k := s.core (coreOf s.cur)
      (s.setCore (coreOf s.cur) { k with mown := (k.mown &&& ~~~0xE007) ||| (v &&& 0xE007) }).Goes o s.me
        (s.me.pc + 4)) ∧
    (s.me.level = .m → n = 0x200 →
      (s.setCore (coreOf s.cur) { s.core (coreOf s.cur) with lpartNew := some (v &&& 0xF) }).Goes o s.me
        (s.me.pc + 4))

/-- R63, R110, R188, R271, R273, R274: at U the instructions of S and M raise PRIV, with the written word in etval. -/
def Obligations.PrivilegedAtU : Prop :=
  ∀ (s : State) (a b : XR) (m : BitVec 12), s.me.level = .u →
    let priv := { Trap.at0 .priv 0 s.drv.ir.toNat with old := s.me.resume.pending }
    s.Traps (exec .eret s) priv ∧ s.Traps (exec .halt s) priv ∧ s.Traps (exec (.xinv a b) s) priv ∧
    s.Traps (exec .xinvAll s) priv ∧ s.Traps (exec (.cacheopInv a) s) priv ∧
    (m.toNat ∈ [0x00B, 0x100, 0x101, 0x106, 0x107, 0x110, 0x200, 0x201, 0x206] →
      s.Traps (exec (.mwr a m) s) priv)

/-! Exceptions and returns. -/

/-- R183, R254, R269, R236: a trap, a breakpoint, a word that is no instruction and a failed fetch raise their
exceptions: SYSCALL with the immediate, BRK subcode 1 with the PC, ILLEGAL with the word, PAGEFAULT subcode fetch with
the address. -/
def Obligations.RaisedExceptions : Prop :=
  ∀ (s : State) (i : BitVec 19) (w : Word) (va : Nat),
    let o := s.me.resume.pending
    s.Traps (exec (.trap i) s) { Trap.at0 .syscall 0 i.toNat with old := o } ∧
    s.Traps (exec .brk s) { Trap.at0 .brk 1 s.me.pc.toNat with old := o } ∧
    s.Traps (exec (.nonInstruction w) s) { Trap.at0 .illegal 0 w.toNat with old := o } ∧
    s.Traps (exec (.fetchFault va) s) { Trap.at0 .pagefault 1 (va % 2 ^ 55) with old := o }

/-- R184, R186: a system call at U or S, with no supervisor handler busy, no held access and no restart point, enters
S: epc names the call, ecause holds SYSCALL and etval the immediate, estat holds the level, ie moves to pie and tb is
set, the loop context goes to the shadow registers and reads as after placement, and the hart goes on at evec. -/
def Obligations.SyscallEntersS : Prop :=
  ∀ (s : State) (i : BitVec 19),
    s.me.level ≠ .m → (s.mreg mEstat).getLsbD 15 = false → (s.hmem s.cur).bag = [] → s.me.resume = Resume.zero →
    ∃ t, exec (.trap i) s = .next t ∧
      let h := t.hart s.cur
      h.level = .s ∧ h.pc = BitVec.ofNat 55 ((s.mreg mEvec).toNat / 4 % 2 ^ 53 * 4) ∧
      h.mreg mEpc = s.me.pc.setWidth 64 ∧ h.mreg mEcause = 0x0F ∧ h.mreg mEtval = i.setWidth 64 ∧
      (h.mreg mEstat).getLsbD 15 = true ∧ (h.mreg mEstat).getLsbD 10 = false ∧
      (h.mreg mEstat).getLsbD 11 = (s.mreg mEstat).getLsbD 10 ∧
      (h.mreg mEstat).getLsbD 14 = (s.mreg mAvl).getLsbD 63 ∧
      (h.mreg mEstat).getLsbD 12 = (s.me.level == .s) ∧ (h.mreg mEstat).getLsbD 13 = false ∧
      h.mreg mEavl = s.mreg mAvl ∧ h.mreg mEstrip = s.mreg mStrip ∧ h.mreg mEhead = s.mreg mVhead ∧
      h.mreg mEvl = s.mreg mVl ∧ h.mreg mEslip = 0 ∧
      h.mreg mAvl = 0x1800000000000000 ∧ h.mreg mStrip = 0 ∧ h.mreg mVhead = 0 ∧ h.mreg mVl = 0 ∧ h.mreg mSlip = 0

/-- R184: taking an exception into S changes no general register, no vector register, no predicate, no register of
another hart, no accumulator and no byte of memory. -/
def Obligations.SyscallFrame : Prop :=
  ∀ (s t : State) (i : BitVec 19),
    s.me.level ≠ .m → (s.mreg mEstat).getLsbD 15 = false → (s.hmem s.cur).bag = [] →
    exec (.trap i) s = .next t →
    (∀ r, t.getX r = s.getX r) ∧ t.me.v = s.me.v ∧ t.me.tag = s.me.tag ∧ t.me.p = s.me.p ∧
    (∀ n ∈ [mFctl, mFflags, mRbs, mEvec, mEscratch, mAsid, mPtbase, mMsa, mKret, mKwhy, mKaddr, mKstat, mKentry],
      t.mreg n = s.mreg n) ∧
    (∀ j, j ≠ s.cur → t.hart j = s.hart j) ∧ t.cores = s.cores ∧ (∀ k, t.img k = s.img k)

/-- R184, R187: an exception at S while a supervisor handler is busy, or at M while the monitor is not, enters M: kret,
kwhy and kaddr take what epc, ecause and etval would, kstat.ppl takes the level and kstat.tb is set, estat and the
loop context stay, and the hart goes on at kentry. One at M while the monitor is busy stops the hart: its task is
killed, and a HARTSTOP is reported. -/
def Obligations.TrapsIntoMonitor : Prop :=
  (∀ (s : State) (i : BitVec 19),
     (s.me.level ≠ .m ∧ (s.mreg mEstat).getLsbD 15 = true) ∨ (s.me.level = .m ∧ (s.mreg mKstat).getLsbD 1 = false) →
     (s.hmem s.cur).bag = [] → s.me.resume = Resume.zero →
     ∃ t, exec (.trap i) s = .next t ∧
       let h := t.hart s.cur
       h.level = .m ∧ h.pc = BitVec.ofNat 55 ((s.mreg mKentry).toNat / 4 % 2 ^ 53 * 4) ∧
       h.mreg mKret = s.me.pc.setWidth 64 ∧ h.mreg mKwhy = 0x0F ∧ h.mreg mKaddr = i.setWidth 64 ∧
       (h.mreg mKstat).getLsbD 1 = true ∧
       (h.mreg mKstat).getLsbD 2 = (s.me.level == .s) ∧ (h.mreg mKstat).getLsbD 3 = (s.me.level == .m) ∧
       (∀ n ∈ [mEstat, mEpc, mEcause, mEtval, mAvl, mStrip, mVhead, mVl, mEavl, mEgrant], h.mreg n = s.mreg n) ∧
       (∀ k, t.img k = s.img k)) ∧
  (∀ (s : State) (i : BitVec 19) (key : Nat),
     s.me.level = .m → (s.mreg mKstat).getLsbD 1 = true → (s.hmem s.cur).bag = [] → s.me.task = some key →
     let u := (s.clearStall s.cur true).report repHartstop 0 0 0 0 (some s.cur) (some key)
     exec (.trap i) s =
       .next ((u.setHart s.cur { u.hart s.cur with level := .s }).kill key (some (coreOf s.cur))))

/-- R188: `eret` at S, its shadow registers in order, returns to estat.ppl at epc with ie restored and tb clear, and the
loop context comes back from the shadow registers (that a restored ppl above S counts as S is read from R109, log entry
96); with shadow registers out of order it raises BADTAG subcode 4,
and nothing else has happened. `eret` at M returns to kstat.ppl at kret with kstat.tb clear, and touches neither the
loop context nor estat nor mown; a task that is being killed ends then (R194). -/
def Obligations.EretResults : Prop :=
  (∀ s : State, s.me.level = .s →
     let avl := s.mreg mEavl
     let strip := (s.mreg mEstrip).toNat % 2 ^ 48
     let vl := (s.mreg mEvl).toNat % 2 ^ 17
     let len := avl.toNat % 2 ^ 48
     let bad := (avl.getLsbD 63 = true ∧ (len ≤ strip ∨ len - strip < vl)) ∨ 32768 < vl
     (bad → s.Traps (exec .eret s) { Trap.at0 .badtag 4 0 with old := s.me.resume.pending }) ∧
     (¬ bad → ∃ t, exec .eret s = .next t ∧
       let h := t.hart s.cur
       h.level = (if (s.mreg mEstat).toNat / 2 ^ 12 % 4 = 0 then .u else .s) ∧
       h.pc = (s.mreg mEpc).setWidth 55 ∧ h.waiting = .no ∧
       (h.mreg mEstat).getLsbD 15 = false ∧ (h.mreg mEstat).getLsbD 10 = (s.mreg mEstat).getLsbD 11 ∧
       h.mreg mAvl = avl ∧ h.mreg mStrip = s.mreg mEstrip ∧ h.mreg mVhead = s.mreg mEhead ∧
       h.mreg mVl = s.mreg mEvl ∧ h.mreg mSlip = s.mreg mEslip ∧
       (∀ r, h.getX r = s.getX r) ∧ h.v = s.me.v ∧ (∀ k, t.img k = s.img k))) ∧
  (∀ s : State, s.me.level = .m → (∀ key, s.me.task = some key → (s.task key).dying = none) →
     ∃ t, exec .eret s = .next t ∧
       let h := t.hart s.cur
       h.level = (match (s.mreg mKstat).toNat / 4 % 4 with | 0 => .u | 1 => .s | _ => .m) ∧
       h.pc = (s.mreg mKret).setWidth 55 ∧ h.waiting = .no ∧
       (h.mreg mKstat).getLsbD 1 = false ∧
       (∀ n ∈ [mEstat, mAvl, mStrip, mVhead, mVl, mEavl, mEpc], h.mreg n = s.mreg n) ∧
       (∀ r, h.getX r = s.getX r) ∧ h.v = s.me.v ∧ t.cores = s.cores ∧ (∀ k, t.img k = s.img k))

/-! Vector configuration and loops. -/

/-- R82, R277, R278: `setvl` ends a loop, renegotiates the lanes, sets vl to the smaller of X(ra) and the capacity, and
writes vl to xd; so does `setvl.g` in a gang of one. In a larger gang, every member of which is placed, the last member
to reach its `setvl.g` completes it for every member: the gang grant is the smallest of the members' grants, and each
member's vl the smaller of its own length and its capacity under that grant. -/
def Obligations.SetvlResults : Prop :=
  (∀ (s : State) (d a : XR) (w : Ew),
     s.me.level ≠ .m → s.regCopies s.cur = false →
     let e := (s.setMe s.me.endLoop).renegotiate s.cur
     let n := min (s.getX a).toNat (2048 * e.vgrant s.cur / w.bits)
     let h := ((e.me.setMreg mAvl (BitVec.ofNat 64 (ewCode w * 2 ^ 59 + n))).setMreg mStrip 0).setMreg mVl
       (BitVec.ofNat 64 n)
     e.Goes (exec (.setvl d a w) s) (h.setX d (BitVec.ofNat 64 n)) (e.me.pcNext 4) ∧
     ((∀ key, s.me.task = some key → (s.task key).gsz = 1) →
       e.Goes (exec (.setvlG d a w) s) (h.setX d (BitVec.ofNat 64 n)) (e.me.pcNext 4))) ∧
  (∀ (s : State) (d a : XR) (w : Ew) (key : Nat),
     s.me.level ≠ .m → s.regCopies s.cur = false → s.me.task = some key → (s.task key).gsz ≠ 1 →
     s.me.setvlg = none →
     let e := s.arriveSetvlg d a w
     let l := (s.task key).hids
     l.length = (s.task key).gsz →
     (∀ hid ∈ l, (e.hart hid).setvlg.isSome = true) →
     ∃ t, exec (.setvlG d a w) s = .next t ∧
       ∀ hid ∈ l, (t.hart hid).setvlg = none ∧ (t.hart hid).pc = (e.hart hid).pcNext 4 ∧
         (t.hart hid).mreg mStrip = 0 ∧
         (∀ n c, (e.hart hid).setvlg = some (n, c) →
           (t.hart hid).vl = min n (2048 * (l.map e.vgrant).foldl min 64 / (ewOf (c % 8)).bits)))

/-- R93, R94, R95, R279, R280: `vloop` with a length of 0 goes past its `vend` with vl = 0; otherwise it opens the first
strip and goes on. It needs no active loop, and a level below M. `vend` moves the strip position by vl, or by X(ra)
in a serial loop; at the length it ends the loop, and before it the next strip opens and the hart goes back to the
loop's head. An advance of 0 or above vl is BADTAG, subcode advance. In a parallel loop whose strips run at once (R96) a
strip has the capacity of its cluster, and the `vend` of the oldest strip goes on in the next strip, which runs already: at
its pc, with its vl, with the registers that it has written and its stores behind the older strip's. That the end of the loop
clears avl.par with avl.act and that `vloop` sets avl.ew before it renegotiates is read from R94 (log entry 78); whether
strips run at once, what a younger one executes early, and that such a `vend` waits for held accesses, are the model's
choice (log entry 79). -/
def Obligations.LoopResults : Prop :=
  (∀ (s : State) (l c : XR) (w : Ew) (e8 : BitVec 8) (e14 : BitVec 14) (par : Bool),
     let len := (s.getX l).toNat % 2 ^ 48
     let cap := min (s.getX c).toNat 65535
     let bad := { Trap.at0 .illegal 0 s.drv.ir.toNat with old := s.me.resume.pending }
     let begins (o : Host.Outcome State Fault Refusal) (n : Nat) (par : Bool) (e : Nat) : Prop :=
       let next := s.me.pcNext n
       let act := if len = 0 then 0 else 2 ^ 63 + if par then 2 ^ 62 else 0
       let h := ((s.me.setMreg mVhead (next.setWidth 64)).setMreg mStrip (BitVec.ofNat 64 (cap * 2 ^ 48))).setMreg
         mAvl (BitVec.ofNat 64 (act + ewCode w * 2 ^ 59 + len))
       let r := (s.setMe h).renegotiate s.cur
       let lanes := match r.splits with | some k => r.clusterLanes s.cur k | none => r.vgrant s.cur
       let room := min len (2048 * lanes / r.me.ew.bits)
       let vl := if cap = 0 then room else min room cap
       let first (k : Nat) : Par := ⟨k, r.me.regs, r.me.regs, []⟩
       (s.me.level ≠ .m → s.me.looping = false → len = 0 →
         s.Goes o (h.setMreg mVl 0) (s.me.pc + BitVec.ofNat 55 (2 * e + 4))) ∧
       (s.me.level ≠ .m → s.me.looping = false → len ≠ 0 → s.regCopies s.cur = false →
         r.Goes o { r.me.setMreg mVl (BitVec.ofNat 64 vl) with par := (r.splits.map first).or r.me.par } next) ∧
       (s.me.level = .m ∨ s.me.looping = true → s.Traps o bad)
     begins (exec (.vloop l c w e8) s) 4 false e8.toNat ∧
     begins (exec (.vloopPar l c w e8) s) 4 true e8.toNat ∧
     begins (exec (.vloopLong par l c w e14) s) 8 par e14.toNat) ∧
  (∀ (s : State) (a : XR),
     let h := s.me
     let adv := if a = 0 then h.vl else (s.getX a).toNat
     let pos := bits (h.mreg mStrip) 47 0 + adv
     let h' := h.setMreg mStrip (setBits (h.mreg mStrip) 47 0 pos)
     let o := exec (.vend a) s
     h.level ≠ .m → h.looping = true → (a = 0 ∨ h.parallel = false) →
     (0 < adv → adv ≤ h.vl → pos = bits (h.mreg mAvl) 47 0 →
       s.Goes o { h'.setMreg mAvl (setBits (h'.mreg mAvl) 63 62 0) with stream := none, strip := [], par := none }
         (s.me.pcNext 4)) ∧
     (0 < adv → adv ≤ h.vl → pos ≠ bits (h.mreg mAvl) 47 0 → s.regCopies s.cur = false → h.stream = none → h.par = none →
       let e := (s.setMe h').openStrip
       e.Goes o e.me (BitVec.ofNat 55 (bits (h.mreg mVhead) 54 0))) ∧
     (∀ P S rest, 0 < adv → adv ≤ h.vl → pos ≠ bits (h.mreg mAvl) 47 0 → s.regCopies s.cur = false → h.stream = none →
       h.par = some P → P.young = S :: rest → s.bagEmpty s.cur = true → h.spilled = [] →
       ∃ u, o = .next u ∧ u.me.pc = S.pc ∧ u.me.vl = S.vl % 2 ^ 17 ∧ u.me.mreg mStrip = h'.mreg mStrip ∧
         (∀ r : XR, r ≠ 0 → u.me.getX r =
           if r.val ∈ S.xw then SMap.get 0 S.regs.x r.val else s.getX r) ∧
         (u.hmem s.cur).sb =
           (s.hmem s.cur).sb ++ S.mem.sb.map fun e => { e with ino := s.drv.nextId + e.ino }) ∧
     (¬(0 < adv ∧ adv ≤ h.vl) → s.Traps o { Trap.at0 .badtag 3 s.drv.ir.toNat with old := h.resume.pending }))

/-- R104, R281: `vtag` gives the group at vd the tag, where the old and the new tag make groups of the same size;
otherwise it is BADTAG, subcode shape.  No element changes. -/
def Obligations.TagResults : Prop :=
  ∀ (s : State) (v : VR) (t : Tag),
    (∀ g, groupOf t s.me.ew v = some g → groupOf (s.me.tagOf v) s.me.ew v = some g →
      ∃ u, exec (.vtag v t) s = .next u ∧ u.me.v = s.me.v ∧ u.me.x = s.me.x ∧ u.me.pc = s.me.pcNext 4 ∧
        ∀ r, u.me.tagOf r = if v.val ≤ r.val ∧ r.val < v.val + g then t else s.me.tagOf r) ∧
    (groupOf t s.me.ew v = none ∨ groupOf (s.me.tagOf v) s.me.ew v ≠ groupOf t s.me.ew v →
      s.Traps (exec (.vtag v t) s) { Trap.at0 .badtag 2 s.drv.ir.toNat with old := s.me.resume.pending })

/-! Vector arithmetic, permutes and predicates. -/

/-- R102, R103, R104, R282, R283 to R287, R290 to R292: an elementwise instruction whose sources and destination have
legal tags and groups completes: every selected element that was still to do gets its result, the result tag is set,
and the flags of those elements are raised. With vl = 0 nothing changes. The checks at vl = 0 are read from R90 (log
entry 72). -/
def Obligations.ElementwiseResults : Prop :=
  ∀ (s : State) (i : Instr) (q : ElemForm) (rt : Tag),
    elemForm i = some q → s.Calm →
    let h := s.me
    q.op.rt (h.tagOf q.vd) (h.srcTags q.srcs) = some rt →
    groupsOk h.ew (h.srcRegs q.srcs) (some (q.vd, rt)) = true →
    let all := h.targets q.pm q.op.all
    let r := h.results q.op q.srcs q.pm (all.filter s.fresh)
    s.GoesV (exec i s) (if h.vl = 0 then h else (h.land q.vd rt all r.1).orFlags r.2) (h.pcNext q.len)

/-- R104, R158, R282: what an instruction leaves in its destination group: the new elements, each cut to the result
width; the others unchanged where the width stays, and zero where it changes.  No other register's bytes change. -/
def Obligations.LandedElements : Prop :=
  ∀ (h : Hart) (d : VR) (rt : Tag) (g : Nat) (new : List (Nat × Nat)),
    groupOf rt h.ew d = some g → (new.map (·.1)).Nodup → (∀ e ∈ new, e.1 * rt.width < 0x20000 * g) →
    let u := h.land d rt (new.map (·.1)) new
    (∀ e ∈ new, u.code d rt.width e.1 = e.2 % 2 ^ rt.width) ∧
    (∀ i, i ∉ new.map (·.1) → i * rt.width < 0x20000 * g →
      u.code d rt.width i = if (h.tagOf d).width = rt.width then h.code d rt.width i else 0) ∧
    (∀ k, ¬(0x4000 * d.val ≤ k ∧ k < 0x4000 * (d.val + g)) → SMap.get (0 : Byte) u.v k = SMap.get 0 h.v k) ∧
    (∀ r, u.tagOf r = if d.val ≤ r.val ∧ r.val < d.val + g then rt else h.tagOf r) ∧
    u.x = h.x ∧ u.p = h.p ∧ u.mr = h.mr ∧ u.pc = h.pc

/-- R282, R283: on two vectors of one integer tag, every active element below vl receives the table's entry, wrapped
to its width; an inactive element keeps its bits. -/
def Obligations.IntegerVectorResults : Prop :=
  ∀ (s : State) (d a b : VR) (p : PR) (ca cb : Bool) (t : Tag),
    let h := s.me
    let w := t.width
    s.Calm → h.resume.pending = false → t ∈ [Tag.s8, .s16, .s32, .s64, .z8, .z16, .z32, .z64] → w ≤ h.ew.bits →
    h.tagOf a = t → h.tagOf b = t → (h.tagOf d).width = w → h.vl * w ≤ 0x20000 →
    let x (i : Nat) := intVal t (h.elem a i)
    let y (i : Nat) := intVal t (h.elem b i)
    let puts (o : Host.Outcome State Fault Refusal) (f : Int → Int → Int) : Prop :=
      ∃ u, o = .next u ∧ (h.vl ≠ 0 → u.me.tagOf d = t) ∧
        ∀ i, i < h.vl → u.me.code d w i = if h.pred p i then (f (x i) (y i) % 2 ^ w).toNat else h.code d w i
    puts (exec (.vadd d a b p ca cb) s) (· + ·) ∧
    puts (exec (.vsub d a b p ca cb) s) (· - ·) ∧
    puts (exec (.vmul d a b p ca cb) s) (· * ·) ∧
    puts (exec (.vmin d a b p ca cb) s) min ∧
    puts (exec (.vmax d a b p ca cb) s) max ∧
    puts (exec (.vavg d a b p ca cb false) s) (fun x y => fixnarrow h.fixrm (x + y) 1) ∧
    puts (exec (.vmulh d a b p ca cb false) s) (fun x y => x * y / 2 ^ w)

/-- R288: a comparison completes: bit i of pd is the condition on element i where pm selects it, and 0 where it does
not; bits at vl and above, and p0, do not change. -/
def Obligations.CompareResults : Prop :=
  ∀ (s : State) (q m : PR) (a b : VR) (x : XR) (ca cb : Bool) (n : Cond) (c : Fin 32) (d : Fin 32),
    let h := s.me
    s.Calm → h.resume.pending = false → (h.tagOf a).ordinary = true → (groupOf (h.tagOf a) h.ew a).isSome = true →
    let bits_ (o : Host.Outcome State Fault Refusal) (len : Nat) (q : PR) (y : Nat → Nat) (tb : Tag) : Prop :=
      ∃ u, o = .next u ∧ u.me.pc = h.pcNext len ∧ u.me.v = h.v ∧ u.me.x = h.x ∧
        ∀ j i, i < 0x8000 → u.me.pred j i =
          if j = q ∧ q ≠ 0 ∧ i < h.vl then h.pred m i && (cmpElem n h.rm (h.tagOf a) tb (h.elem a i) (y i)).1
          else h.pred j i
    let scalar : Nat → Nat := fun _ => (h.getX x).toNat % 2 ^ (h.tagOf a).width
    ((h.tagOf b).ordinary = true → (groupOf (h.tagOf b) h.ew b).isSome = true →
      bits_ (exec (.vcmp q a b m ca cb n) s) 4 q (h.elem b) (h.tagOf b) ∧
      bits_ (exec (.evExtended (.vcmp n) d a b c m ca cb false false) s) 8 (prOf d) (h.elem b) (h.tagOf b)) ∧
    bits_ (exec (.vcmpVx q a x m ca n) s) 4 q scalar (h.tagOf a) ∧
    bits_ (exec (.evExtended (.vcmp n) d a x c m ca cb false true) s) 8 (prOf d) scalar (h.tagOf a)

/-- R188, R289, R297 to R301: a reduction, permute, scan or `vconf` whose sources and destination have legal tags and
groups completes, from its first element wherever a restart point short of its end says: it writes its elements, sets
the result tag and raises its flags.  With vl = 0 nothing changes, and a suffix at or beyond the pass count leaves no
element to perform. -/
def Obligations.WholeResults : Prop :=
  ∀ (s : State) (i : Instr) (q : WholeForm) (rt : Tag),
    wholeForm i = some q → s.Calm →
    let h := s.fromStart.me
    q.rt (h.tagOf q.vd) (h.srcTags q.srcs) = some rt →
    groupsOk h.ew (h.srcRegs q.srcs) (some (q.vd, rt)) = true →
    let r := q.f h (h.srcTags q.srcs)
    (s.me.spent = false → s.GoesV (exec i s)
      (if h.vl = 0 then h else (h.land q.vd rt (r.1.map (·.1)) r.1).orFlags r.2) (h.pcNext q.len)) ∧
    (s.me.spent = true → s.GoesV (exec i s) (h.land q.vd rt (List.range h.vl) []) (h.pcNext q.len))

/-- R298, R299: which source element each permute gives an element of its destination, and what `vrank` counts there. -/
def Obligations.PermuteElements : Prop :=
  ∀ (h : Hart) (a b : VR) (x : XR) (p : PR) (ts : List Tag) (i v : Nat),
    let k := (h.getX x).toNat
    let m := (h.vl + 1) / 2
    let on (i : Nat) : Prop := i < h.vl ∧ h.pred p i = true
    let below (i : Nat) : Nat := ((List.range i).filter fun j => h.pred p j).length
    ((i, v) ∈ (Hart.raised a x p h ts).1 ↔ on i ∧ k ≤ i ∧ v = h.elem a (i - k)) ∧
    ((i, v) ∈ (Hart.lowered a x p h ts).1 ↔ on i ∧ v = if i + k < h.vl then h.elem a (i + k) else 0) ∧
    ((i, v) ∈ (Hart.permuted a b p h ts).1 ↔
      on i ∧ v = if h.elem b i < h.vl then h.elem a (h.elem b i) else 0) ∧
    ((i, v) ∈ (Hart.reversed a p h ts).1 ↔ on i ∧ v = h.elem a (h.vl - 1 - i)) ∧
    ((i, v) ∈ (Hart.zipped a b p h ts).1 ↔ on i ∧ v = if i % 2 = 0 then h.elem a (i / 2) else h.elem b (i / 2)) ∧
    ((i, v) ∈ (Hart.unzipped a b p h ts).1 ↔
      on i ∧ v = if i < m then h.elem a (2 * i) else h.elem b (2 * (i - m) + 1)) ∧
    ((i, v) ∈ (Hart.ranked a p h ts).1 ↔ i < h.vl ∧ v = below i % 2 ^ (h.tagOf a).width) ∧
    ((i, v) ∈ (Hart.squeezed a p h ts).1 ↔ ∃ j, on j ∧ i = below j ∧ v = h.elem a j) ∧
    ((i, v) ∈ (Hart.spread a p h ts).1 ↔ on i ∧ v = h.elem a (below i))

/-- R289: the integer sum of a reduction is the start plus the active elements, modulo 2^w, whatever their order. -/
def Obligations.IntegerSum : Prop :=
  ∀ (h : Hart) (a b : VR) (p : PR) (t : Tag),
    t ∈ [Tag.s8, .s16, .s32, .s64, .z8, .z16, .z32, .z64] → h.tagOf a = t → h.tagOf b = t →
    let total := intVal t (h.elem b 0) + ((h.actives p).map fun i => intVal t (h.elem a i)).sum
    Hart.reduced .sum a b p h [t, t] = ([(0, (total % 2 ^ t.width).toNat)], 0) ∧
    Hart.reduced .sumOrd a b p h [t, t] = Hart.reduced .sum a b p h [t, t]

/-- R302, R303, R304, R306: predicate logic and cuts write bit i of pd as their table gives, for every i below vl; the
other bits, and p0, do not change. `vpart` gives the run that starts at the first bit of ps: it ends before the
first element above it that depends on the run, or at vl. -/
def Obligations.PredicateResults : Prop :=
  (∀ (s : State) (i : Instr) (q : PredForm),
     predForm i = some q → s.Calm → s.me.spent = false →
     let h := s.me
     ∃ u, exec i s = .next u ∧ u.me.pc = h.pcNext q.len ∧ u.me.v = h.v ∧ u.me.x = h.x ∧ u.me.mr = h.mr ∧
       ∀ j k, k < 0x8000 → u.me.pred j k = if j = q.pd ∧ q.pd ≠ 0 ∧ k < h.vl then q.f h k else h.pred j k) ∧
  (∀ (s : State) (q p : PR) (a : VR) (ca cb cc : Bool) (d b c : Fin 32) (pm : PR),
     let h := s.me
     s.Calm → h.spent = false → (h.tagOf a).isInt = true → (h.tagOf a).isSgn = true → (groupOf (h.tagOf a) h.ew a).isSome = true →
     let first (p : PR) (i : Nat) : Prop := i < h.vl ∧ h.pred p i = true ∧ ∀ j, j < i → h.pred p j = false
     let inRun (p : PR) (k : Nat) : Prop := ∃ i, first p i ∧ i ≤ k ∧ k < h.vl ∧
       ∀ j, i < j → j ≤ k → intVal (h.tagOf a) (h.elem a j) < i
     let puts (o : Host.Outcome State Fault Refusal) (len : Nat) (q p : PR) : Prop :=
       ∃ u, o = .next u ∧ u.me.pc = h.pcNext len ∧
         ∀ k, k < h.vl → k < 0x8000 → q ≠ 0 → (u.me.pred q k = true ↔ inRun p k)
     puts (exec (.vpart q a p ca) s) 4 q p ∧
     puts (exec (.evExtended .vpart d a b c pm ca cb cc false) s) 8 (prOf d) (prOf b))

/-- R305, R307: `vlast` and `vfirst` give the highest or lowest active element, extended by its tag, and leave xd
alone where none is active; `pcnt` counts the bits in both predicates, and `pfirst` gives the first, or vl. -/
def Obligations.ScalarPickResults : Prop :=
  ∀ (s : State) (d : XR) (a : VR) (p q : PR) (ca cb cc sb : Bool) (e b c : Fin 32),
    let h := s.me
    let t := h.tagOf a
    s.Calm → h.spent = false →
    let gives (o : Host.Outcome State Fault Refusal) (n : Nat) (d : XR) (v : Word) : Prop :=
      s.GoesV o (h.setX d v) (h.pcNext n)
    let out (i : Nat) : Word :=
      if t.isSgn then (BitVec.ofNat t.width (h.elem a i)).signExtend 64 else BitVec.ofNat 64 (h.elem a i)
    (t.ordinary = true → (groupOf t h.ew a).isSome = true →
      (∀ i, (h.actives p).getLast? = some i →
        gives (exec (.vlast d a p ca) s) 4 d (out i) ∧
        gives (exec (.evExtended .vlast d a b c p ca cb cc sb) s) 8 d (out i)) ∧
      (∀ i, (h.actives p).head? = some i →
        gives (exec (.vfirst d a p ca) s) 4 d (out i) ∧
        gives (exec (.evExtended .vfirst d a b c p ca cb cc sb) s) 8 d (out i)) ∧
      (h.actives p = [] →
        s.GoesV (exec (.vlast d a p ca) s) h (h.pcNext 4) ∧ s.GoesV (exec (.vfirst d a p ca) s) h (h.pcNext 4))) ∧
    (let l := (List.range h.vl).filter fun i => h.pred q i && h.pred p i
     gives (exec (.pcnt d q p) s) 4 d (BitVec.ofNat 64 l.length) ∧
     gives (exec (.pfirst d q p) s) 4 d (BitVec.ofNat 64 (l.head?.getD h.vl))) ∧
    (let l := (List.range h.vl).filter fun i => h.pred (prOf e) i && h.pred p i
     gives (exec (.evExtended .pcnt d e b c p ca cb cc sb) s) 8 d (BitVec.ofNat 64 l.length) ∧
     gives (exec (.evExtended .pfirst d e b c p ca cb cc sb) s) 8 d (BitVec.ofNat 64 (l.head?.getD h.vl)))

/-! Vector memory. -/

/-- R38, R112, R313 to R317: a vector load or store of every form whose tags and groups are legal, every one of whose elements
still to do passes its checks, and that need not wait, has its slices serve the frames of those elements, one request
for each frame (R38), performs the accesses of exactly those elements and completes. -/
def Obligations.VectorMemoryResults : Prop :=
  ∀ (s : State) (i : Instr) (q : VMemForm),
    vmemForm s.me i = some q → (s.me.vl = 0 ∨ s.me.spilled = []) → s.drv.pause = none →
    let h := s.me
    let m := { q.m with grp := s.orderOf s.drv.nextId q.m.mode }
    let t := h.tagOf m.v
    let b := t.width / 8
    let g := groupSize t h.ew
    (m.mode = .ff → ¬(h.looping = true ∧ h.parallel = true)) →
    t.ordinary = true → (groupOf t h.ew m.v).isSome = true → m.v.val + m.nf * g ≤ 32 →
    (m.store = true → ∀ f, f < m.nf → h.tagOf (Fin.ofNat 32 (m.v.val + f * g)) = t) →
    (∀ x, m.idx = some x → (h.tagOf x).isInt = true ∧
      ∃ gx, groupOf (h.tagOf x) h.ew x = some gx ∧ (m.store = false → meets m.v (m.nf * g) x gx = false)) →
    let todo := (h.actives m.pm).filter s.fresh
    (∀ e ∈ todo, s.elemStop m b e = none) →
    let ps := s.places m b (m.accs todo)
    let held := s.staysHeld s m s.drv.nextId b ps
    s.vmemWait s m s.drv.nextId b ps held = .ok () →
    let e := ((s.drawFrames m.store m.hint b ps).performElems m s.drv.nextId b g todo held).keepOrder m false
    (e.countHint m.hint (if m.hint = .none then [] else s.places m b (m.accs (h.actives m.pm)))).EffectsV
      (exec i s) q.len

/-- R132, R314, R315: an element read that passes its checks puts the value that the hart sees into its element's
bytes and no others; element writes carry the register's bytes to their places in order, and nothing else happens
before they enter the store buffer. -/
def Obligations.ElementAccesses : Prop :=
  ∀ (s : State) (m : VMem) (ino b g : Nat),
    (∀ (a : ElemAcc) (p : Phys), s.probe m b a = .ok (s, p) → p.attr ≠ .dev → m.v.val + a.f * g < 32 →
      let lo := 0x4000 * (m.v.val + a.f * g) + a.e * b
      let r := s.readValue (s.searchPath m.start s.cur (coreOf s.cur)) p.key b
      let t := s.readElem m (m.dst b g) ino b a
      (∀ k, SMap.get (0 : Byte) t.me.v k =
        if lo ≤ k ∧ k < lo + b then BitVec.ofNat 8 (r.1 / 2 ^ (8 * (k - lo))) else SMap.get 0 s.me.v k) ∧
      t.mem = s.mem ∧ t.me.x = s.me.x ∧ t.me.tag = s.me.tag ∧ t.me.mr = s.me.mr ∧ t.me.p = s.me.p) ∧
    (∀ (l : List ElemAcc) (at_ : ElemAcc → Phys), (∀ a ∈ l, s.probe m b a = .ok (s, at_ a)) →
      s.pieces m b g l = (s, l.map fun a =>
        { p := at_ a, n := b, val := s.me.vBytes (m.reg g a.f) (a.e * b) b, va := a.va }))

/-- R320, R322: `vgathw` loads its window and then serves it: hits go to vd and the other active elements to pout;
`vsave` writes the 16 KiB image of a register, zero above the grant, and `vrest` reads it back, bytes above the grant
staying as they are. That the whole image moves is a reading of R322 (log entry 80). -/
def Obligations.WindowAndImageResults : Prop :=
  ∀ (s : State) (d w ix v : VR) (x : XR) (o p : PR) (cb : Bool),
    s.me.spilled = [] → s.drv.pause = none →
    let ino := s.drv.nextId
    (let h := s.me
     let t := h.tagOf w
     let g := groupSize t h.ew
     let gi := groupSize (h.tagOf ix) h.ew
     let b := t.width / 8
     let m := windowMem w (h.unitAddr x b)
     let todo := (h.actives 0).filter s.fresh
     let ps := s.places m b (m.accs todo)
     t.ordinary = true → h.tagOf d = t → (h.tagOf ix).isInt = true → (groupOf t h.ew d).isSome = true →
     (groupOf t h.ew w).isSome = true → (groupOf (h.tagOf ix) h.ew ix).isSome = true →
     meets d g w g = false → meets d g ix gi = false → meets w g ix gi = false →
     (∀ e ∈ todo, s.elemStop m b e = none) → s.staysHeld s m ino b ps = false → s.vmemWait s m ino b ps false = .ok () →
     let e := (s.drawFrames false .none b ps).performElems m ino b g todo false
     e.bagEmpty e.cur = true → (e.hmem e.cur).resErr = none → e.wordsSound → e.me.skewed ix p b = none → e.me.vl ≠ 0 →
     (e.setMe (e.me.serve d w ix o p b)).EffectsV (exec (.vgathw d w ix x o p cb) s) 8) ∧
    (let base := (s.getX x).toNat % 2 ^ 55
     let todo := (List.range 2048).filter fun e => s.me.resume.unit ≤ e / 128
     let size := 32 * s.vgrant s.cur
     base % 64 = 0 →
     (let m := imageMem true v base
      let ps := s.places m 8 (m.accs todo)
      let held := s.staysHeld s m ino 8 ps
      (∀ e ∈ todo, s.elemStop m 8 e = none) → s.vmemWait s m ino 8 ps held = .ok () →
      let r := (s.drawFrames true .none 8 ps).pieces m 8 1 (m.accs todo)
      (r.1.performStore m ino
        ((r.2.zip todo).map fun w => if w.2 < size then w.1 else { w.1 with val := 0 }) held).EffectsV
        (exec (.vsave v x) s) 4) ∧
     (let m := imageMem false v base
      let ps := s.places m 8 (m.accs todo)
      let held := s.staysHeld s m ino 8 ps
      (∀ e ∈ todo, s.elemStop m 8 e = none) → s.vmemWait s m ino 8 ps held = .ok () →
      ((s.drawFrames false .none 8 ps).performLoad m (fun a => if a.e < size then .v v a.e 8 else .none) ino 8
        (m.accs todo) held).EffectsV (exec (.vrest v x) s) 4))

/-- R321: `vamo` whose elements all pass their checks updates each location in one step, its elements in ascending
order: an integer `vamo.add` leaves the old value plus the sum of their operands. One that the driver holds stays in its
hart's bag, one access for each location (log entry 14). -/
def Obligations.VectorAtomicResults : Prop :=
  (∀ (s s1 : State) (v ix : VR) (x : XR) (p : PR) (o : VamoOp) (q r : Bool) (ps : List (Nat × Phys)),
     (s.me.vl = 0 ∨ s.me.spilled = []) → s.me.resume.pending = false →
     let h := s.me
     let t := h.tagOf v
     let b := t.width / 8
     vamoTag o t = true → (h.tagOf ix).isInt = true → (groupOf t h.ew v).isSome = true →
     (groupOf (h.tagOf ix) h.ew ix).isSome = true →
     meets v (groupSize t h.ew) ix (groupSize (h.tagOf ix) h.ew) = false →
     let addr (e : Nat) : Nat := h.indexAddr x ix e 0
     s.vamoCheck addr b (s.elemBad ix (h.tagOf ix)) (s.elemBad v t) (h.actives p) = .ok (s1, ps) →
     let ino := s.drv.nextId
     let locs := byLoc ps
     let items := mergeSpans (s1.vamoItems addr (vamoOp o t) t v b ino q locs)
     let places := ps.map fun e => (e.2, addr e.1)
     let direct := locs.any fun l => l.1.attr.direct
     let rel := if r then some Scope.dev else none
     let stays := s.drv.hold && !direct && items.all fun it => s1.amoIdle it.loc it.cached
     (stays = false →
       (∀ l ∈ locs, s1.olderHeld s.cur ino l.1.key b = false ∧ s1.olderPending s.cur ino l.1.key b = false) →
       s1.mayLeave s.cur ino = true →
       s1.framesIdle (cachedOf .wb b places ++ cachedOf .pool b places) = true →
       (∀ a, s.releaseWait s1 ino a rel true = .ok ()) →
       (items.foldl State.amoNow (s1.drawFrames true .none b places).bump).EffectsV (exec (.vamo v x ix p o q r) s) 4) ∧
     (stays = true →
       ((s1.holdAll s.cur items).markRelease s.cur ino rel).bump.EffectsV (exec (.vamo v x ix p o q r) s) 4)) ∧
  (∀ (s : State) (t : Tag) (hid : Nat) (it : BagItem) (rm : Rm) (ups : List Update),
     t ∈ [Tag.s32, .s64, .z32, .z64] → it.n = t.width / 8 →
     (s.performAmo hid it .add (some t) rm ups).imgRead it.loc it.n =
       (s.imgRead it.loc it.n + (ups.map fun u => u.opnd.toNat).sum) % 2 ^ t.width)

/-! Copy engines and arrival words. -/

/-- R325 to R331: a copy instruction that passes its checks and finds an entry puts its copy into its queue and
completes; a copy with a predicate first clears the predicate's bits below vl.  `vrecv` takes the oldest landed strip,
`vstream` binds the loop's stream, and `pwait` completes once no copy of the hart names its predicate. That a `pwait` that
waits stays at its PC with nothing changed is log entry 8, and that these forms count as instructions and not as vector
operations is log entry 69. -/
def Obligations.CopyIssueResults : Prop :=
  (∀ (s : State) (d a n e : XR),
     let c := s.newCopy .cpy ((s.getX d).toNat % 2 ^ 55) ((s.getX a).toNat % 2 ^ 55) (s.getX n).toNat (s.getX e) 0
       .z8 0 []
     let q := engQueue .cpy (coreOf s.cur) c.dst c.src
     (s.getX n).toNat ≤ 2 ^ 40 → s.desOk (coreOf s.cur) (s.getX e) = true → (s.engQ q).length < engCap q →
     (s.enqueue q c).Effects (exec (.cpy d a n e) s) 4) ∧
  (∀ (s : State) (v : VR) (a : XR) (n : Fin 8) (k : PR),
     let h := s.me
     let t := h.tagOf v
     let G := groupSize t h.ew
     let va := (s.getX a).toNat % 2 ^ 55
     let q := coreOf s.cur
     let u := s.setMe (h.setPreds k (fun _ => false) h.vl)
     t.ordinary = true → (groupOf t h.ew v).isSome = true → (n.val + 1) % G = 0 → v.val + n.val + 1 ≤ 32 →
     va % (t.width / 8) = 0 → s.maskBusy k = false → (s.engQ q).length < 32 → s.me.spilled = [] →
     (h.vl ≠ 0 → (u.enqueue q (s.newCopy .cpyr v.val va (n.val + 1) 0 k t h.vl [])).Effects (exec (.cpyr v a n k) s) 4 ∧
       (u.enqueue q (s.newCopy .cpyw va v.val (n.val + 1) 0 k t h.vl [])).Effects (exec (.cpyw v a n k) s) 4) ∧
     (h.vl = 0 → s.Effects (exec (.cpyr v a n k) s) 4 ∧ s.Effects (exec (.cpyw v a n k) s) 4)) ∧
  (∀ (s : State) (d v : VR) (x : XR) (key : Nat),
     let h := s.me
     let t := h.tagOf v
     let q := coreOf s.cur
     let target := (s.getX x).toNat
     h.task = some key → target ≠ s.cur → target ∈ (s.task key).hids → t.ordinary = true →
     (groupOf t h.ew v).isSome = true →
     (groupOf t h.ew d).isSome = true → (s.engQ q).length < 32 → s.me.spilled = [] → s.sendsBad v = false → h.vl ≠ 0 →
     (s.enqueue q (s.newCopy .cpyx d.val v.val (s.hart target).member 0 0 t h.vl (h.sent v))).Effects
       (exec (.cpyx d x v) s) 4) ∧
  (∀ (s : State) (v : VR) (x : XR) (key : Nat),
     let h := s.me
     let t := h.tagOf v
     let q := coreOf s.cur
     let mask := (s.getX x).toNat
     let targets := bitList 16 mask
     h.task = some key → mask < 2 ^ (s.task key).gsz → mask.testBit h.member = false → t.ordinary = true →
     groupOf t h.ew v = some 1 →
     (∀ i ∈ targets, s.hasFrame i = true) → (s.engQ q).length < 32 → s.me.spilled = [] →
     (mask ≠ 0 → s.sendsBad v = false → ((targets.foldl (fun u i => u.reserveFrame t i) s).enqueue q
        (s.newCopy .cpym 0 v.val mask 0 0 t h.vl (h.sent v))).Effects (exec (.cpym v x) s) 4) ∧
     (mask = 0 → s.Effects (exec (.cpym v x) s) 4)) ∧
  (∀ (s : State) (d : VR) (f : RxFrame) (l : List RxFrame),
     s.me.rx = f :: l → f.landed = true → f.tag.ordinary = true → groupOf f.tag s.me.ew d = some 1 →
     ∃ u, exec (.vrecv d) s = .next u ∧ u.me.rx = l ∧ u.me.pc = s.me.pcNext 4 ∧ u.me.x = s.me.x ∧
       (∀ r, u.me.tagOf r = if r = d then f.tag else s.me.tagOf r) ∧
       (∀ k, (k < 0x4000 * d.val ∨ 0x4000 * (d.val + 1) ≤ k) →
         SMap.get (0 : Byte) u.me.v k = SMap.get 0 s.me.v k)) ∧
  (∀ (s : State) (b st : XR) (k : PR),
     (s.me.looping = true →
       s.Goes (exec (.vstream b st) s) { s.me with stream := some (s.getX b, s.getX st) } (s.me.pcNext 4)) ∧
     (s.maskBusy k = false → s.Goes (exec (.pwait k) s) s.me (s.me.pcNext 4)) ∧
     (s.maskBusy k = true → exec (.pwait k) s = .next s))

/-- R119, R332: one arrival of n bytes adds them to the count; where the target is not 0 and is reached, the count
falls by the target and the generation rises by one; nothing else in the word changes but wrap and over, which are
sticky. `arw` on an aligned word of the window that passes its checks leaves the target X(rb), a count of 0 and
clear over and wrap bits, keeps the generation and the reserved bits, and rd receives the generation and the count
before; `await` completes once the generation differs from X(rb), and waits at the instruction until then, with nothing
changed (log entry 8). -/
def Obligations.ArrivalWords : Prop :=
  (∀ (w : BitVec 128) (n : Nat),
     let target := w.toNat % 2 ^ 32
     let gen := w.toNat / 2 ^ 64 % 2 ^ 32
     let count := (w.toNat / 2 ^ 32 % 2 ^ 32 + n) % 2 ^ 32
     let u := arrivalStep w n
     let hit := target ≠ 0 ∧ target ≤ count
     u.toNat % 2 ^ 32 = target ∧
     u.toNat / 2 ^ 32 % 2 ^ 32 = (if hit then count - target else count) ∧
     u.toNat / 2 ^ 64 % 2 ^ 32 = (if hit then (gen + 1) % 2 ^ 32 else gen) ∧
     (w.getLsbD 96 = true → u.getLsbD 96 = true) ∧ (w.getLsbD 97 = true → u.getLsbD 97 = true) ∧
     (hit → target ≤ count - target → u.getLsbD 96 = true) ∧
     (hit → gen = 2 ^ 32 - 1 → u.getLsbD 97 = true) ∧
     (¬ hit → u.getLsbD 96 = w.getLsbD 96 ∧ u.getLsbD 97 = w.getLsbD 97)) ∧
  (∀ (s : State) (d a x : XR) (p : Phys) (store : Bool),
     let va := (s.getX a).toNat % 2 ^ 55
     let ino := s.drv.nextId
     let w := s.word16 p.key
     let gen := w.toNat / 2 ^ 64 % 2 ^ 32
     let out : Word := BitVec.ofNat 64 (gen * 2 ^ 32 + w.toNat / 2 ^ 32 % 2 ^ 32)
     let seen := (s.noteRead s.cur ino p.key 16 []).bump
     va % 16 = 0 → winBase ≤ va → va < winBase + winSize → s.reaches va 16 store store = some p →
     s.isBad p.key 16 = false → s.olderHeld s.cur ino p.key 16 = false → s.olderPending s.cur ino p.key 16 = false →
     (store = true → s.mayLeave s.cur ino = true →
       let new := w.toNat / 2 ^ 98 * 2 ^ 98 + gen * 2 ^ 64 + (s.getX x).toNat % 2 ^ 32
       (seen.setWord16 p.key (BitVec.ofNat 128 new) ino s.cur).Goes (exec (.arw d a x) s) (s.me.setX d out)
         (s.me.pcNext 4)) ∧
     (store = false → gen ≠ (s.getX x).toNat % 2 ^ 32 →
       seen.Goes (exec (.await d a x) s) (s.me.setX d out) (s.me.pcNext 4)) ∧
     (store = false → gen = (s.getX x).toNat % 2 ^ 32 → exec (.await d a x) s = .next s))

/-! Quantise and matrix instructions. -/

/-- R294 to R296: `vqnt` writes the codes and scales of its blocks; `vqnte`, where every step fits its list, also
appends the steps' entries and the header; `vdqnt` gives every active element its dequantised value. Each completes
where its tags, groups and list pass their checks. The order of the entries' writes is a reading of R295 (log entry
66). -/
def Obligations.QuantiseResults : Prop :=
  (∀ (s : State) (d sc a : VR) (t : Tag) (p : PR) (ca : Bool),
     let h := s.me
     let ta := h.tagOf a
     s.Calm → h.spent = false → ta.isFloat = true → t.isNarrow = true → quantGroups h.ew d t sc a ta = true →
     let h := s.fromStart.me
     let nb := ceilDiv h.vl 32
     let blocks := (List.range nb).map fun b =>
       quantBlock t h.rm 0 (.nan false) (h.actVals a p ((List.range 32).map (32 * b + ·) |>.filter (· < h.vl)))
     let codes := blocks.flatMap (·.codes)
     let h1 := h.land d t (codes.map (·.1)) codes
     let h2 := h1.land sc .e8m0 (List.range nb) ((List.range nb).zip (blocks.map (·.scale)))
     s.GoesV (exec (.vqnt d sc a t p ca) s)
       (if h.vl = 0 then h else h2.orFlags (blocks.foldl (fun x b => x ||| b.flags) 0)) (h.pcNext 8)) ∧
  (∀ (s s1 : State) (d sc a : VR) (t : Tag) (E : Fin 8) (th l : XR) (p : PR) (ca : Bool) (D : ListDesc)
     (hdr : ListHdr) (q : QAcc),
     let h := s.me
     let ta := h.tagOf a
     s.Calm → (s1.hmem s1.cur).resErr = none → s1.drv.pause = none → s1.wordsSound → s1.me = s.me → h.resume.pending = false → h.vl ≠ 0 →
     ta.isFloat = true → t.escape.isSome = true → quantGroups h.ew d t sc a ta = true →
     listDesc (s.getX l) = some D → D.off + 16 ≤ winSize → h.vl % (32 * D.X) = 0 → h.vl / (32 * D.X) ≤ 512 →
     D.kbase + h.vl / D.X ≤ 65536 → s.listHeader D.off true = .ok (s1, hdr) → hdr.ok D.off = true →
     let nb := h.vl / (32 * D.X)
     quantSteps h a t E.val (val .f32 ((s.getX th).toNat % 2 ^ 32)) p D nb 0 ⟨[], [], [], hdr, 0⟩ = (q, none) →
     s1.listStop 0 q.words = none →
     (∀ w ∈ q.words, s1.olderHeld s1.cur s1.drv.nextId (spadKey (coreOf s1.cur) w.2.1) 8 = false) →
     let e := if q.words.isEmpty then s1 else s1.listWrite (q.words.map (·.2))
     let h2 := (h.land d t (h.actives p) q.codes).land sc .e8m0 (List.range (nb * D.X)) q.scales
     (e.setMe (h2.orFlags q.flags)).EffectsV (exec (.vqnte d sc a t E th l p ca) s) 8) ∧
  (∀ (s : State) (d a sc : VR) (t : Tag) (p : PR) (ca cb : Bool),
     let h := s.me
     s.Calm → h.resume.pending = false → (h.tagOf a).isNarrow = true → h.tagOf sc = .e8m0 → t.isFloat = true →
     groupsOk h.ew [(a, h.tagOf a), (sc, .e8m0)] (some (d, t)) = true →
     let r (i : Nat) := dequant (h.tagOf a) t h.rm (h.elem a i) (h.code sc 8 (i / 32)) none
     let on := h.actives p
     s.GoesV (exec (.vdqnt d a sc t 0 p ca cb) s)
       (if h.vl = 0 then h else
         (h.land d t on (on.map fun i => (i, (r i).1))).orFlags (on.foldr (fun i f => (r i).2 ||| f) 0))
       (h.pcNext 8)) ∧
  (∀ (s s1 : State) (d a sc : VR) (t : Tag) (x : XR) (p : PR) (ca cb : Bool) (D : ListDesc) (l : List ListEnt),
     let h := s.me
     (s1.hmem s1.cur).resErr = none → s1.drv.pause = none → s1.wordsSound → s1.me = s.me → h.spilled = [] → h.resume.pending = false →
     (h.tagOf a).isNarrow = true → h.tagOf sc = .e8m0 → t.isFloat = true → x ≠ 0 →
     groupsOk h.ew [(a, h.tagOf a), (sc, .e8m0)] (some (d, t)) = true → s.dequantList x = .ok (s1, D, l) →
     dequantListOk h a p D l = true →
     let at_ (i : Nat) (e : ListEnt) : Bool := e.k - D.kbase == i / D.X && e.pos == i % D.X
     let r (i : Nat) := dequant (h.tagOf a) t h.rm (h.elem a i) (h.code sc 8 (i / (32 * D.X) * D.X + i % D.X))
       ((l.find? (at_ i)).map (·.v))
     let on := h.actives p
     s1.GoesV (exec (.vdqnt d a sc t x p ca cb) s)
       (if h.vl = 0 then h else
         (h.land d t on (on.map fun i => (i, (r i).1))).orFlags (on.foldr (fun i f => (r i).2 ||| f) 0))
       (h.pcNext 8))

/-- R173, R336, R338, R339, R344: a hart that owns the array: `mcfg` takes the configuration and computes T, `mzero`
clears a view and no other word, `mrow` reads one row segment and `mwrow` writes one.  A hart below M that does not
own it takes MOWNER, with mown in kaddr. -/
def Obligations.MatrixStateResults : Prop :=
  ∀ (s : State) (a b : XR) (t : TileRef) (v : VR) (p : PR) (ca : Bool),
    let k := s.core (coreOf s.cur)
    let h := s.me
    let trap := { Trap.at0 .mowner 0 k.mown.toNat with old := h.resume.pending }
    let r := (s.getX a).toNat
    let c := (s.getX b).toNat
    let rt := if tag32 (h.tagOf v) then h.tagOf v else .f32
    (s.unowned = false →
      (let T := tensorScale h.rm (s.getX b)
       bits (s.getX a) 31 24 = 0 → bits (s.getX a) 7 0 = 0 →
       let e := s.setCore (coreOf s.cur)
         { k with mcfg := s.getX a, mscale := s.getX b, mT := BitVec.ofNat 32 T.1, mvalid := true }
       e.GoesV (exec (.mcfg a b) s) (h.orFlags T.2) (h.pcNext 8)) ∧
      (∃ u, exec (.mzero t) s = .next u ∧ u.me.pc = h.pcNext 8 ∧
        (∀ r c, r < viewSize t → c < viewSize t → (u.core (coreOf s.cur)).tile t r c = 0) ∧
        (∀ w, w < 65536 → (∀ r c, r < viewSize t → c < viewSize t → w ≠ viewWord t r c) →
          SMap.get 0 (u.core (coreOf s.cur)).acc w = SMap.get 0 k.acc w)) ∧
      (s.Calm → h.spent = false → r < viewSize t → c + h.vl ≤ viewSize t →
        ((groupOf rt h.ew v).isSome = true →
          s.GoesV (exec (.mrow t v a b p) s)
            (if h.vl = 0 then h else
              h.land v rt (h.actives p) ((h.actives p).map fun j => (j, (k.tile t r (c + j)).toNat)))
            (h.pcNext 8)) ∧
        (tag32 (h.tagOf v) = true → (groupOf (h.tagOf v) h.ew v).isSome = true →
          ∃ u, exec (.mwrow t v a b p ca) s = .next u ∧ u.me.pc = h.pcNext 8 ∧ u.me.v = h.v ∧
            ∀ r' c', r' < viewSize t → c' < viewSize t →
              (u.core (coreOf s.cur)).tile t r' c' =
                if r' = r ∧ c ≤ c' ∧ c' < c + h.vl ∧ h.pred p (c' - c) = true then
                  BitVec.ofNat 32 (h.elem v (c' - c))
                else k.tile t r' c'))) ∧
    (s.unowned = true →
      s.Traps (exec (.mcfg a b) s) trap ∧ s.Traps (exec (.mzero t) s) trap ∧ s.Traps (exec (.mrow t v a b p) s) trap ∧
      s.Traps (exec (.mwrow t v a b p ca) s) trap ∧ s.Traps (exec (.mld t a b) s) trap ∧
      s.Traps (exec (.mst t a b) s) trap)

/-- R345, R346, R349, R350: `mld` and `mst` move the configured corner of a view element by element (a held read of `mld`
is delivered to its word of the array when it performs), `msave` and
`mrest` the save image of the array; `olset`, `olclr` and `olcnt` write and read an outlier list's header.  Each
completes for a hart that owns the array (the list instructions for any hart) once its accesses pass their checks; an
`msave` at S by a hart that does not own an owned array stores it for the owner, with its live word, and then owns the
array (R193).  Stores that meet an older held access stay in the bag (log entry 18). -/
def Obligations.MatrixMemoryResults : Prop :=
  (∀ (s : State) (t : TileRef) (a b : XR),
     let k := s.core (coreOf s.cur)
     let N := k.cfgN
     let ino := s.drv.nextId
     let todo := (List.range (k.cfgM * N)).filter fun e => s.me.resume.unit ≤ e / N
     s.unowned = false → s.drv.pause = none → k.cfgFits t = true →
     (let m := tileMem (s.getX a) (s.getX b) N false
      let ps := s.places m 4 (m.accs todo)
      let held := s.staysHeld s m ino 4 ps
      (∀ e ∈ todo, s.elemStop m 4 e = none) → s.vmemWait s m ino 4 ps held = .ok () →
      ((s.drawFrames false .none 4 ps).performLoad m (tileDst t N) ino 4 (m.accs todo) held).EffectsV
        (exec (.mld t a b) s) 8 ∧
      ∀ (x : ElemAcc) (v c : Nat), (((s.deliver s.cur (tileDst t N x) v).core c).tile t (x.e / N) (x.e % N)) =
        if c = coreOf s.cur then BitVec.ofNat 32 v else (s.core c).tile t (x.e / N) (x.e % N)) ∧
     (let m := tileMem (s.getX a) (s.getX b) N true
      let ps := s.places m 4 (m.accs todo)
      let held := s.staysHeld s m ino 4 ps
      (∀ e ∈ todo, s.elemStop m 4 e = none) → s.vmemWait s m ino 4 ps held = .ok () →
      let r := (s.drawFrames true .none 4 ps).pieces m 4 1 (m.accs todo)
      (r.1.performStore m ino ((r.2.zip todo).map fun w =>
        { w.1 with val := (k.tile t (w.2 / N) (w.2 % N)).toNat }) held).EffectsV (exec (.mst t a b) s) 8)) ∧
  (∀ (s : State) (a : XR) (base : Nat),
     let k := s.core (coreOf s.cur)
     let ino := s.drv.nextId
     let units (base : Nat) (image : SMap Byte) (n : Nat) (done : State → Prop) : Prop :=
       let m := saveMem base true
       let todo := (List.range n).filter fun e => s.me.resume.unit ≤ e / 128
       let ps := s.places m 8 (m.accs todo)
       let held := s.staysHeld s m ino 8 ps
       (∀ e ∈ todo, s.elemStop m 8 e = none) → s.vmemWait s m ino 8 ps held = .ok () →
       let r := (s.drawFrames true .none 8 ps).pieces m 8 1 (m.accs todo)
       done (r.1.performStore m ino ((r.2.zip todo).map fun w => { w.1 with val := imgGet image (8 * w.2) 8 }) held)
     s.drv.pause = none →
     (s.unowned = false → s.msBase a = .ok base →
       units base k.tileImage saveElems (fun e => e.EffectsV (exec (.msave a) s) 8) ∧
       (let m := saveMem base false
        let all := List.range saveElems
        let ps := s.places m 8 (m.accs all)
        (∀ e ∈ all, s.elemStop m 8 e = none) → s.vmemWait s m ino 8 ps false = .ok () →
        let r := (s.drawFrames false .none 8 ps).bump.readWords m ino 8 (m.accs all)
        let image : SMap Byte := ((all.zip r.2).flatMap fun w =>
          (List.range 8).map fun j => (8 * w.1 + j, byteOf w.2 j)).filter fun b => b.2 != 0
        tileImageOk image = true →
        (r.1.setCore (coreOf r.1.cur) ((r.1.core (coreOf r.1.cur)).fromTileImage image)).EffectsV
          (exec (.mrest a) s) 8)) ∧
     (s.unowned = true → s.me.level = .s → k.mown.getLsbD 15 = true →
       units s.ownerHalf k.liveImage (saveElems + 1) fun e =>
         (e.setCore (coreOf e.cur) { e.core (coreOf e.cur) with
           mown := BitVec.ofNat 64 (2 ^ 15 + 2 ^ 13 + e.cur % 8) }).EffectsV (exec (.msave a) s) 8)) ∧
  (∀ (s s1 s2 : State) (d a b : XR) (h : ListHdr),
     let off := (s.getX a).toNat % 2 ^ 20
     let w := s.getX b
     let cap := w.toNat % 2 ^ 16
     let hdr (h : ListHdr) : List (Nat × Nat) := [(off, h.lo), (off + 8, h.hi)]
     off % 16 = 0 → off + 16 ≤ winSize →
     (bits w 31 17 = 0 → cap ≤ 4096 → off + 16 + 8 * cap ≤ winSize → s.hdrAccess off = .ok s1 →
       (s1.listWrite (hdr ⟨cap, 0, w.toNat / 2 ^ 32, w.getLsbD 16, false, 0⟩)).EffectsV (exec (.olset a b) s) 8) ∧
     (s.listHeader off false = .ok (s1, h) → s1.hdrAccess off = .ok s2 →
       (s2.listWrite (hdr { h with count := 0, ovf := false })).EffectsV (exec (.olclr a) s) 8) ∧
     (s.listHeader off false = .ok (s1, h) →
       s1.bump.GoesV (exec (.olcnt d a) s)
         (s1.me.setX d (BitVec.ofNat 64
           (h.count + h.cap % 2 ^ 16 * 2 ^ 32 + h.ovf.toNat * 2 ^ 48 + h.side.toNat * 2 ^ 49)))
         (s1.me.pcNext 8)))

/-- R340 to R343, R174: a product whose operands pass their checks adds its blocks in ascending order to the words of
its corner and completes; a dense integer product without saturation leaves in every word of the corner the old word
plus the sum over k of A[i][k] × B[k][j], modulo 2^32. -/
def Obligations.ProductResults : Prop :=
  (∀ (s s1 s2 : State) (o : Mop) (la lb : List (Nat × Nat × Nat)) (ca cb : Bool) (n1 n2 : Fin 3) (vm : VR),
     let h := s.me
     let k := s.core (coreOf s.cur)
     let M := k.cfgM
     let N := k.cfgN
     let K := o.K h.vl M
     let ta := h.tagOf o.va
     let tb := h.tagOf o.vb
     s.unowned = false → s.mopShape o = .ok () → (h.vl = 0 ∨ h.spilled = []) → h.resume.pending = false →
     s.mopList o.xa false M K k.cfgTid = .ok (s1, la) → s1.mopList o.xb true N K k.cfgTid = .ok (s2, lb) →
     s2.me = s.me → s2.cur = s.cur → (s2.hmem s2.cur).resErr = none → s2.mopBad o M N 0 (K / 32) = none →
     s2.drv.pause = none →
     let la := la.filter fun e => !o.aIgnored h M e.1 e.2.1
     listMatches (fun i x => match o.aCode h M i x with | some c => ta.escape == some c | none => false) M K la = true →
     listMatches (fun j x => tb.escape == some (o.bCode h N x j)) N K lb = true → o.badMeta h M K = none →
     let I : MopIn := { M, N, kind := (pairKind ta tb).getD 1, rm := h.rm, acc1 := h.accmode,
                        T := val .f32 k.mT.toNat, la, lb }
     let r := o.blocks h I 0 (K / 32) k.acc
     let e := ((s2.setCore (coreOf s.cur) { k with acc := r.1 }).orFlags r.2.1).countMe 14 r.2.2
     (o.sparse = none →
       e.EffectsV (exec (.mop o.t o.va o.vb o.sa o.sb o.xa o.xb o.pm ca cb) s) 8) ∧
     (o.sparse = some (2 ^ n1.val, 2 ^ (n2.val + 1), vm) →
       e.EffectsV (exec (.mops o.t o.va o.vb o.sa o.sb o.xa o.xb o.pm ca cb n1 n2 vm) s) 8)) ∧
  (∀ (h : Hart) (o : Mop) (I : MopIn) (acc : SMap (BitVec 32)) (nb i j : Nat),
     o.sparse = none → I.kind = 3 → I.acc1 = false → I.M ≤ viewSize o.t → I.N ≤ viewSize o.t →
     i < I.M → j < I.N →
     let A (k : Nat) : Int := intVal (h.tagOf o.va)
       (if h.pred o.pm (k * I.M + i) then h.elem o.va (k * I.M + i) else 0)
     let B (k : Nat) : Int := intVal (h.tagOf o.vb) (h.elem o.vb (k * I.N + j))
     let w (m : SMap (BitVec 32)) : BitVec 32 := SMap.get 0 m (viewWord o.t i j)
     w (o.blocks h I 0 nb acc).1 =
       w acc + BitVec.ofInt 32 ((List.range (32 * nb)).map fun k => A k * B k).sum)

/-- R347, R348: a collective of one member completes with no change. Of a larger mask, the last member to arrive
completes it for all: `msplit` gives every other member the root's view, and a wrapping integer `mjoin` leaves the sum
of the members' words in the root's. That the last arrival performs the whole collective in one step is a reading of
R347 (log entry 62). -/
def Obligations.CollectiveResults : Prop :=
  ∀ (s : State) (t : TileRef) (a b : XR) (key : Nat),
    let m := (s.getX a).toNat
    let h := s.me
    s.unowned = false → s.Calm → h.task = some key → m < 2 ^ (s.task key).gsz → m.testBit h.member = true →
    (m = 2 ^ h.member → s.EffectsV (exec (.msplit t a) s) 8 ∧
      ((s.getX b).toNat < 2 → s.EffectsV (exec (.mjoin t a b) s) 8)) ∧
    (m ≠ 2 ^ h.member → h.coll = none →
      ∀ (join s32 : Bool) (root : Nat) (rc : Collective) (l : List (Nat × Collective)),
        let c : Collective := { join, mask := m, tile := t, s32, fctl := s.mreg mFctl, ir := s.drv.ir }
        let all := root :: l.map (·.1)
        (join = true → (s.getX b).toNat = if s32 then 1 else 0) → (join = false → s32 = false) →
        (s.setMe { h with coll := some c }).arrivedAll m = some ((root, rc) :: l) →
        rc.join = join → rc.mask = m → rc.tile = t → rc.s32 = s32 → (∀ x ∈ l, rc.agrees x.2 = true) →
        (all.map coreOf).Nodup → (s.hart root).resume.unit = 0 →
        ∃ u, exec (if join then .mjoin t a b else .msplit t a) s = .next u ∧
          (∀ hid ∈ all, (u.hart hid).pc = (s.hart hid).pcNext 8 ∧ (u.hart hid).coll = none) ∧
          (∀ r cl, r < viewSize t → cl < viewSize t →
            (join = false → ∀ hid ∈ all, (u.core (coreOf hid)).tile t r cl = (s.core (coreOf root)).tile t r cl) ∧
            (join = true → s32 = true → rc.fctl.getLsbD 6 = false →
              (u.core (coreOf root)).tile t r cl =
                (l.map fun x => (s.core (coreOf x.1)).tile t r cl).foldl (· + ·)
                  ((s.core (coreOf root)).tile t r cl)) ∧
            (join = true → ∀ x ∈ l, (u.core (coreOf x.1)).tile t r cl = (s.core (coreOf x.1)).tile t r cl)))

/-! Tasks, barriers, deques and the Turnstile. -/

/-- R351 to R358: `tspawn` arms an EMPTY task of the hart's context with the descriptor it reads, `tsig` lowers a
task's count, `tkill` kills a task of its context and waits while a member of it is at M, until that arming is DONE, `tyield` goes on, and asks for a
pre-emption where a task of at least the same priority waits; `tdone` ends the hart's part of its task once its accesses
are complete, and the hart leaves its slot. A `tspawn` waits out a clk in which a later hart slot has armed the task. An
instruction that must wait stays at its PC with nothing changed (log entry 8). -/
def Obligations.TaskResults : Prop :=
  (∀ (s s1 : State) (a b : XR) (w : List Word),
     let key := (s.getX b).toNat
     let va := (s.getX a).toNat % 2 ^ 55
     s.me.level ≠ .m → key < 2 ^ 22 → key / 65536 = s.mySlot → va % 64 = 0 → s.settledAt .dev true = true →
     s.inTurn (armTurn key) s.cur = true → s.readDesc va 8 = .ok (s1, w) → s1.descOk w = true → (s1.task key).st = .empty →
     ((s1.bump.arm key w (some (coreOf s.cur))).noteTurn (armTurn key) s.cur).Effects (exec (.tspawn a b) s) 4) ∧
  (∀ (s : State) (a b : XR),
     let key := (s.getX a).toNat
     let n := (s.getX b).toNat
     s.me.level ≠ .m → key < 2 ^ 22 → key / 65536 = s.mySlot →
     (1 ≤ n → n ≤ 65535 → s.settledAt .dev true = true →
       (s.decrement key n (some (coreOf s.cur))).Effects (exec (.tsig a b) s) 4) ∧
     let killed := s.kill key (some (coreOf s.cur))
     let mark (u : State) (k : Option (Nat × Bool)) : State := u.setMe { u.me with killing := k }
     (s.me.killing = none →
       (key ≠ s.myTask → (killed.task key).dying = none → (mark killed none).Effects (exec (.tkill a) s) 4) ∧
       (key ≠ s.myTask → (killed.task key).dying ≠ none → exec (.tkill a) s = .next (mark killed (some (key, false)))) ∧
       (key = s.myTask → exec (.tkill a) s = .next killed)) ∧
     (s.me.killing = some (key, true) → (mark s none).Effects (exec (.tkill a) s) 4) ∧
     (s.me.killing = some (key, false) → exec (.tkill a) s = .next s)) ∧
  (∀ s : State, s.me.level ≠ .m →
     let q := dieOf s.cur
     let waits := s.contender q (s.task s.myTask).prio
     (waits = none → s.Effects (exec .tyield s) 4) ∧
     (waits ≠ none → (s.trigger s.myTask .slice).Effects (exec .tyield s) 4) ∧
     (s.settledAt (s.task s.myTask).cscope true = true → exec .tdone s = .next s.endPart) ∧
     (s.settledAt (s.task s.myTask).cscope true = false → exec .tdone s = .next s)) ∧
  (∀ (s : State) (a b : XR), s.me.level = .m →
     let bad := { Trap.at0 .illegal 0 s.drv.ir.toNat with old := s.me.resume.pending }
     s.Traps (exec (.tspawn a b) s) bad ∧ s.Traps (exec (.tsig a b) s) bad ∧ s.Traps (exec .tdone s) bad ∧
     s.Traps (exec (.tkill a) s) bad ∧ s.Traps (exec .tyield s) bad ∧ s.Traps (exec .bar s) bad)

/-- R352, R359 to R363: `bar` completes once its episode is released: at once for a task without a barrier, and by its
own arrival for the last member; `barinit` sets the expected count; `qpush`, `qpop` and `qsteal` work on the bottom,
the bottom and the top of a deque of at most 256 items; a `qsteal` is a thief on its own core too. A thief waits out a clk in which a core that comes after it in the
order of R73 has reached the deque, and a member one in which a later member has reached the barrier. An instruction that
must wait stays at its PC with nothing changed (log entry 8). -/
def Obligations.BarrierAndDequeResults : Prop :=
  (∀ s : State, s.me.level ≠ .m →
     (s.me.barDone = true → s.Goes (exec .bar s) { s.me with barDone := false } (s.me.pcNext 4)) ∧
     (s.me.barDone = false → s.me.atBar = true → exec .bar s = .next s) ∧
     (s.me.barDone = false → s.me.atBar = false → s.settledAt .dev false = true →
       (s.barOf s.myTask = none → s.Effects (exec .bar s) 4) ∧
       (∀ n b, s.barOf s.myTask = some (n, b) → s.inTurn (barTurn n) s.me.member = true →
         (b.arrived + 1 < b.exp → exec .bar s = .next (s.arriveBar s.myTask n b)) ∧
         (b.exp ≤ b.arrived + 1 → s.me.task = some s.myTask → s.cur ∈ (s.task s.myTask).hids →
           ∃ u, exec .bar s = .next u ∧ u.me.pc = s.me.pcNext 4 ∧ u.me.atBar = false ∧ u.me.barDone = false ∧
             (∀ hid ∈ (s.task s.myTask).hids, hid ≠ s.cur → (s.hart hid).atBar = true →
               (u.hart hid).atBar = false ∧ (u.hart hid).barDone = true) ∧
             SMap.get ⟨none, 0, 0, 0⟩ u.ring.bars n = { b with arrived := 0, gen := b.gen + 1 })))) ∧
  (∀ (s : State) (a b d : XR) (k : Nat) (br : Bar),
     let c := coreOf s.cur
     let x := (s.getX a).toNat
     let n := (s.getX b).toNat
     let l := s.dequeOf c x
     s.me.level ≠ .m →
     (s.barOf s.myTask = some (k, br) → 1 ≤ x → x ≤ (s.task s.myTask).gsz → (s.task s.myTask).gsz ≠ 1 →
       br.arrived = 0 → s.inTurn (barSetTurn k) s.me.member = true →
       ((s.noteTurn (barSetTurn k) s.me.member).setBar k { br with exp := x }).Effects (exec (.barinit a) s) 4) ∧
     (1 ≤ x → x ≤ 7 → (s.getX b).getLsbD 63 = false → s.settledAt .dev false = true → s.dequeTurn c x 0 = true →
       let e := s.noteDeque c x 0
       (l.length < 256 →
         (e.setDeque c x (s.getX b :: l)).Goes (exec (.qpush a b) s) (s.me.setX a 1) (s.me.pcNext 4)) ∧
       (256 ≤ l.length → e.Goes (exec (.qpush a b) s) (s.me.setX a 0) (s.me.pcNext 4))) ∧
     (1 ≤ x → x ≤ 7 → s.dequeTurn c x 0 = true →
       ((s.noteDeque c x 0).setDeque c x l.tail).Goes (exec (.qpop d a) s)
         (s.me.setX d (match l.head? with | some v => v ||| 0x8000000000000000 | none => 0)) (s.me.pcNext 4)) ∧
     (1 ≤ n → n ≤ 7 → s.active x = true → (s.core x).owner = some s.mySlot →
       s.dequeTurn x n (thiefRank c) = true →
       let l := s.dequeOf x n
       ((s.noteDeque x n (thiefRank c)).setDeque x n l.dropLast).Goes (exec (.qsteal d a b) s)
         (s.me.setX d (match l.getLast? with | some v => v ||| 0x8000000000000000 | none => 0)) (s.me.pcNext 4)) ∧
     (1 ≤ n → n ≤ 7 → s.active x = true → (s.core x).owner = some s.mySlot →
       s.dequeTurn x n (thiefRank c) = false →
       exec (.qsteal d a b) s = .next s))

/-- R366 to R373: `talloc` gives the lowest FREE slot of a partition, or the one granted to a waiting hart; `tst`
writes a tile into the hart's ALLOC slot, `tpost` publishes it, `tld` reads a published tile and `tdrop` gives up a
read of it.  A handle of an older generation raises TSTALE.  That a `tst` records its tag and n at vl = 0 too, and that
`tst` and `tld` count as instructions only, are readings (log entries 67, 69); a `tpost` whose earlier accesses have not
performed issues, and its publish waits (log entry 7). -/
def Obligations.TurnstileResults : Prop :=
  (∀ (s : State) (d a : XR) (i : Nat) (rest : List Nat) (g : Nat × Nat),
     let q := dieOf s.cur
     let p := (s.getX a).toNat
     let part := s.tspart q p
     s.me.level ≠ .m → p < 32 → partOn part = true → partSlot part = s.mySlot → s.posting = false →
     (s.ts.grants.find? (fun g => g.1 == s.cur) = some g →
       ({ s with ts := { s.ts with grants := s.ts.grants.filter fun g => g.1 != s.cur } } : State).Goes
         (exec (.talloc d a) s) (s.me.setX d (BitVec.ofNat 64 g.2)) (s.me.pcNext 4)) ∧
     (s.ts.grants.find? (fun g => g.1 == s.cur) = none → s.ts.dead.contains s.cur = false → s.tsWaiters q p = [] →
       s.partSlots q p (fun t => t.st == .free && t.freed != s.clk + 1) = i :: rest →
       let h : Handle := { gen := (s.tslot (65536 * q + 2048 * p + i)).gen, die := q, part := p, slot := i }
       let e := s.grantSlot s.cur h s.clk
       e.Goes (exec (.talloc d a) s) (e.me.setX d (BitVec.ofNat 64 h.code)) (e.me.pcNext 4)) ∧
     (s.ts.grants.find? (fun g => g.1 == s.cur) = none → s.ts.dead.contains s.cur = false → s.tsWaiters q p = [] →
       s.partSlots q p (fun t => t.st == .free && t.freed != s.clk + 1) = [] →
       (s.allMine q p = true →
         s.Traps (exec (.talloc d a) s) { Trap.at0 .tdeadlock 0 p with old := s.me.resume.pending }) ∧
       (s.allMine q p = false → exec (.talloc d a) s = .next (s.setTsWaiters q p [(s.cur, s.clk)])))) ∧
  (∀ (s : State) (v : VR) (a b : XR) (h : Handle),
     let r := s.me
     let t := r.tagOf v
     let bt := t.width / 8
     let ino := s.drv.nextId
     let n := (s.getX b).toNat
     let ws : List Piece := (List.range r.vl).map fun i =>
       { p := ⟨s.tileKey h (i * bt), 0, .wb⟩, n := bt, val := r.elem v i, va := 0 }
     let e := s.bump.bufferAll s.cur ino ws none none false
     s.me.level ≠ .m → s.handleOf a = .ok h → s.posting = false →
     (t.ordinary = true → (groupOf t r.ew v).isSome = true → r.vl * bt ≤ partSize (s.tspart h.die h.part) →
       s.mineAlloc h = true → (r.vl = 0 ∨ r.spilled = []) → s.wordsSound →
       (∀ w ∈ ws, s.olderHeld s.cur ino w.p.key w.n = false) →
       (e.setTslot h.key { e.tslot h.key with tag := t, n := r.vl }).Effects (exec (.tst v a) s) 4) ∧
     (1 ≤ n → n ≤ 65535 → s.mineAlloc h = true →
       (s.settledAt .dev false = true → s.drv.hold = false →
         (s.publish h n (some s.mySlot)).Effects (exec (.tpost a b) s) 4) ∧
       (s.settledAt .dev false = false ∨ s.drv.hold = true →
         ((s.setHmem s.cur { s.hmem s.cur with posts := (s.hmem s.cur).posts ++
           [⟨⟨ino, false, .dev, false, (s.hmem s.cur).obs⟩, h.code, n⟩] }).bump).Effects (exec (.tpost a b) s) 4)) ∧
     (1 ≤ n → n ≤ 65535 → s.mineAlloc h = false →
       s.Traps (exec (.tpost a b) s) { Trap.at0 .tstale 0 h.code with old := r.resume.pending })) ∧
  (∀ (s s1 : State) (d : VR) (a : XR) (h : Handle) (t : TsSlot) (e : Option (Nat × Word)),
     s.me.level ≠ .m → s.handleOf a = .ok h → s.posting = false → s.tslot h.key = t →
     (t.gen ≠ h.gen →
       let stale := { Trap.at0 .tstale 0 h.code with old := s.me.resume.pending }
       s.Traps (exec (.tld d a) s) stale ∧ s.Traps (exec (.tdrop a) s) stale) ∧
     (t.gen = h.gen → t.st = .published → s.owedCheck h t.seq = .ok (s1, e) →
       (s1.owedTake h e true).Effects (exec (.tdrop a) s) 4 ∧
       (let r := s1.me
        let b := t.tag.width / 8
        let n := min r.vl t.n
        s1.me = s.me → (r.vl = 0 ∨ (groupOf t.tag r.ew d).isSome = true ∧ r.spilled = []) →
        (s1.isBad (s1.tileKey h 0) (n * b) = false ∨ n = 0) →
        let new := (List.range r.vl).map fun i => (i, if i < n then s1.tileElem h b i else 0)
        ((s1.setMe (if r.vl = 0 then r else r.land d t.tag (List.range r.vl) new)).owedTake h e false).Effects
          (exec (.tld d a) s) 4)))

/-! Events. -/

/-- R22, R44, R50, R51, R54, R58, R122, R199, R205, R209, R212, R365: an event that is a write of a hub register is
that write; the bits that a register keeps are its RW bits. A write by the host to a register that it may not write,
or not of 8 aligned bytes, changes no register and counts in AER. A read of dbgdat waits for the write-backs to its
register, 100 µs at most. That an event is the write itself, by whichever agent, is the model's choice (log entry 89). -/
def Obligations.HubRegisterEvents : Prop :=
  ∀ (s : State) (n off size : Nat) (v : Word),
    let tail := v.toNat % 2 ^ 16
    let ctl := s.hreg (oLqctl n)
    let at_ (o : Nat) : State := s.stampHub o 1024
    (n < 64 →
      (tail ≠ s.lqTail n → (ctl.getLsbD 0 = false ∨ tail < s.lqSize n) →
        exec (.lqdbDoorbell n v) s = .next ((at_ (oLqdb n)).setHreg (oLqdb n) (BitVec.ofNat 64 tail))) ∧
      (tail = s.lqTail n → exec (.lqdbDoorbell n v) s = .next (at_ (oLqdb n))) ∧
      (tail ≠ s.lqTail n → ctl.getLsbD 0 = true → s.lqSize n ≤ tail →
        exec (.lqdbDoorbell n v) s = .next ((at_ (oLqdb n)).lqStop n 0xA)) ∧
      (ctl.getLsbD 0 = true → exec (.lqbaseWrite n v) s = .next (at_ (oLqbase n))) ∧
      (ctl.getLsbD 0 = false → exec (.lqbaseWrite n v) s =
        .next ((((at_ (oLqbase n)).setHreg (oLqbase n) (v &&& 0xFFFFFFFFFF000)).setHreg (oLqhead n) 0).setHreg (oLqdb n) 0)) ∧
      exec (.lqctlEnable n v) s = .next ((at_ (oLqctl n)).writeLqctl n (setBits v 35 35 0)) ∧
      exec (.lqctlRst n v) s = .next ((at_ (oLqctl n)).writeLqctl n (setBits v 35 35 1)) ∧
      (bits ctl 39 36 ≠ 0 → ctl.getLsbD 0 = true → ∃ t, exec (.lqctlRst n v) s = .next t ∧
        bits (t.hreg (oLqctl n)) 39 36 = 0 ∧ (t.lq n).st = .none)) ∧
    (n < 4 →
      (v.toNat % 8 ≤ 3 → (s.ts.slots.any fun e => e.1 / 65536 == n && e.2.st != .free) = false →
        exec (.tsctlWrite n v) s = .next (((at_ (oTsctl n)).pinWays n v).setHreg (oTsctl n) (v &&& 7)) ∧
        (v.toNat % 8 ≠ 0 → 4 * n + 3 ∉ ((at_ (oTsctl n)).pinWays n v).hub.l2gated)) ∧
      (3 < v.toNat % 8 → exec (.tsctlWrite n v) s = .next (at_ (oTsctl n))) ∧
      (∃ t, exec (.trctlWrite n v) s = .next t ∧ t.hreg (oTrctl n) =
        (s.hreg (oTrctl n) &&& 0xFFFFFFFFFFF) ||| (v &&& 0xFFFFF00000000000))) ∧
    (n < 128 → exec (.tspartWrite n v) s =
      .next ((at_ (oTspart (n / 32) (n % 32))).writeTspart (n / 32) (n % 32) v)) ∧
    (n < 1024 →
      exec (.pregionAttach n v) s = .next ((at_ (oPregion n)).writePregion n (setBits v 63 62 1)) ∧
      exec (.pregionFree n v) s = .next ((at_ (oPregion n)).writePregion n (setBits v 63 62 0))) ∧
    exec .fabstRejoin s = .next (if (s.hreg oFabst).getLsbD 0 then (at_ oFabst).rejoin else at_ oFabst) ∧
    (let hid := v.toNat % 2 ^ 10
     exec (.swint v) s = .next (if s.active (coreOf hid) && !s.hub.irqSw.contains hid then
       { at_ oSwint with hub := { s.hub with irqSw := s.hub.irqSw ++ [hid] } } else at_ oSwint)) ∧
    (∀ k, dbgIndex off = some k → off % 8 = 0 → exec (.debugSetWrite off v) s = .next ((at_ off).writeDbg k v)) ∧
    exec (.dbghartHalt v) s = .next ((at_ oDbghart).writeDbghart v).freshRead ∧
    exec (.dbgdatWrite v) s = .next (((at_ oDbgdat).dbgFill.dbgWrite v).getD
      ((at_ oDbgdat).setHreg oDbgsel (setBits (s.hreg oDbgsel) 63 63 1))) ∧
    (let u := s.dbgSettle
     (u.dbgOutstanding = false → ∃ t, exec .dbgdatRead s = .next t ∧ t.hub.dbgdat = u.dbgRead.1 ∧
       t.harts = u.harts ∧ t.mem = u.mem) ∧
     (u.dbgOutstanding = true →
       (s.hub.dbgWait = none → exec .dbgdatRead s = .next { s with hub := { s.hub with dbgWait := some s.clk } }) ∧
       (∀ k, s.hub.dbgWait = some k → s.clk < k + 190000 → exec .dbgdatRead s = .next s) ∧
       (∀ k, s.hub.dbgWait = some k → k + 190000 ≤ s.clk → ∃ t, exec .dbgdatRead s = .next t ∧ t.hub.dbgdat = 0 ∧
         (t.hreg oDbgsel).getLsbD 63 = true))) ∧
    (size = 8 → off % 8 = 0 → exec (.hubRegisterWrite off size v false) s = .next ((at_ off).hubWrite off v)) ∧
    (size = 8 → off % 8 = 0 → hostMay off = true →
      exec (.hubRegisterWrite off size v true) s = .next ((at_ off).hubWrite off v)) ∧
    (¬(size = 8 ∧ off % 8 = 0 ∧ hostMay off = true) →
      exec (.hubRegisterWrite off size v true) s = .next { s with hub := { s.hub with aer := s.hub.aer + 1 } }) ∧
    s.hubWrite 0x5000 v = s ∧ s.hubWrite 0x4800 v = s ∧
    (s.hubWrite 0x3000 v).hreg 0x3000 = (s.hreg 0x3000 &&& ~~~0x1FFFF) ||| (v &&& 0x1FFFF)

/-- R16, R17, R19, R22, R23, R24, R29, R65: a reset whose image fails its check leaves the device in recovery; one
that passes leaves every hart slot empty, the scratchpads' bytes gone and the memory homes' bytes as they were. Links
and ports train, retrain, spare a lane and retire, a port that trains with other than 16 lanes is DOWN, channels bring in
a redundant bit, stall while they retrain and go on after it, a failed core leaves placement, and each attestation
request is answered. A link that the record retires trains RETIRED, and one whose spare lane is in use trains spared. The
failure codes 1 and 2, and that the memory homes keep their bytes over a reset, are the model's
choices (log entries 36, 37), as is that a port that is UP again needs no reroute (log entry 33). -/
def Obligations.PackageEvents : Prop :=
  (∀ (s : State) (ok : Bool) (ver : Nat) (dg : BitVec 512),
     ∃ t, exec (.deviceReset ok ver dg) s = .next t ∧
       (t.pkg.recovery = if ok = false then some 1 else if ver < s.pkg.rollback then some 2 else none) ∧
       (∀ hid, t.hart hid = Hart.reset) ∧ (∀ o, t.hreg o = hubReset o) ∧ t.clk = 0 ∧
       (∀ k, t.img k = if k < keySpad then s.img k else 0) ∧ t.pkg.otp = s.pkg.otp ∧
       t.pkg.rollback = s.pkg.rollback ∧
       (ok = true → s.pkg.rollback ≤ ver → SMap.get 0 t.pkg.measure 0 = Config.extend 0 dg)) ∧
  (∀ (s : State) (rate width dev n swid lanes : Nat),
     let l := s.hreg (oLnkst n)
     (rate ≤ 64 → width ≤ 16 → exec (.hostLinkTrain rate width) s = .next { s with pkg := { s.pkg with
       hostRate := rate, hostWidth := width, hostUp := rate != 0 && width != 0 } }) ∧
     (dev < 256 → (s.hreg oFabid).getLsbD 8 = false → s.upLinks ≠ [] →
       exec (.fabricIdAssign dev) s = .next (s.setHreg oFabid (BitVec.ofNat 64 (256 + dev)))) ∧
     (n < 4 → exec (.linkOrPortTrains true n 16 swid) s =
       .next { s.setHreg (oPst n) (setBits (setBits (s.hreg (oPst n)) 10 9 2) 15 11 16) with
         pool := { s.pool with reroute := s.pool.reroute.filter fun e => e.1 != n
                               via := s.pool.via.filter fun e => e.1 != n } }) ∧
     (n < 4 → lanes ≠ 16 → exec (.linkOrPortTrains true n lanes swid) s = exec (.poolPortDown n) s) ∧
     (n < 24 → linkState l ≠ 3 → (.linkLane, n, true) ∉ s.pkg.otp →
       let spared := if (.linkLane, n, false) ∈ s.pkg.otp then 1 else 0
       exec (.linkOrPortTrains false n 8 swid) s =
         .next (s.setHreg (oLnkst n) (withLink (setBits (setBits l 23 16 swid) 8 8 spared) 2 8))) ∧
     (n < 24 → linkState l ≠ 3 → (.linkLane, n, true) ∈ s.pkg.otp → ∃ t, exec (.linkOrPortTrains false n lanes swid) s = .next t ∧
       linkState (t.hreg (oLnkst n)) = 3) ∧
     (n < 24 → linkState l = 2 → l.getLsbD 8 = false →
       exec (.mbawynLaneSpare n) s =
         .next ((s.setHreg (oLnkst n) (setBits (withLink l 1 (bits l 15 11)) 8 8 1)).recordSpare .linkLane n false)) ∧
     (n < 24 → linkState l = 1 → exec (.linkRetrainDone n) s = .next (s.setHreg (oLnkst n) (withLink l 2 8))) ∧
     (n < 24 → linkState l ≠ 3 → exec (.linkRetire n) s = .next (s.retireLink n)) ∧
     (n < 24 → exec (.flitCrcError .mbawyn n 8) s = .next (s.setHreg (oLnkst n) (setBits l 0 0 1))) ∧
     exec (.flitCrcError .host n 9) s = .next { s with pkg := { s.pkg with hostUp := false } }) ∧
  (∀ (s : State) (die ch : Nat),
     (∃ u, exec (.hbmRetrainDone die ch) s = .next u ∧ (die, ch) ∉ u.pkg.hbmStall ∧
       ∀ e, e ≠ (die, ch) → (e ∈ u.pkg.hbmStall ↔ e ∈ s.pkg.hbmStall)) ∧
     (die < 4 → ch ∈ s.activeChannels die →
       (s.spares .channel (· == 96 * die + ch) < 2 →
         ∃ t, exec (.hbmChannelRetrain die ch) s = .next t ∧ (die, ch) ∈ t.pkg.hbmStall ∧
           t.pkg.otp = s.pkg.otp ++ [(.channel, 96 * die + ch, false)]) ∧
       (2 ≤ s.spares .channel (· == 96 * die + ch) → (.channel, 96 * die + ch, true) ∉ s.pkg.otp →
         exec (.hbmChannelRetrain die ch) s = .next (s.recordSpare .channel (96 * die + ch) true)))) ∧
  (∀ (s : State) (c : Nat),
     (s.active c = true → s.placedOn c = [] → ∃ t, exec (.coreFail c) s = .next t ∧ (t.core c).removed = true ∧
       t.active c = false) ∧
     (s.active c = true → s.quiesceDue c = true → s.placedOn c = [] →
       exec (.coreQuiesce c) s = .next (s.applyQuiesce c))) ∧
  (∀ (s : State) (nonce : BitVec 512),
     let ans (r : SpdmReq) (a : SpdmAns) : Prop :=
       exec (.attestationRequest r nonce) s = .next { s with hub := { s.hub with spdm := s.hub.spdm ++ [a] } }
     ans .getVersion .plain ∧ ans .getCapabilities .plain ∧ ans .getCertificate .plain ∧
     ans (.negotiate true) .plain ∧ ans (.negotiate false) (.refused 0) ∧
     (s.pkg.recovery = none →
       ans .measure (.report (s.reportBody nonce) (Config.sign (s.reportBody nonce))) ∧ ans .other .plain) ∧
     (∀ c, s.pkg.recovery = some c → ans .measure (.refused c) ∧ ans .other (.refused c)))

/-- R42 to R47: pool ports and regions: a port that goes DOWN is rerouted or, after 500 µs, its regions are DETACHED;
a path that returns re-checks them, a match within 100 ms writes the quarantine back, and the end of the grace loses
them; a back-invalidation takes the frames' copies from every internal holder once what is under way for them has
landed; the fabric's fences and filters act as their rules say. What a detached region keeps, and what the fields of a
region read after a failed check, are readings (log entries 32 to 35); that a `bisnp` which is not ready leaves the state
as it is, and that a filter's time-out may act at any clk from its bound on, are the model's choices (log entries 8, 90). -/
def Obligations.PoolAndFabricEvents : Prop :=
  ∀ (s : State) (p via r k first count frame dev : Nat) (ok inv : Bool) (e : WEntry) (clk0 : Nat) (w : Word),
    (p < 4 → ∃ t, exec (.poolPortDown p) s = .next t ∧ linkState (t.hreg (oPst p)) = 0 ∧
      (t.pool.reroute.any fun e => e.1 == p) = true) ∧
    (via < 4 → via ≠ p → linkState (s.hreg (oPst via)) = 2 → (p, clk0) ∈ s.pool.reroute → s.clk ≤ clk0 + 950000 →
      exec (.poolRerouteDone p via) s =
        .next { s with pool := { s.pool with reroute := s.pool.reroute.filter (fun e => e.1 != p),
                                             via := s.pool.via ++ [(p, via)] } }) ∧
    ((p, clk0) ∈ s.pool.reroute → clk0 + 950000 ≤ s.clk →
      let l := s.regionsOn p 1
      let s1 : State := { s with pool := { s.pool with
        reroute := s.pool.reroute.filter (fun e => e.1 != p),
        grace := if l = [] then s.pool.grace
                 else (s.pool.grace.filter fun (g : Nat × Nat) => g.1 != p) ++ [(p, s.clk)] } }
      exec (.rerouteTimeout p) s = .next (l.foldl (fun s n => s.detachRegion n) s1)) ∧
    (∀ m ∈ s.mems, let hid := m.1
      (∀ x ∈ s.mems, x.1 = hid → x.2.stall = some (.region r)) →
      ((s.detachRegion r).hmem hid).stall = some (.owed r)) ∧
    (∃ t, exec (.poolPathReturn p) s = .next t ∧
      ∀ n ∈ s.regionsOn p 2, (s.pool.checks.any fun c => c.1 == n) = false → n ∉ s.pool.writeback →
        (n, true, s.clk) ∈ t.pool.checks) ∧
    (s.pool.checks.find? (fun c => c.1 == r && c.2.1) = some (r, true, clk0) →
      (s.clk ≤ clk0 + 190000000 → s.inGrace r = true → exec (.reattachCheckDone r true) s = .next { s with pool := { s.pool with
        checks := s.pool.checks.filter fun c => c.1 != r, writeback := s.pool.writeback ++ [r] } }) ∧
      (ok = false ∨ clk0 + 190000000 < s.clk ∨ s.inGrace r = false →
        exec (.reattachCheckDone r ok) s = .next ((s.endCheck r).reportRegion r true))) ∧
    (r ∈ s.pool.writeback → ∃ t, exec (.quarantineWritebackDone r) s = .next t ∧ r ∉ t.pool.writeback ∧
      (∀ q ∈ t.pool.quar, q.region ≠ r)) ∧
    ((p, clk0) ∈ s.pool.grace → s.graceLeft p = 0 → exec (.graceExpiry p) s =
      .next ((((s.regionsOn p 2).filter fun n => !s.pool.writeback.contains n).foldl
        (fun s n => (s.endCheck n).loseRegion n) s).trimGrace)) ∧
    (let lo := (paPool + r * 2 ^ 30) / 256 + first
     let inR (f : Nat) : Bool := decide (lo ≤ f) && decide (f < lo + count) && regionFrame r f
     (s.bisnpReady inR = false → exec (.bisnp r first count inv) s = .next s) ∧
     (s.bisnpReady inR = true → ∃ t, exec (.bisnp r first count inv) s = .next t ∧
       t.pool.biRsp = s.pool.biRsp ++ [(r, first, count)] ∧
       ∀ f x, inR f = true → x ∈ (s.dirEntry (homeDie f) f).1 → isRemote x.h = false →
         (inv = true → t.lineOf x.h f = none) ∧
         (inv = false → x.own = true → ∀ l, t.lineOf x.h f = some l → l.st = .s ∧ l.dirty = 0))) ∧
    (s.unacked[k]? = some e → mayMove s.unacked k = true → s.regionOfKey e.loc = some (r, w) → regionState s r = 1 →
      exec (.poolWriteAck k) s = .next (s.ackWrite k)) ∧
    exec (.dynamicCapacityRelease r) s =
      .next { s with pool := { s.pool with dcAns := s.pool.dcAns ++ [(r, regionState s r == 0)] } } ∧
    (s.pool.checks.find? (fun c => c.1 == r && !c.2.1) = some (r, false, clk0) →
      let w := s.hreg (oPregion r)
      (s.clk ≤ clk0 + 190000000 → ∃ t, exec (.identityCheckDone r true) s = .next t ∧
        t.hreg (oPregion r) = setBits w 63 62 1 ∧
        SMap.get 0 t.pool.identity r = Config.identityOf (bits w 59 48)) ∧
      (ok = false ∨ clk0 + 190000000 < s.clk →
        exec (.identityCheckDone r ok) s = .next ((s.endCheck r).reportRegion r true))) ∧
    (s.pool.checks.find? (fun c => c.1 == r) = some (r, ok, clk0) → clk0 + 190000000 ≤ s.clk →
      exec (.identityCheckAbandon r) s = .next ((s.endCheck r).reportRegion r true)) ∧
    (∃ t, exec (.filterEntryFree frame) s = .next t ∧ (t.filterEntry frame).1 = []) ∧
    ((s.coh.reqs.any fun q => q.waiting.contains (.dev dev) && decide (q.since + 95000 ≤ s.clk)) = true →
      ∃ t, exec (.filterProbeTimeout dev) s = .next t ∧ dev ∈ t.coh.fenced) ∧
    (∃ t, exec .deviceFenced s = .next t ∧ (t.hreg oFabst).getLsbD 0 = true) ∧
    ((s.hreg oFabst).getLsbD 0 = true → s.coh.rejoin = true → ∃ t, exec .fenceCleared s = .next t ∧
      (t.hreg oFabst).getLsbD 0 = false ∧ t.coh.rejoin = false) ∧
    (dev ≠ s.deviceId → dev ∉ (s.unfence dev).coh.fenced)

/-- R31 to R42, R48, R26: a request that arrives at an idle frame is served at once, for the holder's own words and
those it needs as one span; a probe takes the holder's line and its answer goes home; the answers and the grant move the
records, and dirty words that come home are merged there; a write-back leaves the line clean or gone, and the evicted
line's PUTD is served at the home; a probe that is not answered in 100 µs ends the request in a DATAERR at the hart's
access, as does a control request; the Roustabout writes an old dirty span back while its channel is idle; an
uncorrectable word that a scrub meets is reported. The two forms of a write-back, and that no clk guards CONTROL_TIMEOUT,
are the model's choices (log entries 29, 30, 90). -/
def Obligations.CoherenceEvents : Prop :=
  (∀ (s : State) (h : Holder) (f first last : Nat), first ≤ last → last ≤ 31 → s.mayAsk h f = true →
     (s.coh.reqs.any fun r => r.frame == f) = false →
     (∀ m ∈ s.mems, (m.2.bag.any fun b => s.frameOf b.loc == some f) = false) →
     let arrives (k : ReqKind) (o : Host.Outcome State Fault Refusal) : Prop :=
       ∃ t r, o = .next t ∧ t.coh.reqs = s.coh.reqs ++ [r] ∧ r.h = h ∧ r.frame = f ∧
         (r.first, r.last) = s.hull h f first last ∧ r.home = s.entryOf h f ∧ r.probes = r.waiting ∧
         (r.kind = k ∨ (k = .upg ∧ r.kind = .geto)) ∧ t.mem = s.mem ∧ t.harts = s.harts
     arrives .gets (exec (.gets h f first last) s) ∧ arrives .geto (exec (.geto h f first last) s) ∧
     arrives .upg (exec (.upg h f first last) s)) ∧
  (∀ (s : State) (h : Holder) (f : Nat) (inv : Bool) (r : HomeReq), ¬(peerFrame f = true ∧ h = .dev s.deviceId) →
     s.probing h f inv = some r → s.guestBusy h f = false →
     let u := s.reachHolder h f inv
     ∃ t, exec (if inv then .pinv h f else .pdwn h f) s = .next t ∧ (h, r.home, f, u.answer h f) ∈ t.coh.answers ∧
       (inv = true → t.lineOf h f = none) ∧
       (inv = false → ∀ l, t.lineOf h f = some l → l.st = .s ∧ l.dirty = 0)) ∧
  (∀ (s : State) (h : Holder) (f d : Nat) (r : HomeReq),
     let q := s.entryOf h f
     s.serving q f = some r →
     let took (o : Host.Outcome State Fault Refusal) (is : Answer → Bool) : Prop :=
       ∀ t, s.takeAnswer h f is = some t → o = .next t
     took (exec (.ack h f) s) (· == .ack) ∧ took (exec (.absent h f) s) (· == .absent) ∧
     took (exec (.data h f) s) (fun a => match a with | .data _ => true | _ => false) ∧
     (s.coh.answers = [(h, q, f, .data d)] → r.overflow = false → ∃ t, exec (.data h f) s = .next t ∧ t.coh.answers = [] ∧
       t.serving q f = some { r with waiting := r.waiting.erase h } ∧
       (q = homeDie f → d ≠ 0 → t.coh.dirty =
         if s.coh.hasWay q f then markDirty s.coh.dirty q f d s.clk else s.coh.dirty)) ∧
     (r.h = h → r.waiting = [] → r.overflow = false → (r.kind = .upg ∨ r.dataSent = true) → s.sliceReady r = true →
       s.cacheable (keyOf s (256 * f)) = true → ∃ t l, exec (.grant h f) s = .next t ∧
         t.lineOf h f = some l ∧ l.first ≤ r.first ∧ r.last ≤ l.last ∧ (r.kind ≠ .gets → l.st ≠ .s))) ∧
  (∀ (s : State) (h : Holder) (f : Nat) (keep : Bool) (l : Line),
     (s.lineOf h f = some l → l.dirty ≠ 0 → s.evicted h f = none →
       exec (.putd h f true) s =
         .next ((s.mergeAt (s.entryOf h f) f l.dirty).setLine { l with dirty := 0, st := .e }) ∧
       ((∀ g, h ≠ .die g) →
         ∃ t, exec (.putd h f false) s = .next t ∧ t.lineOf h f = none ∧ l ∈ t.coh.wb)) ∧
     (s.evicted h f = some l → exec (.putd h f keep) s = .next (s.servePutd l))) ∧
  (∀ (s : State) (hid f die loc : Nat) (r : HomeReq) (d : DirtySpan) (l : Line),
     (s.coh.reqs.find? (fun r => r.frame == f && !r.waiting.isEmpty && asksFor r.h hid &&
         decide (r.since + 190000 ≤ s.clk)) = some r →
       ∃ t, exec (.probeTimeout hid f) s = .next t ∧ (t.hmem hid).accErr = some (some f, 4) ∧
         ∀ h ∈ r.waiting, (h, f) ∈ t.coh.silent) ∧
     ((s.hart hid).task.isSome = true →
       exec (.controlTimeout hid) s = .next (s.setHmem hid { s.hmem hid with accErr := some (none, 4) })) ∧
     (s.isBad loc 1 = true → exec (.patrolScrub loc false) s =
       .next (s.report Cause.dataerr.code (s.eccSub loc 1) 0 (if loc < keyPool then loc else 0) 0 none none)) ∧
     (s.channelIdle f = true → (s.hreg (oCohctl die)).getLsbD 16 = true →
       let age := (s.hreg (oCohctl die)).toNat % 2 ^ 16 * 19
       (die = homeDie f → 256 * f < 4 * paDie →
         s.coh.dirty.find? (fun d => d.die == die && d.frame == f) = some d → age ≤ (s.clk - d.at_) * 10 →
         exec (.roustaboutWriteback die f) s = .next { s with coh := { s.coh with dirty := s.coh.dirty.erase d } }) ∧
       (die ≠ homeDie f → s.lineOf (.die die) f = some l → l.dirty ≠ 0 → age ≤ (s.clk - l.at_) * 10 →
         exec (.roustaboutWriteback die f) s =
           .next ((s.mergeAt (homeDie f) f l.dirty).setLine { l with dirty := 0, st := .e }))))

/-- R52 to R56, R69, R72 to R76, R83, R86, R116, R125 to R127, R196, R204, R374: packets, power and placement: a
packet that passes its checks performs, and one that does not stops its queue with its error code; the packets that
wait complete once their condition holds; gating, placement, stealing and pre-emption act when their conditions hold.
The gating of a whole scratchpad at once is the model's choice (log entry 39), and so are that an event which cannot act
leaves the state as it was (log entries 8, 9), what FENCE covers (log entry 20), and which tasks a core considers and
the order of its victims (log entry 40). -/
def Obligations.RingmasterEvents : Prop :=
  (∀ (s : State) (n code : Nat) (t : State), n < 64 →
     let q := s.lq n
     let key := 65536 * n + bits (pktWord q.pkt 2) 15 0
     let runs := s.lqRuns n = true
     (runs → q.st = .none → s.lqHead n ≠ s.lqTail n →
       (s.takePacket n = .ok t → exec (.packetFetch n) s = .next t) ∧
       (s.takePacket n = .error code → exec (.packetFetch n) s = .next (s.lqStop n code))) ∧
     (runs → q.st = .kill → q.kills = [] → exec (.packetFetch n) s = .next (s.lqNext n)) ∧
     (runs → q.st = .kill → q.kills ≠ [] → exec (.packetFetch n) s = .next s) ∧
     (runs → q.st = .wait → (s.task key).st = .empty → exec (.waitPacketComplete n) s = .next (s.lqNext n)) ∧
     (runs → q.st = .stop → q.out = [] → (s.hreg (oCbctl n)).getLsbD 0 = false →
       s.writeRecord n (bits (pktWord q.pkt 1) 54 0) (s.record n) = .ok t →
       exec (.counterFreeze n) s = .next (t.lqNext n)) ∧
     (runs → q.st = .fence → q.out = [] → s.fenceCovers q = true → bits (pktWord q.pkt 3) 12 11 = 0 →
       exec (.fenceRelease n) s = .next ((s.setLq n { q with obs := [], ended := [] }).lqNext n)) ∧
     (s.fenceCovers q = false → exec (.fenceRelease n) s = .next s) ∧
     (runs → q.st = .drop → s.tasksOf n = [] → s.copies = [] →
       ∃ u, exec (.ctxdropUnbind n) s = .next u ∧ (u.hreg (oCtxst n)).getLsbD 63 = false ∧
         (u.hreg (oCbctl n)) = 0 ∧ (u.lq n).st = .none)) ∧
  (∀ (s : State) (die cap g c u : Nat),
     (die < 4 → 1 ≤ cap → cap ≤ 8 → ∃ t, exec (.powerCapUpdate die cap) s = .next t ∧ t.cap die = cap) ∧
     (die < 4 → 1 ≤ g → g ≤ 2 → 4 * die + g ∉ s.hub.l2gated → 4 * die + g ∉ s.hub.l2waking →
       ∃ t, exec (.l2WayGate die g) s = .next t ∧ 4 * die + g ∈ t.hub.l2gated ∧ t.coh.dir = s.coh.dir ∧
         (∀ w ∈ t.coh.l2, ¬(w.die = die ∧ w.way / 4 = g)) ∧
         ∀ w ∈ s.coh.l2, w.die = die → w.way / 4 = g → homeDie w.frame = die →
           ∀ d ∈ t.coh.dirty, ¬(d.die = die ∧ d.frame = w.frame)) ∧
     (c < 128 → s.placedOn c = [] → s.copies = [] → (s.core c).emptySince + 190000 ≤ s.clk → (s.core c).gated = [] →
       (s.core c).waking = [] →
       exec (.scratchpadGate c) s = .next (s.setCore c { s.core c with gated := List.range 12 })) ∧
     exec (.wakeComplete true u g) s =
       .next { s with hub := { s.hub with l2waking := s.hub.l2waking.filter (· != 4 * u + g) } } ∧
     (g ∈ (s.core c).waking → ∃ t, exec (.wakeComplete false c g) s = .next t ∧
       (t.core c).waking = (s.core c).waking.erase g ∧ ∀ o, o < winSize → t.img (spadKey c o) = 0) ∧
     ((s.core c).filling = true →
       exec (.zeroFillComplete c) s = .next (s.setCore c { s.core c with filling := false }))) ∧
  (∀ (s : State) (c q key slot id i : Nat) (m : List (Nat × Nat)) (why : PreCause) (l : List Nat),
     (s.nextPlaced c (s.candidates c) = some (key, m) →
       (∀ e, s.leavesDeque key c = some e →
         (s.wasSaved key = false → exec (.gangPlacement c) s = .next (e.placeAll key (c / 32) m)) ∧
         (s.wasSaved key = true → exec (.rePlacement c) s = .next (e.placeAll key (c / 32) m))) ∧
       (s.leavesDeque key c = none → exec (.gangPlacement c) s = .next s ∧ exec (.rePlacement c) s = .next s)) ∧
     (SMap.get none s.ring.reserving q = none → s.reservers q = [key] → exec (.gangReserve q) s =
       .next { s with ring := { s.ring with reserving := SMap.set none s.ring.reserving q (some key) } }) ∧
     (s.dequeOf c 0 = [] → s.headFor c = false →
       (s.victims c).findSome? (fun v => match s.topTask v with
         | some key => (s.fit key (c / 32) (some c)).map fun m => (key, m)
         | none => none) = some (key, m) →
       ∀ e, s.leavesDeque key c = some e → exec (.workSteal c) s = .next (e.placeAll key (c / 32) m)) ∧
     (let k := 65536 * slot + id
      let t := s.task k
      (s.heldMarked k = true → exec (.gatingMarkTimeout slot id) s = .next (s.trigger k .cap)) ∧
      (s.waitDie k = some q → t.st = .ready → s.fit k q none = none → (s.drained q).fit k q none = none →
        (s.drained q).chooseVictims k q (s.lowerGangs q (s.effPrio k)) [] = some l →
        exec (.arrivalPreemption slot id) s = .next (l.foldl (fun s v => s.trigger v .arrival) s)) ∧
      (t.st = .running → bits (s.hreg oRmctl) 19 0 ≠ 0 → t.placedAt + bits (s.hreg oRmctl) 19 0 * 1900 ≤ s.clk →
        s.contender t.die t.prio ≠ none → exec (.timeSliceExpiry slot id) s = .next (s.trigger k .slice)) ∧
      (t.pre = some why → exec (.preemption slot id) s = .next (s.preempt k why)) ∧
      (∀ next, t.st = .done → t.readerAt = some (i, next) →
        exec (.pendingTableFit slot id) s = .next (s.abandon k i (some next))) ∧
      (t.st = .running → t.pre = none → s.rxFits t = true → ∀ why,
        ((s.trigger k why).task k).pre = some why)))

/-- R63, R106, R132, R135, R141, R142, R146, R185, R191, R208, R270: the events of harts, of the memory system and of
the engines act when they can: an interrupt is taken at an instruction boundary, a deferred fault is raised, a frame
spills, a held access performs, a buffered write moves on, a chunk performs, a strip lands, a wait times out, a sample
is written, a withdrawal is acknowledged. When these events may fall among held accesses is a reading (log entries 14,
18, 46), and so are where a ticket is drawn, what a sample names, which pages a spill writes and when a withdrawal is
acknowledged (log entries 17, 52, 81, 87). -/
def Obligations.MemoryAndHartEvents : Prop :=
  (∀ (s : State) (hid sub reg item k n : Nat) (place : Place) (t : State) (w v : Word) (rest : List (Word × Word))
     (b : BagItem),
     (s.takesIrq hid = true → s.pendingIrq hid sub = true → s.atBoundary hid = true →
       exec (.interruptDelivery hid sub) s = .next ((s.clearIrq hid sub).boundaryTrap hid .interrupt sub 0 false 0)) ∧
     ((s.hart hid).deferred = (w, v) :: rest → s.atBoundary hid = true →
       exec (.deferredFaultRaise hid) s = .next ((s.setHart hid { s.hart hid with deferred := rest }).boundaryTrap hid
         (Cause.ofCode (w.toNat % 2 ^ 8)) (w.toNat / 2 ^ 16 % 2 ^ 16) v.toNat true (w.toNat / 2 ^ 32 % 2 ^ 8))) ∧
     ((s.hart hid).waiting = .word none k n → n ≤ s.clk →
       exec (.waitTimeout hid) s = .next (s.setHart hid { s.hart hid with waiting := .no })) ∧
     (let h := s.hart hid
      let size := h.frameBytes reg (s.vgrant hid)
      let image : SMap Byte := (h.v.filter fun b => 0x4000 * reg ≤ b.1 && b.1 < 0x4000 * reg + 0x4000).map
        fun b => (b.1 - 0x4000 * reg, b.2)
      let clean := h.clean.any fun r => r.1 == reg && decide (size ≤ r.2)
      let pages := spillPages s hid ((h.mreg mRbs).toNat + 0x4000 * reg) size image (ceilDiv size 4096) 0
      h.task.isSome = true → reg < 32 → h.isSpilled reg = false → s.regPending hid reg = false →
      (clean = true → exec (.registerSpill hid reg) s = .next (s.dropFrame hid reg size)) ∧
      (clean = false → s.isBad (regKey hid (0x4000 * reg)) size = true →
        exec (.registerSpill hid reg) s = .next (s.spillFault hid (Trap.at0 .dataerr 1 0))) ∧
      (∀ tr, clean = false → s.isBad (regKey hid (0x4000 * reg)) size = false → pages = .error (some tr) →
        exec (.registerSpill hid reg) s = .next (s.spillFault hid tr)) ∧
      (clean = false → s.isBad (regKey hid (0x4000 * reg)) size = false → pages = .ok t →
        ∃ u, exec (.registerSpill hid reg) s = .next u ∧
          (u.hart hid).spilled = (t.hart hid).spilled ++ [(reg, size)] ∧ u.mem = t.mem)) ∧
     ((s.hmem hid).bag[item]? = some b → b.sc = false → s.performItem hid item = some t →
       exec (.memoryRead hid item) s = .next t) ∧
     ((s.hmem hid).bag[item]? = none → exec (.memoryRead hid item) s = .next (s.postDue hid)) ∧
     (s.drain place k = some t → exec (.drain place k) s = .next t) ∧
     ((s.hmem hid).bag = [b] → b.sc = true → s.performItem hid 0 = some t →
       ∃ u, exec (.ticket hid) s = .next u ∧ u.ticket = t.ticket + 1 ∧ u.mem = t.mem)) ∧
  (∀ (s : State) (q eq k : Nat) (c : Copy), s.copyAt q eq = some c → s.chunkReady q c k = true →
     (c.stall = [] → exec (.engineChunk q eq k) s = .next (s.runChunk q c k)) ∧
     (∀ d, c.stall = [(k, d)] → d ≤ s.clk → exec (.engineMigRetry q eq) s = .next (s.runChunk q c k)) ∧
     (∀ u n, s.chunkEffect q { c with started := true, stall := [] } k = .ok (u, n) → c.stall = [] →
       c.done.length + 1 < c.chunks →
       (s.runChunk q c k).mem = u.mem)) ∧
  (∀ (s : State) (hid i key q : Nat) (f : RxFrame) (c : Copy),
     let hit (e : Copy) : Bool := e.kind == .cpym && e.task == key && e.member == f.sender && e.ino == f.ino
     (s.hart hid).rx[i]? = some f → (s.hart hid).task = some key → s.copies.find? (fun e => hit e.2) = some (q, c) →
     f.landed = false → c.started = true → c.des = 0 →
     ∃ u, exec (.stripLand hid i) s = .next u ∧
       ∃ g, (u.hart hid).rx[i]? = some g ∧ g.landed = true ∧ g.tag = c.tag ∧ g.len = c.vl ∧ g.bytes = c.image) ∧
  (∀ (s : State) (hid slot core : Nat) (x : Xinv),
     (s.xlat.xinv.find? (fun x => x.hid == hid && !x.acked && s.rangeSettled x.lo x.hi) = some x → x.lo < x.hi →
       ∃ u, exec (.xinvComplete hid) s = .next u ∧ { x with acked := true } ∈ u.xlat.xinv ∧
         ∀ t ∈ u.xlat.tlb, ¬((t.asid = x.asid ∨ t.global = true) ∧ t.base < x.hi ∧ x.lo < t.base + t.size)) ∧
     (s.sampled slot core = some hid → (s.hreg (oSmpctl slot)).getLsbD 63 = true →
       bits (s.hreg (oSmpctl slot)) 11 0 ≠ 0 →
       SMap.get 0 s.hub.smpAt (64 * core + slot) + 64 * bits (s.hreg (oSmpctl slot)) 11 0 ≤ s.clk →
       let n := 2 ^ max 4 (bits (s.hreg (oSmpctl slot)) 15 12)
       let head := bits (s.hreg (oSmpctl slot)) 47 32
       (head + 1) % n ≠ bits (s.hreg (oSmpctl slot)) 31 16 →
       ∃ u, exec (.pcSample slot core) s = .next u ∧ bits (u.hreg (oSmpctl slot)) 47 32 = (head + 1) % n ∧
         u.harts = s.harts))

/-! The machine. -/

/-- R105, R188, R234 to R236, R254: a hart whose turn comes runs the instruction that its fetched bytes decode to, or the
ILLEGAL or fetch fault that they are: the driver names the turn, nothing stops the hart at its boundary, no register of the
instruction waits and each has its frame slots. The state that executes has those slots taken, a restart point only for a
vector or matrix instruction, and the driver's fields set; after it the step settles the sequencer, the frames and the
turn, and where a register that it writes is not free yet, nothing has happened but the turn. A fetched parcel is the two bytes that the hart sees at its translated address, and its L1 has them then; the first
parcel's length says how many follow. The driver's schedule is the model's own (log entry 7); a parcel fetched ahead is used
as it was (log entry 22). -/
def Obligations.StepRunsDecoded : Prop :=
  (∀ (s : State) (hid : Nat) (hold : Bool) (rest : List Turn),
     s.drv.sched = .hart hid hold :: rest → s.pkg.recovery = none →
     let s0 : State := { s with drv := { s.drv with sched := rest } }
     let h := s0.hart hid
     let s1 := s0.clearStall hid false
     s0.stopped hid = false → s0.halted hid = false → h.regrant = none → h.waiting = .no →
     ({ s1 with drv := { s1.drv with cur := hid, due := true } } : State).builtIn = false →
     (h.paused = true ∨ h.atBar = true ∨ h.barDone = true ∨ h.killing.isSome = true ∨ s1.withdrawing hid = true ∨
       s1.owesDetach hid = true ∨ (s1.ts.grants.any fun g => g.1 == hid) = true ∨ s1.boundaryStop hid = none) →
     let turned (s : State) (w : Word) : State := { s with drv := { s.drv with cur := hid, hold, ir := w, due := true } }
     let runs (i : Instr) (e : State) : Prop :=
       step s = match exec i e with
         | .next t => .next (if e.clobbers t i then e.heldTurn i else e.settle t i)
         | o => o
     (∀ (s2 : State) (va : Nat), s1.fetch hid = .refused s2 va → runs (.fetchFault va) (turned s2 0)) ∧
     ∀ (s2 : State) (l : List Byte) (n w : Nat), s1.fetch hid = .bytes s2 l →
       let fresh (s : State) : State := s.setHart hid ((s.hart hid).noRestart w n)
       (∀ i, decodeBytes l = .ok (n, w, .ok i) → s2.heldBack hid i = false →
         let s3 := s2.useFrames hid (s2.named hid i)
         s3.framed hid (s3.named hid i) = true →
         runs i (turned (fresh s3) (BitVec.ofNat 64 w))) ∧
       (∀ e, decodeBytes l = .ok (n, w, .error e) →
         runs (.nonInstruction (BitVec.ofNat 64 w)) (turned (fresh s2) (BitVec.ofNat 64 w)))) ∧
  (∀ (s : State) (hid va : Nat) (p : Phys), (s.hart hid).pre = [] →
     translate s (whoOf s hid) va .fetch false = .ok s p → p.attr ≠ .dev → fate s (dieOf hid) p false = .ok →
     let r := s.readValue (s.searchPath 0 hid (coreOf hid)) p.key 2
     r.2.2 = false → (p.attr.cached = true → s.l1Ready hid p.key 2 false = true) →
     s.fetchParcel hid va = .bytes (if p.attr.cached then s.touchL1 hid p.key 2 false else s)
       [byteOf r.1 0, byteOf r.1 1]) ∧
  (∀ (s s1 s2 s3 s4 : State) (hid : Nat) (a b c d : Byte) (l m : List Byte),
     let at_ (k : Nat) := ((s.hart hid).pc.toNat + k) % 2 ^ 55
     s.fetchParcel hid (at_ 0) = .bytes s1 [a, b] →
     (parcelBits (parcelOf a b) = 16 → s.fetch hid = .bytes s1 [a, b]) ∧
     (parcelBits (parcelOf a b) = 32 → s1.fetchParcel hid (at_ 2) = .bytes s2 [c, d] →
       s.fetch hid = .bytes s2 [a, b, c, d]) ∧
     (parcelBits (parcelOf a b) = 64 → s1.fetchParcel hid (at_ 2) = .bytes s2 [c, d] →
       s2.fetchParcel hid (at_ 4) = .bytes s3 l → s3.fetchParcel hid (at_ 6) = .bytes s4 m →
       s.fetch hid = .bytes s4 ([a, b, c, d] ++ l ++ m)))

/-- Words written out from the spec's worked encodings (R238, R243 to R251) decode to the instructions that they stand
for, and an unassigned word to none. -/
def Obligations.WorkedWordsDecode : Prop :=
  decodeTableWord 16 0xA000 = some .cNop ∧
  decodeTableWord 16 0x20BD = some (.cAddi 5 0b11101) ∧
  decodeTableWord 32 0xC532FAC0 = some (.ldAcq 6 11 .dev .b64 0) ∧
  decodeTableWord 32 0xC72997F8 = some (.blt 5 6 0b11111111000) ∧
  decodeTableWord 32 0xCA29CC2D = some (.amoAdd 5 7 6 true true true .dev) ∧
  decodeTableWord 32 0xC02000F0 = some (.fenceRel true .pool) ∧
  decodeTableWord 32 0xC0494003 = some (.mrd 5 3) ∧
  decodeTableWord 32 0xD0298300 = some (.setvl 5 6 .e32) ∧
  decodeTableWord 32 0xD11844A0 = some (.vadd 3 1 2 2 true false) ∧
  decodeTableWord 32 0xD4184432 = some (.vcmp 3 1 2 0 true true .lt) ∧
  decodeTableWord 32 0xD52848AC = some (.vscanSeg 5 1 4 2 true .add) ∧
  decodeTableWord 32 0xD7110621 = some (.vpart 2 4 3 true) ∧
  decodeTableWord 32 0xDB1B0283 = some (.vamo 3 12 1 2 .add true true) ∧
  decodeTableWord 32 0xDC188005 = some (.pafter 3 2 0) ∧
  decodeTableWord 32 0xDD62DE0E = some (.cpy 12 11 15 14) ∧
  decodeTableWord 32 0xDE298E09 = some (.qsteal 5 6 7) ∧
  decodeTableWord 64 0xE180102201600000 = some (.vmulh 4 1 2 2 true true false) ∧
  decodeTableWord 64 0xE133204004C00000 = some (.evExtended .vsqueeze 8 2 0 0 9 true false false false) ∧
  decodeTableWord 64 0xE186094004800E00 = some (.vldLong 2 10 0 .unit .plain .none true .pool 0 9 false) ∧
  decodeTableWord 64 0xE812110C7A54F000 = some (.mop .t1 2 4 6 7 20 21 3 true true) ∧
  decodeTableWord 64 0xE878000000000000 = none ∧
  decodeTableWord 64 0xE812110C7A54F400 = none

/-- R234 to R254: the encoder and the decoder agree on every well-formed instruction that has an encoding, at every
value of its operands: the parcels of its written word, laid out as R235 stores them and followed by any bytes, decode
to its length, its word and it. -/
def Obligations.EncodeDecode : Prop :=
  ∀ (i : Instr) (n w : Nat), i.wellFormed = true → i.encode = some (n, w) →
    ∀ rest, decodeBytes (wordBytes (n / 16) w ++ rest) = .ok (n / 8, w, .ok i)

/-- Every step, whatever its turn, keeps the one canonical form of the memory homes' bytes: a byte that a run writes
has one place, and equal memories are equal data. The form is the model's representation (log entry 2: an unlisted
byte reads 0). -/
def Obligations.StepKeepsMemoryForm : Prop :=
  ∀ (s t : State), step s = .next t → Memory.wf s.mem = true → Memory.wf t.mem = true

/-- R6, R22, R69, R90, R116, R153: the machine right after device reset: memory in canonical form with the scratchpads
zero and owned by no context, every register of the hub and of a hart at its Reset column, no link or port trained,
every task EMPTY, every hart slot as R90 says.  That x1 to x31 are zero is the model's choice (log entry 1). -/
def Obligations.ResetState : Prop :=
  let s := State.reset
  Memory.wf s.mem = true ∧ (∀ c o, c < 128 → o < winSize → s.img (spadKey c o) = 0) ∧
  (∀ c, (s.core c).owner = none ∧ (s.core c).filling = false) ∧
  (∀ o, s.hreg o = hubReset o) ∧ (s.hreg oFabid = 0) ∧
  (∀ n, n < 24 → (s.hubRead (0x1000 + 8 * n)).2 = 0) ∧ (∀ n, n < 4 → (s.hubRead (0x2000 + 8 * n)).2 = 0) ∧
  (∀ k, (s.task k).st = .empty) ∧ s.clk = 0 ∧
  ∀ hid, let h := s.hart hid
    (∀ m, h.mreg m = mregReset m) ∧ h.mreg mFctl = 0 ∧ h.vl = 0 ∧ h.ew = .e32 ∧ h.task = none ∧
    (∀ v, h.tagOf v = .s32) ∧ (∀ b, h.v.find? (fun c => c.1 == b) = none) ∧ s.vgrant hid = 0 ∧
    (∀ (p : PR) i, p ≠ 0 → h.pred p i = false) ∧ (∀ r : XR, h.getX r = 0)
end

