-- ==== Sys2Proof/Laws/Bits.lean ====
section
/-!
SUPPORT. Bit fields of words: what a field write leaves in each bit.
-/
namespace Sys2Proof

/-- A word whose field [hi:lo] is replaced, bit by bit. -/
theorem getLsbD_setBits (w : Word) (hi lo v n : Nat) (h1 : lo ≤ hi) (hn : n < 64) :
    (setBits w hi lo v).getLsbD n = if lo ≤ n ∧ n ≤ hi then v.testBit (n - lo) else w.getLsbD n := by
  obtain ⟨k, rfl⟩ : ∃ k, hi = lo + k := ⟨hi - lo, by omega⟩
  have hk : lo + k + 1 - lo = k + 1 := by omega
  unfold setBits bits
  dsimp only
  rw [hk, BitVec.getLsbD_ofNat]
  simp only [hn, decide_true, Bool.true_and]
  have hw : w.getLsbD n = w.toNat.testBit n := rfl
  rw [hw]
  generalize w.toNat = a
  generalize hK : 2 ^ (k + 1) = K
  have hK0 : 0 < K := by rw [← hK]; exact Nat.two_pow_pos _
  have e1 : a = 2 ^ lo * (a / 2 ^ lo) + a % 2 ^ lo := (Nat.div_add_mod ..).symm
  have e2 : a / 2 ^ lo = K * (a / 2 ^ lo / K) + a / 2 ^ lo % K := (Nat.div_add_mod ..).symm
  generalize hq : a / 2 ^ lo / K = q at e2
  generalize hb : a / 2 ^ lo % K = b at e2
  generalize hl : a % 2 ^ lo = l at e1
  have hl' : l < 2 ^ lo := by rw [← hl]; exact Nat.mod_lt _ (Nat.two_pow_pos _)
  have hb' : b < 2 ^ (k + 1) := by rw [← hb, hK]; exact Nat.mod_lt _ hK0
  have hv' : v % K < 2 ^ (k + 1) := by rw [hK]; exact Nat.mod_lt _ hK0
  have ea : a = 2 ^ lo * (2 ^ (k + 1) * q + b) + l := by rw [hK, ← e2]; exact e1
  have en : a - b * 2 ^ lo + v % K * 2 ^ lo = 2 ^ lo * (2 ^ (k + 1) * q + v % K) + l := by
    rw [ea, Nat.mul_add, Nat.mul_add, Nat.mul_comm b, Nat.mul_comm (v % K)]; omega
  rw [en, ea, Nat.testBit_two_pow_mul_add _ hl', Nat.testBit_two_pow_mul_add _ hl']
  by_cases h : n < lo
  · simp [h, show ¬(lo ≤ n) by omega]
  · rw [if_neg h, if_neg h, Nat.testBit_two_pow_mul_add _ hv', Nat.testBit_two_pow_mul_add _ hb']
    by_cases h' : n - lo < k + 1
    · rw [if_pos h', if_pos h', if_pos (by omega), ← hK, Nat.testBit_mod_two_pow]
      simp [h']
    · rw [if_neg h', if_neg h', if_neg (by omega)]

end Sys2Proof
end

