-- ==== Sys2Proof/Laws/Maps.lean ====
section
/-!
SUPPORT. Laws of sparse maps: reads after writes, and the canonical form.
-/
namespace Sys2Proof

variable {α : Type}

@[simp] theorem SMap.get_nil (d : α) (k : Nat) : SMap.get d [] k = d := rfl

theorem SMap.get_put (d : α) (m : SMap α) (k j : Nat) (v : α) :
    SMap.get d (m.put k v) j = if j = k then v else SMap.get d m j := by
  induction m with
  | nil => simp [SMap.put, SMap.get]
  | cons e m ih =>
    unfold SMap.put
    split
    · subst_vars; simp only [SMap.get]; split <;> rfl
    · split
      · simp only [SMap.get]
      · simp only [SMap.get, ih]; split <;> split <;> simp_all

theorem SMap.get_del (d : α) (m : SMap α) (k j : Nat) :
    SMap.get d (m.del k) j = if j = k then d else SMap.get d m j := by
  induction m with
  | nil => simp [SMap.del]
  | cons e m ih =>
    unfold SMap.del at ih ⊢
    by_cases h : e.1 = k
    · simp only [List.filter, h, beq_self_eq_true, Bool.not_true, ih, SMap.get]
      split <;> simp_all
    · simp only [List.filter, beq_eq_false_iff_ne.mpr h, Bool.not_false, ih, SMap.get]
      split <;> split <;> simp_all

/-- A read after a write. -/
theorem SMap.get_set [DecidableEq α] (d : α) (m : SMap α) (k j : Nat) (v : α) :
    SMap.get d (SMap.set d m k v) j = if j = k then v else SMap.get d m j := by
  unfold SMap.set
  split
  · next h => rw [SMap.get_del, h]
  · exact SMap.get_put d m k j v

@[simp] theorem SMap.get_set_same [DecidableEq α] (d : α) (m : SMap α) (k : Nat) (v : α) :
    SMap.get d (SMap.set d m k v) k = v := by simp [SMap.get_set]

theorem SMap.get_set_other [DecidableEq α] (d : α) (m : SMap α) {k j : Nat} (v : α) (h : j ≠ k) :
    SMap.get d (SMap.set d m k v) j = SMap.get d m j := by simp [SMap.get_set, h]

/-- Another key keeps its value, whatever its own default is. -/
theorem SMap.get_set_key [DecidableEq α] (d e : α) (m : SMap α) {k j : Nat} (v : α) (h : j ≠ k) :
    SMap.get e (SMap.set d m k v) j = SMap.get e m j := by
  unfold SMap.set
  split
  · rw [SMap.get_del, if_neg h]
  · rw [SMap.get_put, if_neg h]

/-! The canonical form. -/

/-- A lower bound of the keys. -/
def SMap.below : Option Nat → Nat → Bool
  | none, _ => true
  | some b, k => decide (b < k)

theorem SMap.rising_cons (b : Option Nat) (e : Nat × α) (m : SMap α) :
    SMap.rising b (e :: m) = (SMap.below b e.1 && SMap.rising (some e.1) m) := by
  cases b <;> rfl

theorem SMap.rising_mono (b : Option Nat) (c : Nat) (m : SMap α) (h : SMap.rising (some c) m)
    (hb : SMap.below b c ∨ b = some c) : SMap.rising b m := by
  cases m with
  | nil => cases b <;> rfl
  | cons e m =>
    rw [SMap.rising_cons] at h ⊢
    simp only [Bool.and_eq_true] at h ⊢
    refine ⟨?_, h.2⟩
    cases b with
    | none => rfl
    | some b =>
      have h1 := h.1
      simp only [SMap.below, decide_eq_true_eq, Option.some.injEq] at hb h1 ⊢
      omega

theorem SMap.rising_weaken (b : Option Nat) (m : SMap α) (h : SMap.rising b m) : SMap.rising none m := by
  cases m with
  | nil => rfl
  | cons e m => rw [SMap.rising_cons] at h ⊢; simp_all [SMap.below]

theorem SMap.rising_put (b : Option Nat) (m : SMap α) (k : Nat) (v : α) (h : SMap.rising b m)
    (hk : SMap.below b k) : SMap.rising b (m.put k v) := by
  induction m generalizing b with
  | nil => rw [SMap.put, SMap.rising_cons]; simp [hk, SMap.rising]
  | cons e m ih =>
    unfold SMap.put
    rw [SMap.rising_cons, Bool.and_eq_true] at h
    split
    · next he => subst he; rw [SMap.rising_cons, Bool.and_eq_true]; exact ⟨hk, h.2⟩
    · split
      · next hlt =>
        rw [SMap.rising_cons, SMap.rising_cons]
        rw [hk, h.2]
        simp [SMap.below, hlt]
      · next hne hlt =>
        rw [SMap.rising_cons, Bool.and_eq_true]
        exact ⟨h.1, ih _ h.2 (by simp only [SMap.below, decide_eq_true_eq]; omega)⟩

theorem SMap.rising_filter (b : Option Nat) (m : SMap α) (p : Nat × α → Bool) (h : SMap.rising b m) :
    SMap.rising b (m.filter p) := by
  induction m generalizing b with
  | nil => exact h
  | cons e m ih =>
    rw [SMap.rising_cons, Bool.and_eq_true] at h
    simp only [List.filter]
    split
    · rw [SMap.rising_cons, Bool.and_eq_true]; exact ⟨h.1, ih _ h.2⟩
    · exact ih _ (SMap.rising_mono _ e.1 _ h.2 (.inl h.1))

theorem SMap.rising_del (b : Option Nat) (m : SMap α) (k : Nat) (h : SMap.rising b m) :
    SMap.rising b (m.del k) := SMap.rising_filter b m _ h

theorem SMap.mem_put (m : SMap α) (k : Nat) (v : α) (e : Nat × α) (h : e ∈ m.put k v) :
    e ∈ m ∨ e = (k, v) := by
  induction m with
  | nil => simp_all [SMap.put]
  | cons f m ih =>
    unfold SMap.put at h
    split at h
    · rcases List.mem_cons.mp h with h | h
      · exact .inr h
      · exact .inl (List.mem_cons_of_mem _ h)
    · split at h
      · rcases List.mem_cons.mp h with h | h
        · exact .inr h
        · exact .inl h
      · rcases List.mem_cons.mp h with h | h
        · exact .inl (h ▸ List.mem_cons_self ..)
        · exact (ih h).imp (List.mem_cons_of_mem _) id

/-- What the canonical form says. -/
theorem SMap.wf_iff [DecidableEq α] (d : α) (m : SMap α) :
    SMap.wf d m ↔ SMap.rising none m ∧ ∀ e ∈ m, e.2 ≠ d := by
  simp [SMap.wf, List.all_eq_true]

@[simp] theorem SMap.wf_nil [DecidableEq α] (d : α) : SMap.wf d ([] : SMap α) := rfl

/-- A write keeps the canonical form. -/
theorem SMap.wf_set [DecidableEq α] (d : α) (m : SMap α) (k : Nat) (v : α) (h : SMap.wf d m) :
    SMap.wf d (SMap.set d m k v) := by
  rw [SMap.wf_iff] at h ⊢
  unfold SMap.set
  split
  · refine ⟨SMap.rising_del _ _ _ h.1, fun e he => h.2 e ?_⟩
    exact (List.mem_filter.mp he).1
  · next hv =>
    refine ⟨SMap.rising_put _ _ _ _ h.1 rfl, fun e he => ?_⟩
    rcases SMap.mem_put _ _ _ _ he with h' | h'
    · exact h.2 e h'
    · subst h'; exact hv

theorem SMap.wf_filter [DecidableEq α] (d : α) (m : SMap α) (p : Nat × α → Bool) (h : SMap.wf d m) :
    SMap.wf d (m.filter p : SMap α) := by
  rw [SMap.wf_iff] at h ⊢
  exact ⟨SMap.rising_filter _ _ _ h.1, fun e he => h.2 e (List.mem_filter.mp he).1⟩

theorem SMap.get_below (d : α) (m : SMap α) (b k : Nat) (h : SMap.rising (some b) m) (hk : k ≤ b) :
    SMap.get d m k = d := by
  induction m generalizing b with
  | nil => rfl
  | cons e m ih =>
    rw [SMap.rising_cons, Bool.and_eq_true] at h
    have h1 := h.1
    simp only [SMap.below, decide_eq_true_eq] at h1
    simp only [SMap.get]
    rw [if_neg (by omega)]
    exact ih e.1 h.2 (by omega)

/-- Maps in canonical form that read alike are equal. -/
theorem SMap.ext [DecidableEq α] (d : α) (m n : SMap α) (hm : SMap.wf d m) (hn : SMap.wf d n)
    (h : ∀ k, SMap.get d m k = SMap.get d n k) : m = n := by
  rw [SMap.wf_iff] at hm hn
  obtain ⟨rm, dm⟩ := hm
  obtain ⟨rn, dn⟩ := hn
  generalize none = b at rm rn
  induction m generalizing n b with
  | nil =>
    cases n with
    | nil => rfl
    | cons f n =>
      have := h f.1
      simp only [SMap.get, if_true] at this
      exact absurd this.symm (dn f (by simp))
  | cons e m ih =>
    cases n with
    | nil =>
      have := h e.1
      simp only [SMap.get, if_true] at this
      exact absurd this (dm e (by simp))
    | cons f n =>
      rw [SMap.rising_cons, Bool.and_eq_true] at rm rn
      have key : e.1 = f.1 := by
        refine Decidable.byContradiction fun hne => ?_
        rcases Nat.lt_or_gt_of_ne hne with hl | hl
        · have := h e.1
          simp only [SMap.get, if_true, if_neg hne] at this
          rw [SMap.get_below d n f.1 e.1 rn.2 (by omega)] at this
          exact dm e (by simp) this
        · have := h f.1
          simp only [SMap.get, if_true, if_neg (Ne.symm hne)] at this
          rw [SMap.get_below d m e.1 f.1 rm.2 (by omega)] at this
          exact dn f (by simp) this.symm
      have val : e.2 = f.2 := by
        have := h e.1
        simpa only [SMap.get, if_true, key] using this
      have rest : m = n := by
        refine ih n ?_ (fun x hx => dm x (by simp [hx])) (fun x hx => dn x (by simp [hx])) (some e.1) rm.2 (key ▸ rn.2)
        intro k
        by_cases hk : k = e.1
        · rw [SMap.get_below d m e.1 k rm.2 (by omega), SMap.get_below d n f.1 k rn.2 (by omega)]
        · have := h k
          simpa only [SMap.get, if_neg hk, key ▸ hk, if_false, ← key] using this
      rw [rest, Prod.ext key val]

/-- A second write of the same key replaces the first. -/
theorem SMap.set_set [DecidableEq α] (d : α) (m : SMap α) (k : Nat) (v u : α) (h : SMap.wf d m) :
    SMap.set d (SMap.set d m k v) k u = SMap.set d m k u :=
  SMap.ext d _ _ (SMap.wf_set _ _ _ _ (SMap.wf_set _ _ _ _ h)) (SMap.wf_set _ _ _ _ h)
    (fun j => by simp only [SMap.get_set]; split <;> rfl)

end Sys2Proof
end

