-- ==== Sys2Proof/Laws/State.lean ====
section
/-!
SUPPORT. What each update of the state leaves alone, field by field, and what it writes.
-/
namespace Sys2Proof.Machine

variable (s : State)

/-! Accessors look at one field. -/

theorem State.hart_of_harts {s t : State} (e : t.harts = s.harts) (j : Nat) : t.hart j = s.hart j := by
  unfold State.hart; rw [e]
theorem State.me_of {s t : State} (e : t.harts = s.harts) (d : t.cur = s.cur) : t.me = s.me := by
  unfold State.me; rw [d]; exact State.hart_of_harts e _
theorem State.core_of_cores {s t : State} (e : t.cores = s.cores) (c : Nat) : t.core c = s.core c := by
  unfold State.core; rw [e]
theorem State.hmem_of_mems {s t : State} (e : t.mems = s.mems) (j : Nat) : t.hmem j = s.hmem j := by
  unfold State.hmem; rw [e]
theorem State.hreg_of_hub {s t : State} (e : t.hub.reg = s.hub.reg) (o : Nat) : t.hreg o = s.hreg o := by
  unfold State.hreg; rw [e]
theorem Hart.mreg_of_mr {h h' : Hart} (e : h.mr = h'.mr) (n : Nat) : h.mreg n = h'.mreg n := by
  unfold Hart.mreg; rw [e]
theorem Hart.getX_of_x {h h' : Hart} (e : h.x = h'.x) (r : XR) : h.getX r = h'.getX r := by
  unfold Hart.getX; rw [e]

/-! One lemma for each field of each update. -/

@[simp] theorem State.setHart_clk (i : Nat) (h : Hart) : (s.setHart i h).clk = s.clk := rfl
@[simp] theorem State.setHart_mems (i : Nat) (h : Hart) : (s.setHart i h).mems = s.mems := rfl
@[simp] theorem State.setHart_cores (i : Nat) (h : Hart) : (s.setHart i h).cores = s.cores := rfl
@[simp] theorem State.setHart_mem (i : Nat) (h : Hart) : (s.setHart i h).mem = s.mem := rfl
@[simp] theorem State.setHart_bad (i : Nat) (h : Hart) : (s.setHart i h).bad = s.bad := rfl
@[simp] theorem State.setHart_coreQ (i : Nat) (h : Hart) : (s.setHart i h).coreQ = s.coreQ := rfl
@[simp] theorem State.setHart_devQ (i : Nat) (h : Hart) : (s.setHart i h).devQ = s.devQ := rfl
@[simp] theorem State.setHart_fabQ (i : Nat) (h : Hart) : (s.setHart i h).fabQ = s.fabQ := rfl
@[simp] theorem State.setHart_unacked (i : Nat) (h : Hart) : (s.setHart i h).unacked = s.unacked := rfl
@[simp] theorem State.setHart_ticket (i : Nat) (h : Hart) : (s.setHart i h).ticket = s.ticket := rfl
@[simp] theorem State.setHart_wlog (i : Nat) (h : Hart) : (s.setHart i h).wlog = s.wlog := rfl
@[simp] theorem State.setHart_ring (i : Nat) (h : Hart) : (s.setHart i h).ring = s.ring := rfl
@[simp] theorem State.setHart_eng (i : Nat) (h : Hart) : (s.setHart i h).eng = s.eng := rfl
@[simp] theorem State.setHart_ts (i : Nat) (h : Hart) : (s.setHart i h).ts = s.ts := rfl
@[simp] theorem State.setHart_xlat (i : Nat) (h : Hart) : (s.setHart i h).xlat = s.xlat := rfl
@[simp] theorem State.setHart_coh (i : Nat) (h : Hart) : (s.setHart i h).coh = s.coh := rfl
@[simp] theorem State.setHart_pool (i : Nat) (h : Hart) : (s.setHart i h).pool = s.pool := rfl
@[simp] theorem State.setHart_hub (i : Nat) (h : Hart) : (s.setHart i h).hub = s.hub := rfl
@[simp] theorem State.setHart_pkg (i : Nat) (h : Hart) : (s.setHart i h).pkg = s.pkg := rfl
@[simp] theorem State.setHart_drv (i : Nat) (h : Hart) : (s.setHart i h).drv = s.drv := rfl

@[simp] theorem State.setMe_clk (h : Hart) : (s.setMe h).clk = s.clk := rfl
@[simp] theorem State.setMe_mems (h : Hart) : (s.setMe h).mems = s.mems := rfl
@[simp] theorem State.setMe_cores (h : Hart) : (s.setMe h).cores = s.cores := rfl
@[simp] theorem State.setMe_mem (h : Hart) : (s.setMe h).mem = s.mem := rfl
@[simp] theorem State.setMe_bad (h : Hart) : (s.setMe h).bad = s.bad := rfl
@[simp] theorem State.setMe_coreQ (h : Hart) : (s.setMe h).coreQ = s.coreQ := rfl
@[simp] theorem State.setMe_devQ (h : Hart) : (s.setMe h).devQ = s.devQ := rfl
@[simp] theorem State.setMe_fabQ (h : Hart) : (s.setMe h).fabQ = s.fabQ := rfl
@[simp] theorem State.setMe_unacked (h : Hart) : (s.setMe h).unacked = s.unacked := rfl
@[simp] theorem State.setMe_ticket (h : Hart) : (s.setMe h).ticket = s.ticket := rfl
@[simp] theorem State.setMe_wlog (h : Hart) : (s.setMe h).wlog = s.wlog := rfl
@[simp] theorem State.setMe_ring (h : Hart) : (s.setMe h).ring = s.ring := rfl
@[simp] theorem State.setMe_eng (h : Hart) : (s.setMe h).eng = s.eng := rfl
@[simp] theorem State.setMe_ts (h : Hart) : (s.setMe h).ts = s.ts := rfl
@[simp] theorem State.setMe_xlat (h : Hart) : (s.setMe h).xlat = s.xlat := rfl
@[simp] theorem State.setMe_coh (h : Hart) : (s.setMe h).coh = s.coh := rfl
@[simp] theorem State.setMe_pool (h : Hart) : (s.setMe h).pool = s.pool := rfl
@[simp] theorem State.setMe_hub (h : Hart) : (s.setMe h).hub = s.hub := rfl
@[simp] theorem State.setMe_pkg (h : Hart) : (s.setMe h).pkg = s.pkg := rfl
@[simp] theorem State.setMe_drv (h : Hart) : (s.setMe h).drv = s.drv := rfl

@[simp] theorem State.setX_clk (n : XR) (v : Word) : (s.setX n v).clk = s.clk := rfl
@[simp] theorem State.setX_mems (n : XR) (v : Word) : (s.setX n v).mems = s.mems := rfl
@[simp] theorem State.setX_cores (n : XR) (v : Word) : (s.setX n v).cores = s.cores := rfl
@[simp] theorem State.setX_mem (n : XR) (v : Word) : (s.setX n v).mem = s.mem := rfl
@[simp] theorem State.setX_bad (n : XR) (v : Word) : (s.setX n v).bad = s.bad := rfl
@[simp] theorem State.setX_coreQ (n : XR) (v : Word) : (s.setX n v).coreQ = s.coreQ := rfl
@[simp] theorem State.setX_devQ (n : XR) (v : Word) : (s.setX n v).devQ = s.devQ := rfl
@[simp] theorem State.setX_fabQ (n : XR) (v : Word) : (s.setX n v).fabQ = s.fabQ := rfl
@[simp] theorem State.setX_unacked (n : XR) (v : Word) : (s.setX n v).unacked = s.unacked := rfl
@[simp] theorem State.setX_ticket (n : XR) (v : Word) : (s.setX n v).ticket = s.ticket := rfl
@[simp] theorem State.setX_wlog (n : XR) (v : Word) : (s.setX n v).wlog = s.wlog := rfl
@[simp] theorem State.setX_ring (n : XR) (v : Word) : (s.setX n v).ring = s.ring := rfl
@[simp] theorem State.setX_eng (n : XR) (v : Word) : (s.setX n v).eng = s.eng := rfl
@[simp] theorem State.setX_ts (n : XR) (v : Word) : (s.setX n v).ts = s.ts := rfl
@[simp] theorem State.setX_xlat (n : XR) (v : Word) : (s.setX n v).xlat = s.xlat := rfl
@[simp] theorem State.setX_coh (n : XR) (v : Word) : (s.setX n v).coh = s.coh := rfl
@[simp] theorem State.setX_pool (n : XR) (v : Word) : (s.setX n v).pool = s.pool := rfl
@[simp] theorem State.setX_hub (n : XR) (v : Word) : (s.setX n v).hub = s.hub := rfl
@[simp] theorem State.setX_pkg (n : XR) (v : Word) : (s.setX n v).pkg = s.pkg := rfl
@[simp] theorem State.setX_drv (n : XR) (v : Word) : (s.setX n v).drv = s.drv := rfl

@[simp] theorem State.setMreg_clk (n : Nat) (v : Word) : (s.setMreg n v).clk = s.clk := rfl
@[simp] theorem State.setMreg_mems (n : Nat) (v : Word) : (s.setMreg n v).mems = s.mems := rfl
@[simp] theorem State.setMreg_cores (n : Nat) (v : Word) : (s.setMreg n v).cores = s.cores := rfl
@[simp] theorem State.setMreg_mem (n : Nat) (v : Word) : (s.setMreg n v).mem = s.mem := rfl
@[simp] theorem State.setMreg_bad (n : Nat) (v : Word) : (s.setMreg n v).bad = s.bad := rfl
@[simp] theorem State.setMreg_coreQ (n : Nat) (v : Word) : (s.setMreg n v).coreQ = s.coreQ := rfl
@[simp] theorem State.setMreg_devQ (n : Nat) (v : Word) : (s.setMreg n v).devQ = s.devQ := rfl
@[simp] theorem State.setMreg_fabQ (n : Nat) (v : Word) : (s.setMreg n v).fabQ = s.fabQ := rfl
@[simp] theorem State.setMreg_unacked (n : Nat) (v : Word) : (s.setMreg n v).unacked = s.unacked := rfl
@[simp] theorem State.setMreg_ticket (n : Nat) (v : Word) : (s.setMreg n v).ticket = s.ticket := rfl
@[simp] theorem State.setMreg_wlog (n : Nat) (v : Word) : (s.setMreg n v).wlog = s.wlog := rfl
@[simp] theorem State.setMreg_ring (n : Nat) (v : Word) : (s.setMreg n v).ring = s.ring := rfl
@[simp] theorem State.setMreg_eng (n : Nat) (v : Word) : (s.setMreg n v).eng = s.eng := rfl
@[simp] theorem State.setMreg_ts (n : Nat) (v : Word) : (s.setMreg n v).ts = s.ts := rfl
@[simp] theorem State.setMreg_xlat (n : Nat) (v : Word) : (s.setMreg n v).xlat = s.xlat := rfl
@[simp] theorem State.setMreg_coh (n : Nat) (v : Word) : (s.setMreg n v).coh = s.coh := rfl
@[simp] theorem State.setMreg_pool (n : Nat) (v : Word) : (s.setMreg n v).pool = s.pool := rfl
@[simp] theorem State.setMreg_hub (n : Nat) (v : Word) : (s.setMreg n v).hub = s.hub := rfl
@[simp] theorem State.setMreg_pkg (n : Nat) (v : Word) : (s.setMreg n v).pkg = s.pkg := rfl
@[simp] theorem State.setMreg_drv (n : Nat) (v : Word) : (s.setMreg n v).drv = s.drv := rfl

@[simp] theorem State.orFlags_clk (n : Nat) : (s.orFlags n).clk = s.clk := rfl
@[simp] theorem State.orFlags_mems (n : Nat) : (s.orFlags n).mems = s.mems := rfl
@[simp] theorem State.orFlags_cores (n : Nat) : (s.orFlags n).cores = s.cores := rfl
@[simp] theorem State.orFlags_mem (n : Nat) : (s.orFlags n).mem = s.mem := rfl
@[simp] theorem State.orFlags_bad (n : Nat) : (s.orFlags n).bad = s.bad := rfl
@[simp] theorem State.orFlags_coreQ (n : Nat) : (s.orFlags n).coreQ = s.coreQ := rfl
@[simp] theorem State.orFlags_devQ (n : Nat) : (s.orFlags n).devQ = s.devQ := rfl
@[simp] theorem State.orFlags_fabQ (n : Nat) : (s.orFlags n).fabQ = s.fabQ := rfl
@[simp] theorem State.orFlags_unacked (n : Nat) : (s.orFlags n).unacked = s.unacked := rfl
@[simp] theorem State.orFlags_ticket (n : Nat) : (s.orFlags n).ticket = s.ticket := rfl
@[simp] theorem State.orFlags_wlog (n : Nat) : (s.orFlags n).wlog = s.wlog := rfl
@[simp] theorem State.orFlags_ring (n : Nat) : (s.orFlags n).ring = s.ring := rfl
@[simp] theorem State.orFlags_eng (n : Nat) : (s.orFlags n).eng = s.eng := rfl
@[simp] theorem State.orFlags_ts (n : Nat) : (s.orFlags n).ts = s.ts := rfl
@[simp] theorem State.orFlags_xlat (n : Nat) : (s.orFlags n).xlat = s.xlat := rfl
@[simp] theorem State.orFlags_coh (n : Nat) : (s.orFlags n).coh = s.coh := rfl
@[simp] theorem State.orFlags_pool (n : Nat) : (s.orFlags n).pool = s.pool := rfl
@[simp] theorem State.orFlags_hub (n : Nat) : (s.orFlags n).hub = s.hub := rfl
@[simp] theorem State.orFlags_pkg (n : Nat) : (s.orFlags n).pkg = s.pkg := rfl
@[simp] theorem State.orFlags_drv (n : Nat) : (s.orFlags n).drv = s.drv := rfl

@[simp] theorem State.advance_clk (n : Nat) : (s.advance n).clk = s.clk := rfl
@[simp] theorem State.advance_mems (n : Nat) : (s.advance n).mems = s.mems := rfl
@[simp] theorem State.advance_cores (n : Nat) : (s.advance n).cores = s.cores := rfl
@[simp] theorem State.advance_mem (n : Nat) : (s.advance n).mem = s.mem := rfl
@[simp] theorem State.advance_bad (n : Nat) : (s.advance n).bad = s.bad := rfl
@[simp] theorem State.advance_coreQ (n : Nat) : (s.advance n).coreQ = s.coreQ := rfl
@[simp] theorem State.advance_devQ (n : Nat) : (s.advance n).devQ = s.devQ := rfl
@[simp] theorem State.advance_fabQ (n : Nat) : (s.advance n).fabQ = s.fabQ := rfl
@[simp] theorem State.advance_unacked (n : Nat) : (s.advance n).unacked = s.unacked := rfl
@[simp] theorem State.advance_ticket (n : Nat) : (s.advance n).ticket = s.ticket := rfl
@[simp] theorem State.advance_wlog (n : Nat) : (s.advance n).wlog = s.wlog := rfl
@[simp] theorem State.advance_ring (n : Nat) : (s.advance n).ring = s.ring := rfl
@[simp] theorem State.advance_eng (n : Nat) : (s.advance n).eng = s.eng := rfl
@[simp] theorem State.advance_ts (n : Nat) : (s.advance n).ts = s.ts := rfl
@[simp] theorem State.advance_xlat (n : Nat) : (s.advance n).xlat = s.xlat := rfl
@[simp] theorem State.advance_coh (n : Nat) : (s.advance n).coh = s.coh := rfl
@[simp] theorem State.advance_pool (n : Nat) : (s.advance n).pool = s.pool := rfl
@[simp] theorem State.advance_hub (n : Nat) : (s.advance n).hub = s.hub := rfl
@[simp] theorem State.advance_pkg (n : Nat) : (s.advance n).pkg = s.pkg := rfl
@[simp] theorem State.advance_drv (n : Nat) : (s.advance n).drv = s.drv := rfl

@[simp] theorem State.setHmem_clk (i : Nat) (m : Mem) : (s.setHmem i m).clk = s.clk := rfl
@[simp] theorem State.setHmem_harts (i : Nat) (m : Mem) : (s.setHmem i m).harts = s.harts := rfl
@[simp] theorem State.setHmem_cores (i : Nat) (m : Mem) : (s.setHmem i m).cores = s.cores := rfl
@[simp] theorem State.setHmem_mem (i : Nat) (m : Mem) : (s.setHmem i m).mem = s.mem := rfl
@[simp] theorem State.setHmem_bad (i : Nat) (m : Mem) : (s.setHmem i m).bad = s.bad := rfl
@[simp] theorem State.setHmem_coreQ (i : Nat) (m : Mem) : (s.setHmem i m).coreQ = s.coreQ := rfl
@[simp] theorem State.setHmem_devQ (i : Nat) (m : Mem) : (s.setHmem i m).devQ = s.devQ := rfl
@[simp] theorem State.setHmem_fabQ (i : Nat) (m : Mem) : (s.setHmem i m).fabQ = s.fabQ := rfl
@[simp] theorem State.setHmem_unacked (i : Nat) (m : Mem) : (s.setHmem i m).unacked = s.unacked := rfl
@[simp] theorem State.setHmem_ticket (i : Nat) (m : Mem) : (s.setHmem i m).ticket = s.ticket := rfl
@[simp] theorem State.setHmem_wlog (i : Nat) (m : Mem) : (s.setHmem i m).wlog = s.wlog := rfl
@[simp] theorem State.setHmem_ring (i : Nat) (m : Mem) : (s.setHmem i m).ring = s.ring := rfl
@[simp] theorem State.setHmem_eng (i : Nat) (m : Mem) : (s.setHmem i m).eng = s.eng := rfl
@[simp] theorem State.setHmem_ts (i : Nat) (m : Mem) : (s.setHmem i m).ts = s.ts := rfl
@[simp] theorem State.setHmem_xlat (i : Nat) (m : Mem) : (s.setHmem i m).xlat = s.xlat := rfl
@[simp] theorem State.setHmem_coh (i : Nat) (m : Mem) : (s.setHmem i m).coh = s.coh := rfl
@[simp] theorem State.setHmem_pool (i : Nat) (m : Mem) : (s.setHmem i m).pool = s.pool := rfl
@[simp] theorem State.setHmem_hub (i : Nat) (m : Mem) : (s.setHmem i m).hub = s.hub := rfl
@[simp] theorem State.setHmem_pkg (i : Nat) (m : Mem) : (s.setHmem i m).pkg = s.pkg := rfl
@[simp] theorem State.setHmem_drv (i : Nat) (m : Mem) : (s.setHmem i m).drv = s.drv := rfl

@[simp] theorem State.setCore_clk (c : Nat) (k : Core) : (s.setCore c k).clk = s.clk := rfl
@[simp] theorem State.setCore_harts (c : Nat) (k : Core) : (s.setCore c k).harts = s.harts := rfl
@[simp] theorem State.setCore_mems (c : Nat) (k : Core) : (s.setCore c k).mems = s.mems := rfl
@[simp] theorem State.setCore_mem (c : Nat) (k : Core) : (s.setCore c k).mem = s.mem := rfl
@[simp] theorem State.setCore_bad (c : Nat) (k : Core) : (s.setCore c k).bad = s.bad := rfl
@[simp] theorem State.setCore_coreQ (c : Nat) (k : Core) : (s.setCore c k).coreQ = s.coreQ := rfl
@[simp] theorem State.setCore_devQ (c : Nat) (k : Core) : (s.setCore c k).devQ = s.devQ := rfl
@[simp] theorem State.setCore_fabQ (c : Nat) (k : Core) : (s.setCore c k).fabQ = s.fabQ := rfl
@[simp] theorem State.setCore_unacked (c : Nat) (k : Core) : (s.setCore c k).unacked = s.unacked := rfl
@[simp] theorem State.setCore_ticket (c : Nat) (k : Core) : (s.setCore c k).ticket = s.ticket := rfl
@[simp] theorem State.setCore_wlog (c : Nat) (k : Core) : (s.setCore c k).wlog = s.wlog := rfl
@[simp] theorem State.setCore_ring (c : Nat) (k : Core) : (s.setCore c k).ring = s.ring := rfl
@[simp] theorem State.setCore_eng (c : Nat) (k : Core) : (s.setCore c k).eng = s.eng := rfl
@[simp] theorem State.setCore_ts (c : Nat) (k : Core) : (s.setCore c k).ts = s.ts := rfl
@[simp] theorem State.setCore_xlat (c : Nat) (k : Core) : (s.setCore c k).xlat = s.xlat := rfl
@[simp] theorem State.setCore_coh (c : Nat) (k : Core) : (s.setCore c k).coh = s.coh := rfl
@[simp] theorem State.setCore_pool (c : Nat) (k : Core) : (s.setCore c k).pool = s.pool := rfl
@[simp] theorem State.setCore_hub (c : Nat) (k : Core) : (s.setCore c k).hub = s.hub := rfl
@[simp] theorem State.setCore_pkg (c : Nat) (k : Core) : (s.setCore c k).pkg = s.pkg := rfl
@[simp] theorem State.setCore_drv (c : Nat) (k : Core) : (s.setCore c k).drv = s.drv := rfl

@[simp] theorem State.setHreg_clk (o : Nat) (v : Word) : (s.setHreg o v).clk = s.clk := rfl
@[simp] theorem State.setHreg_harts (o : Nat) (v : Word) : (s.setHreg o v).harts = s.harts := rfl
@[simp] theorem State.setHreg_mems (o : Nat) (v : Word) : (s.setHreg o v).mems = s.mems := rfl
@[simp] theorem State.setHreg_cores (o : Nat) (v : Word) : (s.setHreg o v).cores = s.cores := rfl
@[simp] theorem State.setHreg_mem (o : Nat) (v : Word) : (s.setHreg o v).mem = s.mem := rfl
@[simp] theorem State.setHreg_bad (o : Nat) (v : Word) : (s.setHreg o v).bad = s.bad := rfl
@[simp] theorem State.setHreg_coreQ (o : Nat) (v : Word) : (s.setHreg o v).coreQ = s.coreQ := rfl
@[simp] theorem State.setHreg_devQ (o : Nat) (v : Word) : (s.setHreg o v).devQ = s.devQ := rfl
@[simp] theorem State.setHreg_fabQ (o : Nat) (v : Word) : (s.setHreg o v).fabQ = s.fabQ := rfl
@[simp] theorem State.setHreg_unacked (o : Nat) (v : Word) : (s.setHreg o v).unacked = s.unacked := rfl
@[simp] theorem State.setHreg_ticket (o : Nat) (v : Word) : (s.setHreg o v).ticket = s.ticket := rfl
@[simp] theorem State.setHreg_wlog (o : Nat) (v : Word) : (s.setHreg o v).wlog = s.wlog := rfl
@[simp] theorem State.setHreg_ring (o : Nat) (v : Word) : (s.setHreg o v).ring = s.ring := rfl
@[simp] theorem State.setHreg_eng (o : Nat) (v : Word) : (s.setHreg o v).eng = s.eng := rfl
@[simp] theorem State.setHreg_ts (o : Nat) (v : Word) : (s.setHreg o v).ts = s.ts := rfl
@[simp] theorem State.setHreg_xlat (o : Nat) (v : Word) : (s.setHreg o v).xlat = s.xlat := rfl
@[simp] theorem State.setHreg_coh (o : Nat) (v : Word) : (s.setHreg o v).coh = s.coh := rfl
@[simp] theorem State.setHreg_pool (o : Nat) (v : Word) : (s.setHreg o v).pool = s.pool := rfl
@[simp] theorem State.setHreg_pkg (o : Nat) (v : Word) : (s.setHreg o v).pkg = s.pkg := rfl
@[simp] theorem State.setHreg_drv (o : Nat) (v : Word) : (s.setHreg o v).drv = s.drv := rfl

@[simp] theorem State.setTask_clk (k : Nat) (t : Task) : (s.setTask k t).clk = s.clk := rfl
@[simp] theorem State.setTask_harts (k : Nat) (t : Task) : (s.setTask k t).harts = s.harts := rfl
@[simp] theorem State.setTask_mems (k : Nat) (t : Task) : (s.setTask k t).mems = s.mems := rfl
@[simp] theorem State.setTask_cores (k : Nat) (t : Task) : (s.setTask k t).cores = s.cores := rfl
@[simp] theorem State.setTask_mem (k : Nat) (t : Task) : (s.setTask k t).mem = s.mem := rfl
@[simp] theorem State.setTask_bad (k : Nat) (t : Task) : (s.setTask k t).bad = s.bad := rfl
@[simp] theorem State.setTask_coreQ (k : Nat) (t : Task) : (s.setTask k t).coreQ = s.coreQ := rfl
@[simp] theorem State.setTask_devQ (k : Nat) (t : Task) : (s.setTask k t).devQ = s.devQ := rfl
@[simp] theorem State.setTask_fabQ (k : Nat) (t : Task) : (s.setTask k t).fabQ = s.fabQ := rfl
@[simp] theorem State.setTask_unacked (k : Nat) (t : Task) : (s.setTask k t).unacked = s.unacked := rfl
@[simp] theorem State.setTask_ticket (k : Nat) (t : Task) : (s.setTask k t).ticket = s.ticket := rfl
@[simp] theorem State.setTask_wlog (k : Nat) (t : Task) : (s.setTask k t).wlog = s.wlog := rfl
@[simp] theorem State.setTask_eng (k : Nat) (t : Task) : (s.setTask k t).eng = s.eng := rfl
@[simp] theorem State.setTask_ts (k : Nat) (t : Task) : (s.setTask k t).ts = s.ts := rfl
@[simp] theorem State.setTask_xlat (k : Nat) (t : Task) : (s.setTask k t).xlat = s.xlat := rfl
@[simp] theorem State.setTask_coh (k : Nat) (t : Task) : (s.setTask k t).coh = s.coh := rfl
@[simp] theorem State.setTask_pool (k : Nat) (t : Task) : (s.setTask k t).pool = s.pool := rfl
@[simp] theorem State.setTask_hub (k : Nat) (t : Task) : (s.setTask k t).hub = s.hub := rfl
@[simp] theorem State.setTask_pkg (k : Nat) (t : Task) : (s.setTask k t).pkg = s.pkg := rfl
@[simp] theorem State.setTask_drv (k : Nat) (t : Task) : (s.setTask k t).drv = s.drv := rfl

@[simp] theorem State.setHolders_clk (c g m : Nat) : (s.setHolders c g m).clk = s.clk := rfl
@[simp] theorem State.setHolders_harts (c g m : Nat) : (s.setHolders c g m).harts = s.harts := rfl
@[simp] theorem State.setHolders_mems (c g m : Nat) : (s.setHolders c g m).mems = s.mems := rfl
@[simp] theorem State.setHolders_cores (c g m : Nat) : (s.setHolders c g m).cores = s.cores := rfl
@[simp] theorem State.setHolders_mem (c g m : Nat) : (s.setHolders c g m).mem = s.mem := rfl
@[simp] theorem State.setHolders_bad (c g m : Nat) : (s.setHolders c g m).bad = s.bad := rfl
@[simp] theorem State.setHolders_coreQ (c g m : Nat) : (s.setHolders c g m).coreQ = s.coreQ := rfl
@[simp] theorem State.setHolders_devQ (c g m : Nat) : (s.setHolders c g m).devQ = s.devQ := rfl
@[simp] theorem State.setHolders_fabQ (c g m : Nat) : (s.setHolders c g m).fabQ = s.fabQ := rfl
@[simp] theorem State.setHolders_unacked (c g m : Nat) : (s.setHolders c g m).unacked = s.unacked := rfl
@[simp] theorem State.setHolders_ticket (c g m : Nat) : (s.setHolders c g m).ticket = s.ticket := rfl
@[simp] theorem State.setHolders_wlog (c g m : Nat) : (s.setHolders c g m).wlog = s.wlog := rfl
@[simp] theorem State.setHolders_eng (c g m : Nat) : (s.setHolders c g m).eng = s.eng := rfl
@[simp] theorem State.setHolders_ts (c g m : Nat) : (s.setHolders c g m).ts = s.ts := rfl
@[simp] theorem State.setHolders_xlat (c g m : Nat) : (s.setHolders c g m).xlat = s.xlat := rfl
@[simp] theorem State.setHolders_coh (c g m : Nat) : (s.setHolders c g m).coh = s.coh := rfl
@[simp] theorem State.setHolders_pool (c g m : Nat) : (s.setHolders c g m).pool = s.pool := rfl
@[simp] theorem State.setHolders_hub (c g m : Nat) : (s.setHolders c g m).hub = s.hub := rfl
@[simp] theorem State.setHolders_pkg (c g m : Nat) : (s.setHolders c g m).pkg = s.pkg := rfl
@[simp] theorem State.setHolders_drv (c g m : Nat) : (s.setHolders c g m).drv = s.drv := rfl

@[simp] theorem State.setCoreQueue_clk (c : Nat) (l : List WEntry) : (s.setCoreQueue c l).clk = s.clk := rfl
@[simp] theorem State.setCoreQueue_harts (c : Nat) (l : List WEntry) : (s.setCoreQueue c l).harts = s.harts := rfl
@[simp] theorem State.setCoreQueue_mems (c : Nat) (l : List WEntry) : (s.setCoreQueue c l).mems = s.mems := rfl
@[simp] theorem State.setCoreQueue_cores (c : Nat) (l : List WEntry) : (s.setCoreQueue c l).cores = s.cores := rfl
@[simp] theorem State.setCoreQueue_mem (c : Nat) (l : List WEntry) : (s.setCoreQueue c l).mem = s.mem := rfl
@[simp] theorem State.setCoreQueue_bad (c : Nat) (l : List WEntry) : (s.setCoreQueue c l).bad = s.bad := rfl
@[simp] theorem State.setCoreQueue_devQ (c : Nat) (l : List WEntry) : (s.setCoreQueue c l).devQ = s.devQ := rfl
@[simp] theorem State.setCoreQueue_fabQ (c : Nat) (l : List WEntry) : (s.setCoreQueue c l).fabQ = s.fabQ := rfl
@[simp] theorem State.setCoreQueue_unacked (c : Nat) (l : List WEntry) : (s.setCoreQueue c l).unacked = s.unacked := rfl
@[simp] theorem State.setCoreQueue_ticket (c : Nat) (l : List WEntry) : (s.setCoreQueue c l).ticket = s.ticket := rfl
@[simp] theorem State.setCoreQueue_wlog (c : Nat) (l : List WEntry) : (s.setCoreQueue c l).wlog = s.wlog := rfl
@[simp] theorem State.setCoreQueue_ring (c : Nat) (l : List WEntry) : (s.setCoreQueue c l).ring = s.ring := rfl
@[simp] theorem State.setCoreQueue_eng (c : Nat) (l : List WEntry) : (s.setCoreQueue c l).eng = s.eng := rfl
@[simp] theorem State.setCoreQueue_ts (c : Nat) (l : List WEntry) : (s.setCoreQueue c l).ts = s.ts := rfl
@[simp] theorem State.setCoreQueue_xlat (c : Nat) (l : List WEntry) : (s.setCoreQueue c l).xlat = s.xlat := rfl
@[simp] theorem State.setCoreQueue_coh (c : Nat) (l : List WEntry) : (s.setCoreQueue c l).coh = s.coh := rfl
@[simp] theorem State.setCoreQueue_pool (c : Nat) (l : List WEntry) : (s.setCoreQueue c l).pool = s.pool := rfl
@[simp] theorem State.setCoreQueue_hub (c : Nat) (l : List WEntry) : (s.setCoreQueue c l).hub = s.hub := rfl
@[simp] theorem State.setCoreQueue_pkg (c : Nat) (l : List WEntry) : (s.setCoreQueue c l).pkg = s.pkg := rfl
@[simp] theorem State.setCoreQueue_drv (c : Nat) (l : List WEntry) : (s.setCoreQueue c l).drv = s.drv := rfl

@[simp] theorem State.bump_clk : (s.bump).clk = s.clk := rfl
@[simp] theorem State.bump_harts : (s.bump).harts = s.harts := rfl
@[simp] theorem State.bump_mems : (s.bump).mems = s.mems := rfl
@[simp] theorem State.bump_cores : (s.bump).cores = s.cores := rfl
@[simp] theorem State.bump_mem : (s.bump).mem = s.mem := rfl
@[simp] theorem State.bump_bad : (s.bump).bad = s.bad := rfl
@[simp] theorem State.bump_coreQ : (s.bump).coreQ = s.coreQ := rfl
@[simp] theorem State.bump_devQ : (s.bump).devQ = s.devQ := rfl
@[simp] theorem State.bump_fabQ : (s.bump).fabQ = s.fabQ := rfl
@[simp] theorem State.bump_unacked : (s.bump).unacked = s.unacked := rfl
@[simp] theorem State.bump_ticket : (s.bump).ticket = s.ticket := rfl
@[simp] theorem State.bump_wlog : (s.bump).wlog = s.wlog := rfl
@[simp] theorem State.bump_ring : (s.bump).ring = s.ring := rfl
@[simp] theorem State.bump_eng : (s.bump).eng = s.eng := rfl
@[simp] theorem State.bump_ts : (s.bump).ts = s.ts := rfl
@[simp] theorem State.bump_xlat : (s.bump).xlat = s.xlat := rfl
@[simp] theorem State.bump_coh : (s.bump).coh = s.coh := rfl
@[simp] theorem State.bump_pool : (s.bump).pool = s.pool := rfl
@[simp] theorem State.bump_hub : (s.bump).hub = s.hub := rfl
@[simp] theorem State.bump_pkg : (s.bump).pkg = s.pkg := rfl

@[simp] theorem State.setEngQ_clk (q : Nat) (l : List Copy) : (s.setEngQ q l).clk = s.clk := rfl
@[simp] theorem State.setEngQ_harts (q : Nat) (l : List Copy) : (s.setEngQ q l).harts = s.harts := rfl
@[simp] theorem State.setEngQ_mems (q : Nat) (l : List Copy) : (s.setEngQ q l).mems = s.mems := rfl
@[simp] theorem State.setEngQ_cores (q : Nat) (l : List Copy) : (s.setEngQ q l).cores = s.cores := rfl
@[simp] theorem State.setEngQ_mem (q : Nat) (l : List Copy) : (s.setEngQ q l).mem = s.mem := rfl
@[simp] theorem State.setEngQ_bad (q : Nat) (l : List Copy) : (s.setEngQ q l).bad = s.bad := rfl
@[simp] theorem State.setEngQ_coreQ (q : Nat) (l : List Copy) : (s.setEngQ q l).coreQ = s.coreQ := rfl
@[simp] theorem State.setEngQ_devQ (q : Nat) (l : List Copy) : (s.setEngQ q l).devQ = s.devQ := rfl
@[simp] theorem State.setEngQ_fabQ (q : Nat) (l : List Copy) : (s.setEngQ q l).fabQ = s.fabQ := rfl
@[simp] theorem State.setEngQ_unacked (q : Nat) (l : List Copy) : (s.setEngQ q l).unacked = s.unacked := rfl
@[simp] theorem State.setEngQ_ticket (q : Nat) (l : List Copy) : (s.setEngQ q l).ticket = s.ticket := rfl
@[simp] theorem State.setEngQ_wlog (q : Nat) (l : List Copy) : (s.setEngQ q l).wlog = s.wlog := rfl
@[simp] theorem State.setEngQ_ring (q : Nat) (l : List Copy) : (s.setEngQ q l).ring = s.ring := rfl
@[simp] theorem State.setEngQ_ts (q : Nat) (l : List Copy) : (s.setEngQ q l).ts = s.ts := rfl
@[simp] theorem State.setEngQ_xlat (q : Nat) (l : List Copy) : (s.setEngQ q l).xlat = s.xlat := rfl
@[simp] theorem State.setEngQ_coh (q : Nat) (l : List Copy) : (s.setEngQ q l).coh = s.coh := rfl
@[simp] theorem State.setEngQ_pool (q : Nat) (l : List Copy) : (s.setEngQ q l).pool = s.pool := rfl
@[simp] theorem State.setEngQ_hub (q : Nat) (l : List Copy) : (s.setEngQ q l).hub = s.hub := rfl
@[simp] theorem State.setEngQ_pkg (q : Nat) (l : List Copy) : (s.setEngQ q l).pkg = s.pkg := rfl
@[simp] theorem State.setEngQ_drv (q : Nat) (l : List Copy) : (s.setEngQ q l).drv = s.drv := rfl

@[simp] theorem State.setBar_clk (n : Nat) (b : Bar) : (s.setBar n b).clk = s.clk := rfl
@[simp] theorem State.setBar_harts (n : Nat) (b : Bar) : (s.setBar n b).harts = s.harts := rfl
@[simp] theorem State.setBar_mems (n : Nat) (b : Bar) : (s.setBar n b).mems = s.mems := rfl
@[simp] theorem State.setBar_cores (n : Nat) (b : Bar) : (s.setBar n b).cores = s.cores := rfl
@[simp] theorem State.setBar_mem (n : Nat) (b : Bar) : (s.setBar n b).mem = s.mem := rfl
@[simp] theorem State.setBar_bad (n : Nat) (b : Bar) : (s.setBar n b).bad = s.bad := rfl
@[simp] theorem State.setBar_coreQ (n : Nat) (b : Bar) : (s.setBar n b).coreQ = s.coreQ := rfl
@[simp] theorem State.setBar_devQ (n : Nat) (b : Bar) : (s.setBar n b).devQ = s.devQ := rfl
@[simp] theorem State.setBar_fabQ (n : Nat) (b : Bar) : (s.setBar n b).fabQ = s.fabQ := rfl
@[simp] theorem State.setBar_unacked (n : Nat) (b : Bar) : (s.setBar n b).unacked = s.unacked := rfl
@[simp] theorem State.setBar_ticket (n : Nat) (b : Bar) : (s.setBar n b).ticket = s.ticket := rfl
@[simp] theorem State.setBar_wlog (n : Nat) (b : Bar) : (s.setBar n b).wlog = s.wlog := rfl
@[simp] theorem State.setBar_eng (n : Nat) (b : Bar) : (s.setBar n b).eng = s.eng := rfl
@[simp] theorem State.setBar_ts (n : Nat) (b : Bar) : (s.setBar n b).ts = s.ts := rfl
@[simp] theorem State.setBar_xlat (n : Nat) (b : Bar) : (s.setBar n b).xlat = s.xlat := rfl
@[simp] theorem State.setBar_coh (n : Nat) (b : Bar) : (s.setBar n b).coh = s.coh := rfl
@[simp] theorem State.setBar_pool (n : Nat) (b : Bar) : (s.setBar n b).pool = s.pool := rfl
@[simp] theorem State.setBar_hub (n : Nat) (b : Bar) : (s.setBar n b).hub = s.hub := rfl
@[simp] theorem State.setBar_pkg (n : Nat) (b : Bar) : (s.setBar n b).pkg = s.pkg := rfl
@[simp] theorem State.setBar_drv (n : Nat) (b : Bar) : (s.setBar n b).drv = s.drv := rfl

@[simp] theorem State.clearResidue_clk : (s.clearResidue).clk = s.clk := by unfold State.clearResidue; split <;> rfl
@[simp] theorem State.clearResidue_harts : (s.clearResidue).harts = s.harts := by unfold State.clearResidue; split <;> rfl
@[simp] theorem State.clearResidue_cores : (s.clearResidue).cores = s.cores := by unfold State.clearResidue; split <;> rfl
@[simp] theorem State.clearResidue_mem : (s.clearResidue).mem = s.mem := by unfold State.clearResidue; split <;> rfl
@[simp] theorem State.clearResidue_bad : (s.clearResidue).bad = s.bad := by unfold State.clearResidue; split <;> rfl
@[simp] theorem State.clearResidue_coreQ : (s.clearResidue).coreQ = s.coreQ := by unfold State.clearResidue; split <;> rfl
@[simp] theorem State.clearResidue_devQ : (s.clearResidue).devQ = s.devQ := by unfold State.clearResidue; split <;> rfl
@[simp] theorem State.clearResidue_fabQ : (s.clearResidue).fabQ = s.fabQ := by unfold State.clearResidue; split <;> rfl
@[simp] theorem State.clearResidue_unacked : (s.clearResidue).unacked = s.unacked := by unfold State.clearResidue; split <;> rfl
@[simp] theorem State.clearResidue_ticket : (s.clearResidue).ticket = s.ticket := by unfold State.clearResidue; split <;> rfl
@[simp] theorem State.clearResidue_wlog : (s.clearResidue).wlog = s.wlog := by unfold State.clearResidue; split <;> rfl
@[simp] theorem State.clearResidue_ring : (s.clearResidue).ring = s.ring := by unfold State.clearResidue; split <;> rfl
@[simp] theorem State.clearResidue_eng : (s.clearResidue).eng = s.eng := by unfold State.clearResidue; split <;> rfl
@[simp] theorem State.clearResidue_ts : (s.clearResidue).ts = s.ts := by unfold State.clearResidue; split <;> rfl
@[simp] theorem State.clearResidue_xlat : (s.clearResidue).xlat = s.xlat := by unfold State.clearResidue; split <;> rfl
@[simp] theorem State.clearResidue_coh : (s.clearResidue).coh = s.coh := by unfold State.clearResidue; split <;> rfl
@[simp] theorem State.clearResidue_pool : (s.clearResidue).pool = s.pool := by unfold State.clearResidue; split <;> rfl
@[simp] theorem State.clearResidue_hub : (s.clearResidue).hub = s.hub := by unfold State.clearResidue; split <;> rfl
@[simp] theorem State.clearResidue_pkg : (s.clearResidue).pkg = s.pkg := by unfold State.clearResidue; split <;> rfl
@[simp] theorem State.clearResidue_drv : (s.clearResidue).drv = s.drv := by unfold State.clearResidue; split <;> rfl

/-! Counting touches the hub's register words only. -/

@[simp] theorem State.count_clk (n k a : Nat) : (s.count n k a).clk = s.clk := by unfold State.count; split <;> rfl
@[simp] theorem State.count_harts (n k a : Nat) : (s.count n k a).harts = s.harts := by unfold State.count; split <;> rfl
@[simp] theorem State.count_mems (n k a : Nat) : (s.count n k a).mems = s.mems := by unfold State.count; split <;> rfl
@[simp] theorem State.count_cores (n k a : Nat) : (s.count n k a).cores = s.cores := by unfold State.count; split <;> rfl
@[simp] theorem State.count_mem (n k a : Nat) : (s.count n k a).mem = s.mem := by unfold State.count; split <;> rfl
@[simp] theorem State.count_bad (n k a : Nat) : (s.count n k a).bad = s.bad := by unfold State.count; split <;> rfl
@[simp] theorem State.count_coreQ (n k a : Nat) : (s.count n k a).coreQ = s.coreQ := by unfold State.count; split <;> rfl
@[simp] theorem State.count_devQ (n k a : Nat) : (s.count n k a).devQ = s.devQ := by unfold State.count; split <;> rfl
@[simp] theorem State.count_fabQ (n k a : Nat) : (s.count n k a).fabQ = s.fabQ := by unfold State.count; split <;> rfl
@[simp] theorem State.count_unacked (n k a : Nat) : (s.count n k a).unacked = s.unacked := by unfold State.count; split <;> rfl
@[simp] theorem State.count_ticket (n k a : Nat) : (s.count n k a).ticket = s.ticket := by unfold State.count; split <;> rfl
@[simp] theorem State.count_wlog (n k a : Nat) : (s.count n k a).wlog = s.wlog := by unfold State.count; split <;> rfl
@[simp] theorem State.count_ring (n k a : Nat) : (s.count n k a).ring = s.ring := by unfold State.count; split <;> rfl
@[simp] theorem State.count_eng (n k a : Nat) : (s.count n k a).eng = s.eng := by unfold State.count; split <;> rfl
@[simp] theorem State.count_ts (n k a : Nat) : (s.count n k a).ts = s.ts := by unfold State.count; split <;> rfl
@[simp] theorem State.count_xlat (n k a : Nat) : (s.count n k a).xlat = s.xlat := by unfold State.count; split <;> rfl
@[simp] theorem State.count_coh (n k a : Nat) : (s.count n k a).coh = s.coh := by unfold State.count; split <;> rfl
@[simp] theorem State.count_pool (n k a : Nat) : (s.count n k a).pool = s.pool := by unfold State.count; split <;> rfl
@[simp] theorem State.count_pkg (n k a : Nat) : (s.count n k a).pkg = s.pkg := by unfold State.count; split <;> rfl
@[simp] theorem State.count_drv (n k a : Nat) : (s.count n k a).drv = s.drv := by unfold State.count; split <;> rfl
@[simp] theorem State.countMe_clk (k a : Nat) : (s.countMe k a).clk = s.clk := by unfold State.countMe; split <;> simp
@[simp] theorem State.countMe_harts (k a : Nat) : (s.countMe k a).harts = s.harts := by unfold State.countMe; split <;> simp
@[simp] theorem State.countMe_mems (k a : Nat) : (s.countMe k a).mems = s.mems := by unfold State.countMe; split <;> simp
@[simp] theorem State.countMe_cores (k a : Nat) : (s.countMe k a).cores = s.cores := by unfold State.countMe; split <;> simp
@[simp] theorem State.countMe_mem (k a : Nat) : (s.countMe k a).mem = s.mem := by unfold State.countMe; split <;> simp
@[simp] theorem State.countMe_bad (k a : Nat) : (s.countMe k a).bad = s.bad := by unfold State.countMe; split <;> simp
@[simp] theorem State.countMe_coreQ (k a : Nat) : (s.countMe k a).coreQ = s.coreQ := by unfold State.countMe; split <;> simp
@[simp] theorem State.countMe_devQ (k a : Nat) : (s.countMe k a).devQ = s.devQ := by unfold State.countMe; split <;> simp
@[simp] theorem State.countMe_fabQ (k a : Nat) : (s.countMe k a).fabQ = s.fabQ := by unfold State.countMe; split <;> simp
@[simp] theorem State.countMe_unacked (k a : Nat) : (s.countMe k a).unacked = s.unacked := by unfold State.countMe; split <;> simp
@[simp] theorem State.countMe_ticket (k a : Nat) : (s.countMe k a).ticket = s.ticket := by unfold State.countMe; split <;> simp
@[simp] theorem State.countMe_wlog (k a : Nat) : (s.countMe k a).wlog = s.wlog := by unfold State.countMe; split <;> simp
@[simp] theorem State.countMe_ring (k a : Nat) : (s.countMe k a).ring = s.ring := by unfold State.countMe; split <;> simp
@[simp] theorem State.countMe_eng (k a : Nat) : (s.countMe k a).eng = s.eng := by unfold State.countMe; split <;> simp
@[simp] theorem State.countMe_ts (k a : Nat) : (s.countMe k a).ts = s.ts := by unfold State.countMe; split <;> simp
@[simp] theorem State.countMe_xlat (k a : Nat) : (s.countMe k a).xlat = s.xlat := by unfold State.countMe; split <;> simp
@[simp] theorem State.countMe_coh (k a : Nat) : (s.countMe k a).coh = s.coh := by unfold State.countMe; split <;> simp
@[simp] theorem State.countMe_pool (k a : Nat) : (s.countMe k a).pool = s.pool := by unfold State.countMe; split <;> simp
@[simp] theorem State.countMe_pkg (k a : Nat) : (s.countMe k a).pkg = s.pkg := by unfold State.countMe; split <;> simp
@[simp] theorem State.countMe_drv (k a : Nat) : (s.countMe k a).drv = s.drv := by unfold State.countMe; split <;> simp

@[simp] theorem State.retired_clk : s.retired.clk = s.clk := by simp [State.retired]
@[simp] theorem State.retired_mems : s.retired.mems = s.mems := by simp [State.retired]
@[simp] theorem State.retired_cores : s.retired.cores = s.cores := by simp [State.retired]
@[simp] theorem State.retired_mem : s.retired.mem = s.mem := by simp [State.retired]
@[simp] theorem State.retired_bad : s.retired.bad = s.bad := by simp [State.retired]
@[simp] theorem State.retired_coreQ : s.retired.coreQ = s.coreQ := by simp [State.retired]
@[simp] theorem State.retired_devQ : s.retired.devQ = s.devQ := by simp [State.retired]
@[simp] theorem State.retired_fabQ : s.retired.fabQ = s.fabQ := by simp [State.retired]
@[simp] theorem State.retired_unacked : s.retired.unacked = s.unacked := by simp [State.retired]
@[simp] theorem State.retired_ticket : s.retired.ticket = s.ticket := by simp [State.retired]
@[simp] theorem State.retired_wlog : s.retired.wlog = s.wlog := by simp [State.retired]
@[simp] theorem State.retired_ring : s.retired.ring = s.ring := by simp [State.retired]
@[simp] theorem State.retired_eng : s.retired.eng = s.eng := by simp [State.retired]
@[simp] theorem State.retired_ts : s.retired.ts = s.ts := by simp [State.retired]
@[simp] theorem State.retired_xlat : s.retired.xlat = s.xlat := by simp [State.retired]
@[simp] theorem State.retired_coh : s.retired.coh = s.coh := by simp [State.retired]
@[simp] theorem State.retired_pool : s.retired.pool = s.pool := by simp [State.retired]
@[simp] theorem State.retired_pkg : s.retired.pkg = s.pkg := by simp [State.retired]
@[simp] theorem State.retired_drv : s.retired.drv = s.drv := by simp [State.retired]

/-! Harts. -/

theorem State.hart_setHart (i j : Nat) (h : Hart) : (s.setHart i h).hart j = if j = i then h else s.hart j :=
  SMap.get_set _ _ _ _ _
@[simp] theorem State.hart_setHart_same (i : Nat) (h : Hart) : (s.setHart i h).hart i = h :=
  SMap.get_set_same _ _ _ _
theorem State.hart_setHart_other {i j : Nat} (h : Hart) (n : j ≠ i) : (s.setHart i h).hart j = s.hart j :=
  SMap.get_set_other _ _ _ n
@[simp] theorem State.setHart_cur (i : Nat) (h : Hart) : (s.setHart i h).cur = s.cur := rfl
@[simp] theorem State.setMe_cur (h : Hart) : (s.setMe h).cur = s.cur := rfl
@[simp] theorem State.setX_cur (n : XR) (v : Word) : (s.setX n v).cur = s.cur := rfl
@[simp] theorem State.setMreg_cur (n : Nat) (v : Word) : (s.setMreg n v).cur = s.cur := rfl
@[simp] theorem State.orFlags_cur (n : Nat) : (s.orFlags n).cur = s.cur := rfl
@[simp] theorem State.advance_cur (n : Nat) : (s.advance n).cur = s.cur := rfl
@[simp] theorem State.bump_cur : s.bump.cur = s.cur := rfl
@[simp] theorem State.bump_me : s.bump.me = s.me := State.me_of rfl rfl
@[simp] theorem State.bump_hart (i : Nat) : s.bump.hart i = s.hart i := State.hart_of_harts rfl _
@[simp] theorem State.setHmem_cur (i : Nat) (m : Mem) : (s.setHmem i m).cur = s.cur := rfl
@[simp] theorem State.setHmem_me (i : Nat) (m : Mem) : (s.setHmem i m).me = s.me := State.me_of rfl rfl
@[simp] theorem State.setHmem_hart (i j : Nat) (m : Mem) : (s.setHmem i m).hart j = s.hart j := State.hart_of_harts rfl _
@[simp] theorem State.setCore_cur (c : Nat) (k : Core) : (s.setCore c k).cur = s.cur := rfl
@[simp] theorem State.setCore_me (c : Nat) (k : Core) : (s.setCore c k).me = s.me := State.me_of rfl rfl
@[simp] theorem State.setCore_hart (c j : Nat) (k : Core) : (s.setCore c k).hart j = s.hart j := State.hart_of_harts rfl _
@[simp] theorem State.setHreg_me (o : Nat) (v : Word) : (s.setHreg o v).me = s.me := State.me_of rfl rfl
@[simp] theorem State.setHreg_hart (o j : Nat) (v : Word) : (s.setHreg o v).hart j = s.hart j := State.hart_of_harts rfl _
@[simp] theorem State.me_setMe (h : Hart) : (s.setMe h).me = h := s.hart_setHart_same _ _
theorem State.hart_setMe (j : Nat) (h : Hart) : (s.setMe h).hart j = if j = s.cur then h else s.hart j :=
  s.hart_setHart _ _ _
theorem State.me_def : s.me = s.hart s.cur := rfl
@[simp] theorem State.count_cur (n k a : Nat) : (s.count n k a).cur = s.cur := by simp [State.cur]
@[simp] theorem State.count_hart (n k a j : Nat) : (s.count n k a).hart j = s.hart j := by simp [State.hart]
@[simp] theorem State.count_me (n k a : Nat) : (s.count n k a).me = s.me := by simp [State.me]
@[simp] theorem State.countMe_cur (k a : Nat) : (s.countMe k a).cur = s.cur := by simp [State.cur]
@[simp] theorem State.countMe_hart (k a j : Nat) : (s.countMe k a).hart j = s.hart j := by simp [State.hart]
@[simp] theorem State.countMe_me (k a : Nat) : (s.countMe k a).me = s.me := by simp [State.me]

/-! Cores, queues, memory parts, hub words. -/

theorem State.core_setCore (i j : Nat) (k : Core) : (s.setCore i k).core j = if j = i then k else s.core j :=
  SMap.get_set _ _ _ _ _
@[simp] theorem State.core_setCore_same (i : Nat) (k : Core) : (s.setCore i k).core i = k := SMap.get_set_same _ _ _ _
@[simp] theorem State.core_setHart (i j : Nat) (h : Hart) : (s.setHart i h).core j = s.core j := State.core_of_cores rfl _
theorem State.hmem_setHmem (i j : Nat) (m : Mem) : (s.setHmem i m).hmem j = if j = i then m else s.hmem j :=
  SMap.get_set _ _ _ _ _
@[simp] theorem State.hmem_setHmem_same (i : Nat) (m : Mem) : (s.setHmem i m).hmem i = m := SMap.get_set_same _ _ _ _
@[simp] theorem State.hmem_setHart (i j : Nat) (h : Hart) : (s.setHart i h).hmem j = s.hmem j := State.hmem_of_mems rfl _
@[simp] theorem State.hreg_setHart (i o : Nat) (h : Hart) : (s.setHart i h).hreg o = s.hreg o := State.hreg_of_hub rfl _
@[simp] theorem State.hreg_setMe (o : Nat) (h : Hart) : (s.setMe h).hreg o = s.hreg o := State.hreg_of_hub rfl _
theorem State.hreg_setHreg (o p : Nat) (v : Word) : (s.setHreg o v).hreg p = if p = o then v else s.hreg p := by
  by_cases h : p = o
  · subst h; simp [State.hreg, State.setHreg]
  · rw [if_neg h]; exact SMap.get_set_key _ _ _ _ h
@[simp] theorem State.hreg_setHreg_same (o : Nat) (v : Word) : (s.setHreg o v).hreg o = v := by
  simp [State.hreg_setHreg]
theorem State.task_setTask (i j : Nat) (t : Task) : (s.setTask i t).task j = if j = i then t else s.task j :=
  SMap.get_set _ _ _ _ _
theorem State.holders_setHolders (c g m d k : Nat) :
    (s.setHolders c g m).holders d k = if 8 * d + k = 8 * c + g then m else s.holders d k := SMap.get_set _ _ _ _ _
theorem State.coreQueue_set (c d : Nat) (l : List WEntry) :
    (s.setCoreQueue c l).coreQueue d = if d = c then l else s.coreQueue d := SMap.get_set _ _ _ _ _
theorem State.engQ_set (c d : Nat) (l : List Copy) :
    (s.setEngQ c l).engQ d = if d = c then l else s.engQ d := SMap.get_set _ _ _ _ _

/-! Registers of a hart. -/

/-- x0 reads zero (R90). -/
@[simp] theorem Hart.getX_zero (h : Hart) : h.getX 0 = 0 := by simp [Hart.getX]

/-- A write of an x register is read back, but for x0. -/
theorem Hart.getX_setX (h : Hart) (n m : XR) (v : Word) :
    (h.setX n v).getX m = if m = n ∧ n ≠ 0 then v else h.getX m := by
  unfold Hart.getX Hart.setX
  by_cases hn : n = 0
  · simp [hn]
  · by_cases hm : m = 0
    · simp [hn, hm]; intro h; exact absurd h.symm hn
    · simp only [hn, hm, if_false, SMap.get_set, ne_eq, not_false_eq_true, and_true]
      simp only [Fin.val_inj]

theorem Hart.mreg_setMreg (h : Hart) (n m : Nat) (v : Word) :
    (h.setMreg n v).mreg m = if m = n then v else h.mreg m := by
  by_cases hm : m = n
  · subst hm; simp [Hart.mreg, Hart.setMreg]
  · rw [if_neg hm]; exact SMap.get_set_key _ _ _ _ hm
@[simp] theorem Hart.mreg_setMreg_same (h : Hart) (n : Nat) (v : Word) : (h.setMreg n v).mreg n = v := by
  simp [Hart.mreg_setMreg]

@[simp] theorem Hart.setX_task (h : Hart) (n : XR) (v : Word) : (h.setX n v).task = h.task := by unfold Hart.setX; split <;> rfl
@[simp] theorem Hart.setX_member (h : Hart) (n : XR) (v : Word) : (h.setX n v).member = h.member := by unfold Hart.setX; split <;> rfl
@[simp] theorem Hart.setX_pc (h : Hart) (n : XR) (v : Word) : (h.setX n v).pc = h.pc := by unfold Hart.setX; split <;> rfl
@[simp] theorem Hart.setX_level (h : Hart) (n : XR) (v : Word) : (h.setX n v).level = h.level := by unfold Hart.setX; split <;> rfl
@[simp] theorem Hart.setX_v (h : Hart) (n : XR) (v : Word) : (h.setX n v).v = h.v := by unfold Hart.setX; split <;> rfl
@[simp] theorem Hart.setX_tag (h : Hart) (n : XR) (v : Word) : (h.setX n v).tag = h.tag := by unfold Hart.setX; split <;> rfl
@[simp] theorem Hart.setX_p (h : Hart) (n : XR) (v : Word) : (h.setX n v).p = h.p := by unfold Hart.setX; split <;> rfl
@[simp] theorem Hart.setX_mr (h : Hart) (n : XR) (v : Word) : (h.setX n v).mr = h.mr := by unfold Hart.setX; split <;> rfl
@[simp] theorem Hart.setX_resume (h : Hart) (n : XR) (v : Word) : (h.setX n v).resume = h.resume := by unfold Hart.setX; split <;> rfl
@[simp] theorem Hart.setX_kres (h : Hart) (n : XR) (v : Word) : (h.setX n v).kres = h.kres := by unfold Hart.setX; split <;> rfl
@[simp] theorem Hart.setX_waiting (h : Hart) (n : XR) (v : Word) : (h.setX n v).waiting = h.waiting := by unfold Hart.setX; split <;> rfl
@[simp] theorem Hart.setX_deferred (h : Hart) (n : XR) (v : Word) : (h.setX n v).deferred = h.deferred := by unfold Hart.setX; split <;> rfl
@[simp] theorem Hart.setX_spilled (h : Hart) (n : XR) (v : Word) : (h.setX n v).spilled = h.spilled := by unfold Hart.setX; split <;> rfl
@[simp] theorem Hart.setX_clean (h : Hart) (n : XR) (v : Word) : (h.setX n v).clean = h.clean := by unfold Hart.setX; split <;> rfl
@[simp] theorem Hart.setX_bpSkip (h : Hart) (n : XR) (v : Word) : (h.setX n v).bpSkip = h.bpSkip := by unfold Hart.setX; split <;> rfl
@[simp] theorem Hart.setX_wpSkip (h : Hart) (n : XR) (v : Word) : (h.setX n v).wpSkip = h.wpSkip := by unfold Hart.setX; split <;> rfl
@[simp] theorem Hart.setX_brkPc (h : Hart) (n : XR) (v : Word) : (h.setX n v).brkPc = h.brkPc := by unfold Hart.setX; split <;> rfl
@[simp] theorem Hart.setX_kbrkPc (h : Hart) (n : XR) (v : Word) : (h.setX n v).kbrkPc = h.kbrkPc := by unfold Hart.setX; split <;> rfl
@[simp] theorem Hart.setX_brkAll (h : Hart) (n : XR) (v : Word) : (h.setX n v).brkAll = h.brkAll := by unfold Hart.setX; split <;> rfl
@[simp] theorem Hart.setX_setvlg (h : Hart) (n : XR) (v : Word) : (h.setX n v).setvlg = h.setvlg := by unfold Hart.setX; split <;> rfl
@[simp] theorem Hart.setX_killing (h : Hart) (n : XR) (v : Word) : (h.setX n v).killing = h.killing := by unfold Hart.setX; split <;> rfl
@[simp] theorem Hart.setX_regrant (h : Hart) (n : XR) (v : Word) : (h.setX n v).regrant = h.regrant := by unfold Hart.setX; split <;> rfl
@[simp] theorem Hart.setX_coll (h : Hart) (n : XR) (v : Word) : (h.setX n v).coll = h.coll := by unfold Hart.setX; split <;> rfl
@[simp] theorem Hart.setX_atBar (h : Hart) (n : XR) (v : Word) : (h.setX n v).atBar = h.atBar := by unfold Hart.setX; split <;> rfl
@[simp] theorem Hart.setX_barDone (h : Hart) (n : XR) (v : Word) : (h.setX n v).barDone = h.barDone := by unfold Hart.setX; split <;> rfl
@[simp] theorem Hart.setX_rx (h : Hart) (n : XR) (v : Word) : (h.setX n v).rx = h.rx := by unfold Hart.setX; split <;> rfl
@[simp] theorem Hart.setX_rxMax (h : Hart) (n : XR) (v : Word) : (h.setX n v).rxMax = h.rxMax := by unfold Hart.setX; split <;> rfl
@[simp] theorem Hart.setX_stream (h : Hart) (n : XR) (v : Word) : (h.setX n v).stream = h.stream := by unfold Hart.setX; split <;> rfl
@[simp] theorem Hart.setX_strip (h : Hart) (n : XR) (v : Word) : (h.setX n v).strip = h.strip := by unfold Hart.setX; split <;> rfl
@[simp] theorem Hart.setX_pre (h : Hart) (n : XR) (v : Word) : (h.setX n v).pre = h.pre := by unfold Hart.setX; split <;> rfl
@[simp] theorem Hart.setX_paused (h : Hart) (n : XR) (v : Word) : (h.setX n v).paused = h.paused := by unfold Hart.setX; split <;> rfl
@[simp] theorem Hart.setX_disp (h : Hart) (n : XR) (v : Word) : (h.setX n v).disp = h.disp := by unfold Hart.setX; split <;> rfl
@[simp] theorem Hart.setX_passed (h : Hart) (n : XR) (v : Word) : (h.setX n v).passed = h.passed := by unfold Hart.setX; split <;> rfl
@[simp] theorem Hart.setX_blocked (h : Hart) (n : XR) (v : Word) : (h.setX n v).blocked = h.blocked := by unfold Hart.setX; split <;> rfl

@[simp] theorem Hart.setMreg_task (h : Hart) (n : Nat) (v : Word) : (h.setMreg n v).task = h.task := rfl
@[simp] theorem Hart.setMreg_member (h : Hart) (n : Nat) (v : Word) : (h.setMreg n v).member = h.member := rfl
@[simp] theorem Hart.setMreg_pc (h : Hart) (n : Nat) (v : Word) : (h.setMreg n v).pc = h.pc := rfl
@[simp] theorem Hart.setMreg_level (h : Hart) (n : Nat) (v : Word) : (h.setMreg n v).level = h.level := rfl
@[simp] theorem Hart.setMreg_x (h : Hart) (n : Nat) (v : Word) : (h.setMreg n v).x = h.x := rfl
@[simp] theorem Hart.setMreg_v (h : Hart) (n : Nat) (v : Word) : (h.setMreg n v).v = h.v := rfl
@[simp] theorem Hart.setMreg_tag (h : Hart) (n : Nat) (v : Word) : (h.setMreg n v).tag = h.tag := rfl
@[simp] theorem Hart.setMreg_p (h : Hart) (n : Nat) (v : Word) : (h.setMreg n v).p = h.p := rfl
@[simp] theorem Hart.setMreg_resume (h : Hart) (n : Nat) (v : Word) : (h.setMreg n v).resume = h.resume := rfl
@[simp] theorem Hart.setMreg_kres (h : Hart) (n : Nat) (v : Word) : (h.setMreg n v).kres = h.kres := rfl
@[simp] theorem Hart.setMreg_waiting (h : Hart) (n : Nat) (v : Word) : (h.setMreg n v).waiting = h.waiting := rfl
@[simp] theorem Hart.setMreg_deferred (h : Hart) (n : Nat) (v : Word) : (h.setMreg n v).deferred = h.deferred := rfl
@[simp] theorem Hart.setMreg_spilled (h : Hart) (n : Nat) (v : Word) : (h.setMreg n v).spilled = h.spilled := rfl
@[simp] theorem Hart.setMreg_clean (h : Hart) (n : Nat) (v : Word) : (h.setMreg n v).clean = h.clean := rfl
@[simp] theorem Hart.setMreg_bpSkip (h : Hart) (n : Nat) (v : Word) : (h.setMreg n v).bpSkip = h.bpSkip := rfl
@[simp] theorem Hart.setMreg_wpSkip (h : Hart) (n : Nat) (v : Word) : (h.setMreg n v).wpSkip = h.wpSkip := rfl
@[simp] theorem Hart.setMreg_brkPc (h : Hart) (n : Nat) (v : Word) : (h.setMreg n v).brkPc = h.brkPc := rfl
@[simp] theorem Hart.setMreg_kbrkPc (h : Hart) (n : Nat) (v : Word) : (h.setMreg n v).kbrkPc = h.kbrkPc := rfl
@[simp] theorem Hart.setMreg_brkAll (h : Hart) (n : Nat) (v : Word) : (h.setMreg n v).brkAll = h.brkAll := rfl
@[simp] theorem Hart.setMreg_setvlg (h : Hart) (n : Nat) (v : Word) : (h.setMreg n v).setvlg = h.setvlg := rfl
@[simp] theorem Hart.setMreg_killing (h : Hart) (n : Nat) (v : Word) : (h.setMreg n v).killing = h.killing := rfl
@[simp] theorem Hart.setMreg_regrant (h : Hart) (n : Nat) (v : Word) : (h.setMreg n v).regrant = h.regrant := rfl
@[simp] theorem Hart.setMreg_coll (h : Hart) (n : Nat) (v : Word) : (h.setMreg n v).coll = h.coll := rfl
@[simp] theorem Hart.setMreg_atBar (h : Hart) (n : Nat) (v : Word) : (h.setMreg n v).atBar = h.atBar := rfl
@[simp] theorem Hart.setMreg_barDone (h : Hart) (n : Nat) (v : Word) : (h.setMreg n v).barDone = h.barDone := rfl
@[simp] theorem Hart.setMreg_rx (h : Hart) (n : Nat) (v : Word) : (h.setMreg n v).rx = h.rx := rfl
@[simp] theorem Hart.setMreg_rxMax (h : Hart) (n : Nat) (v : Word) : (h.setMreg n v).rxMax = h.rxMax := rfl
@[simp] theorem Hart.setMreg_stream (h : Hart) (n : Nat) (v : Word) : (h.setMreg n v).stream = h.stream := rfl
@[simp] theorem Hart.setMreg_strip (h : Hart) (n : Nat) (v : Word) : (h.setMreg n v).strip = h.strip := rfl
@[simp] theorem Hart.setMreg_pre (h : Hart) (n : Nat) (v : Word) : (h.setMreg n v).pre = h.pre := rfl
@[simp] theorem Hart.setMreg_paused (h : Hart) (n : Nat) (v : Word) : (h.setMreg n v).paused = h.paused := rfl
@[simp] theorem Hart.setMreg_disp (h : Hart) (n : Nat) (v : Word) : (h.setMreg n v).disp = h.disp := rfl
@[simp] theorem Hart.setMreg_passed (h : Hart) (n : Nat) (v : Word) : (h.setMreg n v).passed = h.passed := rfl
@[simp] theorem Hart.setMreg_blocked (h : Hart) (n : Nat) (v : Word) : (h.setMreg n v).blocked = h.blocked := rfl

@[simp] theorem Hart.orFlags_task (h : Hart) (n : Nat) : (h.orFlags n).task = h.task := by unfold Hart.orFlags; split <;> rfl
@[simp] theorem Hart.orFlags_member (h : Hart) (n : Nat) : (h.orFlags n).member = h.member := by unfold Hart.orFlags; split <;> rfl
@[simp] theorem Hart.orFlags_pc (h : Hart) (n : Nat) : (h.orFlags n).pc = h.pc := by unfold Hart.orFlags; split <;> rfl
@[simp] theorem Hart.orFlags_level (h : Hart) (n : Nat) : (h.orFlags n).level = h.level := by unfold Hart.orFlags; split <;> rfl
@[simp] theorem Hart.orFlags_x (h : Hart) (n : Nat) : (h.orFlags n).x = h.x := by unfold Hart.orFlags; split <;> rfl
@[simp] theorem Hart.orFlags_v (h : Hart) (n : Nat) : (h.orFlags n).v = h.v := by unfold Hart.orFlags; split <;> rfl
@[simp] theorem Hart.orFlags_tag (h : Hart) (n : Nat) : (h.orFlags n).tag = h.tag := by unfold Hart.orFlags; split <;> rfl
@[simp] theorem Hart.orFlags_p (h : Hart) (n : Nat) : (h.orFlags n).p = h.p := by unfold Hart.orFlags; split <;> rfl
@[simp] theorem Hart.orFlags_resume (h : Hart) (n : Nat) : (h.orFlags n).resume = h.resume := by unfold Hart.orFlags; split <;> rfl
@[simp] theorem Hart.orFlags_kres (h : Hart) (n : Nat) : (h.orFlags n).kres = h.kres := by unfold Hart.orFlags; split <;> rfl
@[simp] theorem Hart.orFlags_waiting (h : Hart) (n : Nat) : (h.orFlags n).waiting = h.waiting := by unfold Hart.orFlags; split <;> rfl
@[simp] theorem Hart.orFlags_deferred (h : Hart) (n : Nat) : (h.orFlags n).deferred = h.deferred := by unfold Hart.orFlags; split <;> rfl
@[simp] theorem Hart.orFlags_spilled (h : Hart) (n : Nat) : (h.orFlags n).spilled = h.spilled := by unfold Hart.orFlags; split <;> rfl
@[simp] theorem Hart.orFlags_clean (h : Hart) (n : Nat) : (h.orFlags n).clean = h.clean := by unfold Hart.orFlags; split <;> rfl
@[simp] theorem Hart.orFlags_bpSkip (h : Hart) (n : Nat) : (h.orFlags n).bpSkip = h.bpSkip := by unfold Hart.orFlags; split <;> rfl
@[simp] theorem Hart.orFlags_wpSkip (h : Hart) (n : Nat) : (h.orFlags n).wpSkip = h.wpSkip := by unfold Hart.orFlags; split <;> rfl
@[simp] theorem Hart.orFlags_brkPc (h : Hart) (n : Nat) : (h.orFlags n).brkPc = h.brkPc := by unfold Hart.orFlags; split <;> rfl
@[simp] theorem Hart.orFlags_kbrkPc (h : Hart) (n : Nat) : (h.orFlags n).kbrkPc = h.kbrkPc := by unfold Hart.orFlags; split <;> rfl
@[simp] theorem Hart.orFlags_brkAll (h : Hart) (n : Nat) : (h.orFlags n).brkAll = h.brkAll := by unfold Hart.orFlags; split <;> rfl
@[simp] theorem Hart.orFlags_setvlg (h : Hart) (n : Nat) : (h.orFlags n).setvlg = h.setvlg := by unfold Hart.orFlags; split <;> rfl
@[simp] theorem Hart.orFlags_killing (h : Hart) (n : Nat) : (h.orFlags n).killing = h.killing := by unfold Hart.orFlags; split <;> rfl
@[simp] theorem Hart.orFlags_regrant (h : Hart) (n : Nat) : (h.orFlags n).regrant = h.regrant := by unfold Hart.orFlags; split <;> rfl
@[simp] theorem Hart.orFlags_coll (h : Hart) (n : Nat) : (h.orFlags n).coll = h.coll := by unfold Hart.orFlags; split <;> rfl
@[simp] theorem Hart.orFlags_atBar (h : Hart) (n : Nat) : (h.orFlags n).atBar = h.atBar := by unfold Hart.orFlags; split <;> rfl
@[simp] theorem Hart.orFlags_barDone (h : Hart) (n : Nat) : (h.orFlags n).barDone = h.barDone := by unfold Hart.orFlags; split <;> rfl
@[simp] theorem Hart.orFlags_rx (h : Hart) (n : Nat) : (h.orFlags n).rx = h.rx := by unfold Hart.orFlags; split <;> rfl
@[simp] theorem Hart.orFlags_rxMax (h : Hart) (n : Nat) : (h.orFlags n).rxMax = h.rxMax := by unfold Hart.orFlags; split <;> rfl
@[simp] theorem Hart.orFlags_stream (h : Hart) (n : Nat) : (h.orFlags n).stream = h.stream := by unfold Hart.orFlags; split <;> rfl
@[simp] theorem Hart.orFlags_strip (h : Hart) (n : Nat) : (h.orFlags n).strip = h.strip := by unfold Hart.orFlags; split <;> rfl
@[simp] theorem Hart.orFlags_pre (h : Hart) (n : Nat) : (h.orFlags n).pre = h.pre := by unfold Hart.orFlags; split <;> rfl
@[simp] theorem Hart.orFlags_paused (h : Hart) (n : Nat) : (h.orFlags n).paused = h.paused := by unfold Hart.orFlags; split <;> rfl
@[simp] theorem Hart.orFlags_disp (h : Hart) (n : Nat) : (h.orFlags n).disp = h.disp := by unfold Hart.orFlags; split <;> rfl
@[simp] theorem Hart.orFlags_passed (h : Hart) (n : Nat) : (h.orFlags n).passed = h.passed := by unfold Hart.orFlags; split <;> rfl
@[simp] theorem Hart.orFlags_blocked (h : Hart) (n : Nat) : (h.orFlags n).blocked = h.blocked := by unfold Hart.orFlags; split <;> rfl

@[simp] theorem Hart.getX_setMreg (h : Hart) (n : Nat) (v : Word) (m : XR) : (h.setMreg n v).getX m = h.getX m := Hart.getX_of_x rfl _
@[simp] theorem Hart.mreg_setX (h : Hart) (n : XR) (v : Word) (m : Nat) : (h.setX n v).mreg m = h.mreg m := by
  unfold Hart.mreg; simp
@[simp] theorem Hart.getX_orFlags (h : Hart) (n : Nat) (m : XR) : (h.orFlags n).getX m = h.getX m := by
  unfold Hart.getX; simp

/-- Reading fflags after flags are raised (R166). -/
theorem Hart.mreg_orFlags (h : Hart) (fl m : Nat) :
    (h.orFlags fl).mreg m = if m = mFflags ∧ fl ≠ 0 then flagsSet (h.mreg mFflags) fl else h.mreg m := by
  unfold Hart.orFlags
  by_cases h0 : fl = 0
  · simp [h0]
  · simp only [h0, if_false, Hart.mreg_setMreg, ne_eq, not_false_eq_true, and_true]

/-! Counters (R203). -/

/-- What a counter increment leaves in every register word of the hub. -/
theorem State.hreg_count (n k a o : Nat) : (s.count n k a).hreg o =
    if bit (s.hreg (oCbctl n)) 0 = true ∧ o = oCounter n k then s.hreg o + BitVec.ofNat 64 a else s.hreg o := by
  unfold State.count
  by_cases hb : bit (s.hreg (oCbctl n)) 0 = true
  · simp only [hb, if_true, true_and, State.hreg_setHreg]
    split
    · next h => rw [h]
    · rfl
  · simp [hb]

end Sys2Proof.Machine
end

