-- ==== Sys2Proof/Laws/Complete.lean ====
section
/-!
SUPPORT. What completing an instruction does, once for all meanings that end in `complete`, `completeV` or
`completeAt`.
-/
namespace Sys2Proof.Machine

variable (s : State)

theorem State.setHart_agrees (i : Nat) (h : Hart) : s.agrees (s.setHart i h) := rfl
theorem State.setMe_agrees (h : Hart) : s.agrees (s.setMe h) := rfl

/-- The state with some hart slots and register words of the hub. -/
theorem State.agrees_count (t : State) (n k a : Nat) (h : s.agrees t) : s.agrees (t.count n k a) := by
  unfold State.count; split <;> exact h
theorem State.agrees_countMe (t : State) (k a : Nat) (h : s.agrees t) : s.agrees (t.countMe k a) := by
  unfold State.countMe; split
  · exact s.agrees_count _ _ _ _ h
  · exact h

theorem State.agrees_of_setMe {s t : State} {h : Hart} (a : (s.setMe h).agrees t) : s.agrees t := by
  have := congrArg (fun u : State => { u with harts := s.harts }) a
  exact this

theorem State.agrees_refl : s.agrees s := rfl
theorem State.agrees_cur {s t : State} (h : s.agrees t) : t.cur = s.cur := by
  have : ({ t with harts := s.harts, hub := { t.hub with reg := s.hub.reg } } : State).cur = s.cur := by
    unfold State.agrees at h; rw [h]
  exact this
theorem State.agrees_mem {s t : State} (h : s.agrees t) : t.mem = s.mem := by
  have : ({ t with harts := s.harts, hub := { t.hub with reg := s.hub.reg } } : State).mem = s.mem := by
    unfold State.agrees at h; rw [h]
  exact this
theorem State.agrees_cores {s t : State} (h : s.agrees t) : t.cores = s.cores := by
  have : ({ t with harts := s.harts, hub := { t.hub with reg := s.hub.reg } } : State).cores = s.cores := by
    unfold State.agrees at h; rw [h]
  exact this

/-- Counting for the executing hart looks at its task and at the hub's words alone. -/
theorem State.hreg_countMe_congr {t u : State} (k a o : Nat) (hh : t.me.task = u.me.task)
    (hr : ∀ o, t.hreg o = u.hreg o) : (t.countMe k a).hreg o = (u.countMe k a).hreg o := by
  have hs : t.me.slot = u.me.slot := by simp [Hart.slot, hh]
  unfold State.countMe
  rw [hs]
  split
  · simp only [State.hreg_count, hr]
  · exact hr o

/-- What retiring leaves (R203). -/
theorem State.retired_me (s : State) :
    s.retired.me = { s.me with resume := Resume.zero, wpSkip := false, bpSkip := false, paused := false } := by
  simp [State.retired]

theorem State.retired_hart_cur (s : State) :
    s.retired.hart s.cur = { s.me with resume := Resume.zero, wpSkip := false, bpSkip := false, paused := false } := by
  have h := s.retired_me
  rwa [State.me_def, State.agrees_cur (t := s.retired) (s.agrees_countMe _ _ _ (s.setMe_agrees _))] at h

theorem State.retired_hart (s : State) (j : Nat) (h : j ≠ s.cur) : s.retired.hart j = s.hart j := by
  simp [State.retired, State.hart_setMe, h]

theorem State.retired_hreg (s : State) (o : Nat) : s.retired.hreg o = (s.countMe 12 1).hreg o := by
  unfold State.retired
  exact State.hreg_countMe_congr _ _ _ (by simp) (by simp)

theorem State.retired_agrees (s : State) : s.agrees s.retired := s.agrees_countMe _ _ _ (s.setMe_agrees _)

/-- The end of an instruction whose effect is s. -/
theorem State.completes_advance (s : State) (n : Nat) :
    s.Completes (s.advance n).retired s.me (s.me.pcNext n) where
  me := by
    have h := (s.advance n).retired_hart_cur
    rw [State.advance_cur] at h
    rw [h]; simp [State.advance]
  others j h := by
    rw [State.retired_hart _ _ (by simpa using h)]
    simp only [State.advance, State.hart_setMe, h, if_false]
  words o := by
    rw [State.retired_hreg]
    exact State.hreg_countMe_congr _ _ _ (by simp [State.advance]) (by simp [State.advance])
  rest := (State.agrees_countMe _ _ _ _ rfl)

/-- `complete` after an effect that did not stop. -/
theorem complete_goes (s : State) (n : Nat) : s.Goes (complete n (.ok s)) s.me (s.me.pcNext n) :=
  ⟨_, rfl, s.completes_advance n⟩

theorem completeV_goes (s : State) (n : Nat) : s.GoesV (completeV n (.ok s)) s.me (s.me.pcNext n) := by
  refine ⟨_, rfl, ?_, ?_, ?_, ?_⟩
  · simpa using (s.completes_advance n).me
  · intro j h; simpa using (s.completes_advance n).others j h
  · intro o
    have h := s.completes_advance n
    refine State.hreg_countMe_congr _ _ _ ?_ ?_
    · have := h.me
      have hc : (s.advance n).retired.cur = s.cur := State.agrees_cur h.rest
      rw [State.me_def, hc, this]; simp
    · exact h.words
  · exact s.agrees_countMe _ _ _ (s.completes_advance n).rest

theorem completeAt_goes (s : State) (pc : BitVec 55) : s.Goes (completeAt (.ok (s, pc))) s.me pc := by
  refine ⟨_, rfl, ?_, ?_, ?_, ?_⟩
  · have h := State.retired_hart_cur (s.setMe { s.me with pc := pc })
    rw [State.setMe_cur] at h
    rw [h]; simp
  · intro j h
    rw [State.retired_hart _ _ (by simpa using h)]
    simp [State.hart_setMe, h]
  · intro o
    rw [State.retired_hreg]
    exact State.hreg_countMe_congr _ _ _ (by simp) (by simp)
  · exact State.agrees_countMe _ _ _ _ rfl

/-- An effect on the executing hart alone can be told from the state before it. -/
theorem State.goes_setMe {s : State} {o : Host.Outcome State Fault Refusal} {h h' : Hart} {pc : BitVec 55}
    (ht : h.task = s.me.task) (g : (s.setMe h).Goes o h' pc) : s.Goes o h' pc := by
  obtain ⟨t, rfl, c⟩ := g
  refine ⟨t, rfl, c.me, ?_, ?_, State.agrees_of_setMe c.rest⟩
  · intro j hj
    rw [c.others j (by simpa using hj), State.hart_setMe, if_neg hj]
  · intro o
    rw [c.words]
    exact State.hreg_countMe_congr _ _ _ (by simpa using ht) (by simp)

theorem State.goesV_setMe {s : State} {o : Host.Outcome State Fault Refusal} {h h' : Hart} {pc : BitVec 55}
    (ht : h.task = s.me.task) (g : (s.setMe h).GoesV o h' pc) : s.GoesV o h' pc := by
  obtain ⟨t, rfl, c⟩ := g
  refine ⟨t, rfl, c.me, ?_, ?_, State.agrees_of_setMe c.rest⟩
  · intro j hj
    rw [c.others j (by simpa using hj), State.hart_setMe, if_neg hj]
  · intro o
    rw [c.words]
    refine State.hreg_countMe_congr _ _ _ (by simpa using ht) ?_
    exact fun o => State.hreg_countMe_congr _ _ _ (by simpa using ht) (by simp)

/-- An effect e that leaves the executing hart alone, and then a write of an x register. -/
theorem State.writes_goes (e : State) (n : Nat) (d : XR) (v : Word) {h : Hart} (hh : e.me = h) :
    e.Goes (complete n (.ok (e.setX d v))) (h.setX d v) (h.pcNext n) := by
  subst hh
  have g := complete_goes (e.setX d v) n
  simp only [State.setX, State.me_setMe] at g
  have g := State.goes_setMe (by simp) g
  simpa [State.setX, Hart.pcNext] using g

/-- An instruction that writes one x register. -/
theorem State.alu_gives (s : State) (n : Nat) (d : XR) (v : Word) : s.Gives (s.alu n d v) n d v := by
  have h := complete_goes (s.setX d v) n
  simp only [State.setX, State.me_setMe] at h
  have h := State.goes_setMe (by simp) h
  simpa [State.Gives, State.alu, State.setX, Hart.pcNext] using h

end Sys2Proof.Machine
end

