-- ==== Sys2Proof/Laws/Memory.lean ====
section
/-!
SUPPORT. Memory: writes at a home, the canonical form, and what a load, a store and an atomic do.
-/
namespace Sys2Proof.Machine

/-! Images. -/

/-- A byte of the image after a write of n bytes (R131). -/
theorem img_memWrite (m : List Host.Cell) (k n v y : Nat) :
    SMap.get (0 : Byte) (memWrite m k n v) y =
      if k ≤ y ∧ y < k + n then byteOf v (y - k) else SMap.get 0 m y := by
  induction n with
  | zero => simp only [memWrite]; rw [if_neg (by omega)]
  | succ n ih =>
    simp only [memWrite, SMap.get_set, ih]
    by_cases h : y = k + n
    · subst h; rw [if_pos rfl, if_pos (by omega)]; congr; omega
    · rw [if_neg h]
      by_cases h2 : k ≤ y ∧ y < k + n
      · rw [if_pos h2, if_pos (by omega)]
      · rw [if_neg h2, if_neg (by omega)]

theorem memWrite_wf (m : List Host.Cell) (k n v : Nat) (h : Memory.wf m) : Memory.wf (memWrite m k n v) := by
  induction n with
  | zero => exact h
  | succ n ih => exact SMap.wf_set _ _ _ _ ih

theorem State.img_writeHome (s : State) (k n v ino w y : Nat) :
    (s.writeHome k n v ino w).img y = if k ≤ y ∧ y < k + n then byteOf v (y - k) else s.img y :=
  img_memWrite _ _ _ _ _

theorem State.writeHome_wf (s : State) (k n v ino w : Nat) (h : Memory.wf s.mem) :
    Memory.wf (s.writeHome k n v ino w).mem := memWrite_wf _ _ _ _ h

@[simp] theorem State.writeHome_harts (s : State) (k n v ino w : Nat) : (s.writeHome k n v ino w).harts = s.harts := rfl
@[simp] theorem State.writeHome_cur (s : State) (k n v ino w : Nat) : (s.writeHome k n v ino w).cur = s.cur := rfl
@[simp] theorem State.writeHome_me (s : State) (k n v ino w : Nat) : (s.writeHome k n v ino w).me = s.me :=
  State.me_of rfl rfl
@[simp] theorem State.writeHome_hreg (s : State) (k n v ino w o : Nat) :
    (s.writeHome k n v ino w).hreg o = s.hreg o := State.hreg_of_hub rfl _

/-- Bytes placed by `withFetchWord` keep the canonical form. -/
theorem SMap.set_mem_wf (m : List Host.Cell) (k : Nat) (v : Byte) (h : Memory.wf m) :
    Memory.wf (SMap.set (0 : Byte) m k v) := SMap.wf_set _ _ _ _ h

theorem State.arrive_mem (s : State) (e : WEntry) : (s.arrive e).mem = memWrite s.mem e.loc e.n e.val.toNat := by
  unfold State.arrive; dsimp only; split <;> rfl
theorem State.arrive_harts (s : State) (e : WEntry) : (s.arrive e).harts = s.harts := by
  unfold State.arrive; dsimp only; split <;> rfl
theorem State.arrive_cur (s : State) (e : WEntry) : (s.arrive e).cur = s.cur := by
  unfold State.arrive; dsimp only; split <;> rfl
@[simp] theorem State.arrive_me (s : State) (e : WEntry) : (s.arrive e).me = s.me :=
  State.me_of (s.arrive_harts e) (s.arrive_cur e)
theorem State.arrive_wf (s : State) (e : WEntry) (h : Memory.wf s.mem) : Memory.wf (s.arrive e).mem := by
  rw [s.arrive_mem]; exact memWrite_wf _ _ _ _ h

theorem byteOf_mod (v j : Nat) (h : j < 8) : byteOf (v % 2 ^ 64) j = byteOf v j := by
  apply BitVec.eq_of_toNat_eq
  simp only [byteOf, BitVec.toNat_ofNat]
  apply Nat.eq_of_testBit_eq; intro i
  simp only [Nat.testBit_mod_two_pow, Nat.testBit_div_two_pow]
  by_cases hi : i < 8
  · simp [hi]; omega
  · simp [hi]

/-- A write of at most 8 bytes that performs at once changes these bytes of the image alone, and no hart. -/
theorem State.img_writeNow (s : State) (hid ino k n v va y : Nat) (hn : n ≤ 8) :
    (s.writeNow hid ino k n v va).img y = if k ≤ y ∧ y < k + n then byteOf v (y - k) else s.img y := by
  unfold State.writeNow; split
  · rw [State.img, State.arrive_mem, img_memWrite]
    dsimp only
    split
    · simp only [BitVec.toNat_ofNat]; exact byteOf_mod _ _ (by omega)
    · rfl
  · exact s.img_writeHome ..
theorem State.writeNow_harts (s : State) (hid ino k n v va : Nat) :
    (s.writeNow hid ino k n v va).harts = s.harts := by
  unfold State.writeNow; split
  · rw [State.arrive_harts]; rfl
  · rfl
theorem State.writeNow_cur (s : State) (hid ino k n v va : Nat) : (s.writeNow hid ino k n v va).cur = s.cur := by
  unfold State.writeNow; split
  · rw [State.arrive_cur]; rfl
  · rfl
@[simp] theorem State.writeNow_me (s : State) (hid ino k n v va : Nat) : (s.writeNow hid ino k n v va).me = s.me :=
  State.me_of (s.writeNow_harts ..) (s.writeNow_cur ..)
theorem State.writeNow_wf (s : State) (hid ino k n v va : Nat) (h : Memory.wf s.mem) :
    Memory.wf (s.writeNow hid ino k n v va).mem := by
  unfold State.writeNow; split
  · exact State.arrive_wf _ _ h
  · exact s.writeHome_wf _ _ _ _ _ h

/-- The reset memory is in canonical form. -/
theorem State.reset_wf : Memory.wf State.reset.mem := rfl

/-! Notes of reads. -/

theorem State.noteRead_harts (s : State) (a b c d : Nat) (l : List Nat) :
    (s.noteRead a b c d l).harts = s.harts := by
  unfold State.noteRead; dsimp only; split <;> rfl
theorem State.noteRead_drv (s : State) (a b c d : Nat) (l : List Nat) : (s.noteRead a b c d l).drv = s.drv := by
  unfold State.noteRead; dsimp only; split <;> rfl
theorem State.noteRead_mem (s : State) (a b c d : Nat) (l : List Nat) : (s.noteRead a b c d l).mem = s.mem := by
  unfold State.noteRead; dsimp only; split <;> rfl
theorem State.noteRead_hub (s : State) (a b c d : Nat) (l : List Nat) : (s.noteRead a b c d l).hub = s.hub := by
  unfold State.noteRead; dsimp only; split <;> rfl
theorem State.noteRead_cores (s : State) (a b c d : Nat) (l : List Nat) : (s.noteRead a b c d l).cores = s.cores := by
  unfold State.noteRead; dsimp only; split <;> rfl
theorem State.noteRead_ring (s : State) (a b c d : Nat) (l : List Nat) : (s.noteRead a b c d l).ring = s.ring := by
  unfold State.noteRead; dsimp only; split <;> rfl
@[simp] theorem State.noteRead_cur (s : State) (a b c d : Nat) (l : List Nat) : (s.noteRead a b c d l).cur = s.cur := by
  simp [State.cur, State.noteRead_drv]
@[simp] theorem State.noteRead_me (s : State) (a b c d : Nat) (l : List Nat) : (s.noteRead a b c d l).me = s.me := by
  simp [State.me, State.hart, State.noteRead_harts]
@[simp] theorem State.noteRead_hart (s : State) (a b c d j : Nat) (l : List Nat) :
    (s.noteRead a b c d l).hart j = s.hart j := by
  simp [State.hart, State.noteRead_harts]

/-! Store buffers. -/

theorem State.buffer_same (s : State) (h i : Nat) (w : Piece) (r : Option Scope) (o : Option Nat) (l : Bool) :
    (s.buffer h i w r o l).harts = s.harts ∧ (s.buffer h i w r o l).mem = s.mem ∧
    (s.buffer h i w r o l).hub = s.hub ∧ (s.buffer h i w r o l).cur = s.cur ∧
    (s.buffer h i w r o l).cores = s.cores ∧ (s.buffer h i w r o l).coreQ = s.coreQ ∧
    (s.buffer h i w r o l).devQ = s.devQ ∧ (s.buffer h i w r o l).fabQ = s.fabQ :=
  ⟨rfl, rfl, rfl, rfl, rfl, rfl, rfl, rfl⟩

theorem State.foldl_keep {α β : Type} (f : State → α → State) (g : State → β) (hf : ∀ s a, g (f s a) = g s)
    (l : List α) (s : State) : g (l.foldl f s) = g s := by
  induction l generalizing s with
  | nil => rfl
  | cons a l ih => rw [List.foldl_cons, ih, hf]

theorem State.bufferAll_harts (s : State) (h i : Nat) (ws : List Piece) (r : Option Scope) (o : Option Nat) (l : Bool) :
    (s.bufferAll h i ws r o l).harts = s.harts := by
  unfold State.bufferAll
  have h1 : ∀ (q : List Piece) (s : State), (q.foldl (fun s w => s.buffer h i w r o l) s).harts = s.harts :=
    fun q s => State.foldl_keep (fun s w => s.buffer h i w r o l) State.harts (fun _ _ => rfl) q s
  have h2 : ∀ (q : List Piece) (s : State),
      (q.foldl (fun s w => s.writeHome w.p.key w.n w.val i h) s).harts = s.harts :=
    fun q s => State.foldl_keep (fun s w => s.writeHome w.p.key w.n w.val i h) State.harts (fun _ _ => rfl) q s
  dsimp only
  cases r <;> simp [h1, h2, State.addMark]

theorem State.bufferAll_cur (s : State) (h i : Nat) (ws : List Piece) (r : Option Scope) (o : Option Nat) (l : Bool) :
    (s.bufferAll h i ws r o l).cur = s.cur := by
  unfold State.bufferAll
  have h1 : ∀ (q : List Piece) (s : State), (q.foldl (fun s w => s.buffer h i w r o l) s).cur = s.cur :=
    fun q s => State.foldl_keep (fun s w => s.buffer h i w r o l) State.cur (fun _ _ => rfl) q s
  have h2 : ∀ (q : List Piece) (s : State),
      (q.foldl (fun s w => s.writeHome w.p.key w.n w.val i h) s).cur = s.cur :=
    fun q s => State.foldl_keep (fun s w => s.writeHome w.p.key w.n w.val i h) State.cur (fun _ _ => rfl) q s
  dsimp only
  cases r <;> simp [h1, h2, State.addMark]

@[simp] theorem State.bufferAll_me (s : State) (h i : Nat) (ws : List Piece) (r : Option Scope) (o : Option Nat) (l : Bool) :
    (s.bufferAll h i ws r o l).me = s.me := by
  simp [State.me, State.hart, State.bufferAll_harts, State.bufferAll_cur]

/-- Buffered writes keep the canonical form of memory. -/
theorem State.bufferAll_wf (s : State) (h i : Nat) (ws : List Piece) (r : Option Scope) (o : Option Nat) (l : Bool)
    (hw : Memory.wf s.mem) : Memory.wf (s.bufferAll h i ws r o l).mem := by
  have h1 : ∀ (q : List Piece) (s : State), (q.foldl (fun s w => s.buffer h i w r o l) s).mem = s.mem :=
    fun q s => State.foldl_keep (fun s w => s.buffer h i w r o l) State.mem (fun _ _ => rfl) q s
  have h2 : ∀ (q : List Piece) (s : State), Memory.wf s.mem →
      Memory.wf (q.foldl (fun s w => s.writeHome w.p.key w.n w.val i h) s).mem := by
    intro q
    induction q with
    | nil => exact fun s h => h
    | cons a q ih => exact fun s hs => ih _ (s.writeHome_wf _ _ _ _ _ hs)
  unfold State.bufferAll
  dsimp only
  cases r <;> (simp only [State.addMark, State.setHmem_mem]; exact h2 _ _ (by rw [h1]; exact hw))

/-! Loaded values (R260). -/

theorem sextNat_toInt (v n : Nat) (h : 0 < n) : sextNat v n = (BitVec.ofNat n v).toInt := by
  unfold sextNat
  rw [BitVec.toInt_eq_toNat_cond]
  have e : 2 ^ n = 2 * 2 ^ (n - 1) := by rw [← Nat.pow_succ']; congr; omega
  simp only [BitVec.toNat_ofNat, Nat.ne_of_gt h, ↓reduceIte]
  by_cases hc : v % 2 ^ n < 2 ^ (n - 1)
  · rw [if_pos hc, if_pos (by omega)]
  · rw [if_neg hc, if_neg (by omega)]; simp

theorem loadValue_b8 (v : Nat) : loadValue .b8 v = (BitVec.ofNat 8 v).signExtend 64 := by
  simp only [loadValue, sextNat_toInt v 8 (by decide)]; rfl
theorem loadValue_b16 (v : Nat) : loadValue .b16 v = (BitVec.ofNat 16 v).signExtend 64 := by
  simp only [loadValue, sextNat_toInt v 16 (by decide)]; rfl
theorem loadValue_b32 (v : Nat) : loadValue .b32 v = (BitVec.ofNat 32 v).signExtend 64 := by
  simp only [loadValue, sextNat_toInt v 32 (by decide)]; rfl
theorem loadValue_b64 (v : Nat) : loadValue .b64 v = BitVec.ofNat 64 v := rfl
theorem loadValue_z8 (v : Nat) : loadValue .z8 v = (BitVec.ofNat 8 v).setWidth 64 := by
  apply BitVec.eq_of_toNat_eq; simp [loadValue]
theorem loadValue_z16 (v : Nat) : loadValue .z16 v = (BitVec.ofNat 16 v).setWidth 64 := by
  apply BitVec.eq_of_toNat_eq; simp [loadValue]
theorem loadValue_z32 (v : Nat) : loadValue .z32 v = (BitVec.ofNat 32 v).setWidth 64 := by
  apply BitVec.eq_of_toNat_eq; simp [loadValue]

/-- The bytes of an image are fewer than the number of values they can hold. -/
theorem ofBytes_lt (l : List Byte) : ofBytes l < 2 ^ (8 * l.length) := by
  induction l with
  | nil => simp [ofBytes]
  | cons b l ih =>
    have e : 2 ^ (8 * (b :: l).length) = 256 * 2 ^ (8 * l.length) := by
      rw [List.length_cons, Nat.mul_add, Nat.pow_add, Nat.mul_comm]
    rw [e, ofBytes]
    have := b.isLt
    have h8 : b.toNat < 256 := this
    omega

theorem State.imgRead_lt (s : State) (k n : Nat) : s.imgRead k n < 2 ^ (8 * n) := by
  have := ofBytes_lt ((List.range n).map fun j => s.img (k + j))
  simpa [State.imgRead] using this

/-! One access. -/

theorem State.scalarAccess_of_reaches {s : State} {va n : Nat} {st am : Bool} {p : Phys}
    (h : s.reaches va n st am = some p) : s.scalarAccess va n st am = .ok (s, p) := by
  unfold State.reaches at h
  unfold State.scalarAccess
  split at h
  · next s' q e =>
    rw [e]; split at h
    · next hs => cases h; rw [hs]
    · cases h
  · cases h

/-- A load that reads now. -/
theorem State.load_now (s : State) (len : Nat) (rd : XR) (va : Nat) (z : LdSize) (acq : Bool) (f : Nat → Word)
    (hf : ∀ v, loadValue z v = f v) :
    s.LoadsNow (complete len (s.load va z rd acq)) len rd va (ldBytes z) f := by
  intro p hr hd ho hh hl
  dsimp only
  intro hb
  have h1 : (!p.attr.direct && s.mayHold s.cur s.drv.nextId p (ldBytes z)) = false := by
    rcases hh with h | h <;> simp [h, ho, Attr.direct, State.mayHold]
  have h2 : (p.attr.cached && !s.l1Ready s.cur p.key (ldBytes z) false) = false := by
    cases hc : p.attr.cached
    · rfl
    · simp [hl hc]
  unfold State.load
  simp only [State.scalarAccess_of_reaches hr, hd, ↓reduceIte, h1, ho, Bool.and_false, Bool.false_eq_true, State.loadNow,
    h2, hb, hf]
  exact State.writes_goes _ _ _ _ rfl

/-- A load that stays in the bag. -/
theorem State.load_later (s : State) (len : Nat) (rd : XR) (va : Nat) (z : LdSize) (acq : Bool) :
    s.LoadsLater (complete len (s.load va z rd acq)) len rd va (ldBytes z) z acq := by
  intro p hr hd hu hh
  have hdir : p.attr.direct = false := by simp [Attr.direct, hu, hd]
  unfold State.load
  simp only [State.scalarAccess_of_reaches hr, hd, ↓reduceIte, hdir, Bool.false_and, Bool.false_eq_true, hh,
    Bool.not_false, Bool.and_self]
  exact complete_goes _ len

/-- A load from the hub block. -/
theorem State.load_hub (s : State) (len : Nat) (rd : XR) (va : Nat) (acq : Bool) :
    s.LoadsHub (complete len (s.load va .b64 rd acq)) len rd va := by
  intro p hr hd hb hh
  have h8 : ldBytes .b64 = 8 := rfl
  unfold State.load
  simp only [h8, State.scalarAccess_of_reaches hr, hd, ↓reduceIte, hb, Bool.false_eq_true, State.loadDev, hh]
  exact State.writes_goes _ _ _ _ rfl

/-- A store. -/
theorem State.store_stores (s : State) (len : Nat) (rs : XR) (va n : Nat) (rel : Option Scope) :
    s.Stores (complete len (s.store va n (s.getX rs) rel)) len rs va n rel := by
  intro p hr hd ho hm hp hl
  have hrel : s.releaseWait s s.drv.nextId va rel p.attr.direct = .ok () := by
    unfold State.releaseWait
    cases rel with
    | none => rfl
    | some S =>
      cases S
      case pool => simp [hp rfl, hl _ rfl (.inr rfl), hm (.inr rfl)]
      all_goals
        by_cases hu : p.attr = .uc
        · simp [hl _ rfl (.inl hu)]
        · simp [Attr.direct, hu, hd]
  have hml : (p.attr.direct && !s.mayLeave s.cur s.drv.nextId) = false := by
    by_cases hu : p.attr = .uc
    · simp [hm (.inl hu)]
    · simp [Attr.direct, hu, hd]
  have hc : (rel = some .pool && p.attr.cached && !s.l1Ready s.cur p.key n true) = false := by
    by_cases hq : rel = some .pool
    · cases hc : p.attr.cached
      · simp
      · simp [(hp hq).2 hc]
    · simp [hq]
  unfold State.store
  simp only [State.scalarAccess_of_reaches hr, ho, hrel, hml, hc, Bool.false_eq_true, ↓reduceIte, State.storeNow, hd]
  exact complete_goes _ len

/-- A plain store that stays in the bag. -/
theorem State.store_later (s : State) (len : Nat) (rs : XR) (va n : Nat) :
    s.StoresLater (complete len (s.store va n (s.getX rs) none)) len rs va n := by
  intro p hr hd hu ho
  have hdir : p.attr.direct = false := by simp [Attr.direct, hu, hd]
  unfold State.store
  simp only [State.scalarAccess_of_reaches hr, ho, hdir, ↓reduceIte, Option.isSome_none, Bool.or_self, Bool.false_eq_true]
  exact complete_goes _ len

/-- A store to the hub block. -/
theorem State.store_hub (s : State) (len : Nat) (rs : XR) (va : Nat) :
    s.StoresHub (complete len (s.store va 8 (s.getX rs) none)) len rs va := by
  intro p hr hd ho hm
  unfold State.store
  simp only [State.scalarAccess_of_reaches hr, ho, State.releaseWait, hm, Bool.not_true, Bool.and_false, reduceCtorEq,
    decide_false, Bool.false_and, Bool.false_eq_true, ↓reduceIte, State.storeNow, hd]
  exact complete_goes _ len

/-! A range of memory that is replaced as a whole. -/

theorem rising_pairwise {α : Type} (b : Option Nat) (m : SMap α) :
    SMap.rising b m = true ↔ (∀ e ∈ m, SMap.below b e.1 = true) ∧ m.Pairwise (fun x y => x.1 < y.1) := by
  induction m generalizing b with
  | nil => simp [SMap.rising]
  | cons e m ih =>
    rw [SMap.rising_cons, Bool.and_eq_true, ih, List.pairwise_cons]
    simp only [SMap.below, decide_eq_true_eq, List.mem_cons, forall_eq_or_imp]
    refine ⟨fun ⟨h1, h2, h3⟩ => ⟨⟨h1, fun x hx => ?_⟩, h2, h3⟩, fun ⟨⟨h1, _⟩, h2, h3⟩ => ⟨h1, h2, h3⟩⟩
    cases b with
    | none => rfl
    | some b => simp only [decide_eq_true_eq] at h1 ⊢; have := h2 x hx; omega

theorem cellsIn_spec (lo hi : Nat) (l : List Host.Cell) :
    (∀ e ∈ cellsIn lo hi l, lo ≤ e.1 ∧ e.1 < hi ∧ e.2 ≠ 0) ∧ (cellsIn lo hi l).Pairwise (fun x y => x.1 < y.1) := by
  induction l generalizing lo with
  | nil => simp [cellsIn]
  | cons c cs ih =>
    unfold cellsIn
    split
    · next h =>
      have i := ih (c.1 + 1)
      refine ⟨fun e he => ?_, List.pairwise_cons.mpr ⟨fun e he => ?_, i.2⟩⟩
      · rcases List.mem_cons.mp he with rfl | he
        · exact h
        · have := i.1 e he; exact ⟨by omega, this.2⟩
      · have := i.1 e he; omega
    · exact ih lo

/-- Replacing a range keeps the canonical form, whatever the bytes given. -/
theorem replaceRange_wf (m : List Host.Cell) (k n : Nat) (new : List Host.Cell) (h : Memory.wf m) :
    Memory.wf (replaceRange m k n new) := by
  rw [Memory.wf, SMap.wf_iff, rising_pairwise] at h ⊢
  obtain ⟨⟨-, hp⟩, hv⟩ := h
  have c := cellsIn_spec k (k + n) new
  have t : ∀ e ∈ m.filter (fun c => decide (c.1 < k)), e.1 < k := fun e he => by
    simpa using (List.mem_filter.mp he).2
  have d : ∀ e ∈ m.filter (fun c => decide (k + n ≤ c.1)), k + n ≤ e.1 := fun e he => by
    simpa using (List.mem_filter.mp he).2
  refine ⟨⟨fun _ _ => rfl, ?_⟩, fun e he => ?_⟩
  · unfold replaceRange
    rw [List.pairwise_append, List.pairwise_append]
    refine ⟨⟨hp.filter _, c.2, fun x hx y hy => ?_⟩, hp.filter _, fun x hx y hy => ?_⟩
    · have := t x hx; have := c.1 y hy; omega
    · have := d y hy
      rcases List.mem_append.mp hx with hx | hx
      · have := t x hx; omega
      · have := c.1 x hx; omega
  · unfold replaceRange at he
    rcases List.mem_append.mp he with he | he
    · rcases List.mem_append.mp he with he | he
      · exact hv e (List.mem_filter.mp he).1
      · exact (c.1 e he).2.2
    · exact hv e (List.mem_filter.mp he).1

theorem SMap.get_append {α : Type} (d : α) (l m : SMap α) (y : Nat) (h : ∀ e ∈ l, e.1 ≠ y) :
    SMap.get d (l ++ m) y = SMap.get d m y := by
  induction l with
  | nil => rfl
  | cons a l ih =>
    rw [List.cons_append, SMap.get, if_neg (fun e => h a (List.mem_cons_self ..) e.symm)]
    exact ih fun e he => h e (List.mem_cons_of_mem _ he)

/-- Outside the range every byte stays, whatever the form of the list. -/
theorem replaceRange_get (m : List Host.Cell) (k n y : Nat) (new : List Host.Cell) (h : y < k ∨ k + n ≤ y) :
    SMap.get (0 : Byte) (replaceRange m k n new) y = SMap.get 0 m y := by
  have c := cellsIn_spec k (k + n) new
  have f (p : Nat → Bool) (r : List Host.Cell) (hp : p y = true) :
      SMap.get (0 : Byte) (m.filter (fun e => p e.1) ++ r) y = if m.any (fun e => e.1 == y) then SMap.get 0 m y
        else SMap.get 0 r y := by
    induction m with
    | nil => rfl
    | cons a m ih =>
      by_cases ha : a.1 = y
      · simp [List.filter_cons, ha, hp, SMap.get]
      · by_cases hq : p a.1 = true
        · rw [List.filter_cons, if_pos hq, List.cons_append, List.any_cons, beq_eq_false_iff_ne.mpr ha, Bool.false_or]
          simp only [SMap.get, if_neg (Ne.symm ha)]
          exact ih
        · rw [List.filter_cons, if_neg hq, List.any_cons, beq_eq_false_iff_ne.mpr ha, Bool.false_or]
          simp only [SMap.get, if_neg (Ne.symm ha)]
          exact ih
  have z : m.any (fun e => e.1 == y) = false → SMap.get (0 : Byte) m y = 0 := fun hz => by
    have q := SMap.get_append (0 : Byte) m [] y (fun e he w => by
      have : m.any (fun e => e.1 == y) = true := List.any_eq_true.mpr ⟨e, he, by simpa using w⟩
      rw [hz] at this; cases this)
    rw [List.append_nil] at q; exact q
  rcases h with h | h
  · rw [replaceRange, List.append_assoc, f (fun e => decide (e < k)) _ (by simpa using h)]
    split
    · rfl
    · next hn =>
      rw [z (Bool.eq_false_iff.mpr hn), SMap.get_append _ _ _ _ (fun e he => by have := c.1 e he; omega)]
      have := SMap.get_append (0 : Byte) (m.filter fun e => decide (k + n ≤ e.1)) [] y
        (fun e he => by have := (List.mem_filter.mp he).2; simp at this; omega)
      simpa using this
  · rw [replaceRange, List.append_assoc, SMap.get_append _ _ _ _ (fun e he => by
        have := (List.mem_filter.mp he).2; simp at this; omega),
      SMap.get_append _ _ _ _ (fun e he => by have := c.1 e he; omega)]
    have := f (fun e => decide (k + n ≤ e)) [] (by simpa using h)
    rw [List.append_nil] at this
    rw [this]
    split
    · rfl
    · next hn => rw [z (Bool.eq_false_iff.mpr hn)]; rfl

end Sys2Proof.Machine
end

