-- ==== Sys2Proof/Laws/Caches.lean ====
section
/-!
SUPPORT. What the work of the caches can do: it moves lines, records, ways and fetched frames about and counts misses, and
leaves every value that an instruction can see alone (R31 to R42, R111, R112, R120, R124, R128).
-/
namespace Sys2Proof.Machine

/-- t differs from s in no more than the hart slots, the tables of the caches and the hub's register words. -/
def State.cacheOnly (s t : State) : Prop :=
  { t with harts := s.harts, coh := s.coh, hub := { t.hub with reg := s.hub.reg } } = s

/-- t is s after work of the caches: no hart has changed but in the frames that it has fetched for a strip. -/
structure State.Quiet (s t : State) : Prop where
  rest : s.cacheOnly t
  hart : ∀ j, t.hart j = { s.hart j with strip := (t.hart j).strip }

theorem State.Quiet.refl (s : State) : s.Quiet s := ⟨rfl, fun _ => rfl⟩

theorem State.Quiet.trans {s t u : State} (a : s.Quiet t) (b : t.Quiet u) : s.Quiet u where
  rest := by
    have h := congrArg (fun v : State =>
      { v with harts := s.harts, coh := s.coh, hub := { v.hub with reg := s.hub.reg } }) b.rest
    exact h.trans a.rest
  hart j := by rw [b.hart j, a.hart j]

theorem State.Quiet.foldl {α : Type} {f : State → α → State} (hf : ∀ s a, State.Quiet s (f s a)) (l : List α)
    (s : State) : s.Quiet (l.foldl f s) := by
  induction l generalizing s with
  | nil => exact .refl s
  | cons a l ih => exact (hf s a).trans (ih _)

theorem State.Quiet.iff {c : Prop} [Decidable c] {s t u : State} (a : s.Quiet t) (b : s.Quiet u) :
    s.Quiet (if c then t else u) := by split <;> assumption

/-- A change of the tables alone. -/
theorem State.Quiet.tables (s : State) (c : Coherence) : s.Quiet { s with coh := c } := ⟨rfl, fun _ => rfl⟩

/-- What stays. -/
theorem State.Quiet.mem {s t : State} (q : s.Quiet t) : t.mem = s.mem := by
  have h := congrArg (fun u : State => u.mem) q.rest; exact h
theorem State.Quiet.cur {s t : State} (q : s.Quiet t) : t.cur = s.cur := by
  have h := congrArg (fun u : State => u.cur) q.rest; exact h
theorem State.Quiet.mems {s t : State} (q : s.Quiet t) : t.mems = s.mems := by
  have h := congrArg (fun u : State => u.mems) q.rest; exact h
theorem State.Quiet.cores {s t : State} (q : s.Quiet t) : t.cores = s.cores := by
  have h := congrArg (fun u : State => u.cores) q.rest; exact h
theorem State.Quiet.me {s t : State} (q : s.Quiet t) : t.me = { s.me with strip := t.me.strip } := by
  have h := q.hart s.cur
  rw [State.me_def, State.me_def, q.cur]; exact h
theorem State.Quiet.img {s t : State} (q : s.Quiet t) (y : Nat) : t.img y = s.img y := by
  unfold State.img; rw [q.mem]

/-! The steps of the protocol. -/

theorem State.setDir_quiet (s : State) (q f : Nat) (e : List Rec × Bool × Bool) : s.Quiet (s.setDir q f e) :=
  .tables _ _
theorem State.setFilter_quiet (s : State) (f : Nat) (e : List Rec × Bool × Bool) : s.Quiet (s.setFilter f e) :=
  .tables _ _
theorem State.dropLine_quiet (s : State) (h : Holder) (f : Nat) : s.Quiet (s.dropLine h f) := .tables _ _
theorem State.setLine_quiet (s : State) (l : Line) : s.Quiet (s.setLine l) := .tables _ _
theorem State.dropWays_quiet (s : State) (q f : Nat) : s.Quiet (s.dropWays q f) := .tables _ _

theorem State.count_quiet (s : State) (n k a : Nat) : s.Quiet (s.count n k a) where
  rest := by unfold State.count; split <;> rfl
  hart j := by unfold State.count; split <;> rfl

theorem State.cutStrips_quiet (s : State) (of : Nat → Nat → Bool) : s.Quiet (s.cutStrips of) := by
  unfold State.cutStrips
  refine .foldl (fun s e => ?_) _ _
  dsimp only
  refine .iff ⟨rfl, fun j => ?_⟩ (.refl s)
  rw [State.hart_setHart]
  split
  · next h => subst h; rfl
  · rfl

theorem State.dropStrips_quiet (s : State) (h : Holder) (f : Nat) : s.Quiet (s.dropStrips h f) := by
  unfold State.dropStrips; exact s.cutStrips_quiet _

theorem State.mergeHome_quiet (s : State) (f w : Nat) : s.Quiet (s.mergeHome f w) := by
  unfold State.mergeHome; exact .iff (.tables _ _) (.refl s)

theorem State.mergeAt_quiet (s : State) (q f w : Nat) : s.Quiet (s.mergeAt q f w) := by
  unfold State.mergeAt
  refine .iff (.refl s) (.iff (s.mergeHome_quiet ..) ?_)
  split
  · exact s.setLine_quiet _
  · exact s.mergeHome_quiet ..

theorem State.giveUp_quiet (s : State) (h : Holder) (f : Nat) (inv : Bool) : s.Quiet (s.giveUp h f inv) := by
  unfold State.giveUp
  refine (State.Quiet.tables s _).trans (.iff ((State.dropLine_quiet ..).trans (State.dropStrips_quiet ..)) ?_)
  split
  · exact State.setLine_quiet ..
  · exact .refl _

theorem State.probeCc_quiet (s : State) (q f : Nat) (inv : Bool) (h : Holder) : s.Quiet (s.probeCc q f inv h) :=
  ((s.giveUp_quiet h f inv).trans (State.mergeAt_quiet ..)).trans (State.setDir_quiet ..)

theorem State.probeGuest_quiet (s : State) (g f : Nat) (inv : Bool) : s.Quiet (s.probeGuest g f inv) :=
  .foldl (fun s (r : Rec) => s.probeCc_quiet g f inv r.h) _ _

theorem State.reachHolder_quiet (s : State) (h : Holder) (f : Nat) (inv : Bool) : s.Quiet (s.reachHolder h f inv) := by
  unfold State.reachHolder
  split
  · exact (s.probeGuest_quiet ..).trans (.iff (State.dropWays_quiet ..) (.refl _))
  · exact .refl s

theorem State.probe1_quiet (s : State) (q f : Nat) (inv : Bool) (h : Holder) : s.Quiet (s.probe1 q f inv h) := by
  unfold State.probe1
  refine (s.reachHolder_quiet h f inv).trans (.iff ?_ (State.probeCc_quiet ..))
  exact ((State.giveUp_quiet ..).trans (State.mergeAt_quiet ..)).trans (State.setFilter_quiet ..)

theorem State.probes_quiet (s : State) (q f : Nat) (inv : Bool) (l : List Holder) :
    s.Quiet (l.foldl (fun s o => s.probe1 q f inv o) s) := .foldl (fun s o => s.probe1_quiet q f inv o) _ _

theorem State.makeRoom_quiet (s : State) (q f : Nat) (h : Option Holder) : s.Quiet (s.makeRoom q f h) := by
  unfold State.makeRoom
  split
  · exact .iff ((State.probes_quiet ..).trans (State.setDir_quiet ..)) (.refl s)
  · exact .refl s

theorem State.serve_quiet (s : State) (q f : Nat) (k : ReqKind) (h : Option Holder) (first last : Nat) :
    s.Quiet (s.serve q f k h first last) := by
  unfold State.serve
  exact (s.makeRoom_quiet q f h).trans
    (.iff ((State.probes_quiet ..).trans (State.probes_quiet ..)) (State.probes_quiet ..))

theorem State.homeClean_quiet (s : State) (f : Nat) : s.Quiet (s.homeClean f) := .tables _ _

theorem State.shareInside_quiet (s : State) (h : Holder) (f : Nat) : s.Quiet (s.shareInside h f) := by
  unfold State.shareInside
  split
  · exact .refl s
  · exact s.probeGuest_quiet ..
  · exact .iff ((s.probes_quiet ..).trans (State.homeClean_quiet ..)) (.refl s)

theorem State.install_quiet (s : State) (q : Nat) (h : Holder) (f first last : Nat) (own : Bool) :
    s.Quiet (s.install q h f first last own) := by
  unfold State.install
  refine (State.Quiet.iff (c := own = true) (.refl s) (s.shareInside_quiet h f)).trans ?_
  generalize (if own = true then s else s.shareInside h f) = t
  dsimp only
  split
  · exact State.Quiet.trans (.iff (.refl _) (State.mergeAt_quiet ..)) (State.setLine_quiet ..)
  · exact State.setLine_quiet ..

theorem State.request_quiet (s : State) (q : Nat) (h : Holder) (f first last : Nat) (own : Bool) :
    s.Quiet (s.request q h f first last own) := by
  unfold State.request
  exact (((State.Quiet.tables s _).trans (State.serve_quiet ..)).trans (State.setDir_quiet ..)).trans
    (State.install_quiet ..)

theorem State.evictL1_quiet (s : State) (l : Line) : s.Quiet (s.evictL1 l) := by
  unfold State.evictL1
  exact (s.dropLine_quiet ..).trans
    (.iff (.refl _) (((State.dropStrips_quiet ..).trans (State.mergeAt_quiet ..)).trans (State.setDir_quiet ..)))

theorem State.fitL1_quiet (s : State) (h : Holder) (f : Nat) : s.Quiet (s.fitL1 h f) := by
  unfold State.fitL1
  dsimp only
  split
  · exact .iff (s.evictL1_quiet _) (.refl s)
  · exact .refl s

theorem State.evictFrame_quiet (s : State) (q f : Nat) : s.Quiet (s.evictFrame q f) := by
  unfold State.evictFrame
  dsimp only
  split
  · refine .iff ?_ ((s.dropWays_quiet q f).trans (State.homeClean_quiet ..))
    have a := s.probes_quiet q f true ((s.dirEntry q f).1.map (·.h))
    generalize List.foldl (fun s h => s.probe1 q f true h) s ((s.dirEntry q f).1.map (·.h)) = t at a
    have b := ((a.trans (State.dropWays_quiet _ q f)).trans (State.dropLine_quiet _ (.dev t.deviceId) f)).trans
      (State.homeClean_quiet _ f)
    exact .iff (b.trans (State.setDir_quiet ..)) b
  · refine ((s.dropWays_quiet q f).trans (State.probeGuest_quiet _ q f true)).trans ?_
    split
    · exact .refl _
    · exact (State.dropLine_quiet ..).trans (.iff (.refl _) ((State.mergeAt_quiet ..).trans (State.setDir_quiet ..)))

theorem State.takeWay_quiet (s : State) (q f : Nat) (hint : Hint) : s.Quiet (s.takeWay q f hint) := by
  unfold State.takeWay
  split
  · exact .refl s
  · refine State.Quiet.trans ?_ (.tables _ _)
    split
    · exact s.evictFrame_quiet ..
    · exact .refl s

theorem State.allocate_quiet (s : State) (q f : Nat) (hint : Hint) (slot : Option Nat) :
    s.Quiet (s.allocate q f hint slot) := by
  unfold State.allocate
  dsimp only
  split
  · exact .tables _ _
  · cases slot with
    | none => exact .iff (.refl s) (s.takeWay_quiet ..)
    | some n => exact .iff (s.count_quiet ..) ((s.count_quiet ..).trans (State.takeWay_quiet ..))

theorem State.fabricHas_quiet (s : State) (f first last : Nat) (own : Bool) : s.Quiet (s.fabricHas f first last own) := by
  unfold State.fabricHas
  exact .iff (.refl s) ((State.Quiet.tables s _).trans (State.install_quiet ..))

theorem State.sliceHas_quiet (s : State) (q f first last : Nat) (own : Bool) (hint : Hint) (slot : Option Nat) :
    s.Quiet (s.sliceHas q f first last own hint slot) := by
  unfold State.sliceHas
  exact .iff (s.fabricHas_quiet ..) (.iff (.refl s)
    (((s.fabricHas_quiet ..).trans (State.request_quiet ..)).trans (State.allocate_quiet ..)))

theorem State.dirtyWords_quiet (s : State) (h : Holder) (f w : Nat) : s.Quiet (s.dirtyWords h f w) := by
  unfold State.dirtyWords
  split
  · exact s.setLine_quiet _
  · exact .refl s

theorem State.l1Access_quiet (s : State) (hid f first last : Nat) (store : Bool) :
    s.Quiet (s.l1Access hid f first last store) := by
  have a : s.Quiet (if s.holds (holderOf hid) f first last store then
      match s.lineOf (holderOf hid) f with | some l => s.setLine l | none => s
    else (((s.sliceHas (dieOf hid) f first last store .none (s.hart hid).slot).request (dieOf hid) (holderOf hid) f first last
      store).allocate (dieOf hid) f .none (s.hart hid).slot).fitL1 (holderOf hid) f) := by
    refine .iff ?_ ((((s.sliceHas_quiet ..).trans (State.request_quiet ..)).trans (State.allocate_quiet ..)).trans
      (State.fitL1_quiet ..))
    split
    · exact s.setLine_quiet _
    · exact .refl s
  exact State.Quiet.iff ((a.trans (State.dropStrips_quiet ..)).trans (State.dirtyWords_quiet ..)) a

theorem State.sliceAccess_quiet (s : State) (q f first last : Nat) (store : Bool) (hint : Hint) (slot : Option Nat) :
    s.Quiet (s.sliceAccess q f first last store hint slot) := by
  unfold State.sliceAccess
  dsimp only
  generalize s.servingDie q f hint = q
  have a := ((State.Quiet.iff (c := s.passesBy q f hint = true) (.refl s) (s.sliceHas_quiet q f first last store hint slot)).trans
    (State.serve_quiet _ q f (if store then .geto else .gets) none first last)).trans (State.allocate_quiet _ q f hint slot)
  exact .iff (a.trans (State.dirtyWords_quiet ..)) a

/-- A scalar access through its L1 (R111). -/
theorem State.touchL1_quiet (s : State) (hid k n : Nat) (store : Bool) : s.Quiet (s.touchL1 hid k n store) := by
  unfold State.touchL1
  split
  · exact .refl s
  · exact s.l1Access_quiet ..

/-- The slices serve an atomic (R139). -/
theorem State.touchAmo_quiet (s : State) (hid : Nat) (b : BagItem) : s.Quiet (s.touchAmo hid b) := by
  unfold State.touchAmo
  split
  · exact .refl s
  · exact s.sliceAccess_quiet ..

/-! Atomics. -/

theorem State.readValue_lt (s : State) (l : List (List WEntry)) (k n : Nat) :
    (s.readValue l k n).1 < 2 ^ (8 * n) := by
  have := ofBytes_lt (((List.range n).map fun j => s.readByte l (k + j)).map (·.1))
  simpa [State.readValue] using this

theorem State.writeNow_setHart (s : State) (hid ino k n v va j : Nat) (h : Hart) :
    (s.setHart j h).writeNow hid ino k n v va = (s.writeNow hid ino k n v va).setHart j h := by
  unfold State.writeNow
  split
  · unfold State.arrive; dsimp only; split <;> rfl
  · rfl

theorem State.amo_updates (s : State) (op : AmoOp) (rd ra rb : XR) (w acq rel : Bool) (S : Scope)
    (new : Nat → Nat)
    (hn : ∀ o, o < 2 ^ (8 * (if w then 8 else 4)) →
      (amoResult 0 op none (if w then 8 else 4) o (s.getX rb).toNat (s.getX rd).toNat).1 = new o) :
    s.Updates (complete 4 (s.amo op rd ra rb w acq rel S)) rd ra w rel S new := by
  intro p hr hb ho hp hm hi hh hrel
  dsimp only
  have hva : s.addrOf ra 0 = (s.getX ra).toNat % 2 ^ 55 := by simp [State.addrOf]
  rw [hva] at hr ⊢
  have hw : s.releaseWait s s.drv.nextId ((s.getX ra).toNat % 2 ^ 55) (if rel then some S else none) true =
      .ok () := by
    unfold State.releaseWait
    cases rel with
    | false => rfl
    | true =>
      obtain ⟨h1, h2⟩ := hrel rfl
      cases S <;> simp [h1, h2, hm]
  have hold : (s.drv.hold && !p.attr.direct && (if rel then some S else none) != some .pool &&
      s.amoIdle p.key p.attr.cached) = false := by
    rcases hh with h | h | h <;> simp [h, Attr.direct]
  have hl : ∀ v, loadValue (if w then .b64 else .b32) v =
      if w then BitVec.ofNat 64 v else (BitVec.ofNat 32 v).signExtend 64 := by
    cases w <;> intro v
    · exact loadValue_b32 v
    · rfl
  have hf (o a b : Nat) : (amoResult 0 op none (if w then 8 else 4) o a b).2 ||| 0 = 0 := by simp [amoResult]
  unfold State.amo
  dsimp only
  rw [State.scalarAccess_of_reaches hr]
  dsimp only
  rw [hold]
  simp only [hb, ho, hp, hm, hi, hw, Bool.not_true, Bool.or_self,
    Bool.false_eq_true, ↓reduceIte, State.performAmo, amoUpdates, List.zip_cons_cons, List.zip_nil_right,
    List.foldl_cons, List.foldl_nil, Hart.deliver, hl]
  have ht (a : Act) : s.touchAmo s.cur (BagItem.of s.drv.nextId p (if w then 8 else 4)
      ((s.getX ra).toNat % 2 ^ 55) a none false acq) = s.touchAmo s.cur (BagItem.of s.drv.nextId p (if w then 8 else 4)
      ((s.getX ra).toNat % 2 ^ 55) (.rd .none) none false false) := rfl
  rw [ht]
  have q := s.touchAmo_quiet s.cur (BagItem.of s.drv.nextId p (if w then 8 else 4)
    ((s.getX ra).toNat % 2 ^ 55) (.rd .none) none false false)
  generalize s.touchAmo s.cur (BagItem.of s.drv.nextId p (if w then 8 else 4)
    ((s.getX ra).toNat % 2 ^ 55) (.rd .none) none false false) = e at q ⊢
  simp only [BagItem.of]
  rw [hn _ (State.readValue_lt ..), hf, State.writeNow_setHart, ← q.cur]
  have c (t : State) (h : Hart) (ht : t.cur = e.cur) : t.setHart e.cur h = t.setMe h := by rw [State.setMe, ht]
  rw [c _ _ (by simp [State.writeNow_cur])]
  have k (E : State) (v : Word) (h : E.me = e.bump.me) :
      E.Leaves (complete 4 (.ok (E.setMe (((e.bump.hart e.cur).orFlags 0).setX rd v)))) 4 (e.bump.me.setX rd v) := by
    have g := State.writes_goes E 4 rd v h
    rw [State.setX, h, ← h] at g
    rw [State.Leaves, h]
    rwa [h] at g
  exact k _ _ (by simp)

end Sys2Proof.Machine
end

