-- ==== Sys2Proof/Laws/Pack.lean ====
section
/-!
SUPPORT. Fields of packed words: a word whose fields lie apart gives each of them back.
-/
namespace Sys2Proof.Laws

/-- The bits of a field. -/
theorem fld_testBit (w lo n i : Nat) : (fld w lo n).testBit i = (decide (i < n) && w.testBit (lo + i)) := by
  simp [fld, Nat.testBit_mod_two_pow, Nat.testBit_div_two_pow, Nat.add_comm]

/-- Adding a value where the word has zeros sets those bits and no others. -/
theorem add_field_testBit {x v k n : Nat} (hz : fld x k n = 0) (hv : v < 2 ^ n) (i : Nat) :
    (x + v * 2 ^ k).testBit i = (x.testBit i || (decide (k ≤ i) && v.testBit (i - k))) := by
  have hx : x = 2 ^ k * (2 ^ n * (x / 2 ^ k / 2 ^ n)) + x % 2 ^ k := by
    have h1 := Nat.div_add_mod x (2 ^ k)
    have h2 := Nat.div_add_mod (x / 2 ^ k) (2 ^ n)
    simp only [fld] at hz
    rw [hz, Nat.add_zero] at h2
    rw [h2, h1]
  have hs : x + v * 2 ^ k = 2 ^ k * (2 ^ n * (x / 2 ^ k / 2 ^ n) + v) + x % 2 ^ k := by
    conv => lhs; rw [hx]
    rw [Nat.mul_add, Nat.mul_comm v]; omega
  have hlo : x % 2 ^ k < 2 ^ k := Nat.mod_lt _ (Nat.two_pow_pos k)
  conv => rhs; rw [hx]
  rw [hs, Nat.testBit_two_pow_mul_add _ hlo, Nat.testBit_two_pow_mul_add _ hlo]
  by_cases hk : i < k
  · simp [hk, Nat.not_le.mpr hk]
  · rw [if_neg hk, if_neg hk, Nat.testBit_two_pow_mul_add _ hv]
    have h0 := Nat.testBit_two_pow_mul_add (x / 2 ^ k / 2 ^ n) (Nat.two_pow_pos n) (i - k)
    rw [Nat.add_zero] at h0
    rw [h0]
    by_cases hn : i - k < n
    · simp [hn, Nat.not_lt.mp hk]
    · have : v.testBit (i - k) = false := Nat.testBit_lt_two_pow (Nat.lt_of_lt_of_le hv (Nat.pow_le_pow_right (by decide) (Nat.not_lt.mp hn)))
      simp [hn, this]

/-- Two ranges of bits, each a place and a width, have no bit in common. -/
def apart (a b : Nat × Nat) : Bool := decide (a.1 + a.2 ≤ b.1) || decide (b.1 + b.2 ≤ a.1)

/-- A layout: every field lies on zeros of the fixed bits and apart from the fields after it. -/
def layout (fixed : Nat) : List (Nat × Nat) → Bool
  | [] => true
  | r :: rs => fld fixed r.1 r.2 == 0 && rs.all (apart r) && layout fixed rs

/-- The values stand at the places of the layout, and fit. -/
def fits : List (Nat × Nat) → List (Nat × Nat) → Prop
  | f :: fs, r :: rs => f.2 = r.1 ∧ f.1 < 2 ^ r.2 ∧ fits fs rs
  | [], [] => True
  | _, _ => False

/-- A range apart from a field reads what it read before the field was added. -/
theorem fld_add_apart {F v k m : Nat} (hz : fld F k m = 0) (hv : v < 2 ^ m) {q : Nat × Nat}
    (hq : apart q (k, m) = true) : fld (F + v * 2 ^ k) q.1 q.2 = fld F q.1 q.2 := by
  apply Nat.eq_of_testBit_eq
  intro i
  rw [fld_testBit, fld_testBit, add_field_testBit hz hv]
  by_cases hi : i < q.2
  · have : (decide (k ≤ q.1 + i) && v.testBit (q.1 + i - k)) = false := by
      simp only [apart, Bool.or_eq_true, decide_eq_true_eq] at hq
      rcases hq with hq | hq
      · have : ¬ k ≤ q.1 + i := by omega
        simp [this]
      · have : v.testBit (q.1 + i - k) = false :=
          Nat.testBit_lt_two_pow (Nat.lt_of_lt_of_le hv (Nat.pow_le_pow_right (by decide) (by omega)))
        simp [this]
    simp [this]
  · simp [hi]

/-- The field that was added reads as its value. -/
theorem fld_add_self {F v k m : Nat} (hz : fld F k m = 0) (hv : v < 2 ^ m) : fld (F + v * 2 ^ k) k m = v := by
  apply Nat.eq_of_testBit_eq
  intro i
  have h0 : (fld F k m).testBit i = false := by rw [hz]; simp
  rw [fld_testBit] at h0
  rw [fld_testBit, add_field_testBit hz hv]
  by_cases hi : i < m
  · simp [hi] at h0
    simp [hi, h0]
  · have : v.testBit i = false :=
      Nat.testBit_lt_two_pow (Nat.lt_of_lt_of_le hv (Nat.pow_le_pow_right (by decide) (Nat.not_lt.mp hi)))
    simp [hi, this]

/-- What is apart stays laid out. -/
theorem layout_add {F v k m : Nat} (hz : fld F k m = 0) (hv : v < 2 ^ m) :
    ∀ {R : List (Nat × Nat)}, R.all (apart (k, m)) = true → layout F R = true → layout (F + v * 2 ^ k) R = true
  | [], _, _ => rfl
  | q :: _, ha, hl => by
    simp only [List.all_cons, Bool.and_eq_true] at ha
    simp only [layout, Bool.and_eq_true, beq_iff_eq] at hl ⊢
    have hq : apart q (k, m) = true := by
      have := ha.1
      simp only [apart, Bool.or_eq_true, decide_eq_true_eq] at this ⊢
      omega
    exact ⟨⟨(fld_add_apart hz hv hq).trans hl.1.1, hl.1.2⟩, layout_add hz hv ha.2 hl.2⟩

/-- A range that no field touches reads the fixed bits. -/
theorem pack_fixed {L R : List (Nat × Nat)} (lo n : Nat) {F : Nat} (hl : layout F R = true) (hf : fits L R)
    (ha : R.all (apart (lo, n)) = true) : fld (pack F L) lo n = fld F lo n := by
  induction R generalizing F L with
  | nil => cases L with
    | nil => rfl
    | cons => exact hf.elim
  | cons r rs ih =>
    cases L with
    | nil => exact hf.elim
    | cons f fs =>
      obtain ⟨hp, hv, hf⟩ := hf
      simp only [layout, Bool.and_eq_true, beq_iff_eq] at hl
      simp only [List.all_cons, Bool.and_eq_true] at ha
      have hs := ih (layout_add hl.1.1 hv hl.1.2 hl.2) hf ha.2
      show fld (pack (F + f.1 * 2 ^ f.2) fs) lo n = _
      rw [hp, hs]
      exact fld_add_apart hl.1.1 hv ha.1

/-- A field reads back. -/
theorem pack_field {L R : List (Nat × Nat)} {F : Nat} (hl : layout F R = true) (hf : fits L R) (j : Nat)
    {v lo n : Nat} (hv : L[j]? = some (v, lo)) (hr : R[j]? = some (lo, n)) : fld (pack F L) lo n = v := by
  induction R generalizing F L j with
  | nil => simp at hr
  | cons r rs ih =>
    cases L with
    | nil => exact hf.elim
    | cons f fs =>
      obtain ⟨hp, hb, hf⟩ := hf
      simp only [layout, Bool.and_eq_true, beq_iff_eq] at hl
      have hl' := layout_add hl.1.1 hb hl.1.2 hl.2
      have step : pack F (f :: fs) = pack (F + f.1 * 2 ^ r.1) fs := by rw [← hp]; rfl
      rw [step]
      cases j with
      | succ j => exact ih hl' hf j (by simpa using hv) (by simpa using hr)
      | zero =>
        simp only [List.getElem?_cons_zero, Option.some.injEq] at hv hr
        subst hv; subst hr
        rw [pack_fixed lo n hl' hf hl.1.2]
        exact fld_add_self hl.1.1 hb

/-- The word is no longer than its layout. -/
theorem pack_lt {L R : List (Nat × Nat)} {F N : Nat} (hl : layout F R = true) (hf : fits L R) (hF : F < 2 ^ N)
    (hR : R.all (fun r => decide (r.1 + r.2 ≤ N)) = true) : pack F L < 2 ^ N := by
  induction R generalizing F L with
  | nil => cases L with
    | nil => exact hF
    | cons => exact hf.elim
  | cons r rs ih =>
    cases L with
    | nil => exact hf.elim
    | cons f fs =>
      obtain ⟨hp, hb, hf⟩ := hf
      simp only [layout, Bool.and_eq_true, beq_iff_eq] at hl
      simp only [List.all_cons, Bool.and_eq_true, decide_eq_true_eq] at hR
      have step : pack F (f :: fs) = pack (F + f.1 * 2 ^ r.1) fs := by rw [← hp]; rfl
      rw [step]
      refine ih (layout_add hl.1.1 hb hl.1.2 hl.2) hf ?_ hR.2
      apply Nat.lt_pow_two_of_testBit
      intro i hi
      rw [add_field_testBit hl.1.1 hb, Nat.testBit_lt_two_pow (Nat.lt_of_lt_of_le hF (Nat.pow_le_pow_right (by decide) hi)),
        Nat.testBit_lt_two_pow (Nat.lt_of_lt_of_le hb (Nat.pow_le_pow_right (by decide) (by omega)))]
      simp

/-- A word, its fixed bits, its values and their places: what the decoder needs to know of a packed word. -/
structure Laid (F : Nat) (L R : List (Nat × Nat)) : Prop where
  lay : layout F R = true
  fit : fits L R

/-- The length that the first parcel gives. -/
theorem Laid.bits {F : Nat} {L R : List (Nat × Nat)} (k : Laid F L R) (n : Nat)
    (ha : R.all (apart (n - 16 + 13, 3)) = true) (hn : parcelBits (F / 2 ^ (n - 16)) = n) :
    parcelBits (pack F L / 2 ^ (n - 16)) = n := by
  have e : ∀ x : Nat, fld (x / 2 ^ (n - 16)) 13 3 = fld x (n - 16 + 13) 3 := by
    intro x; simp only [fld, Nat.div_div_eq_div_mul, Nat.pow_add]
  have h := pack_fixed (n - 16 + 13) 3 k.lay k.fit ha
  rw [parcelBits, e] at hn ⊢
  rw [h, hn]

theorem Laid.lt {F : Nat} {L R : List (Nat × Nat)} (k : Laid F L R) (n : Nat) (hF : F < 2 ^ n)
    (hR : R.all (fun r => decide (r.1 + r.2 ≤ n)) = true) : pack F L < 2 ^ n := pack_lt k.lay k.fit hF hR

theorem Laid.fixed {F : Nat} {L R : List (Nat × Nat)} (k : Laid F L R) (lo n c : Nat)
    (ha : (R.all (apart (lo, n)) && fld F lo n == c) = true) : fld (pack F L) lo n = c := by
  simp only [Bool.and_eq_true, beq_iff_eq] at ha
  rw [pack_fixed lo n k.lay k.fit ha.1, ha.2]

theorem Laid.val {F : Nat} {L R : List (Nat × Nat)} (k : Laid F L R) (j : Nat) {v lo n : Nat}
    (hv : L[j]? = some (v, lo)) (hr : R[j]? = some (lo, n)) : fld (pack F L) lo n = v :=
  pack_field k.lay k.fit j hv hr

/-- Fixed bits add up outside the fields. -/
theorem pack_add (F v : Nat) : ∀ L : List (Nat × Nat), pack (F + v) L = pack F L + v
  | [] => rfl
  | f :: fs => by
    show pack (F + v + f.1 * 2 ^ f.2) fs = pack (F + f.1 * 2 ^ f.2) fs + v
    rw [Nat.add_right_comm, pack_add]

/-- A last field at the lowest bits is part of the fixed bits. -/
theorem pack_last (F v : Nat) (L : List (Nat × Nat)) : pack F (L ++ [(v, 0)]) = pack (F + v) L := by
  rw [pack_add, pack, List.foldl_append]
  show pack F L + v * 2 ^ 0 = _
  rw [Nat.pow_zero, Nat.mul_one]

/-- An operand from its field. -/
theorem fin_at {k w lo m : Nat} [NeZero m] {x : Fin m} (hm : m = 2 ^ k) (h : fld w lo k = x.val) :
    Fin.ofNat m (w / 2 ^ lo) = x := by
  apply Fin.ext
  subst hm
  exact h

theorem fin_at0 {k w m : Nat} [NeZero m] {x : Fin m} (hm : m = 2 ^ k) (h : fld w 0 k = x.val) :
    Fin.ofNat m w = x := by
  have := fin_at hm h
  simpa using this

theorem fin_fld {w lo k m : Nat} [NeZero m] {x : Fin m} (h : fld w lo k = x.val) : Fin.ofNat m (fld w lo k) = x := by
  rw [h]
  apply Fin.ext
  exact Nat.mod_eq_of_lt x.isLt

theorem bv_at0 {w k : Nat} {x : BitVec k} (h : fld w 0 k = x.toNat) : BitVec.ofNat k w = x :=
  BitVec.eq_of_toNat_eq (by simpa [fld] using h)

theorem bool_at {v : Nat} {b : Bool} (h : v = b.toNat) : (v == 1) = b := by subst h; cases b <;> rfl

theorem bool_lt (b : Bool) : b.toNat < 2 ^ 1 := by cases b <;> decide

/-! Codes read back. -/

theorem Scope_lt (c : Scope) : c.code < 2 ^ 2 := by cases c <;> decide

theorem Scope_at {v : Nat} {c : Scope} (h : v = c.code) : Scope.ofCode v = c := by subst h; cases c <;> rfl

theorem Tag_lt (c : Tag) : c.code < 2 ^ 5 := by cases c <;> decide

theorem Tag_at {v : Nat} {c : Tag} (h : v = c.code) : Tag.ofCode v = some c := by subst h; cases c <;> rfl

theorem Ew_lt (c : Ew) : c.code < 2 ^ 3 := by cases c <;> decide

theorem Ew_at {v : Nat} {c : Ew} (h : v = c.code) : Ew.ofCode v = some c := by subst h; cases c <;> rfl

theorem LdSize_lt (c : LdSize) : c.code < 2 ^ 3 := by cases c <;> decide

theorem LdSize_at {v : Nat} {c : LdSize} (h : v = c.code) : LdSize.ofCode v = some c := by subst h; cases c <;> rfl

theorem StSize_lt (c : StSize) : c.code < 2 ^ 2 := by cases c <;> decide

theorem StSize_at {v : Nat} {c : StSize} (h : v = c.code) : StSize.ofCode v = c := by subst h; cases c <;> rfl

theorem Cond_lt (c : Cond) : c.code < 2 ^ 3 := by cases c <;> decide

theorem Cond_at {v : Nat} {c : Cond} (h : v = c.code) : Cond.ofCode v = some c := by subst h; cases c <;> rfl

theorem ScanOp_lt (c : ScanOp) : c.code < 2 ^ 2 := by cases c <;> decide

theorem ScanOp_at {v : Nat} {c : ScanOp} (h : v = c.code) : ScanOp.ofCode v = c := by subst h; cases c <;> rfl

theorem VamoOp_lt (c : VamoOp) : c.code < 2 ^ 3 := by cases c <;> decide

theorem VamoOp_at {v : Nat} {c : VamoOp} (h : v = c.code) : VamoOp.ofCode v = some c := by subst h; cases c <;> rfl

theorem VMode_lt (c : VMode) : c.code < 2 ^ 2 := by cases c <;> decide

theorem VMode_at {v : Nat} {c : VMode} (h : v = c.code) : VMode.ofCode v = c := by subst h; cases c <;> rfl

theorem Hint_lt (c : Hint) : c.code < 2 ^ 2 := by cases c <;> decide

theorem Hint_at {v : Nat} {c : Hint} (h : v = c.code) : Hint.ofCode v = c := by subst h; cases c <;> rfl

theorem VKind_lt (c : VKind) : c.code < 2 ^ 2 := by cases c <;> decide

theorem VKind_at {v : Nat} {c : VKind} (h : v = c.code) : VKind.ofCode v = c := by subst h; cases c <;> rfl

theorem TileRef_lt (c : TileRef) : c.code < 2 ^ 3 := by cases c <;> decide

theorem TileRef_at {v : Nat} {c : TileRef} (h : v = c.code) : TileRef.ofCode v = some c := by subst h; cases c <;> rfl

theorem EvOp_lt (c : EvOp) : c.code < 2 ^ 9 := by
  cases c with
  | vcmp n => cases n <;> decide
  | vscan o => cases o <;> decide
  | vscanSeg o => cases o <;> decide
  | _ => decide

theorem EvOp_lt8 (c : EvOp) : c.code < 2 ^ 8 := by
  cases c with
  | vcmp n => cases n <;> decide
  | vscan o => cases o <;> decide
  | vscanSeg o => cases o <;> decide
  | _ => decide

theorem EvOp_at {v : Nat} {c : EvOp} (h : v = c.code) : EvOp.ofCode v = some c := by
  subst h
  cases c with
  | vcmp n => cases n <;> rfl
  | vscan o => cases o <;> rfl
  | vscanSeg o => cases o <;> rfl
  | _ => rfl

theorem fin3_at {v : Nat} {c : Fin 3} (h : v = c.val) : fin3OfCode v = some c := by
  subst h
  match c with
  | 0 => rfl
  | 1 => rfl
  | 2 => rfl

theorem fin3_lt (c : Fin 3) : c.val < 2 ^ 2 := Nat.lt_of_lt_of_le c.isLt (by decide)

end Sys2Proof.Laws
end

