-- ==== Sys2Proof/Laws/PerInstr.lean ====
section
/-!
SUPPORT. Of each instruction: its word has the length that its first parcel gives, and the decoder's fields of that
word are the instruction.
-/
namespace Sys2Proof.Laws.Encoding

/-- A well-formed instruction's written word has n bits, its first parcel says so (R234), and the operand fields that
the decoder takes from it are those of the instruction. -/
def Statement (i : Instr) : Prop :=
  i.wellFormed = true → ∀ n w, i.encode = some (n, w) →
    w < 2 ^ n ∧ parcelBits (w / 2 ^ (n - 16)) = n ∧ fieldsOf n w = some i

theorem ne_of_bne {n : Nat} {a b : BitVec n} (h : (a != b) = true) : a ≠ b := by simpa using h

theorem and_l {a b : Bool} (h : (a && b) = true) : a = true := (Bool.and_eq_true a b ▸ h).1

theorem deviceReset x0 x1 x2 : Statement (.deviceReset x0 x1 x2) := by
  intro _ _ _ e; cases e

theorem hostLinkTrain x0 x1 : Statement (.hostLinkTrain x0 x1) := by
  intro _ _ _ e; cases e

theorem fabricIdAssign x0 : Statement (.fabricIdAssign x0) := by
  intro _ _ _ e; cases e

theorem flitCrcError x0 x1 x2 : Statement (.flitCrcError x0 x1 x2) := by
  intro _ _ _ e; cases e

theorem mbawynLaneSpare x0 : Statement (.mbawynLaneSpare x0) := by
  intro _ _ _ e; cases e

theorem linkRetrainDone x0 : Statement (.linkRetrainDone x0) := by
  intro _ _ _ e; cases e

theorem linkRetire x0 : Statement (.linkRetire x0) := by
  intro _ _ _ e; cases e

theorem filterEntryFree x0 : Statement (.filterEntryFree x0) := by
  intro _ _ _ e; cases e

theorem filterProbeTimeout x0 : Statement (.filterProbeTimeout x0) := by
  intro _ _ _ e; cases e

theorem deviceFenced : Statement (.deviceFenced) := by
  intro _ _ _ e; cases e

theorem fenceCleared : Statement (.fenceCleared) := by
  intro _ _ _ e; cases e

theorem hbmChannelRetrain x0 x1 : Statement (.hbmChannelRetrain x0 x1) := by
  intro _ _ _ e; cases e

theorem hbmRetrainDone x0 x1 : Statement (.hbmRetrainDone x0 x1) := by
  intro _ _ _ e; cases e

theorem coreFail x0 : Statement (.coreFail x0) := by
  intro _ _ _ e; cases e

theorem coreQuiesce x0 : Statement (.coreQuiesce x0) := by
  intro _ _ _ e; cases e

theorem poolPortDown x0 : Statement (.poolPortDown x0) := by
  intro _ _ _ e; cases e

theorem poolRerouteDone x0 x1 : Statement (.poolRerouteDone x0 x1) := by
  intro _ _ _ e; cases e

theorem rerouteTimeout x0 : Statement (.rerouteTimeout x0) := by
  intro _ _ _ e; cases e

theorem poolPathReturn x0 : Statement (.poolPathReturn x0) := by
  intro _ _ _ e; cases e

theorem reattachCheckDone x0 x1 : Statement (.reattachCheckDone x0 x1) := by
  intro _ _ _ e; cases e

theorem quarantineWritebackDone x0 : Statement (.quarantineWritebackDone x0) := by
  intro _ _ _ e; cases e

theorem graceExpiry x0 : Statement (.graceExpiry x0) := by
  intro _ _ _ e; cases e

theorem bisnp x0 x1 x2 x3 : Statement (.bisnp x0 x1 x2 x3) := by
  intro _ _ _ e; cases e

theorem poolWriteAck x0 : Statement (.poolWriteAck x0) := by
  intro _ _ _ e; cases e

theorem dynamicCapacityRelease x0 : Statement (.dynamicCapacityRelease x0) := by
  intro _ _ _ e; cases e

theorem attestationRequest x0 x1 : Statement (.attestationRequest x0 x1) := by
  intro _ _ _ e; cases e

theorem gets x0 x1 x2 x3 : Statement (.gets x0 x1 x2 x3) := by
  intro _ _ _ e; cases e

theorem geto x0 x1 x2 x3 : Statement (.geto x0 x1 x2 x3) := by
  intro _ _ _ e; cases e

theorem upg x0 x1 x2 x3 : Statement (.upg x0 x1 x2 x3) := by
  intro _ _ _ e; cases e

theorem putd x0 x1 x2 : Statement (.putd x0 x1 x2) := by
  intro _ _ _ e; cases e

theorem pinv x0 x1 : Statement (.pinv x0 x1) := by
  intro _ _ _ e; cases e

theorem pdwn x0 x1 : Statement (.pdwn x0 x1) := by
  intro _ _ _ e; cases e

theorem data x0 x1 : Statement (.data x0 x1) := by
  intro _ _ _ e; cases e

theorem grant x0 x1 : Statement (.grant x0 x1) := by
  intro _ _ _ e; cases e

theorem ack x0 x1 : Statement (.ack x0 x1) := by
  intro _ _ _ e; cases e

theorem absent x0 x1 : Statement (.absent x0 x1) := by
  intro _ _ _ e; cases e

theorem probeTimeout x0 x1 : Statement (.probeTimeout x0 x1) := by
  intro _ _ _ e; cases e

theorem controlTimeout x0 : Statement (.controlTimeout x0) := by
  intro _ _ _ e; cases e

theorem patrolScrub x0 x1 : Statement (.patrolScrub x0 x1) := by
  intro _ _ _ e; cases e

theorem roustaboutWriteback x0 x1 : Statement (.roustaboutWriteback x0 x1) := by
  intro _ _ _ e; cases e

theorem powerCapUpdate x0 x1 : Statement (.powerCapUpdate x0 x1) := by
  intro _ _ _ e; cases e

theorem gatingMarkTimeout x0 x1 : Statement (.gatingMarkTimeout x0 x1) := by
  intro _ _ _ e; cases e

theorem l2WayGate x0 x1 : Statement (.l2WayGate x0 x1) := by
  intro _ _ _ e; cases e

theorem scratchpadGate x0 : Statement (.scratchpadGate x0) := by
  intro _ _ _ e; cases e

theorem wakeComplete x0 x1 x2 : Statement (.wakeComplete x0 x1 x2) := by
  intro _ _ _ e; cases e

theorem gangPlacement x0 : Statement (.gangPlacement x0) := by
  intro _ _ _ e; cases e

theorem gangReserve x0 : Statement (.gangReserve x0) := by
  intro _ _ _ e; cases e

theorem workSteal x0 : Statement (.workSteal x0) := by
  intro _ _ _ e; cases e

theorem arrivalPreemption x0 x1 : Statement (.arrivalPreemption x0 x1) := by
  intro _ _ _ e; cases e

theorem timeSliceExpiry x0 x1 : Statement (.timeSliceExpiry x0 x1) := by
  intro _ _ _ e; cases e

theorem preemption x0 x1 : Statement (.preemption x0 x1) := by
  intro _ _ _ e; cases e

theorem rePlacement x0 : Statement (.rePlacement x0) := by
  intro _ _ _ e; cases e

theorem pendingTableFit x0 x1 : Statement (.pendingTableFit x0 x1) := by
  intro _ _ _ e; cases e

theorem interruptDelivery x0 x1 : Statement (.interruptDelivery x0 x1) := by
  intro _ _ _ e; cases e

theorem deferredFaultRaise x0 : Statement (.deferredFaultRaise x0) := by
  intro _ _ _ e; cases e

theorem registerSpill x0 x1 : Statement (.registerSpill x0 x1) := by
  intro _ _ _ e; cases e

theorem memoryRead x0 x1 : Statement (.memoryRead x0 x1) := by
  intro _ _ _ e; cases e

theorem drain x0 x1 : Statement (.drain x0 x1) := by
  intro _ _ _ e; cases e

theorem ticket x0 : Statement (.ticket x0) := by
  intro _ _ _ e; cases e

theorem engineChunk x0 x1 x2 : Statement (.engineChunk x0 x1 x2) := by
  intro _ _ _ e; cases e

theorem stripLand x0 x1 : Statement (.stripLand x0 x1) := by
  intro _ _ _ e; cases e

theorem engineMigRetry x0 x1 : Statement (.engineMigRetry x0 x1) := by
  intro _ _ _ e; cases e

theorem waitTimeout x0 : Statement (.waitTimeout x0) := by
  intro _ _ _ e; cases e

theorem pcSample x0 x1 : Statement (.pcSample x0 x1) := by
  intro _ _ _ e; cases e

theorem lqdbDoorbell x0 x1 : Statement (.lqdbDoorbell x0 x1) := by
  intro _ _ _ e; cases e

theorem lqbaseWrite x0 x1 : Statement (.lqbaseWrite x0 x1) := by
  intro _ _ _ e; cases e

theorem lqctlEnable x0 x1 : Statement (.lqctlEnable x0 x1) := by
  intro _ _ _ e; cases e

theorem lqctlRst x0 x1 : Statement (.lqctlRst x0 x1) := by
  intro _ _ _ e; cases e

theorem packetFetch x0 : Statement (.packetFetch x0) := by
  intro _ _ _ e; cases e

theorem waitPacketComplete x0 : Statement (.waitPacketComplete x0) := by
  intro _ _ _ e; cases e

theorem counterFreeze x0 : Statement (.counterFreeze x0) := by
  intro _ _ _ e; cases e

theorem fenceRelease x0 : Statement (.fenceRelease x0) := by
  intro _ _ _ e; cases e

theorem ctxdropUnbind x0 : Statement (.ctxdropUnbind x0) := by
  intro _ _ _ e; cases e

theorem pregionAttach x0 x1 : Statement (.pregionAttach x0 x1) := by
  intro _ _ _ e; cases e

theorem identityCheckDone x0 x1 : Statement (.identityCheckDone x0 x1) := by
  intro _ _ _ e; cases e

theorem identityCheckAbandon x0 : Statement (.identityCheckAbandon x0) := by
  intro _ _ _ e; cases e

theorem pregionFree x0 x1 : Statement (.pregionFree x0 x1) := by
  intro _ _ _ e; cases e

theorem fabstRejoin : Statement (.fabstRejoin) := by
  intro _ _ _ e; cases e

theorem swint x0 : Statement (.swint x0) := by
  intro _ _ _ e; cases e

theorem tsctlWrite x0 x1 : Statement (.tsctlWrite x0 x1) := by
  intro _ _ _ e; cases e

theorem tspartWrite x0 x1 : Statement (.tspartWrite x0 x1) := by
  intro _ _ _ e; cases e

theorem debugSetWrite x0 x1 : Statement (.debugSetWrite x0 x1) := by
  intro _ _ _ e; cases e

theorem dbghartHalt x0 : Statement (.dbghartHalt x0) := by
  intro _ _ _ e; cases e

theorem dbgdatRead : Statement (.dbgdatRead) := by
  intro _ _ _ e; cases e

theorem dbgdatWrite x0 : Statement (.dbgdatWrite x0) := by
  intro _ _ _ e; cases e

theorem trctlWrite x0 x1 : Statement (.trctlWrite x0 x1) := by
  intro _ _ _ e; cases e

theorem hubRegisterWrite x0 x1 x2 x3 : Statement (.hubRegisterWrite x0 x1 x2 x3) := by
  intro _ _ _ e; cases e

theorem xinvComplete x0 : Statement (.xinvComplete x0) := by
  intro _ _ _ e; cases e

theorem cAdd d b : Statement (.cAdd d b) := by
  rintro hwf _ _ ⟨⟩
  have hk : Laid 0x0 [(d.val, 5), (b.val, 0)] [(5, 5), (0, 5)] := ⟨by decide, rfl, d.isLt, rfl, b.isLt, trivial⟩
  exact ⟨hk.lt 16 (by decide) rfl, hk.bits 16 rfl rfl, by
    simp only [fieldsOf, fields16, hk.fixed 13 3 0 rfl, hk.fixed 10 3 0 rfl, fin_at (by rfl) (hk.val 0 rfl rfl),
        fin_at0 (by rfl) (hk.val 1 rfl rfl)]⟩

theorem cSub d b : Statement (.cSub d b) := by
  rintro hwf _ _ ⟨⟩
  have hk : Laid 0x400 [(d.val, 5), (b.val, 0)] [(5, 5), (0, 5)] := ⟨by decide, rfl, d.isLt, rfl, b.isLt, trivial⟩
  exact ⟨hk.lt 16 (by decide) rfl, hk.bits 16 rfl rfl, by
    simp only [fieldsOf, fields16, hk.fixed 13 3 0 rfl, hk.fixed 10 3 1 rfl, fin_at (by rfl) (hk.val 0 rfl rfl),
        fin_at0 (by rfl) (hk.val 1 rfl rfl)]⟩

theorem cAnd d b : Statement (.cAnd d b) := by
  rintro hwf _ _ ⟨⟩
  have hk : Laid 0x800 [(d.val, 5), (b.val, 0)] [(5, 5), (0, 5)] := ⟨by decide, rfl, d.isLt, rfl, b.isLt, trivial⟩
  exact ⟨hk.lt 16 (by decide) rfl, hk.bits 16 rfl rfl, by
    simp only [fieldsOf, fields16, hk.fixed 13 3 0 rfl, hk.fixed 10 3 2 rfl, fin_at (by rfl) (hk.val 0 rfl rfl),
        fin_at0 (by rfl) (hk.val 1 rfl rfl)]⟩

theorem cOr d b : Statement (.cOr d b) := by
  rintro hwf _ _ ⟨⟩
  have hk : Laid 0xC00 [(d.val, 5), (b.val, 0)] [(5, 5), (0, 5)] := ⟨by decide, rfl, d.isLt, rfl, b.isLt, trivial⟩
  exact ⟨hk.lt 16 (by decide) rfl, hk.bits 16 rfl rfl, by
    simp only [fieldsOf, fields16, hk.fixed 13 3 0 rfl, hk.fixed 10 3 3 rfl, fin_at (by rfl) (hk.val 0 rfl rfl),
        fin_at0 (by rfl) (hk.val 1 rfl rfl)]⟩

theorem cXor d b : Statement (.cXor d b) := by
  rintro hwf _ _ ⟨⟩
  have hk : Laid 0x1000 [(d.val, 5), (b.val, 0)] [(5, 5), (0, 5)] := ⟨by decide, rfl, d.isLt, rfl, b.isLt, trivial⟩
  exact ⟨hk.lt 16 (by decide) rfl, hk.bits 16 rfl rfl, by
    simp only [fieldsOf, fields16, hk.fixed 13 3 0 rfl, hk.fixed 10 3 4 rfl, fin_at (by rfl) (hk.val 0 rfl rfl),
        fin_at0 (by rfl) (hk.val 1 rfl rfl)]⟩

theorem cMv d b : Statement (.cMv d b) := by
  rintro hwf _ _ ⟨⟩
  have hk : Laid 0x1400 [(d.val, 5), (b.val, 0)] [(5, 5), (0, 5)] := ⟨by decide, rfl, d.isLt, rfl, b.isLt, trivial⟩
  exact ⟨hk.lt 16 (by decide) rfl, hk.bits 16 rfl rfl, by
    simp only [fieldsOf, fields16, hk.fixed 13 3 0 rfl, hk.fixed 10 3 5 rfl, fin_at (by rfl) (hk.val 0 rfl rfl),
        fin_at0 (by rfl) (hk.val 1 rfl rfl)]⟩

theorem cJlr d b : Statement (.cJlr d b) := by
  rintro hwf _ _ ⟨⟩
  have hk : Laid 0x1800 [(d.val, 5), (b.val, 0)] [(5, 5), (0, 5)] := ⟨by decide, rfl, d.isLt, rfl, b.isLt, trivial⟩
  exact ⟨hk.lt 16 (by decide) rfl, hk.bits 16 rfl rfl, by
    simp only [fieldsOf, fields16, hk.fixed 13 3 0 rfl, hk.fixed 10 3 6 rfl, fin_at (by rfl) (hk.val 0 rfl rfl),
        fin_at0 (by rfl) (hk.val 1 rfl rfl)]⟩

theorem cAddi d i : Statement (.cAddi d i) := by
  rintro hwf _ _ ⟨⟩
  have hk : Laid 0x2000 [(d.val, 5), (i.toNat, 0)] [(5, 5), (0, 5)] := ⟨by decide, rfl, d.isLt, rfl, i.isLt, trivial⟩
  exact ⟨hk.lt 16 (by decide) rfl, hk.bits 16 rfl rfl, by
    simp only [fieldsOf, fields16, hk.fixed 13 3 1 rfl, hk.fixed 10 3 0 rfl, fin_at (by rfl) (hk.val 0 rfl rfl),
        bv_at0 (hk.val 1 rfl rfl)]⟩

theorem cAddiX0 d i : Statement (.cAddiX0 d i) := by
  rintro hwf _ _ ⟨⟩
  have hk : Laid 0x2400 [(d.val, 5), (i.toNat, 0)] [(5, 5), (0, 5)] := ⟨by decide, rfl, d.isLt, rfl, i.isLt, trivial⟩
  exact ⟨hk.lt 16 (by decide) rfl, hk.bits 16 rfl rfl, by
    simp only [fieldsOf, fields16, hk.fixed 13 3 1 rfl, hk.fixed 10 3 1 rfl, fin_at (by rfl) (hk.val 0 rfl rfl),
        bv_at0 (hk.val 1 rfl rfl)]⟩

theorem cShli d i : Statement (.cShli d i) := by
  rintro hwf _ _ ⟨⟩
  have hk : Laid 0x2800 [(d.val, 5), (i.toNat, 0)] [(5, 5), (0, 5)] := ⟨by decide, rfl, d.isLt, rfl, i.isLt, trivial⟩
  exact ⟨hk.lt 16 (by decide) rfl, hk.bits 16 rfl rfl, by
    simp only [fieldsOf, fields16, hk.fixed 13 3 1 rfl, hk.fixed 10 3 2 rfl, fin_at (by rfl) (hk.val 0 rfl rfl),
        bv_at0 (hk.val 1 rfl rfl)]⟩

theorem cShri d i : Statement (.cShri d i) := by
  rintro hwf _ _ ⟨⟩
  have hk : Laid 0x2C00 [(d.val, 5), (i.toNat, 0)] [(5, 5), (0, 5)] := ⟨by decide, rfl, d.isLt, rfl, i.isLt, trivial⟩
  exact ⟨hk.lt 16 (by decide) rfl, hk.bits 16 rfl rfl, by
    simp only [fieldsOf, fields16, hk.fixed 13 3 1 rfl, hk.fixed 10 3 3 rfl, fin_at (by rfl) (hk.val 0 rfl rfl),
        bv_at0 (hk.val 1 rfl rfl)]⟩

theorem cSari d i : Statement (.cSari d i) := by
  rintro hwf _ _ ⟨⟩
  have hk : Laid 0x3000 [(d.val, 5), (i.toNat, 0)] [(5, 5), (0, 5)] := ⟨by decide, rfl, d.isLt, rfl, i.isLt, trivial⟩
  exact ⟨hk.lt 16 (by decide) rfl, hk.bits 16 rfl rfl, by
    simp only [fieldsOf, fields16, hk.fixed 13 3 1 rfl, hk.fixed 10 3 4 rfl, fin_at (by rfl) (hk.val 0 rfl rfl),
        bv_at0 (hk.val 1 rfl rfl)]⟩

theorem cAndi d i : Statement (.cAndi d i) := by
  rintro hwf _ _ ⟨⟩
  have hk : Laid 0x3400 [(d.val, 5), (i.toNat, 0)] [(5, 5), (0, 5)] := ⟨by decide, rfl, d.isLt, rfl, i.isLt, trivial⟩
  exact ⟨hk.lt 16 (by decide) rfl, hk.bits 16 rfl rfl, by
    simp only [fieldsOf, fields16, hk.fixed 13 3 1 rfl, hk.fixed 10 3 5 rfl, fin_at (by rfl) (hk.val 0 rfl rfl),
        bv_at0 (hk.val 1 rfl rfl)]⟩

theorem cLd64 d a o : Statement (.cLd64 d a o) := by
  rintro hwf _ _ ⟨⟩
  have hk : Laid 0x4000 [(d.val, 8), (a.val, 3), (o.toNat, 0)] [(8, 5), (3, 5), (0, 3)] := ⟨by decide, rfl, d.isLt,
      rfl, a.isLt, rfl, o.isLt, trivial⟩
  exact ⟨hk.lt 16 (by decide) rfl, hk.bits 16 rfl rfl, by
    simp only [fieldsOf, fields16, hk.fixed 13 3 2 rfl, fin_at (by rfl) (hk.val 0 rfl rfl),
        fin_at (by rfl) (hk.val 1 rfl rfl), bv_at0 (hk.val 2 rfl rfl)]⟩

theorem cSt64 s a o : Statement (.cSt64 s a o) := by
  rintro hwf _ _ ⟨⟩
  have hk : Laid 0x6000 [(s.val, 8), (a.val, 3), (o.toNat, 0)] [(8, 5), (3, 5), (0, 3)] := ⟨by decide, rfl, s.isLt,
      rfl, a.isLt, rfl, o.isLt, trivial⟩
  exact ⟨hk.lt 16 (by decide) rfl, hk.bits 16 rfl rfl, by
    simp only [fieldsOf, fields16, hk.fixed 13 3 3 rfl, fin_at (by rfl) (hk.val 0 rfl rfl),
        fin_at (by rfl) (hk.val 1 rfl rfl), bv_at0 (hk.val 2 rfl rfl)]⟩

theorem cBeq a o : Statement (.cBeq a o) := by
  rintro hwf _ _ ⟨⟩
  have hk : Laid 0x8000 [(a.val, 7), (o.toNat, 0)] [(7, 5), (0, 7)] := ⟨by decide, rfl, a.isLt, rfl, o.isLt, trivial⟩
  exact ⟨hk.lt 16 (by decide) rfl, hk.bits 16 rfl rfl, by
    simp only [fieldsOf, fields16, hk.fixed 13 3 4 rfl, hk.fixed 12 1 0 rfl, fin_at (by rfl) (hk.val 0 rfl rfl),
        bv_at0 (hk.val 1 rfl rfl), ↓reduceIte]⟩

theorem cBne a o : Statement (.cBne a o) := by
  rintro hwf _ _ ⟨⟩
  have hk : Laid 0x9000 [(a.val, 7), (o.toNat, 0)] [(7, 5), (0, 7)] := ⟨by decide, rfl, a.isLt, rfl, o.isLt, trivial⟩
  exact ⟨hk.lt 16 (by decide) rfl, hk.bits 16 rfl rfl, by
    simp only [fieldsOf, fields16, hk.fixed 13 3 4 rfl, hk.fixed 12 1 1 rfl, fin_at (by rfl) (hk.val 0 rfl rfl),
        bv_at0 (hk.val 1 rfl rfl), Nat.one_ne_zero, ↓reduceIte]⟩

theorem cJ o : Statement (.cJ o) := by
  rintro hwf _ _ ⟨⟩
  have hk : Laid 0xA000 [(o.toNat, 0)] [(0, 13)] := ⟨by decide, rfl, o.isLt, trivial⟩
  have h0 : fld (pack 0xA000 [(o.toNat, 0)]) 0 13 ≠ 0 := by
    rw [hk.val 0 rfl rfl]
    intro e
    exact ne_of_bne hwf (BitVec.eq_of_toNat_eq (y := 0) e)
  exact ⟨hk.lt 16 (by decide) rfl, hk.bits 16 rfl rfl, by
    simp only [fieldsOf, fields16, hk.fixed 13 3 5 rfl, h0, bv_at0 (hk.val 0 rfl rfl), ↓reduceIte]⟩

theorem cNop : Statement (.cNop) := by
  rintro hwf _ _ ⟨⟩
  have hk : Laid 0xA000 [] [] := ⟨rfl, trivial⟩
  exact ⟨hk.lt 16 (by decide) rfl, hk.bits 16 rfl rfl, by
    simp only [fieldsOf, fields16, hk.fixed 13 3 5 rfl, hk.fixed 0 13 0 rfl, ↓reduceIte]⟩

theorem add d a b : Statement (.add d a b) := by
  rintro hwf _ _ ⟨⟩
  have hk : Laid 0xC1000000 [(d.val, 19), (a.val, 14), (b.val, 9)] [(19, 5), (14, 5), (9, 5)] := ⟨by decide, rfl,
      d.isLt, rfl, a.isLt, rfl, b.isLt, trivial⟩
  exact ⟨hk.lt 32 (by decide) rfl, hk.bits 32 rfl rfl, by
    simp only [fieldsOf, fields32, fieldsIntReg, hk.fixed 24 5 1 rfl, hk.fixed 0 9 0 rfl,
        fin_at (by rfl) (hk.val 0 rfl rfl), fin_at (by rfl) (hk.val 1 rfl rfl), fin_at (by rfl) (hk.val 2 rfl rfl)]⟩

theorem sub d a b : Statement (.sub d a b) := by
  rintro hwf _ _ ⟨⟩
  have hk : Laid 0xC1000001 [(d.val, 19), (a.val, 14), (b.val, 9)] [(19, 5), (14, 5), (9, 5)] := ⟨by decide, rfl,
      d.isLt, rfl, a.isLt, rfl, b.isLt, trivial⟩
  exact ⟨hk.lt 32 (by decide) rfl, hk.bits 32 rfl rfl, by
    simp only [fieldsOf, fields32, fieldsIntReg, hk.fixed 24 5 1 rfl, hk.fixed 0 9 1 rfl,
        fin_at (by rfl) (hk.val 0 rfl rfl), fin_at (by rfl) (hk.val 1 rfl rfl), fin_at (by rfl) (hk.val 2 rfl rfl)]⟩

theorem and d a b : Statement (.and d a b) := by
  rintro hwf _ _ ⟨⟩
  have hk : Laid 0xC1000002 [(d.val, 19), (a.val, 14), (b.val, 9)] [(19, 5), (14, 5), (9, 5)] := ⟨by decide, rfl,
      d.isLt, rfl, a.isLt, rfl, b.isLt, trivial⟩
  exact ⟨hk.lt 32 (by decide) rfl, hk.bits 32 rfl rfl, by
    simp only [fieldsOf, fields32, fieldsIntReg, hk.fixed 24 5 1 rfl, hk.fixed 0 9 2 rfl,
        fin_at (by rfl) (hk.val 0 rfl rfl), fin_at (by rfl) (hk.val 1 rfl rfl), fin_at (by rfl) (hk.val 2 rfl rfl)]⟩

theorem or d a b : Statement (.or d a b) := by
  rintro hwf _ _ ⟨⟩
  have hk : Laid 0xC1000003 [(d.val, 19), (a.val, 14), (b.val, 9)] [(19, 5), (14, 5), (9, 5)] := ⟨by decide, rfl,
      d.isLt, rfl, a.isLt, rfl, b.isLt, trivial⟩
  exact ⟨hk.lt 32 (by decide) rfl, hk.bits 32 rfl rfl, by
    simp only [fieldsOf, fields32, fieldsIntReg, hk.fixed 24 5 1 rfl, hk.fixed 0 9 3 rfl,
        fin_at (by rfl) (hk.val 0 rfl rfl), fin_at (by rfl) (hk.val 1 rfl rfl), fin_at (by rfl) (hk.val 2 rfl rfl)]⟩

theorem xor d a b : Statement (.xor d a b) := by
  rintro hwf _ _ ⟨⟩
  have hk : Laid 0xC1000004 [(d.val, 19), (a.val, 14), (b.val, 9)] [(19, 5), (14, 5), (9, 5)] := ⟨by decide, rfl,
      d.isLt, rfl, a.isLt, rfl, b.isLt, trivial⟩
  exact ⟨hk.lt 32 (by decide) rfl, hk.bits 32 rfl rfl, by
    simp only [fieldsOf, fields32, fieldsIntReg, hk.fixed 24 5 1 rfl, hk.fixed 0 9 4 rfl,
        fin_at (by rfl) (hk.val 0 rfl rfl), fin_at (by rfl) (hk.val 1 rfl rfl), fin_at (by rfl) (hk.val 2 rfl rfl)]⟩

theorem shl d a b : Statement (.shl d a b) := by
  rintro hwf _ _ ⟨⟩
  have hk : Laid 0xC1000005 [(d.val, 19), (a.val, 14), (b.val, 9)] [(19, 5), (14, 5), (9, 5)] := ⟨by decide, rfl,
      d.isLt, rfl, a.isLt, rfl, b.isLt, trivial⟩
  exact ⟨hk.lt 32 (by decide) rfl, hk.bits 32 rfl rfl, by
    simp only [fieldsOf, fields32, fieldsIntReg, hk.fixed 24 5 1 rfl, hk.fixed 0 9 5 rfl,
        fin_at (by rfl) (hk.val 0 rfl rfl), fin_at (by rfl) (hk.val 1 rfl rfl), fin_at (by rfl) (hk.val 2 rfl rfl)]⟩

theorem shr d a b : Statement (.shr d a b) := by
  rintro hwf _ _ ⟨⟩
  have hk : Laid 0xC1000006 [(d.val, 19), (a.val, 14), (b.val, 9)] [(19, 5), (14, 5), (9, 5)] := ⟨by decide, rfl,
      d.isLt, rfl, a.isLt, rfl, b.isLt, trivial⟩
  exact ⟨hk.lt 32 (by decide) rfl, hk.bits 32 rfl rfl, by
    simp only [fieldsOf, fields32, fieldsIntReg, hk.fixed 24 5 1 rfl, hk.fixed 0 9 6 rfl,
        fin_at (by rfl) (hk.val 0 rfl rfl), fin_at (by rfl) (hk.val 1 rfl rfl), fin_at (by rfl) (hk.val 2 rfl rfl)]⟩

theorem sar d a b : Statement (.sar d a b) := by
  rintro hwf _ _ ⟨⟩
  have hk : Laid 0xC1000007 [(d.val, 19), (a.val, 14), (b.val, 9)] [(19, 5), (14, 5), (9, 5)] := ⟨by decide, rfl,
      d.isLt, rfl, a.isLt, rfl, b.isLt, trivial⟩
  exact ⟨hk.lt 32 (by decide) rfl, hk.bits 32 rfl rfl, by
    simp only [fieldsOf, fields32, fieldsIntReg, hk.fixed 24 5 1 rfl, hk.fixed 0 9 7 rfl,
        fin_at (by rfl) (hk.val 0 rfl rfl), fin_at (by rfl) (hk.val 1 rfl rfl), fin_at (by rfl) (hk.val 2 rfl rfl)]⟩

theorem slt d a b : Statement (.slt d a b) := by
  rintro hwf _ _ ⟨⟩
  have hk : Laid 0xC1000008 [(d.val, 19), (a.val, 14), (b.val, 9)] [(19, 5), (14, 5), (9, 5)] := ⟨by decide, rfl,
      d.isLt, rfl, a.isLt, rfl, b.isLt, trivial⟩
  exact ⟨hk.lt 32 (by decide) rfl, hk.bits 32 rfl rfl, by
    simp only [fieldsOf, fields32, fieldsIntReg, hk.fixed 24 5 1 rfl, hk.fixed 0 9 8 rfl,
        fin_at (by rfl) (hk.val 0 rfl rfl), fin_at (by rfl) (hk.val 1 rfl rfl), fin_at (by rfl) (hk.val 2 rfl rfl)]⟩

theorem sltn d a b : Statement (.sltn d a b) := by
  rintro hwf _ _ ⟨⟩
  have hk : Laid 0xC1000009 [(d.val, 19), (a.val, 14), (b.val, 9)] [(19, 5), (14, 5), (9, 5)] := ⟨by decide, rfl,
      d.isLt, rfl, a.isLt, rfl, b.isLt, trivial⟩
  exact ⟨hk.lt 32 (by decide) rfl, hk.bits 32 rfl rfl, by
    simp only [fieldsOf, fields32, fieldsIntReg, hk.fixed 24 5 1 rfl, hk.fixed 0 9 9 rfl,
        fin_at (by rfl) (hk.val 0 rfl rfl), fin_at (by rfl) (hk.val 1 rfl rfl), fin_at (by rfl) (hk.val 2 rfl rfl)]⟩

theorem mul d a b : Statement (.mul d a b) := by
  rintro hwf _ _ ⟨⟩
  have hk : Laid 0xC100000A [(d.val, 19), (a.val, 14), (b.val, 9)] [(19, 5), (14, 5), (9, 5)] := ⟨by decide, rfl,
      d.isLt, rfl, a.isLt, rfl, b.isLt, trivial⟩
  exact ⟨hk.lt 32 (by decide) rfl, hk.bits 32 rfl rfl, by
    simp only [fieldsOf, fields32, fieldsIntReg, hk.fixed 24 5 1 rfl, hk.fixed 0 9 10 rfl,
        fin_at (by rfl) (hk.val 0 rfl rfl), fin_at (by rfl) (hk.val 1 rfl rfl), fin_at (by rfl) (hk.val 2 rfl rfl)]⟩

theorem mulh d a b : Statement (.mulh d a b) := by
  rintro hwf _ _ ⟨⟩
  have hk : Laid 0xC100000B [(d.val, 19), (a.val, 14), (b.val, 9)] [(19, 5), (14, 5), (9, 5)] := ⟨by decide, rfl,
      d.isLt, rfl, a.isLt, rfl, b.isLt, trivial⟩
  exact ⟨hk.lt 32 (by decide) rfl, hk.bits 32 rfl rfl, by
    simp only [fieldsOf, fields32, fieldsIntReg, hk.fixed 24 5 1 rfl, hk.fixed 0 9 11 rfl,
        fin_at (by rfl) (hk.val 0 rfl rfl), fin_at (by rfl) (hk.val 1 rfl rfl), fin_at (by rfl) (hk.val 2 rfl rfl)]⟩

theorem mulhn d a b : Statement (.mulhn d a b) := by
  rintro hwf _ _ ⟨⟩
  have hk : Laid 0xC100000C [(d.val, 19), (a.val, 14), (b.val, 9)] [(19, 5), (14, 5), (9, 5)] := ⟨by decide, rfl,
      d.isLt, rfl, a.isLt, rfl, b.isLt, trivial⟩
  exact ⟨hk.lt 32 (by decide) rfl, hk.bits 32 rfl rfl, by
    simp only [fieldsOf, fields32, fieldsIntReg, hk.fixed 24 5 1 rfl, hk.fixed 0 9 12 rfl,
        fin_at (by rfl) (hk.val 0 rfl rfl), fin_at (by rfl) (hk.val 1 rfl rfl), fin_at (by rfl) (hk.val 2 rfl rfl)]⟩

theorem div d a b : Statement (.div d a b) := by
  rintro hwf _ _ ⟨⟩
  have hk : Laid 0xC100000D [(d.val, 19), (a.val, 14), (b.val, 9)] [(19, 5), (14, 5), (9, 5)] := ⟨by decide, rfl,
      d.isLt, rfl, a.isLt, rfl, b.isLt, trivial⟩
  exact ⟨hk.lt 32 (by decide) rfl, hk.bits 32 rfl rfl, by
    simp only [fieldsOf, fields32, fieldsIntReg, hk.fixed 24 5 1 rfl, hk.fixed 0 9 13 rfl,
        fin_at (by rfl) (hk.val 0 rfl rfl), fin_at (by rfl) (hk.val 1 rfl rfl), fin_at (by rfl) (hk.val 2 rfl rfl)]⟩

theorem divn d a b : Statement (.divn d a b) := by
  rintro hwf _ _ ⟨⟩
  have hk : Laid 0xC100000E [(d.val, 19), (a.val, 14), (b.val, 9)] [(19, 5), (14, 5), (9, 5)] := ⟨by decide, rfl,
      d.isLt, rfl, a.isLt, rfl, b.isLt, trivial⟩
  exact ⟨hk.lt 32 (by decide) rfl, hk.bits 32 rfl rfl, by
    simp only [fieldsOf, fields32, fieldsIntReg, hk.fixed 24 5 1 rfl, hk.fixed 0 9 14 rfl,
        fin_at (by rfl) (hk.val 0 rfl rfl), fin_at (by rfl) (hk.val 1 rfl rfl), fin_at (by rfl) (hk.val 2 rfl rfl)]⟩

theorem rem d a b : Statement (.rem d a b) := by
  rintro hwf _ _ ⟨⟩
  have hk : Laid 0xC100000F [(d.val, 19), (a.val, 14), (b.val, 9)] [(19, 5), (14, 5), (9, 5)] := ⟨by decide, rfl,
      d.isLt, rfl, a.isLt, rfl, b.isLt, trivial⟩
  exact ⟨hk.lt 32 (by decide) rfl, hk.bits 32 rfl rfl, by
    simp only [fieldsOf, fields32, fieldsIntReg, hk.fixed 24 5 1 rfl, hk.fixed 0 9 15 rfl,
        fin_at (by rfl) (hk.val 0 rfl rfl), fin_at (by rfl) (hk.val 1 rfl rfl), fin_at (by rfl) (hk.val 2 rfl rfl)]⟩

theorem remn d a b : Statement (.remn d a b) := by
  rintro hwf _ _ ⟨⟩
  have hk : Laid 0xC1000010 [(d.val, 19), (a.val, 14), (b.val, 9)] [(19, 5), (14, 5), (9, 5)] := ⟨by decide, rfl,
      d.isLt, rfl, a.isLt, rfl, b.isLt, trivial⟩
  exact ⟨hk.lt 32 (by decide) rfl, hk.bits 32 rfl rfl, by
    simp only [fieldsOf, fields32, fieldsIntReg, hk.fixed 24 5 1 rfl, hk.fixed 0 9 16 rfl,
        fin_at (by rfl) (hk.val 0 rfl rfl), fin_at (by rfl) (hk.val 1 rfl rfl), fin_at (by rfl) (hk.val 2 rfl rfl)]⟩

theorem min d a b : Statement (.min d a b) := by
  rintro hwf _ _ ⟨⟩
  have hk : Laid 0xC1000011 [(d.val, 19), (a.val, 14), (b.val, 9)] [(19, 5), (14, 5), (9, 5)] := ⟨by decide, rfl,
      d.isLt, rfl, a.isLt, rfl, b.isLt, trivial⟩
  exact ⟨hk.lt 32 (by decide) rfl, hk.bits 32 rfl rfl, by
    simp only [fieldsOf, fields32, fieldsIntReg, hk.fixed 24 5 1 rfl, hk.fixed 0 9 17 rfl,
        fin_at (by rfl) (hk.val 0 rfl rfl), fin_at (by rfl) (hk.val 1 rfl rfl), fin_at (by rfl) (hk.val 2 rfl rfl)]⟩

theorem max d a b : Statement (.max d a b) := by
  rintro hwf _ _ ⟨⟩
  have hk : Laid 0xC1000012 [(d.val, 19), (a.val, 14), (b.val, 9)] [(19, 5), (14, 5), (9, 5)] := ⟨by decide, rfl,
      d.isLt, rfl, a.isLt, rfl, b.isLt, trivial⟩
  exact ⟨hk.lt 32 (by decide) rfl, hk.bits 32 rfl rfl, by
    simp only [fieldsOf, fields32, fieldsIntReg, hk.fixed 24 5 1 rfl, hk.fixed 0 9 18 rfl,
        fin_at (by rfl) (hk.val 0 rfl rfl), fin_at (by rfl) (hk.val 1 rfl rfl), fin_at (by rfl) (hk.val 2 rfl rfl)]⟩

theorem minn d a b : Statement (.minn d a b) := by
  rintro hwf _ _ ⟨⟩
  have hk : Laid 0xC1000013 [(d.val, 19), (a.val, 14), (b.val, 9)] [(19, 5), (14, 5), (9, 5)] := ⟨by decide, rfl,
      d.isLt, rfl, a.isLt, rfl, b.isLt, trivial⟩
  exact ⟨hk.lt 32 (by decide) rfl, hk.bits 32 rfl rfl, by
    simp only [fieldsOf, fields32, fieldsIntReg, hk.fixed 24 5 1 rfl, hk.fixed 0 9 19 rfl,
        fin_at (by rfl) (hk.val 0 rfl rfl), fin_at (by rfl) (hk.val 1 rfl rfl), fin_at (by rfl) (hk.val 2 rfl rfl)]⟩

theorem maxn d a b : Statement (.maxn d a b) := by
  rintro hwf _ _ ⟨⟩
  have hk : Laid 0xC1000014 [(d.val, 19), (a.val, 14), (b.val, 9)] [(19, 5), (14, 5), (9, 5)] := ⟨by decide, rfl,
      d.isLt, rfl, a.isLt, rfl, b.isLt, trivial⟩
  exact ⟨hk.lt 32 (by decide) rfl, hk.bits 32 rfl rfl, by
    simp only [fieldsOf, fields32, fieldsIntReg, hk.fixed 24 5 1 rfl, hk.fixed 0 9 20 rfl,
        fin_at (by rfl) (hk.val 0 rfl rfl), fin_at (by rfl) (hk.val 1 rfl rfl), fin_at (by rfl) (hk.val 2 rfl rfl)]⟩

theorem clz d a : Statement (.clz d a) := by
  rintro hwf _ _ ⟨⟩
  have hk : Laid 0xC1000015 [(d.val, 19), (a.val, 14)] [(19, 5), (14, 5)] := ⟨by decide, rfl, d.isLt, rfl, a.isLt,
      trivial⟩
  exact ⟨hk.lt 32 (by decide) rfl, hk.bits 32 rfl rfl, by
    simp only [fieldsOf, fields32, fieldsIntReg, hk.fixed 24 5 1 rfl, hk.fixed 0 9 21 rfl,
        fin_at (by rfl) (hk.val 0 rfl rfl), fin_at (by rfl) (hk.val 1 rfl rfl)]⟩

theorem ctz d a : Statement (.ctz d a) := by
  rintro hwf _ _ ⟨⟩
  have hk : Laid 0xC1000016 [(d.val, 19), (a.val, 14)] [(19, 5), (14, 5)] := ⟨by decide, rfl, d.isLt, rfl, a.isLt,
      trivial⟩
  exact ⟨hk.lt 32 (by decide) rfl, hk.bits 32 rfl rfl, by
    simp only [fieldsOf, fields32, fieldsIntReg, hk.fixed 24 5 1 rfl, hk.fixed 0 9 22 rfl,
        fin_at (by rfl) (hk.val 0 rfl rfl), fin_at (by rfl) (hk.val 1 rfl rfl)]⟩

theorem popc d a : Statement (.popc d a) := by
  rintro hwf _ _ ⟨⟩
  have hk : Laid 0xC1000017 [(d.val, 19), (a.val, 14)] [(19, 5), (14, 5)] := ⟨by decide, rfl, d.isLt, rfl, a.isLt,
      trivial⟩
  exact ⟨hk.lt 32 (by decide) rfl, hk.bits 32 rfl rfl, by
    simp only [fieldsOf, fields32, fieldsIntReg, hk.fixed 24 5 1 rfl, hk.fixed 0 9 23 rfl,
        fin_at (by rfl) (hk.val 0 rfl rfl), fin_at (by rfl) (hk.val 1 rfl rfl)]⟩

theorem pcrel d i : Statement (.pcrel d i) := by
  rintro hwf _ _ ⟨⟩
  have hk : Laid 0xC2000000 [(d.val, 19), (i.toNat, 0)] [(19, 5), (0, 19)] := ⟨by decide, rfl, d.isLt, rfl, i.isLt,
      trivial⟩
  exact ⟨hk.lt 32 (by decide) rfl, hk.bits 32 rfl rfl, by
    simp only [fieldsOf, fields32, hk.fixed 24 5 2 rfl, fin_at (by rfl) (hk.val 0 rfl rfl),
        bv_at0 (hk.val 1 rfl rfl)]⟩

theorem imhi d i : Statement (.imhi d i) := by
  rintro hwf _ _ ⟨⟩
  have hk : Laid 0xC4000000 [(d.val, 19), (i.toNat, 0)] [(19, 5), (0, 19)] := ⟨by decide, rfl, d.isLt, rfl, i.isLt,
      trivial⟩
  exact ⟨hk.lt 32 (by decide) rfl, hk.bits 32 rfl rfl, by
    simp only [fieldsOf, fields32, hk.fixed 24 5 4 rfl, fin_at (by rfl) (hk.val 0 rfl rfl),
        bv_at0 (hk.val 1 rfl rfl)]⟩

theorem addi d a i : Statement (.addi d a i) := by
  rintro hwf _ _ ⟨⟩
  have hk : Laid 0xC3000000 [(d.val, 19), (a.val, 14), (i.toNat, 0)] [(19, 5), (14, 5), (0, 11)] := ⟨by decide, rfl,
      d.isLt, rfl, a.isLt, rfl, i.isLt, trivial⟩
  exact ⟨hk.lt 32 (by decide) rfl, hk.bits 32 rfl rfl, by
    simp only [fieldsOf, fields32, fieldsIntImm, hk.fixed 24 5 3 rfl, hk.fixed 11 3 0 rfl,
        fin_at (by rfl) (hk.val 0 rfl rfl), fin_at (by rfl) (hk.val 1 rfl rfl), bv_at0 (hk.val 2 rfl rfl)]⟩

theorem andi d a i : Statement (.andi d a i) := by
  rintro hwf _ _ ⟨⟩
  have hk : Laid 0xC3000800 [(d.val, 19), (a.val, 14), (i.toNat, 0)] [(19, 5), (14, 5), (0, 11)] := ⟨by decide, rfl,
      d.isLt, rfl, a.isLt, rfl, i.isLt, trivial⟩
  exact ⟨hk.lt 32 (by decide) rfl, hk.bits 32 rfl rfl, by
    simp only [fieldsOf, fields32, fieldsIntImm, hk.fixed 24 5 3 rfl, hk.fixed 11 3 1 rfl,
        fin_at (by rfl) (hk.val 0 rfl rfl), fin_at (by rfl) (hk.val 1 rfl rfl), bv_at0 (hk.val 2 rfl rfl)]⟩

theorem ori d a i : Statement (.ori d a i) := by
  rintro hwf _ _ ⟨⟩
  have hk : Laid 0xC3001000 [(d.val, 19), (a.val, 14), (i.toNat, 0)] [(19, 5), (14, 5), (0, 11)] := ⟨by decide, rfl,
      d.isLt, rfl, a.isLt, rfl, i.isLt, trivial⟩
  exact ⟨hk.lt 32 (by decide) rfl, hk.bits 32 rfl rfl, by
    simp only [fieldsOf, fields32, fieldsIntImm, hk.fixed 24 5 3 rfl, hk.fixed 11 3 2 rfl,
        fin_at (by rfl) (hk.val 0 rfl rfl), fin_at (by rfl) (hk.val 1 rfl rfl), bv_at0 (hk.val 2 rfl rfl)]⟩

theorem xori d a i : Statement (.xori d a i) := by
  rintro hwf _ _ ⟨⟩
  have hk : Laid 0xC3001800 [(d.val, 19), (a.val, 14), (i.toNat, 0)] [(19, 5), (14, 5), (0, 11)] := ⟨by decide, rfl,
      d.isLt, rfl, a.isLt, rfl, i.isLt, trivial⟩
  exact ⟨hk.lt 32 (by decide) rfl, hk.bits 32 rfl rfl, by
    simp only [fieldsOf, fields32, fieldsIntImm, hk.fixed 24 5 3 rfl, hk.fixed 11 3 3 rfl,
        fin_at (by rfl) (hk.val 0 rfl rfl), fin_at (by rfl) (hk.val 1 rfl rfl), bv_at0 (hk.val 2 rfl rfl)]⟩

theorem slti d a i : Statement (.slti d a i) := by
  rintro hwf _ _ ⟨⟩
  have hk : Laid 0xC3002000 [(d.val, 19), (a.val, 14), (i.toNat, 0)] [(19, 5), (14, 5), (0, 11)] := ⟨by decide, rfl,
      d.isLt, rfl, a.isLt, rfl, i.isLt, trivial⟩
  exact ⟨hk.lt 32 (by decide) rfl, hk.bits 32 rfl rfl, by
    simp only [fieldsOf, fields32, fieldsIntImm, hk.fixed 24 5 3 rfl, hk.fixed 11 3 4 rfl,
        fin_at (by rfl) (hk.val 0 rfl rfl), fin_at (by rfl) (hk.val 1 rfl rfl), bv_at0 (hk.val 2 rfl rfl)]⟩

theorem shli d a i : Statement (.shli d a i) := by
  rintro hwf _ _ ⟨⟩
  have hk : Laid 0xC3002800 [(d.val, 19), (a.val, 14), (i.toNat, 0)] [(19, 5), (14, 5), (0, 6)] := ⟨by decide, rfl,
      d.isLt, rfl, a.isLt, rfl, i.isLt, trivial⟩
  exact ⟨hk.lt 32 (by decide) rfl, hk.bits 32 rfl rfl, by
    simp only [fieldsOf, fields32, fieldsIntImm, hk.fixed 24 5 3 rfl, hk.fixed 11 3 5 rfl,
        fin_at (by rfl) (hk.val 0 rfl rfl), fin_at (by rfl) (hk.val 1 rfl rfl), bv_at0 (hk.val 2 rfl rfl)]⟩

theorem shri d a i : Statement (.shri d a i) := by
  rintro hwf _ _ ⟨⟩
  have hk : Laid 0xC3003000 [(d.val, 19), (a.val, 14), (i.toNat, 0)] [(19, 5), (14, 5), (0, 6)] := ⟨by decide, rfl,
      d.isLt, rfl, a.isLt, rfl, i.isLt, trivial⟩
  exact ⟨hk.lt 32 (by decide) rfl, hk.bits 32 rfl rfl, by
    simp only [fieldsOf, fields32, fieldsIntImm, hk.fixed 24 5 3 rfl, hk.fixed 11 3 6 rfl,
        fin_at (by rfl) (hk.val 0 rfl rfl), fin_at (by rfl) (hk.val 1 rfl rfl), bv_at0 (hk.val 2 rfl rfl)]⟩

theorem sari d a i : Statement (.sari d a i) := by
  rintro hwf _ _ ⟨⟩
  have hk : Laid 0xC3003800 [(d.val, 19), (a.val, 14), (i.toNat, 0)] [(19, 5), (14, 5), (0, 6)] := ⟨by decide, rfl,
      d.isLt, rfl, a.isLt, rfl, i.isLt, trivial⟩
  exact ⟨hk.lt 32 (by decide) rfl, hk.bits 32 rfl rfl, by
    simp only [fieldsOf, fields32, fieldsIntImm, hk.fixed 24 5 3 rfl, hk.fixed 11 3 7 rfl,
        fin_at (by rfl) (hk.val 0 rfl rfl), fin_at (by rfl) (hk.val 1 rfl rfl), bv_at0 (hk.val 2 rfl rfl)]⟩

theorem ld8 d a i : Statement (.ld8 d a i) := by
  rintro hwf _ _ ⟨⟩
  have hk : Laid 0xC5000000 [(d.val, 19), (a.val, 14), (i.toNat, 0)] [(19, 5), (14, 5), (0, 11)] := ⟨by decide, rfl,
      d.isLt, rfl, a.isLt, rfl, i.isLt, trivial⟩
  exact ⟨hk.lt 32 (by decide) rfl, hk.bits 32 rfl rfl, by
    simp only [fieldsOf, fields32, fieldsLoad, hk.fixed 24 5 5 rfl, hk.fixed 11 3 0 rfl,
        fin_at (by rfl) (hk.val 0 rfl rfl), fin_at (by rfl) (hk.val 1 rfl rfl), bv_at0 (hk.val 2 rfl rfl)]⟩

theorem ld16 d a i : Statement (.ld16 d a i) := by
  rintro hwf _ _ ⟨⟩
  have hk : Laid 0xC5000800 [(d.val, 19), (a.val, 14), (i.toNat, 0)] [(19, 5), (14, 5), (0, 11)] := ⟨by decide, rfl,
      d.isLt, rfl, a.isLt, rfl, i.isLt, trivial⟩
  exact ⟨hk.lt 32 (by decide) rfl, hk.bits 32 rfl rfl, by
    simp only [fieldsOf, fields32, fieldsLoad, hk.fixed 24 5 5 rfl, hk.fixed 11 3 1 rfl,
        fin_at (by rfl) (hk.val 0 rfl rfl), fin_at (by rfl) (hk.val 1 rfl rfl), bv_at0 (hk.val 2 rfl rfl)]⟩

theorem ld32 d a i : Statement (.ld32 d a i) := by
  rintro hwf _ _ ⟨⟩
  have hk : Laid 0xC5001000 [(d.val, 19), (a.val, 14), (i.toNat, 0)] [(19, 5), (14, 5), (0, 11)] := ⟨by decide, rfl,
      d.isLt, rfl, a.isLt, rfl, i.isLt, trivial⟩
  exact ⟨hk.lt 32 (by decide) rfl, hk.bits 32 rfl rfl, by
    simp only [fieldsOf, fields32, fieldsLoad, hk.fixed 24 5 5 rfl, hk.fixed 11 3 2 rfl,
        fin_at (by rfl) (hk.val 0 rfl rfl), fin_at (by rfl) (hk.val 1 rfl rfl), bv_at0 (hk.val 2 rfl rfl)]⟩

theorem ld64 d a i : Statement (.ld64 d a i) := by
  rintro hwf _ _ ⟨⟩
  have hk : Laid 0xC5001800 [(d.val, 19), (a.val, 14), (i.toNat, 0)] [(19, 5), (14, 5), (0, 11)] := ⟨by decide, rfl,
      d.isLt, rfl, a.isLt, rfl, i.isLt, trivial⟩
  exact ⟨hk.lt 32 (by decide) rfl, hk.bits 32 rfl rfl, by
    simp only [fieldsOf, fields32, fieldsLoad, hk.fixed 24 5 5 rfl, hk.fixed 11 3 3 rfl,
        fin_at (by rfl) (hk.val 0 rfl rfl), fin_at (by rfl) (hk.val 1 rfl rfl), bv_at0 (hk.val 2 rfl rfl)]⟩

theorem ld8z d a i : Statement (.ld8z d a i) := by
  rintro hwf _ _ ⟨⟩
  have hk : Laid 0xC5002000 [(d.val, 19), (a.val, 14), (i.toNat, 0)] [(19, 5), (14, 5), (0, 11)] := ⟨by decide, rfl,
      d.isLt, rfl, a.isLt, rfl, i.isLt, trivial⟩
  exact ⟨hk.lt 32 (by decide) rfl, hk.bits 32 rfl rfl, by
    simp only [fieldsOf, fields32, fieldsLoad, hk.fixed 24 5 5 rfl, hk.fixed 11 3 4 rfl,
        fin_at (by rfl) (hk.val 0 rfl rfl), fin_at (by rfl) (hk.val 1 rfl rfl), bv_at0 (hk.val 2 rfl rfl)]⟩

theorem ld16z d a i : Statement (.ld16z d a i) := by
  rintro hwf _ _ ⟨⟩
  have hk : Laid 0xC5002800 [(d.val, 19), (a.val, 14), (i.toNat, 0)] [(19, 5), (14, 5), (0, 11)] := ⟨by decide, rfl,
      d.isLt, rfl, a.isLt, rfl, i.isLt, trivial⟩
  exact ⟨hk.lt 32 (by decide) rfl, hk.bits 32 rfl rfl, by
    simp only [fieldsOf, fields32, fieldsLoad, hk.fixed 24 5 5 rfl, hk.fixed 11 3 5 rfl,
        fin_at (by rfl) (hk.val 0 rfl rfl), fin_at (by rfl) (hk.val 1 rfl rfl), bv_at0 (hk.val 2 rfl rfl)]⟩

theorem ld32z d a i : Statement (.ld32z d a i) := by
  rintro hwf _ _ ⟨⟩
  have hk : Laid 0xC5003000 [(d.val, 19), (a.val, 14), (i.toNat, 0)] [(19, 5), (14, 5), (0, 11)] := ⟨by decide, rfl,
      d.isLt, rfl, a.isLt, rfl, i.isLt, trivial⟩
  exact ⟨hk.lt 32 (by decide) rfl, hk.bits 32 rfl rfl, by
    simp only [fieldsOf, fields32, fieldsLoad, hk.fixed 24 5 5 rfl, hk.fixed 11 3 6 rfl,
        fin_at (by rfl) (hk.val 0 rfl rfl), fin_at (by rfl) (hk.val 1 rfl rfl), bv_at0 (hk.val 2 rfl rfl)]⟩

theorem ldAcq d a s z o : Statement (.ldAcq d a s z o) := by
  rintro hwf _ _ ⟨⟩
  have hk : Laid 0xC5003800 [(d.val, 19), (a.val, 14), (s.code, 9), (z.code, 6), (o.toNat, 0)] [(19, 5), (14, 5), (9,
      2), (6, 3), (0, 6)] := ⟨by decide, rfl, d.isLt, rfl, a.isLt, rfl, Scope_lt _, rfl, LdSize_lt _, rfl, o.isLt,
      trivial⟩
  exact ⟨hk.lt 32 (by decide) rfl, hk.bits 32 rfl rfl, by
    simp only [fieldsOf, fields32, fieldsLoad, hk.fixed 24 5 5 rfl, hk.fixed 11 3 7 rfl,
        fin_at (by rfl) (hk.val 0 rfl rfl), fin_at (by rfl) (hk.val 1 rfl rfl), Scope_at (hk.val 2 rfl rfl),
        LdSize_at (hk.val 3 rfl rfl), bv_at0 (hk.val 4 rfl rfl), Option.bind_some]⟩

theorem st8 s a i : Statement (.st8 s a i) := by
  rintro hwf _ _ ⟨⟩
  have hk : Laid 0xC6000000 [(s.val, 19), (a.val, 14), (i.toNat, 0)] [(19, 5), (14, 5), (0, 11)] := ⟨by decide, rfl,
      s.isLt, rfl, a.isLt, rfl, i.isLt, trivial⟩
  exact ⟨hk.lt 32 (by decide) rfl, hk.bits 32 rfl rfl, by
    simp only [fieldsOf, fields32, fieldsStore, hk.fixed 24 5 6 rfl, hk.fixed 11 3 0 rfl,
        fin_at (by rfl) (hk.val 0 rfl rfl), fin_at (by rfl) (hk.val 1 rfl rfl), bv_at0 (hk.val 2 rfl rfl)]⟩

theorem st16 s a i : Statement (.st16 s a i) := by
  rintro hwf _ _ ⟨⟩
  have hk : Laid 0xC6000800 [(s.val, 19), (a.val, 14), (i.toNat, 0)] [(19, 5), (14, 5), (0, 11)] := ⟨by decide, rfl,
      s.isLt, rfl, a.isLt, rfl, i.isLt, trivial⟩
  exact ⟨hk.lt 32 (by decide) rfl, hk.bits 32 rfl rfl, by
    simp only [fieldsOf, fields32, fieldsStore, hk.fixed 24 5 6 rfl, hk.fixed 11 3 1 rfl,
        fin_at (by rfl) (hk.val 0 rfl rfl), fin_at (by rfl) (hk.val 1 rfl rfl), bv_at0 (hk.val 2 rfl rfl)]⟩

theorem st32 s a i : Statement (.st32 s a i) := by
  rintro hwf _ _ ⟨⟩
  have hk : Laid 0xC6001000 [(s.val, 19), (a.val, 14), (i.toNat, 0)] [(19, 5), (14, 5), (0, 11)] := ⟨by decide, rfl,
      s.isLt, rfl, a.isLt, rfl, i.isLt, trivial⟩
  exact ⟨hk.lt 32 (by decide) rfl, hk.bits 32 rfl rfl, by
    simp only [fieldsOf, fields32, fieldsStore, hk.fixed 24 5 6 rfl, hk.fixed 11 3 2 rfl,
        fin_at (by rfl) (hk.val 0 rfl rfl), fin_at (by rfl) (hk.val 1 rfl rfl), bv_at0 (hk.val 2 rfl rfl)]⟩

theorem st64 s a i : Statement (.st64 s a i) := by
  rintro hwf _ _ ⟨⟩
  have hk : Laid 0xC6001800 [(s.val, 19), (a.val, 14), (i.toNat, 0)] [(19, 5), (14, 5), (0, 11)] := ⟨by decide, rfl,
      s.isLt, rfl, a.isLt, rfl, i.isLt, trivial⟩
  exact ⟨hk.lt 32 (by decide) rfl, hk.bits 32 rfl rfl, by
    simp only [fieldsOf, fields32, fieldsStore, hk.fixed 24 5 6 rfl, hk.fixed 11 3 3 rfl,
        fin_at (by rfl) (hk.val 0 rfl rfl), fin_at (by rfl) (hk.val 1 rfl rfl), bv_at0 (hk.val 2 rfl rfl)]⟩

theorem stRel t a s z o : Statement (.stRel t a s z o) := by
  rintro hwf _ _ ⟨⟩
  have hk : Laid 0xC6003800 [(t.val, 19), (a.val, 14), (s.code, 9), (z.code, 6), (o.toNat, 0)] [(19, 5), (14, 5), (9,
      2), (6, 2), (0, 6)] := ⟨by decide, rfl, t.isLt, rfl, a.isLt, rfl, Scope_lt _, rfl, StSize_lt _, rfl, o.isLt,
      trivial⟩
  exact ⟨hk.lt 32 (by decide) rfl, hk.bits 32 rfl rfl, by
    simp only [fieldsOf, fields32, fieldsStore, hk.fixed 24 5 6 rfl, hk.fixed 11 3 7 rfl,
        fin_at (by rfl) (hk.val 0 rfl rfl), fin_at (by rfl) (hk.val 1 rfl rfl), Scope_at (hk.val 2 rfl rfl),
        StSize_at (hk.val 3 rfl rfl), bv_at0 (hk.val 4 rfl rfl)]⟩

theorem beq a b o : Statement (.beq a b o) := by
  rintro hwf _ _ ⟨⟩
  have hk : Laid 0xC7000000 [(a.val, 19), (b.val, 14), (o.toNat, 0)] [(19, 5), (14, 5), (0, 11)] := ⟨by decide, rfl,
      a.isLt, rfl, b.isLt, rfl, o.isLt, trivial⟩
  exact ⟨hk.lt 32 (by decide) rfl, hk.bits 32 rfl rfl, by
    simp only [fieldsOf, fields32, fieldsBranch, hk.fixed 24 5 7 rfl, hk.fixed 11 3 0 rfl,
        fin_at (by rfl) (hk.val 0 rfl rfl), fin_at (by rfl) (hk.val 1 rfl rfl), bv_at0 (hk.val 2 rfl rfl)]⟩

theorem bne a b o : Statement (.bne a b o) := by
  rintro hwf _ _ ⟨⟩
  have hk : Laid 0xC7000800 [(a.val, 19), (b.val, 14), (o.toNat, 0)] [(19, 5), (14, 5), (0, 11)] := ⟨by decide, rfl,
      a.isLt, rfl, b.isLt, rfl, o.isLt, trivial⟩
  exact ⟨hk.lt 32 (by decide) rfl, hk.bits 32 rfl rfl, by
    simp only [fieldsOf, fields32, fieldsBranch, hk.fixed 24 5 7 rfl, hk.fixed 11 3 1 rfl,
        fin_at (by rfl) (hk.val 0 rfl rfl), fin_at (by rfl) (hk.val 1 rfl rfl), bv_at0 (hk.val 2 rfl rfl)]⟩

theorem blt a b o : Statement (.blt a b o) := by
  rintro hwf _ _ ⟨⟩
  have hk : Laid 0xC7001000 [(a.val, 19), (b.val, 14), (o.toNat, 0)] [(19, 5), (14, 5), (0, 11)] := ⟨by decide, rfl,
      a.isLt, rfl, b.isLt, rfl, o.isLt, trivial⟩
  exact ⟨hk.lt 32 (by decide) rfl, hk.bits 32 rfl rfl, by
    simp only [fieldsOf, fields32, fieldsBranch, hk.fixed 24 5 7 rfl, hk.fixed 11 3 2 rfl,
        fin_at (by rfl) (hk.val 0 rfl rfl), fin_at (by rfl) (hk.val 1 rfl rfl), bv_at0 (hk.val 2 rfl rfl)]⟩

theorem bge a b o : Statement (.bge a b o) := by
  rintro hwf _ _ ⟨⟩
  have hk : Laid 0xC7001800 [(a.val, 19), (b.val, 14), (o.toNat, 0)] [(19, 5), (14, 5), (0, 11)] := ⟨by decide, rfl,
      a.isLt, rfl, b.isLt, rfl, o.isLt, trivial⟩
  exact ⟨hk.lt 32 (by decide) rfl, hk.bits 32 rfl rfl, by
    simp only [fieldsOf, fields32, fieldsBranch, hk.fixed 24 5 7 rfl, hk.fixed 11 3 3 rfl,
        fin_at (by rfl) (hk.val 0 rfl rfl), fin_at (by rfl) (hk.val 1 rfl rfl), bv_at0 (hk.val 2 rfl rfl)]⟩

theorem bltn a b o : Statement (.bltn a b o) := by
  rintro hwf _ _ ⟨⟩
  have hk : Laid 0xC7002000 [(a.val, 19), (b.val, 14), (o.toNat, 0)] [(19, 5), (14, 5), (0, 11)] := ⟨by decide, rfl,
      a.isLt, rfl, b.isLt, rfl, o.isLt, trivial⟩
  exact ⟨hk.lt 32 (by decide) rfl, hk.bits 32 rfl rfl, by
    simp only [fieldsOf, fields32, fieldsBranch, hk.fixed 24 5 7 rfl, hk.fixed 11 3 4 rfl,
        fin_at (by rfl) (hk.val 0 rfl rfl), fin_at (by rfl) (hk.val 1 rfl rfl), bv_at0 (hk.val 2 rfl rfl)]⟩

theorem bgen a b o : Statement (.bgen a b o) := by
  rintro hwf _ _ ⟨⟩
  have hk : Laid 0xC7002800 [(a.val, 19), (b.val, 14), (o.toNat, 0)] [(19, 5), (14, 5), (0, 11)] := ⟨by decide, rfl,
      a.isLt, rfl, b.isLt, rfl, o.isLt, trivial⟩
  exact ⟨hk.lt 32 (by decide) rfl, hk.bits 32 rfl rfl, by
    simp only [fieldsOf, fields32, fieldsBranch, hk.fixed 24 5 7 rfl, hk.fixed 11 3 5 rfl,
        fin_at (by rfl) (hk.val 0 rfl rfl), fin_at (by rfl) (hk.val 1 rfl rfl), bv_at0 (hk.val 2 rfl rfl)]⟩

theorem jl l o : Statement (.jl l o) := by
  rintro hwf _ _ ⟨⟩
  have hk : Laid 0xC8000000 [(l.val, 19), (o.toNat, 0)] [(19, 5), (0, 19)] := ⟨by decide, rfl, l.isLt, rfl, o.isLt,
      trivial⟩
  exact ⟨hk.lt 32 (by decide) rfl, hk.bits 32 rfl rfl, by
    simp only [fieldsOf, fields32, hk.fixed 24 5 8 rfl, fin_at (by rfl) (hk.val 0 rfl rfl),
        bv_at0 (hk.val 1 rfl rfl)]⟩

theorem jlr l a i : Statement (.jlr l a i) := by
  rintro hwf _ _ ⟨⟩
  have hk : Laid 0xC9000000 [(l.val, 19), (a.val, 14), (i.toNat, 0)] [(19, 5), (14, 5), (0, 11)] := ⟨by decide, rfl,
      l.isLt, rfl, a.isLt, rfl, i.isLt, trivial⟩
  exact ⟨hk.lt 32 (by decide) rfl, hk.bits 32 rfl rfl, by
    simp only [fieldsOf, fields32, fieldsJlr, hk.fixed 24 5 9 rfl, hk.fixed 11 3 0 rfl,
        fin_at (by rfl) (hk.val 0 rfl rfl), fin_at (by rfl) (hk.val 1 rfl rfl), bv_at0 (hk.val 2 rfl rfl),
        ↓reduceIte]⟩

theorem amoAdd d a b w q r s : Statement (.amoAdd d a b w q r s) := by
  rintro hwf _ _ ⟨⟩
  have hk : Laid 0xCA000000 [(d.val, 19), (a.val, 14), (b.val, 9), (w.toNat, 5), (q.toNat, 3), (r.toNat, 2), (s.code,
      0)] [(19, 5), (14, 5), (9, 5), (5, 1), (3, 1), (2, 1), (0, 2)] := ⟨by decide, rfl, d.isLt, rfl, a.isLt, rfl,
      b.isLt, rfl, bool_lt _, rfl, bool_lt _, rfl, bool_lt _, rfl, Scope_lt _, trivial⟩
  exact ⟨hk.lt 32 (by decide) rfl, hk.bits 32 rfl rfl, by
    simp only [fieldsOf, fields32, fieldsAmo, hk.fixed 24 5 10 rfl, hk.fixed 6 3 0 rfl,
        fin_at (by rfl) (hk.val 0 rfl rfl), fin_at (by rfl) (hk.val 1 rfl rfl), fin_at (by rfl) (hk.val 2 rfl rfl),
        bool_at (hk.val 3 rfl rfl), bool_at (hk.val 4 rfl rfl), bool_at (hk.val 5 rfl rfl),
        Scope_at (hk.val 6 rfl rfl)]⟩

theorem amoAnd d a b w q r s : Statement (.amoAnd d a b w q r s) := by
  rintro hwf _ _ ⟨⟩
  have hk : Laid 0xCA000040 [(d.val, 19), (a.val, 14), (b.val, 9), (w.toNat, 5), (q.toNat, 3), (r.toNat, 2), (s.code,
      0)] [(19, 5), (14, 5), (9, 5), (5, 1), (3, 1), (2, 1), (0, 2)] := ⟨by decide, rfl, d.isLt, rfl, a.isLt, rfl,
      b.isLt, rfl, bool_lt _, rfl, bool_lt _, rfl, bool_lt _, rfl, Scope_lt _, trivial⟩
  exact ⟨hk.lt 32 (by decide) rfl, hk.bits 32 rfl rfl, by
    simp only [fieldsOf, fields32, fieldsAmo, hk.fixed 24 5 10 rfl, hk.fixed 6 3 1 rfl,
        fin_at (by rfl) (hk.val 0 rfl rfl), fin_at (by rfl) (hk.val 1 rfl rfl), fin_at (by rfl) (hk.val 2 rfl rfl),
        bool_at (hk.val 3 rfl rfl), bool_at (hk.val 4 rfl rfl), bool_at (hk.val 5 rfl rfl),
        Scope_at (hk.val 6 rfl rfl)]⟩

theorem amoOr d a b w q r s : Statement (.amoOr d a b w q r s) := by
  rintro hwf _ _ ⟨⟩
  have hk : Laid 0xCA000080 [(d.val, 19), (a.val, 14), (b.val, 9), (w.toNat, 5), (q.toNat, 3), (r.toNat, 2), (s.code,
      0)] [(19, 5), (14, 5), (9, 5), (5, 1), (3, 1), (2, 1), (0, 2)] := ⟨by decide, rfl, d.isLt, rfl, a.isLt, rfl,
      b.isLt, rfl, bool_lt _, rfl, bool_lt _, rfl, bool_lt _, rfl, Scope_lt _, trivial⟩
  exact ⟨hk.lt 32 (by decide) rfl, hk.bits 32 rfl rfl, by
    simp only [fieldsOf, fields32, fieldsAmo, hk.fixed 24 5 10 rfl, hk.fixed 6 3 2 rfl,
        fin_at (by rfl) (hk.val 0 rfl rfl), fin_at (by rfl) (hk.val 1 rfl rfl), fin_at (by rfl) (hk.val 2 rfl rfl),
        bool_at (hk.val 3 rfl rfl), bool_at (hk.val 4 rfl rfl), bool_at (hk.val 5 rfl rfl),
        Scope_at (hk.val 6 rfl rfl)]⟩

theorem amoXor d a b w q r s : Statement (.amoXor d a b w q r s) := by
  rintro hwf _ _ ⟨⟩
  have hk : Laid 0xCA0000C0 [(d.val, 19), (a.val, 14), (b.val, 9), (w.toNat, 5), (q.toNat, 3), (r.toNat, 2), (s.code,
      0)] [(19, 5), (14, 5), (9, 5), (5, 1), (3, 1), (2, 1), (0, 2)] := ⟨by decide, rfl, d.isLt, rfl, a.isLt, rfl,
      b.isLt, rfl, bool_lt _, rfl, bool_lt _, rfl, bool_lt _, rfl, Scope_lt _, trivial⟩
  exact ⟨hk.lt 32 (by decide) rfl, hk.bits 32 rfl rfl, by
    simp only [fieldsOf, fields32, fieldsAmo, hk.fixed 24 5 10 rfl, hk.fixed 6 3 3 rfl,
        fin_at (by rfl) (hk.val 0 rfl rfl), fin_at (by rfl) (hk.val 1 rfl rfl), fin_at (by rfl) (hk.val 2 rfl rfl),
        bool_at (hk.val 3 rfl rfl), bool_at (hk.val 4 rfl rfl), bool_at (hk.val 5 rfl rfl),
        Scope_at (hk.val 6 rfl rfl)]⟩

theorem amoMin d a b w n q r s : Statement (.amoMin d a b w n q r s) := by
  rintro hwf _ _ ⟨⟩
  have hk : Laid 0xCA000100 [(d.val, 19), (a.val, 14), (b.val, 9), (w.toNat, 5), (n.toNat, 4), (q.toNat, 3),
      (r.toNat, 2), (s.code, 0)] [(19, 5), (14, 5), (9, 5), (5, 1), (4, 1), (3, 1), (2, 1), (0, 2)] := ⟨by decide,
      rfl, d.isLt, rfl, a.isLt, rfl, b.isLt, rfl, bool_lt _, rfl, bool_lt _, rfl, bool_lt _, rfl, bool_lt _, rfl,
      Scope_lt _, trivial⟩
  exact ⟨hk.lt 32 (by decide) rfl, hk.bits 32 rfl rfl, by
    simp only [fieldsOf, fields32, fieldsAmo, hk.fixed 24 5 10 rfl, hk.fixed 6 3 4 rfl,
        fin_at (by rfl) (hk.val 0 rfl rfl), fin_at (by rfl) (hk.val 1 rfl rfl), fin_at (by rfl) (hk.val 2 rfl rfl),
        bool_at (hk.val 3 rfl rfl), bool_at (hk.val 4 rfl rfl), bool_at (hk.val 5 rfl rfl),
        bool_at (hk.val 6 rfl rfl), Scope_at (hk.val 7 rfl rfl)]⟩

theorem amoMax d a b w n q r s : Statement (.amoMax d a b w n q r s) := by
  rintro hwf _ _ ⟨⟩
  have hk : Laid 0xCA000140 [(d.val, 19), (a.val, 14), (b.val, 9), (w.toNat, 5), (n.toNat, 4), (q.toNat, 3),
      (r.toNat, 2), (s.code, 0)] [(19, 5), (14, 5), (9, 5), (5, 1), (4, 1), (3, 1), (2, 1), (0, 2)] := ⟨by decide,
      rfl, d.isLt, rfl, a.isLt, rfl, b.isLt, rfl, bool_lt _, rfl, bool_lt _, rfl, bool_lt _, rfl, bool_lt _, rfl,
      Scope_lt _, trivial⟩
  exact ⟨hk.lt 32 (by decide) rfl, hk.bits 32 rfl rfl, by
    simp only [fieldsOf, fields32, fieldsAmo, hk.fixed 24 5 10 rfl, hk.fixed 6 3 5 rfl,
        fin_at (by rfl) (hk.val 0 rfl rfl), fin_at (by rfl) (hk.val 1 rfl rfl), fin_at (by rfl) (hk.val 2 rfl rfl),
        bool_at (hk.val 3 rfl rfl), bool_at (hk.val 4 rfl rfl), bool_at (hk.val 5 rfl rfl),
        bool_at (hk.val 6 rfl rfl), Scope_at (hk.val 7 rfl rfl)]⟩

theorem amoSwap d a b w q r s : Statement (.amoSwap d a b w q r s) := by
  rintro hwf _ _ ⟨⟩
  have hk : Laid 0xCA000180 [(d.val, 19), (a.val, 14), (b.val, 9), (w.toNat, 5), (q.toNat, 3), (r.toNat, 2), (s.code,
      0)] [(19, 5), (14, 5), (9, 5), (5, 1), (3, 1), (2, 1), (0, 2)] := ⟨by decide, rfl, d.isLt, rfl, a.isLt, rfl,
      b.isLt, rfl, bool_lt _, rfl, bool_lt _, rfl, bool_lt _, rfl, Scope_lt _, trivial⟩
  exact ⟨hk.lt 32 (by decide) rfl, hk.bits 32 rfl rfl, by
    simp only [fieldsOf, fields32, fieldsAmo, hk.fixed 24 5 10 rfl, hk.fixed 6 3 6 rfl,
        fin_at (by rfl) (hk.val 0 rfl rfl), fin_at (by rfl) (hk.val 1 rfl rfl), fin_at (by rfl) (hk.val 2 rfl rfl),
        bool_at (hk.val 3 rfl rfl), bool_at (hk.val 4 rfl rfl), bool_at (hk.val 5 rfl rfl),
        Scope_at (hk.val 6 rfl rfl)]⟩

theorem amoCas d a b w q r s : Statement (.amoCas d a b w q r s) := by
  rintro hwf _ _ ⟨⟩
  have hk : Laid 0xCA0001C0 [(d.val, 19), (a.val, 14), (b.val, 9), (w.toNat, 5), (q.toNat, 3), (r.toNat, 2), (s.code,
      0)] [(19, 5), (14, 5), (9, 5), (5, 1), (3, 1), (2, 1), (0, 2)] := ⟨by decide, rfl, d.isLt, rfl, a.isLt, rfl,
      b.isLt, rfl, bool_lt _, rfl, bool_lt _, rfl, bool_lt _, rfl, Scope_lt _, trivial⟩
  exact ⟨hk.lt 32 (by decide) rfl, hk.bits 32 rfl rfl, by
    simp only [fieldsOf, fields32, fieldsAmo, hk.fixed 24 5 10 rfl, hk.fixed 6 3 7 rfl,
        fin_at (by rfl) (hk.val 0 rfl rfl), fin_at (by rfl) (hk.val 1 rfl rfl), fin_at (by rfl) (hk.val 2 rfl rfl),
        bool_at (hk.val 3 rfl rfl), bool_at (hk.val 4 rfl rfl), bool_at (hk.val 5 rfl rfl),
        Scope_at (hk.val 6 rfl rfl)]⟩

theorem fadd d a b t : Statement (.fadd d a b t) := by
  rintro hwf _ _ ⟨⟩
  have hk : Laid 0xCC000000 [(d.val, 19), (a.val, 14), (b.val, 9), (t.code, 0)] [(19, 5), (14, 5), (9, 5), (0, 5)] :=
      ⟨by decide, rfl, d.isLt, rfl, a.isLt, rfl, b.isLt, rfl, Tag_lt _, trivial⟩
  exact ⟨hk.lt 32 (by decide) rfl, hk.bits 32 rfl rfl, by
    simp only [fieldsOf, fields32, fieldsFloat, hk.fixed 24 5 12 rfl, hk.fixed 5 4 0 rfl,
        fin_at (by rfl) (hk.val 0 rfl rfl), fin_at (by rfl) (hk.val 1 rfl rfl), fin_at (by rfl) (hk.val 2 rfl rfl),
        Tag_at (hk.val 3 rfl rfl), Option.bind_some]⟩

theorem fsub d a b t : Statement (.fsub d a b t) := by
  rintro hwf _ _ ⟨⟩
  have hk : Laid 0xCC000020 [(d.val, 19), (a.val, 14), (b.val, 9), (t.code, 0)] [(19, 5), (14, 5), (9, 5), (0, 5)] :=
      ⟨by decide, rfl, d.isLt, rfl, a.isLt, rfl, b.isLt, rfl, Tag_lt _, trivial⟩
  exact ⟨hk.lt 32 (by decide) rfl, hk.bits 32 rfl rfl, by
    simp only [fieldsOf, fields32, fieldsFloat, hk.fixed 24 5 12 rfl, hk.fixed 5 4 1 rfl,
        fin_at (by rfl) (hk.val 0 rfl rfl), fin_at (by rfl) (hk.val 1 rfl rfl), fin_at (by rfl) (hk.val 2 rfl rfl),
        Tag_at (hk.val 3 rfl rfl), Option.bind_some]⟩

theorem fmul d a b t : Statement (.fmul d a b t) := by
  rintro hwf _ _ ⟨⟩
  have hk : Laid 0xCC000040 [(d.val, 19), (a.val, 14), (b.val, 9), (t.code, 0)] [(19, 5), (14, 5), (9, 5), (0, 5)] :=
      ⟨by decide, rfl, d.isLt, rfl, a.isLt, rfl, b.isLt, rfl, Tag_lt _, trivial⟩
  exact ⟨hk.lt 32 (by decide) rfl, hk.bits 32 rfl rfl, by
    simp only [fieldsOf, fields32, fieldsFloat, hk.fixed 24 5 12 rfl, hk.fixed 5 4 2 rfl,
        fin_at (by rfl) (hk.val 0 rfl rfl), fin_at (by rfl) (hk.val 1 rfl rfl), fin_at (by rfl) (hk.val 2 rfl rfl),
        Tag_at (hk.val 3 rfl rfl), Option.bind_some]⟩

theorem fdiv d a b t : Statement (.fdiv d a b t) := by
  rintro hwf _ _ ⟨⟩
  have hk : Laid 0xCC000060 [(d.val, 19), (a.val, 14), (b.val, 9), (t.code, 0)] [(19, 5), (14, 5), (9, 5), (0, 5)] :=
      ⟨by decide, rfl, d.isLt, rfl, a.isLt, rfl, b.isLt, rfl, Tag_lt _, trivial⟩
  exact ⟨hk.lt 32 (by decide) rfl, hk.bits 32 rfl rfl, by
    simp only [fieldsOf, fields32, fieldsFloat, hk.fixed 24 5 12 rfl, hk.fixed 5 4 3 rfl,
        fin_at (by rfl) (hk.val 0 rfl rfl), fin_at (by rfl) (hk.val 1 rfl rfl), fin_at (by rfl) (hk.val 2 rfl rfl),
        Tag_at (hk.val 3 rfl rfl), Option.bind_some]⟩

theorem fsqrt d a t : Statement (.fsqrt d a t) := by
  rintro hwf _ _ ⟨⟩
  have hk : Laid 0xCC000080 [(d.val, 19), (a.val, 14), (t.code, 0)] [(19, 5), (14, 5), (0, 5)] := ⟨by decide, rfl,
      d.isLt, rfl, a.isLt, rfl, Tag_lt _, trivial⟩
  exact ⟨hk.lt 32 (by decide) rfl, hk.bits 32 rfl rfl, by
    simp only [fieldsOf, fields32, fieldsFloat, hk.fixed 24 5 12 rfl, hk.fixed 5 4 4 rfl,
        fin_at (by rfl) (hk.val 0 rfl rfl), fin_at (by rfl) (hk.val 1 rfl rfl), Tag_at (hk.val 2 rfl rfl),
        Option.bind_some]⟩

theorem fma d a b t : Statement (.fma d a b t) := by
  rintro hwf _ _ ⟨⟩
  have hk : Laid 0xCC0000A0 [(d.val, 19), (a.val, 14), (b.val, 9), (t.code, 0)] [(19, 5), (14, 5), (9, 5), (0, 5)] :=
      ⟨by decide, rfl, d.isLt, rfl, a.isLt, rfl, b.isLt, rfl, Tag_lt _, trivial⟩
  exact ⟨hk.lt 32 (by decide) rfl, hk.bits 32 rfl rfl, by
    simp only [fieldsOf, fields32, fieldsFloat, hk.fixed 24 5 12 rfl, hk.fixed 5 4 5 rfl,
        fin_at (by rfl) (hk.val 0 rfl rfl), fin_at (by rfl) (hk.val 1 rfl rfl), fin_at (by rfl) (hk.val 2 rfl rfl),
        Tag_at (hk.val 3 rfl rfl), Option.bind_some]⟩

theorem fmin d a b t : Statement (.fmin d a b t) := by
  rintro hwf _ _ ⟨⟩
  have hk : Laid 0xCC0000C0 [(d.val, 19), (a.val, 14), (b.val, 9), (t.code, 0)] [(19, 5), (14, 5), (9, 5), (0, 5)] :=
      ⟨by decide, rfl, d.isLt, rfl, a.isLt, rfl, b.isLt, rfl, Tag_lt _, trivial⟩
  exact ⟨hk.lt 32 (by decide) rfl, hk.bits 32 rfl rfl, by
    simp only [fieldsOf, fields32, fieldsFloat, hk.fixed 24 5 12 rfl, hk.fixed 5 4 6 rfl,
        fin_at (by rfl) (hk.val 0 rfl rfl), fin_at (by rfl) (hk.val 1 rfl rfl), fin_at (by rfl) (hk.val 2 rfl rfl),
        Tag_at (hk.val 3 rfl rfl), Option.bind_some]⟩

theorem fmax d a b t : Statement (.fmax d a b t) := by
  rintro hwf _ _ ⟨⟩
  have hk : Laid 0xCC0000E0 [(d.val, 19), (a.val, 14), (b.val, 9), (t.code, 0)] [(19, 5), (14, 5), (9, 5), (0, 5)] :=
      ⟨by decide, rfl, d.isLt, rfl, a.isLt, rfl, b.isLt, rfl, Tag_lt _, trivial⟩
  exact ⟨hk.lt 32 (by decide) rfl, hk.bits 32 rfl rfl, by
    simp only [fieldsOf, fields32, fieldsFloat, hk.fixed 24 5 12 rfl, hk.fixed 5 4 7 rfl,
        fin_at (by rfl) (hk.val 0 rfl rfl), fin_at (by rfl) (hk.val 1 rfl rfl), fin_at (by rfl) (hk.val 2 rfl rfl),
        Tag_at (hk.val 3 rfl rfl), Option.bind_some]⟩

theorem fcmpEq d a b t : Statement (.fcmpEq d a b t) := by
  rintro hwf _ _ ⟨⟩
  have hk : Laid 0xCC000100 [(d.val, 19), (a.val, 14), (b.val, 9), (t.code, 0)] [(19, 5), (14, 5), (9, 5), (0, 5)] :=
      ⟨by decide, rfl, d.isLt, rfl, a.isLt, rfl, b.isLt, rfl, Tag_lt _, trivial⟩
  exact ⟨hk.lt 32 (by decide) rfl, hk.bits 32 rfl rfl, by
    simp only [fieldsOf, fields32, fieldsFloat, hk.fixed 24 5 12 rfl, hk.fixed 5 4 8 rfl,
        fin_at (by rfl) (hk.val 0 rfl rfl), fin_at (by rfl) (hk.val 1 rfl rfl), fin_at (by rfl) (hk.val 2 rfl rfl),
        Tag_at (hk.val 3 rfl rfl), Option.bind_some]⟩

theorem fcmpLt d a b t : Statement (.fcmpLt d a b t) := by
  rintro hwf _ _ ⟨⟩
  have hk : Laid 0xCC000120 [(d.val, 19), (a.val, 14), (b.val, 9), (t.code, 0)] [(19, 5), (14, 5), (9, 5), (0, 5)] :=
      ⟨by decide, rfl, d.isLt, rfl, a.isLt, rfl, b.isLt, rfl, Tag_lt _, trivial⟩
  exact ⟨hk.lt 32 (by decide) rfl, hk.bits 32 rfl rfl, by
    simp only [fieldsOf, fields32, fieldsFloat, hk.fixed 24 5 12 rfl, hk.fixed 5 4 9 rfl,
        fin_at (by rfl) (hk.val 0 rfl rfl), fin_at (by rfl) (hk.val 1 rfl rfl), fin_at (by rfl) (hk.val 2 rfl rfl),
        Tag_at (hk.val 3 rfl rfl), Option.bind_some]⟩

theorem fcmpLe d a b t : Statement (.fcmpLe d a b t) := by
  rintro hwf _ _ ⟨⟩
  have hk : Laid 0xCC000140 [(d.val, 19), (a.val, 14), (b.val, 9), (t.code, 0)] [(19, 5), (14, 5), (9, 5), (0, 5)] :=
      ⟨by decide, rfl, d.isLt, rfl, a.isLt, rfl, b.isLt, rfl, Tag_lt _, trivial⟩
  exact ⟨hk.lt 32 (by decide) rfl, hk.bits 32 rfl rfl, by
    simp only [fieldsOf, fields32, fieldsFloat, hk.fixed 24 5 12 rfl, hk.fixed 5 4 10 rfl,
        fin_at (by rfl) (hk.val 0 rfl rfl), fin_at (by rfl) (hk.val 1 rfl rfl), fin_at (by rfl) (hk.val 2 rfl rfl),
        Tag_at (hk.val 3 rfl rfl), Option.bind_some]⟩

theorem fcmpUn d a b t : Statement (.fcmpUn d a b t) := by
  rintro hwf _ _ ⟨⟩
  have hk : Laid 0xCC000160 [(d.val, 19), (a.val, 14), (b.val, 9), (t.code, 0)] [(19, 5), (14, 5), (9, 5), (0, 5)] :=
      ⟨by decide, rfl, d.isLt, rfl, a.isLt, rfl, b.isLt, rfl, Tag_lt _, trivial⟩
  exact ⟨hk.lt 32 (by decide) rfl, hk.bits 32 rfl rfl, by
    simp only [fieldsOf, fields32, fieldsFloat, hk.fixed 24 5 12 rfl, hk.fixed 5 4 11 rfl,
        fin_at (by rfl) (hk.val 0 rfl rfl), fin_at (by rfl) (hk.val 1 rfl rfl), fin_at (by rfl) (hk.val 2 rfl rfl),
        Tag_at (hk.val 3 rfl rfl), Option.bind_some]⟩

theorem fcvt d a f t : Statement (.fcvt d a f t) := by
  rintro hwf _ _ ⟨⟩
  have hk : Laid 0xCC000180 [(d.val, 19), (a.val, 14), (f.code, 9), (t.code, 0)] [(19, 5), (14, 5), (9, 5), (0,
      5)] := ⟨by decide, rfl, d.isLt, rfl, a.isLt, rfl, Tag_lt _, rfl, Tag_lt _, trivial⟩
  exact ⟨hk.lt 32 (by decide) rfl, hk.bits 32 rfl rfl, by
    simp only [fieldsOf, fields32, fieldsFloat, hk.fixed 24 5 12 rfl, hk.fixed 5 4 12 rfl,
        fin_at (by rfl) (hk.val 0 rfl rfl), fin_at (by rfl) (hk.val 1 rfl rfl), Tag_at (hk.val 2 rfl rfl),
        Tag_at (hk.val 3 rfl rfl), Option.bind_some]⟩

theorem fclass d a t : Statement (.fclass d a t) := by
  rintro hwf _ _ ⟨⟩
  have hk : Laid 0xCC0001A0 [(d.val, 19), (a.val, 14), (t.code, 0)] [(19, 5), (14, 5), (0, 5)] := ⟨by decide, rfl,
      d.isLt, rfl, a.isLt, rfl, Tag_lt _, trivial⟩
  exact ⟨hk.lt 32 (by decide) rfl, hk.bits 32 rfl rfl, by
    simp only [fieldsOf, fields32, fieldsFloat, hk.fixed 24 5 12 rfl, hk.fixed 5 4 13 rfl,
        fin_at (by rfl) (hk.val 0 rfl rfl), fin_at (by rfl) (hk.val 1 rfl rfl), Tag_at (hk.val 2 rfl rfl),
        Option.bind_some]⟩

theorem nop : Statement (.nop) := by
  rintro hwf _ _ ⟨⟩
  have hk : Laid 0xC0000000 [] [] := ⟨rfl, trivial⟩
  exact ⟨hk.lt 32 (by decide) rfl, hk.bits 32 rfl rfl, by
    simp only [fieldsOf, fields32, fieldsSystem, hk.fixed 24 5 0 rfl, hk.fixed 19 5 0 rfl]⟩

theorem trap i : Statement (.trap i) := by
  rintro hwf _ _ ⟨⟩
  have hk : Laid 0xC0080000 [(i.toNat, 0)] [(0, 19)] := ⟨by decide, rfl, i.isLt, trivial⟩
  exact ⟨hk.lt 32 (by decide) rfl, hk.bits 32 rfl rfl, by
    simp only [fieldsOf, fields32, fieldsSystem, hk.fixed 24 5 0 rfl, hk.fixed 19 5 1 rfl, bv_at0 (hk.val 0 rfl rfl)]⟩

theorem eret : Statement (.eret) := by
  rintro hwf _ _ ⟨⟩
  have hk : Laid 0xC0100000 [] [] := ⟨rfl, trivial⟩
  exact ⟨hk.lt 32 (by decide) rfl, hk.bits 32 rfl rfl, by
    simp only [fieldsOf, fields32, fieldsSystem, hk.fixed 24 5 0 rfl, hk.fixed 19 5 2 rfl]⟩

theorem wait a : Statement (.wait a) := by
  rintro hwf _ _ ⟨⟩
  have hk : Laid 0xC0180000 [(a.val, 14)] [(14, 5)] := ⟨by decide, rfl, a.isLt, trivial⟩
  exact ⟨hk.lt 32 (by decide) rfl, hk.bits 32 rfl rfl, by
    simp only [fieldsOf, fields32, fieldsSystem, hk.fixed 24 5 0 rfl, hk.fixed 19 5 3 rfl,
        fin_at (by rfl) (hk.val 0 rfl rfl)]⟩

theorem fenceAcq s : Statement (.fenceAcq s) := by
  rintro hwf _ _ ⟨⟩
  have hk : Laid 0xC0200000 [(s.code, 4)] [(4, 2)] := ⟨by decide, rfl, Scope_lt _, trivial⟩
  exact ⟨hk.lt 32 (by decide) rfl, hk.bits 32 rfl rfl, by
    simp only [fieldsOf, fields32, fieldsSystem, hk.fixed 24 5 0 rfl, hk.fixed 19 5 4 rfl, hk.fixed 7 2 0 rfl,
        Scope_at (hk.val 0 rfl rfl)]⟩

theorem fenceRel e s : Statement (.fenceRel e s) := by
  rintro hwf _ _ ⟨⟩
  have hk : Laid 0xC0200080 [(e.toNat, 6), (s.code, 4)] [(6, 1), (4, 2)] := ⟨by decide, rfl, bool_lt _, rfl,
      Scope_lt _, trivial⟩
  exact ⟨hk.lt 32 (by decide) rfl, hk.bits 32 rfl rfl, by
    simp only [fieldsOf, fields32, fieldsSystem, hk.fixed 24 5 0 rfl, hk.fixed 19 5 4 rfl, hk.fixed 7 2 1 rfl,
        bool_at (hk.val 0 rfl rfl), Scope_at (hk.val 1 rfl rfl)]⟩

theorem fenceRw e s : Statement (.fenceRw e s) := by
  rintro hwf _ _ ⟨⟩
  have hk : Laid 0xC0200100 [(e.toNat, 6), (s.code, 4)] [(6, 1), (4, 2)] := ⟨by decide, rfl, bool_lt _, rfl,
      Scope_lt _, trivial⟩
  exact ⟨hk.lt 32 (by decide) rfl, hk.bits 32 rfl rfl, by
    simp only [fieldsOf, fields32, fieldsSystem, hk.fixed 24 5 0 rfl, hk.fixed 19 5 4 rfl, hk.fixed 7 2 2 rfl,
        bool_at (hk.val 0 rfl rfl), Scope_at (hk.val 1 rfl rfl)]⟩

theorem xinv a b : Statement (.xinv a b) := by
  rintro hwf _ _ ⟨⟩
  have hk : Laid 0xC0280000 [(a.val, 14), (b.val, 9)] [(14, 5), (9, 5)] := ⟨by decide, rfl, a.isLt, rfl, b.isLt,
      trivial⟩
  exact ⟨hk.lt 32 (by decide) rfl, hk.bits 32 rfl rfl, by
    simp only [fieldsOf, fields32, fieldsSystem, hk.fixed 24 5 0 rfl, hk.fixed 19 5 5 rfl, hk.fixed 8 1 0 rfl,
        fin_at (by rfl) (hk.val 0 rfl rfl), fin_at (by rfl) (hk.val 1 rfl rfl), ↓reduceIte]⟩

theorem xinvAll : Statement (.xinvAll) := by
  rintro hwf _ _ ⟨⟩
  have hk : Laid 0xC0280100 [] [] := ⟨rfl, trivial⟩
  exact ⟨hk.lt 32 (by decide) rfl, hk.bits 32 rfl rfl, by
    simp only [fieldsOf, fields32, fieldsSystem, hk.fixed 24 5 0 rfl, hk.fixed 19 5 5 rfl, hk.fixed 8 1 1 rfl,
        Nat.one_ne_zero, ↓reduceIte]⟩

theorem cacheopWb a : Statement (.cacheopWb a) := by
  rintro hwf _ _ ⟨⟩
  have hk : Laid 0xC0300000 [(a.val, 14)] [(14, 5)] := ⟨by decide, rfl, a.isLt, trivial⟩
  exact ⟨hk.lt 32 (by decide) rfl, hk.bits 32 rfl rfl, by
    simp only [fieldsOf, fields32, fieldsSystem, hk.fixed 24 5 0 rfl, hk.fixed 19 5 6 rfl, hk.fixed 0 3 0 rfl,
        fin_at (by rfl) (hk.val 0 rfl rfl)]⟩

theorem cacheopWbinv a : Statement (.cacheopWbinv a) := by
  rintro hwf _ _ ⟨⟩
  have hk : Laid 0xC0300001 [(a.val, 14)] [(14, 5)] := ⟨by decide, rfl, a.isLt, trivial⟩
  exact ⟨hk.lt 32 (by decide) rfl, hk.bits 32 rfl rfl, by
    simp only [fieldsOf, fields32, fieldsSystem, hk.fixed 24 5 0 rfl, hk.fixed 19 5 6 rfl, hk.fixed 0 3 1 rfl,
        fin_at (by rfl) (hk.val 0 rfl rfl)]⟩

theorem cacheopInv a : Statement (.cacheopInv a) := by
  rintro hwf _ _ ⟨⟩
  have hk : Laid 0xC0300002 [(a.val, 14)] [(14, 5)] := ⟨by decide, rfl, a.isLt, trivial⟩
  exact ⟨hk.lt 32 (by decide) rfl, hk.bits 32 rfl rfl, by
    simp only [fieldsOf, fields32, fieldsSystem, hk.fixed 24 5 0 rfl, hk.fixed 19 5 6 rfl, hk.fixed 0 3 2 rfl,
        fin_at (by rfl) (hk.val 0 rfl rfl)]⟩

theorem cacheopIfetch : Statement (.cacheopIfetch) := by
  rintro hwf _ _ ⟨⟩
  have hk : Laid 0xC0300003 [] [] := ⟨rfl, trivial⟩
  exact ⟨hk.lt 32 (by decide) rfl, hk.bits 32 rfl rfl, by
    simp only [fieldsOf, fields32, fieldsSystem, hk.fixed 24 5 0 rfl, hk.fixed 19 5 6 rfl, hk.fixed 0 3 3 rfl]⟩

theorem brk : Statement (.brk) := by
  rintro hwf _ _ ⟨⟩
  have hk : Laid 0xC0380000 [] [] := ⟨rfl, trivial⟩
  exact ⟨hk.lt 32 (by decide) rfl, hk.bits 32 rfl rfl, by
    simp only [fieldsOf, fields32, fieldsSystem, hk.fixed 24 5 0 rfl, hk.fixed 19 5 7 rfl]⟩

theorem halt : Statement (.halt) := by
  rintro hwf _ _ ⟨⟩
  have hk : Laid 0xC0400000 [] [] := ⟨rfl, trivial⟩
  exact ⟨hk.lt 32 (by decide) rfl, hk.bits 32 rfl rfl, by
    simp only [fieldsOf, fields32, fieldsSystem, hk.fixed 24 5 0 rfl, hk.fixed 19 5 8 rfl]⟩

theorem mrd d m : Statement (.mrd d m) := by
  rintro hwf _ _ ⟨⟩
  have hk : Laid 0xC0480000 [(d.val, 14), (m.toNat, 0)] [(14, 5), (0, 12)] := ⟨by decide, rfl, d.isLt, rfl, m.isLt,
      trivial⟩
  exact ⟨hk.lt 32 (by decide) rfl, hk.bits 32 rfl rfl, by
    simp only [fieldsOf, fields32, fieldsSystem, hk.fixed 24 5 0 rfl, hk.fixed 19 5 9 rfl,
        fin_at (by rfl) (hk.val 0 rfl rfl), bv_at0 (hk.val 1 rfl rfl)]⟩

theorem mwr a m : Statement (.mwr a m) := by
  rintro hwf _ _ ⟨⟩
  have hk : Laid 0xC0500000 [(a.val, 14), (m.toNat, 0)] [(14, 5), (0, 12)] := ⟨by decide, rfl, a.isLt, rfl, m.isLt,
      trivial⟩
  exact ⟨hk.lt 32 (by decide) rfl, hk.bits 32 rfl rfl, by
    simp only [fieldsOf, fields32, fieldsSystem, hk.fixed 24 5 0 rfl, hk.fixed 19 5 10 rfl,
        fin_at (by rfl) (hk.val 0 rfl rfl), bv_at0 (hk.val 1 rfl rfl)]⟩

theorem setvl d a w : Statement (.setvl d a w) := by
  rintro hwf _ _ ⟨⟩
  have hk : Laid 0xD0000000 [(d.val, 19), (a.val, 14), (w.code, 8)] [(19, 5), (14, 5), (8, 3)] := ⟨by decide, rfl,
      d.isLt, rfl, a.isLt, rfl, Ew_lt _, trivial⟩
  exact ⟨hk.lt 32 (by decide) rfl, hk.bits 32 rfl rfl, by
    simp only [fieldsOf, fields32, fieldsConfig, hk.fixed 24 5 16 rfl, hk.fixed 11 3 0 rfl,
        fin_at (by rfl) (hk.val 0 rfl rfl), fin_at (by rfl) (hk.val 1 rfl rfl), Ew_at (hk.val 2 rfl rfl),
        Option.bind_some]⟩

theorem setvlG d a w : Statement (.setvlG d a w) := by
  rintro hwf _ _ ⟨⟩
  have hk : Laid 0xD0000800 [(d.val, 19), (a.val, 14), (w.code, 8)] [(19, 5), (14, 5), (8, 3)] := ⟨by decide, rfl,
      d.isLt, rfl, a.isLt, rfl, Ew_lt _, trivial⟩
  exact ⟨hk.lt 32 (by decide) rfl, hk.bits 32 rfl rfl, by
    simp only [fieldsOf, fields32, fieldsConfig, hk.fixed 24 5 16 rfl, hk.fixed 11 3 1 rfl,
        fin_at (by rfl) (hk.val 0 rfl rfl), fin_at (by rfl) (hk.val 1 rfl rfl), Ew_at (hk.val 2 rfl rfl),
        Option.bind_some]⟩

theorem vloop l c w e : Statement (.vloop l c w e) := by
  rintro hwf _ _ ⟨⟩
  have hk : Laid 0xD0001000 [(l.val, 19), (c.val, 14), (w.code, 8), (e.toNat, 0)] [(19, 5), (14, 5), (8, 3), (0,
      8)] := ⟨by decide, rfl, l.isLt, rfl, c.isLt, rfl, Ew_lt _, rfl, e.isLt, trivial⟩
  exact ⟨hk.lt 32 (by decide) rfl, hk.bits 32 rfl rfl, by
    simp only [fieldsOf, fields32, fieldsConfig, hk.fixed 24 5 16 rfl, hk.fixed 11 3 2 rfl,
        fin_at (by rfl) (hk.val 0 rfl rfl), fin_at (by rfl) (hk.val 1 rfl rfl), Ew_at (hk.val 2 rfl rfl),
        bv_at0 (hk.val 3 rfl rfl), Option.bind_some]⟩

theorem vloopPar l c w e : Statement (.vloopPar l c w e) := by
  rintro hwf _ _ ⟨⟩
  have hk : Laid 0xD0001800 [(l.val, 19), (c.val, 14), (w.code, 8), (e.toNat, 0)] [(19, 5), (14, 5), (8, 3), (0,
      8)] := ⟨by decide, rfl, l.isLt, rfl, c.isLt, rfl, Ew_lt _, rfl, e.isLt, trivial⟩
  exact ⟨hk.lt 32 (by decide) rfl, hk.bits 32 rfl rfl, by
    simp only [fieldsOf, fields32, fieldsConfig, hk.fixed 24 5 16 rfl, hk.fixed 11 3 3 rfl,
        fin_at (by rfl) (hk.val 0 rfl rfl), fin_at (by rfl) (hk.val 1 rfl rfl), Ew_at (hk.val 2 rfl rfl),
        bv_at0 (hk.val 3 rfl rfl), Option.bind_some]⟩

theorem vloopLong par l c w e : Statement (.vloopLong par l c w e) := by
  rintro hwf _ _ ⟨⟩
  have hk : Laid 0xE187000000080000 [(par.toNat, 14), (l.val, 37), (c.val, 32), (w.code, 15), (e.toNat, 0)] [(14, 1),
      (37, 5), (32, 5), (15, 3), (0, 14)] := ⟨by decide, rfl, bool_lt _, rfl, l.isLt, rfl, c.isLt, rfl, Ew_lt _, rfl,
      e.isLt, trivial⟩
  exact ⟨hk.lt 64 (by decide) rfl, hk.bits 64 rfl rfl, by
    simp only [fieldsOf, fields64, fieldsEv, fieldsEvLong, hk.fixed 56 5 1 rfl, hk.fixed 55 1 1 rfl,
        hk.fixed 47 9 270 rfl, bool_at (hk.val 0 rfl rfl), fin_at (by rfl) (hk.val 1 rfl rfl),
        fin_at (by rfl) (hk.val 2 rfl rfl), Ew_at (hk.val 3 rfl rfl), bv_at0 (hk.val 4 rfl rfl), Option.bind_some,
        Nat.one_ne_zero, ↓reduceIte]⟩

theorem vend a : Statement (.vend a) := by
  rintro hwf _ _ ⟨⟩
  have hk : Laid 0xD0002000 [(a.val, 14)] [(14, 5)] := ⟨by decide, rfl, a.isLt, trivial⟩
  exact ⟨hk.lt 32 (by decide) rfl, hk.bits 32 rfl rfl, by
    simp only [fieldsOf, fields32, fieldsConfig, hk.fixed 24 5 16 rfl, hk.fixed 11 3 4 rfl,
        fin_at (by rfl) (hk.val 0 rfl rfl)]⟩

theorem vtag d t : Statement (.vtag d t) := by
  rintro hwf _ _ ⟨⟩
  have hk : Laid 0xD0002800 [(d.val, 19), (t.code, 0)] [(19, 5), (0, 5)] := ⟨by decide, rfl, d.isLt, rfl, Tag_lt _,
      trivial⟩
  exact ⟨hk.lt 32 (by decide) rfl, hk.bits 32 rfl rfl, by
    simp only [fieldsOf, fields32, fieldsConfig, hk.fixed 24 5 16 rfl, hk.fixed 11 3 5 rfl,
        fin_at (by rfl) (hk.val 0 rfl rfl), Tag_at (hk.val 1 rfl rfl), Option.bind_some]⟩

theorem vadd d a b p c k : Statement (.vadd d a b p c k) := by
  rintro hwf _ _ ⟨⟩
  have hp : p.val < 2 ^ 3 := of_decide_eq_true hwf
  have hk : Laid 0xD1000000 [(d.val, 19), (a.val, 14), (b.val, 9), (p.val, 6), (c.toNat, 5), (k.toNat, 4)] [(19, 5),
      (14, 5), (9, 5), (6, 3), (5, 1), (4, 1)] := ⟨by decide, rfl, d.isLt, rfl, a.isLt, rfl, b.isLt, rfl, hp, rfl,
      bool_lt _, rfl, bool_lt _, trivial⟩
  exact ⟨hk.lt 32 (by decide) rfl, hk.bits 32 rfl rfl, by
    simp only [fieldsOf, fields32, fieldsBinary, hk.fixed 24 5 17 rfl, hk.fixed 0 4 0 rfl,
        fin_at (by rfl) (hk.val 0 rfl rfl), fin_at (by rfl) (hk.val 1 rfl rfl), fin_at (by rfl) (hk.val 2 rfl rfl),
        fin_fld (hk.val 3 rfl rfl), bool_at (hk.val 4 rfl rfl), bool_at (hk.val 5 rfl rfl)]⟩

theorem vsub d a b p c k : Statement (.vsub d a b p c k) := by
  rintro hwf _ _ ⟨⟩
  have hp : p.val < 2 ^ 3 := of_decide_eq_true hwf
  have hk : Laid 0xD1000001 [(d.val, 19), (a.val, 14), (b.val, 9), (p.val, 6), (c.toNat, 5), (k.toNat, 4)] [(19, 5),
      (14, 5), (9, 5), (6, 3), (5, 1), (4, 1)] := ⟨by decide, rfl, d.isLt, rfl, a.isLt, rfl, b.isLt, rfl, hp, rfl,
      bool_lt _, rfl, bool_lt _, trivial⟩
  exact ⟨hk.lt 32 (by decide) rfl, hk.bits 32 rfl rfl, by
    simp only [fieldsOf, fields32, fieldsBinary, hk.fixed 24 5 17 rfl, hk.fixed 0 4 1 rfl,
        fin_at (by rfl) (hk.val 0 rfl rfl), fin_at (by rfl) (hk.val 1 rfl rfl), fin_at (by rfl) (hk.val 2 rfl rfl),
        fin_fld (hk.val 3 rfl rfl), bool_at (hk.val 4 rfl rfl), bool_at (hk.val 5 rfl rfl)]⟩

theorem vmul d a b p c k : Statement (.vmul d a b p c k) := by
  rintro hwf _ _ ⟨⟩
  have hp : p.val < 2 ^ 3 := of_decide_eq_true hwf
  have hk : Laid 0xD1000002 [(d.val, 19), (a.val, 14), (b.val, 9), (p.val, 6), (c.toNat, 5), (k.toNat, 4)] [(19, 5),
      (14, 5), (9, 5), (6, 3), (5, 1), (4, 1)] := ⟨by decide, rfl, d.isLt, rfl, a.isLt, rfl, b.isLt, rfl, hp, rfl,
      bool_lt _, rfl, bool_lt _, trivial⟩
  exact ⟨hk.lt 32 (by decide) rfl, hk.bits 32 rfl rfl, by
    simp only [fieldsOf, fields32, fieldsBinary, hk.fixed 24 5 17 rfl, hk.fixed 0 4 2 rfl,
        fin_at (by rfl) (hk.val 0 rfl rfl), fin_at (by rfl) (hk.val 1 rfl rfl), fin_at (by rfl) (hk.val 2 rfl rfl),
        fin_fld (hk.val 3 rfl rfl), bool_at (hk.val 4 rfl rfl), bool_at (hk.val 5 rfl rfl)]⟩

theorem vmin d a b p c k : Statement (.vmin d a b p c k) := by
  rintro hwf _ _ ⟨⟩
  have hp : p.val < 2 ^ 3 := of_decide_eq_true hwf
  have hk : Laid 0xD1000003 [(d.val, 19), (a.val, 14), (b.val, 9), (p.val, 6), (c.toNat, 5), (k.toNat, 4)] [(19, 5),
      (14, 5), (9, 5), (6, 3), (5, 1), (4, 1)] := ⟨by decide, rfl, d.isLt, rfl, a.isLt, rfl, b.isLt, rfl, hp, rfl,
      bool_lt _, rfl, bool_lt _, trivial⟩
  exact ⟨hk.lt 32 (by decide) rfl, hk.bits 32 rfl rfl, by
    simp only [fieldsOf, fields32, fieldsBinary, hk.fixed 24 5 17 rfl, hk.fixed 0 4 3 rfl,
        fin_at (by rfl) (hk.val 0 rfl rfl), fin_at (by rfl) (hk.val 1 rfl rfl), fin_at (by rfl) (hk.val 2 rfl rfl),
        fin_fld (hk.val 3 rfl rfl), bool_at (hk.val 4 rfl rfl), bool_at (hk.val 5 rfl rfl)]⟩

theorem vmax d a b p c k : Statement (.vmax d a b p c k) := by
  rintro hwf _ _ ⟨⟩
  have hp : p.val < 2 ^ 3 := of_decide_eq_true hwf
  have hk : Laid 0xD1000004 [(d.val, 19), (a.val, 14), (b.val, 9), (p.val, 6), (c.toNat, 5), (k.toNat, 4)] [(19, 5),
      (14, 5), (9, 5), (6, 3), (5, 1), (4, 1)] := ⟨by decide, rfl, d.isLt, rfl, a.isLt, rfl, b.isLt, rfl, hp, rfl,
      bool_lt _, rfl, bool_lt _, trivial⟩
  exact ⟨hk.lt 32 (by decide) rfl, hk.bits 32 rfl rfl, by
    simp only [fieldsOf, fields32, fieldsBinary, hk.fixed 24 5 17 rfl, hk.fixed 0 4 4 rfl,
        fin_at (by rfl) (hk.val 0 rfl rfl), fin_at (by rfl) (hk.val 1 rfl rfl), fin_at (by rfl) (hk.val 2 rfl rfl),
        fin_fld (hk.val 3 rfl rfl), bool_at (hk.val 4 rfl rfl), bool_at (hk.val 5 rfl rfl)]⟩

theorem vand d a b p c k : Statement (.vand d a b p c k) := by
  rintro hwf _ _ ⟨⟩
  have hp : p.val < 2 ^ 3 := of_decide_eq_true hwf
  have hk : Laid 0xD1000005 [(d.val, 19), (a.val, 14), (b.val, 9), (p.val, 6), (c.toNat, 5), (k.toNat, 4)] [(19, 5),
      (14, 5), (9, 5), (6, 3), (5, 1), (4, 1)] := ⟨by decide, rfl, d.isLt, rfl, a.isLt, rfl, b.isLt, rfl, hp, rfl,
      bool_lt _, rfl, bool_lt _, trivial⟩
  exact ⟨hk.lt 32 (by decide) rfl, hk.bits 32 rfl rfl, by
    simp only [fieldsOf, fields32, fieldsBinary, hk.fixed 24 5 17 rfl, hk.fixed 0 4 5 rfl,
        fin_at (by rfl) (hk.val 0 rfl rfl), fin_at (by rfl) (hk.val 1 rfl rfl), fin_at (by rfl) (hk.val 2 rfl rfl),
        fin_fld (hk.val 3 rfl rfl), bool_at (hk.val 4 rfl rfl), bool_at (hk.val 5 rfl rfl)]⟩

theorem vor d a b p c k : Statement (.vor d a b p c k) := by
  rintro hwf _ _ ⟨⟩
  have hp : p.val < 2 ^ 3 := of_decide_eq_true hwf
  have hk : Laid 0xD1000006 [(d.val, 19), (a.val, 14), (b.val, 9), (p.val, 6), (c.toNat, 5), (k.toNat, 4)] [(19, 5),
      (14, 5), (9, 5), (6, 3), (5, 1), (4, 1)] := ⟨by decide, rfl, d.isLt, rfl, a.isLt, rfl, b.isLt, rfl, hp, rfl,
      bool_lt _, rfl, bool_lt _, trivial⟩
  exact ⟨hk.lt 32 (by decide) rfl, hk.bits 32 rfl rfl, by
    simp only [fieldsOf, fields32, fieldsBinary, hk.fixed 24 5 17 rfl, hk.fixed 0 4 6 rfl,
        fin_at (by rfl) (hk.val 0 rfl rfl), fin_at (by rfl) (hk.val 1 rfl rfl), fin_at (by rfl) (hk.val 2 rfl rfl),
        fin_fld (hk.val 3 rfl rfl), bool_at (hk.val 4 rfl rfl), bool_at (hk.val 5 rfl rfl)]⟩

theorem vxor d a b p c k : Statement (.vxor d a b p c k) := by
  rintro hwf _ _ ⟨⟩
  have hp : p.val < 2 ^ 3 := of_decide_eq_true hwf
  have hk : Laid 0xD1000007 [(d.val, 19), (a.val, 14), (b.val, 9), (p.val, 6), (c.toNat, 5), (k.toNat, 4)] [(19, 5),
      (14, 5), (9, 5), (6, 3), (5, 1), (4, 1)] := ⟨by decide, rfl, d.isLt, rfl, a.isLt, rfl, b.isLt, rfl, hp, rfl,
      bool_lt _, rfl, bool_lt _, trivial⟩
  exact ⟨hk.lt 32 (by decide) rfl, hk.bits 32 rfl rfl, by
    simp only [fieldsOf, fields32, fieldsBinary, hk.fixed 24 5 17 rfl, hk.fixed 0 4 7 rfl,
        fin_at (by rfl) (hk.val 0 rfl rfl), fin_at (by rfl) (hk.val 1 rfl rfl), fin_at (by rfl) (hk.val 2 rfl rfl),
        fin_fld (hk.val 3 rfl rfl), bool_at (hk.val 4 rfl rfl), bool_at (hk.val 5 rfl rfl)]⟩

theorem vaddVx d a x p c : Statement (.vaddVx d a x p c) := by
  rintro hwf _ _ ⟨⟩
  have hp : p.val < 2 ^ 3 := of_decide_eq_true hwf
  have hk : Laid 0xD1000008 [(d.val, 19), (a.val, 14), (x.val, 9), (p.val, 6), (c.toNat, 5)] [(19, 5), (14, 5), (9,
      5), (6, 3), (5, 1)] := ⟨by decide, rfl, d.isLt, rfl, a.isLt, rfl, x.isLt, rfl, hp, rfl, bool_lt _, trivial⟩
  exact ⟨hk.lt 32 (by decide) rfl, hk.bits 32 rfl rfl, by
    simp only [fieldsOf, fields32, fieldsBinary, hk.fixed 24 5 17 rfl, hk.fixed 0 4 8 rfl,
        fin_at (by rfl) (hk.val 0 rfl rfl), fin_at (by rfl) (hk.val 1 rfl rfl), fin_at (by rfl) (hk.val 2 rfl rfl),
        fin_fld (hk.val 3 rfl rfl), bool_at (hk.val 4 rfl rfl)]⟩

theorem vsubVx d a x p c : Statement (.vsubVx d a x p c) := by
  rintro hwf _ _ ⟨⟩
  have hp : p.val < 2 ^ 3 := of_decide_eq_true hwf
  have hk : Laid 0xD1000009 [(d.val, 19), (a.val, 14), (x.val, 9), (p.val, 6), (c.toNat, 5)] [(19, 5), (14, 5), (9,
      5), (6, 3), (5, 1)] := ⟨by decide, rfl, d.isLt, rfl, a.isLt, rfl, x.isLt, rfl, hp, rfl, bool_lt _, trivial⟩
  exact ⟨hk.lt 32 (by decide) rfl, hk.bits 32 rfl rfl, by
    simp only [fieldsOf, fields32, fieldsBinary, hk.fixed 24 5 17 rfl, hk.fixed 0 4 9 rfl,
        fin_at (by rfl) (hk.val 0 rfl rfl), fin_at (by rfl) (hk.val 1 rfl rfl), fin_at (by rfl) (hk.val 2 rfl rfl),
        fin_fld (hk.val 3 rfl rfl), bool_at (hk.val 4 rfl rfl)]⟩

theorem vmulVx d a x p c : Statement (.vmulVx d a x p c) := by
  rintro hwf _ _ ⟨⟩
  have hp : p.val < 2 ^ 3 := of_decide_eq_true hwf
  have hk : Laid 0xD100000A [(d.val, 19), (a.val, 14), (x.val, 9), (p.val, 6), (c.toNat, 5)] [(19, 5), (14, 5), (9,
      5), (6, 3), (5, 1)] := ⟨by decide, rfl, d.isLt, rfl, a.isLt, rfl, x.isLt, rfl, hp, rfl, bool_lt _, trivial⟩
  exact ⟨hk.lt 32 (by decide) rfl, hk.bits 32 rfl rfl, by
    simp only [fieldsOf, fields32, fieldsBinary, hk.fixed 24 5 17 rfl, hk.fixed 0 4 10 rfl,
        fin_at (by rfl) (hk.val 0 rfl rfl), fin_at (by rfl) (hk.val 1 rfl rfl), fin_at (by rfl) (hk.val 2 rfl rfl),
        fin_fld (hk.val 3 rfl rfl), bool_at (hk.val 4 rfl rfl)]⟩

theorem vminVx d a x p c : Statement (.vminVx d a x p c) := by
  rintro hwf _ _ ⟨⟩
  have hp : p.val < 2 ^ 3 := of_decide_eq_true hwf
  have hk : Laid 0xD100000B [(d.val, 19), (a.val, 14), (x.val, 9), (p.val, 6), (c.toNat, 5)] [(19, 5), (14, 5), (9,
      5), (6, 3), (5, 1)] := ⟨by decide, rfl, d.isLt, rfl, a.isLt, rfl, x.isLt, rfl, hp, rfl, bool_lt _, trivial⟩
  exact ⟨hk.lt 32 (by decide) rfl, hk.bits 32 rfl rfl, by
    simp only [fieldsOf, fields32, fieldsBinary, hk.fixed 24 5 17 rfl, hk.fixed 0 4 11 rfl,
        fin_at (by rfl) (hk.val 0 rfl rfl), fin_at (by rfl) (hk.val 1 rfl rfl), fin_at (by rfl) (hk.val 2 rfl rfl),
        fin_fld (hk.val 3 rfl rfl), bool_at (hk.val 4 rfl rfl)]⟩

theorem vmaxVx d a x p c : Statement (.vmaxVx d a x p c) := by
  rintro hwf _ _ ⟨⟩
  have hp : p.val < 2 ^ 3 := of_decide_eq_true hwf
  have hk : Laid 0xD100000C [(d.val, 19), (a.val, 14), (x.val, 9), (p.val, 6), (c.toNat, 5)] [(19, 5), (14, 5), (9,
      5), (6, 3), (5, 1)] := ⟨by decide, rfl, d.isLt, rfl, a.isLt, rfl, x.isLt, rfl, hp, rfl, bool_lt _, trivial⟩
  exact ⟨hk.lt 32 (by decide) rfl, hk.bits 32 rfl rfl, by
    simp only [fieldsOf, fields32, fieldsBinary, hk.fixed 24 5 17 rfl, hk.fixed 0 4 12 rfl,
        fin_at (by rfl) (hk.val 0 rfl rfl), fin_at (by rfl) (hk.val 1 rfl rfl), fin_at (by rfl) (hk.val 2 rfl rfl),
        fin_fld (hk.val 3 rfl rfl), bool_at (hk.val 4 rfl rfl)]⟩

theorem vandVx d a x p c : Statement (.vandVx d a x p c) := by
  rintro hwf _ _ ⟨⟩
  have hp : p.val < 2 ^ 3 := of_decide_eq_true hwf
  have hk : Laid 0xD100000D [(d.val, 19), (a.val, 14), (x.val, 9), (p.val, 6), (c.toNat, 5)] [(19, 5), (14, 5), (9,
      5), (6, 3), (5, 1)] := ⟨by decide, rfl, d.isLt, rfl, a.isLt, rfl, x.isLt, rfl, hp, rfl, bool_lt _, trivial⟩
  exact ⟨hk.lt 32 (by decide) rfl, hk.bits 32 rfl rfl, by
    simp only [fieldsOf, fields32, fieldsBinary, hk.fixed 24 5 17 rfl, hk.fixed 0 4 13 rfl,
        fin_at (by rfl) (hk.val 0 rfl rfl), fin_at (by rfl) (hk.val 1 rfl rfl), fin_at (by rfl) (hk.val 2 rfl rfl),
        fin_fld (hk.val 3 rfl rfl), bool_at (hk.val 4 rfl rfl)]⟩

theorem vorVx d a x p c : Statement (.vorVx d a x p c) := by
  rintro hwf _ _ ⟨⟩
  have hp : p.val < 2 ^ 3 := of_decide_eq_true hwf
  have hk : Laid 0xD100000E [(d.val, 19), (a.val, 14), (x.val, 9), (p.val, 6), (c.toNat, 5)] [(19, 5), (14, 5), (9,
      5), (6, 3), (5, 1)] := ⟨by decide, rfl, d.isLt, rfl, a.isLt, rfl, x.isLt, rfl, hp, rfl, bool_lt _, trivial⟩
  exact ⟨hk.lt 32 (by decide) rfl, hk.bits 32 rfl rfl, by
    simp only [fieldsOf, fields32, fieldsBinary, hk.fixed 24 5 17 rfl, hk.fixed 0 4 14 rfl,
        fin_at (by rfl) (hk.val 0 rfl rfl), fin_at (by rfl) (hk.val 1 rfl rfl), fin_at (by rfl) (hk.val 2 rfl rfl),
        fin_fld (hk.val 3 rfl rfl), bool_at (hk.val 4 rfl rfl)]⟩

theorem vxorVx d a x p c : Statement (.vxorVx d a x p c) := by
  rintro hwf _ _ ⟨⟩
  have hp : p.val < 2 ^ 3 := of_decide_eq_true hwf
  have hk : Laid 0xD100000F [(d.val, 19), (a.val, 14), (x.val, 9), (p.val, 6), (c.toNat, 5)] [(19, 5), (14, 5), (9,
      5), (6, 3), (5, 1)] := ⟨by decide, rfl, d.isLt, rfl, a.isLt, rfl, x.isLt, rfl, hp, rfl, bool_lt _, trivial⟩
  exact ⟨hk.lt 32 (by decide) rfl, hk.bits 32 rfl rfl, by
    simp only [fieldsOf, fields32, fieldsBinary, hk.fixed 24 5 17 rfl, hk.fixed 0 4 15 rfl,
        fin_at (by rfl) (hk.val 0 rfl rfl), fin_at (by rfl) (hk.val 1 rfl rfl), fin_at (by rfl) (hk.val 2 rfl rfl),
        fin_fld (hk.val 3 rfl rfl), bool_at (hk.val 4 rfl rfl)]⟩

theorem vfma d a b p c k : Statement (.vfma d a b p c k) := by
  rintro hwf _ _ ⟨⟩
  have hp : p.val < 2 ^ 3 := of_decide_eq_true hwf
  have hk : Laid 0xD3000000 [(d.val, 19), (a.val, 14), (b.val, 9), (p.val, 6), (c.toNat, 5), (k.toNat, 4)] [(19, 5),
      (14, 5), (9, 5), (6, 3), (5, 1), (4, 1)] := ⟨by decide, rfl, d.isLt, rfl, a.isLt, rfl, b.isLt, rfl, hp, rfl,
      bool_lt _, rfl, bool_lt _, trivial⟩
  exact ⟨hk.lt 32 (by decide) rfl, hk.bits 32 rfl rfl, by
    simp only [fieldsOf, fields32, fieldsTernary, hk.fixed 24 5 19 rfl, hk.fixed 0 4 0 rfl,
        fin_at (by rfl) (hk.val 0 rfl rfl), fin_at (by rfl) (hk.val 1 rfl rfl), fin_at (by rfl) (hk.val 2 rfl rfl),
        fin_fld (hk.val 3 rfl rfl), bool_at (hk.val 4 rfl rfl), bool_at (hk.val 5 rfl rfl)]⟩

theorem vfms d a b p c k : Statement (.vfms d a b p c k) := by
  rintro hwf _ _ ⟨⟩
  have hp : p.val < 2 ^ 3 := of_decide_eq_true hwf
  have hk : Laid 0xD3000001 [(d.val, 19), (a.val, 14), (b.val, 9), (p.val, 6), (c.toNat, 5), (k.toNat, 4)] [(19, 5),
      (14, 5), (9, 5), (6, 3), (5, 1), (4, 1)] := ⟨by decide, rfl, d.isLt, rfl, a.isLt, rfl, b.isLt, rfl, hp, rfl,
      bool_lt _, rfl, bool_lt _, trivial⟩
  exact ⟨hk.lt 32 (by decide) rfl, hk.bits 32 rfl rfl, by
    simp only [fieldsOf, fields32, fieldsTernary, hk.fixed 24 5 19 rfl, hk.fixed 0 4 1 rfl,
        fin_at (by rfl) (hk.val 0 rfl rfl), fin_at (by rfl) (hk.val 1 rfl rfl), fin_at (by rfl) (hk.val 2 rfl rfl),
        fin_fld (hk.val 3 rfl rfl), bool_at (hk.val 4 rfl rfl), bool_at (hk.val 5 rfl rfl)]⟩

theorem vfnma d a b p c k : Statement (.vfnma d a b p c k) := by
  rintro hwf _ _ ⟨⟩
  have hp : p.val < 2 ^ 3 := of_decide_eq_true hwf
  have hk : Laid 0xD3000002 [(d.val, 19), (a.val, 14), (b.val, 9), (p.val, 6), (c.toNat, 5), (k.toNat, 4)] [(19, 5),
      (14, 5), (9, 5), (6, 3), (5, 1), (4, 1)] := ⟨by decide, rfl, d.isLt, rfl, a.isLt, rfl, b.isLt, rfl, hp, rfl,
      bool_lt _, rfl, bool_lt _, trivial⟩
  exact ⟨hk.lt 32 (by decide) rfl, hk.bits 32 rfl rfl, by
    simp only [fieldsOf, fields32, fieldsTernary, hk.fixed 24 5 19 rfl, hk.fixed 0 4 2 rfl,
        fin_at (by rfl) (hk.val 0 rfl rfl), fin_at (by rfl) (hk.val 1 rfl rfl), fin_at (by rfl) (hk.val 2 rfl rfl),
        fin_fld (hk.val 3 rfl rfl), bool_at (hk.val 4 rfl rfl), bool_at (hk.val 5 rfl rfl)]⟩

theorem vmacw d a b p c k : Statement (.vmacw d a b p c k) := by
  rintro hwf _ _ ⟨⟩
  have hp : p.val < 2 ^ 3 := of_decide_eq_true hwf
  have hk : Laid 0xD3000003 [(d.val, 19), (a.val, 14), (b.val, 9), (p.val, 6), (c.toNat, 5), (k.toNat, 4)] [(19, 5),
      (14, 5), (9, 5), (6, 3), (5, 1), (4, 1)] := ⟨by decide, rfl, d.isLt, rfl, a.isLt, rfl, b.isLt, rfl, hp, rfl,
      bool_lt _, rfl, bool_lt _, trivial⟩
  exact ⟨hk.lt 32 (by decide) rfl, hk.bits 32 rfl rfl, by
    simp only [fieldsOf, fields32, fieldsTernary, hk.fixed 24 5 19 rfl, hk.fixed 0 4 3 rfl,
        fin_at (by rfl) (hk.val 0 rfl rfl), fin_at (by rfl) (hk.val 1 rfl rfl), fin_at (by rfl) (hk.val 2 rfl rfl),
        fin_fld (hk.val 3 rfl rfl), bool_at (hk.val 4 rfl rfl), bool_at (hk.val 5 rfl rfl)]⟩

theorem vfmaVx d a x p c : Statement (.vfmaVx d a x p c) := by
  rintro hwf _ _ ⟨⟩
  have hp : p.val < 2 ^ 3 := of_decide_eq_true hwf
  have hk : Laid 0xD3000004 [(d.val, 19), (a.val, 14), (x.val, 9), (p.val, 6), (c.toNat, 5)] [(19, 5), (14, 5), (9,
      5), (6, 3), (5, 1)] := ⟨by decide, rfl, d.isLt, rfl, a.isLt, rfl, x.isLt, rfl, hp, rfl, bool_lt _, trivial⟩
  exact ⟨hk.lt 32 (by decide) rfl, hk.bits 32 rfl rfl, by
    simp only [fieldsOf, fields32, fieldsTernary, hk.fixed 24 5 19 rfl, hk.fixed 0 4 4 rfl,
        fin_at (by rfl) (hk.val 0 rfl rfl), fin_at (by rfl) (hk.val 1 rfl rfl), fin_at (by rfl) (hk.val 2 rfl rfl),
        fin_fld (hk.val 3 rfl rfl), bool_at (hk.val 4 rfl rfl)]⟩

theorem vfmsVx d a x p c : Statement (.vfmsVx d a x p c) := by
  rintro hwf _ _ ⟨⟩
  have hp : p.val < 2 ^ 3 := of_decide_eq_true hwf
  have hk : Laid 0xD3000005 [(d.val, 19), (a.val, 14), (x.val, 9), (p.val, 6), (c.toNat, 5)] [(19, 5), (14, 5), (9,
      5), (6, 3), (5, 1)] := ⟨by decide, rfl, d.isLt, rfl, a.isLt, rfl, x.isLt, rfl, hp, rfl, bool_lt _, trivial⟩
  exact ⟨hk.lt 32 (by decide) rfl, hk.bits 32 rfl rfl, by
    simp only [fieldsOf, fields32, fieldsTernary, hk.fixed 24 5 19 rfl, hk.fixed 0 4 5 rfl,
        fin_at (by rfl) (hk.val 0 rfl rfl), fin_at (by rfl) (hk.val 1 rfl rfl), fin_at (by rfl) (hk.val 2 rfl rfl),
        fin_fld (hk.val 3 rfl rfl), bool_at (hk.val 4 rfl rfl)]⟩

theorem vfnmaVx d a x p c : Statement (.vfnmaVx d a x p c) := by
  rintro hwf _ _ ⟨⟩
  have hp : p.val < 2 ^ 3 := of_decide_eq_true hwf
  have hk : Laid 0xD3000006 [(d.val, 19), (a.val, 14), (x.val, 9), (p.val, 6), (c.toNat, 5)] [(19, 5), (14, 5), (9,
      5), (6, 3), (5, 1)] := ⟨by decide, rfl, d.isLt, rfl, a.isLt, rfl, x.isLt, rfl, hp, rfl, bool_lt _, trivial⟩
  exact ⟨hk.lt 32 (by decide) rfl, hk.bits 32 rfl rfl, by
    simp only [fieldsOf, fields32, fieldsTernary, hk.fixed 24 5 19 rfl, hk.fixed 0 4 6 rfl,
        fin_at (by rfl) (hk.val 0 rfl rfl), fin_at (by rfl) (hk.val 1 rfl rfl), fin_at (by rfl) (hk.val 2 rfl rfl),
        fin_fld (hk.val 3 rfl rfl), bool_at (hk.val 4 rfl rfl)]⟩

theorem vmacwVx d a x p c : Statement (.vmacwVx d a x p c) := by
  rintro hwf _ _ ⟨⟩
  have hp : p.val < 2 ^ 3 := of_decide_eq_true hwf
  have hk : Laid 0xD3000007 [(d.val, 19), (a.val, 14), (x.val, 9), (p.val, 6), (c.toNat, 5)] [(19, 5), (14, 5), (9,
      5), (6, 3), (5, 1)] := ⟨by decide, rfl, d.isLt, rfl, a.isLt, rfl, x.isLt, rfl, hp, rfl, bool_lt _, trivial⟩
  exact ⟨hk.lt 32 (by decide) rfl, hk.bits 32 rfl rfl, by
    simp only [fieldsOf, fields32, fieldsTernary, hk.fixed 24 5 19 rfl, hk.fixed 0 4 7 rfl,
        fin_at (by rfl) (hk.val 0 rfl rfl), fin_at (by rfl) (hk.val 1 rfl rfl), fin_at (by rfl) (hk.val 2 rfl rfl),
        fin_fld (hk.val 3 rfl rfl), bool_at (hk.val 4 rfl rfl)]⟩

theorem vneg d a p c : Statement (.vneg d a p c) := by
  rintro hwf _ _ ⟨⟩
  have hp : p.val < 2 ^ 3 := of_decide_eq_true hwf
  have hk : Laid 0xD3000008 [(d.val, 19), (a.val, 14), (p.val, 6), (c.toNat, 5)] [(19, 5), (14, 5), (6, 3), (5,
      1)] := ⟨by decide, rfl, d.isLt, rfl, a.isLt, rfl, hp, rfl, bool_lt _, trivial⟩
  exact ⟨hk.lt 32 (by decide) rfl, hk.bits 32 rfl rfl, by
    simp only [fieldsOf, fields32, fieldsTernary, hk.fixed 24 5 19 rfl, hk.fixed 0 4 8 rfl, hk.fixed 9 5 0 rfl,
        fin_at (by rfl) (hk.val 0 rfl rfl), fin_at (by rfl) (hk.val 1 rfl rfl), fin_fld (hk.val 2 rfl rfl),
        bool_at (hk.val 3 rfl rfl)]⟩

theorem vabs d a p c : Statement (.vabs d a p c) := by
  rintro hwf _ _ ⟨⟩
  have hp : p.val < 2 ^ 3 := of_decide_eq_true hwf
  have hk : Laid 0xD3000208 [(d.val, 19), (a.val, 14), (p.val, 6), (c.toNat, 5)] [(19, 5), (14, 5), (6, 3), (5,
      1)] := ⟨by decide, rfl, d.isLt, rfl, a.isLt, rfl, hp, rfl, bool_lt _, trivial⟩
  exact ⟨hk.lt 32 (by decide) rfl, hk.bits 32 rfl rfl, by
    simp only [fieldsOf, fields32, fieldsTernary, hk.fixed 24 5 19 rfl, hk.fixed 0 4 8 rfl, hk.fixed 9 5 1 rfl,
        fin_at (by rfl) (hk.val 0 rfl rfl), fin_at (by rfl) (hk.val 1 rfl rfl), fin_fld (hk.val 2 rfl rfl),
        bool_at (hk.val 3 rfl rfl)]⟩

theorem vsqrt d a p c : Statement (.vsqrt d a p c) := by
  rintro hwf _ _ ⟨⟩
  have hp : p.val < 2 ^ 3 := of_decide_eq_true hwf
  have hk : Laid 0xD3000408 [(d.val, 19), (a.val, 14), (p.val, 6), (c.toNat, 5)] [(19, 5), (14, 5), (6, 3), (5,
      1)] := ⟨by decide, rfl, d.isLt, rfl, a.isLt, rfl, hp, rfl, bool_lt _, trivial⟩
  exact ⟨hk.lt 32 (by decide) rfl, hk.bits 32 rfl rfl, by
    simp only [fieldsOf, fields32, fieldsTernary, hk.fixed 24 5 19 rfl, hk.fixed 0 4 8 rfl, hk.fixed 9 5 2 rfl,
        fin_at (by rfl) (hk.val 0 rfl rfl), fin_at (by rfl) (hk.val 1 rfl rfl), fin_fld (hk.val 2 rfl rfl),
        bool_at (hk.val 3 rfl rfl)]⟩

theorem vrcp d a p c : Statement (.vrcp d a p c) := by
  rintro hwf _ _ ⟨⟩
  have hp : p.val < 2 ^ 3 := of_decide_eq_true hwf
  have hk : Laid 0xD3000608 [(d.val, 19), (a.val, 14), (p.val, 6), (c.toNat, 5)] [(19, 5), (14, 5), (6, 3), (5,
      1)] := ⟨by decide, rfl, d.isLt, rfl, a.isLt, rfl, hp, rfl, bool_lt _, trivial⟩
  exact ⟨hk.lt 32 (by decide) rfl, hk.bits 32 rfl rfl, by
    simp only [fieldsOf, fields32, fieldsTernary, hk.fixed 24 5 19 rfl, hk.fixed 0 4 8 rfl, hk.fixed 9 5 3 rfl,
        fin_at (by rfl) (hk.val 0 rfl rfl), fin_at (by rfl) (hk.val 1 rfl rfl), fin_fld (hk.val 2 rfl rfl),
        bool_at (hk.val 3 rfl rfl)]⟩

theorem vrsqrt d a p c : Statement (.vrsqrt d a p c) := by
  rintro hwf _ _ ⟨⟩
  have hp : p.val < 2 ^ 3 := of_decide_eq_true hwf
  have hk : Laid 0xD3000808 [(d.val, 19), (a.val, 14), (p.val, 6), (c.toNat, 5)] [(19, 5), (14, 5), (6, 3), (5,
      1)] := ⟨by decide, rfl, d.isLt, rfl, a.isLt, rfl, hp, rfl, bool_lt _, trivial⟩
  exact ⟨hk.lt 32 (by decide) rfl, hk.bits 32 rfl rfl, by
    simp only [fieldsOf, fields32, fieldsTernary, hk.fixed 24 5 19 rfl, hk.fixed 0 4 8 rfl, hk.fixed 9 5 4 rfl,
        fin_at (by rfl) (hk.val 0 rfl rfl), fin_at (by rfl) (hk.val 1 rfl rfl), fin_fld (hk.val 2 rfl rfl),
        bool_at (hk.val 3 rfl rfl)]⟩

theorem vexp2 d a p c : Statement (.vexp2 d a p c) := by
  rintro hwf _ _ ⟨⟩
  have hp : p.val < 2 ^ 3 := of_decide_eq_true hwf
  have hk : Laid 0xD3000A08 [(d.val, 19), (a.val, 14), (p.val, 6), (c.toNat, 5)] [(19, 5), (14, 5), (6, 3), (5,
      1)] := ⟨by decide, rfl, d.isLt, rfl, a.isLt, rfl, hp, rfl, bool_lt _, trivial⟩
  exact ⟨hk.lt 32 (by decide) rfl, hk.bits 32 rfl rfl, by
    simp only [fieldsOf, fields32, fieldsTernary, hk.fixed 24 5 19 rfl, hk.fixed 0 4 8 rfl, hk.fixed 9 5 5 rfl,
        fin_at (by rfl) (hk.val 0 rfl rfl), fin_at (by rfl) (hk.val 1 rfl rfl), fin_fld (hk.val 2 rfl rfl),
        bool_at (hk.val 3 rfl rfl)]⟩

theorem vclz d a p c : Statement (.vclz d a p c) := by
  rintro hwf _ _ ⟨⟩
  have hp : p.val < 2 ^ 3 := of_decide_eq_true hwf
  have hk : Laid 0xD3000C08 [(d.val, 19), (a.val, 14), (p.val, 6), (c.toNat, 5)] [(19, 5), (14, 5), (6, 3), (5,
      1)] := ⟨by decide, rfl, d.isLt, rfl, a.isLt, rfl, hp, rfl, bool_lt _, trivial⟩
  exact ⟨hk.lt 32 (by decide) rfl, hk.bits 32 rfl rfl, by
    simp only [fieldsOf, fields32, fieldsTernary, hk.fixed 24 5 19 rfl, hk.fixed 0 4 8 rfl, hk.fixed 9 5 6 rfl,
        fin_at (by rfl) (hk.val 0 rfl rfl), fin_at (by rfl) (hk.val 1 rfl rfl), fin_fld (hk.val 2 rfl rfl),
        bool_at (hk.val 3 rfl rfl)]⟩

theorem vpopc d a p c : Statement (.vpopc d a p c) := by
  rintro hwf _ _ ⟨⟩
  have hp : p.val < 2 ^ 3 := of_decide_eq_true hwf
  have hk : Laid 0xD3000E08 [(d.val, 19), (a.val, 14), (p.val, 6), (c.toNat, 5)] [(19, 5), (14, 5), (6, 3), (5,
      1)] := ⟨by decide, rfl, d.isLt, rfl, a.isLt, rfl, hp, rfl, bool_lt _, trivial⟩
  exact ⟨hk.lt 32 (by decide) rfl, hk.bits 32 rfl rfl, by
    simp only [fieldsOf, fields32, fieldsTernary, hk.fixed 24 5 19 rfl, hk.fixed 0 4 8 rfl, hk.fixed 9 5 7 rfl,
        fin_at (by rfl) (hk.val 0 rfl rfl), fin_at (by rfl) (hk.val 1 rfl rfl), fin_fld (hk.val 2 rfl rfl),
        bool_at (hk.val 3 rfl rfl)]⟩

theorem vclass d a p c : Statement (.vclass d a p c) := by
  rintro hwf _ _ ⟨⟩
  have hp : p.val < 2 ^ 3 := of_decide_eq_true hwf
  have hk : Laid 0xD3001008 [(d.val, 19), (a.val, 14), (p.val, 6), (c.toNat, 5)] [(19, 5), (14, 5), (6, 3), (5,
      1)] := ⟨by decide, rfl, d.isLt, rfl, a.isLt, rfl, hp, rfl, bool_lt _, trivial⟩
  exact ⟨hk.lt 32 (by decide) rfl, hk.bits 32 rfl rfl, by
    simp only [fieldsOf, fields32, fieldsTernary, hk.fixed 24 5 19 rfl, hk.fixed 0 4 8 rfl, hk.fixed 9 5 8 rfl,
        fin_at (by rfl) (hk.val 0 rfl rfl), fin_at (by rfl) (hk.val 1 rfl rfl), fin_fld (hk.val 2 rfl rfl),
        bool_at (hk.val 3 rfl rfl)]⟩

theorem vmv d a p c : Statement (.vmv d a p c) := by
  rintro hwf _ _ ⟨⟩
  have hp : p.val < 2 ^ 3 := of_decide_eq_true hwf
  have hk : Laid 0xD3001208 [(d.val, 19), (a.val, 14), (p.val, 6), (c.toNat, 5)] [(19, 5), (14, 5), (6, 3), (5,
      1)] := ⟨by decide, rfl, d.isLt, rfl, a.isLt, rfl, hp, rfl, bool_lt _, trivial⟩
  exact ⟨hk.lt 32 (by decide) rfl, hk.bits 32 rfl rfl, by
    simp only [fieldsOf, fields32, fieldsTernary, hk.fixed 24 5 19 rfl, hk.fixed 0 4 8 rfl, hk.fixed 9 5 9 rfl,
        fin_at (by rfl) (hk.val 0 rfl rfl), fin_at (by rfl) (hk.val 1 rfl rfl), fin_fld (hk.val 2 rfl rfl),
        bool_at (hk.val 3 rfl rfl)]⟩

theorem vsel d a b p c k : Statement (.vsel d a b p c k) := by
  rintro hwf _ _ ⟨⟩
  have hp : p.val < 2 ^ 3 := of_decide_eq_true hwf
  have hk : Laid 0xD3000009 [(d.val, 19), (a.val, 14), (b.val, 9), (p.val, 6), (c.toNat, 5), (k.toNat, 4)] [(19, 5),
      (14, 5), (9, 5), (6, 3), (5, 1), (4, 1)] := ⟨by decide, rfl, d.isLt, rfl, a.isLt, rfl, b.isLt, rfl, hp, rfl,
      bool_lt _, rfl, bool_lt _, trivial⟩
  exact ⟨hk.lt 32 (by decide) rfl, hk.bits 32 rfl rfl, by
    simp only [fieldsOf, fields32, fieldsTernary, hk.fixed 24 5 19 rfl, hk.fixed 0 4 9 rfl,
        fin_at (by rfl) (hk.val 0 rfl rfl), fin_at (by rfl) (hk.val 1 rfl rfl), fin_at (by rfl) (hk.val 2 rfl rfl),
        fin_fld (hk.val 3 rfl rfl), bool_at (hk.val 4 rfl rfl), bool_at (hk.val 5 rfl rfl)]⟩

theorem vsplat d x p : Statement (.vsplat d x p) := by
  rintro hwf _ _ ⟨⟩
  have hp : p.val < 2 ^ 3 := of_decide_eq_true hwf
  have hk : Laid 0xD300000A [(d.val, 19), (x.val, 9), (p.val, 6)] [(19, 5), (9, 5), (6, 3)] := ⟨by decide, rfl,
      d.isLt, rfl, x.isLt, rfl, hp, trivial⟩
  exact ⟨hk.lt 32 (by decide) rfl, hk.bits 32 rfl rfl, by
    simp only [fieldsOf, fields32, fieldsTernary, hk.fixed 24 5 19 rfl, hk.fixed 0 4 10 rfl,
        fin_at (by rfl) (hk.val 0 rfl rfl), fin_at (by rfl) (hk.val 1 rfl rfl), fin_fld (hk.val 2 rfl rfl)]⟩

theorem vid d p : Statement (.vid d p) := by
  rintro hwf _ _ ⟨⟩
  have hp : p.val < 2 ^ 3 := of_decide_eq_true hwf
  have hk : Laid 0xD300000B [(d.val, 19), (p.val, 6)] [(19, 5), (6, 3)] := ⟨by decide, rfl, d.isLt, rfl, hp, trivial⟩
  exact ⟨hk.lt 32 (by decide) rfl, hk.bits 32 rfl rfl, by
    simp only [fieldsOf, fields32, fieldsTernary, hk.fixed 24 5 19 rfl, hk.fixed 0 4 11 rfl,
        fin_at (by rfl) (hk.val 0 rfl rfl), fin_fld (hk.val 1 rfl rfl)]⟩

theorem vshl d a b p c k : Statement (.vshl d a b p c k) := by
  rintro hwf _ _ ⟨⟩
  have hp : p.val < 2 ^ 3 := of_decide_eq_true hwf
  have hk : Laid 0xD300000C [(d.val, 19), (a.val, 14), (b.val, 9), (p.val, 6), (c.toNat, 5), (k.toNat, 4)] [(19, 5),
      (14, 5), (9, 5), (6, 3), (5, 1), (4, 1)] := ⟨by decide, rfl, d.isLt, rfl, a.isLt, rfl, b.isLt, rfl, hp, rfl,
      bool_lt _, rfl, bool_lt _, trivial⟩
  exact ⟨hk.lt 32 (by decide) rfl, hk.bits 32 rfl rfl, by
    simp only [fieldsOf, fields32, fieldsTernary, hk.fixed 24 5 19 rfl, hk.fixed 0 4 12 rfl,
        fin_at (by rfl) (hk.val 0 rfl rfl), fin_at (by rfl) (hk.val 1 rfl rfl), fin_at (by rfl) (hk.val 2 rfl rfl),
        fin_fld (hk.val 3 rfl rfl), bool_at (hk.val 4 rfl rfl), bool_at (hk.val 5 rfl rfl)]⟩

theorem vshr d a b p c k : Statement (.vshr d a b p c k) := by
  rintro hwf _ _ ⟨⟩
  have hp : p.val < 2 ^ 3 := of_decide_eq_true hwf
  have hk : Laid 0xD300000D [(d.val, 19), (a.val, 14), (b.val, 9), (p.val, 6), (c.toNat, 5), (k.toNat, 4)] [(19, 5),
      (14, 5), (9, 5), (6, 3), (5, 1), (4, 1)] := ⟨by decide, rfl, d.isLt, rfl, a.isLt, rfl, b.isLt, rfl, hp, rfl,
      bool_lt _, rfl, bool_lt _, trivial⟩
  exact ⟨hk.lt 32 (by decide) rfl, hk.bits 32 rfl rfl, by
    simp only [fieldsOf, fields32, fieldsTernary, hk.fixed 24 5 19 rfl, hk.fixed 0 4 13 rfl,
        fin_at (by rfl) (hk.val 0 rfl rfl), fin_at (by rfl) (hk.val 1 rfl rfl), fin_at (by rfl) (hk.val 2 rfl rfl),
        fin_fld (hk.val 3 rfl rfl), bool_at (hk.val 4 rfl rfl), bool_at (hk.val 5 rfl rfl)]⟩

theorem vshlVx d a x p c : Statement (.vshlVx d a x p c) := by
  rintro hwf _ _ ⟨⟩
  have hp : p.val < 2 ^ 3 := of_decide_eq_true hwf
  have hk : Laid 0xD300000E [(d.val, 19), (a.val, 14), (x.val, 9), (p.val, 6), (c.toNat, 5)] [(19, 5), (14, 5), (9,
      5), (6, 3), (5, 1)] := ⟨by decide, rfl, d.isLt, rfl, a.isLt, rfl, x.isLt, rfl, hp, rfl, bool_lt _, trivial⟩
  exact ⟨hk.lt 32 (by decide) rfl, hk.bits 32 rfl rfl, by
    simp only [fieldsOf, fields32, fieldsTernary, hk.fixed 24 5 19 rfl, hk.fixed 0 4 14 rfl,
        fin_at (by rfl) (hk.val 0 rfl rfl), fin_at (by rfl) (hk.val 1 rfl rfl), fin_at (by rfl) (hk.val 2 rfl rfl),
        fin_fld (hk.val 3 rfl rfl), bool_at (hk.val 4 rfl rfl)]⟩

theorem vshrVx d a x p c : Statement (.vshrVx d a x p c) := by
  rintro hwf _ _ ⟨⟩
  have hp : p.val < 2 ^ 3 := of_decide_eq_true hwf
  have hk : Laid 0xD300000F [(d.val, 19), (a.val, 14), (x.val, 9), (p.val, 6), (c.toNat, 5)] [(19, 5), (14, 5), (9,
      5), (6, 3), (5, 1)] := ⟨by decide, rfl, d.isLt, rfl, a.isLt, rfl, x.isLt, rfl, hp, rfl, bool_lt _, trivial⟩
  exact ⟨hk.lt 32 (by decide) rfl, hk.bits 32 rfl rfl, by
    simp only [fieldsOf, fields32, fieldsTernary, hk.fixed 24 5 19 rfl, hk.fixed 0 4 15 rfl,
        fin_at (by rfl) (hk.val 0 rfl rfl), fin_at (by rfl) (hk.val 1 rfl rfl), fin_at (by rfl) (hk.val 2 rfl rfl),
        fin_fld (hk.val 3 rfl rfl), bool_at (hk.val 4 rfl rfl)]⟩

theorem vcmp q a b m c k n : Statement (.vcmp q a b m c k n) := by
  rintro hwf _ _ ⟨⟩
  have hp : m.val < 2 ^ 3 := of_decide_eq_true hwf
  have hk : Laid 0xD4000000 [(q.val, 19), (a.val, 14), (b.val, 9), (m.val, 6), (c.toNat, 5), (k.toNat, 4), (n.code,
      0)] [(19, 4), (14, 5), (9, 5), (6, 3), (5, 1), (4, 1), (0, 3)] := ⟨by decide, rfl, q.isLt, rfl, a.isLt, rfl,
      b.isLt, rfl, hp, rfl, bool_lt _, rfl, bool_lt _, rfl, Cond_lt _, trivial⟩
  exact ⟨hk.lt 32 (by decide) rfl, hk.bits 32 rfl rfl, by
    simp only [fieldsOf, fields32, fieldsCompare, hk.fixed 24 5 20 rfl, hk.fixed 3 1 0 rfl,
        fin_at (by rfl) (hk.val 0 rfl rfl), fin_at (by rfl) (hk.val 1 rfl rfl), fin_at (by rfl) (hk.val 2 rfl rfl),
        fin_fld (hk.val 3 rfl rfl), bool_at (hk.val 4 rfl rfl), bool_at (hk.val 5 rfl rfl),
        Cond_at (hk.val 6 rfl rfl), Option.bind_some, ↓reduceIte]⟩

theorem vcmpVx q a x m c n : Statement (.vcmpVx q a x m c n) := by
  rintro hwf _ _ ⟨⟩
  have hp : m.val < 2 ^ 3 := of_decide_eq_true hwf
  have hk : Laid 0xD4000008 [(q.val, 19), (a.val, 14), (x.val, 9), (m.val, 6), (c.toNat, 5), (n.code, 0)] [(19, 4),
      (14, 5), (9, 5), (6, 3), (5, 1), (0, 3)] := ⟨by decide, rfl, q.isLt, rfl, a.isLt, rfl, x.isLt, rfl, hp, rfl,
      bool_lt _, rfl, Cond_lt _, trivial⟩
  exact ⟨hk.lt 32 (by decide) rfl, hk.bits 32 rfl rfl, by
    simp only [fieldsOf, fields32, fieldsCompare, hk.fixed 24 5 20 rfl, hk.fixed 3 1 1 rfl,
        fin_at (by rfl) (hk.val 0 rfl rfl), fin_at (by rfl) (hk.val 1 rfl rfl), fin_at (by rfl) (hk.val 2 rfl rfl),
        fin_fld (hk.val 3 rfl rfl), bool_at (hk.val 4 rfl rfl), Cond_at (hk.val 5 rfl rfl), Option.bind_some,
        Nat.one_ne_zero, ↓reduceIte]⟩

theorem vredsum d a b p c k : Statement (.vredsum d a b p c k) := by
  rintro hwf _ _ ⟨⟩
  have hp : p.val < 2 ^ 3 := of_decide_eq_true hwf
  have hk : Laid 0xD5000000 [(d.val, 19), (a.val, 14), (b.val, 9), (p.val, 6), (c.toNat, 5), (k.toNat, 4)] [(19, 5),
      (14, 5), (9, 5), (6, 3), (5, 1), (4, 1)] := ⟨by decide, rfl, d.isLt, rfl, a.isLt, rfl, b.isLt, rfl, hp, rfl,
      bool_lt _, rfl, bool_lt _, trivial⟩
  exact ⟨hk.lt 32 (by decide) rfl, hk.bits 32 rfl rfl, by
    simp only [fieldsOf, fields32, fieldsReduce, hk.fixed 24 5 21 rfl, hk.fixed 0 4 0 rfl,
        fin_at (by rfl) (hk.val 0 rfl rfl), fin_at (by rfl) (hk.val 1 rfl rfl), fin_at (by rfl) (hk.val 2 rfl rfl),
        fin_fld (hk.val 3 rfl rfl), bool_at (hk.val 4 rfl rfl), bool_at (hk.val 5 rfl rfl)]⟩

theorem vredsumOrd d a b p c k : Statement (.vredsumOrd d a b p c k) := by
  rintro hwf _ _ ⟨⟩
  have hp : p.val < 2 ^ 3 := of_decide_eq_true hwf
  have hk : Laid 0xD5000001 [(d.val, 19), (a.val, 14), (b.val, 9), (p.val, 6), (c.toNat, 5), (k.toNat, 4)] [(19, 5),
      (14, 5), (9, 5), (6, 3), (5, 1), (4, 1)] := ⟨by decide, rfl, d.isLt, rfl, a.isLt, rfl, b.isLt, rfl, hp, rfl,
      bool_lt _, rfl, bool_lt _, trivial⟩
  exact ⟨hk.lt 32 (by decide) rfl, hk.bits 32 rfl rfl, by
    simp only [fieldsOf, fields32, fieldsReduce, hk.fixed 24 5 21 rfl, hk.fixed 0 4 1 rfl,
        fin_at (by rfl) (hk.val 0 rfl rfl), fin_at (by rfl) (hk.val 1 rfl rfl), fin_at (by rfl) (hk.val 2 rfl rfl),
        fin_fld (hk.val 3 rfl rfl), bool_at (hk.val 4 rfl rfl), bool_at (hk.val 5 rfl rfl)]⟩

theorem vredmin d a b p c k : Statement (.vredmin d a b p c k) := by
  rintro hwf _ _ ⟨⟩
  have hp : p.val < 2 ^ 3 := of_decide_eq_true hwf
  have hk : Laid 0xD5000002 [(d.val, 19), (a.val, 14), (b.val, 9), (p.val, 6), (c.toNat, 5), (k.toNat, 4)] [(19, 5),
      (14, 5), (9, 5), (6, 3), (5, 1), (4, 1)] := ⟨by decide, rfl, d.isLt, rfl, a.isLt, rfl, b.isLt, rfl, hp, rfl,
      bool_lt _, rfl, bool_lt _, trivial⟩
  exact ⟨hk.lt 32 (by decide) rfl, hk.bits 32 rfl rfl, by
    simp only [fieldsOf, fields32, fieldsReduce, hk.fixed 24 5 21 rfl, hk.fixed 0 4 2 rfl,
        fin_at (by rfl) (hk.val 0 rfl rfl), fin_at (by rfl) (hk.val 1 rfl rfl), fin_at (by rfl) (hk.val 2 rfl rfl),
        fin_fld (hk.val 3 rfl rfl), bool_at (hk.val 4 rfl rfl), bool_at (hk.val 5 rfl rfl)]⟩

theorem vredmax d a b p c k : Statement (.vredmax d a b p c k) := by
  rintro hwf _ _ ⟨⟩
  have hp : p.val < 2 ^ 3 := of_decide_eq_true hwf
  have hk : Laid 0xD5000003 [(d.val, 19), (a.val, 14), (b.val, 9), (p.val, 6), (c.toNat, 5), (k.toNat, 4)] [(19, 5),
      (14, 5), (9, 5), (6, 3), (5, 1), (4, 1)] := ⟨by decide, rfl, d.isLt, rfl, a.isLt, rfl, b.isLt, rfl, hp, rfl,
      bool_lt _, rfl, bool_lt _, trivial⟩
  exact ⟨hk.lt 32 (by decide) rfl, hk.bits 32 rfl rfl, by
    simp only [fieldsOf, fields32, fieldsReduce, hk.fixed 24 5 21 rfl, hk.fixed 0 4 3 rfl,
        fin_at (by rfl) (hk.val 0 rfl rfl), fin_at (by rfl) (hk.val 1 rfl rfl), fin_at (by rfl) (hk.val 2 rfl rfl),
        fin_fld (hk.val 3 rfl rfl), bool_at (hk.val 4 rfl rfl), bool_at (hk.val 5 rfl rfl)]⟩

theorem vredand d a b p c k : Statement (.vredand d a b p c k) := by
  rintro hwf _ _ ⟨⟩
  have hp : p.val < 2 ^ 3 := of_decide_eq_true hwf
  have hk : Laid 0xD5000004 [(d.val, 19), (a.val, 14), (b.val, 9), (p.val, 6), (c.toNat, 5), (k.toNat, 4)] [(19, 5),
      (14, 5), (9, 5), (6, 3), (5, 1), (4, 1)] := ⟨by decide, rfl, d.isLt, rfl, a.isLt, rfl, b.isLt, rfl, hp, rfl,
      bool_lt _, rfl, bool_lt _, trivial⟩
  exact ⟨hk.lt 32 (by decide) rfl, hk.bits 32 rfl rfl, by
    simp only [fieldsOf, fields32, fieldsReduce, hk.fixed 24 5 21 rfl, hk.fixed 0 4 4 rfl,
        fin_at (by rfl) (hk.val 0 rfl rfl), fin_at (by rfl) (hk.val 1 rfl rfl), fin_at (by rfl) (hk.val 2 rfl rfl),
        fin_fld (hk.val 3 rfl rfl), bool_at (hk.val 4 rfl rfl), bool_at (hk.val 5 rfl rfl)]⟩

theorem vredor d a b p c k : Statement (.vredor d a b p c k) := by
  rintro hwf _ _ ⟨⟩
  have hp : p.val < 2 ^ 3 := of_decide_eq_true hwf
  have hk : Laid 0xD5000005 [(d.val, 19), (a.val, 14), (b.val, 9), (p.val, 6), (c.toNat, 5), (k.toNat, 4)] [(19, 5),
      (14, 5), (9, 5), (6, 3), (5, 1), (4, 1)] := ⟨by decide, rfl, d.isLt, rfl, a.isLt, rfl, b.isLt, rfl, hp, rfl,
      bool_lt _, rfl, bool_lt _, trivial⟩
  exact ⟨hk.lt 32 (by decide) rfl, hk.bits 32 rfl rfl, by
    simp only [fieldsOf, fields32, fieldsReduce, hk.fixed 24 5 21 rfl, hk.fixed 0 4 5 rfl,
        fin_at (by rfl) (hk.val 0 rfl rfl), fin_at (by rfl) (hk.val 1 rfl rfl), fin_at (by rfl) (hk.val 2 rfl rfl),
        fin_fld (hk.val 3 rfl rfl), bool_at (hk.val 4 rfl rfl), bool_at (hk.val 5 rfl rfl)]⟩

theorem vscan d a p c o : Statement (.vscan d a p c o) := by
  rintro hwf _ _ ⟨⟩
  have hp : p.val < 2 ^ 3 := of_decide_eq_true hwf
  cases o with
  | add =>
    have hk : Laid 0xD5000008 [(d.val, 19), (a.val, 14), (p.val, 6), (c.toNat, 5)] [(19, 5), (14, 5), (6, 3), (5,
        1)] := ⟨by decide, rfl, d.isLt, rfl, a.isLt, rfl, hp, rfl, bool_lt _, trivial⟩
    have e : pack 0xD5000008 [(d.val, 19), (a.val, 14), (p.val, 6), (c.toNat, 5), (ScanOp.add.code,
        0)] = pack 0xD5000008 [(d.val, 19), (a.val, 14), (p.val, 6), (c.toNat, 5)] := pack_last 0xD5000008 0 [(d.val,
        19), (a.val, 14), (p.val, 6), (c.toNat, 5)]
    rw [e]
    exact ⟨hk.lt 32 (by decide) rfl, hk.bits 32 rfl rfl, by
      simp only [fieldsOf, fields32, fieldsReduce, hk.fixed 24 5 21 rfl, hk.fixed 0 4 8 rfl, ScanOp_at (c :=
          .add) (hk.fixed 0 2 0 rfl), fin_at (by rfl) (hk.val 0 rfl rfl), fin_at (by rfl) (hk.val 1 rfl rfl),
          fin_fld (hk.val 2 rfl rfl), bool_at (hk.val 3 rfl rfl)]⟩
  | min =>
    have hk : Laid 0xD5000009 [(d.val, 19), (a.val, 14), (p.val, 6), (c.toNat, 5)] [(19, 5), (14, 5), (6, 3), (5,
        1)] := ⟨by decide, rfl, d.isLt, rfl, a.isLt, rfl, hp, rfl, bool_lt _, trivial⟩
    have e : pack 0xD5000008 [(d.val, 19), (a.val, 14), (p.val, 6), (c.toNat, 5), (ScanOp.min.code,
        0)] = pack 0xD5000009 [(d.val, 19), (a.val, 14), (p.val, 6), (c.toNat, 5)] := pack_last 0xD5000008 1 [(d.val,
        19), (a.val, 14), (p.val, 6), (c.toNat, 5)]
    rw [e]
    exact ⟨hk.lt 32 (by decide) rfl, hk.bits 32 rfl rfl, by
      simp only [fieldsOf, fields32, fieldsReduce, hk.fixed 24 5 21 rfl, hk.fixed 0 4 9 rfl, ScanOp_at (c :=
          .min) (hk.fixed 0 2 1 rfl), fin_at (by rfl) (hk.val 0 rfl rfl), fin_at (by rfl) (hk.val 1 rfl rfl),
          fin_fld (hk.val 2 rfl rfl), bool_at (hk.val 3 rfl rfl)]⟩
  | max =>
    have hk : Laid 0xD500000A [(d.val, 19), (a.val, 14), (p.val, 6), (c.toNat, 5)] [(19, 5), (14, 5), (6, 3), (5,
        1)] := ⟨by decide, rfl, d.isLt, rfl, a.isLt, rfl, hp, rfl, bool_lt _, trivial⟩
    have e : pack 0xD5000008 [(d.val, 19), (a.val, 14), (p.val, 6), (c.toNat, 5), (ScanOp.max.code,
        0)] = pack 0xD500000A [(d.val, 19), (a.val, 14), (p.val, 6), (c.toNat, 5)] := pack_last 0xD5000008 2 [(d.val,
        19), (a.val, 14), (p.val, 6), (c.toNat, 5)]
    rw [e]
    exact ⟨hk.lt 32 (by decide) rfl, hk.bits 32 rfl rfl, by
      simp only [fieldsOf, fields32, fieldsReduce, hk.fixed 24 5 21 rfl, hk.fixed 0 4 10 rfl, ScanOp_at (c :=
          .max) (hk.fixed 0 2 2 rfl), fin_at (by rfl) (hk.val 0 rfl rfl), fin_at (by rfl) (hk.val 1 rfl rfl),
          fin_fld (hk.val 2 rfl rfl), bool_at (hk.val 3 rfl rfl)]⟩
  | or =>
    have hk : Laid 0xD500000B [(d.val, 19), (a.val, 14), (p.val, 6), (c.toNat, 5)] [(19, 5), (14, 5), (6, 3), (5,
        1)] := ⟨by decide, rfl, d.isLt, rfl, a.isLt, rfl, hp, rfl, bool_lt _, trivial⟩
    have e : pack 0xD5000008 [(d.val, 19), (a.val, 14), (p.val, 6), (c.toNat, 5), (ScanOp.or.code,
        0)] = pack 0xD500000B [(d.val, 19), (a.val, 14), (p.val, 6), (c.toNat, 5)] := pack_last 0xD5000008 3 [(d.val,
        19), (a.val, 14), (p.val, 6), (c.toNat, 5)]
    rw [e]
    exact ⟨hk.lt 32 (by decide) rfl, hk.bits 32 rfl rfl, by
      simp only [fieldsOf, fields32, fieldsReduce, hk.fixed 24 5 21 rfl, hk.fixed 0 4 11 rfl, ScanOp_at (c :=
          .or) (hk.fixed 0 2 3 rfl), fin_at (by rfl) (hk.val 0 rfl rfl), fin_at (by rfl) (hk.val 1 rfl rfl),
          fin_fld (hk.val 2 rfl rfl), bool_at (hk.val 3 rfl rfl)]⟩

theorem vscanSeg d a s p c o : Statement (.vscanSeg d a s p c o) := by
  rintro hwf _ _ ⟨⟩
  have hp : p.val < 2 ^ 3 := of_decide_eq_true hwf
  cases o with
  | add =>
    have hk : Laid 0xD500000C [(d.val, 19), (a.val, 14), (s.val, 9), (p.val, 6), (c.toNat, 5)] [(19, 5), (14, 5), (9,
        4), (6, 3), (5, 1)] := ⟨by decide, rfl, d.isLt, rfl, a.isLt, rfl, s.isLt, rfl, hp, rfl, bool_lt _, trivial⟩
    have e : pack 0xD500000C [(d.val, 19), (a.val, 14), (s.val, 9), (p.val, 6), (c.toNat, 5), (ScanOp.add.code,
        0)] = pack 0xD500000C [(d.val, 19), (a.val, 14), (s.val, 9), (p.val, 6), (c.toNat, 5)] :=
        pack_last 0xD500000C 0 [(d.val, 19), (a.val, 14), (s.val, 9), (p.val, 6), (c.toNat, 5)]
    rw [e]
    exact ⟨hk.lt 32 (by decide) rfl, hk.bits 32 rfl rfl, by
      simp only [fieldsOf, fields32, fieldsReduce, hk.fixed 24 5 21 rfl, hk.fixed 0 4 12 rfl, ScanOp_at (c :=
          .add) (hk.fixed 0 2 0 rfl), fin_at (by rfl) (hk.val 0 rfl rfl), fin_at (by rfl) (hk.val 1 rfl rfl),
          fin_at (by rfl) (hk.val 2 rfl rfl), fin_fld (hk.val 3 rfl rfl), bool_at (hk.val 4 rfl rfl)]⟩
  | min =>
    have hk : Laid 0xD500000D [(d.val, 19), (a.val, 14), (s.val, 9), (p.val, 6), (c.toNat, 5)] [(19, 5), (14, 5), (9,
        4), (6, 3), (5, 1)] := ⟨by decide, rfl, d.isLt, rfl, a.isLt, rfl, s.isLt, rfl, hp, rfl, bool_lt _, trivial⟩
    have e : pack 0xD500000C [(d.val, 19), (a.val, 14), (s.val, 9), (p.val, 6), (c.toNat, 5), (ScanOp.min.code,
        0)] = pack 0xD500000D [(d.val, 19), (a.val, 14), (s.val, 9), (p.val, 6), (c.toNat, 5)] :=
        pack_last 0xD500000C 1 [(d.val, 19), (a.val, 14), (s.val, 9), (p.val, 6), (c.toNat, 5)]
    rw [e]
    exact ⟨hk.lt 32 (by decide) rfl, hk.bits 32 rfl rfl, by
      simp only [fieldsOf, fields32, fieldsReduce, hk.fixed 24 5 21 rfl, hk.fixed 0 4 13 rfl, ScanOp_at (c :=
          .min) (hk.fixed 0 2 1 rfl), fin_at (by rfl) (hk.val 0 rfl rfl), fin_at (by rfl) (hk.val 1 rfl rfl),
          fin_at (by rfl) (hk.val 2 rfl rfl), fin_fld (hk.val 3 rfl rfl), bool_at (hk.val 4 rfl rfl)]⟩
  | max =>
    have hk : Laid 0xD500000E [(d.val, 19), (a.val, 14), (s.val, 9), (p.val, 6), (c.toNat, 5)] [(19, 5), (14, 5), (9,
        4), (6, 3), (5, 1)] := ⟨by decide, rfl, d.isLt, rfl, a.isLt, rfl, s.isLt, rfl, hp, rfl, bool_lt _, trivial⟩
    have e : pack 0xD500000C [(d.val, 19), (a.val, 14), (s.val, 9), (p.val, 6), (c.toNat, 5), (ScanOp.max.code,
        0)] = pack 0xD500000E [(d.val, 19), (a.val, 14), (s.val, 9), (p.val, 6), (c.toNat, 5)] :=
        pack_last 0xD500000C 2 [(d.val, 19), (a.val, 14), (s.val, 9), (p.val, 6), (c.toNat, 5)]
    rw [e]
    exact ⟨hk.lt 32 (by decide) rfl, hk.bits 32 rfl rfl, by
      simp only [fieldsOf, fields32, fieldsReduce, hk.fixed 24 5 21 rfl, hk.fixed 0 4 14 rfl, ScanOp_at (c :=
          .max) (hk.fixed 0 2 2 rfl), fin_at (by rfl) (hk.val 0 rfl rfl), fin_at (by rfl) (hk.val 1 rfl rfl),
          fin_at (by rfl) (hk.val 2 rfl rfl), fin_fld (hk.val 3 rfl rfl), bool_at (hk.val 4 rfl rfl)]⟩
  | or =>
    have hk : Laid 0xD500000F [(d.val, 19), (a.val, 14), (s.val, 9), (p.val, 6), (c.toNat, 5)] [(19, 5), (14, 5), (9,
        4), (6, 3), (5, 1)] := ⟨by decide, rfl, d.isLt, rfl, a.isLt, rfl, s.isLt, rfl, hp, rfl, bool_lt _, trivial⟩
    have e : pack 0xD500000C [(d.val, 19), (a.val, 14), (s.val, 9), (p.val, 6), (c.toNat, 5), (ScanOp.or.code,
        0)] = pack 0xD500000F [(d.val, 19), (a.val, 14), (s.val, 9), (p.val, 6), (c.toNat, 5)] :=
        pack_last 0xD500000C 3 [(d.val, 19), (a.val, 14), (s.val, 9), (p.val, 6), (c.toNat, 5)]
    rw [e]
    exact ⟨hk.lt 32 (by decide) rfl, hk.bits 32 rfl rfl, by
      simp only [fieldsOf, fields32, fieldsReduce, hk.fixed 24 5 21 rfl, hk.fixed 0 4 15 rfl, ScanOp_at (c :=
          .or) (hk.fixed 0 2 3 rfl), fin_at (by rfl) (hk.val 0 rfl rfl), fin_at (by rfl) (hk.val 1 rfl rfl),
          fin_at (by rfl) (hk.val 2 rfl rfl), fin_fld (hk.val 3 rfl rfl), bool_at (hk.val 4 rfl rfl)]⟩

theorem vraise d a x p c : Statement (.vraise d a x p c) := by
  rintro hwf _ _ ⟨⟩
  have hp : p.val < 2 ^ 3 := of_decide_eq_true hwf
  have hk : Laid 0xD6000000 [(d.val, 19), (a.val, 14), (x.val, 9), (p.val, 6), (c.toNat, 5)] [(19, 5), (14, 5), (9,
      5), (6, 3), (5, 1)] := ⟨by decide, rfl, d.isLt, rfl, a.isLt, rfl, x.isLt, rfl, hp, rfl, bool_lt _, trivial⟩
  exact ⟨hk.lt 32 (by decide) rfl, hk.bits 32 rfl rfl, by
    simp only [fieldsOf, fields32, fieldsPermute, hk.fixed 24 5 22 rfl, hk.fixed 0 4 0 rfl,
        fin_at (by rfl) (hk.val 0 rfl rfl), fin_at (by rfl) (hk.val 1 rfl rfl), fin_at (by rfl) (hk.val 2 rfl rfl),
        fin_fld (hk.val 3 rfl rfl), bool_at (hk.val 4 rfl rfl)]⟩

theorem vlower d a x p c : Statement (.vlower d a x p c) := by
  rintro hwf _ _ ⟨⟩
  have hp : p.val < 2 ^ 3 := of_decide_eq_true hwf
  have hk : Laid 0xD6000001 [(d.val, 19), (a.val, 14), (x.val, 9), (p.val, 6), (c.toNat, 5)] [(19, 5), (14, 5), (9,
      5), (6, 3), (5, 1)] := ⟨by decide, rfl, d.isLt, rfl, a.isLt, rfl, x.isLt, rfl, hp, rfl, bool_lt _, trivial⟩
  exact ⟨hk.lt 32 (by decide) rfl, hk.bits 32 rfl rfl, by
    simp only [fieldsOf, fields32, fieldsPermute, hk.fixed 24 5 22 rfl, hk.fixed 0 4 1 rfl,
        fin_at (by rfl) (hk.val 0 rfl rfl), fin_at (by rfl) (hk.val 1 rfl rfl), fin_at (by rfl) (hk.val 2 rfl rfl),
        fin_fld (hk.val 3 rfl rfl), bool_at (hk.val 4 rfl rfl)]⟩

theorem vperm d a b p c k : Statement (.vperm d a b p c k) := by
  rintro hwf _ _ ⟨⟩
  have hp : p.val < 2 ^ 3 := of_decide_eq_true hwf
  have hk : Laid 0xD6000002 [(d.val, 19), (a.val, 14), (b.val, 9), (p.val, 6), (c.toNat, 5), (k.toNat, 4)] [(19, 5),
      (14, 5), (9, 5), (6, 3), (5, 1), (4, 1)] := ⟨by decide, rfl, d.isLt, rfl, a.isLt, rfl, b.isLt, rfl, hp, rfl,
      bool_lt _, rfl, bool_lt _, trivial⟩
  exact ⟨hk.lt 32 (by decide) rfl, hk.bits 32 rfl rfl, by
    simp only [fieldsOf, fields32, fieldsPermute, hk.fixed 24 5 22 rfl, hk.fixed 0 4 2 rfl,
        fin_at (by rfl) (hk.val 0 rfl rfl), fin_at (by rfl) (hk.val 1 rfl rfl), fin_at (by rfl) (hk.val 2 rfl rfl),
        fin_fld (hk.val 3 rfl rfl), bool_at (hk.val 4 rfl rfl), bool_at (hk.val 5 rfl rfl)]⟩

theorem vrev d a p c : Statement (.vrev d a p c) := by
  rintro hwf _ _ ⟨⟩
  have hp : p.val < 2 ^ 3 := of_decide_eq_true hwf
  have hk : Laid 0xD6000003 [(d.val, 19), (a.val, 14), (p.val, 6), (c.toNat, 5)] [(19, 5), (14, 5), (6, 3), (5,
      1)] := ⟨by decide, rfl, d.isLt, rfl, a.isLt, rfl, hp, rfl, bool_lt _, trivial⟩
  exact ⟨hk.lt 32 (by decide) rfl, hk.bits 32 rfl rfl, by
    simp only [fieldsOf, fields32, fieldsPermute, hk.fixed 24 5 22 rfl, hk.fixed 0 4 3 rfl,
        fin_at (by rfl) (hk.val 0 rfl rfl), fin_at (by rfl) (hk.val 1 rfl rfl), fin_fld (hk.val 2 rfl rfl),
        bool_at (hk.val 3 rfl rfl)]⟩

theorem vzip d a b p c k : Statement (.vzip d a b p c k) := by
  rintro hwf _ _ ⟨⟩
  have hp : p.val < 2 ^ 3 := of_decide_eq_true hwf
  have hk : Laid 0xD6000004 [(d.val, 19), (a.val, 14), (b.val, 9), (p.val, 6), (c.toNat, 5), (k.toNat, 4)] [(19, 5),
      (14, 5), (9, 5), (6, 3), (5, 1), (4, 1)] := ⟨by decide, rfl, d.isLt, rfl, a.isLt, rfl, b.isLt, rfl, hp, rfl,
      bool_lt _, rfl, bool_lt _, trivial⟩
  exact ⟨hk.lt 32 (by decide) rfl, hk.bits 32 rfl rfl, by
    simp only [fieldsOf, fields32, fieldsPermute, hk.fixed 24 5 22 rfl, hk.fixed 0 4 4 rfl,
        fin_at (by rfl) (hk.val 0 rfl rfl), fin_at (by rfl) (hk.val 1 rfl rfl), fin_at (by rfl) (hk.val 2 rfl rfl),
        fin_fld (hk.val 3 rfl rfl), bool_at (hk.val 4 rfl rfl), bool_at (hk.val 5 rfl rfl)]⟩

theorem vunzip d a b p c k : Statement (.vunzip d a b p c k) := by
  rintro hwf _ _ ⟨⟩
  have hp : p.val < 2 ^ 3 := of_decide_eq_true hwf
  have hk : Laid 0xD6000005 [(d.val, 19), (a.val, 14), (b.val, 9), (p.val, 6), (c.toNat, 5), (k.toNat, 4)] [(19, 5),
      (14, 5), (9, 5), (6, 3), (5, 1), (4, 1)] := ⟨by decide, rfl, d.isLt, rfl, a.isLt, rfl, b.isLt, rfl, hp, rfl,
      bool_lt _, rfl, bool_lt _, trivial⟩
  exact ⟨hk.lt 32 (by decide) rfl, hk.bits 32 rfl rfl, by
    simp only [fieldsOf, fields32, fieldsPermute, hk.fixed 24 5 22 rfl, hk.fixed 0 4 5 rfl,
        fin_at (by rfl) (hk.val 0 rfl rfl), fin_at (by rfl) (hk.val 1 rfl rfl), fin_at (by rfl) (hk.val 2 rfl rfl),
        fin_fld (hk.val 3 rfl rfl), bool_at (hk.val 4 rfl rfl), bool_at (hk.val 5 rfl rfl)]⟩

theorem vsqueeze d a p c : Statement (.vsqueeze d a p c) := by
  rintro hwf _ _ ⟨⟩
  have hp : p.val < 2 ^ 3 := of_decide_eq_true hwf
  have hk : Laid 0xD6000006 [(d.val, 19), (a.val, 14), (p.val, 6), (c.toNat, 5)] [(19, 5), (14, 5), (6, 3), (5,
      1)] := ⟨by decide, rfl, d.isLt, rfl, a.isLt, rfl, hp, rfl, bool_lt _, trivial⟩
  exact ⟨hk.lt 32 (by decide) rfl, hk.bits 32 rfl rfl, by
    simp only [fieldsOf, fields32, fieldsPermute, hk.fixed 24 5 22 rfl, hk.fixed 0 4 6 rfl,
        fin_at (by rfl) (hk.val 0 rfl rfl), fin_at (by rfl) (hk.val 1 rfl rfl), fin_fld (hk.val 2 rfl rfl),
        bool_at (hk.val 3 rfl rfl)]⟩

theorem vspread d a p c : Statement (.vspread d a p c) := by
  rintro hwf _ _ ⟨⟩
  have hp : p.val < 2 ^ 3 := of_decide_eq_true hwf
  have hk : Laid 0xD6000007 [(d.val, 19), (a.val, 14), (p.val, 6), (c.toNat, 5)] [(19, 5), (14, 5), (6, 3), (5,
      1)] := ⟨by decide, rfl, d.isLt, rfl, a.isLt, rfl, hp, rfl, bool_lt _, trivial⟩
  exact ⟨hk.lt 32 (by decide) rfl, hk.bits 32 rfl rfl, by
    simp only [fieldsOf, fields32, fieldsPermute, hk.fixed 24 5 22 rfl, hk.fixed 0 4 7 rfl,
        fin_at (by rfl) (hk.val 0 rfl rfl), fin_at (by rfl) (hk.val 1 rfl rfl), fin_fld (hk.val 2 rfl rfl),
        bool_at (hk.val 3 rfl rfl)]⟩

theorem vrank d p : Statement (.vrank d p) := by
  rintro hwf _ _ ⟨⟩
  have hp : p.val < 2 ^ 3 := of_decide_eq_true hwf
  have hk : Laid 0xD6000008 [(d.val, 19), (p.val, 6)] [(19, 5), (6, 3)] := ⟨by decide, rfl, d.isLt, rfl, hp, trivial⟩
  exact ⟨hk.lt 32 (by decide) rfl, hk.bits 32 rfl rfl, by
    simp only [fieldsOf, fields32, fieldsPermute, hk.fixed 24 5 22 rfl, hk.fixed 0 4 8 rfl,
        fin_at (by rfl) (hk.val 0 rfl rfl), fin_fld (hk.val 1 rfl rfl)]⟩

theorem vconf d a p c : Statement (.vconf d a p c) := by
  rintro hwf _ _ ⟨⟩
  have hp : p.val < 2 ^ 3 := of_decide_eq_true hwf
  have hk : Laid 0xD7000000 [(d.val, 19), (a.val, 14), (p.val, 6), (c.toNat, 5)] [(19, 5), (14, 5), (6, 3), (5,
      1)] := ⟨by decide, rfl, d.isLt, rfl, a.isLt, rfl, hp, rfl, bool_lt _, trivial⟩
  exact ⟨hk.lt 32 (by decide) rfl, hk.bits 32 rfl rfl, by
    simp only [fieldsOf, fields32, fieldsDepend, hk.fixed 24 5 23 rfl, hk.fixed 0 4 0 rfl,
        fin_at (by rfl) (hk.val 0 rfl rfl), fin_at (by rfl) (hk.val 1 rfl rfl), fin_fld (hk.val 2 rfl rfl),
        bool_at (hk.val 3 rfl rfl)]⟩

theorem vpart q a s c : Statement (.vpart q a s c) := by
  rintro hwf _ _ ⟨⟩
  have hk : Laid 0xD7000001 [(q.val, 19), (a.val, 14), (s.val, 9), (c.toNat, 5)] [(19, 4), (14, 5), (9, 4), (5,
      1)] := ⟨by decide, rfl, q.isLt, rfl, a.isLt, rfl, s.isLt, rfl, bool_lt _, trivial⟩
  exact ⟨hk.lt 32 (by decide) rfl, hk.bits 32 rfl rfl, by
    simp only [fieldsOf, fields32, fieldsDepend, hk.fixed 24 5 23 rfl, hk.fixed 0 4 1 rfl,
        fin_at (by rfl) (hk.val 0 rfl rfl), fin_at (by rfl) (hk.val 1 rfl rfl), fin_at (by rfl) (hk.val 2 rfl rfl),
        bool_at (hk.val 3 rfl rfl)]⟩

theorem vcuti q r m : Statement (.vcuti q r m) := by
  rintro hwf _ _ ⟨⟩
  have hp : m.val < 2 ^ 3 := of_decide_eq_true hwf
  have hk : Laid 0xD7000002 [(q.val, 19), (r.val, 14), (m.val, 6)] [(19, 4), (14, 4), (6, 3)] := ⟨by decide, rfl,
      q.isLt, rfl, r.isLt, rfl, hp, trivial⟩
  exact ⟨hk.lt 32 (by decide) rfl, hk.bits 32 rfl rfl, by
    simp only [fieldsOf, fields32, fieldsDepend, hk.fixed 24 5 23 rfl, hk.fixed 0 4 2 rfl,
        fin_at (by rfl) (hk.val 0 rfl rfl), fin_at (by rfl) (hk.val 1 rfl rfl), fin_fld (hk.val 2 rfl rfl)]⟩

theorem vcutx q r m : Statement (.vcutx q r m) := by
  rintro hwf _ _ ⟨⟩
  have hp : m.val < 2 ^ 3 := of_decide_eq_true hwf
  have hk : Laid 0xD7000003 [(q.val, 19), (r.val, 14), (m.val, 6)] [(19, 4), (14, 4), (6, 3)] := ⟨by decide, rfl,
      q.isLt, rfl, r.isLt, rfl, hp, trivial⟩
  exact ⟨hk.lt 32 (by decide) rfl, hk.bits 32 rfl rfl, by
    simp only [fieldsOf, fields32, fieldsDepend, hk.fixed 24 5 23 rfl, hk.fixed 0 4 3 rfl,
        fin_at (by rfl) (hk.val 0 rfl rfl), fin_at (by rfl) (hk.val 1 rfl rfl), fin_fld (hk.val 2 rfl rfl)]⟩

theorem vlast d a p c : Statement (.vlast d a p c) := by
  rintro hwf _ _ ⟨⟩
  have hp : p.val < 2 ^ 3 := of_decide_eq_true hwf
  have hk : Laid 0xD7000004 [(d.val, 19), (a.val, 14), (p.val, 6), (c.toNat, 5)] [(19, 5), (14, 5), (6, 3), (5,
      1)] := ⟨by decide, rfl, d.isLt, rfl, a.isLt, rfl, hp, rfl, bool_lt _, trivial⟩
  exact ⟨hk.lt 32 (by decide) rfl, hk.bits 32 rfl rfl, by
    simp only [fieldsOf, fields32, fieldsDepend, hk.fixed 24 5 23 rfl, hk.fixed 0 4 4 rfl,
        fin_at (by rfl) (hk.val 0 rfl rfl), fin_at (by rfl) (hk.val 1 rfl rfl), fin_fld (hk.val 2 rfl rfl),
        bool_at (hk.val 3 rfl rfl)]⟩

theorem vfirst d a p c : Statement (.vfirst d a p c) := by
  rintro hwf _ _ ⟨⟩
  have hp : p.val < 2 ^ 3 := of_decide_eq_true hwf
  have hk : Laid 0xD7000005 [(d.val, 19), (a.val, 14), (p.val, 6), (c.toNat, 5)] [(19, 5), (14, 5), (6, 3), (5,
      1)] := ⟨by decide, rfl, d.isLt, rfl, a.isLt, rfl, hp, rfl, bool_lt _, trivial⟩
  exact ⟨hk.lt 32 (by decide) rfl, hk.bits 32 rfl rfl, by
    simp only [fieldsOf, fields32, fieldsDepend, hk.fixed 24 5 23 rfl, hk.fixed 0 4 5 rfl,
        fin_at (by rfl) (hk.val 0 rfl rfl), fin_at (by rfl) (hk.val 1 rfl rfl), fin_fld (hk.val 2 rfl rfl),
        bool_at (hk.val 3 rfl rfl)]⟩

theorem vcvt d a t p c : Statement (.vcvt d a t p c) := by
  rintro hwf _ _ ⟨⟩
  have hp : p.val < 2 ^ 3 := of_decide_eq_true hwf
  have hk : Laid 0xD8000000 [(d.val, 19), (a.val, 14), (t.code, 9), (p.val, 6), (c.toNat, 5)] [(19, 5), (14, 5), (9,
      5), (6, 3), (5, 1)] := ⟨by decide, rfl, d.isLt, rfl, a.isLt, rfl, Tag_lt _, rfl, hp, rfl, bool_lt _, trivial⟩
  exact ⟨hk.lt 32 (by decide) rfl, hk.bits 32 rfl rfl, by
    simp only [fieldsOf, fields32, fieldsConvert, hk.fixed 24 5 24 rfl, hk.fixed 0 4 0 rfl,
        fin_at (by rfl) (hk.val 0 rfl rfl), fin_at (by rfl) (hk.val 1 rfl rfl), Tag_at (hk.val 2 rfl rfl),
        fin_fld (hk.val 3 rfl rfl), bool_at (hk.val 4 rfl rfl), Option.bind_some]⟩

theorem vnarrow d a x p c : Statement (.vnarrow d a x p c) := by
  rintro hwf _ _ ⟨⟩
  have hp : p.val < 2 ^ 3 := of_decide_eq_true hwf
  have hk : Laid 0xD8000001 [(d.val, 19), (a.val, 14), (x.val, 9), (p.val, 6), (c.toNat, 5)] [(19, 5), (14, 5), (9,
      5), (6, 3), (5, 1)] := ⟨by decide, rfl, d.isLt, rfl, a.isLt, rfl, x.isLt, rfl, hp, rfl, bool_lt _, trivial⟩
  exact ⟨hk.lt 32 (by decide) rfl, hk.bits 32 rfl rfl, by
    simp only [fieldsOf, fields32, fieldsConvert, hk.fixed 24 5 24 rfl, hk.fixed 0 4 1 rfl,
        fin_at (by rfl) (hk.val 0 rfl rfl), fin_at (by rfl) (hk.val 1 rfl rfl), fin_at (by rfl) (hk.val 2 rfl rfl),
        fin_fld (hk.val 3 rfl rfl), bool_at (hk.val 4 rfl rfl)]⟩

theorem vwiden d a p c : Statement (.vwiden d a p c) := by
  rintro hwf _ _ ⟨⟩
  have hp : p.val < 2 ^ 3 := of_decide_eq_true hwf
  have hk : Laid 0xD8000002 [(d.val, 19), (a.val, 14), (p.val, 6), (c.toNat, 5)] [(19, 5), (14, 5), (6, 3), (5,
      1)] := ⟨by decide, rfl, d.isLt, rfl, a.isLt, rfl, hp, rfl, bool_lt _, trivial⟩
  exact ⟨hk.lt 32 (by decide) rfl, hk.bits 32 rfl rfl, by
    simp only [fieldsOf, fields32, fieldsConvert, hk.fixed 24 5 24 rfl, hk.fixed 0 4 2 rfl,
        fin_at (by rfl) (hk.val 0 rfl rfl), fin_at (by rfl) (hk.val 1 rfl rfl), fin_fld (hk.val 2 rfl rfl),
        bool_at (hk.val 3 rfl rfl)]⟩

theorem evExtended op d a b c p ca cb cc sb : Statement (.evExtended op d a b c p ca cb cc sb) := by
  rintro hwf _ _ ⟨⟩
  have hk : Laid 0xE100000000000000 [(op.code, 47), (d.val, 42), (a.val, 37), (b.val, 32), (c.val, 27), (p.val, 23),
      (ca.toNat, 22), (cb.toNat, 21), (cc.toNat, 20), (sb.toNat, 19)] [(47, 9), (42, 5), (37, 5), (32, 5), (27, 5),
      (23, 4), (22, 1), (21, 1), (20, 1), (19, 1)] := ⟨by decide, rfl, EvOp_lt _, rfl, d.isLt, rfl, a.isLt, rfl,
      b.isLt, rfl, c.isLt, rfl, p.isLt, rfl, bool_lt _, rfl, bool_lt _, rfl, bool_lt _, rfl, bool_lt _, trivial⟩
  have hk8 : Laid 0xE100000000000000 [(op.code, 47), (d.val, 42), (a.val, 37), (b.val, 32), (c.val, 27), (p.val, 23),
      (ca.toNat, 22), (cb.toNat, 21), (cc.toNat, 20), (sb.toNat, 19)] [(47, 8), (42, 5), (37, 5), (32, 5), (27, 5),
      (23, 4), (22, 1), (21, 1), (20, 1), (19, 1)] := ⟨by decide, rfl, EvOp_lt8 _, rfl, d.isLt, rfl, a.isLt, rfl,
      b.isLt, rfl, c.isLt, rfl, p.isLt, rfl, bool_lt _, rfl, bool_lt _, rfl, bool_lt _, rfl, bool_lt _, trivial⟩
  exact ⟨hk.lt 64 (by decide) rfl, hk.bits 64 rfl rfl, by
    simp only [fieldsOf, fields64, fieldsEv, hk.fixed 56 5 1 rfl, hk8.fixed 55 1 0 rfl, EvOp_at (hk.val 0 rfl rfl),
        fin_at (by rfl) (hk.val 1 rfl rfl), fin_at (by rfl) (hk.val 2 rfl rfl), fin_at (by rfl) (hk.val 3 rfl rfl),
        fin_at (by rfl) (hk.val 4 rfl rfl), fin_at (by rfl) (hk.val 5 rfl rfl), bool_at (hk.val 6 rfl rfl),
        bool_at (hk.val 7 rfl rfl), bool_at (hk.val 8 rfl rfl), bool_at (hk.val 9 rfl rfl), Option.bind_some,
        ↓reduceIte]⟩

theorem vmulh d a b p ca cb sb : Statement (.vmulh d a b p ca cb sb) := by
  rintro hwf _ _ ⟨⟩
  have hk : Laid 0xE180000000000000 [(d.val, 42), (a.val, 37), (b.val, 32), (p.val, 23), (ca.toNat, 22), (cb.toNat,
      21), (sb.toNat, 19)] [(42, 5), (37, 5), (32, 5), (23, 4), (22, 1), (21, 1), (19, 1)] := ⟨by decide, rfl,
      d.isLt, rfl, a.isLt, rfl, b.isLt, rfl, p.isLt, rfl, bool_lt _, rfl, bool_lt _, rfl, bool_lt _, trivial⟩
  exact ⟨hk.lt 64 (by decide) rfl, hk.bits 64 rfl rfl, by
    simp only [fieldsOf, fields64, fieldsEv, fieldsEvLong, hk.fixed 56 5 1 rfl, hk.fixed 55 1 1 rfl,
        hk.fixed 47 9 256 rfl, fin_at (by rfl) (hk.val 0 rfl rfl), fin_at (by rfl) (hk.val 1 rfl rfl),
        fin_at (by rfl) (hk.val 2 rfl rfl), fin_at (by rfl) (hk.val 3 rfl rfl), bool_at (hk.val 4 rfl rfl),
        bool_at (hk.val 5 rfl rfl), bool_at (hk.val 6 rfl rfl), Nat.one_ne_zero, ↓reduceIte]⟩

theorem vdiv d a b p ca cb sb : Statement (.vdiv d a b p ca cb sb) := by
  rintro hwf _ _ ⟨⟩
  have hk : Laid 0xE180800000000000 [(d.val, 42), (a.val, 37), (b.val, 32), (p.val, 23), (ca.toNat, 22), (cb.toNat,
      21), (sb.toNat, 19)] [(42, 5), (37, 5), (32, 5), (23, 4), (22, 1), (21, 1), (19, 1)] := ⟨by decide, rfl,
      d.isLt, rfl, a.isLt, rfl, b.isLt, rfl, p.isLt, rfl, bool_lt _, rfl, bool_lt _, rfl, bool_lt _, trivial⟩
  exact ⟨hk.lt 64 (by decide) rfl, hk.bits 64 rfl rfl, by
    simp only [fieldsOf, fields64, fieldsEv, fieldsEvLong, hk.fixed 56 5 1 rfl, hk.fixed 55 1 1 rfl,
        hk.fixed 47 9 257 rfl, fin_at (by rfl) (hk.val 0 rfl rfl), fin_at (by rfl) (hk.val 1 rfl rfl),
        fin_at (by rfl) (hk.val 2 rfl rfl), fin_at (by rfl) (hk.val 3 rfl rfl), bool_at (hk.val 4 rfl rfl),
        bool_at (hk.val 5 rfl rfl), bool_at (hk.val 6 rfl rfl), Nat.one_ne_zero, ↓reduceIte]⟩

theorem vrem d a b p ca cb sb : Statement (.vrem d a b p ca cb sb) := by
  rintro hwf _ _ ⟨⟩
  have hk : Laid 0xE181000000000000 [(d.val, 42), (a.val, 37), (b.val, 32), (p.val, 23), (ca.toNat, 22), (cb.toNat,
      21), (sb.toNat, 19)] [(42, 5), (37, 5), (32, 5), (23, 4), (22, 1), (21, 1), (19, 1)] := ⟨by decide, rfl,
      d.isLt, rfl, a.isLt, rfl, b.isLt, rfl, p.isLt, rfl, bool_lt _, rfl, bool_lt _, rfl, bool_lt _, trivial⟩
  exact ⟨hk.lt 64 (by decide) rfl, hk.bits 64 rfl rfl, by
    simp only [fieldsOf, fields64, fieldsEv, fieldsEvLong, hk.fixed 56 5 1 rfl, hk.fixed 55 1 1 rfl,
        hk.fixed 47 9 258 rfl, fin_at (by rfl) (hk.val 0 rfl rfl), fin_at (by rfl) (hk.val 1 rfl rfl),
        fin_at (by rfl) (hk.val 2 rfl rfl), fin_at (by rfl) (hk.val 3 rfl rfl), bool_at (hk.val 4 rfl rfl),
        bool_at (hk.val 5 rfl rfl), bool_at (hk.val 6 rfl rfl), Nat.one_ne_zero, ↓reduceIte]⟩

theorem vsadd d a b p ca cb sb : Statement (.vsadd d a b p ca cb sb) := by
  rintro hwf _ _ ⟨⟩
  have hk : Laid 0xE181800000000000 [(d.val, 42), (a.val, 37), (b.val, 32), (p.val, 23), (ca.toNat, 22), (cb.toNat,
      21), (sb.toNat, 19)] [(42, 5), (37, 5), (32, 5), (23, 4), (22, 1), (21, 1), (19, 1)] := ⟨by decide, rfl,
      d.isLt, rfl, a.isLt, rfl, b.isLt, rfl, p.isLt, rfl, bool_lt _, rfl, bool_lt _, rfl, bool_lt _, trivial⟩
  exact ⟨hk.lt 64 (by decide) rfl, hk.bits 64 rfl rfl, by
    simp only [fieldsOf, fields64, fieldsEv, fieldsEvLong, hk.fixed 56 5 1 rfl, hk.fixed 55 1 1 rfl,
        hk.fixed 47 9 259 rfl, fin_at (by rfl) (hk.val 0 rfl rfl), fin_at (by rfl) (hk.val 1 rfl rfl),
        fin_at (by rfl) (hk.val 2 rfl rfl), fin_at (by rfl) (hk.val 3 rfl rfl), bool_at (hk.val 4 rfl rfl),
        bool_at (hk.val 5 rfl rfl), bool_at (hk.val 6 rfl rfl), Nat.one_ne_zero, ↓reduceIte]⟩

theorem vssub d a b p ca cb sb : Statement (.vssub d a b p ca cb sb) := by
  rintro hwf _ _ ⟨⟩
  have hk : Laid 0xE182000000000000 [(d.val, 42), (a.val, 37), (b.val, 32), (p.val, 23), (ca.toNat, 22), (cb.toNat,
      21), (sb.toNat, 19)] [(42, 5), (37, 5), (32, 5), (23, 4), (22, 1), (21, 1), (19, 1)] := ⟨by decide, rfl,
      d.isLt, rfl, a.isLt, rfl, b.isLt, rfl, p.isLt, rfl, bool_lt _, rfl, bool_lt _, rfl, bool_lt _, trivial⟩
  exact ⟨hk.lt 64 (by decide) rfl, hk.bits 64 rfl rfl, by
    simp only [fieldsOf, fields64, fieldsEv, fieldsEvLong, hk.fixed 56 5 1 rfl, hk.fixed 55 1 1 rfl,
        hk.fixed 47 9 260 rfl, fin_at (by rfl) (hk.val 0 rfl rfl), fin_at (by rfl) (hk.val 1 rfl rfl),
        fin_at (by rfl) (hk.val 2 rfl rfl), fin_at (by rfl) (hk.val 3 rfl rfl), bool_at (hk.val 4 rfl rfl),
        bool_at (hk.val 5 rfl rfl), bool_at (hk.val 6 rfl rfl), Nat.one_ne_zero, ↓reduceIte]⟩

theorem vavg d a b p ca cb sb : Statement (.vavg d a b p ca cb sb) := by
  rintro hwf _ _ ⟨⟩
  have hk : Laid 0xE182800000000000 [(d.val, 42), (a.val, 37), (b.val, 32), (p.val, 23), (ca.toNat, 22), (cb.toNat,
      21), (sb.toNat, 19)] [(42, 5), (37, 5), (32, 5), (23, 4), (22, 1), (21, 1), (19, 1)] := ⟨by decide, rfl,
      d.isLt, rfl, a.isLt, rfl, b.isLt, rfl, p.isLt, rfl, bool_lt _, rfl, bool_lt _, rfl, bool_lt _, trivial⟩
  exact ⟨hk.lt 64 (by decide) rfl, hk.bits 64 rfl rfl, by
    simp only [fieldsOf, fields64, fieldsEv, fieldsEvLong, hk.fixed 56 5 1 rfl, hk.fixed 55 1 1 rfl,
        hk.fixed 47 9 261 rfl, fin_at (by rfl) (hk.val 0 rfl rfl), fin_at (by rfl) (hk.val 1 rfl rfl),
        fin_at (by rfl) (hk.val 2 rfl rfl), fin_at (by rfl) (hk.val 3 rfl rfl), bool_at (hk.val 4 rfl rfl),
        bool_at (hk.val 5 rfl rfl), bool_at (hk.val 6 rfl rfl), Nat.one_ne_zero, ↓reduceIte]⟩

theorem vabsd d a b p ca cb sb : Statement (.vabsd d a b p ca cb sb) := by
  rintro hwf _ _ ⟨⟩
  have hk : Laid 0xE183000000000000 [(d.val, 42), (a.val, 37), (b.val, 32), (p.val, 23), (ca.toNat, 22), (cb.toNat,
      21), (sb.toNat, 19)] [(42, 5), (37, 5), (32, 5), (23, 4), (22, 1), (21, 1), (19, 1)] := ⟨by decide, rfl,
      d.isLt, rfl, a.isLt, rfl, b.isLt, rfl, p.isLt, rfl, bool_lt _, rfl, bool_lt _, rfl, bool_lt _, trivial⟩
  exact ⟨hk.lt 64 (by decide) rfl, hk.bits 64 rfl rfl, by
    simp only [fieldsOf, fields64, fieldsEv, fieldsEvLong, hk.fixed 56 5 1 rfl, hk.fixed 55 1 1 rfl,
        hk.fixed 47 9 262 rfl, fin_at (by rfl) (hk.val 0 rfl rfl), fin_at (by rfl) (hk.val 1 rfl rfl),
        fin_at (by rfl) (hk.val 2 rfl rfl), fin_at (by rfl) (hk.val 3 rfl rfl), bool_at (hk.val 4 rfl rfl),
        bool_at (hk.val 5 rfl rfl), bool_at (hk.val 6 rfl rfl), Nat.one_ne_zero, ↓reduceIte]⟩

theorem vmulhr d a b p ca cb sb : Statement (.vmulhr d a b p ca cb sb) := by
  rintro hwf _ _ ⟨⟩
  have hk : Laid 0xE183800000000000 [(d.val, 42), (a.val, 37), (b.val, 32), (p.val, 23), (ca.toNat, 22), (cb.toNat,
      21), (sb.toNat, 19)] [(42, 5), (37, 5), (32, 5), (23, 4), (22, 1), (21, 1), (19, 1)] := ⟨by decide, rfl,
      d.isLt, rfl, a.isLt, rfl, b.isLt, rfl, p.isLt, rfl, bool_lt _, rfl, bool_lt _, rfl, bool_lt _, trivial⟩
  exact ⟨hk.lt 64 (by decide) rfl, hk.bits 64 rfl rfl, by
    simp only [fieldsOf, fields64, fieldsEv, fieldsEvLong, hk.fixed 56 5 1 rfl, hk.fixed 55 1 1 rfl,
        hk.fixed 47 9 263 rfl, fin_at (by rfl) (hk.val 0 rfl rfl), fin_at (by rfl) (hk.val 1 rfl rfl),
        fin_at (by rfl) (hk.val 2 rfl rfl), fin_at (by rfl) (hk.val 3 rfl rfl), bool_at (hk.val 4 rfl rfl),
        bool_at (hk.val 5 rfl rfl), bool_at (hk.val 6 rfl rfl), Nat.one_ne_zero, ↓reduceIte]⟩

theorem vqnt d s a t p ca : Statement (.vqnt d s a t p ca) := by
  rintro hwf _ _ ⟨⟩
  have hk : Laid 0xE184000000000000 [(d.val, 42), (s.val, 32), (a.val, 37), (t.code, 13), (p.val, 23), (ca.toNat,
      22)] [(42, 5), (32, 5), (37, 5), (13, 5), (23, 4), (22, 1)] := ⟨by decide, rfl, d.isLt, rfl, s.isLt, rfl,
      a.isLt, rfl, Tag_lt _, rfl, p.isLt, rfl, bool_lt _, trivial⟩
  exact ⟨hk.lt 64 (by decide) rfl, hk.bits 64 rfl rfl, by
    simp only [fieldsOf, fields64, fieldsEv, fieldsEvLong, hk.fixed 56 5 1 rfl, hk.fixed 55 1 1 rfl,
        hk.fixed 47 9 264 rfl, fin_at (by rfl) (hk.val 0 rfl rfl), fin_at (by rfl) (hk.val 1 rfl rfl),
        fin_at (by rfl) (hk.val 2 rfl rfl), Tag_at (hk.val 3 rfl rfl), fin_at (by rfl) (hk.val 4 rfl rfl),
        bool_at (hk.val 5 rfl rfl), Option.bind_some, Nat.one_ne_zero, ↓reduceIte]⟩

theorem vqnte d s a t e th l p ca : Statement (.vqnte d s a t e th l p ca) := by
  rintro hwf _ _ ⟨⟩
  have hk : Laid 0xE184800000000000 [(d.val, 42), (s.val, 32), (a.val, 37), (t.code, 13), (e.val, 10), (th.val, 5),
      (l.val, 0), (p.val, 23), (ca.toNat, 22)] [(42, 5), (32, 5), (37, 5), (13, 5), (10, 3), (5, 5), (0, 5), (23, 4),
      (22, 1)] := ⟨by decide, rfl, d.isLt, rfl, s.isLt, rfl, a.isLt, rfl, Tag_lt _, rfl, e.isLt, rfl, th.isLt, rfl,
      l.isLt, rfl, p.isLt, rfl, bool_lt _, trivial⟩
  exact ⟨hk.lt 64 (by decide) rfl, hk.bits 64 rfl rfl, by
    simp only [fieldsOf, fields64, fieldsEv, fieldsEvLong, hk.fixed 56 5 1 rfl, hk.fixed 55 1 1 rfl,
        hk.fixed 47 9 265 rfl, fin_at (by rfl) (hk.val 0 rfl rfl), fin_at (by rfl) (hk.val 1 rfl rfl),
        fin_at (by rfl) (hk.val 2 rfl rfl), Tag_at (hk.val 3 rfl rfl), fin_at (by rfl) (hk.val 4 rfl rfl),
        fin_at (by rfl) (hk.val 5 rfl rfl), fin_at0 (by rfl) (hk.val 6 rfl rfl), fin_at (by rfl) (hk.val 7 rfl rfl),
        bool_at (hk.val 8 rfl rfl), Option.bind_some, Nat.one_ne_zero, ↓reduceIte]⟩

theorem vdqnt d a s t l p ca cb : Statement (.vdqnt d a s t l p ca cb) := by
  rintro hwf _ _ ⟨⟩
  have hk : Laid 0xE185000000000000 [(d.val, 42), (a.val, 37), (s.val, 32), (t.code, 13), (l.val, 0), (p.val, 23),
      (ca.toNat, 22), (cb.toNat, 21)] [(42, 5), (37, 5), (32, 5), (13, 5), (0, 5), (23, 4), (22, 1), (21, 1)] :=
      ⟨by decide, rfl, d.isLt, rfl, a.isLt, rfl, s.isLt, rfl, Tag_lt _, rfl, l.isLt, rfl, p.isLt, rfl, bool_lt _,
      rfl, bool_lt _, trivial⟩
  exact ⟨hk.lt 64 (by decide) rfl, hk.bits 64 rfl rfl, by
    simp only [fieldsOf, fields64, fieldsEv, fieldsEvLong, hk.fixed 56 5 1 rfl, hk.fixed 55 1 1 rfl,
        hk.fixed 47 9 266 rfl, fin_at (by rfl) (hk.val 0 rfl rfl), fin_at (by rfl) (hk.val 1 rfl rfl),
        fin_at (by rfl) (hk.val 2 rfl rfl), Tag_at (hk.val 3 rfl rfl), fin_at0 (by rfl) (hk.val 4 rfl rfl),
        fin_at (by rfl) (hk.val 5 rfl rfl), bool_at (hk.val 6 rfl rfl), bool_at (hk.val 7 rfl rfl), Option.bind_some,
        Nat.one_ne_zero, ↓reduceIte]⟩

theorem vgathw d w i x o p cb : Statement (.vgathw d w i x o p cb) := by
  rintro hwf _ _ ⟨⟩
  have hk : Laid 0xE185800000040000 [(d.val, 42), (w.val, 37), (i.val, 32), (x.val, 27), (o.val, 0), (p.val, 23),
      (cb.toNat, 21)] [(42, 5), (37, 5), (32, 5), (27, 5), (0, 4), (23, 4), (21, 1)] := ⟨by decide, rfl, d.isLt, rfl,
      w.isLt, rfl, i.isLt, rfl, x.isLt, rfl, o.isLt, rfl, p.isLt, rfl, bool_lt _, trivial⟩
  exact ⟨hk.lt 64 (by decide) rfl, hk.bits 64 rfl rfl, by
    simp only [fieldsOf, fields64, fieldsEv, fieldsEvLong, hk.fixed 56 5 1 rfl, hk.fixed 55 1 1 rfl,
        hk.fixed 47 9 267 rfl, fin_at (by rfl) (hk.val 0 rfl rfl), fin_at (by rfl) (hk.val 1 rfl rfl),
        fin_at (by rfl) (hk.val 2 rfl rfl), fin_at (by rfl) (hk.val 3 rfl rfl), fin_at0 (by rfl) (hk.val 4 rfl rfl),
        fin_at (by rfl) (hk.val 5 rfl rfl), bool_at (hk.val 6 rfl rfl), Nat.one_ne_zero, ↓reduceIte]⟩

theorem vld v b p m h : Statement (.vld v b p m h) := by
  rintro hwf _ _ ⟨⟩
  have hp : p.val < 2 ^ 3 := of_decide_eq_true hwf
  have hk : Laid 0xD9000000 [(v.val, 19), (b.val, 14), (p.val, 6), (m.code, 4), (h.code, 2)] [(19, 5), (14, 5), (6,
      3), (4, 2), (2, 2)] := ⟨by decide, rfl, v.isLt, rfl, b.isLt, rfl, hp, rfl, VMode_lt _, rfl, Hint_lt _, trivial⟩
  exact ⟨hk.lt 32 (by decide) rfl, hk.bits 32 rfl rfl, by
    simp only [fieldsOf, fields32, fieldsVLoad, hk.fixed 24 5 25 rfl, hk.fixed 0 2 0 rfl,
        fin_at (by rfl) (hk.val 0 rfl rfl), fin_at (by rfl) (hk.val 1 rfl rfl), fin_fld (hk.val 2 rfl rfl),
        VMode_at (hk.val 3 rfl rfl), Hint_at (hk.val 4 rfl rfl)]⟩

theorem vlds v b s p m h : Statement (.vlds v b s p m h) := by
  rintro hwf _ _ ⟨⟩
  have hp : p.val < 2 ^ 3 := of_decide_eq_true hwf
  have hk : Laid 0xD9000001 [(v.val, 19), (b.val, 14), (s.val, 9), (p.val, 6), (m.code, 4), (h.code, 2)] [(19, 5),
      (14, 5), (9, 5), (6, 3), (4, 2), (2, 2)] := ⟨by decide, rfl, v.isLt, rfl, b.isLt, rfl, s.isLt, rfl, hp, rfl,
      VMode_lt _, rfl, Hint_lt _, trivial⟩
  exact ⟨hk.lt 32 (by decide) rfl, hk.bits 32 rfl rfl, by
    simp only [fieldsOf, fields32, fieldsVLoad, hk.fixed 24 5 25 rfl, hk.fixed 0 2 1 rfl,
        fin_at (by rfl) (hk.val 0 rfl rfl), fin_at (by rfl) (hk.val 1 rfl rfl), fin_at (by rfl) (hk.val 2 rfl rfl),
        fin_fld (hk.val 3 rfl rfl), VMode_at (hk.val 4 rfl rfl), Hint_at (hk.val 5 rfl rfl)]⟩

theorem vldx v b i p m h : Statement (.vldx v b i p m h) := by
  rintro hwf _ _ ⟨⟩
  have hp : p.val < 2 ^ 3 := of_decide_eq_true hwf
  have hk : Laid 0xD9000002 [(v.val, 19), (b.val, 14), (i.val, 9), (p.val, 6), (m.code, 4), (h.code, 2)] [(19, 5),
      (14, 5), (9, 5), (6, 3), (4, 2), (2, 2)] := ⟨by decide, rfl, v.isLt, rfl, b.isLt, rfl, i.isLt, rfl, hp, rfl,
      VMode_lt _, rfl, Hint_lt _, trivial⟩
  exact ⟨hk.lt 32 (by decide) rfl, hk.bits 32 rfl rfl, by
    simp only [fieldsOf, fields32, fieldsVLoad, hk.fixed 24 5 25 rfl, hk.fixed 0 2 2 rfl,
        fin_at (by rfl) (hk.val 0 rfl rfl), fin_at (by rfl) (hk.val 1 rfl rfl), fin_at (by rfl) (hk.val 2 rfl rfl),
        fin_fld (hk.val 3 rfl rfl), VMode_at (hk.val 4 rfl rfl), Hint_at (hk.val 5 rfl rfl)]⟩

theorem vldseg v b n p m h : Statement (.vldseg v b n p m h) := by
  rintro hwf _ _ ⟨⟩
  have hp : p.val < 2 ^ 3 := of_decide_eq_true (and_l hwf)
  have hk : Laid 0xD9000003 [(v.val, 19), (b.val, 14), (n.val, 11), (p.val, 6), (m.code, 4), (h.code, 2)] [(19, 5),
      (14, 5), (11, 3), (6, 3), (4, 2), (2, 2)] := ⟨by decide, rfl, v.isLt, rfl, b.isLt, rfl, n.isLt, rfl, hp, rfl,
      VMode_lt _, rfl, Hint_lt _, trivial⟩
  exact ⟨hk.lt 32 (by decide) rfl, hk.bits 32 rfl rfl, by
    simp only [fieldsOf, fields32, fieldsVLoad, hk.fixed 24 5 25 rfl, hk.fixed 0 2 3 rfl,
        fin_at (by rfl) (hk.val 0 rfl rfl), fin_at (by rfl) (hk.val 1 rfl rfl), fin_at (by rfl) (hk.val 2 rfl rfl),
        fin_fld (hk.val 3 rfl rfl), VMode_at (hk.val 4 rfl rfl), Hint_at (hk.val 5 rfl rfl)]⟩

theorem vst v b p m h : Statement (.vst v b p m h) := by
  rintro hwf _ _ ⟨⟩
  have hp : p.val < 2 ^ 3 := of_decide_eq_true (and_l hwf)
  have hk : Laid 0xDA000000 [(v.val, 19), (b.val, 14), (p.val, 6), (m.code, 4), (h.code, 2)] [(19, 5), (14, 5), (6,
      3), (4, 2), (2, 2)] := ⟨by decide, rfl, v.isLt, rfl, b.isLt, rfl, hp, rfl, VMode_lt _, rfl, Hint_lt _, trivial⟩
  exact ⟨hk.lt 32 (by decide) rfl, hk.bits 32 rfl rfl, by
    simp only [fieldsOf, fields32, fieldsVStore, hk.fixed 24 5 26 rfl, hk.fixed 0 2 0 rfl,
        fin_at (by rfl) (hk.val 0 rfl rfl), fin_at (by rfl) (hk.val 1 rfl rfl), fin_fld (hk.val 2 rfl rfl),
        VMode_at (hk.val 3 rfl rfl), Hint_at (hk.val 4 rfl rfl)]⟩

theorem vsts v b s p m h : Statement (.vsts v b s p m h) := by
  rintro hwf _ _ ⟨⟩
  have hp : p.val < 2 ^ 3 := of_decide_eq_true (and_l hwf)
  have hk : Laid 0xDA000001 [(v.val, 19), (b.val, 14), (s.val, 9), (p.val, 6), (m.code, 4), (h.code, 2)] [(19, 5),
      (14, 5), (9, 5), (6, 3), (4, 2), (2, 2)] := ⟨by decide, rfl, v.isLt, rfl, b.isLt, rfl, s.isLt, rfl, hp, rfl,
      VMode_lt _, rfl, Hint_lt _, trivial⟩
  exact ⟨hk.lt 32 (by decide) rfl, hk.bits 32 rfl rfl, by
    simp only [fieldsOf, fields32, fieldsVStore, hk.fixed 24 5 26 rfl, hk.fixed 0 2 1 rfl,
        fin_at (by rfl) (hk.val 0 rfl rfl), fin_at (by rfl) (hk.val 1 rfl rfl), fin_at (by rfl) (hk.val 2 rfl rfl),
        fin_fld (hk.val 3 rfl rfl), VMode_at (hk.val 4 rfl rfl), Hint_at (hk.val 5 rfl rfl)]⟩

theorem vstx v b i p m h : Statement (.vstx v b i p m h) := by
  rintro hwf _ _ ⟨⟩
  have hp : p.val < 2 ^ 3 := of_decide_eq_true (and_l hwf)
  have hk : Laid 0xDA000002 [(v.val, 19), (b.val, 14), (i.val, 9), (p.val, 6), (m.code, 4), (h.code, 2)] [(19, 5),
      (14, 5), (9, 5), (6, 3), (4, 2), (2, 2)] := ⟨by decide, rfl, v.isLt, rfl, b.isLt, rfl, i.isLt, rfl, hp, rfl,
      VMode_lt _, rfl, Hint_lt _, trivial⟩
  exact ⟨hk.lt 32 (by decide) rfl, hk.bits 32 rfl rfl, by
    simp only [fieldsOf, fields32, fieldsVStore, hk.fixed 24 5 26 rfl, hk.fixed 0 2 2 rfl,
        fin_at (by rfl) (hk.val 0 rfl rfl), fin_at (by rfl) (hk.val 1 rfl rfl), fin_at (by rfl) (hk.val 2 rfl rfl),
        fin_fld (hk.val 3 rfl rfl), VMode_at (hk.val 4 rfl rfl), Hint_at (hk.val 5 rfl rfl)]⟩

theorem vstseg v b n p m h : Statement (.vstseg v b n p m h) := by
  rintro hwf _ _ ⟨⟩
  have hp : p.val < 2 ^ 3 := of_decide_eq_true (and_l (and_l hwf))
  have hk : Laid 0xDA000003 [(v.val, 19), (b.val, 14), (n.val, 11), (p.val, 6), (m.code, 4), (h.code, 2)] [(19, 5),
      (14, 5), (11, 3), (6, 3), (4, 2), (2, 2)] := ⟨by decide, rfl, v.isLt, rfl, b.isLt, rfl, n.isLt, rfl, hp, rfl,
      VMode_lt _, rfl, Hint_lt _, trivial⟩
  exact ⟨hk.lt 32 (by decide) rfl, hk.bits 32 rfl rfl, by
    simp only [fieldsOf, fields32, fieldsVStore, hk.fixed 24 5 26 rfl, hk.fixed 0 2 3 rfl,
        fin_at (by rfl) (hk.val 0 rfl rfl), fin_at (by rfl) (hk.val 1 rfl rfl), fin_at (by rfl) (hk.val 2 rfl rfl),
        fin_fld (hk.val 3 rfl rfl), VMode_at (hk.val 4 rfl rfl), Hint_at (hk.val 5 rfl rfl)]⟩

theorem vldLong v b x k m h o s n p cb : Statement (.vldLong v b x k m h o s n p cb) := by
  rintro hwf _ _ ⟨⟩
  have hk : Laid 0xE186000000000000 [(v.val, 42), (b.val, 37), (x.val, 32), (k.code, 16), (m.code, 14), (h.code, 12),
      (o.toNat, 11), (s.code, 9), (n.val, 6), (p.val, 23), (cb.toNat, 21), ((k == .strided).toNat, 19)] [(42, 5),
      (37, 5), (32, 5), (16, 2), (14, 2), (12, 2), (11, 1), (9, 2), (6, 3), (23, 4), (21, 1), (19, 1)] := ⟨by decide,
      rfl, v.isLt, rfl, b.isLt, rfl, x.isLt, rfl, VKind_lt _, rfl, VMode_lt _, rfl, Hint_lt _, rfl, bool_lt _, rfl,
      Scope_lt _, rfl, n.isLt, rfl, p.isLt, rfl, bool_lt _, rfl, bool_lt _, trivial⟩
  exact ⟨hk.lt 64 (by decide) rfl, hk.bits 64 rfl rfl, by
    simp only [fieldsOf, fields64, fieldsEv, fieldsEvLong, hk.fixed 56 5 1 rfl, hk.fixed 55 1 1 rfl,
        hk.fixed 47 9 268 rfl, fin_at (by rfl) (hk.val 0 rfl rfl), fin_at (by rfl) (hk.val 1 rfl rfl),
        fin_at (by rfl) (hk.val 2 rfl rfl), VKind_at (hk.val 3 rfl rfl), VMode_at (hk.val 4 rfl rfl),
        Hint_at (hk.val 5 rfl rfl), bool_at (hk.val 6 rfl rfl), Scope_at (hk.val 7 rfl rfl),
        fin_at (by rfl) (hk.val 8 rfl rfl), fin_at (by rfl) (hk.val 9 rfl rfl), bool_at (hk.val 10 rfl rfl),
        Nat.one_ne_zero, ↓reduceIte]⟩

theorem vstLong v b x k m h o s n p cb : Statement (.vstLong v b x k m h o s n p cb) := by
  rintro hwf _ _ ⟨⟩
  have hk : Laid 0xE186800000000000 [(v.val, 42), (b.val, 37), (x.val, 32), (k.code, 16), (m.code, 14), (h.code, 12),
      (o.toNat, 11), (s.code, 9), (n.val, 6), (p.val, 23), (cb.toNat, 21), ((k == .strided).toNat, 19)] [(42, 5),
      (37, 5), (32, 5), (16, 2), (14, 2), (12, 2), (11, 1), (9, 2), (6, 3), (23, 4), (21, 1), (19, 1)] := ⟨by decide,
      rfl, v.isLt, rfl, b.isLt, rfl, x.isLt, rfl, VKind_lt _, rfl, VMode_lt _, rfl, Hint_lt _, rfl, bool_lt _, rfl,
      Scope_lt _, rfl, n.isLt, rfl, p.isLt, rfl, bool_lt _, rfl, bool_lt _, trivial⟩
  exact ⟨hk.lt 64 (by decide) rfl, hk.bits 64 rfl rfl, by
    simp only [fieldsOf, fields64, fieldsEv, fieldsEvLong, hk.fixed 56 5 1 rfl, hk.fixed 55 1 1 rfl,
        hk.fixed 47 9 269 rfl, fin_at (by rfl) (hk.val 0 rfl rfl), fin_at (by rfl) (hk.val 1 rfl rfl),
        fin_at (by rfl) (hk.val 2 rfl rfl), VKind_at (hk.val 3 rfl rfl), VMode_at (hk.val 4 rfl rfl),
        Hint_at (hk.val 5 rfl rfl), bool_at (hk.val 6 rfl rfl), Scope_at (hk.val 7 rfl rfl),
        fin_at (by rfl) (hk.val 8 rfl rfl), fin_at (by rfl) (hk.val 9 rfl rfl), bool_at (hk.val 10 rfl rfl),
        Nat.one_ne_zero, ↓reduceIte]⟩

theorem vamo v b i p o q r : Statement (.vamo v b i p o q r) := by
  rintro hwf _ _ ⟨⟩
  have hp : p.val < 2 ^ 3 := of_decide_eq_true hwf
  have hk : Laid 0xDB000000 [(v.val, 19), (b.val, 14), (i.val, 9), (p.val, 6), (o.code, 2), (q.toNat, 0), (r.toNat,
      1)] [(19, 5), (14, 5), (9, 5), (6, 3), (2, 3), (0, 1), (1, 1)] := ⟨by decide, rfl, v.isLt, rfl, b.isLt, rfl,
      i.isLt, rfl, hp, rfl, VamoOp_lt _, rfl, bool_lt _, rfl, bool_lt _, trivial⟩
  have hk4 : Laid 0xDB000000 [(v.val, 19), (b.val, 14), (i.val, 9), (p.val, 6), (o.code, 2), (q.toNat, 0), (r.toNat,
      1)] [(19, 5), (14, 5), (9, 5), (6, 3), (2, 4), (0, 1), (1, 1)] := ⟨by decide, rfl, v.isLt, rfl, b.isLt, rfl,
      i.isLt, rfl, hp, rfl, Nat.lt_trans (VamoOp_lt _) (by decide), rfl, bool_lt _, rfl, bool_lt _, trivial⟩
  have h4 : fld (pack 0xDB000000 [(v.val, 19), (b.val, 14), (i.val, 9), (p.val, 6), (o.code, 2), (q.toNat, 0),
      (r.toNat, 1)]) 2 4 = o.code := hk4.val 4 rfl rfl
  refine ⟨hk.lt 32 (by decide) rfl, hk.bits 32 rfl rfl, ?_⟩
  simp only [fieldsOf, fields32, fieldsVAtomic, hk.fixed 24 5 27 rfl, fin_at (by rfl) (hk.val 0 rfl rfl),
      fin_at (by rfl) (hk.val 1 rfl rfl), fin_at (by rfl) (hk.val 2 rfl rfl), fin_fld (hk.val 3 rfl rfl),
      VamoOp_at (hk.val 4 rfl rfl), bool_at (hk.val 5 rfl rfl), bool_at (hk.val 6 rfl rfl), h4]
  cases o <;> rfl

theorem vsave v b : Statement (.vsave v b) := by
  rintro hwf _ _ ⟨⟩
  have hk : Laid 0xDB000020 [(v.val, 19), (b.val, 14)] [(19, 5), (14, 5)] := ⟨by decide, rfl, v.isLt, rfl, b.isLt,
      trivial⟩
  exact ⟨hk.lt 32 (by decide) rfl, hk.bits 32 rfl rfl, by
    simp only [fieldsOf, fields32, fieldsVAtomic, hk.fixed 24 5 27 rfl, hk.fixed 2 4 8 rfl,
        fin_at (by rfl) (hk.val 0 rfl rfl), fin_at (by rfl) (hk.val 1 rfl rfl)]⟩

theorem vrest v b : Statement (.vrest v b) := by
  rintro hwf _ _ ⟨⟩
  have hk : Laid 0xDB000024 [(v.val, 19), (b.val, 14)] [(19, 5), (14, 5)] := ⟨by decide, rfl, v.isLt, rfl, b.isLt,
      trivial⟩
  exact ⟨hk.lt 32 (by decide) rfl, hk.bits 32 rfl rfl, by
    simp only [fieldsOf, fields32, fieldsVAtomic, hk.fixed 24 5 27 rfl, hk.fixed 2 4 9 rfl,
        fin_at (by rfl) (hk.val 0 rfl rfl), fin_at (by rfl) (hk.val 1 rfl rfl)]⟩

theorem pand d a b p : Statement (.pand d a b p) := by
  rintro hwf _ _ ⟨⟩
  have hp : p.val < 2 ^ 3 := of_decide_eq_true hwf
  have hk : Laid 0xDC000000 [(d.val, 19), (a.val, 14), (b.val, 9), (p.val, 6)] [(19, 4), (14, 4), (9, 4), (6, 3)] :=
      ⟨by decide, rfl, d.isLt, rfl, a.isLt, rfl, b.isLt, rfl, hp, trivial⟩
  exact ⟨hk.lt 32 (by decide) rfl, hk.bits 32 rfl rfl, by
    simp only [fieldsOf, fields32, fieldsPred, hk.fixed 24 5 28 rfl, hk.fixed 0 4 0 rfl,
        fin_at (by rfl) (hk.val 0 rfl rfl), fin_at (by rfl) (hk.val 1 rfl rfl), fin_at (by rfl) (hk.val 2 rfl rfl),
        fin_fld (hk.val 3 rfl rfl)]⟩

theorem por d a b p : Statement (.por d a b p) := by
  rintro hwf _ _ ⟨⟩
  have hp : p.val < 2 ^ 3 := of_decide_eq_true hwf
  have hk : Laid 0xDC000001 [(d.val, 19), (a.val, 14), (b.val, 9), (p.val, 6)] [(19, 4), (14, 4), (9, 4), (6, 3)] :=
      ⟨by decide, rfl, d.isLt, rfl, a.isLt, rfl, b.isLt, rfl, hp, trivial⟩
  exact ⟨hk.lt 32 (by decide) rfl, hk.bits 32 rfl rfl, by
    simp only [fieldsOf, fields32, fieldsPred, hk.fixed 24 5 28 rfl, hk.fixed 0 4 1 rfl,
        fin_at (by rfl) (hk.val 0 rfl rfl), fin_at (by rfl) (hk.val 1 rfl rfl), fin_at (by rfl) (hk.val 2 rfl rfl),
        fin_fld (hk.val 3 rfl rfl)]⟩

theorem pxor d a b p : Statement (.pxor d a b p) := by
  rintro hwf _ _ ⟨⟩
  have hp : p.val < 2 ^ 3 := of_decide_eq_true hwf
  have hk : Laid 0xDC000002 [(d.val, 19), (a.val, 14), (b.val, 9), (p.val, 6)] [(19, 4), (14, 4), (9, 4), (6, 3)] :=
      ⟨by decide, rfl, d.isLt, rfl, a.isLt, rfl, b.isLt, rfl, hp, trivial⟩
  exact ⟨hk.lt 32 (by decide) rfl, hk.bits 32 rfl rfl, by
    simp only [fieldsOf, fields32, fieldsPred, hk.fixed 24 5 28 rfl, hk.fixed 0 4 2 rfl,
        fin_at (by rfl) (hk.val 0 rfl rfl), fin_at (by rfl) (hk.val 1 rfl rfl), fin_at (by rfl) (hk.val 2 rfl rfl),
        fin_fld (hk.val 3 rfl rfl)]⟩

theorem pnot d a p : Statement (.pnot d a p) := by
  rintro hwf _ _ ⟨⟩
  have hp : p.val < 2 ^ 3 := of_decide_eq_true hwf
  have hk : Laid 0xDC000003 [(d.val, 19), (a.val, 14), (p.val, 6)] [(19, 4), (14, 4), (6, 3)] := ⟨by decide, rfl,
      d.isLt, rfl, a.isLt, rfl, hp, trivial⟩
  exact ⟨hk.lt 32 (by decide) rfl, hk.bits 32 rfl rfl, by
    simp only [fieldsOf, fields32, fieldsPred, hk.fixed 24 5 28 rfl, hk.fixed 0 4 3 rfl,
        fin_at (by rfl) (hk.val 0 rfl rfl), fin_at (by rfl) (hk.val 1 rfl rfl), fin_fld (hk.val 2 rfl rfl)]⟩

theorem pandn d a b p : Statement (.pandn d a b p) := by
  rintro hwf _ _ ⟨⟩
  have hp : p.val < 2 ^ 3 := of_decide_eq_true hwf
  have hk : Laid 0xDC000004 [(d.val, 19), (a.val, 14), (b.val, 9), (p.val, 6)] [(19, 4), (14, 4), (9, 4), (6, 3)] :=
      ⟨by decide, rfl, d.isLt, rfl, a.isLt, rfl, b.isLt, rfl, hp, trivial⟩
  exact ⟨hk.lt 32 (by decide) rfl, hk.bits 32 rfl rfl, by
    simp only [fieldsOf, fields32, fieldsPred, hk.fixed 24 5 28 rfl, hk.fixed 0 4 4 rfl,
        fin_at (by rfl) (hk.val 0 rfl rfl), fin_at (by rfl) (hk.val 1 rfl rfl), fin_at (by rfl) (hk.val 2 rfl rfl),
        fin_fld (hk.val 3 rfl rfl)]⟩

theorem pafter d a p : Statement (.pafter d a p) := by
  rintro hwf _ _ ⟨⟩
  have hp : p.val < 2 ^ 3 := of_decide_eq_true hwf
  have hk : Laid 0xDC000005 [(d.val, 19), (a.val, 14), (p.val, 6)] [(19, 4), (14, 4), (6, 3)] := ⟨by decide, rfl,
      d.isLt, rfl, a.isLt, rfl, hp, trivial⟩
  exact ⟨hk.lt 32 (by decide) rfl, hk.bits 32 rfl rfl, by
    simp only [fieldsOf, fields32, fieldsPred, hk.fixed 24 5 28 rfl, hk.fixed 0 4 5 rfl,
        fin_at (by rfl) (hk.val 0 rfl rfl), fin_at (by rfl) (hk.val 1 rfl rfl), fin_fld (hk.val 2 rfl rfl)]⟩

theorem pset d p : Statement (.pset d p) := by
  rintro hwf _ _ ⟨⟩
  have hp : p.val < 2 ^ 3 := of_decide_eq_true hwf
  have hk : Laid 0xDC000006 [(d.val, 19), (p.val, 6)] [(19, 4), (6, 3)] := ⟨by decide, rfl, d.isLt, rfl, hp, trivial⟩
  exact ⟨hk.lt 32 (by decide) rfl, hk.bits 32 rfl rfl, by
    simp only [fieldsOf, fields32, fieldsPred, hk.fixed 24 5 28 rfl, hk.fixed 0 4 6 rfl,
        fin_at (by rfl) (hk.val 0 rfl rfl), fin_fld (hk.val 1 rfl rfl)]⟩

theorem pclr d : Statement (.pclr d) := by
  rintro hwf _ _ ⟨⟩
  have hk : Laid 0xDC000007 [(d.val, 19)] [(19, 4)] := ⟨by decide, rfl, d.isLt, trivial⟩
  exact ⟨hk.lt 32 (by decide) rfl, hk.bits 32 rfl rfl, by
    simp only [fieldsOf, fields32, fieldsPred, hk.fixed 24 5 28 rfl, hk.fixed 0 4 7 rfl,
        fin_at (by rfl) (hk.val 0 rfl rfl)]⟩

theorem pcnt d a p : Statement (.pcnt d a p) := by
  rintro hwf _ _ ⟨⟩
  have hp : p.val < 2 ^ 3 := of_decide_eq_true hwf
  have hk : Laid 0xDC000008 [(d.val, 19), (a.val, 14), (p.val, 6)] [(19, 5), (14, 4), (6, 3)] := ⟨by decide, rfl,
      d.isLt, rfl, a.isLt, rfl, hp, trivial⟩
  exact ⟨hk.lt 32 (by decide) rfl, hk.bits 32 rfl rfl, by
    simp only [fieldsOf, fields32, fieldsPred, hk.fixed 24 5 28 rfl, hk.fixed 0 4 8 rfl,
        fin_at (by rfl) (hk.val 0 rfl rfl), fin_at (by rfl) (hk.val 1 rfl rfl), fin_fld (hk.val 2 rfl rfl)]⟩

theorem pfirst d a p : Statement (.pfirst d a p) := by
  rintro hwf _ _ ⟨⟩
  have hp : p.val < 2 ^ 3 := of_decide_eq_true hwf
  have hk : Laid 0xDC000009 [(d.val, 19), (a.val, 14), (p.val, 6)] [(19, 5), (14, 4), (6, 3)] := ⟨by decide, rfl,
      d.isLt, rfl, a.isLt, rfl, hp, trivial⟩
  exact ⟨hk.lt 32 (by decide) rfl, hk.bits 32 rfl rfl, by
    simp only [fieldsOf, fields32, fieldsPred, hk.fixed 24 5 28 rfl, hk.fixed 0 4 9 rfl,
        fin_at (by rfl) (hk.val 0 rfl rfl), fin_at (by rfl) (hk.val 1 rfl rfl), fin_fld (hk.val 2 rfl rfl)]⟩

theorem cpy d s n e : Statement (.cpy d s n e) := by
  rintro hwf _ _ ⟨⟩
  have hk : Laid 0xDD000000 [(d.val, 19), (s.val, 14), (n.val, 9), (e.val, 0)] [(19, 5), (14, 5), (9, 5), (0, 5)] :=
      ⟨by decide, rfl, d.isLt, rfl, s.isLt, rfl, n.isLt, rfl, e.isLt, trivial⟩
  exact ⟨hk.lt 32 (by decide) rfl, hk.bits 32 rfl rfl, by
    simp only [fieldsOf, fields32, fieldsEngine, hk.fixed 24 5 29 rfl, hk.fixed 5 4 0 rfl,
        fin_at (by rfl) (hk.val 0 rfl rfl), fin_at (by rfl) (hk.val 1 rfl rfl), fin_at (by rfl) (hk.val 2 rfl rfl),
        fin_at0 (by rfl) (hk.val 3 rfl rfl)]⟩

theorem cpyr v a n k : Statement (.cpyr v a n k) := by
  rintro hwf _ _ ⟨⟩
  have hk : Laid 0xDD000020 [(v.val, 19), (a.val, 14), (n.val, 9), (k.val, 0)] [(19, 5), (14, 5), (9, 3), (0, 4)] :=
      ⟨by decide, rfl, v.isLt, rfl, a.isLt, rfl, n.isLt, rfl, k.isLt, trivial⟩
  exact ⟨hk.lt 32 (by decide) rfl, hk.bits 32 rfl rfl, by
    simp only [fieldsOf, fields32, fieldsEngine, hk.fixed 24 5 29 rfl, hk.fixed 5 4 1 rfl,
        fin_at (by rfl) (hk.val 0 rfl rfl), fin_at (by rfl) (hk.val 1 rfl rfl), fin_at (by rfl) (hk.val 2 rfl rfl),
        fin_at0 (by rfl) (hk.val 3 rfl rfl)]⟩

theorem cpyw v a n k : Statement (.cpyw v a n k) := by
  rintro hwf _ _ ⟨⟩
  have hk : Laid 0xDD000040 [(v.val, 19), (a.val, 14), (n.val, 9), (k.val, 0)] [(19, 5), (14, 5), (9, 3), (0, 4)] :=
      ⟨by decide, rfl, v.isLt, rfl, a.isLt, rfl, n.isLt, rfl, k.isLt, trivial⟩
  exact ⟨hk.lt 32 (by decide) rfl, hk.bits 32 rfl rfl, by
    simp only [fieldsOf, fields32, fieldsEngine, hk.fixed 24 5 29 rfl, hk.fixed 5 4 2 rfl,
        fin_at (by rfl) (hk.val 0 rfl rfl), fin_at (by rfl) (hk.val 1 rfl rfl), fin_at (by rfl) (hk.val 2 rfl rfl),
        fin_at0 (by rfl) (hk.val 3 rfl rfl)]⟩

theorem cpyx d c s : Statement (.cpyx d c s) := by
  rintro hwf _ _ ⟨⟩
  have hk : Laid 0xDD000060 [(d.val, 19), (c.val, 14), (s.val, 9)] [(19, 5), (14, 5), (9, 5)] := ⟨by decide, rfl,
      d.isLt, rfl, c.isLt, rfl, s.isLt, trivial⟩
  exact ⟨hk.lt 32 (by decide) rfl, hk.bits 32 rfl rfl, by
    simp only [fieldsOf, fields32, fieldsEngine, hk.fixed 24 5 29 rfl, hk.fixed 5 4 3 rfl,
        fin_at (by rfl) (hk.val 0 rfl rfl), fin_at (by rfl) (hk.val 1 rfl rfl), fin_at (by rfl) (hk.val 2 rfl rfl)]⟩

theorem cpym s m : Statement (.cpym s m) := by
  rintro hwf _ _ ⟨⟩
  have hk : Laid 0xDD000080 [(s.val, 19), (m.val, 14)] [(19, 5), (14, 5)] := ⟨by decide, rfl, s.isLt, rfl, m.isLt,
      trivial⟩
  exact ⟨hk.lt 32 (by decide) rfl, hk.bits 32 rfl rfl, by
    simp only [fieldsOf, fields32, fieldsEngine, hk.fixed 24 5 29 rfl, hk.fixed 5 4 4 rfl,
        fin_at (by rfl) (hk.val 0 rfl rfl), fin_at (by rfl) (hk.val 1 rfl rfl)]⟩

theorem vrecv d : Statement (.vrecv d) := by
  rintro hwf _ _ ⟨⟩
  have hk : Laid 0xDD0000A0 [(d.val, 19)] [(19, 5)] := ⟨by decide, rfl, d.isLt, trivial⟩
  exact ⟨hk.lt 32 (by decide) rfl, hk.bits 32 rfl rfl, by
    simp only [fieldsOf, fields32, fieldsEngine, hk.fixed 24 5 29 rfl, hk.fixed 5 4 5 rfl,
        fin_at (by rfl) (hk.val 0 rfl rfl)]⟩

theorem vstream b s : Statement (.vstream b s) := by
  rintro hwf _ _ ⟨⟩
  have hk : Laid 0xDD0000C0 [(b.val, 14), (s.val, 9)] [(14, 5), (9, 5)] := ⟨by decide, rfl, b.isLt, rfl, s.isLt,
      trivial⟩
  exact ⟨hk.lt 32 (by decide) rfl, hk.bits 32 rfl rfl, by
    simp only [fieldsOf, fields32, fieldsEngine, hk.fixed 24 5 29 rfl, hk.fixed 5 4 6 rfl,
        fin_at (by rfl) (hk.val 0 rfl rfl), fin_at (by rfl) (hk.val 1 rfl rfl)]⟩

theorem pwait k : Statement (.pwait k) := by
  rintro hwf _ _ ⟨⟩
  have hk : Laid 0xDD0000E0 [(k.val, 0)] [(0, 4)] := ⟨by decide, rfl, k.isLt, trivial⟩
  exact ⟨hk.lt 32 (by decide) rfl, hk.bits 32 rfl rfl, by
    simp only [fieldsOf, fields32, fieldsEngine, hk.fixed 24 5 29 rfl, hk.fixed 5 4 7 rfl,
        fin_at0 (by rfl) (hk.val 0 rfl rfl)]⟩

theorem arw d a s : Statement (.arw d a s) := by
  rintro hwf _ _ ⟨⟩
  have hk : Laid 0xDD000100 [(d.val, 19), (a.val, 14), (s.val, 9)] [(19, 5), (14, 5), (9, 5)] := ⟨by decide, rfl,
      d.isLt, rfl, a.isLt, rfl, s.isLt, trivial⟩
  exact ⟨hk.lt 32 (by decide) rfl, hk.bits 32 rfl rfl, by
    simp only [fieldsOf, fields32, fieldsEngine, hk.fixed 24 5 29 rfl, hk.fixed 5 4 8 rfl,
        fin_at (by rfl) (hk.val 0 rfl rfl), fin_at (by rfl) (hk.val 1 rfl rfl), fin_at (by rfl) (hk.val 2 rfl rfl)]⟩

theorem await d a s : Statement (.await d a s) := by
  rintro hwf _ _ ⟨⟩
  have hk : Laid 0xDD000120 [(d.val, 19), (a.val, 14), (s.val, 9)] [(19, 5), (14, 5), (9, 5)] := ⟨by decide, rfl,
      d.isLt, rfl, a.isLt, rfl, s.isLt, trivial⟩
  exact ⟨hk.lt 32 (by decide) rfl, hk.bits 32 rfl rfl, by
    simp only [fieldsOf, fields32, fieldsEngine, hk.fixed 24 5 29 rfl, hk.fixed 5 4 9 rfl,
        fin_at (by rfl) (hk.val 0 rfl rfl), fin_at (by rfl) (hk.val 1 rfl rfl), fin_at (by rfl) (hk.val 2 rfl rfl)]⟩

theorem mcfg a b : Statement (.mcfg a b) := by
  rintro hwf _ _ ⟨⟩
  have hk : Laid 0xE800000000000000 [(a.val, 23), (b.val, 18)] [(23, 5), (18, 5)] := ⟨by decide, rfl, a.isLt, rfl,
      b.isLt, trivial⟩
  exact ⟨hk.lt 64 (by decide) rfl, hk.bits 64 rfl rfl, by
    simp only [fieldsOf, fields64, fieldsMx, hk.fixed 56 5 8 rfl, hk.fixed 51 5 0 rfl,
        fin_at (by rfl) (hk.val 0 rfl rfl), fin_at (by rfl) (hk.val 1 rfl rfl)]⟩

theorem mzero t : Statement (.mzero t) := by
  rintro hwf _ _ ⟨⟩
  have hk : Laid 0xE808000000000000 [(t.code, 48)] [(48, 3)] := ⟨by decide, rfl, TileRef_lt _, trivial⟩
  exact ⟨hk.lt 64 (by decide) rfl, hk.bits 64 rfl rfl, by
    simp only [fieldsOf, fields64, fieldsMx, hk.fixed 56 5 8 rfl, hk.fixed 51 5 1 rfl, TileRef_at (hk.val 0 rfl rfl),
        Option.bind_some]⟩

theorem mop t va vb sa sb a b p ca cb : Statement (.mop t va vb sa sb a b p ca cb) := by
  rintro hwf _ _ ⟨⟩
  have hk : Laid 0xE810000000000000 [(t.code, 48), (va.val, 43), (vb.val, 38), (sa.val, 33), (sb.val, 28), (a.val,
      23), (b.val, 18), (p.val, 14), (ca.toNat, 13), (cb.toNat, 12)] [(48, 3), (43, 5), (38, 5), (33, 5), (28, 5),
      (23, 5), (18, 5), (14, 4), (13, 1), (12, 1)] := ⟨by decide, rfl, TileRef_lt _, rfl, va.isLt, rfl, vb.isLt, rfl,
      sa.isLt, rfl, sb.isLt, rfl, a.isLt, rfl, b.isLt, rfl, p.isLt, rfl, bool_lt _, rfl, bool_lt _, trivial⟩
  exact ⟨hk.lt 64 (by decide) rfl, hk.bits 64 rfl rfl, by
    simp only [fieldsOf, fields64, fieldsMx, hk.fixed 56 5 8 rfl, hk.fixed 51 5 2 rfl, TileRef_at (hk.val 0 rfl rfl),
        fin_at (by rfl) (hk.val 1 rfl rfl), fin_at (by rfl) (hk.val 2 rfl rfl), fin_at (by rfl) (hk.val 3 rfl rfl),
        fin_at (by rfl) (hk.val 4 rfl rfl), fin_at (by rfl) (hk.val 5 rfl rfl), fin_at (by rfl) (hk.val 6 rfl rfl),
        fin_at (by rfl) (hk.val 7 rfl rfl), bool_at (hk.val 8 rfl rfl), bool_at (hk.val 9 rfl rfl),
        Option.bind_some]⟩

theorem mops t va vb sa sb a b p ca cb n1 n2 vm : Statement (.mops t va vb sa sb a b p ca cb n1 n2 vm) := by
  rintro hwf _ _ ⟨⟩
  have hk : Laid 0xE818000000000000 [(t.code, 48), (va.val, 43), (vb.val, 38), (sa.val, 33), (sb.val, 28), (a.val,
      23), (b.val, 18), (p.val, 14), (ca.toNat, 13), (cb.toNat, 12), (n1.val, 10), (n2.val, 8), (vm.val, 1)] [(48,
      3), (43, 5), (38, 5), (33, 5), (28, 5), (23, 5), (18, 5), (14, 4), (13, 1), (12, 1), (10, 2), (8, 2), (1,
      5)] := ⟨by decide, rfl, TileRef_lt _, rfl, va.isLt, rfl, vb.isLt, rfl, sa.isLt, rfl, sb.isLt, rfl, a.isLt, rfl,
      b.isLt, rfl, p.isLt, rfl, bool_lt _, rfl, bool_lt _, rfl, fin3_lt _, rfl, fin3_lt _, rfl, vm.isLt, trivial⟩
  exact ⟨hk.lt 64 (by decide) rfl, hk.bits 64 rfl rfl, by
    simp only [fieldsOf, fields64, fieldsMx, hk.fixed 56 5 8 rfl, hk.fixed 51 5 3 rfl, TileRef_at (hk.val 0 rfl rfl),
        fin_at (by rfl) (hk.val 1 rfl rfl), fin_at (by rfl) (hk.val 2 rfl rfl), fin_at (by rfl) (hk.val 3 rfl rfl),
        fin_at (by rfl) (hk.val 4 rfl rfl), fin_at (by rfl) (hk.val 5 rfl rfl), fin_at (by rfl) (hk.val 6 rfl rfl),
        fin_at (by rfl) (hk.val 7 rfl rfl), bool_at (hk.val 8 rfl rfl), bool_at (hk.val 9 rfl rfl),
        fin3_at (hk.val 10 rfl rfl), fin3_at (hk.val 11 rfl rfl), fin_at (by rfl) (hk.val 12 rfl rfl),
        Option.bind_some]⟩

theorem mrow t d a b p : Statement (.mrow t d a b p) := by
  rintro hwf _ _ ⟨⟩
  have hk : Laid 0xE820000000000000 [(t.code, 48), (d.val, 43), (a.val, 23), (b.val, 18), (p.val, 14)] [(48, 3), (43,
      5), (23, 5), (18, 5), (14, 4)] := ⟨by decide, rfl, TileRef_lt _, rfl, d.isLt, rfl, a.isLt, rfl, b.isLt, rfl,
      p.isLt, trivial⟩
  exact ⟨hk.lt 64 (by decide) rfl, hk.bits 64 rfl rfl, by
    simp only [fieldsOf, fields64, fieldsMx, hk.fixed 56 5 8 rfl, hk.fixed 51 5 4 rfl, TileRef_at (hk.val 0 rfl rfl),
        fin_at (by rfl) (hk.val 1 rfl rfl), fin_at (by rfl) (hk.val 2 rfl rfl), fin_at (by rfl) (hk.val 3 rfl rfl),
        fin_at (by rfl) (hk.val 4 rfl rfl), Option.bind_some]⟩

theorem mwrow t v a b p ca : Statement (.mwrow t v a b p ca) := by
  rintro hwf _ _ ⟨⟩
  have hk : Laid 0xE828000000000000 [(t.code, 48), (v.val, 43), (a.val, 23), (b.val, 18), (p.val, 14), (ca.toNat,
      13)] [(48, 3), (43, 5), (23, 5), (18, 5), (14, 4), (13, 1)] := ⟨by decide, rfl, TileRef_lt _, rfl, v.isLt, rfl,
      a.isLt, rfl, b.isLt, rfl, p.isLt, rfl, bool_lt _, trivial⟩
  exact ⟨hk.lt 64 (by decide) rfl, hk.bits 64 rfl rfl, by
    simp only [fieldsOf, fields64, fieldsMx, hk.fixed 56 5 8 rfl, hk.fixed 51 5 5 rfl, TileRef_at (hk.val 0 rfl rfl),
        fin_at (by rfl) (hk.val 1 rfl rfl), fin_at (by rfl) (hk.val 2 rfl rfl), fin_at (by rfl) (hk.val 3 rfl rfl),
        fin_at (by rfl) (hk.val 4 rfl rfl), bool_at (hk.val 5 rfl rfl), Option.bind_some]⟩

theorem mld t a b : Statement (.mld t a b) := by
  rintro hwf _ _ ⟨⟩
  have hk : Laid 0xE830000000000000 [(t.code, 48), (a.val, 23), (b.val, 18)] [(48, 3), (23, 5), (18, 5)] :=
      ⟨by decide, rfl, TileRef_lt _, rfl, a.isLt, rfl, b.isLt, trivial⟩
  exact ⟨hk.lt 64 (by decide) rfl, hk.bits 64 rfl rfl, by
    simp only [fieldsOf, fields64, fieldsMx, hk.fixed 56 5 8 rfl, hk.fixed 51 5 6 rfl, TileRef_at (hk.val 0 rfl rfl),
        fin_at (by rfl) (hk.val 1 rfl rfl), fin_at (by rfl) (hk.val 2 rfl rfl), Option.bind_some]⟩

theorem mst t a b : Statement (.mst t a b) := by
  rintro hwf _ _ ⟨⟩
  have hk : Laid 0xE838000000000000 [(t.code, 48), (a.val, 23), (b.val, 18)] [(48, 3), (23, 5), (18, 5)] :=
      ⟨by decide, rfl, TileRef_lt _, rfl, a.isLt, rfl, b.isLt, trivial⟩
  exact ⟨hk.lt 64 (by decide) rfl, hk.bits 64 rfl rfl, by
    simp only [fieldsOf, fields64, fieldsMx, hk.fixed 56 5 8 rfl, hk.fixed 51 5 7 rfl, TileRef_at (hk.val 0 rfl rfl),
        fin_at (by rfl) (hk.val 1 rfl rfl), fin_at (by rfl) (hk.val 2 rfl rfl), Option.bind_some]⟩

theorem msave a : Statement (.msave a) := by
  rintro hwf _ _ ⟨⟩
  have hk : Laid 0xE840000000000000 [(a.val, 23)] [(23, 5)] := ⟨by decide, rfl, a.isLt, trivial⟩
  exact ⟨hk.lt 64 (by decide) rfl, hk.bits 64 rfl rfl, by
    simp only [fieldsOf, fields64, fieldsMx, hk.fixed 56 5 8 rfl, hk.fixed 51 5 8 rfl,
        fin_at (by rfl) (hk.val 0 rfl rfl)]⟩

theorem mrest a : Statement (.mrest a) := by
  rintro hwf _ _ ⟨⟩
  have hk : Laid 0xE848000000000000 [(a.val, 23)] [(23, 5)] := ⟨by decide, rfl, a.isLt, trivial⟩
  exact ⟨hk.lt 64 (by decide) rfl, hk.bits 64 rfl rfl, by
    simp only [fieldsOf, fields64, fieldsMx, hk.fixed 56 5 8 rfl, hk.fixed 51 5 9 rfl,
        fin_at (by rfl) (hk.val 0 rfl rfl)]⟩

theorem mjoin t a b : Statement (.mjoin t a b) := by
  rintro hwf _ _ ⟨⟩
  have hk : Laid 0xE850000000000000 [(t.code, 48), (a.val, 23), (b.val, 18)] [(48, 3), (23, 5), (18, 5)] :=
      ⟨by decide, rfl, TileRef_lt _, rfl, a.isLt, rfl, b.isLt, trivial⟩
  exact ⟨hk.lt 64 (by decide) rfl, hk.bits 64 rfl rfl, by
    simp only [fieldsOf, fields64, fieldsMx, hk.fixed 56 5 8 rfl, hk.fixed 51 5 10 rfl,
        TileRef_at (hk.val 0 rfl rfl), fin_at (by rfl) (hk.val 1 rfl rfl), fin_at (by rfl) (hk.val 2 rfl rfl),
        Option.bind_some]⟩

theorem msplit t a : Statement (.msplit t a) := by
  rintro hwf _ _ ⟨⟩
  have hk : Laid 0xE858000000000000 [(t.code, 48), (a.val, 23)] [(48, 3), (23, 5)] := ⟨by decide, rfl, TileRef_lt _,
      rfl, a.isLt, trivial⟩
  exact ⟨hk.lt 64 (by decide) rfl, hk.bits 64 rfl rfl, by
    simp only [fieldsOf, fields64, fieldsMx, hk.fixed 56 5 8 rfl, hk.fixed 51 5 11 rfl,
        TileRef_at (hk.val 0 rfl rfl), fin_at (by rfl) (hk.val 1 rfl rfl), Option.bind_some]⟩

theorem olset a b : Statement (.olset a b) := by
  rintro hwf _ _ ⟨⟩
  have hk : Laid 0xE860000000000000 [(a.val, 23), (b.val, 18)] [(23, 5), (18, 5)] := ⟨by decide, rfl, a.isLt, rfl,
      b.isLt, trivial⟩
  exact ⟨hk.lt 64 (by decide) rfl, hk.bits 64 rfl rfl, by
    simp only [fieldsOf, fields64, fieldsMx, hk.fixed 56 5 8 rfl, hk.fixed 51 5 12 rfl,
        fin_at (by rfl) (hk.val 0 rfl rfl), fin_at (by rfl) (hk.val 1 rfl rfl)]⟩

theorem olclr a : Statement (.olclr a) := by
  rintro hwf _ _ ⟨⟩
  have hk : Laid 0xE868000000000000 [(a.val, 23)] [(23, 5)] := ⟨by decide, rfl, a.isLt, trivial⟩
  exact ⟨hk.lt 64 (by decide) rfl, hk.bits 64 rfl rfl, by
    simp only [fieldsOf, fields64, fieldsMx, hk.fixed 56 5 8 rfl, hk.fixed 51 5 13 rfl,
        fin_at (by rfl) (hk.val 0 rfl rfl)]⟩

theorem olcnt d a : Statement (.olcnt d a) := by
  rintro hwf _ _ ⟨⟩
  have hk : Laid 0xE870000000000000 [(d.val, 18), (a.val, 23)] [(18, 5), (23, 5)] := ⟨by decide, rfl, d.isLt, rfl,
      a.isLt, trivial⟩
  exact ⟨hk.lt 64 (by decide) rfl, hk.bits 64 rfl rfl, by
    simp only [fieldsOf, fields64, fieldsMx, hk.fixed 56 5 8 rfl, hk.fixed 51 5 14 rfl,
        fin_at (by rfl) (hk.val 0 rfl rfl), fin_at (by rfl) (hk.val 1 rfl rfl)]⟩

theorem tspawn a b : Statement (.tspawn a b) := by
  rintro hwf _ _ ⟨⟩
  have hk : Laid 0xDE000000 [(a.val, 19), (b.val, 14)] [(19, 5), (14, 5)] := ⟨by decide, rfl, a.isLt, rfl, b.isLt,
      trivial⟩
  exact ⟨hk.lt 32 (by decide) rfl, hk.bits 32 rfl rfl, by
    simp only [fieldsOf, fields32, fieldsTask, hk.fixed 24 5 30 rfl, hk.fixed 0 9 0 rfl,
        fin_at (by rfl) (hk.val 0 rfl rfl), fin_at (by rfl) (hk.val 1 rfl rfl)]⟩

theorem tsig a b : Statement (.tsig a b) := by
  rintro hwf _ _ ⟨⟩
  have hk : Laid 0xDE000001 [(a.val, 19), (b.val, 14)] [(19, 5), (14, 5)] := ⟨by decide, rfl, a.isLt, rfl, b.isLt,
      trivial⟩
  exact ⟨hk.lt 32 (by decide) rfl, hk.bits 32 rfl rfl, by
    simp only [fieldsOf, fields32, fieldsTask, hk.fixed 24 5 30 rfl, hk.fixed 0 9 1 rfl,
        fin_at (by rfl) (hk.val 0 rfl rfl), fin_at (by rfl) (hk.val 1 rfl rfl)]⟩

theorem tdone : Statement (.tdone) := by
  rintro hwf _ _ ⟨⟩
  have hk : Laid 0xDE000002 [] [] := ⟨rfl, trivial⟩
  exact ⟨hk.lt 32 (by decide) rfl, hk.bits 32 rfl rfl, by
    simp only [fieldsOf, fields32, fieldsTask, hk.fixed 24 5 30 rfl, hk.fixed 0 9 2 rfl]⟩

theorem tkill a : Statement (.tkill a) := by
  rintro hwf _ _ ⟨⟩
  have hk : Laid 0xDE000003 [(a.val, 19)] [(19, 5)] := ⟨by decide, rfl, a.isLt, trivial⟩
  exact ⟨hk.lt 32 (by decide) rfl, hk.bits 32 rfl rfl, by
    simp only [fieldsOf, fields32, fieldsTask, hk.fixed 24 5 30 rfl, hk.fixed 0 9 3 rfl,
        fin_at (by rfl) (hk.val 0 rfl rfl)]⟩

theorem tyield : Statement (.tyield) := by
  rintro hwf _ _ ⟨⟩
  have hk : Laid 0xDE000004 [] [] := ⟨rfl, trivial⟩
  exact ⟨hk.lt 32 (by decide) rfl, hk.bits 32 rfl rfl, by
    simp only [fieldsOf, fields32, fieldsTask, hk.fixed 24 5 30 rfl, hk.fixed 0 9 4 rfl]⟩

theorem bar : Statement (.bar) := by
  rintro hwf _ _ ⟨⟩
  have hk : Laid 0xDE000005 [] [] := ⟨rfl, trivial⟩
  exact ⟨hk.lt 32 (by decide) rfl, hk.bits 32 rfl rfl, by
    simp only [fieldsOf, fields32, fieldsTask, hk.fixed 24 5 30 rfl, hk.fixed 0 9 5 rfl]⟩

theorem barinit a : Statement (.barinit a) := by
  rintro hwf _ _ ⟨⟩
  have hk : Laid 0xDE000006 [(a.val, 19)] [(19, 5)] := ⟨by decide, rfl, a.isLt, trivial⟩
  exact ⟨hk.lt 32 (by decide) rfl, hk.bits 32 rfl rfl, by
    simp only [fieldsOf, fields32, fieldsTask, hk.fixed 24 5 30 rfl, hk.fixed 0 9 6 rfl,
        fin_at (by rfl) (hk.val 0 rfl rfl)]⟩

theorem qpush a b : Statement (.qpush a b) := by
  rintro hwf _ _ ⟨⟩
  have hk : Laid 0xDE000007 [(a.val, 19), (b.val, 14)] [(19, 5), (14, 5)] := ⟨by decide, rfl, a.isLt, rfl, b.isLt,
      trivial⟩
  exact ⟨hk.lt 32 (by decide) rfl, hk.bits 32 rfl rfl, by
    simp only [fieldsOf, fields32, fieldsTask, hk.fixed 24 5 30 rfl, hk.fixed 0 9 7 rfl,
        fin_at (by rfl) (hk.val 0 rfl rfl), fin_at (by rfl) (hk.val 1 rfl rfl)]⟩

theorem qpop d a : Statement (.qpop d a) := by
  rintro hwf _ _ ⟨⟩
  have hk : Laid 0xDE000008 [(d.val, 19), (a.val, 14)] [(19, 5), (14, 5)] := ⟨by decide, rfl, d.isLt, rfl, a.isLt,
      trivial⟩
  exact ⟨hk.lt 32 (by decide) rfl, hk.bits 32 rfl rfl, by
    simp only [fieldsOf, fields32, fieldsTask, hk.fixed 24 5 30 rfl, hk.fixed 0 9 8 rfl,
        fin_at (by rfl) (hk.val 0 rfl rfl), fin_at (by rfl) (hk.val 1 rfl rfl)]⟩

theorem qsteal d a b : Statement (.qsteal d a b) := by
  rintro hwf _ _ ⟨⟩
  have hk : Laid 0xDE000009 [(d.val, 19), (a.val, 14), (b.val, 9)] [(19, 5), (14, 5), (9, 5)] := ⟨by decide, rfl,
      d.isLt, rfl, a.isLt, rfl, b.isLt, trivial⟩
  exact ⟨hk.lt 32 (by decide) rfl, hk.bits 32 rfl rfl, by
    simp only [fieldsOf, fields32, fieldsTask, hk.fixed 24 5 30 rfl, hk.fixed 0 9 9 rfl,
        fin_at (by rfl) (hk.val 0 rfl rfl), fin_at (by rfl) (hk.val 1 rfl rfl), fin_at (by rfl) (hk.val 2 rfl rfl)]⟩

theorem talloc d a : Statement (.talloc d a) := by
  rintro hwf _ _ ⟨⟩
  have hk : Laid 0xDE00000A [(d.val, 19), (a.val, 14)] [(19, 5), (14, 5)] := ⟨by decide, rfl, d.isLt, rfl, a.isLt,
      trivial⟩
  exact ⟨hk.lt 32 (by decide) rfl, hk.bits 32 rfl rfl, by
    simp only [fieldsOf, fields32, fieldsTask, hk.fixed 24 5 30 rfl, hk.fixed 0 9 10 rfl,
        fin_at (by rfl) (hk.val 0 rfl rfl), fin_at (by rfl) (hk.val 1 rfl rfl)]⟩

theorem tst s a : Statement (.tst s a) := by
  rintro hwf _ _ ⟨⟩
  have hk : Laid 0xDE00000B [(s.val, 19), (a.val, 14)] [(19, 5), (14, 5)] := ⟨by decide, rfl, s.isLt, rfl, a.isLt,
      trivial⟩
  exact ⟨hk.lt 32 (by decide) rfl, hk.bits 32 rfl rfl, by
    simp only [fieldsOf, fields32, fieldsTask, hk.fixed 24 5 30 rfl, hk.fixed 0 9 11 rfl,
        fin_at (by rfl) (hk.val 0 rfl rfl), fin_at (by rfl) (hk.val 1 rfl rfl)]⟩

theorem tld d a : Statement (.tld d a) := by
  rintro hwf _ _ ⟨⟩
  have hk : Laid 0xDE00000C [(d.val, 19), (a.val, 14)] [(19, 5), (14, 5)] := ⟨by decide, rfl, d.isLt, rfl, a.isLt,
      trivial⟩
  exact ⟨hk.lt 32 (by decide) rfl, hk.bits 32 rfl rfl, by
    simp only [fieldsOf, fields32, fieldsTask, hk.fixed 24 5 30 rfl, hk.fixed 0 9 12 rfl,
        fin_at (by rfl) (hk.val 0 rfl rfl), fin_at (by rfl) (hk.val 1 rfl rfl)]⟩

theorem tpost a b : Statement (.tpost a b) := by
  rintro hwf _ _ ⟨⟩
  have hk : Laid 0xDE00000D [(a.val, 19), (b.val, 14)] [(19, 5), (14, 5)] := ⟨by decide, rfl, a.isLt, rfl, b.isLt,
      trivial⟩
  exact ⟨hk.lt 32 (by decide) rfl, hk.bits 32 rfl rfl, by
    simp only [fieldsOf, fields32, fieldsTask, hk.fixed 24 5 30 rfl, hk.fixed 0 9 13 rfl,
        fin_at (by rfl) (hk.val 0 rfl rfl), fin_at (by rfl) (hk.val 1 rfl rfl)]⟩

theorem tdrop a : Statement (.tdrop a) := by
  rintro hwf _ _ ⟨⟩
  have hk : Laid 0xDE00000E [(a.val, 19)] [(19, 5)] := ⟨by decide, rfl, a.isLt, trivial⟩
  exact ⟨hk.lt 32 (by decide) rfl, hk.bits 32 rfl rfl, by
    simp only [fieldsOf, fields32, fieldsTask, hk.fixed 24 5 30 rfl, hk.fixed 0 9 14 rfl,
        fin_at (by rfl) (hk.val 0 rfl rfl)]⟩

theorem linkOrPortTrains x0 x1 x2 x3 : Statement (.linkOrPortTrains x0 x1 x2 x3) := by
  intro _ _ _ e; cases e

theorem zeroFillComplete x0 : Statement (.zeroFillComplete x0) := by
  intro _ _ _ e; cases e

theorem nonInstruction x0 : Statement (.nonInstruction x0) := by
  intro _ _ _ e; cases e

theorem fetchFault x0 : Statement (.fetchFault x0) := by
  intro _ _ _ e; cases e

end Sys2Proof.Laws.Encoding
end

