-- ==== Sys2Proof/Laws/Traps.lean ====
section
/-!
SUPPORT. Taking an exception and returning from one: where the shared operations lead, and what they leave alone.
-/
namespace Sys2Proof.Machine

@[simp] theorem State.performAll_zero (s : State) (hid : Nat) : s.performAll hid 0 = s := rfl

/-- Counting a trap for the context of a hart. -/
def State.trapCounted (s : State) (hid : Nat) : State :=
  match (s.hart hid).slot with | some n => s.count n 29 1 | none => s

@[simp] theorem State.trapCounted_hart (s : State) (hid j : Nat) : (s.trapCounted hid).hart j = s.hart j := by
  unfold State.trapCounted; split <;> simp
@[simp] theorem State.trapCounted_cur (s : State) (hid : Nat) : (s.trapCounted hid).cur = s.cur := by
  unfold State.trapCounted; split <;> simp
@[simp] theorem State.trapCounted_mem (s : State) (hid : Nat) : (s.trapCounted hid).mem = s.mem := by
  unfold State.trapCounted; split <;> simp
@[simp] theorem State.trapCounted_cores (s : State) (hid : Nat) : (s.trapCounted hid).cores = s.cores := by
  unfold State.trapCounted; split <;> simp
@[simp] theorem State.trapCounted_ring (s : State) (hid : Nat) : (s.trapCounted hid).ring = s.ring := by
  unfold State.trapCounted; split <;> simp

/-- Forgetting what an instruction waited for touches the hart's memory slot alone. -/
theorem State.clearStall_agrees (s : State) (hid : Nat) (b : Bool) :
    (s.clearStall hid b).harts = s.harts ∧ (s.clearStall hid b).cur = s.cur ∧ (s.clearStall hid b).mem = s.mem ∧
    (s.clearStall hid b).cores = s.cores ∧ (s.clearStall hid b).ring = s.ring ∧ (s.clearStall hid b).hub = s.hub := by
  unfold State.clearStall; split <;> (try split) <;> exact ⟨rfl, rfl, rfl, rfl, rfl, rfl⟩
@[simp] theorem State.clearStall_hart (s : State) (hid j : Nat) (b : Bool) :
    (s.clearStall hid b).hart j = s.hart j := by unfold State.hart; rw [(s.clearStall_agrees hid b).1]
@[simp] theorem State.clearStall_cur (s : State) (hid : Nat) (b : Bool) : (s.clearStall hid b).cur = s.cur :=
  (s.clearStall_agrees hid b).2.1
@[simp] theorem State.clearStall_mem (s : State) (hid : Nat) (b : Bool) : (s.clearStall hid b).mem = s.mem :=
  (s.clearStall_agrees hid b).2.2.1
@[simp] theorem State.clearStall_cores (s : State) (hid : Nat) (b : Bool) : (s.clearStall hid b).cores = s.cores :=
  (s.clearStall_agrees hid b).2.2.2.1
@[simp] theorem State.clearStall_ring (s : State) (hid : Nat) (b : Bool) : (s.clearStall hid b).ring = s.ring :=
  (s.clearStall_agrees hid b).2.2.2.2.1
@[simp] theorem State.clearStall_hub (s : State) (hid : Nat) (b : Bool) : (s.clearStall hid b).hub = s.hub :=
  (s.clearStall_agrees hid b).2.2.2.2.2

/-- A trap of a hart at U or S with no handler busy enters S (R184). -/
theorem State.takeTrap_enterS (s : State) (hid : Nat) (t : Trap) (hb : (s.hmem hid).bag = [])
    (hl : (s.hart hid).level ≠ .m) (he : bit ((s.hart hid).mreg mEstat) 15 = false) (hc : t.cause ≠ .mowner)
    (hd : t.cause ≠ .dataerr ∨ (t.dfr = true ∧ t.cidx = none)) :
    s.takeTrap hid t = ((s.clearStall hid true).trapCounted hid).enterS hid t := by
  have hd' : ¬(t.cause = .dataerr ∧ (!t.dfr) = true) := by rcases hd with h | h <;> simp [h]
  have hk' : ¬(t.cause = .dataerr ∧ t.cidx.isSome = true) := by rcases hd with h | h <;> simp [h]
  unfold State.takeTrap
  simp only [hb, List.length_nil, State.performAll_zero, State.clearStall_hart, hd', hk', if_false, hl, he, hc,
    false_and, or_self, Bool.false_eq_true, State.trapCounted]
  all_goals rfl

/-- A trap at U or S while the supervisor handler is busy, or at M while the monitor is not, enters M (R187). -/
theorem State.takeTrap_enterM (s : State) (hid : Nat) (t : Trap) (hb : (s.hmem hid).bag = [])
    (h : ((s.hart hid).level ≠ .m ∧ bit ((s.hart hid).mreg mEstat) 15 = true) ∨
      ((s.hart hid).level = .m ∧ bit ((s.hart hid).mreg mKstat) 1 = false))
    (hd : t.cause ≠ .dataerr ∨ (t.dfr = true ∧ t.cidx = none)) :
    s.takeTrap hid t = ((s.clearStall hid true).trapCounted hid).enterM hid t := by
  have hd' : ¬(t.cause = .dataerr ∧ (!t.dfr) = true) := by rcases hd with h | h <;> simp [h]
  have hk' : ¬(t.cause = .dataerr ∧ t.cidx.isSome = true) := by rcases hd with h | h <;> simp [h]
  unfold State.takeTrap
  rcases h with ⟨hl, he⟩ | ⟨hl, he⟩ <;>
    (simp only [hb, List.length_nil, State.performAll_zero, State.clearStall_hart, hd', hk', if_false, hl, he, false_and,
      or_true, true_or, if_true, Bool.false_eq_true, State.trapCounted, and_false]; all_goals rfl)

/-- A trap at M while the monitor is busy kills the hart's task, with a report (R187). -/
theorem State.takeTrap_hartstop (s : State) (hid key : Nat) (t : Trap) (hb : (s.hmem hid).bag = [])
    (hl : (s.hart hid).level = .m) (hk : bit ((s.hart hid).mreg mKstat) 1 = true)
    (ht : (s.hart hid).task = some key) (hd : t.cause ≠ .dataerr ∨ (t.dfr = true ∧ t.cidx = none)) :
    s.takeTrap hid t = ((s.clearStall hid true).report repHartstop 0 0 0 0 (some hid) (some key)).endTaskOf hid := by
  have hd' : ¬(t.cause = .dataerr ∧ (!t.dfr) = true) := by rcases hd with h | h <;> simp [h]
  unfold State.takeTrap
  simp only [hb, List.length_nil, State.performAll_zero, State.clearStall_hart, hd', if_false, hl, hk, ht, and_self,
    if_true]

/-- Entry into S touches only the hart. -/
theorem State.enterS_agrees (s : State) (hid : Nat) (t : Trap) :
    (s.enterS hid t).mem = s.mem ∧ (s.enterS hid t).cores = s.cores ∧ (s.enterS hid t).hub = s.hub ∧
    (s.enterS hid t).ring = s.ring ∧ (s.enterS hid t).cur = s.cur ∧
    ∀ j, j ≠ hid → (s.enterS hid t).hart j = s.hart j :=
  ⟨rfl, rfl, rfl, rfl, rfl, fun _ h => State.hart_setHart_other _ _ h⟩

theorem State.enterM_agrees (s : State) (hid : Nat) (t : Trap) :
    (s.enterM hid t).mem = s.mem ∧ (s.enterM hid t).cores = s.cores ∧ (s.enterM hid t).hub = s.hub ∧
    (s.enterM hid t).ring = s.ring ∧ (s.enterM hid t).cur = s.cur ∧
    ∀ j, j ≠ hid → (s.enterM hid t).hart j = s.hart j :=
  ⟨rfl, rfl, rfl, rfl, rfl, fun _ h => State.hart_setHart_other _ _ h⟩

/-! The machine registers and the rest of the hart after each of the four moves. -/

theorem Hart.noteBreak_mr (h : Hart) (t : Trap) : (h.noteBreak t).mr = h.mr := by
  unfold Hart.noteBreak; split <;> (try split) <;> rfl
theorem Hart.noteBreak_mreg (h : Hart) (t : Trap) (n : Nat) : (h.noteBreak t).mreg n = h.mreg n :=
  Hart.mreg_of_mr (h.noteBreak_mr t) n
theorem Hart.noteBreak_pc (h : Hart) (t : Trap) : (h.noteBreak t).pc = h.pc := by
  unfold Hart.noteBreak; split <;> (try split) <;> rfl
theorem Hart.noteBreak_level (h : Hart) (t : Trap) : (h.noteBreak t).level = h.level := by
  unfold Hart.noteBreak; split <;> (try split) <;> rfl
theorem Hart.noteBreak_rest (h : Hart) (t : Trap) : (h.noteBreak t).x = h.x ∧ (h.noteBreak t).v = h.v ∧
    (h.noteBreak t).tag = h.tag ∧ (h.noteBreak t).p = h.p ∧ (h.noteBreak t).task = h.task := by
  unfold Hart.noteBreak; split <;> (try split) <;> exact ⟨rfl, rfl, rfl, rfl, rfl⟩

@[simp] theorem Hart.goTo_mr (h : Hart) (l : Level) (pc : BitVec 55) : (h.goTo l pc).mr = h.mr := rfl
@[simp] theorem Hart.unwait_mr (h : Hart) : h.unwait.mr = h.mr := rfl
@[simp] theorem Hart.setKres_mr (h : Hart) (r : Resume) : (h.setKres r).mr = h.mr := rfl
@[simp] theorem Hart.comeBack_mr (h : Hart) (l : Level) (pc : BitVec 55) (r : Resume) (b w : Bool) :
    (h.comeBack l pc r b w).mr = h.mr := rfl
@[simp] theorem Hart.mreg_goTo (h : Hart) (l : Level) (pc : BitVec 55) (n : Nat) : (h.goTo l pc).mreg n = h.mreg n :=
  Hart.mreg_of_mr rfl _
@[simp] theorem Hart.mreg_unwait (h : Hart) (n : Nat) : h.unwait.mreg n = h.mreg n :=
  Hart.mreg_of_mr rfl _
@[simp] theorem Hart.mreg_setKres (h : Hart) (r : Resume) (n : Nat) : (h.setKres r).mreg n = h.mreg n :=
  Hart.mreg_of_mr rfl _
@[simp] theorem Hart.mreg_comeBack (h : Hart) (l : Level) (pc : BitVec 55) (r : Resume) (b w : Bool) (n : Nat) :
    (h.comeBack l pc r b w).mreg n = h.mreg n :=
  Hart.mreg_of_mr rfl _
@[simp] theorem Hart.goTo_level (h : Hart) (l : Level) (pc : BitVec 55) : (h.goTo l pc).level = l := rfl
@[simp] theorem Hart.goTo_pc (h : Hart) (l : Level) (pc : BitVec 55) : (h.goTo l pc).pc = pc := rfl
@[simp] theorem Hart.goTo_x (h : Hart) (l : Level) (pc : BitVec 55) : (h.goTo l pc).x = h.x := rfl
@[simp] theorem Hart.goTo_v (h : Hart) (l : Level) (pc : BitVec 55) : (h.goTo l pc).v = h.v := rfl
@[simp] theorem Hart.goTo_tag (h : Hart) (l : Level) (pc : BitVec 55) : (h.goTo l pc).tag = h.tag := rfl
@[simp] theorem Hart.goTo_p (h : Hart) (l : Level) (pc : BitVec 55) : (h.goTo l pc).p = h.p := rfl
@[simp] theorem Hart.goTo_task (h : Hart) (l : Level) (pc : BitVec 55) : (h.goTo l pc).task = h.task := rfl
@[simp] theorem Hart.goTo_waiting (h : Hart) (l : Level) (pc : BitVec 55) : (h.goTo l pc).waiting = h.waiting := rfl
@[simp] theorem Hart.unwait_level (h : Hart) : h.unwait.level = h.level := rfl
@[simp] theorem Hart.unwait_pc (h : Hart) : h.unwait.pc = h.pc := rfl
@[simp] theorem Hart.unwait_x (h : Hart) : h.unwait.x = h.x := rfl
@[simp] theorem Hart.unwait_v (h : Hart) : h.unwait.v = h.v := rfl
@[simp] theorem Hart.unwait_tag (h : Hart) : h.unwait.tag = h.tag := rfl
@[simp] theorem Hart.unwait_p (h : Hart) : h.unwait.p = h.p := rfl
@[simp] theorem Hart.unwait_task (h : Hart) : h.unwait.task = h.task := rfl
@[simp] theorem Hart.unwait_waiting (h : Hart) : h.unwait.waiting = .no := rfl
@[simp] theorem Hart.setKres_level (h : Hart) (r : Resume) : (h.setKres r).level = h.level := rfl
@[simp] theorem Hart.setKres_pc (h : Hart) (r : Resume) : (h.setKres r).pc = h.pc := rfl
@[simp] theorem Hart.setKres_x (h : Hart) (r : Resume) : (h.setKres r).x = h.x := rfl
@[simp] theorem Hart.setKres_v (h : Hart) (r : Resume) : (h.setKres r).v = h.v := rfl
@[simp] theorem Hart.setKres_tag (h : Hart) (r : Resume) : (h.setKres r).tag = h.tag := rfl
@[simp] theorem Hart.setKres_p (h : Hart) (r : Resume) : (h.setKres r).p = h.p := rfl
@[simp] theorem Hart.setKres_task (h : Hart) (r : Resume) : (h.setKres r).task = h.task := rfl
@[simp] theorem Hart.setKres_waiting (h : Hart) (r : Resume) : (h.setKres r).waiting = h.waiting := rfl
@[simp] theorem Hart.comeBack_level (h : Hart) (l : Level) (pc : BitVec 55) (r : Resume) (b w : Bool) : (h.comeBack l pc r b w).level = l := rfl
@[simp] theorem Hart.comeBack_pc (h : Hart) (l : Level) (pc : BitVec 55) (r : Resume) (b w : Bool) : (h.comeBack l pc r b w).pc = pc := rfl
@[simp] theorem Hart.comeBack_x (h : Hart) (l : Level) (pc : BitVec 55) (r : Resume) (b w : Bool) : (h.comeBack l pc r b w).x = h.x := rfl
@[simp] theorem Hart.comeBack_v (h : Hart) (l : Level) (pc : BitVec 55) (r : Resume) (b w : Bool) : (h.comeBack l pc r b w).v = h.v := rfl
@[simp] theorem Hart.comeBack_tag (h : Hart) (l : Level) (pc : BitVec 55) (r : Resume) (b w : Bool) : (h.comeBack l pc r b w).tag = h.tag := rfl
@[simp] theorem Hart.comeBack_p (h : Hart) (l : Level) (pc : BitVec 55) (r : Resume) (b w : Bool) : (h.comeBack l pc r b w).p = h.p := rfl
@[simp] theorem Hart.comeBack_task (h : Hart) (l : Level) (pc : BitVec 55) (r : Resume) (b w : Bool) : (h.comeBack l pc r b w).task = h.task := rfl
@[simp] theorem Hart.comeBack_waiting (h : Hart) (l : Level) (pc : BitVec 55) (r : Resume) (b w : Bool) : (h.comeBack l pc r b w).waiting = .no := rfl

@[simp] theorem Hart.clearLoop_rest (h : Hart) : h.clearLoop.x = h.x ∧ h.clearLoop.v = h.v ∧
    h.clearLoop.tag = h.tag ∧ h.clearLoop.p = h.p ∧ h.clearLoop.task = h.task := by
  simp only [Hart.clearLoop, Hart.setMreg_x, Hart.setMreg_v, Hart.setMreg_tag, Hart.setMreg_p, Hart.setMreg_task,
    and_self]
@[simp] theorem Hart.setAside_rest (h : Hart) (a b : Word) : (h.setAside a b).x = h.x ∧ (h.setAside a b).v = h.v ∧
    (h.setAside a b).tag = h.tag ∧ (h.setAside a b).p = h.p ∧ (h.setAside a b).task = h.task := by
  simp only [Hart.setAside, Hart.setMreg_x, Hart.setMreg_v, Hart.setMreg_tag, Hart.setMreg_p, Hart.setMreg_task,
    and_self]

/-- The hart after entry into S. -/
theorem State.enterS_hart (s : State) (hid : Nat) (t : Trap) :
    (s.enterS hid t).hart hid =
      (((((((((s.hart hid).noteBreak t).setMreg mEpc (epcWord (s.hart hid).pc (s.stopPoint hid t))).setMreg mEcause
        t.word).setMreg mEtval (BitVec.ofNat 64 t.tval)).setMreg mEstat
        (estatEntry ((s.hart hid).mreg mEstat) (s.hart hid).level.code (bit ((s.hart hid).mreg mAvl) 63))).setAside
        (BitVec.ofNat 64 (s.stopPoint hid t).slip) (s.stopPoint hid t).desc).clearLoop.setMreg mSlip
        (BitVec.ofNat 64 (s.stopPoint hid t).slip)).unwait.goTo .s
        (BitVec.ofNat 55 (bits ((s.hart hid).mreg mEvec) 54 2 * 4))) := by
  unfold State.enterS
  simp only [State.hart_setHart_same, Hart.noteBreak_mreg, Hart.noteBreak_pc, Hart.noteBreak_level]

/-- The hart after entry into M. -/
theorem State.enterM_hart (s : State) (hid : Nat) (t : Trap) :
    (s.enterM hid t).hart hid =
      ((((((((s.hart hid).noteBreak t).setMreg mKret (epcWord (s.hart hid).pc (s.stopPoint hid t))).setMreg mKwhy
        t.word).setMreg mKaddr (BitVec.ofNat 64 t.tval)).setMreg mKstat
        (setBits (setBits ((s.hart hid).mreg mKstat) 3 2 (s.hart hid).level.code) 1 1 1)).setMreg mSlip
        (BitVec.ofNat 64 (s.stopPoint hid t).slip)).unwait.setKres (s.stopPoint hid t)).goTo .m
        (BitVec.ofNat 55 (bits ((s.hart hid).mreg mKentry) 54 2 * 4)) := by
  unfold State.enterM
  simp only [State.hart_setHart_same, Hart.noteBreak_mreg, Hart.noteBreak_pc, Hart.noteBreak_level]

/-- The trap registers and the loop context after entry into S (R184). -/
theorem State.enterS_regs (s : State) (hid : Nat) (t : Trap) (h : Hart) (e : (s.enterS hid t).hart hid = h) :
    h.mreg mEpc = epcWord (s.hart hid).pc (s.stopPoint hid t) ∧ h.mreg mEcause = t.word ∧
    h.mreg mEtval = BitVec.ofNat 64 t.tval ∧
    h.mreg mEstat = estatEntry ((s.hart hid).mreg mEstat) (s.hart hid).level.code (bit ((s.hart hid).mreg mAvl) 63) ∧
    h.mreg mEavl = (s.hart hid).mreg mAvl ∧ h.mreg mEstrip = (s.hart hid).mreg mStrip ∧
    h.mreg mEhead = (s.hart hid).mreg mVhead ∧ h.mreg mEvl = (s.hart hid).mreg mVl ∧
    h.mreg mEslip = BitVec.ofNat 64 (s.stopPoint hid t).slip ∧ h.mreg mEgrant = (s.stopPoint hid t).desc ∧
    h.mreg mAvl = mregReset mAvl ∧ h.mreg mStrip = 0 ∧ h.mreg mVhead = 0 ∧ h.mreg mVl = 0 ∧
    h.mreg mSlip = BitVec.ofNat 64 (s.stopPoint hid t).slip := by
  rw [State.enterS_hart] at e
  subst e
  simp only [Hart.mreg_goTo, Hart.mreg_unwait, Hart.clearLoop, Hart.setAside, Hart.mreg_setMreg, Hart.noteBreak_mreg]
  simp only [mSlip, mVl, mVhead, mStrip, mAvl, mEgrant, mEslip, mEvl, mEhead, mEstrip, mEavl, mEstat, mEtval, mEcause, mEpc, Nat.reduceEqDiff, ↓reduceIte, and_self]

/-- Every other machine register keeps its value. -/
theorem State.enterS_keeps (s : State) (hid n : Nat) (t : Trap)
    (hn : n ∉ [mSlip, mVl, mVhead, mStrip, mAvl, mEgrant, mEslip, mEvl, mEhead, mEstrip, mEavl, mEstat, mEtval, mEcause, mEpc]) :
    ((s.enterS hid t).hart hid).mreg n = (s.hart hid).mreg n := by
  simp only [List.mem_cons, List.not_mem_nil, or_false, not_or] at hn
  rw [State.enterS_hart]
  simp only [Hart.mreg_goTo, Hart.mreg_unwait, Hart.clearLoop, Hart.setAside, Hart.mreg_setMreg, Hart.noteBreak_mreg,
    hn, if_false]

/-! The rest of the hart after entry into S (R184). -/

theorem State.enterS_level (s : State) (hid : Nat) (t : Trap) : ((s.enterS hid t).hart hid).level = .s := by
  rw [State.enterS_hart]; exact Hart.goTo_level _ _ _
theorem State.enterS_pc (s : State) (hid : Nat) (t : Trap) :
    ((s.enterS hid t).hart hid).pc = BitVec.ofNat 55 (bits ((s.hart hid).mreg mEvec) 54 2 * 4) := by
  rw [State.enterS_hart]; exact Hart.goTo_pc _ _ _
theorem Hart.enterS_x (h : Hart) (a b c d e f g : Word) (t : Trap) :
    ((((((((h.noteBreak t).setMreg mEpc a).setMreg mEcause b).setMreg mEtval c).setMreg mEstat d).setAside e f).clearLoop.setMreg mSlip g).unwait).x = h.x := by
  obtain ⟨h1, h2, h3, h4, h5⟩ := h.noteBreak_rest t
  simp only [Hart.unwait_x, Hart.setMreg_x, Hart.clearLoop_rest, Hart.setAside_rest, h1]
theorem State.enterS_x (s : State) (hid : Nat) (t : Trap) :
    ((s.enterS hid t).hart hid).x = (s.hart hid).x := by
  rw [State.enterS_hart, Hart.goTo_x]; exact Hart.enterS_x ..
theorem Hart.enterS_v (h : Hart) (a b c d e f g : Word) (t : Trap) :
    ((((((((h.noteBreak t).setMreg mEpc a).setMreg mEcause b).setMreg mEtval c).setMreg mEstat d).setAside e f).clearLoop.setMreg mSlip g).unwait).v = h.v := by
  obtain ⟨h1, h2, h3, h4, h5⟩ := h.noteBreak_rest t
  simp only [Hart.unwait_v, Hart.setMreg_v, Hart.clearLoop_rest, Hart.setAside_rest, h2]
theorem State.enterS_v (s : State) (hid : Nat) (t : Trap) :
    ((s.enterS hid t).hart hid).v = (s.hart hid).v := by
  rw [State.enterS_hart, Hart.goTo_v]; exact Hart.enterS_v ..
theorem Hart.enterS_tag (h : Hart) (a b c d e f g : Word) (t : Trap) :
    ((((((((h.noteBreak t).setMreg mEpc a).setMreg mEcause b).setMreg mEtval c).setMreg mEstat d).setAside e f).clearLoop.setMreg mSlip g).unwait).tag = h.tag := by
  obtain ⟨h1, h2, h3, h4, h5⟩ := h.noteBreak_rest t
  simp only [Hart.unwait_tag, Hart.setMreg_tag, Hart.clearLoop_rest, Hart.setAside_rest, h3]
theorem State.enterS_tag (s : State) (hid : Nat) (t : Trap) :
    ((s.enterS hid t).hart hid).tag = (s.hart hid).tag := by
  rw [State.enterS_hart, Hart.goTo_tag]; exact Hart.enterS_tag ..
theorem Hart.enterS_p (h : Hart) (a b c d e f g : Word) (t : Trap) :
    ((((((((h.noteBreak t).setMreg mEpc a).setMreg mEcause b).setMreg mEtval c).setMreg mEstat d).setAside e f).clearLoop.setMreg mSlip g).unwait).p = h.p := by
  obtain ⟨h1, h2, h3, h4, h5⟩ := h.noteBreak_rest t
  simp only [Hart.unwait_p, Hart.setMreg_p, Hart.clearLoop_rest, Hart.setAside_rest, h4]
theorem State.enterS_p (s : State) (hid : Nat) (t : Trap) :
    ((s.enterS hid t).hart hid).p = (s.hart hid).p := by
  rw [State.enterS_hart, Hart.goTo_p]; exact Hart.enterS_p ..
theorem Hart.enterS_task (h : Hart) (a b c d e f g : Word) (t : Trap) :
    ((((((((h.noteBreak t).setMreg mEpc a).setMreg mEcause b).setMreg mEtval c).setMreg mEstat d).setAside e f).clearLoop.setMreg mSlip g).unwait).task = h.task := by
  obtain ⟨h1, h2, h3, h4, h5⟩ := h.noteBreak_rest t
  simp only [Hart.unwait_task, Hart.setMreg_task, Hart.clearLoop_rest, Hart.setAside_rest, h5]
theorem State.enterS_task (s : State) (hid : Nat) (t : Trap) :
    ((s.enterS hid t).hart hid).task = (s.hart hid).task := by
  rw [State.enterS_hart, Hart.goTo_task]; exact Hart.enterS_task ..

/-- Every machine register after entry into M (R184). -/
theorem State.enterM_mreg (s : State) (hid : Nat) (t : Trap) (n : Nat) :
    ((s.enterM hid t).hart hid).mreg n =
      if n = mSlip then BitVec.ofNat 64 (s.stopPoint hid t).slip
      else if n = mKstat then setBits (setBits ((s.hart hid).mreg mKstat) 3 2 (s.hart hid).level.code) 1 1 1
      else if n = mKaddr then BitVec.ofNat 64 t.tval
      else if n = mKwhy then t.word
      else if n = mKret then epcWord (s.hart hid).pc (s.stopPoint hid t)
      else (s.hart hid).mreg n := by
  rw [State.enterM_hart]
  simp only [Hart.mreg_goTo, Hart.mreg_unwait, Hart.mreg_setKres, Hart.mreg_setMreg, Hart.noteBreak_mreg]

/-! The rest of the hart after entry into M (R184). -/

theorem State.enterM_level (s : State) (hid : Nat) (t : Trap) : ((s.enterM hid t).hart hid).level = .m := by
  rw [State.enterM_hart]; exact Hart.goTo_level _ _ _
theorem State.enterM_pc (s : State) (hid : Nat) (t : Trap) :
    ((s.enterM hid t).hart hid).pc = BitVec.ofNat 55 (bits ((s.hart hid).mreg mKentry) 54 2 * 4) := by
  rw [State.enterM_hart]; exact Hart.goTo_pc _ _ _
theorem Hart.enterM_x (h : Hart) (a b c d e : Word) (r : Resume) (t : Trap) :
    ((((((((h.noteBreak t).setMreg mKret a).setMreg mKwhy b).setMreg mKaddr c).setMreg mKstat d).setMreg mSlip e).unwait).setKres r).x = h.x := by
  obtain ⟨h1, h2, h3, h4, h5⟩ := h.noteBreak_rest t
  simp only [Hart.setKres_x, Hart.unwait_x, Hart.setMreg_x, h1]
theorem State.enterM_x (s : State) (hid : Nat) (t : Trap) :
    ((s.enterM hid t).hart hid).x = (s.hart hid).x := by
  rw [State.enterM_hart, Hart.goTo_x]; exact Hart.enterM_x ..
theorem Hart.enterM_v (h : Hart) (a b c d e : Word) (r : Resume) (t : Trap) :
    ((((((((h.noteBreak t).setMreg mKret a).setMreg mKwhy b).setMreg mKaddr c).setMreg mKstat d).setMreg mSlip e).unwait).setKres r).v = h.v := by
  obtain ⟨h1, h2, h3, h4, h5⟩ := h.noteBreak_rest t
  simp only [Hart.setKres_v, Hart.unwait_v, Hart.setMreg_v, h2]
theorem State.enterM_v (s : State) (hid : Nat) (t : Trap) :
    ((s.enterM hid t).hart hid).v = (s.hart hid).v := by
  rw [State.enterM_hart, Hart.goTo_v]; exact Hart.enterM_v ..
theorem Hart.enterM_tag (h : Hart) (a b c d e : Word) (r : Resume) (t : Trap) :
    ((((((((h.noteBreak t).setMreg mKret a).setMreg mKwhy b).setMreg mKaddr c).setMreg mKstat d).setMreg mSlip e).unwait).setKres r).tag = h.tag := by
  obtain ⟨h1, h2, h3, h4, h5⟩ := h.noteBreak_rest t
  simp only [Hart.setKres_tag, Hart.unwait_tag, Hart.setMreg_tag, h3]
theorem State.enterM_tag (s : State) (hid : Nat) (t : Trap) :
    ((s.enterM hid t).hart hid).tag = (s.hart hid).tag := by
  rw [State.enterM_hart, Hart.goTo_tag]; exact Hart.enterM_tag ..
theorem Hart.enterM_p (h : Hart) (a b c d e : Word) (r : Resume) (t : Trap) :
    ((((((((h.noteBreak t).setMreg mKret a).setMreg mKwhy b).setMreg mKaddr c).setMreg mKstat d).setMreg mSlip e).unwait).setKres r).p = h.p := by
  obtain ⟨h1, h2, h3, h4, h5⟩ := h.noteBreak_rest t
  simp only [Hart.setKres_p, Hart.unwait_p, Hart.setMreg_p, h4]
theorem State.enterM_p (s : State) (hid : Nat) (t : Trap) :
    ((s.enterM hid t).hart hid).p = (s.hart hid).p := by
  rw [State.enterM_hart, Hart.goTo_p]; exact Hart.enterM_p ..
theorem Hart.enterM_task (h : Hart) (a b c d e : Word) (r : Resume) (t : Trap) :
    ((((((((h.noteBreak t).setMreg mKret a).setMreg mKwhy b).setMreg mKaddr c).setMreg mKstat d).setMreg mSlip e).unwait).setKres r).task = h.task := by
  obtain ⟨h1, h2, h3, h4, h5⟩ := h.noteBreak_rest t
  simp only [Hart.setKres_task, Hart.unwait_task, Hart.setMreg_task, h5]
theorem State.enterM_task (s : State) (hid : Nat) (t : Trap) :
    ((s.enterM hid t).hart hid).task = (s.hart hid).task := by
  rw [State.enterM_hart, Hart.goTo_task]; exact Hart.enterM_task ..

/-- Giving up a handler's array touches the ownership word of its core alone. -/
theorem State.dropMown_agrees (s : State) (hid : Nat) : (s.dropMown hid).mem = s.mem ∧ (s.dropMown hid).cur = s.cur ∧
    (s.dropMown hid).hub = s.hub ∧ (s.dropMown hid).harts = s.harts := by
  unfold State.dropMown; dsimp only; split <;> exact ⟨rfl, rfl, rfl, rfl⟩
@[simp] theorem State.dropMown_hart (s : State) (hid j : Nat) : (s.dropMown hid).hart j = s.hart j := by
  unfold State.hart; rw [(s.dropMown_agrees hid).2.2.2]

theorem State.leaveS_mem (s : State) (hid : Nat) : (s.leaveS hid).mem = s.mem ∧ (s.leaveS hid).cur = s.cur ∧
    (s.leaveS hid).hub = s.hub :=
  ⟨(State.dropMown_agrees _ _).1, (State.dropMown_agrees _ _).2.1, (State.dropMown_agrees _ _).2.2.1⟩

/-- The hart after a return from S. -/
theorem State.leaveS_hart (s : State) (hid : Nat) : ∃ r b w,
    (s.leaveS hid).hart hid =
      ((((((((s.hart hid).setMreg mEstat (setBits (setBits ((s.hart hid).mreg mEstat) 10 10
        (bits ((s.hart hid).mreg mEstat) 11 11)) 15 15 0)).setMreg mAvl ((s.hart hid).mreg mEavl)).setMreg mStrip
        ((s.hart hid).mreg mEstrip)).setMreg mVhead ((s.hart hid).mreg mEhead)).setMreg mVl
        ((s.hart hid).mreg mEvl)).setMreg mSlip ((s.hart hid).mreg mEslip)).comeBack
        (Level.ofCode (min 1 (bits ((s.hart hid).mreg mEstat) 13 12)))
        (BitVec.ofNat 55 (bits ((s.hart hid).mreg mEpc) 54 0)) r b w) := by
  unfold State.leaveS
  dsimp only
  rw [State.dropMown_hart, State.hart_setHart_same]
  exact ⟨_, _, _, rfl⟩

/-- Every machine register after a return from S (R188). -/
theorem State.leaveS_mreg (s : State) (hid n : Nat) :
    ((s.leaveS hid).hart hid).mreg n =
      if n = mSlip then (s.hart hid).mreg mEslip
      else if n = mVl then (s.hart hid).mreg mEvl
      else if n = mVhead then (s.hart hid).mreg mEhead
      else if n = mStrip then (s.hart hid).mreg mEstrip
      else if n = mAvl then (s.hart hid).mreg mEavl
      else if n = mEstat then
        setBits (setBits ((s.hart hid).mreg mEstat) 10 10 (bits ((s.hart hid).mreg mEstat) 11 11)) 15 15 0
      else (s.hart hid).mreg n := by
  obtain ⟨r, b, w, e⟩ := s.leaveS_hart hid
  rw [e]
  simp only [Hart.mreg_comeBack, Hart.mreg_setMreg]

/-- The rest of the hart after a return from S (R188). -/
theorem State.leaveS_rest (s : State) (hid : Nat) :
    let h := (s.leaveS hid).hart hid
    h.level = Level.ofCode (min 1 (bits ((s.hart hid).mreg mEstat) 13 12)) ∧
    h.pc = BitVec.ofNat 55 (bits ((s.hart hid).mreg mEpc) 54 0) ∧ h.waiting = .no ∧
    h.x = (s.hart hid).x ∧ h.v = (s.hart hid).v ∧ h.task = (s.hart hid).task := by
  obtain ⟨r, b, w, e⟩ := s.leaveS_hart hid
  rw [e]
  simp

/-- A return from M touches the hart alone (R188). -/
theorem State.leaveM_agrees (s : State) (hid : Nat) : (s.leaveM hid).mem = s.mem ∧ (s.leaveM hid).cores = s.cores ∧
    (s.leaveM hid).cur = s.cur ∧ (s.leaveM hid).hub = s.hub := ⟨rfl, rfl, rfl, rfl⟩

theorem State.leaveM_hart (s : State) (hid : Nat) : ∃ r b w,
    (s.leaveM hid).hart hid = ((s.hart hid).setMreg mKstat (setBits ((s.hart hid).mreg mKstat) 1 1 0)).comeBack
      (Level.ofCode (bits ((s.hart hid).mreg mKstat) 3 2)) (BitVec.ofNat 55 (bits ((s.hart hid).mreg mKret) 54 0))
      r b w := by
  unfold State.leaveM
  dsimp only
  rw [State.hart_setHart_same]
  exact ⟨_, _, _, rfl⟩

theorem State.leaveM_mreg (s : State) (hid n : Nat) :
    ((s.leaveM hid).hart hid).mreg n =
      if n = mKstat then setBits ((s.hart hid).mreg mKstat) 1 1 0 else (s.hart hid).mreg n := by
  obtain ⟨r, b, w, e⟩ := s.leaveM_hart hid
  rw [e, Hart.mreg_comeBack, Hart.mreg_setMreg]

theorem State.leaveM_rest (s : State) (hid : Nat) :
    let h := (s.leaveM hid).hart hid
    h.level = Level.ofCode (bits ((s.hart hid).mreg mKstat) 3 2) ∧
    h.pc = BitVec.ofNat 55 (bits ((s.hart hid).mreg mKret) 54 0) ∧ h.waiting = .no ∧
    h.x = (s.hart hid).x ∧ h.v = (s.hart hid).v ∧ h.task = (s.hart hid).task := by
  obtain ⟨r, b, w, e⟩ := s.leaveM_hart hid
  rw [e]
  simp

end Sys2Proof.Machine
end

