-- ==== Sys2Proof/Tests/Slice0.lean ====
section
/-!
SUPPORT. Tests: words written out from the spec's encodings, ill-formed terms refused, single steps whose results are
computed by hand from the spec, and for every statement with hypotheses states that meet them.
-/
namespace Sys2Proof.Tests
open Sys2Proof.Machine

-- One theorem after another: each evaluation waits for the declarations before it, on a thread of its own otherwise.
set_option Elab.async false

/-! ## Words -/

/-- Every listed word decodes to the instruction beside it. -/
noncomputable def reads (l : List (Nat × Nat × Instr)) : Bool := l.all fun x => decodeTableWord x.1 x.2.1 == some x.2.2

/-- Compressed parcels (R237, R238). Words put together field by field. -/
theorem test_words_compressed : reads [(16, 0x00EA, .cAdd 7 10),
    (16, 0x04EA, .cSub 7 10),
    (16, 0x08EA, .cAnd 7 10),
    (16, 0x0CEA, .cOr 7 10),
    (16, 0x10EA, .cXor 7 10),
    (16, 0x14EA, .cMv 7 10),
    (16, 0x18EA, .cJlr 7 10),
    (16, 0x20FB, .cAddi 7 27#5),
    (16, 0x24FB, .cAddiX0 7 27#5),
    (16, 0x28FB, .cShli 7 27#5),
    (16, 0x2CFB, .cShri 7 27#5),
    (16, 0x30FB, .cSari 7 27#5),
    (16, 0x34FB, .cAndi 7 27#5),
    (16, 0x4757, .cLd64 7 10 7#3),
    (16, 0x6757, .cSt64 7 10 7#3),
    (16, 0x83DB, .cBeq 7 91#7),
    (16, 0x93DB, .cBne 7 91#7),
    (16, 0xB6DB, .cJ 5851#13),
    (16, 0xA000, .cNop)] = true := by decide +kernel

/-- System instructions (R243). Words put together field by field. -/
theorem test_words_system : reads [(32, 0xC0000000, .nop),
    (32, 0xC00CB6DB, .trap 308955#19),
    (32, 0xC0100000, .eret),
    (32, 0xC019C000, .wait 7),
    (32, 0xC0200010, .fenceAcq .dev),
    (32, 0xC02000D0, .fenceRel true .dev),
    (32, 0xC0200150, .fenceRw true .dev),
    (32, 0xC029D400, .xinv 7 10),
    (32, 0xC0280100, .xinvAll),
    (32, 0xC031C000, .cacheopWb 7),
    (32, 0xC031C001, .cacheopWbinv 7),
    (32, 0xC031C002, .cacheopInv 7),
    (32, 0xC0300003, .cacheopIfetch),
    (32, 0xC0380000, .brk),
    (32, 0xC0400000, .halt),
    (32, 0xC049CEDB, .mrd 7 3803#12),
    (32, 0xC051CEDB, .mwr 7 3803#12)] = true := by decide +kernel

/-- Scalar groups: register and immediate forms (R244). Words put together field by field. -/
theorem test_words_scalar : reads [(32, 0xC13A9A00, .add 7 10 13),
    (32, 0xC13A9A01, .sub 7 10 13),
    (32, 0xC13A9A02, .and 7 10 13),
    (32, 0xC13A9A03, .or 7 10 13),
    (32, 0xC13A9A04, .xor 7 10 13),
    (32, 0xC13A9A05, .shl 7 10 13),
    (32, 0xC13A9A06, .shr 7 10 13),
    (32, 0xC13A9A07, .sar 7 10 13),
    (32, 0xC13A9A08, .slt 7 10 13),
    (32, 0xC13A9A09, .sltn 7 10 13),
    (32, 0xC13A9A0A, .mul 7 10 13),
    (32, 0xC13A9A0B, .mulh 7 10 13),
    (32, 0xC13A9A0C, .mulhn 7 10 13),
    (32, 0xC13A9A0D, .div 7 10 13),
    (32, 0xC13A9A0E, .divn 7 10 13),
    (32, 0xC13A9A0F, .rem 7 10 13),
    (32, 0xC13A9A10, .remn 7 10 13),
    (32, 0xC13A9A11, .min 7 10 13),
    (32, 0xC13A9A12, .max 7 10 13),
    (32, 0xC13A9A13, .minn 7 10 13),
    (32, 0xC13A9A14, .maxn 7 10 13),
    (32, 0xC13A8015, .clz 7 10),
    (32, 0xC13A8016, .ctz 7 10),
    (32, 0xC13A8017, .popc 7 10),
    (32, 0xC23CB6DB, .pcrel 7 308955#19),
    (32, 0xC43CB6DB, .imhi 7 308955#19),
    (32, 0xC33A86DB, .addi 7 10 1755#11),
    (32, 0xC33A8EDB, .andi 7 10 1755#11),
    (32, 0xC33A96DB, .ori 7 10 1755#11),
    (32, 0xC33A9EDB, .xori 7 10 1755#11),
    (32, 0xC33AA6DB, .slti 7 10 1755#11),
    (32, 0xC33AA83B, .shli 7 10 59#6),
    (32, 0xC33AB03B, .shri 7 10 59#6),
    (32, 0xC33AB83B, .sari 7 10 59#6)] = true := by decide +kernel

/-- Loads, stores and atomics (R244). Words put together field by field. -/
theorem test_words_memory : reads [(32, 0xC53A86DB, .ld8 7 10 1755#11),
    (32, 0xC53A8EDB, .ld16 7 10 1755#11),
    (32, 0xC53A96DB, .ld32 7 10 1755#11),
    (32, 0xC53A9EDB, .ld64 7 10 1755#11),
    (32, 0xC53AA6DB, .ld8z 7 10 1755#11),
    (32, 0xC53AAEDB, .ld16z 7 10 1755#11),
    (32, 0xC53AB6DB, .ld32z 7 10 1755#11),
    (32, 0xC53ABA7B, .ldAcq 7 10 .dev .b16 59#6),
    (32, 0xC63A86DB, .st8 7 10 1755#11),
    (32, 0xC63A8EDB, .st16 7 10 1755#11),
    (32, 0xC63A96DB, .st32 7 10 1755#11),
    (32, 0xC63A9EDB, .st64 7 10 1755#11),
    (32, 0xC63ABA7B, .stRel 7 10 .dev .b16 59#6),
    (32, 0xCA3A9A09, .amoAdd 7 10 13 false true false .dev),
    (32, 0xCA3A9A49, .amoAnd 7 10 13 false true false .dev),
    (32, 0xCA3A9A89, .amoOr 7 10 13 false true false .dev),
    (32, 0xCA3A9AC9, .amoXor 7 10 13 false true false .dev),
    (32, 0xCA3A9B15, .amoMin 7 10 13 false true false true .dev),
    (32, 0xCA3A9B55, .amoMax 7 10 13 false true false true .dev),
    (32, 0xCA3A9B89, .amoSwap 7 10 13 false true false .dev),
    (32, 0xCA3A9BC9, .amoCas 7 10 13 false true false .dev)] = true := by decide +kernel

/-- Branches and jumps (R244). Words put together field by field. -/
theorem test_words_jumps : reads [(32, 0xC73A86DB, .beq 7 10 1755#11),
    (32, 0xC73A8EDB, .bne 7 10 1755#11),
    (32, 0xC73A96DB, .blt 7 10 1755#11),
    (32, 0xC73A9EDB, .bge 7 10 1755#11),
    (32, 0xC73AA6DB, .bltn 7 10 1755#11),
    (32, 0xC73AAEDB, .bgen 7 10 1755#11),
    (32, 0xC83CB6DB, .jl 7 308955#19),
    (32, 0xC93A86DB, .jlr 7 10 1755#11)] = true := by decide +kernel

/-- Scalar floating point (R244). Words put together field by field. -/
theorem test_words_float : reads [(32, 0xCC3A9A0A, .fadd 7 10 13 .bf16),
    (32, 0xCC3A9A2A, .fsub 7 10 13 .bf16),
    (32, 0xCC3A9A4A, .fmul 7 10 13 .bf16),
    (32, 0xCC3A9A6A, .fdiv 7 10 13 .bf16),
    (32, 0xCC3A808B, .fsqrt 7 10 .f32),
    (32, 0xCC3A9AAA, .fma 7 10 13 .bf16),
    (32, 0xCC3A9ACA, .fmin 7 10 13 .bf16),
    (32, 0xCC3A9AEA, .fmax 7 10 13 .bf16),
    (32, 0xCC3A9B0A, .fcmpEq 7 10 13 .bf16),
    (32, 0xCC3A9B2A, .fcmpLt 7 10 13 .bf16),
    (32, 0xCC3A9B4A, .fcmpLe 7 10 13 .bf16),
    (32, 0xCC3A9B6A, .fcmpUn 7 10 13 .bf16),
    (32, 0xCC3A978A, .fcvt 7 10 .f32 .bf16),
    (32, 0xCC3A81AB, .fclass 7 10 .f32)] = true := by decide +kernel

/-- Vector configuration and loops (R245). Words put together field by field. -/
theorem test_words_config : reads [(32, 0xD03A8300, .setvl 7 10 .e32),
    (32, 0xD03A8B00, .setvlG 7 10 .e32),
    (32, 0xD03A93DB, .vloop 7 10 .e32 219#8),
    (32, 0xD03A9BDB, .vloopPar 7 10 .e32 219#8),
    (32, 0xD001E000, .vend 7),
    (32, 0xD038280A, .vtag 7 .bf16)] = true := by decide +kernel

/-- Vector arithmetic (R246). Words put together field by field. -/
theorem test_words_arith : reads [(32, 0xD13A9BE0, .vadd 7 10 13 7 true false),
    (32, 0xD13A9BE1, .vsub 7 10 13 7 true false),
    (32, 0xD13A9BE2, .vmul 7 10 13 7 true false),
    (32, 0xD13A9BE3, .vmin 7 10 13 7 true false),
    (32, 0xD13A9BE4, .vmax 7 10 13 7 true false),
    (32, 0xD13A9BE5, .vand 7 10 13 7 true false),
    (32, 0xD13A9BE6, .vor 7 10 13 7 true false),
    (32, 0xD13A9BE7, .vxor 7 10 13 7 true false),
    (32, 0xD13A9BE8, .vaddVx 7 10 13 7 true),
    (32, 0xD13A9BE9, .vsubVx 7 10 13 7 true),
    (32, 0xD13A9BEA, .vmulVx 7 10 13 7 true),
    (32, 0xD13A9BEB, .vminVx 7 10 13 7 true),
    (32, 0xD13A9BEC, .vmaxVx 7 10 13 7 true),
    (32, 0xD13A9BED, .vandVx 7 10 13 7 true),
    (32, 0xD13A9BEE, .vorVx 7 10 13 7 true),
    (32, 0xD13A9BEF, .vxorVx 7 10 13 7 true),
    (32, 0xD33A9BE0, .vfma 7 10 13 7 true false),
    (32, 0xD33A9BE1, .vfms 7 10 13 7 true false),
    (32, 0xD33A9BE2, .vfnma 7 10 13 7 true false),
    (32, 0xD33A9BE3, .vmacw 7 10 13 7 true false),
    (32, 0xD33A9BE4, .vfmaVx 7 10 13 7 true),
    (32, 0xD33A9BE5, .vfmsVx 7 10 13 7 true),
    (32, 0xD33A9BE6, .vfnmaVx 7 10 13 7 true),
    (32, 0xD33A9BE7, .vmacwVx 7 10 13 7 true),
    (32, 0xD33A8148, .vneg 7 10 5 false),
    (32, 0xD33A8348, .vabs 7 10 5 false),
    (32, 0xD33A8548, .vsqrt 7 10 5 false),
    (32, 0xD33A8748, .vrcp 7 10 5 false),
    (32, 0xD33A8948, .vrsqrt 7 10 5 false),
    (32, 0xD33A8B48, .vexp2 7 10 5 false),
    (32, 0xD33A8D48, .vclz 7 10 5 false),
    (32, 0xD33A8F48, .vpopc 7 10 5 false),
    (32, 0xD33A9148, .vclass 7 10 5 false),
    (32, 0xD33A9348, .vmv 7 10 5 false),
    (32, 0xD33A9BE9, .vsel 7 10 13 7 true false),
    (32, 0xD338154A, .vsplat 7 10 5),
    (32, 0xD33800CB, .vid 7 3),
    (32, 0xD33A9BEC, .vshl 7 10 13 7 true false),
    (32, 0xD33A9BED, .vshr 7 10 13 7 true false),
    (32, 0xD33A9BEE, .vshlVx 7 10 13 7 true),
    (32, 0xD33A9BEF, .vshrVx 7 10 13 7 true)] = true := by decide +kernel

/-- Compares, reductions, scans, permutes, the dependence group, conversions and predicates (R246). Words put together field by field. -/
theorem test_words_groups : reads [(32, 0xD40A9BE1, .vcmp 1 10 13 7 true false .ne),
    (32, 0xD40A9BE9, .vcmpVx 1 10 13 7 true .ne),
    (32, 0xD53A9BE0, .vredsum 7 10 13 7 true false),
    (32, 0xD53A9BE1, .vredsumOrd 7 10 13 7 true false),
    (32, 0xD53A9BE2, .vredmin 7 10 13 7 true false),
    (32, 0xD53A9BE3, .vredmax 7 10 13 7 true false),
    (32, 0xD53A9BE4, .vredand 7 10 13 7 true false),
    (32, 0xD53A9BE5, .vredor 7 10 13 7 true false),
    (32, 0xD53A8149, .vscan 7 10 5 false .min),
    (32, 0xD53A8BED, .vscanSeg 7 10 5 7 true .min),
    (32, 0xD63A9BE0, .vraise 7 10 13 7 true),
    (32, 0xD63A9BE1, .vlower 7 10 13 7 true),
    (32, 0xD63A9BE2, .vperm 7 10 13 7 true false),
    (32, 0xD63A8143, .vrev 7 10 5 false),
    (32, 0xD63A9BE4, .vzip 7 10 13 7 true false),
    (32, 0xD63A9BE5, .vunzip 7 10 13 7 true false),
    (32, 0xD63A8146, .vsqueeze 7 10 5 false),
    (32, 0xD63A8147, .vspread 7 10 5 false),
    (32, 0xD63800C8, .vrank 7 3),
    (32, 0xD73A8140, .vconf 7 10 5 false),
    (32, 0xD70A8A01, .vpart 1 10 5 false),
    (32, 0xD708C142, .vcuti 1 3 5),
    (32, 0xD708C143, .vcutx 1 3 5),
    (32, 0xD73A8144, .vlast 7 10 5 false),
    (32, 0xD73A8145, .vfirst 7 10 5 false),
    (32, 0xD83A97E0, .vcvt 7 10 .f32 7 true),
    (32, 0xD83A9BE1, .vnarrow 7 10 13 7 true),
    (32, 0xD83A8142, .vwiden 7 10 5 false),
    (32, 0xDC08CBC0, .pand 1 3 5 7),
    (32, 0xDC08CBC1, .por 1 3 5 7),
    (32, 0xDC08CBC2, .pxor 1 3 5 7),
    (32, 0xDC08C143, .pnot 1 3 5),
    (32, 0xDC08CBC4, .pandn 1 3 5 7),
    (32, 0xDC08C145, .pafter 1 3 5),
    (32, 0xDC0800C6, .pset 1 3),
    (32, 0xDC080007, .pclr 1),
    (32, 0xDC38C148, .pcnt 7 3 5),
    (32, 0xDC38C149, .pfirst 7 3 5)] = true := by decide +kernel

/-- Vector memory and atomics (R247). Words put together field by field. -/
theorem test_words_vmem : reads [(32, 0xD93A8154, .vld 7 10 5 .oe .keep),
    (32, 0xD93A9BD5, .vlds 7 10 13 7 .oe .keep),
    (32, 0xD93A9BD6, .vldx 7 10 13 7 .oe .keep),
    (32, 0xD93A91D7, .vldseg 7 10 2 7 .oe .keep),
    (32, 0xDA3A8154, .vst 7 10 5 .oe .keep),
    (32, 0xDA3A9BD5, .vsts 7 10 13 7 .oe .keep),
    (32, 0xDA3A9BD6, .vstx 7 10 13 7 .oe .keep),
    (32, 0xDA3A91D7, .vstseg 7 10 2 7 .oe .keep),
    (32, 0xDB3A8020, .vsave 7 10),
    (32, 0xDB3A8024, .vrest 7 10),
    (32, 0xDB3A9B4A, .vamo 7 10 13 5 .or false true)] = true := by decide +kernel

/-- Engines (R248). Words put together field by field. -/
theorem test_words_engines : reads [(32, 0xDD3A9A10, .cpy 7 10 13 16),
    (32, 0xDD3A8427, .cpyr 7 10 2 7),
    (32, 0xDD3A8447, .cpyw 7 10 2 7),
    (32, 0xDD3A9A60, .cpyx 7 10 13),
    (32, 0xDD3A8080, .cpym 7 10),
    (32, 0xDD3800A0, .vrecv 7),
    (32, 0xDD01D4C0, .vstream 7 10),
    (32, 0xDD0000E1, .pwait 1),
    (32, 0xDD3A9B00, .arw 7 10 13),
    (32, 0xDD3A9B20, .await 7 10 13)] = true := by decide +kernel

/-- Tasks, barriers, deques and the Turnstile (R248, R351). Words put together field by field. -/
theorem test_words_tasks : reads [(32, 0xDE3A8000, .tspawn 7 10),
    (32, 0xDE3A8001, .tsig 7 10),
    (32, 0xDE000002, .tdone),
    (32, 0xDE380003, .tkill 7),
    (32, 0xDE000004, .tyield),
    (32, 0xDE000005, .bar),
    (32, 0xDE380006, .barinit 7),
    (32, 0xDE3A8007, .qpush 7 10),
    (32, 0xDE3A8008, .qpop 7 10),
    (32, 0xDE3A9A09, .qsteal 7 10 13),
    (32, 0xDE3A800A, .talloc 7 10),
    (32, 0xDE3A800B, .tst 7 10),
    (32, 0xDE3A800C, .tld 7 10),
    (32, 0xDE3A800D, .tpost 7 10),
    (32, 0xDE38000E, .tdrop 7)] = true := by decide +kernel

/-- Extended words (R249, R250). -/
theorem test_words_extended : reads [(64, 0xE18700EA0009E328, .vloopLong true 7 10 .e32 9000#14),
    (64, 0xE1801D4D04C00000, .vmulh 7 10 13 9 true false false),
    (64, 0xE1809D4D04C80000, .vdiv 7 10 13 9 true false true),
    (64, 0xE1811D4D04C00000, .vrem 7 10 13 9 true false false),
    (64, 0xE1819D4D04C80000, .vsadd 7 10 13 9 true false true),
    (64, 0xE1821D4D04C00000, .vssub 7 10 13 9 true false false),
    (64, 0xE1829D4D04C80000, .vavg 7 10 13 9 true false true),
    (64, 0xE1831D4D04C00000, .vabsd 7 10 13 9 true false false),
    (64, 0xE1839D4D04C80000, .vmulhr 7 10 13 9 true false true),
    (64, 0xE1841DAA04C22000, .vqnt 7 10 13 .e2m1 9 true),
    (64, 0xE1849DAA04C26E13, .vqnte 7 10 13 .e2m1x 3 16 19 9 true),
    (64, 0xE1851D4D04C12010, .vdqnt 7 10 13 .f16 16 9 true false),
    (64, 0xE1859D4D84A40005, .vgathw 7 10 13 16 5 9 true),
    (64, 0xE1861D4D04899C00, .vldLong 7 10 13 .strided .sc .keep true .fabric 0 9 false),
    (64, 0xE1861D4D04A24A00, .vldLong 7 10 13 .indexed .oe .none true .dev 0 9 true),
    (64, 0xE1869D4004832100, .vstLong 7 10 0 .segment .plain .stream false .core 4 9 false),
    (64, 0xE1081D4D04C00000, .evExtended .vadd 7 10 13 0 9 true false false false),
    (64, 0xE10B9D4D04C00000, .evExtended .vxor 7 10 13 0 9 true false false false),
    (64, 0xE1181D4D84C00000, .evExtended .vfma 7 10 13 16 9 true false false false),
    (64, 0xE11C9D4D04C00000, .evExtended .vsel 7 10 13 0 9 true false false false)] = true := by decide +kernel

/-- Matrix words (R251, R337). -/
theorem test_words_matrix : reads [(64, 0xE800000003A80000, .mcfg 7 10),
    (64, 0xE809000000000000, .mzero .joined),
    (64, 0xE8143A9B09DA6000, .mop .t2 7 10 13 16 19 22 9 true false),
    (64, 0xE81E3A9B09DA5932, .mops .t3 7 10 13 16 19 22 9 false true 2 1 25),
    (64, 0xE822380005364000, .mrow .t1 7 10 13 9),
    (64, 0xE82A380005366000, .mwrow .t1 7 10 13 9 true),
    (64, 0xE836000003A80000, .mld .t3 7 10),
    (64, 0xE839000003A80000, .mst .joined 7 10),
    (64, 0xE840000003800000, .msave 7),
    (64, 0xE848000003800000, .mrest 7),
    (64, 0xE854000003A80000, .mjoin .t2 7 10),
    (64, 0xE85C000003800000, .msplit .t2 7),
    (64, 0xE860000003A80000, .olset 7 10),
    (64, 0xE868000003800000, .olclr 7),
    (64, 0xE8700000051C0000, .olcnt 7 10)] = true := by decide +kernel

/-- The worked encodings of the chapters (R234 to R251, R337, R351, R376). -/
theorem test_words_worked : reads [(32, 0xD11844A0, .vadd 3 1 2 2 true false),
    (16, 0x20BD, .cAddi 5 0b11101),
    (64, 0xE11810221CF00000, .evExtended .vfma 4 1 2 3 9 true true true false),
    (16, 0xA000, .cNop),
    (32, 0xC532FAC0, .ldAcq 6 11 .dev .b64 0),
    (32, 0xCA29CC2D, .amoAdd 5 7 6 true true true .dev),
    (32, 0xC02000F0, .fenceRel true .pool),
    (32, 0xC0494003, .mrd 5 3),
    (32, 0xC72997F8, .blt 5 6 0b11111111000),
    (32, 0xD0298300, .setvl 5 6 .e32),
    (32, 0xD4184432, .vcmp 3 1 2 0 true true .lt),
    (64, 0xE180102201600000, .vmulh 4 1 2 2 true true false),
    (64, 0xE184A20C00424A95, .vqnte 8 12 16 .e4m3x 2 20 21 0 true),
    (32, 0xD7208060, .vconf 4 2 1 true),
    (32, 0xD7110621, .vpart 2 4 3 true),
    (32, 0xD6308E20, .vraise 6 2 7 0 true),
    (32, 0xDC188005, .pafter 3 2 0),
    (32, 0xD52848AC, .vscanSeg 5 1 4 2 true .add),
    (64, 0xE133204004C00000, .evExtended .vsqueeze 8 2 0 0 9 true false false false),
    (32, 0xD9130202, .vldx 2 12 1 0 .plain .none),
    (32, 0xDA228020, .vst 4 10 0 .sc .none),
    (32, 0xDB1B0283, .vamo 3 12 1 2 .add true true),
    (32, 0xDD428024, .cpyr 8 10 0 4),
    (32, 0xDD62DE0E, .cpy 12 11 15 14),
    (64, 0xE185A204A0240005, .vgathw 8 16 4 20 5 0 true),
    (64, 0xE186094004800E00, .vldLong 2 10 0 .unit .plain .none true .pool 0 9 false),
    (64, 0xE812110C7A54F000, .mop .t1 2 4 6 7 20 21 3 true true),
    (64, 0xE818432110003528, .mops .t0 8 12 16 17 0 0 0 true true 1 1 20),
    (64, 0xE80C000000000000, .mzero .t2),
    (32, 0xDEA5400A, .talloc 20 21),
    (32, 0xDEA5800D, .tpost 20 22),
    (32, 0xDE1D000C, .tld 3 20),
    (32, 0xDE298E09, .qsteal 5 6 7),
    (32, 0xDE000002, .tdone),
    (32, 0xD052D320, .vloop 10 11 .e32 32),
    (32, 0xC7780FF2, .bne 15 0 0b11111110010),
    (32, 0xD0002000, .vend 0)] = true := by decide +kernel

/-- The words that the chapters show to be ILLEGAL decode to no instruction. -/
theorem test_words_illegal : ([
    ((32 : Nat), (0xD2000000 : Nat)),
    ((32 : Nat), (0xD1000018 : Nat)),
    ((32 : Nat), (0xC0200200 : Nat)),
    ((32 : Nat), (0xCC00000D : Nat)),
    ((32 : Nat), (0xD7110661 : Nat)),
    ((32 : Nat), (0xD7000006 : Nat)),
    ((32 : Nat), (0xDA228030 : Nat)),
    ((32 : Nat), (0xDB1B02A3 : Nat)),
    ((64 : Nat), (0xE812110C7A54F400 : Nat)),
    ((64 : Nat), (0xE878000000000000 : Nat)),
    ((32 : Nat), (0xDE080002 : Nat)),
    ((32 : Nat), (0xDE00000F : Nat))].all fun x => decodeTableWord x.1 x.2 == none) = true := by decide +kernel

/-! ## Ill-formed terms -/

/-- For each check, a term that it refuses. -/
theorem test_wf_compressed :
    (∀ i ∈ [Instr.cAdd 0 1, .cSub 0 1, .cAnd 0 1, .cOr 0 1, .cXor 0 1, .cMv 0 1, .cJlr 1 0, .cAddi 0 1, .cAddiX0 0 1,
      .cShli 0 1, .cShri 0 1, .cSari 0 1, .cAndi 0 1, .cLd64 0 1 0, .cJ 0], i.wellFormed = false) := by decide +kernel

theorem test_wf_scalar :
    (∀ i ∈ [Instr.amoAdd 1 2 3 true false false .dev, .amoAnd 1 2 3 true false false .dev,
      .amoOr 1 2 3 true false false .dev, .amoXor 1 2 3 true false false .dev, .amoMin 1 2 3 true true false false .dev,
      .amoMax 1 2 3 true true false false .dev, .amoSwap 1 2 3 true false false .dev, .amoCas 1 2 3 true false false .dev,
      .fadd 1 2 3 .s32, .fsub 1 2 3 .e4m3, .fmul 1 2 3 .z64, .fdiv 1 2 3 .e8m0, .fsqrt 1 2 .s8, .fma 1 2 3 .s32,
      .fmin 1 2 3 .s32, .fmax 1 2 3 .s32, .fcmpEq 1 2 3 .s32, .fcmpLt 1 2 3 .s32, .fcmpLe 1 2 3 .s32, .fcmpUn 1 2 3 .s32,
      .fcvt 1 2 .s8 .f32, .fcvt 1 2 .f32 .s8, .fcvt 1 2 .s32 .s64, .fclass 1 2 .s32], i.wellFormed = false) := by
  decide +kernel

theorem test_wf_vector :
    (∀ i ∈ [Instr.vloop 1 2 .e32 1, .vloopPar 1 2 .e32 1, .vloopLong true 1 2 .e32 1, .vadd 1 2 3 8 true true,
      .vfmaVx 1 2 3 8 true, .vneg 1 2 8 true, .vsel 1 2 3 8 true true, .vsplat 1 2 8, .vid 1 8, .vcmp 1 2 3 8 true true .eq,
      .vredsum 1 2 3 8 true true, .vscan 1 2 8 true .add, .vscanSeg 1 2 3 8 true .add, .vraise 1 2 3 8 true,
      .vconf 1 2 8 true, .vcuti 1 2 8, .vlast 1 2 8 true, .vcvt 1 2 .f32 8 true, .vnarrow 1 2 3 8 true, .vwiden 1 2 8 true,
      .pand 1 2 3 8, .pnot 1 2 8, .pset 1 8, .pcnt 1 2 8, .vmulh 1 2 3 9 true true true, .vqnte 1 2 3 .e4m3x 5 1 2 0 true],
      i.wellFormed = false) := by decide +kernel

theorem test_wf_memory :
    (∀ i ∈ [Instr.vld 1 2 8 .plain .none, .vlds 1 2 3 8 .plain .none, .vldx 1 2 3 8 .plain .none,
      .vldseg 1 2 1 8 .plain .none, .vldseg 1 2 0 0 .plain .none, .vst 1 2 0 .ff .none, .vsts 1 2 3 0 .ff .none,
      .vstx 1 2 3 0 .ff .none, .vstseg 1 2 1 0 .ff .none, .vstseg 1 2 0 0 .plain .none,
      .vldLong 1 2 3 .unit .plain .none true .dev 0 0 false, .vldLong 1 2 0 .unit .plain .none true .dev 1 0 false,
      .vldLong 1 2 0 .unit .plain .none true .dev 0 0 true, .vldLong 1 2 0 .unit .plain .none false .dev 0 0 false,
      .vldLong 1 2 3 .strided .plain .none true .dev 1 0 false, .vldLong 1 2 3 .indexed .plain .none true .dev 1 0 false,
      .vldLong 1 2 0 .segment .plain .none true .dev 0 0 false, .vstLong 1 2 0 .unit .ff .none true .dev 0 0 false,
      .vamo 1 2 3 8 .add true true, .cpyr 1 2 0 0, .cpyw 1 2 0 0, .pwait 0], i.wellFormed = false) := by decide +kernel

theorem test_wf_extended :
    (∀ i ∈ [Instr.evExtended .vadd 1 2 3 4 0 true true false false, .evExtended .vadd 1 2 3 0 0 true true true false,
      .evExtended .vadd 1 2 3 0 0 true true false true, .evExtended .vfma 1 2 3 4 0 true true true true,
      .evExtended .unary 1 2 10 0 0 true false false false, .evExtended .unary 1 2 3 0 0 true true false false,
      .evExtended .vsel 1 2 3 0 0 true true false true, .evExtended .vsplat 1 0 3 0 0 false false false false,
      .evExtended .vsplat 1 2 3 0 0 false false false true, .evExtended .vid 1 2 0 0 0 false false false false,
      .evExtended (.vcmp .eq) 16 2 3 0 0 true true false false, .evExtended .vrev 1 2 3 0 0 true false false false,
      .evExtended (.vscanSeg .add) 1 2 16 0 0 true false false false, .evExtended .vraise 1 2 3 0 0 true false false false,
      .evExtended .vpart 1 2 3 0 1 true false false false, .evExtended .vcuti 1 16 0 0 0 false false false false,
      .evExtended .vcvt 1 2 21 0 0 true false false false, .evExtended .pand 1 2 16 0 0 false false false false,
      .evExtended .pnot 16 2 0 0 0 false false false false, .evExtended .pset 1 2 0 0 0 false false false false,
      .evExtended .pclr 1 0 0 0 1 false false false false, .evExtended .pcnt 1 16 0 0 0 false false false false],
      i.wellFormed = false) := by decide +kernel

/-! ## States -/

/-- An outcome is a next state. -/
def isNext {σ φ ρ : Type} : Host.Outcome σ φ ρ → Bool
  | .next _ => true
  | _ => false

theorem of_isNext {σ φ ρ : Type} {o : Host.Outcome σ φ ρ} (h : isNext o = true) : ∃ t, o = .next t := by
  cases o <;> simp_all [isNext]

/-- The value of a part that goes on. -/
def okOr {ε α : Type} (d : α) : Except ε α → α
  | .ok a => a
  | .error _ => d

/-- A part goes on. -/
def isOk {ε α : Type} : Except ε α → Bool
  | .ok _ => true
  | .error _ => false

theorem eq_okOr {ε α : Type} {r : Except ε α} (d : α) (h : isOk r = true) : r = .ok (okOr d r) := by
  cases r <;> simp_all [isOk, okOr]

/-- Root task 1 on hart 0 at U, with its translations cached: four windows of 32 GiB, of a WB, a UC, a DEV and a POOL
page, and pool region 0 attached. -/
def base : State :=
  let s := State.reset.withFetchWord 16 0xA000
  let e (b f pte : Nat) : TlbE := ⟨0, 0, false, b * 2 ^ 35, 2 ^ 35, f, BitVec.ofNat 64 pte⟩
  let s := { s with xlat := { s.xlat with tlb :=
    [e 0 0 0x30F, e 1 0 0x800000000000030F, e 2 paHub 0xC00000000000030F, e 3 paPool 0x400000000000030F] } }
  s.setHreg (oPregion 0) (BitVec.ofNat 64 (2 ^ 62))

/-- base with its hart changed. -/
def on (f : Hart → Hart) : State := base.setMe (f base.me)

/-- The hart at a level. -/
def atLevel (l : Level) : State := on fun h => { h with level := l }

/-- base with the next read of its hart held. -/
def held : State := { base with drv := { base.drv with hold := true } }

/-- Addresses in the four windows. -/
def wb : Nat := 0x200000
def uc : Nat := 2 ^ 35 + 0x200000
def dev : Nat := 2 * 2 ^ 35
def pool : Nat := 3 * 2 ^ 35
/-- An address in the scratchpad window. -/
def win : Nat := winBase

/-- A part answers with a value that meets P. -/
theorem ofSome {α : Type} {o : Option α} {P : α → Prop} [DecidablePred P]
    (h : (o.any fun p => decide (P p)) = true) : ∃ p, o = some p ∧ P p := by
  cases o <;> simp_all

theorem ofOk {ε α : Type} {o : Except ε α} {P : α → Prop} [DecidablePred P]
    (h : (match o with | .ok a => decide (P a) | .error _ => false) = true) : ∃ p, o = .ok p ∧ P p := by
  cases o <;> simp_all
/-! ## Scalar instructions -/

theorem wit_BranchAndJumpResults :
    ((base.getX 1 + (4#11).signExtend 64).toNat % 2 ^ 55) % 2 = 0 ∧ (base.getX 1).toNat % 2 ^ 55 % 2 = 0 ∧
    ((base.getX 1 + (5#11).signExtend 64).toNat % 2 ^ 55) % 2 = 1 ∧
    ((on fun h => h.setX 1 7).getX 1).toNat % 2 ^ 55 % 2 = 1 := by decide +kernel

/-- An address register. -/
def addr (s : State) (va : Nat) : State := s.setX 1 (BitVec.ofNat 64 va)

/-- base with a request for a frame under way. -/
def asking (f : Nat) : State := { base with coh := { base.coh with reqs :=
  [⟨.gets, .cc 1, homeDie f, f, 0, 31, [], [], false, false, false, base.clk⟩] } }

/-- A hart with one read held, and one with a write in its store buffer. -/
def withRead : State := base.setHmem 0 { base.hmem 0 with bag :=
  [⟨0, wb, 8, wb, .rd (.x 1 .b64), none, false, true, 0, 0, false, false⟩] }
def withWrite : State := base.setHmem 0 { base.hmem 0 with sb :=
  [⟨0, 0, 0, wb, 8, 5, none, none, false, wb, true, 0⟩] }

/-- A plain load, one of a UC page, one that the driver holds, one behind an older held read, and one of the hub
block; a frame that a request is under way for is not ready. -/
theorem wit_LoadResults :
    (let s := addr base wb
     ∃ p, s.reaches (s.addrOf 1 0) 8 false false = some p ∧ p.attr ≠ .dev ∧
      s.olderHeld s.cur s.drv.nextId p.key 8 = false ∧ s.drv.hold = false ∧ p.attr.cached = true ∧
      s.l1Ready s.cur p.key 8 false = true ∧ (s.readValue s.myPath p.key 8).2.2 = false) ∧
    (let s := addr held uc
     ∃ p, s.reaches (s.addrOf 1 0) 8 false false = some p ∧ p.attr ≠ .dev ∧
      s.olderHeld s.cur s.drv.nextId p.key 8 = false ∧ p.attr = .uc ∧
      (s.readValue s.myPath p.key 8).2.2 = false) ∧
    (let s := addr held pool
     ∃ p, s.reaches (s.addrOf 1 0) 4 false false = some p ∧ p.attr ≠ .dev ∧ p.attr ≠ .uc ∧
      s.mayHold s.cur s.drv.nextId p 4 = true) ∧
    (let s := addr withRead wb
     ∃ p, s.reaches (s.addrOf 1 0) 4 false false = some p ∧ p.attr ≠ .dev ∧ p.attr ≠ .uc ∧
      s.mayHold s.cur s.drv.nextId p 4 = true) ∧
    (let s := addr base dev
     ∃ p, s.reaches (s.addrOf 1 8) 8 false false = some p ∧ p.attr = .dev ∧ s.isBad p.key 8 = false ∧
      s.hubReady (p.pa - paHub) = true) ∧
    (asking (wb / 256)).l1Ready 0 wb 8 false = false := by
  refine ⟨?_, ?_, ?_, ?_, ?_, by decide +kernel⟩ <;> exact ofSome (by decide +kernel)

/-- A plain store, a release to a UC page, one to a POOL page, one to the hub block, and one behind a held read. -/
theorem wit_StoreResults :
    (let s := addr base wb
     ∃ p, s.reaches (s.addrOf 1 0) 8 true false = some p ∧ p.attr ≠ .dev ∧ p.attr ≠ .uc ∧
      s.olderHeld s.cur s.drv.nextId p.key 8 = false) ∧
    (let s := addr base uc
     ∃ p, s.reaches (s.addrOf 1 0) 8 true false = some p ∧ p.attr = .uc ∧
      s.olderHeld s.cur s.drv.nextId p.key 8 = false ∧ s.mayLeave s.cur s.drv.nextId = true ∧
      s.earlierDone s.cur s.drv.nextId .dev false (s.hmem s.cur).obs = true) ∧
    (let s := addr base pool
     ∃ p, s.reaches (s.addrOf 1 0) 8 true false = some p ∧ p.attr ≠ .dev ∧
      s.olderHeld s.cur s.drv.nextId p.key 8 = false ∧ s.detachedBefore s.cur s.drv.nextId = false ∧
      p.attr.cached = true ∧ s.l1Ready s.cur p.key 8 true = true ∧
      s.earlierDone s.cur s.drv.nextId .pool false (s.hmem s.cur).obs = true) ∧
    (let s := addr base dev
     ∃ p, s.reaches (s.addrOf 1 8) 8 true false = some p ∧ p.attr = .dev ∧
      s.olderHeld s.cur s.drv.nextId p.key 8 = false ∧ s.mayLeave s.cur s.drv.nextId = true) ∧
    (let s := addr withRead wb
     ∃ p, s.reaches (s.addrOf 1 0) 8 true false = some p ∧ p.attr ≠ .dev ∧ p.attr ≠ .uc ∧
      s.olderHeld s.cur s.drv.nextId p.key 8 = true) := by
  and_intros <;> exact ofSome (by decide +kernel)

theorem wit_StoreFrame :
    let s := addr (base.setX 2 0x1122334455667788) win
    (Instr.st16 2 1 2, 2) ∈ [(Instr.st8 2 1 2, 1), (.st16 2 1 2, 2), (.st32 2 1 2, 4), (.st64 2 1 2, 8)] ∧
    (∃ p, s.reaches (s.addrOf 1 ((2#11).signExtend 64)) 2 true false = some p ∧ p.attr ≠ .dev ∧ p.attr ≠ .uc ∧
      s.olderHeld s.cur s.drv.nextId p.key 2 = false) ∧
    ∃ t, exec (.st16 2 1 2) s = .next t :=
  ⟨by decide +kernel, ofSome (by decide +kernel), of_isNext (by decide +kernel)⟩

theorem wit_AtomicResults :
    let s := addr base wb
    ∃ p, s.reaches (s.addrOf 1 0) 8 true true = some p ∧ s.isBad p.key 8 = false ∧
      s.olderHeld s.cur s.drv.nextId p.key 8 = false ∧ s.olderPending s.cur s.drv.nextId p.key 8 = false ∧
      s.mayLeave s.cur s.drv.nextId = true ∧ s.amoIdle p.key p.attr.cached = true ∧ s.drv.hold = false ∧
      s.earlierDone s.cur s.drv.nextId .dev false (s.hmem s.cur).obs = true ∧
      s.detachedBefore s.cur s.drv.nextId = false := ofSome (by decide +kernel)

theorem wit_HomeWriteFrame : Memory.wf base.mem := by decide +kernel

/-- What an access that faults answers. -/
def faults : Except AccStop (State × Phys) → Bool
  | .error (.fault _ _) => true
  | _ => false

theorem of_faults {r : Except AccStop (State × Phys)} (h : faults r = true) : ∃ t s', r = .error (.fault t s') := by
  unfold faults at h
  split at h
  · exact ⟨_, _, rfl⟩
  · cases h

/-- The window above the scratchpad has no memory. -/
theorem wit_AccessFaults :
    (∃ t s', base.access (winBase + winSize) 8 0 false false (!base.me.wpSkip) = .error (.fault t s')) ∧
    (∃ t s', base.access (winBase + winSize) 8 0 true false (!base.me.wpSkip) = .error (.fault t s')) ∧
    (∃ t s', base.access (winBase + winSize) 8 0 true true (!base.me.wpSkip) = .error (.fault t s')) ∧
    base.addrOf 0 ((4#11).signExtend 64) % 8 ≠ 0 ∧ (base.setX 1 2).addrOf 1 0 % 4 ≠ 0 :=
  ⟨of_faults (by decide +kernel), of_faults (by decide +kernel), of_faults (by decide +kernel), by decide +kernel,
    by decide +kernel⟩

/-! ## Scalar floating point and system instructions -/

theorem wit_FloatNaNOperands :
    let s := base.setX 1 0x7FC00000
    Tag.f32 ∈ [Tag.f16, .bf16, .f32, .f64] ∧ (val .f32 ((s.getX 1).toNat % 2 ^ 32)).isNan = true := by decide +kernel

theorem wit_RoundTowardZero :
    8 % 2 ^ 2 = 0 ∧ 0 < 2 ∧ 2 * (9 % 2 ^ 2) < 2 ^ 2 ∧ 2 ^ 2 < 2 * (11 % 2 ^ 2) ∧ 2 ^ 2 = 2 * (10 % 2 ^ 2) := by decide

theorem wit_NopAndWaitResults :
    (let s := addr base wb
     (1 : XR) ≠ 0 ∧ ∃ p, s.reaches (s.addrOf 1 0) 8 false false = some p ∧ s.isBad p.key 8 = false ∧
      s.olderHeld s.cur s.drv.nextId p.key 8 = false) ∧ (atLevel .s).me.level ≠ .u :=
  ⟨⟨by decide, ofSome (by decide +kernel)⟩, by decide +kernel⟩

theorem wit_FenceResults :
    (base.hmem 0).bag = [] ∧ (withRead.hmem 0).bag ≠ [] ∧ base.earlierDone 0 1 .dev false (base.hmem 0).obs = true ∧
    withWrite.earlierDone 0 1 .dev false (withWrite.hmem 0).obs = false := by decide +kernel

/-- A hart at S with a withdrawal acknowledged. -/
def withXinv (x : Xinv) : State := { atLevel .s with xlat := { base.xlat with xinv := [x] } }

theorem wit_XinvResults :
    (let s := withXinv ⟨0, 0, 0, 0x1000, true⟩
     let s' := s.setX 2 0x1000
     s'.me.level ≠ .u ∧ s'.xlat.xinv.find? (fun x => x.hid == s'.cur && x.asid == (s'.mreg mAsid).toNat % 2 ^ 12 &&
       x.lo == (s'.getX 1).toNat % 2 ^ 55 && x.hi == min (2 ^ 55) ((s'.getX 1).toNat % 2 ^ 55 + (s'.getX 2).toNat)) =
       some ⟨0, 0, 0, 0x1000, true⟩) ∧
    (let s := withXinv ⟨0, 0, 0, 2 ^ 55, true⟩
     s.xlat.xinv.find? (fun x => x.hid == s.cur && x.asid == (s.mreg mAsid).toNat % 2 ^ 12 && x.lo == 0 &&
       x.hi == 2 ^ 55) = some ⟨0, 0, 0, 2 ^ 55, true⟩) ∧
    (let s := withXinv ⟨0, 0, 0, 2 ^ 55, false⟩
     s.xlat.xinv.find? (fun x => x.hid == s.cur && x.asid == (s.mreg mAsid).toNat % 2 ^ 12 && x.lo == 0 &&
       x.hi == 2 ^ 55) = some ⟨0, 0, 0, 2 ^ 55, false⟩) ∧
    (let s := atLevel .s
     s.xlat.xinv = [] ∧ s.earlierDone s.cur s.drv.nextId .dev false [] = true ∧
     (s.getX 1).toNat % 2 ^ 55 = min (2 ^ 55) ((s.getX 1).toNat % 2 ^ 55 + (s.getX 2).toNat) ∧
     (let s := s.setX 2 8
      (s.getX 1).toNat % 2 ^ 55 ≠ min (2 ^ 55) ((s.getX 1).toNat % 2 ^ 55 + (s.getX 2).toNat))) ∧
    (let s := withWrite.setMe { withWrite.me with level := .s }
     s.xlat.xinv = [] ∧ s.earlierDone s.cur s.drv.nextId .dev false [] = false) := by decide +kernel

/-- What a translation that changes nothing finds. -/
def found (s : State) : Xres → Option Phys
  | .ok s' p => if s' = s then some p else none
  | _ => none

theorem of_found {s : State} {r : Xres} {P : Phys → Prop} [DecidablePred P]
    (h : ((found s r).any fun p => decide (P p)) = true) : ∃ p, r = .ok s p ∧ P p := by
  obtain ⟨p, hp, hP⟩ := ofSome h
  unfold found at hp
  split at hp
  · split at hp
    · subst_vars; cases hp; exact ⟨_, rfl, hP⟩
    · cases hp
  · cases hp

/-- The hart at S with an address and a write to it under way. -/
def posted : State := addr { atLevel .s with devQ := [⟨0, 0, 0, wb, 8, 5, none, none, false, wb, true, 0⟩] } wb

/-- The window, a UC and a DEV page, and a WB and a POOL page with nothing under way; and a frame with a write under
way. -/
theorem wit_CacheopResults :
    (winBase ≤ ((addr base win).getX 1).toNat % 2 ^ 55 ∧ (atLevel .s).me.level ≠ .u) ∧
    (((addr base uc).getX 1).toNat % 2 ^ 55 = uc ∧ uc < winBase ∧
      (∃ p, translate (addr base uc) (whoOf base 0) uc .load false = .ok (addr base uc) p ∧ p.attr = .uc) ∧
      ∃ p, translate (addr base dev) (whoOf base 0) dev .store true = .ok (addr base dev) p ∧ p.attr = .dev) ∧
    (let s := addr (atLevel .s) wb
     wb < winBase ∧ s.me.level ≠ .u ∧
     (∃ p, translate s (whoOf s 0) wb .load false = .ok s p ∧ p.attr = .wb ∧ fate s (dieOf s.cur) p false = .ok ∧
       s.idle (p.pa / 256) = true ∧ s.inFlight (p.pa / 256) = false) ∧
     ∃ p, translate s (whoOf s 0) wb .store true = .ok s p ∧ p.attr = .wb ∧ fate s (dieOf s.cur) p false = .ok ∧
       s.idle (p.pa / 256) = true ∧ s.inFlight (p.pa / 256) = false) ∧
    (∃ p, translate (addr base pool) (whoOf base 0) pool .store true = .ok (addr base pool) p ∧ p.attr = .pool ∧
      fate (addr base pool) (dieOf base.cur) p false = .ok ∧ (addr base pool).inFlight (p.pa / 256) = false) ∧
    ((∃ p, translate posted (whoOf posted 0) wb .load false = .ok posted p ∧ p.attr = .wb ∧
       posted.idle (p.pa / 256) = true ∧ posted.inFlight (p.pa / 256) = true) ∧
     ∃ p, translate posted (whoOf posted 0) wb .store true = .ok posted p ∧ p.attr = .wb ∧
       posted.idle (p.pa / 256) = true ∧ posted.inFlight (p.pa / 256) = true) :=
  ⟨by decide +kernel, ⟨by decide +kernel, by decide, of_found (by decide +kernel), of_found (by decide +kernel)⟩,
    ⟨by decide, by decide +kernel, of_found (by decide +kernel), of_found (by decide +kernel)⟩,
    of_found (by decide +kernel), of_found (by decide +kernel), of_found (by decide +kernel)⟩

/-- The last clause of lpart: with a new value written, and with none. -/
theorem wit_MrdResults :
    (base.core (coreOf base.cur)).lpartNew = none ∧ ¬ (0x300 ≤ 0x206) ∧
    ((0x103#12).toNat = 0x103 ∧ (atLevel .s).me.level ≠ .u) ∧ (base.hmem base.cur).bag = [] ∧
    (atLevel .m).me.level = .m ∧ base.me.level = .u := by decide +kernel

/-- Legal and reserved codes of the fields that keep theirs, and the levels. -/
theorem wit_MwrResults :
    ((base.setX 1 4).getX 1).toNat % 8 ≤ 4 ∧ 4 < ((base.setX 1 5).getX 1).toNat % 8 ∧
    1 < ((base.setX 1 0x2000).getX 1).toNat / 2 ^ 12 % 4 ∧ ((base.setX 1 0xC).getX 1).toNat / 2 ^ 2 % 4 = 3 ∧
    (base.hmem base.cur).bag = [] ∧ (atLevel .s).me.level ≠ .u ∧ (atLevel .m).me.level = .m := by decide +kernel

theorem wit_PrivilegedAtU : base.me.level = .u ∧ (0x206#12).toNat ∈
    [0x00B, 0x100, 0x101, 0x106, 0x107, 0x110, 0x200, 0x201, 0x206] := by decide +kernel

/-! ## Exceptions -/

theorem wit_SyscallEntersS :
    base.me.level ≠ .m ∧ (base.mreg mEstat).getLsbD 15 = false ∧ (base.hmem base.cur).bag = [] ∧
    base.me.resume = Resume.zero ∧ ∃ t, exec (.trap 5) base = .next t :=
  ⟨by decide +kernel, by decide +kernel, by decide +kernel, by decide +kernel, of_isNext (by decide +kernel)⟩

theorem wit_SyscallFrame :
    base.me.level ≠ .m ∧ (base.mreg mEstat).getLsbD 15 = false ∧ (base.hmem base.cur).bag = [] ∧
    ∃ t, exec (.trap 5) base = .next t :=
  ⟨by decide +kernel, by decide +kernel, by decide +kernel, of_isNext (by decide +kernel)⟩

/-- A busy supervisor, a monitor that is free, and one that is busy. -/
theorem wit_TrapsIntoMonitor :
    (let s := on fun h => h.setMreg mEstat 0x8000
     s.me.level ≠ .m ∧ (s.mreg mEstat).getLsbD 15 = true ∧ (s.hmem s.cur).bag = [] ∧ s.me.resume = Resume.zero) ∧
    (let s := atLevel .m
     s.me.level = .m ∧ (s.mreg mKstat).getLsbD 1 = false ∧ (s.hmem s.cur).bag = [] ∧ s.me.resume = Resume.zero) ∧
    (let s := on fun h => { (h.setMreg mKstat 2) with level := .m }
     s.me.level = .m ∧ (s.mreg mKstat).getLsbD 1 = true ∧ (s.hmem s.cur).bag = [] ∧ s.me.task = some 1) := by
  decide +kernel

/-- Shadow registers in order, out of order, and a return at M. -/
theorem wit_EretResults :
    ((atLevel .s).me.level = .s ∧ ¬ 32768 < ((atLevel .s).mreg mEvl).toNat % 2 ^ 17 ∧
      ((atLevel .s).mreg mEavl).getLsbD 63 = false) ∧
    (let s := on fun h => { (h.setMreg mEvl 32769) with level := .s }
     s.me.level = .s ∧ 32768 < (s.mreg mEvl).toNat % 2 ^ 17) ∧
    ((atLevel .m).me.level = .m ∧ (atLevel .m).me.task = some 1 ∧ ((atLevel .m).task 1).dying = none) := by
  decide +kernel

/-! ## Vector instructions -/

/-- A hart with a vector length. -/
def vec (n : Nat) : Hart → Hart := fun h => h.setMreg mVl (BitVec.ofNat 64 n)

/-- A gang of two, the other member at its `setvl.g`. -/
def gang (f : Hart → Hart) : State :=
  let s := base.setTask 1 { base.task 1 with w2 := 1, members := [.placed 0, .placed 8] }
  s.setHart 8 (f { base.me with member := 1 })

theorem wit_SetvlResults :
    (base.me.level ≠ .m ∧ base.regCopies base.cur = false ∧ base.me.task = some 1 ∧ (base.task 1).gsz = 1) ∧
    (let s := gang fun h => { h with setvlg := some (4, 3) }
     s.me.level ≠ .m ∧ s.regCopies s.cur = false ∧ s.me.task = some 1 ∧ (s.task 1).gsz ≠ 1 ∧ s.me.setvlg = none ∧
     (s.task 1).hids.length = (s.task 1).gsz ∧ ∀ hid ∈ (s.task 1).hids, ((s.arriveSetvlg 2 1 .e32).hart hid).setvlg.isSome = true) := by decide +kernel

/-- A hart in a loop of length 8 at its first strip of 4. -/
def loop : State := on fun h => (vec 4 h).setMreg mAvl 0x9800000000000008

/-- The same in a parallel loop, whose second strip has written x4 and v8 and holds a store. -/
def parLoop : State := on fun h =>
  let h := (vec 4 h).setMreg mAvl 0xD800000000000008
  let S : Strip :=
    { cluster := 1, pc := 0x40, pos := 4, vl := 4, flags := 0
      regs := { h.regs with x := SMap.set 0 h.x 4 9, v := SMap.set 0 h.v 0x20000 7 }, start := h.regs
      xw := [4], tw := [], vw := [(0x20000, 16)], pw := [], mem := Mem.reset }
  { h with par := some ⟨0, h.regs, h.regs, [S]⟩ }

/-- `vloop` with no length, with one, at M and inside a loop; `vend` at the end, before it, and with no advance. -/
theorem wit_LoopResults :
    (base.me.level ≠ .m ∧ base.me.looping = false ∧ (base.getX 1).toNat % 2 ^ 48 = 0) ∧
    (let s := base.setX 1 5
     s.me.level ≠ .m ∧ s.me.looping = false ∧ (s.getX 1).toNat % 2 ^ 48 ≠ 0 ∧ s.regCopies s.cur = false) ∧
    (atLevel .m).me.level = .m ∧ loop.me.looping = true ∧
    (let s := loop.setMreg mStrip 4
     s.me.level ≠ .m ∧ s.me.looping = true ∧ 0 < s.me.vl ∧ bits (s.me.mreg mStrip) 47 0 + s.me.vl =
       bits (s.me.mreg mAvl) 47 0) ∧
    (0 < loop.me.vl ∧ bits (loop.me.mreg mStrip) 47 0 + loop.me.vl ≠ bits (loop.me.mreg mAvl) 47 0 ∧
      loop.regCopies loop.cur = false ∧ loop.me.stream = none ∧ loop.me.parallel = false ∧ loop.me.par = none) ∧
    (let s := parLoop
     s.me.level ≠ .m ∧ s.me.looping = true ∧ 0 < s.me.vl ∧
     bits (s.me.mreg mStrip) 47 0 + s.me.vl ≠ bits (s.me.mreg mAvl) 47 0 ∧ s.regCopies s.cur = false ∧
     s.me.stream = none ∧ s.bagEmpty s.cur = true ∧
     s.me.spilled = [] ∧ ∃ P S rest, s.me.par = some P ∧ P.young = S :: rest) ∧
    ¬(0 < (loop.getX 1).toNat ∧ (loop.getX 1).toNat ≤ loop.me.vl) :=
  ⟨by decide +kernel, by decide +kernel, by decide +kernel, by decide +kernel, by decide +kernel, by decide +kernel,
    ⟨by decide +kernel, by decide +kernel, by decide +kernel, by decide +kernel, by decide +kernel, by decide +kernel,
      by decide +kernel, by decide +kernel, _, _, _, rfl, rfl⟩, by decide +kernel⟩

/-- `vend` of the oldest strip goes on in the next one, with what that one has written (R96). -/
theorem test_vend_takes_strip :
    (match execVend 0 parLoop with
     | .next t => (t.me.pc, t.me.vl, t.getX 4, SMap.get 0 t.me.v 0x20000, t.me.par.map (·.cluster))
     | _ => (0, 0, 0, 0, none)) = (0x40, 4, 9, 7, some 1) := by decide +kernel

/-- Cluster 1 is held too: strip 1 starts there, at the end of strip 0, with the capacity of that cluster under the cap
of 4; and no strip starts where no cluster is free (R96). -/
theorem test_strip_starts :
    (let s (held : Nat) := ((parLoop.setMe { parLoop.me.setMreg mStrip 0x4000000000000 with
       par := some ⟨0, parLoop.me.regs, parLoop.me.regs, []⟩ }).setHolders 0 held 1).stripTurn 0 0
     let young (s : State) := s.me.par.map fun P => P.young.map fun S => (S.cluster, S.pos, S.vl)
     (young (s 3), young (s 0))) = (some [(1, 4, 4)], some []) := by decide +kernel

/-- A younger strip's `addi x7, x10, -293` writes its own copy, and its hart's registers and PC stay (R96). -/
theorem test_strip_turn :
    (let s := ({ parLoop with mem := (State.reset.withFetchWord 32 0xC33A86DB).mem } : State)
     let P (P : Par) : Par := { P with young := P.young.map fun S => { S with pc := 0x100000 } }
     let t := (s.setMe { s.me with par := s.me.par.map P }).stripTurn 0 0
     ((t.hart 0).par.map fun P => P.young.map fun S => (S.pc, S.xw, SMap.get 0 S.regs.x 7),
       (t.hart 0).x == s.me.x && (t.hart 0).pc == s.me.pc)) =
    (some [(0x100004, [4, 7], -293)], true) := by decide +kernel

theorem wit_TagResults :
    (groupOf .s64 base.me.ew 2 = some 2 ∧ groupOf (base.me.tagOf 2) base.me.ew 2 ≠ groupOf .s64 base.me.ew 2) ∧
    (groupOf .f32 base.me.ew 3 = some 1 ∧ groupOf (base.me.tagOf 3) base.me.ew 3 = some 1) ∧
    groupOf .s64 base.me.ew 3 = none := by decide +kernel

/-- A hart with vl = 3. -/
def vec3 : State := on (vec 3)

/-- Where no word is bad, no register that an instruction reads has one. -/
theorem sound_of {s : State} (h : s.bad = []) : s.wordsSound := fun _ _ _ _ => by simp [State.elemBad, h]

theorem calm_of {s : State} (b : s.bad = [])
    (h : (s.hmem s.cur).resErr = none ∧ (s.me.vl = 0 ∨ s.me.spilled = []) ∧ s.drv.pause = none) : s.Calm :=
  ⟨h.1, h.2.1, h.2.2, sound_of b⟩

theorem calm_vec3 : vec3.Calm := calm_of (by decide +kernel) (by decide +kernel)

theorem wit_ElementwiseResults :
    (elemForm (.vadd 3 1 2 0 false false)).isSome = true ∧ vec3.Calm ∧ (binElem .add).rt (vec3.me.tagOf 3) (vec3.me.srcTags [.v 1, .v 2]) = some .s32 ∧
    groupsOk vec3.me.ew (vec3.me.srcRegs [.v 1, .v 2]) (some (3, .s32)) = true :=
  ⟨by decide +kernel, calm_vec3, by decide +kernel⟩

theorem wit_LandedElements :
    groupOf .s32 vec3.me.ew 3 = some 1 ∧ ([((0 : Nat), (5 : Nat)), (2, 7)].map (·.1)).Nodup ∧
    (∀ e ∈ [((0 : Nat), (5 : Nat)), (2, 7)], e.1 * Tag.s32.width < 0x20000 * 1) := by decide +kernel

theorem wit_IntegerVectorResults :
    vec3.Calm ∧ vec3.me.resume.pending = false ∧
    Tag.s32 ∈ [Tag.s8, .s16, .s32, .s64, .z8, .z16, .z32, .z64] ∧ Tag.s32.width ≤ vec3.me.ew.bits ∧
    vec3.me.tagOf 1 = .s32 ∧ vec3.me.tagOf 2 = .s32 ∧ (vec3.me.tagOf 3).width = Tag.s32.width ∧
    vec3.me.vl * Tag.s32.width ≤ 0x20000 := ⟨calm_vec3, by decide +kernel⟩

theorem wit_CompareResults :
    vec3.Calm ∧ vec3.me.resume.pending = false ∧
    (vec3.me.tagOf 1).ordinary = true ∧ (groupOf (vec3.me.tagOf 1) vec3.me.ew 1).isSome = true ∧
    (vec3.me.tagOf 2).ordinary = true ∧ (groupOf (vec3.me.tagOf 2) vec3.me.ew 2).isSome = true :=
  ⟨calm_vec3, by decide +kernel⟩

/-- From its first element, and behind its last one. -/
theorem wit_WholeResults :
    (let h := vec3.fromStart.me
     (wholeForm (.vperm 3 1 2 0 false false)).isSome = true ∧ vec3.Calm ∧ vec3.me.spent = false ∧ h.vl ≠ 0 ∧
     permTag (h.tagOf 3) (h.srcTags [.v 1, .v 2]) = some .s32 ∧
     groupsOk h.ew (h.srcRegs [.v 1, .v 2]) (some (3, .s32)) = true) ∧
    (let s := on fun h => { vec 3 h with resume := { h.resume with sfx := 9 } }
     let h := s.fromStart.me
     s.Calm ∧ s.me.spent = true ∧ permTag (h.tagOf 3) (h.srcTags [.v 1, .v 2]) = some .s32 ∧
     groupsOk h.ew (h.srcRegs [.v 1, .v 2]) (some (3, .s32)) = true) :=
  ⟨⟨by decide +kernel, calm_vec3, by decide +kernel⟩, calm_of (by decide +kernel) (by decide +kernel), by decide +kernel⟩

theorem wit_IntegerSum :
    Tag.s32 ∈ [Tag.s8, .s16, .s32, .s64, .z8, .z16, .z32, .z64] ∧ vec3.me.tagOf 1 = .s32 ∧ vec3.me.tagOf 2 = .s32 := by
  decide +kernel

theorem wit_PredicateResults :
    (predForm (.pand 3 1 2 0)).isSome = true ∧ vec3.Calm ∧ vec3.me.spent = false ∧
    (vec3.me.tagOf 1).isInt = true ∧ (vec3.me.tagOf 1).isSgn = true ∧
    (groupOf (vec3.me.tagOf 1) vec3.me.ew 1).isSome = true ∧ 1 < vec3.me.vl ∧ (2 : PR) ≠ 0 :=
  ⟨by decide +kernel, calm_vec3, by decide +kernel⟩

/-- With an active element, and with none. -/
theorem wit_ScalarPickResults :
    vec3.Calm ∧ vec3.me.spent = false ∧ (vec3.me.tagOf 1).ordinary = true ∧
    (groupOf (vec3.me.tagOf 1) vec3.me.ew 1).isSome = true ∧ (vec3.me.actives 0).getLast? = some 2 ∧
    (vec3.me.actives 0).head? = some 0 ∧ vec3.me.actives 1 = [] := ⟨calm_vec3, by decide +kernel⟩

/-! ## Vector memory -/

/-- A hart with vl = 3 and an address. -/
def vaddr : State := addr vec3 wb

/-- A store; and a load that the driver holds. -/
theorem wit_VectorMemoryResults :
    (let s := vaddr
     let m : VMem := { windowMem 2 (s.me.unitAddr 1 4) with store := true }
     let ps := s.places m 4 (m.accs ((s.me.actives 0).filter s.fresh))
     (vmemForm s.me (.vst 2 1 0 .plain .none)).isSome = true ∧ s.me.spilled = [] ∧ s.drv.pause = none ∧
     (s.me.tagOf 2).ordinary = true ∧
     (groupOf (s.me.tagOf 2) s.me.ew 2).isSome = true ∧ 2 + 1 * groupSize (s.me.tagOf 2) s.me.ew ≤ 32 ∧
     (∀ f, f < 1 → s.me.tagOf (Fin.ofNat 32 (2 + f * groupSize (s.me.tagOf 2) s.me.ew)) = s.me.tagOf 2) ∧
     (∀ e ∈ (s.me.actives 0).filter s.fresh, s.elemStop m 4 e = none) ∧
     s.staysHeld s m s.drv.nextId 4 ps = false ∧ isOk (s.vmemWait s m s.drv.nextId 4 ps false) = true ∧
     s.orderOf s.drv.nextId m.mode = m.grp) ∧
    (let s : State := { vaddr with drv := held.drv }
     let m := windowMem 2 (s.me.unitAddr 1 4)
     let ps := s.places m 4 (m.accs ((s.me.actives 0).filter s.fresh))
     (∀ e ∈ (s.me.actives 0).filter s.fresh, s.elemStop m 4 e = none) ∧
     s.staysHeld s m s.drv.nextId 4 ps = true ∧ isOk (s.vmemWait s m s.drv.nextId 4 ps true) = true) := by
  and_intros <;> decide +kernel

theorem wit_VectorMemoryIndexed :
    let s := vaddr
    (s.me.tagOf 3).isInt = true ∧ groupOf (s.me.tagOf 3) s.me.ew 3 = some 1 ∧ meets 2 1 3 1 = false ∧
    s.me.looping = false := by decide +kernel

theorem wit_ElementAccesses :
    (∃ r, vaddr.probe (windowMem 2 (fun _ _ => wb)) 4 ⟨0, 0, wb⟩ = .ok r ∧ r.1 = vaddr ∧ r.2.attr ≠ .dev) ∧ 2 + 0 * 1 < 32 ∧
    (∃ r, vaddr.probe { windowMem 2 (fun _ _ => wb) with store := true } 4 ⟨0, 0, wb⟩ = .ok r ∧ r.1 = vaddr) :=
  ⟨ofOk (by decide +kernel), by decide, ofOk (by decide +kernel)⟩

/-! Accesses of the scratchpad window, whatever the element. -/

/-- Nothing is in flight that a read could meet. -/
structure Quiet (s : State) : Prop where
  bad : s.bad = []
  unacked : s.unacked = []
  coreQ : s.coreQ = []
  devQ : s.devQ = []
  fabQ : s.fabQ = []
  sb : (s.hmem s.cur).sb = []
  bag : (s.hmem s.cur).bag = []
  err : (s.hmem s.cur).accErr = none
  fill : (s.core (coreOf s.cur)).filling = false
  wake : (s.core (coreOf s.cur)).waking = []
  gate : (s.core (coreOf s.cur)).gated = []
  reqs : s.coh.reqs = []
  set : s.me.task = some 1 ∧ (s.task 1).dset = none
  low : s.cur = 0
  free : (s.hmem s.cur).stall = none

theorem access_win {s : State} (q : Quiet s) {va n elem : Nat} {store w : Bool} (h : va % n = 0) (l : winBase ≤ va)
    (u : va < winBase + winSize) :
    s.access va n elem store false w = .ok (s, ⟨spadKey (coreOf s.cur) (va - winBase), 0, .spad⟩) := by
  have hw : s.watchHit va n elem (!store) store = none := by
    simp [State.watchHit, q.set.1, q.set.2]
  have hk : (keySpad + coreOf s.cur * 2 ^ 20 + (va - winBase) - keySpad) / 2 ^ 20 = coreOf s.cur := by
    rw [q.low]; simp only [coreOf, keySpad, winBase, winSize] at *; omega
  have ht : ∀ k : Acc, k ≠ .fetch → k ≠ .engine → translate s (whoOf s s.cur) va k store =
      .ok s ⟨spadKey (coreOf s.cur) (va - winBase), 0, .spad⟩ := by
    intro k h1 h2
    have hlt : ¬ winSize ≤ va - winBase := by simp only [winSize, winBase] at *; omega
    simp [Sys2Proof.Machine.translate, h1, h2, l, hlt, whoOf]
  have hf : fate s (dieOf s.cur) ⟨spadKey (coreOf s.cur) (va - winBase), 0, .spad⟩ (store && !false) = .ok := by
    simp only [fate, spadKey, hk, q.fill, q.wake, q.gate]; rfl
  unfold State.access
  have ha : ((if store = true then Acc.store else Acc.load) ≠ .fetch) ∧
      ((if store = true then Acc.store else Acc.load) ≠ .engine) := by cases store <;> decide
  simp only [h, ne_eq, not_true_eq_false, ↓reduceIte, ht _ ha.1 ha.2, hf, State.unanswered, q.err, State.owes, q.free]
  cases w <;> simp [hw, paPeer]

/-- The scratchpads' bytes are zero. -/
def Clean (s : State) : Prop := ∀ k, keySpad ≤ k → s.img k = 0

theorem readByte_win {s : State} (q : Quiet s) (hm : Clean s) {y : Nat} (hy : keySpad ≤ y) :
    s.readByte (s.searchPath 0 s.cur (coreOf s.cur)) y = (0, none, false) := by
  have hq : s.coreQueue (coreOf s.cur) = [] := by simp [State.coreQueue, q.coreQ]
  simp [State.readByte, State.searchPath, q.sb, hq, q.devQ, q.fabQ, youngest, hm y hy, q.unacked, State.isBad, q.bad,
    List.findSome?]

theorem readValue_win {s : State} (q : Quiet s) (hm : Clean s) {loc : Nat} (hl : keySpad ≤ loc) (n : Nat) :
    s.readValue (s.searchPath 0 s.cur (coreOf s.cur)) loc n = (0, [], false) := by
  have hz : ∀ l : List Nat, ofBytes (l.map fun _ => (0 : Byte)) = 0 := by
    intro l; induction l with
    | nil => rfl
    | cons a l ih => rw [List.map_cons, ofBytes, ih]; rfl
  have hb : ∀ j, s.readByte (s.searchPath 0 s.cur (coreOf s.cur)) (loc + j) = (0, none, false) :=
    fun j => readByte_win q hm (Nat.le_trans hl (Nat.le_add_right _ _))
  simp only [State.readValue, hb, List.map_map, Function.comp_def, Prod.mk.injEq]
  refine ⟨hz _, ?_, ?_⟩
  · have h0 : ((List.range n).map fun _ => ((0 : Byte), (none : Option Nat), false)).filterMap (·.2.1) = [] := by
      simp
    rw [h0]; rfl
  · simp

theorem spad_high (c o : Nat) : keySpad ≤ spadKey c o := by simp only [spadKey]; omega

theorem probe_win {s : State} (q : Quiet s) (hm : Clean s) {m : VMem} {b : Nat} {a : ElemAcc} (ho : m.mode = .plain)
    (h : a.va % b = 0) (l : winBase ≤ a.va) (u : a.va < winBase + winSize) :
    s.probe m b a = .ok (s, ⟨spadKey (coreOf s.cur) (a.va - winBase), 0, .spad⟩) := by
  simp only [State.probe, access_win q h l u, State.readsBad, VMem.start, ho]
  have hr : (s.readValue (s.searchPath 0 s.cur (coreOf s.cur)) (spadKey (coreOf s.cur) (a.va - winBase)) b).2.2 =
      false := by rw [readValue_win q hm (spad_high _ _)]
  simp [hr]

theorem elemStop_win {s : State} (q : Quiet s) (hm : Clean s) {m : VMem} {b e : Nat} (hn : m.nf = 1)
    (ho : m.mode = .plain) (hi : m.idx = none) (h : m.addr e 0 % b = 0) (l : winBase ≤ m.addr e 0) (u : m.addr e 0 < winBase + winSize) :
    s.elemStop m b e = none := by
  have ha : m.accs [e] = [⟨e, 0, m.addr e 0⟩] := by simp [VMem.accs, hn]
  simp [State.elemStop, ha, hi, probe_win q hm (a := ⟨e, 0, m.addr e 0⟩) ho h l u, State.dataBad, q.bad]

theorem places_win {s : State} (q : Quiet s) (hm : Clean s) {m : VMem} {b : Nat} (ho : m.mode = .plain) (l : List ElemAcc)
    (h : ∀ a ∈ l, a.va % b = 0 ∧ winBase ≤ a.va ∧ a.va < winBase + winSize) :
    ∀ p ∈ s.places m b l, p.1.attr = .spad := by
  intro p hp
  obtain ⟨a, ha, hp⟩ := List.mem_filterMap.mp hp
  obtain ⟨h1, h2, h3⟩ := h a ha
  simp only [probe_win q hm ho h1 h2 h3, Option.some.injEq] at hp
  rw [← hp]

/-- Plain accesses of the window wait for nothing. -/
theorem vmemWait_win {s : State} (q : Quiet s) {m : VMem} {ino b : Nat} (ho : m.mode = .plain) (hr : m.ord = none)
    (hf : s.mayLeave s.cur ino = true) (ps : List (Phys × Nat)) (hps : ∀ p ∈ ps, p.1.attr = .spad) (held : Bool) :
    s.vmemWait s m ino b ps held = .ok () := by
  have h0 : s.overHeld ino b ps = false := by simp [State.overHeld, State.olderHeld, q.bag]
  have hw : (ps.any fun p => p.1.attr.direct) = false := by
    simp only [List.any_eq_false]; intro p hp; rw [hps p hp]; decide
  have hc : (m.mode == .sc) = false := by rw [ho]; rfl
  have hmode : (m.mode != .sc) = true := by rw [ho]; rfl
  have hd : (ps.all fun p => p.1.attr != .dev || s.hubReady (p.1.pa - paHub)) = true := by
    simp only [List.all_eq_true]
    intro p hp
    rw [hps p hp]; rfl
  have hi : ∀ l, s.framesIdle l = true := fun l => by simp [State.framesIdle, q.reqs]
  unfold State.vmemWait
  simp only [h0, hmode, hf, hr, hd, hi, hw, hc, State.releaseWait, Bool.or_true, Bool.true_or, Bool.not_false]
  cases m.store <;> rfl

/-- Reading the window leaves it quiet, and reads zero. -/
theorem readWords_win {m : VMem} {b ino : Nat} (ho : m.mode = .plain) (l : List ElemAcc) :
    ∀ {s : State}, Quiet s → Clean s → (∀ a ∈ l, a.va % b = 0 ∧ winBase ≤ a.va ∧ a.va < winBase + winSize) →
    (s.readWords m ino b l).2 = l.map fun _ => 0 := by
  induction l with
  | nil => exact fun _ _ _ => rfl
  | cons a l ih =>
    intro s q hm h
    obtain ⟨ha, hl⟩ := List.forall_mem_cons.mp h
    have hp := probe_win q hm (m := m) ho ha.1 ha.2.1 ha.2.2
    have hw : s.readWord m ino b a =
        (s.noteRead s.cur ino (spadKey (coreOf s.cur) (a.va - winBase)) b [], 0) := by
      simp only [State.readWord, hp, State.myPath]
      simp [readValue_win q hm (spad_high _ _)]
    have hn : Quiet (s.noteRead s.cur ino (spadKey (coreOf s.cur) (a.va - winBase)) b []) := by
      simp only [State.noteRead, List.isEmpty_nil, ↓reduceIte]
      have hh : ∀ x : Mem, (s.setHmem s.cur x).hmem (s.setHmem s.cur x).cur = x :=
        fun x => State.hmem_setHmem_same s s.cur x
      exact ⟨q.bad, q.unacked, q.coreQ, q.devQ, q.fabQ, by rw [hh]; exact q.sb, by rw [hh]; exact q.bag,
        by rw [hh]; exact q.err, q.fill, q.wake, q.gate, q.reqs, q.set, q.low, by rw [hh]; exact q.free⟩
    simp only [State.readWords, hw, List.map_cons]
    exact congrArg (0 :: ·) (ih hn hm hl)

/-- base, its hart the owner of its core's array, and an address in the window. -/
def own : State := addr ((base.setCore 0 { Core.reset with mown := 0x8000 }).setMe (vec 3 base.me)) winBase

theorem quiet_own : Quiet own := by constructor <;> decide +kernel

theorem get_above {m : SMap Byte} {b : Nat} (h : ∀ e ∈ m, e.1 < b) {k : Nat} (hk : b ≤ k) : SMap.get 0 m k = 0 := by
  induction m with
  | nil => rfl
  | cons e m ih =>
    obtain ⟨h1, h2⟩ := List.forall_mem_cons.mp h
    rw [SMap.get, if_neg (by omega)]
    exact ih h2

theorem clean_own : Clean own := fun k hk => get_above (b := keySpad) (by decide +kernel) hk

/-- An 8-byte element of an image in the window. -/
theorem window {base e n : Nat} (h : base % 8 = 0) (l : winBase ≤ base) (u : base + 8 * n ≤ winBase + winSize)
    (he : e < n) : (base + 8 * e) % 2 ^ 55 % 8 = 0 ∧ winBase ≤ (base + 8 * e) % 2 ^ 55 ∧
      (base + 8 * e) % 2 ^ 55 < winBase + winSize := by
  simp only [winBase, winSize] at *; omega

theorem image_win {m : VMem} {e : Nat} (he : e < 2048) (ha : m.addr e 0 = (winBase + 8 * e) % 2 ^ 55) :
    m.addr e 0 % 8 = 0 ∧ winBase ≤ m.addr e 0 ∧ m.addr e 0 < winBase + winSize := by
  rw [ha]; exact window (n := 2048) (by decide) (Nat.le_refl _) (by decide) he

/-- A whole register image in the window: every element passes, and nothing holds it up. -/
theorem wit_WindowAndImage (store : Bool) :
    let s := own
    let base := (s.getX 1).toNat % 2 ^ 55
    let m := imageMem store 2 base
    let todo := (List.range 2048).filter fun e => s.me.resume.unit ≤ e / 128
    s.me.spilled = [] ∧ s.drv.pause = none ∧ base % 64 = 0 ∧ (∀ e ∈ todo, s.elemStop m 8 e = none) ∧
    ∀ held, s.vmemWait s m s.drv.nextId 8 (s.places m 8 (m.accs todo)) held = .ok () := by
  have hb : (own.getX 1).toNat % 2 ^ 55 = winBase := by decide +kernel
  have hw : ∀ e ∈ (List.range 2048).filter fun e => own.me.resume.unit ≤ e / 128,
      (imageMem store 2 ((own.getX 1).toNat % 2 ^ 55)).addr e 0 % 8 = 0 ∧
      winBase ≤ (imageMem store 2 ((own.getX 1).toNat % 2 ^ 55)).addr e 0 ∧
      (imageMem store 2 ((own.getX 1).toNat % 2 ^ 55)).addr e 0 < winBase + winSize := fun e he =>
    image_win (List.mem_range.mp (List.mem_filter.mp he).1) (by rw [hb]; rfl)
  refine ⟨by decide +kernel, by decide +kernel, by decide +kernel,
    fun e he => elemStop_win quiet_own clean_own rfl rfl rfl (hw e he).1 (hw e he).2.1 (hw e he).2.2, fun held => ?_⟩
  refine vmemWait_win quiet_own rfl rfl (by decide +kernel) _ (places_win quiet_own clean_own rfl _ ?_) held
  intro a ha
  obtain ⟨e, he, hf⟩ := List.mem_flatMap.mp ha
  obtain ⟨f, hf', rfl⟩ := List.mem_map.mp hf
  obtain rfl : f = 0 := by simpa [imageMem] using hf'
  exact hw e he

/-- The window of `vgathw`. -/
theorem wit_WindowAndImageResults :
    let s := own
    let m := windowMem 2 (s.me.unitAddr 1 4)
    let todo := (s.me.actives 0).filter s.fresh
    let ps := s.places m 4 (m.accs todo)
    (s.me.tagOf 2).ordinary = true ∧ s.me.tagOf 4 = s.me.tagOf 2 ∧ (s.me.tagOf 6).isInt = true ∧
    (groupOf (s.me.tagOf 2) s.me.ew 4).isSome = true ∧ (groupOf (s.me.tagOf 2) s.me.ew 2).isSome = true ∧
    (groupOf (s.me.tagOf 6) s.me.ew 6).isSome = true ∧ meets 4 1 2 1 = false ∧ meets 4 1 6 1 = false ∧
    meets 2 1 6 1 = false ∧ (∀ e ∈ todo, s.elemStop m 4 e = none) ∧ s.staysHeld s m s.drv.nextId 4 ps = false ∧
    isOk (s.vmemWait s m s.drv.nextId 4 ps false) = true ∧
    (let e := (s.drawFrames false .none 4 ps).performElems m s.drv.nextId 4 1 todo false
     e.bagEmpty e.cur = true ∧ (e.hmem e.cur).resErr = none ∧ e.bad = [] ∧ e.me.skewed 6 0 4 = none ∧ e.me.vl ≠ 0) := by
  and_intros <;> decide +kernel

/-- `vamo.add` of three elements, and its sum; and one that the driver holds. -/
theorem wit_VectorAtomicResults :
    let s := vaddr
    s.me.spilled = [] ∧ s.me.resume.pending = false ∧ vamoTag .add (s.me.tagOf 2) = true ∧
    (s.me.tagOf 4).isInt = true ∧
    (groupOf (s.me.tagOf 2) s.me.ew 2).isSome = true ∧ (groupOf (s.me.tagOf 4) s.me.ew 4).isSome = true ∧
    meets 2 1 4 1 = false ∧
    (∃ r, s.vamoCheck (fun e => s.me.indexAddr 1 4 e 0) 4 (s.elemBad 4 (s.me.tagOf 4)) (s.elemBad 2 (s.me.tagOf 2))
        (s.me.actives 0) = .ok r ∧
      (∀ l ∈ byLoc r.2, r.1.olderHeld s.cur s.drv.nextId l.1.key 4 = false ∧
        r.1.olderPending s.cur s.drv.nextId l.1.key 4 = false) ∧ r.1.mayLeave s.cur s.drv.nextId = true ∧
      (let places := r.2.map fun e => (e.2, s.me.indexAddr 1 4 e.1 0)
       r.1.framesIdle (cachedOf .wb 4 places ++ cachedOf .pool 4 places) = true) ∧
      ((byLoc r.2).any fun l => l.1.attr.direct) = false ∧
      (byLoc r.2).all (fun l => s.amoIdle l.1.key l.1.attr.cached) = true) ∧
    (∀ u a, s.releaseWait u s.drv.nextId a none true = .ok ()) ∧
    s.drv.hold = false ∧ held.drv.hold = true ∧ Tag.s32 ∈ [Tag.s32, .s64, .z32, .z64] ∧ 4 = Tag.s32.width / 8 := by
  refine ⟨by decide +kernel, by decide +kernel, by decide +kernel, by decide +kernel, by decide +kernel, ?_⟩
  exact ⟨by decide +kernel, by decide +kernel, ofOk (by decide +kernel), fun _ _ => rfl, by decide +kernel⟩

/-! ## Copies and arrival words -/

/-- A gang of two, each with room for one strip. -/
def pair : State := (gang fun h => { h with rxMax := 1 }).setMe (vec 3 { base.me with rxMax := 1 })

/-- A strip that has landed. -/
def strip : RxFrame := ⟨1, 7, .s32, 3, [], true⟩

theorem wit_CopyIssueResults :
    (let s := base
     (s.getX 3).toNat ≤ 2 ^ 40 ∧ s.desOk (coreOf s.cur) (s.getX 4) = true ∧
     (s.engQ (engQueue .cpy (coreOf s.cur) 0 0)).length < engCap (engQueue .cpy (coreOf s.cur) 0 0)) ∧
    (∀ s ∈ [vec3, base], (s.me.tagOf 2).ordinary = true ∧ (groupOf (s.me.tagOf 2) s.me.ew 2).isSome = true ∧
      (0 + 1) % groupSize (s.me.tagOf 2) s.me.ew = 0 ∧ 2 + 0 + 1 ≤ 32 ∧
      (s.getX 1).toNat % 2 ^ 55 % ((s.me.tagOf 2).width / 8) = 0 ∧ s.maskBusy 3 = false ∧
      (s.engQ (coreOf s.cur)).length < 32 ∧ s.me.spilled = []) ∧ vec3.me.vl ≠ 0 ∧ base.me.vl = 0 ∧
    (let s := pair.setX 1 8
     s.me.task = some 1 ∧ (s.getX 1).toNat ≠ s.cur ∧ (s.getX 1).toNat ∈ (s.task 1).hids ∧
     (s.me.tagOf 2).ordinary = true ∧
     (groupOf (s.me.tagOf 2) s.me.ew 2).isSome = true ∧ (s.engQ (coreOf s.cur)).length < 32 ∧ s.me.spilled = [] ∧
     s.sendsBad 2 = false ∧ s.me.vl ≠ 0) ∧
    (let s := pair.setX 1 2
     s.me.task = some 1 ∧ (s.getX 1).toNat < 2 ^ (s.task 1).gsz ∧ (s.getX 1).toNat.testBit s.me.member = false ∧
     (s.me.tagOf 2).ordinary = true ∧ groupOf (s.me.tagOf 2) s.me.ew 2 = some 1 ∧ (∀ i ∈ bitList 16 (s.getX 1).toNat, s.hasFrame i = true) ∧
     (s.engQ (coreOf s.cur)).length < 32 ∧ s.me.spilled = [] ∧ s.sendsBad 2 = false ∧ (s.getX 1).toNat ≠ 0) ∧
    (pair.getX 1).toNat = 0 ∧
    (let s := on fun h => { h with rx := [strip] }
     s.me.rx = strip :: [] ∧ strip.landed = true ∧ strip.tag.ordinary = true ∧ groupOf strip.tag s.me.ew 2 = some 1) ∧
    loop.me.looping = true ∧ base.maskBusy 3 = false ∧
    (base.enqueue 0 (base.newCopy .cpyr 2 0 1 0 3 .s32 3 [])).maskBusy 3 = true := by decide +kernel

/-- `arw`, `await` on a generation that has moved on, and on one that has not. -/
theorem wit_ArrivalWords :
    (∃ p, own.reaches winBase 16 true true = some p ∧ own.isBad p.key 16 = false ∧
      own.olderHeld own.cur own.drv.nextId p.key 16 = false ∧
      own.olderPending own.cur own.drv.nextId p.key 16 = false ∧ own.mayLeave own.cur own.drv.nextId = true) ∧
    (∃ p, own.reaches winBase 16 false false = some p ∧ own.isBad p.key 16 = false ∧
      own.olderHeld own.cur own.drv.nextId p.key 16 = false ∧
      own.olderPending own.cur own.drv.nextId p.key 16 = false ∧
      (own.word16 p.key).toNat / 2 ^ 64 % 2 ^ 32 = (own.getX 2).toNat % 2 ^ 32 ∧
      (own.word16 p.key).toNat / 2 ^ 64 % 2 ^ 32 ≠ ((own.setX 2 1).getX 2).toNat % 2 ^ 32) ∧
    (own.getX 1).toNat % 2 ^ 55 % 16 = 0 ∧ winBase ≤ (own.getX 1).toNat % 2 ^ 55 ∧
    (own.getX 1).toNat % 2 ^ 55 < winBase + winSize :=
  ⟨ofSome (by decide +kernel), ofSome (by decide +kernel), by decide +kernel, by decide +kernel, by decide +kernel⟩

/-! ## Quantise and matrix instructions -/

/-- A hart with registers tagged and a vector length, owner of a 1 × 1 configuration. -/
def tile (vl : Nat) : State :=
  let s := base.setCore 0 { Core.reset with mown := 0x8000, mvalid := true }
  s.setMe (((((vec vl s.me).setTags 2 .f32 1).setTags 3 .f32 1).setTags 4 .e4m3x 1).setTags 5 .e8m0 1 |>.setTags 6 .z32 1)

/-- The list of a descriptor of 0, which stands at the start of the window and is empty. -/
theorem wit_QuantiseResults :
    let s := tile 32
    (s.Calm ∧ s.me.spent = false ∧ (s.me.tagOf 2).isFloat = true ∧ Tag.e5m2.isNarrow = true ∧
      quantGroups s.me.ew 7 .e5m2 8 2 (s.me.tagOf 2) = true ∧ s.me.resume.pending = false ∧ s.me.vl ≠ 0) ∧
    (Tag.e4m3x.escape.isSome = true ∧
      quantGroups s.me.ew 7 .e4m3x 8 2 (s.me.tagOf 2) = true ∧ listDesc (s.getX 1) = some ⟨0, 1, 0⟩ ∧
      0 + 16 ≤ winSize ∧ s.me.vl % (32 * 1) = 0 ∧ s.me.vl / (32 * 1) ≤ 512 ∧ 0 + s.me.vl / 1 ≤ 65536) ∧
    (∃ r, s.listHeader 0 true = .ok r ∧ (r.1.hmem r.1.cur).resErr = none ∧ r.1.drv.pause = none ∧ r.1.me = s.me ∧
      r.1.bad = [] ∧ r.2.ok 0 = true ∧
      (let q := quantSteps s.me 2 .e4m3x 0 (val .f32 ((s.getX 1).toNat % 2 ^ 32)) 0 ⟨0, 1, 0⟩ 1 0 ⟨[], [], [], r.2, 0⟩
       q.2 = none ∧ r.1.listStop 0 q.1.words = none ∧
       ∀ w ∈ q.1.words, r.1.olderHeld r.1.cur r.1.drv.nextId (spadKey (coreOf r.1.cur) w.2.1) 8 = false)) ∧
    ((s.me.tagOf 4).isNarrow = true ∧ s.me.tagOf 5 = .e8m0 ∧ Tag.f32.isFloat = true ∧
      groupsOk s.me.ew [(4, s.me.tagOf 4), (5, .e8m0)] (some (7, .f32)) = true) ∧
    (1 : XR) ≠ 0 ∧
    (∃ r, s.dequantList 1 = .ok r ∧ (r.1.hmem r.1.cur).resErr = none ∧ r.1.drv.pause = none ∧ r.1.me = s.me ∧
      r.1.bad = [] ∧ s.me.spilled = [] ∧ dequantListOk s.me 4 0 r.2.1 r.2.2 = true) := by
  refine ⟨⟨calm_of (by decide +kernel) (by decide +kernel), by decide +kernel⟩, by decide +kernel, ofOk (by decide +kernel),
    by decide +kernel, by decide, ofOk (by decide +kernel)⟩

/-- The owner, and a hart that is not. -/
theorem wit_MatrixStateResults :
    (let s := tile 3
     s.Calm ∧ s.unowned = false ∧ bits (s.getX 1) 31 24 = 0 ∧ bits (s.getX 1) 7 0 = 0 ∧ s.me.spent = false ∧
     (s.getX 1).toNat < viewSize .t1 ∧ (s.getX 2).toNat + s.me.vl ≤ viewSize .t1 ∧
     (groupOf .f32 s.me.ew 2).isSome = true ∧ tag32 (s.me.tagOf 2) = true ∧
     (groupOf (s.me.tagOf 2) s.me.ew 2).isSome = true) ∧
    base.unowned = true :=
  ⟨⟨calm_of (by decide +kernel) (by decide +kernel), by decide +kernel⟩, by decide +kernel⟩

/-- A save image in the window: every element passes, and nothing holds it up. -/
theorem save_win {s : State} (q : Quiet s) (hm : Clean s) (hf : s.mayLeave s.cur s.drv.nextId = true) (store : Bool)
    (c : Nat → Bool) :
    let m := saveMem winBase store
    let todo := (List.range (saveElems + 1)).filter c
    (∀ e ∈ todo, s.elemStop m 8 e = none) ∧
    (∀ a ∈ m.accs todo, a.va % 8 = 0 ∧ winBase ≤ a.va ∧ a.va < winBase + winSize) ∧
    ∀ held, s.vmemWait s m s.drv.nextId 8 (s.places m 8 (m.accs todo)) held = .ok () := by
  have hw : ∀ e ∈ (List.range (saveElems + 1)).filter c, (saveMem winBase store).addr e 0 % 8 = 0 ∧
      winBase ≤ (saveMem winBase store).addr e 0 ∧ (saveMem winBase store).addr e 0 < winBase + winSize := fun e he =>
    window (base := winBase) (n := saveElems + 1) (by decide) (Nat.le_refl _) (by decide)
      (List.mem_range.mp (List.mem_filter.mp he).1)
  have ha : ∀ a ∈ (saveMem winBase store).accs ((List.range (saveElems + 1)).filter c),
      a.va % 8 = 0 ∧ winBase ≤ a.va ∧ a.va < winBase + winSize := by
    intro a ha
    obtain ⟨e, he, hf⟩ := List.mem_flatMap.mp ha
    obtain ⟨f, hf', rfl⟩ := List.mem_map.mp hf
    obtain rfl : f = 0 := by simpa [saveMem] using hf'
    exact hw e he
  exact ⟨fun e he => elemStop_win q hm rfl rfl rfl (hw e he).1 (hw e he).2.1 (hw e he).2.2, ha,
    fun held => vmemWait_win q rfl rfl hf _ (places_win q hm rfl _ ha) held⟩

theorem range_less (c : Nat → Bool) : (List.range saveElems).filter c =
    (List.range (saveElems + 1)).filter fun e => decide (e < saveElems) && c e := by
  rw [List.range_succ, List.filter_append]
  have h : ([saveElems].filter fun e => decide (e < saveElems) && c e) = [] := by simp
  rw [h, List.append_nil]
  exact List.filter_congr fun e he => by simp [List.mem_range.mp he]

/-- The window's owner stores and reads back an image that is all zero. -/
theorem wit_SaveImage :
    let s := own
    let m := saveMem winBase
    s.unowned = false ∧ s.msBase 1 = .ok winBase ∧ s.drv.pause = none ∧
    (∀ store c, let todo := (List.range saveElems).filter c
      (∀ e ∈ todo, s.elemStop (m store) 8 e = none) ∧
      ∀ held, s.vmemWait s (m store) s.drv.nextId 8 (s.places (m store) 8 ((m store).accs todo)) held = .ok ()) := by
  refine ⟨by decide +kernel, ?_, by decide +kernel, fun store c => ?_⟩
  · have h1 : own.me.level ≠ .m := by decide +kernel
    have h2 : (own.getX 1).toNat % 2 ^ 55 = winBase := by decide +kernel
    simp only [State.msBase, h1, h2, ↓reduceIte]
    rfl
  · have h := save_win quiet_own clean_own (by decide +kernel) store fun e => decide (e < saveElems) && c e
    rw [← range_less] at h
    exact ⟨h.1, h.2.2⟩

/-- Words of zeros are an image of `mrest`. -/
theorem wit_ZeroImage (l : List ElemAcc) :
    tileImageOk ((((List.range saveElems).zip (l.map fun _ => 0)).flatMap fun w =>
      (List.range 8).map fun j => (8 * w.1 + j, byteOf w.2 j)).filter fun b => b.2 != 0) = true := by
  have hn : (((List.range saveElems).zip (l.map fun _ => 0)).flatMap
      fun (w : Nat × Nat) => (List.range 8).map fun j => (8 * w.1 + j, byteOf w.2 j)).filter (fun b => b.2 != 0) = [] := by
    rw [List.filter_eq_nil_iff]
    intro x hx
    obtain ⟨w, hw, hx⟩ := List.mem_flatMap.mp hx
    obtain ⟨j, _, rfl⟩ := List.mem_map.mp hx
    obtain ⟨_, _, h0⟩ := List.mem_map.mp (List.of_mem_zip hw).2
    simp [← h0, byteOf]
  rw [hn]
  decide

/-- What `mrest` reads in the window. -/
theorem wit_SaveRead {s : State} (q : Quiet s) (hm : Clean s) :
    (s.readWords (saveMem winBase false) own.drv.nextId 8 ((saveMem winBase false).accs (List.range saveElems))).2 =
      ((saveMem winBase false).accs (List.range saveElems)).map fun _ => 0 := by
  refine readWords_win rfl _ q hm fun a ha => ?_
  obtain ⟨e, he, hf⟩ := List.mem_flatMap.mp ha
  obtain ⟨f, hf', rfl⟩ := List.mem_map.mp hf
  obtain rfl : f = 0 := by simpa [saveMem] using hf'
  exact window (base := winBase) (n := saveElems) (by decide) (Nat.le_refl _) (by decide) (List.mem_range.mp he)

/-- A hart at S whose core's array hart 1 owns, with its save area in the window. -/
def lent : State := ((own.setCore 0 { Core.reset with mown := 0x8001 }).setHart 1
  (base.me.setMreg mMsa (BitVec.ofNat 64 winBase))).setMe { own.me with level := .s }

theorem quiet_lent : Quiet lent := by constructor <;> decide +kernel

theorem clean_lent : Clean lent := clean_own

/-- `msave` of an array that another hart owns. -/
theorem wit_SaveOwner :
    lent.unowned = true ∧ lent.me.level = .s ∧ (lent.core 0).mown.getLsbD 15 = true ∧ lent.drv.pause = none ∧
    lent.ownerHalf = winBase ∧
    (∀ e ∈ (List.range (saveElems + 1)).filter fun e => lent.me.resume.unit ≤ e / 128,
      lent.elemStop (saveMem winBase true) 8 e = none) :=
  ⟨by decide +kernel, by decide +kernel, by decide +kernel, by decide +kernel, by decide +kernel,
    (save_win quiet_lent clean_lent (by decide +kernel) true _).1⟩

/-- `mld` and `mst` of one word, and the list instructions. -/
theorem wit_MatrixMemoryResults :
    (let s := addr (tile 3) wb
     let m (store : Bool) := tileMem (s.getX 1) (s.getX 2) 1 store
     let todo := (List.range ((s.core 0).cfgM * (s.core 0).cfgN)).filter fun e => s.me.resume.unit ≤ e / (s.core 0).cfgN
     s.unowned = false ∧ s.drv.pause = none ∧ (s.core 0).cfgFits .t1 = true ∧ (s.core 0).cfgN = 1 ∧
     (∀ store, (∀ e ∈ todo, s.elemStop (m store) 4 e = none) ∧
       (let ps := s.places (m store) 4 ((m store).accs todo)
        s.staysHeld s (m store) s.drv.nextId 4 ps = false ∧
        isOk (s.vmemWait s (m store) s.drv.nextId 4 ps false) = true))) ∧
    (let s := tile 3
     (s.getX 1).toNat % 2 ^ 20 % 16 = 0 ∧ (s.getX 1).toNat % 2 ^ 20 + 16 ≤ winSize ∧ bits (s.getX 2) 31 17 = 0 ∧
     (s.getX 2).toNat % 2 ^ 16 ≤ 4096 ∧ isOk (s.hdrAccess 0) = true ∧
     (∃ r, s.listHeader 0 false = .ok r ∧ isOk (r.1.hdrAccess 0) = true)) := by
  refine ⟨by decide +kernel, by decide +kernel, by decide +kernel, by decide +kernel, by decide +kernel, ?_⟩
  exact ⟨by decide +kernel, ofOk (by decide +kernel)⟩

/-- A dense product of K = 32, and a sparse one. -/
def dense : Mop := ⟨.t1, 2, 3, 0, 0, 0, 0, 0, none⟩
def sparse : Mop := { dense with sparse := some (2 ^ 0, 2 ^ (0 + 1), 6) }

theorem wit_ProductResults :
    (∀ x ∈ [(tile 32, dense), (tile 2, sparse)],
      let s : State := x.1
      let o : Mop := x.2
      s.unowned = false ∧ isOk (s.mopShape o) = true ∧ s.me.spilled = [] ∧ s.me.resume.pending = false ∧
      (s.hmem s.cur).resErr = none ∧ s.mopBad o 1 1 0 (32 / 32) = none ∧ s.drv.pause = none ∧ o.K s.me.vl 1 = 32 ∧
      listMatches (fun i x => match o.aCode s.me 1 i x with
        | some c => (s.me.tagOf o.va).escape == some c | none => false) 1 32 [] = true ∧
      listMatches (fun j x => (s.me.tagOf o.vb).escape == some (o.bCode s.me 1 x j)) 1 32 [] = true ∧
      o.badMeta s.me 1 32 = none) ∧
    (tile 32).mopList 0 false 1 32 0 = .ok (tile 32, []) ∧
    (let I : MopIn := { M := 1, N := 1, kind := 3, rm := 0, acc1 := false, T := .fin false 0 0, la := [], lb := [] }
     dense.sparse = none ∧ I.kind = 3 ∧ I.acc1 = false ∧ I.M ≤ viewSize dense.t ∧ I.N ≤ viewSize dense.t ∧ 0 < I.M ∧
       0 < I.N) :=
  ⟨by decide +kernel, rfl, by decide⟩

/-- Both members of a gang at a collective. -/
def gather : State :=
  let c (d : Word) : Collective := ⟨true, 3, .t1, true, d, 0⟩
  let s := (gang fun h => { h with coll := some (c 0) }).setX 1 3
  ((s.setX 2 1).setCore 0 { Core.reset with mown := 0x8000 }).setCore 1 { Core.reset with mown := 0x8000 }

theorem wit_CollectiveResults :
    (let s := (tile 3).setX 1 1
     s.Calm ∧ s.unowned = false ∧ s.me.task = some 1 ∧
     (s.getX 1).toNat < 2 ^ (s.task 1).gsz ∧ (s.getX 1).toNat.testBit s.me.member = true ∧
     (s.getX 1).toNat = 2 ^ s.me.member ∧ (s.getX 2).toNat < 2) ∧
    (let s := gather
     let c : Collective := ⟨true, 3, .t1, true, s.mreg mFctl, s.drv.ir⟩
     s.Calm ∧ s.unowned = false ∧ s.me.task = some 1 ∧
     (s.getX 1).toNat < 2 ^ (s.task 1).gsz ∧ (s.getX 1).toNat.testBit s.me.member = true ∧
     (s.getX 1).toNat ≠ 2 ^ s.me.member ∧ s.me.coll = none ∧ (s.getX 2).toNat = 1 ∧
     (s.setMe { s.me with coll := some c }).arrivedAll 3 = some [(0, c), (8, ⟨true, 3, .t1, true, 0, 0⟩)] ∧
     c.agrees ⟨true, 3, .t1, true, 0, 0⟩ = true ∧ ([0, 8].map coreOf).Nodup ∧ c.fctl.getLsbD 6 = false ∧
     (s.hart 0).resume.unit = 0) :=
  ⟨⟨calm_of (by decide +kernel) (by decide +kernel), by decide +kernel⟩,
    calm_of (by decide +kernel) (by decide +kernel), by decide +kernel⟩

/-! ## Tasks, barriers, deques and the Turnstile -/

/-- A task descriptor that passes its checks stands in a UC page. -/
def desc : State := addr { base with mem := memWrite base.mem (wb + 16) 8 0x1000 } uc

/-- A task of the same priority waits that fits nowhere. -/
def crowded : State := (base.setTask 2 { Task.reset with st := .ready, w2 := 0 }).setReadyQ 0 0 [2]

theorem wit_TaskResults :
    (let s := desc.setX 2 2
     s.me.level ≠ .m ∧ (s.getX 2).toNat < 2 ^ 22 ∧ (s.getX 2).toNat / 65536 = s.mySlot ∧
     (s.getX 1).toNat % 2 ^ 55 % 64 = 0 ∧ s.settledAt .dev true = true ∧ s.inTurn (armTurn 2) s.cur = true ∧
     ∃ r, s.readDesc ((s.getX 1).toNat % 2 ^ 55) 8 = .ok r ∧ r.1.descOk r.2 = true ∧ (r.1.task 2).st = .empty) ∧
    (let s := (base.setX 1 2).setX 2 1
     (s.getX 1).toNat < 2 ^ 22 ∧ (s.getX 1).toNat / 65536 = s.mySlot ∧ 1 ≤ (s.getX 2).toNat ∧
     (s.getX 2).toNat ≤ 65535 ∧ s.settledAt .dev true = true ∧ (s.getX 1).toNat ≠ s.myTask ∧
     ((s.kill (s.getX 1).toNat (some (coreOf s.cur))).task (s.getX 1).toNat).dying = none) ∧
    (let s := ((base.setX 1 2).setTask 2 { Task.reset with st := .running, members := [.placed 9] }).setHart 9
       { Hart.reset with level := .m }
     (s.getX 1).toNat ≠ s.myTask ∧
     ((s.kill (s.getX 1).toNat (some (coreOf s.cur))).task (s.getX 1).toNat).dying ≠ none) ∧
    base.me.killing = none ∧ (∀ b, (on fun h => { h with killing := some (2, b) }).me.killing = some (2, b)) ∧
    ((base.setX 1 1).getX 1).toNat = (base.setX 1 1).myTask ∧
    base.contender 0 (base.task base.myTask).prio = none ∧ crowded.contender 0 (crowded.task crowded.myTask).prio ≠ none ∧
    base.settledAt (base.task base.myTask).cscope true = true ∧
    withWrite.settledAt (withWrite.task withWrite.myTask).cscope true = false ∧ (atLevel .m).me.level = .m :=
  ⟨⟨by decide +kernel, by decide +kernel, by decide +kernel, by decide +kernel, by decide +kernel, by decide +kernel,
    ofOk (by decide +kernel)⟩, by decide +kernel⟩

/-- The gang's barrier, e members expected and a arrived. -/
def barrier (e a : Nat) : State := (gang id).setBar 0 ⟨some 1, e, a, 0⟩

theorem wit_BarrierAndDequeResults :
    (base.me.level ≠ .m ∧ (on fun h => { h with barDone := true }).me.barDone = true ∧
      (on fun h => { h with atBar := true }).me.barDone = false ∧
      (on fun h => { h with atBar := true }).me.atBar = true ∧
      base.me.barDone = false ∧ base.me.atBar = false ∧ base.settledAt .dev false = true ∧
      base.barOf base.myTask = none) ∧
    (let s := barrier 2 0
     s.settledAt .dev false = true ∧ s.barOf s.myTask = some (0, ⟨some 1, 2, 0, 0⟩) ∧ s.inTurn (barTurn 0) s.me.member = true ∧ 0 + 1 < 2) ∧
    (let s := barrier 2 1
     s.barOf s.myTask = some (0, ⟨some 1, 2, 1, 0⟩) ∧ s.inTurn (barTurn 0) s.me.member = true ∧ 2 ≤ 1 + 1 ∧ s.me.task = some s.myTask ∧
     s.cur ∈ (s.task s.myTask).hids) ∧
    (let s := (barrier 2 0).setX 1 2
     s.barOf s.myTask = some (0, ⟨some 1, 2, 0, 0⟩) ∧ (⟨some 1, 2, 0, 0⟩ : Bar).arrived = 0 ∧ 1 ≤ (s.getX 1).toNat ∧ (s.getX 1).toNat ≤ (s.task s.myTask).gsz ∧
     (s.task s.myTask).gsz ≠ 1 ∧ s.inTurn (barSetTurn 0) s.me.member = true) ∧
    (let s := base.setX 1 7
     1 ≤ (s.getX 1).toNat ∧ (s.getX 1).toNat ≤ 7 ∧ (s.getX 2).getLsbD 63 = false ∧ s.settledAt .dev false = true ∧
     s.dequeTurn (coreOf s.cur) (s.getX 1).toNat 0 = true ∧ (s.dequeOf (coreOf s.cur) (s.getX 1).toNat).length < 256 ∧
     256 ≤ ((s.setDeque 0 7 (List.replicate 256 5)).dequeOf (coreOf s.cur) (s.getX 1).toNat).length) ∧
    (let s := ((base.setCore 1 { Core.reset with owner := some 0 }).setX 1 1).setX 2 1
     1 ≤ (s.getX 2).toNat ∧ (s.getX 2).toNat ≤ 7 ∧ s.active (s.getX 1).toNat = true ∧
     (s.core (s.getX 1).toNat).owner = some s.mySlot ∧ s.dequeTurn (s.getX 1).toNat (s.getX 2).toNat (thiefRank 0) = true ∧
     (s.noteDeque (s.getX 1).toNat (s.getX 2).toNat (thiefRank 5)).dequeTurn (s.getX 1).toNat (s.getX 2).toNat
       (thiefRank (coreOf s.cur)) = false) := by decide +kernel

/-- A partition of one slot, which a task of the context owns. -/
def full (owner : Nat) : State :=
  (base.setHreg (oTspart 0 0) 0x8000000001000000).setTslot 0 { TsSlot.reset with st := .alloc, owner }

/-- A partition of four slots of the hart's context, slot 0 as t. -/
def part (t : TsSlot) : State := (base.setHreg (oTspart 0 0) 0x8000000004000000).setTslot 0 t

theorem wit_TurnstileResults :
    (let s := part TsSlot.reset
     s.me.level ≠ .m ∧ (s.getX 1).toNat < 32 ∧ partOn (s.tspart (dieOf s.cur) (s.getX 1).toNat) = true ∧
     partSlot (s.tspart (dieOf s.cur) (s.getX 1).toNat) = s.mySlot ∧
     ({ s.ts with grants := [(0, 5)] } : Turnstile).grants.find? (fun g => g.1 == s.cur) = some (0, 5) ∧
     s.ts.grants.find? (fun g => g.1 == s.cur) = none ∧ s.posting = false ∧ s.ts.dead.contains s.cur = false ∧
     s.tsWaiters 0 0 = [] ∧ s.partSlots 0 0 (fun t => t.st == .free && t.freed != s.clk + 1) = 0 :: [1, 2, 3]) ∧
    ((∀ o ∈ [1, 2], (full o).partSlots 0 0 (fun t => t.st == .free && t.freed != (full o).clk + 1) = []) ∧
      (full 1).allMine 0 0 = true ∧ (full 2).allMine 0 0 = false) ∧
    (let s := (part { TsSlot.reset with st := .alloc, owner := 1 }).setX 2 1
     let s := s.setMe (vec 3 s.me)
     (∃ h, s.handleOf 1 = .ok h ∧ s.mineAlloc h = true ∧
       s.me.vl * ((s.me.tagOf 2).width / 8) ≤ partSize (s.tspart h.die h.part)) ∧
     (s.me.tagOf 2).ordinary = true ∧ (groupOf (s.me.tagOf 2) s.me.ew 2).isSome = true ∧ s.me.spilled = [] ∧
     (s.hmem s.cur).bag = [] ∧ s.bad = [] ∧ s.posting = false ∧ 1 ≤ (s.getX 2).toNat ∧ (s.getX 2).toNat ≤ 65535 ∧
     s.settledAt .dev false = true ∧ s.drv.hold = false ∧ held.drv.hold = true) ∧
    (∃ h, (part TsSlot.reset).handleOf 1 = .ok h ∧ (part TsSlot.reset).mineAlloc h = false) ∧
    (let s := (part TsSlot.reset).setX 1 (2 ^ 18)
     ∃ h, s.handleOf 1 = .ok h ∧ (s.tslot h.key).gen ≠ h.gen) ∧
    (let s := part { TsSlot.reset with st := .published, n := 3 }
     ∃ h, s.handleOf 1 = .ok h ∧ (s.tslot h.key).gen = h.gen ∧ (s.tslot h.key).st = .published ∧
       (s.owedCheck h 0 |> isOk) = true ∧ s.isBad (s.tileKey h 0) 12 = false) :=
  ⟨by decide +kernel, by decide +kernel, ⟨ofOk (by decide +kernel), by decide +kernel⟩, ofOk (by decide +kernel),
    ofOk (by decide +kernel), ofOk (by decide +kernel)⟩

/-! ## Events -/

/-- The machine after reset with a register set. -/
def reg (off : Nat) (v : Word) : State := State.reset.setHreg off v

/-- A halted hart, a copy that fills the register dbgsel names, and a read of dbgdat that waits since a clk. -/
def watched (t : Option Nat) : State :=
  let s := ((vec3.setHreg oDbghart 0x8000000000000000).setHreg oDbgsel 0x1000000000020000).setEngQ 0
    [vec3.newCopy .cpyr 2 0x200000 1 0 0 .s32 3 []]
  { s with hub := { s.hub with dbgWait := t }, clk := 190000 }

theorem wit_HubRegisterEvents :
    (5 ≠ State.reset.lqTail 0 ∧ ((State.reset.hreg (oLqctl 0)).getLsbD 0 = false)) ∧ 0 = State.reset.lqTail 0 ∧
    (let s := reg (oLqctl 0) 0x41
     5 ≠ s.lqTail 0 ∧ (s.hreg (oLqctl 0)).getLsbD 0 = true ∧ 5 < s.lqSize 0 ∧ 16 ≠ s.lqTail 0 ∧ s.lqSize 0 ≤ 16) ∧
    (let s := reg (oLqctl 0) 0xA000000041
     bits (s.hreg (oLqctl 0)) 39 36 ≠ 0 ∧ (s.hreg (oLqctl 0)).getLsbD 0 = true) ∧
    ((3#64).toNat % 8 ≤ 3 ∧ (State.reset.ts.slots.any fun e => e.1 / 65536 == 3 && e.2.st != .free) = false ∧
      3 < (4#64).toNat % 8) ∧
    (dbgIndex 0x7208 = some 16 ∧ 0x7208 % 8 = 0 ∧ State.reset.dbgSettle.dbgOutstanding = false) ∧
    (∀ t ∈ [none, some 0, some 1], (watched t).dbgSettle.dbgOutstanding = true ∧ (watched t).hub.dbgWait = t) ∧
    ((watched (some 1)).clk < 1 + 190000 ∧ 0 + 190000 ≤ (watched (some 0)).clk) ∧
    (0x4000 % 8 = 0 ∧ hostMay 0x4000 = true ∧ hostMay 0x5000 = false) := by decide +kernel

/-- An active core without a hart, one with a spare due, and a device in recovery. -/
theorem wit_PackageEvents :
    (1 < (2 : Nat) ∧ State.reset.pkg.rollback ≤ 0) ∧
    ((State.reset.hreg oFabid).getLsbD 8 = false ∧ (reg (oLnkst 0) 0x400).upLinks ≠ []) ∧
    (linkState (State.reset.hreg (oLnkst 3)) ≠ 3 ∧ (.linkLane, 3, true) ∉ State.reset.pkg.otp ∧
      (.linkLane, 3, true) ∈ ({ State.reset with pkg := { State.reset.pkg with otp := [(Spare.linkLane, 3, true)] } } :
        State).pkg.otp) ∧
    (let s := reg (oLnkst 3) 0x400
     linkState (s.hreg (oLnkst 3)) = 2 ∧ (s.hreg (oLnkst 3)).getLsbD 8 = false) ∧
    linkState ((reg (oLnkst 3) 0x200).hreg (oLnkst 3)) = 1 ∧
    (95 ∈ State.reset.activeChannels 3 ∧ State.reset.spares .channel (· == 96 * 3 + 95) < 2) ∧
    (let s := { State.reset with pkg := { State.reset.pkg with otp := List.replicate 2 (Spare.channel, 96 * 3 + 95, false) } }
     95 ∈ s.activeChannels 3 ∧ 2 ≤ s.spares .channel (· == 96 * 3 + 95) ∧ (.channel, 96 * 3 + 95, true) ∉ s.pkg.otp) ∧
    (State.reset.active 127 = true ∧ State.reset.placedOn 127 = []) ∧
    (let s := State.reset.setCore 127 { Core.reset with spareDue := [none] }
     s.active 127 = true ∧ s.quiesceDue 127 = true ∧ s.placedOn 127 = []) ∧
    State.reset.pkg.recovery = none ∧
    ({ State.reset with pkg := { State.reset.pkg with recovery := some 1 } } : State).pkg.recovery = some 1 := by
  decide +kernel

/-- A pool region n in a state on a port, and what the pool machinery holds. -/
def region (n : Nat) (v : Word) (p : Pool) : State := { reg (oPregion n) v with pool := p }
def pool0 : Pool := State.reset.pool
def wentry : WEntry := ⟨0, 1, 2, poolKey (reg (oPregion 3) 0x4000000000000000) 3 0, 8, 5, none, none, false, 0, false, 0⟩

/-- Ports and regions at the ends of their bounds: 500 µs of a reroute, 100 ms of a check. -/
theorem wit_PoolAndFabricEvents :
    (let s := { reg (oPst 1) 0x400 with pool := { pool0 with reroute := [(3, 0)] } }
     1 ≠ 3 ∧ linkState (s.hreg (oPst 1)) = 2 ∧ (3, 0) ∈ s.pool.reroute ∧ s.clk ≤ 0 + 950000) ∧
    (let s := { State.reset with clk := 950000, pool := { pool0 with reroute := [(3, 0)] } }
     (3, 0) ∈ s.pool.reroute ∧ 0 + 950000 ≤ s.clk) ∧
    (let s := region 3 0x8000000000000000 pool0
     3 ∈ s.regionsOn 0 2 ∧ (s.pool.checks.any fun c => c.1 == 3) = false ∧ 3 ∉ s.pool.writeback) ∧
    (∀ re, let s := { region 3 0x8000000000000000 { pool0 with checks := [(3, re, 0)], grace := [(0, 0)] } with clk := 190000000 }
     s.pool.checks.find? (fun c => c.1 == 3 && c.2.1) = (if re then some (3, true, 0) else none) ∧
     s.pool.checks.find? (fun c => c.1 == 3 && !c.2.1) = (if re then none else some (3, false, 0)) ∧
     s.pool.checks.find? (fun c => c.1 == 3) = some (3, re, 0) ∧ s.inGrace 3 = true ∧
     (region 3 0x8000000000000000 { pool0 with checks := [(3, re, 0)] }).inGrace 3 = false ∧
     s.clk ≤ 0 + 190000000 ∧ 0 + 190000000 ≤ s.clk ∧ 0 + 190000000 < s.clk + 1) ∧
    3 ∈ (region 3 0 { pool0 with writeback := [3] }).pool.writeback ∧
    (let s := { region 3 0x8000000000000000 { pool0 with grace := [(0, 0)] } with clk := 3800000000 }
     (0, 0) ∈ s.pool.grace ∧ s.graceLeft 0 = 0) ∧
    (let s := { region 3 0x4000000000000000 pool0 with unacked := [wentry] }
     s.unacked[0]? = some wentry ∧ mayMove s.unacked 0 = true ∧
     s.regionOfKey wentry.loc = some (3, 0x4000000000000000) ∧ regionState s 3 = 1) ∧
    (let s := State.reset.setHmem 5 { Mem.reset with stall := some (.region 3) }
     s.mems ≠ [] ∧ ∀ x ∈ s.mems, x.1 = 5 → x.2.stall = some (.region 3)) := by
  and_intros <;> decide +kernel

/-- A back-invalidation with nothing under way, and with a write that is not acknowledged. -/
theorem wit_BackInvalidation :
    (let s := region 3 0x4000000000000000 pool0
     s.bisnpReady (fun f => regionFrame 3 f) = true) ∧
    (let s := { region 3 0x4000000000000000 pool0 with unacked := [wentry] }
     s.bisnpReady (fun f => regionFrame 3 f) = false) := by decide +kernel

/-- A probe of device 5 that is 50 µs old, and a fence whose sequence has run. -/
theorem wit_FabricEvents :
    (let s := { State.reset with clk := 95000, coh := { State.reset.coh with reqs :=
      [⟨.geto, .die 0, 0, 7, 0, 31, [], [.dev 5], false, false, false, 0⟩] } }
     (s.coh.reqs.any fun q => q.waiting.contains (.dev 5) && decide (q.since + 95000 ≤ s.clk)) = true) ∧
    (let s := { reg oFabst 1 with coh := { State.reset.coh with rejoin := true } }
     (s.hreg oFabst).getLsbD 0 = true ∧ s.coh.rejoin = true) ∧ 5 ≠ State.reset.deviceId := by decide +kernel

/-- A machine whose coherence tables hold given lines, requests and answers. -/
def coh (lines : List Line) (reqs : List HomeReq) (ans : List (Holder × Nat × Nat × Answer)) : State :=
  { State.reset with coh := { State.reset.coh with lines, reqs, answers := ans } }
def gets (w : List Holder) : HomeReq := ⟨.gets, .cc 4, 0, 8, 0, 3, w, w, true, true, false, 0⟩
def geto (w : List Holder) : HomeReq := { gets w with kind := .geto, down := false }

/-- A request of an idle frame; a probe of each kind, its answers and a grant. -/
theorem wit_CoherenceRequests :
    (0 ≤ 3 ∧ 3 ≤ 31 ∧ State.reset.mayAsk (.cc 4) 8 = true ∧ (State.reset.coh.reqs.any fun r => r.frame == 8) = false ∧
      ∀ m ∈ withRead.mems, (m.2.bag.any fun b => withRead.frameOf b.loc == some 8) = false) ∧
    ¬(peerFrame 8 = true ∧ Holder.cc 6 = .dev State.reset.deviceId) ∧
    (coh [] [gets [.cc 6]] []).probing (.cc 6) 8 false = some (gets [.cc 6]) ∧
    (coh [] [geto [.cc 6]] []).probing (.cc 6) 8 true = some (geto [.cc 6]) ∧
    (coh [] [geto [.cc 6]] []).guestBusy (.cc 6) 8 = false ∧
    (∀ a ∈ [Answer.ack, .absent, .data 5],
      ((coh [] [geto [.cc 6]] [(.cc 6, 0, 8, a)]).takeAnswer (.cc 6) 8 (· == a)).isSome = true) ∧
    (let s := coh [] [geto [.cc 6]] [(.cc 6, 0, 8, .data 5)]
     s.serving (s.entryOf (.cc 6) 8) 8 = some (geto [.cc 6]) ∧
     s.coh.answers = [(.cc 6, s.entryOf (.cc 6) 8, 8, .data 5)] ∧ (geto [.cc 6]).overflow = false ∧
     s.entryOf (.cc 6) 8 = homeDie 8 ∧ 5 ≠ 0) ∧
    (let s := coh [] [geto []] []
     s.serving (s.entryOf (.cc 4) 8) 8 = some (geto []) ∧ (geto []).h = .cc 4 ∧ (geto []).waiting = [] ∧
     (geto []).overflow = false ∧ (geto []).dataSent = true ∧ s.sliceReady (geto []) = true ∧
     s.cacheable (keyOf s (256 * 8)) = true) := by decide +kernel

/-- A dirty line, one that is leaving, a probe that is 100 µs old, and spans older than the age. -/
theorem wit_CoherenceEvents :
    (let l : Line := ⟨.cc 6, 8, .m, 0, 3, 1, 0⟩
     let s := coh [l] [] []
     s.lineOf (.cc 6) 8 = some l ∧ l.dirty ≠ 0 ∧ s.evicted (.cc 6) 8 = none ∧
     ({ s with coh := { s.coh with lines := [], wb := [l] } } : State).evicted (.cc 6) 8 = some l) ∧
    (let s := { coh [] [geto [.cc 6]] [] with clk := 190000 }
     s.coh.reqs.find? (fun r => r.frame == 8 && !r.waiting.isEmpty && asksFor r.h 16 &&
       decide (r.since + 190000 ≤ s.clk)) = some (geto [.cc 6])) ∧
    ((base.hart 0).task.isSome = true ∧ ({ State.reset with bad := [⟨64, 64, 0, 0⟩] } : State).isBad 64 1 = true) := by
  decide +kernel

/-- Dirty spans 4 µs old, of a frame of the die's own memory and of another's. -/
theorem wit_Roustabout :
    (let s := { State.reset with clk := 7600, coh := { State.reset.coh with dirty := [⟨0, 8, 1, 0⟩] } }
     (s.hreg (oCohctl 0)).getLsbD 16 = true ∧ 0 = homeDie 8 ∧ 256 * 8 < 4 * paDie ∧
     s.coh.dirty.find? (fun d => d.die == 0 && d.frame == 8) = some ⟨0, 8, 1, 0⟩ ∧
     (s.hreg (oCohctl 0)).toNat % 2 ^ 16 * 19 ≤ (s.clk - 0) * 10) ∧
    (let l : Line := ⟨.die 1, paHost / 256, .m, 0, 3, 1, 0⟩
     let s := { coh [l] [] [] with clk := 7600 }
     s.channelIdle (paHost / 256) = true ∧ (s.hreg (oCohctl 1)).getLsbD 16 = true ∧ 1 ≠ homeDie (paHost / 256) ∧
     s.lineOf (.die 1) (paHost / 256) = some l ∧
     (s.hreg (oCohctl 1)).toNat % 2 ^ 16 * 19 ≤ (s.clk - 0) * 10) := by decide +kernel

/-- The channel of a frame of a die's memory is idle while nothing asks for it. -/
theorem wit_ChannelIdle : State.reset.channelIdle 8 = true := by
  have h : State.reset.pkg.hbmStall = [] ∧ State.reset.coh.reqs = [] ∧ State.reset.coreQ = [] := by decide +kernel
  simp [State.channelIdle, h.1, h.2.1, h.2.2]

/-- Launch queue 0 runs, its ring at address 0 of die 0; its context is bound to base's tables; it stands as q. -/
def queue (q : LQueue) : State :=
  (((base.setHreg (oLqctl 0) 9).setHreg (oCtxst 0) 0x8000000010000000).setHreg (oLqdb 0) 1).setLq 0 q

/-- A packet in a state. -/
def packet (st : PktSt) : LQueue := { LQueue.reset with st, pkt := [0, 0x200000, 2, 0, 0, 0, 0, 0] }

/-- A packet that starts the counters, and one of no kind; then the packets that wait. -/
theorem wit_RingmasterQueues :
    (∀ q ∈ [LQueue.reset, packet .wait, packet .stop, packet .fence, packet .drop, packet .kill],
      (queue q).lqRuns 0 = true) ∧
    ((queue LQueue.reset).lq 0).st = .none ∧ (queue LQueue.reset).lqHead 0 ≠ (queue LQueue.reset).lqTail 0 ∧
    (∃ t, ({ queue LQueue.reset with mem := SMap.set (0 : Byte) base.mem 0 4 } : State).takePacket 0 = .ok t) ∧
    (queue LQueue.reset).takePacket 0 = .error 1 ∧
    (((queue (packet .wait)).lq 0).st = .wait ∧
      ((queue (packet .wait)).task (65536 * 0 + bits (pktWord ((queue (packet .wait)).lq 0).pkt 2) 15 0)).st = .empty) ∧
    (let s := queue (packet .stop)
     (s.lq 0).st = .stop ∧ (s.lq 0).out = [] ∧ (s.hreg (oCbctl 0)).getLsbD 0 = false ∧
     ∃ t, s.writeRecord 0 (bits (pktWord (s.lq 0).pkt 1) 54 0) (s.record 0) = .ok t) ∧
    (let s := queue (packet .fence)
     (s.lq 0).st = .fence ∧ (s.lq 0).out = [] ∧ s.fenceCovers (s.lq 0) = true ∧
     { withWrite with hub := s.hub }.fenceCovers { s.lq 0 with ended := [0] } = false ∧
     bits (pktWord (s.lq 0).pkt 3) 12 11 = 0) ∧
    (let s := queue (packet .kill)
     (s.lq 0).st = .kill ∧ (s.lq 0).kills = [] ∧ ((queue { packet .kill with kills := [2] }).lq 0).kills ≠ []) ∧
    (let s := { queue (packet .drop) with ring := State.reset.ring }
     (s.lq 0).st = .drop ∧ s.tasksOf 0 = [] ∧ s.copies = []) := by
  refine ⟨by decide +kernel, by decide +kernel, by decide +kernel, ?_, ?_, by decide +kernel, ?_, by decide +kernel,
    by decide +kernel, by decide +kernel⟩
  · exact (ofOk (P := fun _ => True) (by decide +kernel)).imp fun _ h => h.1
  · exact by
      have h : (match (queue LQueue.reset).takePacket 0 with | .error e => e == 1 | .ok _ => false) = true := by
        decide +kernel
      split at h
      · rename_i e he; rw [he, eq_of_beq h]
      · cases h
  · exact ⟨by decide +kernel, by decide +kernel, by decide +kernel,
      (ofOk (P := fun _ => True) (by decide +kernel)).imp fun _ h => h.1⟩

/-- A ready task 2 of die 0 at the head of its queue, placed nowhere yet. -/
def ready (t : Task) : State := ((State.reset.setTask 2 t).setReadyQ 0 0 [2])
def task2 : Task := { Task.reset with st := .ready, w2 := 0x1000, members := [.fresh], units := [none] }

/-- A task of another context waits for the one core that is left. -/
def arrival : State :=
  let s := (base.setTask 65538 { task2 with w2 := 0x1E00, units := [some 0] }).setReadyQ 0 7 [65538]
  { s with cores := (List.range 31).map fun c => (c + 1, { Core.reset with removed := true }) }

theorem wit_RingmasterEvents :
    (4 * 3 + 2 ∉ State.reset.hub.l2gated ∧ 4 * 3 + 2 ∉ State.reset.hub.l2waking) ∧
    (let s := { State.reset with clk := 190000 }
     s.placedOn 127 = [] ∧ s.copies = [] ∧ (s.core 127).emptySince + 190000 ≤ s.clk ∧ (s.core 127).gated = [] ∧
     (s.core 127).waking = []) ∧
    ((7 ∈ ((State.reset.setCore 5 { Core.reset with waking := [7] }).core 5).waking) ∧
      ((State.reset.setCore 5 { Core.reset with filling := true }).core 5).filling = true) ∧
    ((∃ r, (ready task2).nextPlaced 0 ((ready task2).candidates 0) = some r ∧ (ready task2).wasSaved r.1 = false) ∧
      (let s := ready { task2 with members := [.saved] }
       ∃ r, s.nextPlaced 0 (s.candidates 0) = some r ∧ s.wasSaved r.1 = true)) ∧
    (let s := { ready { task2 with w2 := 0 } with clk := 10 ^ 12 }
     SMap.get none s.ring.reserving 0 = none ∧ s.reservers 0 = [2]) ∧
    (let s := (State.reset.setTask 2 task2).setDeque 5 0 [2]
     s.leavesDeque 2 0 = some (s.noteDeque 5 0 (thiefRank 0)) ∧ (s.noteDeque 5 0 (thiefRank 7)).leavesDeque 2 0 = none ∧
     s.dequeOf 0 0 = [] ∧ s.headFor 0 = false ∧
     ((s.victims 0).findSome? fun v => match s.topTask v with
       | some key => (s.fit key 0 (some 0)).map fun m => (key, m)
       | none => none).isSome = true) ∧
    (let s := { base with ring := { base.ring with marked := [(0, 0)] }, clk := 10 ^ 6 }
     s.heldMarked 1 = true ∧ s.rxFits (s.task 1) = true ∧ (s.task 1).st = .running ∧ (s.task 1).pre = none) ∧
    (arrival.waitDie 65538 = some 0 ∧ (arrival.task 65538).st = .ready ∧ arrival.fit 65538 0 none = none ∧
     (arrival.drained 0).fit 65538 0 none = none ∧
     (arrival.drained 0).chooseVictims 65538 0 (arrival.lowerGangs 0 (arrival.effPrio 65538)) [] = some [1]) ∧
    (let s := { crowded with clk := 10 ^ 9 }
     (s.task 1).st = .running ∧ bits (s.hreg oRmctl) 19 0 ≠ 0 ∧
     (s.task 1).placedAt + bits (s.hreg oRmctl) 19 0 * 1900 ≤ s.clk ∧ s.contender (s.task 1).die (s.task 1).prio ≠ none) ∧
    ((base.setTask 1 { base.task 1 with pre := some .slice }).task 1).pre = some .slice ∧
    (let s := base.setTask 2 { Task.reset with st := .done, readerAt := some (4, 9) }
     (s.task 2).st = .done ∧ (s.task 2).readerAt = some (4, 9)) :=
  ⟨by decide +kernel, by decide +kernel, by decide +kernel, ⟨ofSome (by decide +kernel), ofSome (by decide +kernel)⟩,
    by decide +kernel, by decide +kernel, by decide +kernel, by decide +kernel, by decide +kernel, by decide +kernel,
    by decide +kernel⟩

/-- A copy of two 4 KiB frames, the first chunk of it stalled by a list. -/
def copying (stall : List (Nat × Nat)) : State :=
  base.setEngQ 128 [{ base.newCopy .cpy 0x300000 0x200000 8192 0 0 .z8 0 [] with stall }]
def copy0 (stall : List (Nat × Nat)) : Copy := { base.newCopy .cpy 0x300000 0x200000 8192 0 0 .z8 0 [] with stall }

/-- A `cpym` under way, and its receiver's frame. -/
def casting : State :=
  let s := pair.setEngQ 0 [{ pair.newCopy .cpym 0 2 2 0 0 .s32 3 [] with started := true }]
  s.setHart 8 { s.hart 8 with rx := [⟨0, s.drv.nextId, .s32, 0, [], false⟩] }

theorem wit_MemoryAndHartEvents :
    (let s := { base with hub := { base.hub with irqSw := [0] } }
     s.takesIrq 0 = true ∧ s.pendingIrq 0 2 = true ∧ s.atBoundary 0 = true) ∧
    (let s := on fun h => { h with deferred := [(6, 5)] }
     (s.hart 0).deferred = (6, 5) :: [] ∧ s.atBoundary 0 = true) ∧
    ((on fun h => { h with waiting := .word none 3 0 }).hart 0).waiting = .word none 3 0 ∧
    (base.hart 0).isSpilled 5 = false ∧ base.regPending 0 5 = false ∧
    (let size := (base.hart 0).frameBytes 5 (base.vgrant 0)
     base.isBad (regKey 0 (0x4000 * 5)) size = false ∧ (base.hart 0).clean = [] ∧
     ({ base.hart 0 with clean := [(5, size)] } : Hart).clean.any (fun r => r.1 == 5 && decide (size ≤ r.2)) = true ∧
     ({ base with bad := [⟨regKey 0 (0x4000 * 5), 8, 0, 0⟩] } : State).isBad (regKey 0 (0x4000 * 5)) size = true ∧
     isOk (spillPages base 0 (((base.hart 0).mreg mRbs).toNat + 0x4000 * 5) size [] (ceilDiv size 4096) 0) = true ∧
     (match spillPages base 0 (winBase + winSize) size [] (ceilDiv size 4096) 0 with
      | .error (some _) => true | _ => false) = true) ∧
    (base.hmem 0).bag[0]? = none ∧
    (∃ t, withRead.performItem 0 0 = some t ∧ (withRead.hmem 0).bag[0]? =
      some ⟨0, wb, 8, wb, .rd (.x 1 .b64), none, false, true, 0, 0, false, false⟩) ∧
    (∃ t, withWrite.drain (.sb 0) 0 = some t ∧ t.coreQ ≠ []) ∧
    (let b : BagItem := ⟨1, wb, 8, wb, .wr 5, none, true, false, 0, 0, false, true⟩
     let s := base.setHmem 0 { base.hmem 0 with bag := [b] }
     ∃ t, s.performItem 0 0 = some t ∧ (s.hmem 0).bag = [b]) := by
  refine ⟨by decide +kernel, by decide +kernel, by decide +kernel, by decide +kernel, by decide +kernel,
    by decide +kernel, by decide +kernel, ?_⟩
  exact ⟨ofSome (by decide +kernel), ofSome (by decide +kernel), ofSome (by decide +kernel)⟩

theorem wit_EngineEvents :
    ((copying []).copyAt 128 0 = some (copy0 []) ∧ (copying []).chunkReady 128 (copy0 []) 1 = true ∧
      (copy0 []).done.length + 1 < (copy0 []).chunks) ∧
    ((copying [(0, 5)]).copyAt 128 0 = some (copy0 [(0, 5)]) ∧ (copying [(0, 5)]).chunkReady 128 (copy0 [(0, 5)]) 0 =
      true) ∧
    (∃ t, pair.chunkEffect 0 { pair.newCopy .cpyx 2 2 0 0 0 .s32 32 [] with started := true } 0 = .ok t ∧ t.2 = 32) ∧
    (∃ f, (casting.hart 8).rx[0]? = some f ∧ (casting.hart 8).task = some 1 ∧ f.landed = false ∧
      (casting.copies.find? fun e => e.2.kind == .cpym && e.2.task == 1 && e.2.member == f.sender && e.2.ino == f.ino).any
        (fun e => e.2.started && e.2.des == 0) = true) ∧
    (let s := { base with xlat := { base.xlat with xinv := [⟨0, 0, 0, 0x1000, false⟩] } }
     s.xlat.xinv.find? (fun x => x.hid == 0 && !x.acked && s.rangeSettled x.lo x.hi) =
       some ⟨0, 0, 0, 0x1000, false⟩ ∧ 0 < 0x1000) ∧
    (let s := { base.setHreg (oSmpctl 0) 0x8000000000004005 with clk := 320 }
     s.sampled 0 0 = some 0 ∧ (s.hreg (oSmpctl 0)).getLsbD 63 = true ∧ bits (s.hreg (oSmpctl 0)) 11 0 ≠ 0 ∧
     SMap.get 0 s.hub.smpAt 0 + 64 * bits (s.hreg (oSmpctl 0)) 11 0 ≤ s.clk ∧
     (bits (s.hreg (oSmpctl 0)) 47 32 + 1) % 2 ^ max 4 (bits (s.hreg (oSmpctl 0)) 15 12) ≠
       bits (s.hreg (oSmpctl 0)) 31 16) := by
  refine ⟨by decide +kernel, by decide +kernel, ?_, ofSome (by decide +kernel), by decide +kernel, by decide +kernel⟩
  exact ofOk (P := fun (t : State × Nat) => t.2 = 32) (by decide +kernel)

/-! ## The machine -/

/-- What a fetch gives. -/
def fetched : Fetched → Option (State × List Byte)
  | .bytes s l => some (s, l)
  | _ => none

/-- A state whose fetch reads a given word. -/
def at_ (n w : Nat) : State := { base with mem := (State.reset.withFetchWord n w).mem }

/-- The fetch of a state whose PC maps nothing is refused. -/
def lost : State := let s := at_ 16 0xA000; s.setMe { s.me with pc := BitVec.ofNat 55 winBase }

/-- A turn of a hart that may go on, whatever its word's length; an instruction of no vector register and one of three;
a word that is none; and a fetch that is refused. -/
theorem wit_StepRunsDecoded :
    (∀ x ∈ [(16, 0xA000), (32, 0xC0494003), (64, 0xE180102201600000)],
      let s := at_ x.1 x.2
      s.drv.sched = .hart 0 false :: [] ∧ s.pkg.recovery = none ∧
      (let s1 := { s with drv := { s.drv with sched := [] } }
       s1.stopped 0 = false ∧ s1.halted 0 = false ∧ (s1.hart 0).regrant = none ∧ (s1.hart 0).waiting = .no ∧
       s1.clearStall 0 false = s1 ∧ s1.boundaryStop 0 = none ∧
       ({ s1 with drv := { s1.drv with cur := 0, due := true } } : State).builtIn = false ∧
       (s.hart 0).pre = [] ∧ (fetched (s.fetch 0)).any (fun r => r.2.length == x.1 / 8) = true)) ∧
    (∀ w ∈ [0xC0494003, 0xD11844A0],
      (fetched ((at_ 32 w).fetch 0)).any (fun r => match decodeBytes r.2 with
       | .ok (_, _, .ok i) => !r.1.heldBack 0 i &&
         (let s3 := r.1.useFrames 0 (r.1.named 0 i)
          s3.framed 0 (s3.named 0 i))
       | _ => false) = true) ∧
    (fetched ((at_ 64 0xE878000000000000).fetch 0)).any (fun r => match decodeBytes r.2 with
       | .ok (_, _, .error _) => true
       | _ => false) = true ∧
    (match lost.fetch 0 with | .refused _ _ => true | _ => false) = true := by
  and_intros <;> decide +kernel

/-- A parcel that is read at its place, and the four of a long instruction, each read in the state that the one before
it leaves. -/
theorem wit_FetchParcels :
    (∃ p, translate base (whoOf base 0) wb .fetch false = .ok base p ∧ p.attr ≠ .dev ∧ fate base (dieOf 0) p false = .ok ∧
      (base.readValue (base.searchPath 0 0 (coreOf 0)) p.key 2).2.2 = false ∧ base.l1Ready 0 p.key 2 false = true) ∧
    (let s := at_ 64 0xE180102201600000
     let next (k : Nat) (f : State × List Byte → Bool) (s : State) : Bool :=
       (fetched (s.fetchParcel 0 (((s.hart 0).pc.toNat + k) % 2 ^ 55))).any f
     next 0 (fun r => next 2 (fun r => next 4 (fun r => next 6 (fun r => r.2.length == 2) r.1) r.1) r.1) s = true) :=
  ⟨of_found (by decide +kernel), by decide +kernel⟩

theorem wit_EncodeDecode :
    (Instr.vadd 3 1 2 2 true false).wellFormed = true ∧
    (Instr.vadd 3 1 2 2 true false).encode = some (32, 0xD11844A0) := by decide +kernel

/-- A step that answers a next state, from a memory in its form. -/
theorem wit_StepKeepsMemoryForm :
    (∃ t, step (addr (at_ 32 0xA000) wb) = .next t) ∧ Memory.wf (addr (at_ 32 0xA000) wb).mem = true :=
  ⟨of_isNext (by decide +kernel), by decide +kernel⟩

/-! ## Single steps

The expected values are the spec's own worked traces where the docstring names one, and computed by hand from the rule
it names otherwise. -/

/-- What f reads from the state after an instruction. -/
def after {α : Type} (i : Instr) (s : State) (f : State → α) : Option α :=
  match exec i s with
  | .next t => some (f t)
  | _ => none

/-- base with x1 and x2. -/
def xs (a b : Word) : State := (base.setX 1 a).setX 2 b

/-- The arithmetic corners of R257: wraps, signs, shift counts, division by zero and the overflowing division. -/
theorem test_scalar :
    (∀ r ∈ [(Instr.add 1 1 2, (-1 : Word), (2 : Word), (1 : Word)), (.sub 1 2 1, 1, 0, -1), (.shl 1 1 2, 3, 65, 6),
      (.sar 1 1 2, 0x8000000000000000, 63, -1), (.slt 1 1 2, -1, 0, 1), (.sltn 1 1 2, -1, 0, 0), (.mulh 1 1 2, -1, -1, 0),
      (.mulhn 1 1 2, -1, -1, 0xFFFFFFFFFFFFFFFE), (.div 1 1 2, -7, 2, -3), (.rem 1 1 2, -7, 2, -1), (.div 1 1 2, 5, 0, -1),
      (.rem 1 1 2, 5, 0, 5), (.div 1 1 2, 0x8000000000000000, -1, 0x8000000000000000),
      (.rem 1 1 2, 0x8000000000000000, -1, 0), (.clz 1 1, 0, 0, 64), (.ctz 1 1, 8, 0, 3), (.addi 1 1 0x7FF, 0, 0, -1),
      (.imhi 1 0x40000, 0, 0, 0xFFFFFFFFE0000000), (.pcrel 1 0x7FFFF, 0, 0, 0xFF800)],
      after r.1 (xs r.2.1 r.2.2.1) (fun t => t.getX 1) = some r.2.2.2) := by decide +kernel

/-- A taken branch, one not taken, and a jump that links past a 32-bit word (R262, R263). -/
theorem test_branches :
    after (.blt 1 2 0x7F8) (xs (-1) 0) (fun t => t.me.pc) = some 0xFFFF0 ∧
    after (.bltn 1 2 0x7F8) (xs (-1) 0) (fun t => t.me.pc) = some 0x100004 ∧
    after (.jlr 1 1 4) (xs 0x1000 0) (fun t => (t.me.pc, t.getX 1)) = some (0x1004, 0x100004) := by decide +kernel

/-- A byte stored is the byte a wider load finds, and the load extends its sign (R132, R260). -/
theorem test_store_then_load :
    (after (.st8 2 1 3) (xs (BitVec.ofNat 64 wb) 0x1F0) fun s =>
      (after (.ld32 3 1 0) s (fun t => t.getX 3), after (.ld32z 3 1 0) s fun t => t.getX 3)) =
      some (some 0xFFFFFFFFF0000000, some 0xF0000000) := by decide +kernel

/-- A misaligned load traps into S: cause 0x03 of R182, the address in etval, epc at the load. -/
theorem test_misaligned :
    after (.ld32 3 1 2) (xs (BitVec.ofNat 64 wb) 0)
      (fun t => (t.me.level, bits (t.mreg mEcause) 7 0, t.mreg mEtval, t.mreg mEpc)) =
      some (.s, 3, 0x200002, 0x100000) := by decide +kernel

/-- A 32-bit sum wraps at the word, the old value is returned with its sign, and the other word stays (R267). -/
theorem test_amo_wraps :
    after (.amoAdd 3 1 2 false false false .core) ((xs (BitVec.ofNat 64 wb) 2).writeHome wb 8 0x5FFFFFFFF 0 0)
      (fun t => (t.getX 3, (List.range 8).map fun i => (t.img (wb + i)).toNat)) =
      some (-1, [1, 0, 0, 0, 5, 0, 0, 0]) := by decide +kernel

/-- `trap 5` saves its own address and enters S with the trap busy; `eret` goes back (R186, R188, R269). -/
theorem test_syscall_and_return :
    after (.trap 5) base (fun t => (t.me.level, t.mreg mEtval, t.mreg mEpc, t.mreg mEstat)) =
      some (.s, 5, 0x100000, 0x8000) ∧
    after .eret (on fun h => { (h.setMreg mEpc 0x2000).setMreg mEstat 0x8000 with level := .s })
      (fun t => (t.me.level, t.me.pc, t.mreg mEstat)) = some (.u, 0x2000, 0) := by decide +kernel

/-- 1.5 + 2^-24 rounds to 1.5 and is inexact; 1 / 0 is infinite and flags a division by zero (R155, R264). -/
theorem test_floats :
    after (.fadd 1 1 2 .f32) (xs 0x3FC00000 0x33800000) (fun t => (t.getX 1, t.me.mreg mFflags)) =
      some (0x3FC00000, 0x1) ∧
    after (.fdiv 1 1 2 .f64) (xs 0x3FF0000000000000 0) (fun t => (t.getX 1, t.me.mreg mFflags)) =
      some (0x7FF0000000000000, 0x8) := by decide +kernel

/-- A vector register's elements. -/
def Vals (h : Hart) (v : VR) (n : Nat) : List Int := (List.range n).map fun i => (BitVec.ofNat 32 (h.code v 32 i)).toInt
/-- A predicate's bits. -/
def Bits (h : Hart) (p : PR) (n : Nat) : List Nat := (List.range n).map fun i => (h.pred p i).toNat

/-- A register of 32-bit elements. -/
def fill (v : VR) (l : List Nat) (h : Hart) : Hart := h.setCodes v 32 ((List.range l.length).zip l)

def where_ (p : PR) (l : List Nat) (h : Hart) : Hart := h.setPreds p (fun i => l[i]? == some 1) l.length

/-- The first worked trace of chapter 15: the state before it. -/
def keys : State := on fun h => fill 2 [4, 1, 4, 2, 1, 4, 0, 2] (where_ 1 [1, 1, 0, 1, 1, 1, 1, 1] (vec 8 h))

theorem test_conflict : after (.vconf 4 2 1 true) keys (fun t => Vals t.me 4 8) = some [-1, -1, -1, -1, 1, 0, -1, 3] := by
  decide +kernel

theorem test_partition :
    let dep := [2 ^ 32 - 1, 2 ^ 32 - 1, 2 ^ 32 - 1, 2 ^ 32 - 1, 1, 0, 2 ^ 32 - 1, 3]
    let s (l : List Nat) := on fun h => fill 4 dep (where_ 3 l (vec 8 h))
    after (.vpart 2 4 3 true) (s [1, 1, 1, 1, 1, 1, 1, 1]) (fun t => Bits t.me 2 8) = some [1, 1, 1, 1, 0, 0, 0, 0] ∧
    after (.vpart 2 4 3 true) (s [0, 0, 0, 0, 1, 1, 1, 1]) (fun t => Bits t.me 2 8) = some [0, 0, 0, 0, 1, 1, 1, 1] ∧
    after (.pafter 3 2 0) (on fun h => where_ 3 [1, 1, 1, 1, 1, 1, 1, 1] (where_ 2 [1, 1, 1, 1, 0, 0, 0, 0] (vec 8 h)))
      (fun t => Bits t.me 3 8) = some [0, 0, 0, 0, 1, 1, 1, 1] := by decide +kernel

/-- The dependence vector of R377 at vl = 16. -/
theorem test_conflict_keys :
    after (.vconf 4 1 0 true) (on fun h => fill 1 [3, 7, 1, 3, 9, 0, 11, 7, 5, 2, 3, 8, 4, 10, 6, 1] (vec 16 h))
      (fun t => Vals t.me 4 16) = some [-1, -1, -1, 0, -1, -1, -1, 1, -1, -1, 3, -1, -1, -1, -1, 2] := by decide +kernel

/-- The second worked trace of chapter 15: the state before it, with the predicates that it computes. -/
def exit_ : State := on fun h =>
  fill 1 [3, 8, 1, 9, 4, 0, 7, 2] (where_ 4 [1, 0, 0, 1, 0, 0, 0, 0] (where_ 5 [0, 0, 0, 0, 0, 1, 0, 0]
    (where_ 6 [1, 1, 1, 1, 1, 0, 0, 0] (vec 8 h))))

theorem test_early_exit :
    after (.vcmpVx 5 1 0 0 true .eq) exit_ (fun t => Bits t.me 5 8) = some [0, 0, 0, 0, 0, 1, 0, 0] ∧
    after (.vcutx 6 5 0) exit_ (fun t => Bits t.me 6 8) = some [1, 1, 1, 1, 1, 0, 0, 0] ∧
    after (.vcuti 7 5 0) exit_ (fun t => Bits t.me 7 8) = some [1, 1, 1, 1, 1, 1, 0, 0] ∧
    after (.pfirst 8 5 0) exit_ (fun t => t.getX 8) = some 5 ∧ after (.pcnt 9 6 0) exit_ (fun t => t.getX 9) = some 5 ∧
    after (.vlast 10 1 6 true) exit_ (fun t => t.getX 10) = some 4 := by decide +kernel

theorem test_scans :
    after (.vscan 2 1 6 true .add) exit_ (fun t => Vals t.me 2 8) = some [3, 11, 12, 21, 25, 25, 25, 25] ∧
    after (.vscanSeg 3 1 4 0 true .add) exit_ (fun t => Vals t.me 3 8) = some [3, 11, 12, 9, 13, 13, 20, 22] := by
  decide +kernel

/-- Sums wrap in the result's width, and an inactive element keeps its value (R282, R283). -/
theorem test_vector_add :
    after (.vadd 3 1 2 1 true true) (on fun h => fill 1 [2 ^ 31 - 1, 5] (fill 2 [1, 6] (fill 3 [7, 7]
      (where_ 1 [1, 0] (vec 2 h))))) (fun t => Vals t.me 3 2) = some [-2 ^ 31, 7] := by decide +kernel

/-- A little-endian value read on the hart's path from its core's scratchpad. -/
def spad (t : State) (off n : Nat) : Nat :=
  (t.readValue (t.searchPath 0 t.cur (coreOf t.cur)) (spadKey 0 off) n).1

/-- The width code of 8 bits in avl. -/
def ew8 (h : Hart) : Hart := h.setMreg mAvl 0x0800000000000000

/-- The quantise step traced in chapter 14: M = 2, K = 32, θ = 100, a list of the given capacity at offset 0x40. -/
def quant (cap : Nat) : State :=
  let s := on fun h =>
    ((((ew8 (vec 64 h)).setTags 16 .f32 4).setCodes 16 32
      ((List.range 64).map fun e => (e, if e = 11 then 0x447A0000 else 0x3F000000))).setX 20 0x42C80000).setX 21 0x100040
  s.writeHome (spadKey 0 0x40) 16 cap 0 0

theorem test_quantise :
    after (.vqnte 8 12 16 .e4m3x 2 20 21 0 true) (quant 8) (fun t =>
      ([0, 1, 10, 11, 12, 13].map (t.me.code 8 8), [0, 1].map (t.me.code 12 8), t.me.tagOf 8, t.me.tagOf 12)) =
      some ([0x78, 0x78, 0x78, 0x80, 0x78, 0x78], [0x76, 0x76], .e4m3x, .e8m0) ∧
    after (.vqnte 8 12 16 .e4m3x 2 20 21 0 true) (quant 8) (fun t => spad t 0x50 8) = some 0x00100050447A0000 := by
  decide +kernel

/-- With capacity 0 it raises OLFULL at step 0. -/
theorem test_quantise_full :
    after (.vqnte 8 12 16 .e4m3x 2 20 21 0 true) (quant 0) (fun t =>
      ((t.mreg mEcause).toNat % 256, t.mreg mEtval)) = some (0x0B, 0x7FFFFFFFF00040) := by decide +kernel

/-- The sparse product worked through in chapter 17, with row 1's metadata word given. -/
def product (w : Nat) : State :=
  let s := on fun h =>
    (((((((ew8 (vec 16 h)).setTags 8 .s8 1).setTags 12 .s8 1).setTags 20 .z32 4).setCodes 8 8
      ((List.range 16).map fun e => (e, if e % 2 = 0 then 1 else 2))).setCodes 12 8
      ((List.range 32).map fun k => (k, k))).setCodes 20 32 [(0, 0x00F0000F), (1, w)])
  s.setMyCore { s.myCore with mvalid := true, mcfg := 0x10000, mown := 0x8000 }

/-- It leaves 92 and 194. -/
theorem test_sparse :
    after (.mops .t0 8 12 0 0 0 0 0 true true 1 1 20) (product 0x81003300) (fun t =>
      ((t.myCore.tile .t0 0 0).toNat, (t.myCore.tile .t0 1 0).toNat)) = some (92, 194) := by decide +kernel

/-- Three nonzero bytes raise SPARSEMETA with the element's number, and the tile is unchanged. -/
theorem test_sparse_bad :
    after (.mops .t0 8 12 0 0 0 0 0 true true 1 1 20) (product 0x0F0F000F) (fun t =>
      ((t.mreg mEcause).toNat % 256, t.mreg mEtval, t.myCore.tile .t0 0 0)) = some (0x13, 1, 0) := by
  decide +kernel

/-- The first `talloc` of partition 3 of die Q0 gives slot 0 at generation 0: the handle of chapter 18's trace. -/
theorem test_talloc :
    let s := (base.setX 21 3).setHreg (oTspart 0 3) 0x8000000001000000
    after (.talloc 20 21) s (fun t => t.getX 20) = some 0x1800 := by decide +kernel

end Sys2Proof.Tests
end

/-!
PROOFS. Machine registers: what a number names, who may read it and what a read gives; and `mrd` by these (R110, R252,
R275).
-/
namespace Sys2Proof.Machine

/-! The three conditions of a read. -/

theorem mregKnown_iff (n : Nat) :
    mregKnown n = true ↔ n ≤ 0x00C ∨ (0x100 ≤ n ∧ n ≤ 0x110) ∨ (0x200 ≤ n ∧ n ≤ 0x206) := by
  simp [mregKnown, or_assoc]

/-- The levels of R110: registers below 0x100 are read at every level, those below 0x200 at S and M, the others at M. -/
theorem Level.ge_mregLevel_iff (l : Level) (n : Nat) :
    l.ge (mregLevel n) = true ↔ n < 0x100 ∨ (n < 0x200 ∧ l ≠ .u) ∨ l = .m := by
  unfold mregLevel
  by_cases h1 : n < 0x100
  · cases l <;> simp [h1, Level.ge]
  · by_cases h2 : n < 0x200 <;> cases l <;> simp [h1, h2, Level.ge]

/-- Only a read of fflags waits for the accesses that its hart holds (R275). -/
theorem State.settledRegs_iff (s : State) (n : Nat) :
    s.settledRegs n = true ↔ (n = mFflags → (s.hmem s.cur).bag = []) := by
  simp [State.settledRegs, State.bagEmpty, Decidable.imp_iff_not_or]

/-! What a register reads as (R252). -/

/-- A register that is stored with its hart. -/
theorem State.readMreg_stored (s : State) (hid n : Nat)
    (hn : n ∉ [mVgrant, mLmod, mHartid, mGang, mTaskid, mMown, mPowcap, mLpart]) :
    s.readMreg hid n = (s.hart hid).mreg n := by
  simp only [List.mem_cons, List.not_mem_nil, or_false, not_or] at hn
  obtain ⟨h3, h4, h8, h9, h10, hmown, hpow, hlpart⟩ := hn
  simp only [State.readMreg, h3, h4, h8, h9, h10, hmown, hpow, hlpart, if_false]

section
variable (s : State) (hid : Nat)

@[simp] theorem State.readMreg_vgrant : s.readMreg hid mVgrant = BitVec.ofNat 64 (s.vgrant hid) := rfl
@[simp] theorem State.readMreg_lmod : s.readMreg hid mLmod = BitVec.ofNat 64 (s.core (coreOf hid)).lmod := rfl
@[simp] theorem State.readMreg_hartid : s.readMreg hid mHartid = BitVec.ofNat 64 (hid % 1024) := rfl
@[simp] theorem State.readMreg_gang : s.readMreg hid mGang = s.gangWord hid := rfl
@[simp] theorem State.readMreg_taskid :
    s.readMreg hid mTaskid = BitVec.ofNat 64 ((s.hart hid).task.getD 0 % 2 ^ 22) := rfl
@[simp] theorem State.readMreg_mown : s.readMreg hid mMown = (s.core (coreOf hid)).mown := rfl
@[simp] theorem State.readMreg_powcap :
    s.readMreg hid mPowcap = setBits ((s.hart hid).mreg mPowcap) 19 16 (s.cap (dieOf hid)) := rfl
/-- lpart reads as it was last written, also before a quiesce takes that value up (R79). -/
@[simp] theorem State.readMreg_lpart :
    s.readMreg hid mLpart = (s.core (coreOf hid)).lpartNew.getD (s.core (coreOf hid)).lpart := rfl

end

/-! The three ways `mrd` ends. -/

theorem exec_mrd (d : XR) (m : BitVec 12) (s : State) : exec (.mrd d m) s = execMrd d m s := rfl

theorem exec_mrd_gives {s : State} {m : BitVec 12} {n : Nat} {v : Word} (d : XR) (hm : m.toNat = n)
    (hk : mregKnown n = true) (hl : s.me.level.ge (mregLevel n) = true) (hs : s.settledRegs n = true)
    (hv : s.readMreg s.cur n = v) : s.Gives (exec (.mrd d m) s) 4 d v := by
  subst hm hv
  have e : exec (.mrd d m) s = s.alu 4 d (s.readMreg s.cur m.toNat) := by
    rw [exec_mrd, execMrd, hk, hl, hs]
    rfl
  rw [e]
  exact s.alu_gives 4 d _

theorem exec_mrd_priv {s : State} {m : BitVec 12} (d : XR) (hk : mregKnown m.toNat = true)
    (hl : s.me.level.ge (mregLevel m.toNat) = false) :
    s.Traps (exec (.mrd d m) s) { Trap.at0 .priv 0 s.drv.ir.toNat with old := s.me.resume.pending } := by
  rw [State.Traps, exec_mrd, execMrd, hk, hl]
  rfl

theorem exec_mrd_illegal {s : State} {m : BitVec 12} (d : XR) (hk : mregKnown m.toNat = false) :
    s.Traps (exec (.mrd d m) s) { Trap.at0 .illegal 0 s.drv.ir.toNat with old := s.me.resume.pending } := by
  rw [State.Traps, exec_mrd, execMrd, hk]
  rfl

/-- Settles O16: the checks of `mrd` are the conditions on the number, the level and the held accesses, and the lemmas
of `State.readMreg` say what it then reads. -/
theorem mrdResults : Obligations.MrdResults := by
  unfold Obligations.MrdResults
  intro s d m n named may o
  have hk : mregKnown n = true ↔ named := mregKnown_iff n
  have hl : s.me.level.ge (mregLevel n) = true ↔ may := s.me.level.ge_mregLevel_iff n
  have atAll {k : Nat} (h : k < 0x100) : s.me.level.ge (mregLevel k) = true :=
    (s.me.level.ge_mregLevel_iff k).mpr (.inl h)
  have mayAt {k : Nat} (h : n = k) (hm : may) : s.me.level.ge (mregLevel k) = true := h ▸ hl.mpr hm
  refine ⟨?stored, ?fflags, ?vgrant, ?lmod, ?hartid, ?gang, ?taskid, ?mown, ?powcap, ?lpart, ?priv, ?illegal⟩
  case stored =>
    intro hn hm h6 hother
    have hs : s.settledRegs n = true := (s.settledRegs_iff n).mpr fun h => absurd h h6
    exact exec_mrd_gives d rfl (hk.mpr hn) (hl.mpr hm) hs (s.readMreg_stored s.cur n hother)
  case fflags =>
    intro _ hm h6 hb
    have hs : s.settledRegs mFflags = true := (s.settledRegs_iff mFflags).mpr fun _ => hb
    exact exec_mrd_gives d h6 rfl (mayAt h6 hm) hs (s.readMreg_stored s.cur mFflags (by decide))
  case vgrant => exact fun h => exec_mrd_gives d h rfl (atAll (by decide)) rfl (s.readMreg_vgrant s.cur)
  case lmod => exact fun h => exec_mrd_gives d h rfl (atAll (by decide)) rfl (s.readMreg_lmod s.cur)
  case hartid => exact fun h => exec_mrd_gives d h rfl (atAll (by decide)) rfl (s.readMreg_hartid s.cur)
  case gang => exact fun h => exec_mrd_gives d h rfl (atAll (by decide)) rfl (s.readMreg_gang s.cur)
  case taskid => exact fun h => exec_mrd_gives d h rfl (atAll (by decide)) rfl (s.readMreg_taskid s.cur)
  case mown => exact fun h hm => exec_mrd_gives d h rfl (mayAt h hm) rfl (s.readMreg_mown s.cur)
  case powcap => exact fun h hm => exec_mrd_gives d h rfl (mayAt h hm) rfl (s.readMreg_powcap s.cur)
  case lpart =>
    intro h hm
    refine exec_mrd_gives d h rfl (mayAt h hm) rfl ((s.readMreg_lpart s.cur).trans ?_)
    cases (s.core (coreOf s.cur)).lpartNew <;> rfl
  case priv => exact fun hn hm => exec_mrd_priv d (hk.mpr hn) (Bool.eq_false_iff.mpr (mt hl.mp hm))
  case illegal => exact fun hn => exec_mrd_illegal d (Bool.eq_false_iff.mpr (mt hk.mp hn))

end Sys2Proof.Machine

/-!
PROOFS. The reset state: what each accessor reads in it (R6, R22, R69, R90, R116).
-/
namespace Sys2Proof.Machine

/-! Nothing is listed at reset, so every accessor gives its default. -/

@[simp] theorem State.hart_reset (hid : Nat) : State.reset.hart hid = Hart.reset := rfl
@[simp] theorem State.core_reset (c : Nat) : State.reset.core c = Core.reset := rfl
@[simp] theorem State.task_reset (k : Nat) : State.reset.task k = Task.reset := rfl
@[simp] theorem State.img_reset (k : Nat) : State.reset.img k = 0 := rfl
@[simp] theorem State.hreg_reset (o : Nat) : State.reset.hreg o = hubReset o := rfl
@[simp] theorem State.holders_reset (c g : Nat) : State.reset.holders c g = 0 := rfl
@[simp] theorem Hart.mreg_reset (n : Nat) : Hart.reset.mreg n = mregReset n := rfl
@[simp] theorem Hart.ew_reset : Hart.reset.ew = .e32 := by decide
@[simp] theorem Hart.tagOf_reset (v : VR) : Hart.reset.tagOf v = .s32 := rfl
@[simp] theorem Hart.getX_reset (r : XR) : Hart.reset.getX r = 0 := by simp [Hart.getX, Hart.reset]

/-- Every predicate but p0, which is always 1, is zero (R90). -/
theorem Hart.pred_reset {p : PR} (i : Nat) (h : p ≠ 0) : Hart.reset.pred p i = false := by
  simp [Hart.pred, Hart.reset, h]

/-- A hart that holds no lane group has no lane (R81). -/
theorem State.vgrant_reset (hid : Nat) : State.reset.vgrant hid = 0 := by
  have none_held : State.reset.heldBy hid = [] := by
    rw [State.heldBy, List.filter_eq_nil_iff]
    intro g _
    rw [State.holders_reset, Nat.zero_testBit]
    exact Bool.false_ne_true
  rw [State.vgrant, none_held]
  rfl

/-! The link and port status words (R22). -/

/-- The words below 0x3000 have Reset column 0. -/
theorem hubReset_of_lt {o : Nat} (h : o < 0x3000) : hubReset o = 0 := by
  unfold hubReset
  simp only [show ¬ 0x3000 ≤ o by omega, show ¬ 0x3200 ≤ o by omega, show ¬ 0x3300 ≤ o by omega,
    show ¬ o = 0x3408 by omega, show ¬ 0x4000 ≤ o by omega, show ¬ 0x5000 ≤ o by omega,
    show ¬ o = 0x5100 by omega, show ¬ 0x7400 ≤ o by omega, false_and, if_false]

theorem dbgIndex_of_lt {o : Nat} (h : o < 0x3000) : dbgIndex o = none := by
  unfold dbgIndex
  simp only [show ¬ 0x7100 ≤ o by omega, show ¬ 0x7200 ≤ o by omega, false_and, if_false]

/-- A read below 0x3000 of another register than fabst gives the stored word and changes nothing. -/
theorem State.hubRead_of_lt (s : State) {o : Nat} (h : o < 0x3000) (hf : o ≠ oFabst) :
    s.hubRead o = (s, s.hreg o) := by
  unfold State.hubRead
  simp only [hf, dbgIndex_of_lt h, show ¬ 0x3100 ≤ o by omega, show o ≠ oSwint by unfold oSwint; omega,
    show ¬ 0x4000 ≤ o by omega, show ¬ 0x6000 ≤ o by omega, show ¬ 0x6400 ≤ o by omega,
    show o ≠ oDbgtask by unfold oDbgtask; omega, show o ≠ oDbghart by unfold oDbghart; omega,
    show o ≠ oDbgdat by unfold oDbgdat; omega, show ¬ 0x10000 ≤ o by omega, show ¬ 0x800000 ≤ o by omega,
    false_and, if_false]

/-- At reset such a register reads 0. -/
theorem State.hubRead_reset_of_lt {o : Nat} (h : o < 0x3000) (hf : o ≠ oFabst) : (State.reset.hubRead o).2 = 0 := by
  rw [State.hubRead_of_lt _ h hf]
  exact hubReset_of_lt h

/-- Settles O60: every accessor reads its default at reset. -/
theorem resetState : Obligations.ResetState := by
  unfold Obligations.ResetState
  refine ⟨rfl, fun c o _ _ => State.img_reset _, ?cores, State.hreg_reset,
    (State.hreg_reset _).trans (hubReset_of_lt (by decide)), ?links, ?ports, ?tasks, rfl, ?harts⟩
  case cores => intro c; rw [State.core_reset]; exact ⟨rfl, rfl⟩
  case links => exact fun n hn => State.hubRead_reset_of_lt (by omega) (by unfold oFabst; omega)
  case ports => exact fun n hn => State.hubRead_reset_of_lt (by omega) (by unfold oFabst; omega)
  case tasks => intro k; rw [State.task_reset]; rfl
  case harts =>
    intro hid
    rw [State.hart_reset]
    exact ⟨Hart.mreg_reset, rfl, rfl, Hart.ew_reset, rfl, Hart.tagOf_reset, fun _ => rfl, State.vgrant_reset hid,
      fun p i => Hart.pred_reset i, Hart.getX_reset⟩

end Sys2Proof.Machine

/-!
PROOFS. Vector loads and stores: what passes their operand checks, and what they do where no element stops (R38, R112, R313
to R317).
-/
namespace Sys2Proof.Machine

/-! Fills (R106): where no register is spilled, or there is no element, they do nothing. -/

theorem State.fillGroups_of_calm {s : State} (h : s.me.vl = 0 ∨ s.me.spilled = []) (rs : List (VR × Tag)) :
    s.fillGroups rs = .ok s := by
  have none_due : (s.me.vl = 0 || s.me.spilled.isEmpty) = true := by simpa using h
  rw [State.fillGroups, if_pos none_due]

theorem State.fillData_of_calm {s : State} (h : s.me.vl = 0 ∨ s.me.spilled = []) (m : VMem) (b : Nat)
    (rs : List (VR × Tag)) : s.fillData m b rs = .ok s := by
  rw [State.fillData, State.fillGroups_of_calm h]

/-! A check that holds, and a part that has its result, are passed. -/

theorem need_bind {α : Type} {c : Bool} (h : c = true) (e : Stop) (f : Unit → Except Stop α) :
    (need c e >>= f) = f () := by rw [h]; rfl

theorem ok_bind {α β : Type} (a : α) (f : α → Except Stop β) : (Except.ok a >>= f) = f a := rfl

/-! Operand checks (R97, R104, R313 to R317). -/

/-- The operands of a vector load or store are legal: its mode in its loop, the tags and groups of its data registers, and
those of its index register, which a load does not write. -/
structure State.VMemLegal (s : State) (m : VMem) : Prop where
  mode : m.mode = .ff → ¬(s.me.looping = true ∧ s.me.parallel = true)
  ordinary : (s.me.tagOf m.v).ordinary = true
  group : (groupOf (s.me.tagOf m.v) s.me.ew m.v).isSome = true
  fits : m.v.val + m.nf * groupSize (s.me.tagOf m.v) s.me.ew ≤ 32
  fields : m.store = true → ∀ f, f < m.nf →
    s.me.tagOf (Fin.ofNat 32 (m.v.val + f * groupSize (s.me.tagOf m.v) s.me.ew)) = s.me.tagOf m.v
  index : ∀ x, m.idx = some x → (s.me.tagOf x).isInt = true ∧ ∃ gx, groupOf (s.me.tagOf x) s.me.ew x = some gx ∧
    (m.store = false → meets m.v (m.nf * groupSize (s.me.tagOf m.v) s.me.ew) x gx = false)

/-- Legal operands with nothing to fill leave the accesses alone to be done. -/
theorem State.vmem_of_legal {s : State} {m : VMem} (hl : s.VMemLegal m) (hf : s.me.vl = 0 ∨ s.me.spilled = []) :
    s.vmem m = s.vmemRun m (groupSize (s.me.tagOf m.v) s.me.ew) := by
  obtain ⟨mode, ordinary, group, fits, fields, index⟩ := hl
  have hmode : (!(m.mode == .ff && s.me.looping && s.me.parallel)) = true := by
    rw [Bool.not_eq_true', Bool.eq_false_iff]
    intro bad
    simp only [Bool.and_eq_true, beq_iff_eq] at bad
    obtain ⟨⟨ff, loop⟩, par⟩ := bad
    exact mode ff ⟨loop, par⟩
  have hsame : (!m.store || !decide (m.v.val + m.nf * groupSize (s.me.tagOf m.v) s.me.ew ≤ 32) ||
      (List.range m.nf).all fun f =>
        s.me.tagOf (Fin.ofNat 32 (m.v.val + f * groupSize (s.me.tagOf m.v) s.me.ew)) == s.me.tagOf m.v) = true := by
    cases hst : m.store
    · rfl
    · simpa [fits] using fields hst
  have hgroup : ((groupOf (s.me.tagOf m.v) s.me.ew m.v).isSome &&
      decide (m.v.val + m.nf * groupSize (s.me.tagOf m.v) s.me.ew ≤ 32)) = true := by simp [group, fits]
  unfold State.vmem
  simp only [need_bind hmode, need_bind hgroup, ordinary, hsame, Bool.true_and, Bool.and_true,
    State.fillGroups_of_calm hf, ite_self, ok_bind, State.fillData_of_calm hf]
  cases hx : m.idx with
  | none =>
    simp only [List.any_nil, Bool.and_false]
    rfl
  | some x =>
    obtain ⟨int, gx, hg, apart⟩ := index x hx
    have hindex : groupsOk s.me.ew [(x, s.me.tagOf x)] none = true := by simp [groupsOk, hg]
    have hclash : (!(!m.store && [(x, s.me.tagOf x)].any fun r => meets m.v
        (m.nf * groupSize (s.me.tagOf m.v) s.me.ew) r.1 ((groupOf r.2 s.me.ew r.1).getD 1))) = true := by
      cases hst : m.store
      · simp [hg, apart hst]
      · rfl
    simp only [need_bind int, need_bind hindex, need_bind hclash]

/-! The accesses (R38, R140, R189, R313). -/

/-- A vector load or store none of whose elements to do stops, and that need not wait, performs all their accesses. -/
theorem State.vmemRun_of_passes {s : State} {m : VMem} (g : Nat) (hp : s.drv.pause = none) :
    let n := { m with grp := s.orderOf s.drv.nextId m.mode }
    let b := (s.me.tagOf m.v).width / 8
    let todo := (s.me.actives m.pm).filter s.fresh
    let ps := s.places n b (n.accs todo)
    let held := s.staysHeld s n s.drv.nextId b ps
    (∀ e ∈ todo, s.elemStop n b e = none) → s.vmemWait s n s.drv.nextId b ps held = .ok () →
    s.vmemRun m g = .ok
      ((((s.drawFrames m.store m.hint b ps).performElems n s.drv.nextId b g todo held).keepOrder n false).countHint m.hint
        (if m.hint = .none then [] else s.places n b (n.accs (s.me.actives m.pm)))) := by
  intro n b todo ps held stops wait
  have hn : { m with grp := s.orderOf s.drv.nextId m.mode } = n := rfl
  have hb : (s.me.tagOf m.v).width / 8 = b := rfl
  have htodo : ((s.me.actives m.pm).filter fun e => !s.me.resume.did e) = todo := rfl
  have hps : s.places n b (n.accs todo) = ps := rfl
  have hheld : s.staysHeld s n s.drv.nextId b ps = held := rfl
  clear_value n b todo ps held
  have bad : (todo.filterMap fun e => (s.elemStop n b e).map fun x => (e, x)) = [] := by
    rw [List.filterMap_eq_nil_iff]
    intro e he
    rw [stops e he]; rfl
  have short : shortAt n (s.me.actives m.pm) [] = none := by unfold shortAt; split <;> rfl
  have all (l : List Nat) : l.filter (fun _ => true) = l := List.filter_eq_self.mpr fun _ _ => rfl
  have pause : (if ordered m.mode then s.orderedPause todo [] else s.pauseAt todo []) = none := by
    unfold State.orderedPause State.pauseAt; rw [hp]; split <;> rfl
  have stop : (if ordered m.mode then s.orderedStop todo [] else s.stopAt todo []) = none := by
    split <;> rfl
  unfold State.vmemRun
  simp only [hn, hb, htodo, bad, short, all, List.filter_nil, List.map_nil, pause, stop, ite_self, Option.bind_none,
    Option.any_none, Bool.not_false, Bool.or_true, Option.isNone_none, Option.isSome_none, Bool.true_and,
    hps, hheld, wait, ok_bind, need_bind (c := true) rfl]

/-! The forms (R314, R315, R317). -/

/-- Every form is its accesses and its length. -/
theorem exec_vmemForm {s : State} {i : Instr} {q : VMemForm} (h : vmemForm s.me i = some q) :
    exec i s = completeV q.len (s.vmem q.m) := by
  unfold vmemForm at h
  split at h
  case h_5 | h_10 => dsimp only at h; split at h <;> cases h <;> rfl
  case h_11 => cases h
  all_goals cases h; rfl

/-- Settles O36: legal operands leave `vmemRun`, which performs the accesses where no element stops and nothing waits. -/
theorem vectorMemoryResults : Obligations.VectorMemoryResults := by
  unfold Obligations.VectorMemoryResults
  intro s i q form calm pause h m t b g mode ordinary group fits fields index todo stops ps held wait e
  have legal : s.VMemLegal q.m := ⟨mode, ordinary, group, fits, fields, index⟩
  rw [exec_vmemForm form, State.vmem_of_legal legal calm, State.vmemRun_of_passes (m := q.m) _ pause stops wait]
  exact completeV_goes _ _

end Sys2Proof.Machine

/-!
PROOFS. Lines and directory entries: what each step of the protocol leaves of a holder's span and of another frame's entry;
and what a back-invalidation leaves of the holders that it asks (R31 to R36, R45).
-/
namespace Sys2Proof

/-- What a map reads other than the default is listed. -/
theorem SMap.mem_of_get_ne {α : Type} {d : α} {m : SMap α} {k : Nat} (h : SMap.get d m k ≠ d) :
    (k, SMap.get d m k) ∈ m := by
  induction m with
  | nil => exact absurd rfl h
  | cons e m ih =>
    obtain ⟨j, v⟩ := e
    unfold SMap.get at h ⊢
    split
    · next same => rw [same]; exact List.mem_cons_self
    · next other => rw [if_neg other] at h; exact List.mem_cons_of_mem _ (ih h)

end Sys2Proof

namespace Sys2Proof.Machine

/-! Lines: what each update of the tables leaves of a holder's span (R31, R32). -/

section
variable (s : State) {t : State} (h k : Holder) (f g : Nat)

theorem State.lineOf_of_lines (e : t.coh.lines = s.coh.lines) : t.lineOf h f = s.lineOf h f := by
  unfold State.lineOf; rw [e]

theorem State.lineOf_some {l : Line} (hl : s.lineOf h f = some l) : l.h = h ∧ l.frame = f := by
  simpa using List.find?_some hl

theorem State.lineOf_dropLine :
    (s.dropLine k g).lineOf h f = if h = k ∧ f = g then none else s.lineOf h f := by
  unfold State.lineOf State.dropLine
  dsimp only
  rw [List.find?_filter]
  split
  · next same => exact List.find?_eq_none.mpr fun l _ => by grind
  · next other => exact congrArg (List.find? · s.coh.lines) (funext fun l => by grind)

theorem State.lineOf_setLine (l : Line) :
    (s.setLine l).lineOf h f = if h = l.h ∧ f = l.frame then some l else s.lineOf h f := by
  have appended : (s.setLine l).lineOf h f =
      ((s.dropLine l.h l.frame).lineOf h f).or ([l].find? fun l => l.h == h && l.frame == f) := List.find?_append
  rw [appended, State.lineOf_dropLine, List.find?_singleton]
  split
  · next same =>
    obtain ⟨rfl, rfl⟩ := same
    simp
  · next other =>
    have unlike : (l.h == h && l.frame == f) = false := by grind
    rw [unlike]
    simp

/-- A change of the lines that keeps holders and frames. -/
theorem State.lineOf_map (e : Line → Line) (he : ∀ l, (e l).h = l.h ∧ (e l).frame = l.frame)
    (ht : t.coh.lines = s.coh.lines.map e) : t.lineOf h f = (s.lineOf h f).map e := by
  unfold State.lineOf
  rw [ht, List.find?_map]
  refine congrArg (fun p => Option.map e (List.find? p s.coh.lines)) (funext fun l => ?_)
  obtain ⟨holder, frame⟩ := he l
  simp only [Function.comp, holder, frame]

theorem State.cutStrips_coh (of : Nat → Nat → Bool) : (s.cutStrips of).coh = s.coh := by
  unfold State.cutStrips
  refine State.foldl_keep _ State.coh (fun s e => ?_) _ _
  dsimp only
  split <;> rfl

theorem State.dropStrips_coh : (s.dropStrips k g).coh = s.coh := s.cutStrips_coh _

/-- What a holder's own part of a probe leaves of the spans. -/
theorem State.lineOf_giveUp (inv : Bool) : (s.giveUp k g inv).lineOf h f =
    if h = k ∧ f = g then (if inv then none else (s.lineOf h f).map fun l => { l with st := .s, dirty := 0 })
    else s.lineOf h f := by
  unfold State.giveUp
  dsimp only
  cases inv with
  | true =>
    rw [if_pos rfl, if_pos rfl, State.lineOf_of_lines _ _ _ (congrArg Coherence.lines (State.dropStrips_coh ..)),
      State.lineOf_dropLine]
    rfl
  | false =>
    rw [if_neg Bool.false_ne_true, if_neg Bool.false_ne_true]
    have wb_only (x : List Line) : ({ s with coh := { s.coh with wb := x } } : State).lineOf k g = s.lineOf k g := rfl
    split
    · next l hl =>
      rw [wb_only] at hl
      obtain ⟨rfl, rfl⟩ := s.lineOf_some k g hl
      rw [State.lineOf_setLine]
      split
      · next same =>
        obtain ⟨rfl, rfl⟩ := same
        rw [hl]; rfl
      · rfl
    · next hl =>
      rw [wb_only] at hl
      split
      · next same =>
        obtain ⟨rfl, rfl⟩ := same
        rw [hl]; exact hl
      · rfl

/-! Entries of the directories (R33). -/

theorem State.dirEntry_of_dir (e : t.coh.dir = s.coh.dir) (q : Nat) : t.dirEntry q f = s.dirEntry q f := by
  unfold State.dirEntry; rw [e]

/-- Entries of one frame are told from another's by its number, below 2^56. -/
theorem State.dirEntry_setDir_other (hfg : f % 2 ^ 56 ≠ g % 2 ^ 56) (p q : Nat) (e : List Rec × Bool × Bool) :
    (s.setDir p g e).dirEntry q f = s.dirEntry q f :=
  SMap.get_set_other _ _ _ (by omega)

theorem State.giveUp_dir (inv : Bool) : (s.giveUp k g inv).coh.dir = s.coh.dir := by
  unfold State.giveUp
  dsimp only
  split
  · rw [State.dropStrips_coh]; rfl
  · split <;> rfl

theorem State.mergeHome_lines (w : Nat) : (s.mergeHome f w).coh.lines = s.coh.lines := by
  unfold State.mergeHome; dsimp only; split <;> rfl

theorem State.mergeHome_dir (w : Nat) : (s.mergeHome f w).coh.dir = s.coh.dir := by
  unfold State.mergeHome; dsimp only; split <;> rfl

end

/-! Holders that have given a frame up (R35, R45). -/

/-- A holder has given a frame up: it has no span of it, or after a downgrade a shared and clean one. -/
def State.GivenUp (s : State) (inv : Bool) (h : Holder) (f : Nat) : Prop :=
  ∀ l, s.lineOf h f = some l → inv = false ∧ l.st = .s ∧ l.dirty = 0

/-- Work on frame g: the entries of another frame f stay, and a holder that has given f up has still done so. -/
structure State.Keeps (inv : Bool) (h : Holder) (f g : Nat) (s t : State) : Prop where
  dir : f % 2 ^ 56 ≠ g % 2 ^ 56 → ∀ q, t.dirEntry q f = s.dirEntry q f
  up : s.GivenUp inv h f → t.GivenUp inv h f

section
variable {inv : Bool} {h : Holder} {f g : Nat} {s t u : State}

theorem State.GivenUp.of_lineOf (e : t.lineOf h f = s.lineOf h f) (hs : s.GivenUp inv h f) : t.GivenUp inv h f :=
  fun l hl => hs l (e ▸ hl)

theorem State.Keeps.refl (s : State) : State.Keeps inv h f g s s := ⟨fun _ _ => rfl, id⟩

theorem State.Keeps.trans (a : State.Keeps inv h f g s t) (b : State.Keeps inv h f g t u) : State.Keeps inv h f g s u :=
  ⟨fun hfg q => (b.dir hfg q).trans (a.dir hfg q), fun hs => b.up (a.up hs)⟩

theorem State.Keeps.foldl {α : Type} {step : State → α → State} (hstep : ∀ s a, State.Keeps inv h f g s (step s a))
    (l : List α) (s : State) : State.Keeps inv h f g s (l.foldl step s) := by
  induction l generalizing s with
  | nil => exact .refl s
  | cons a l ih => exact (hstep s a).trans (ih _)

theorem State.Keeps.of_same (el : t.coh.lines = s.coh.lines) (ed : t.coh.dir = s.coh.dir) :
    State.Keeps inv h f g s t :=
  ⟨fun _ q => s.dirEntry_of_dir f ed q, .of_lineOf (s.lineOf_of_lines h f el)⟩

theorem State.setDir_keeps (s : State) (q : Nat) (e : List Rec × Bool × Bool) :
    State.Keeps inv h f g s (s.setDir q g e) :=
  ⟨fun hfg p => s.dirEntry_setDir_other f g hfg q p e, .of_lineOf rfl⟩

theorem State.setFilter_keeps (s : State) (e : List Rec × Bool × Bool) : State.Keeps inv h f g s (s.setFilter g e) :=
  .of_same rfl rfl

theorem State.giveUp_keeps (s : State) (k : Holder) (b : Bool) : State.Keeps inv h f g s (s.giveUp k g b) where
  dir _ := s.dirEntry_of_dir f (s.giveUp_dir k g b)
  up hs l hl := by
    rw [State.lineOf_giveUp] at hl
    split at hl
    · cases b with
      | true => cases hl
      | false =>
        obtain ⟨l0, h0, rfl⟩ := Option.map_eq_some_iff.mp hl
        exact ⟨(hs l0 h0).1, rfl, rfl⟩
    · exact hs l hl

/-- A holder that is probed gives its span up. -/
theorem State.giveUp_givenUp (s : State) : (s.giveUp h f inv).GivenUp inv h f := by
  intro l hl
  rw [State.lineOf_giveUp, if_pos ⟨rfl, rfl⟩] at hl
  cases inv with
  | true => cases hl
  | false =>
    obtain ⟨_, _, rfl⟩ := Option.map_eq_some_iff.mp hl
    exact ⟨rfl, rfl, rfl⟩

/-- Words reach the home, or the copy of a guest other than the holder. -/
theorem State.mergeAt_keeps (s : State) (q w : Nat) (other : q = homeDie g ∨ ¬(h = .die q ∧ f = g)) :
    State.Keeps inv h f g s (s.mergeAt q g w) := by
  unfold State.mergeAt
  split
  · exact .refl s
  · split
    · exact .of_same (s.mergeHome_lines ..) (s.mergeHome_dir ..)
    · next guest =>
      split
      · next l hl =>
        obtain ⟨hh, hf⟩ := s.lineOf_some _ _ hl
        refine ⟨fun _ q => rfl, .of_lineOf ?_⟩
        rw [State.lineOf_setLine, hh, hf, if_neg (other.resolve_left guest)]
      · exact .of_same (s.mergeHome_lines ..) (s.mergeHome_dir ..)

theorem State.probeCc_keeps (s : State) (q : Nat) (b : Bool) (k : Holder)
    (other : q = homeDie g ∨ ¬(h = .die q ∧ f = g)) : State.Keeps inv h f g s (s.probeCc q g b k) :=
  ((s.giveUp_keeps k b).trans (State.mergeAt_keeps _ q _ other)).trans (State.setDir_keeps ..)

theorem State.probeGuest_keeps (s : State) (q : Nat) (b : Bool) (other : ¬(h = .die q ∧ f = g)) :
    State.Keeps inv h f g s (s.probeGuest q g b) :=
  .foldl (fun s (r : Rec) => s.probeCc_keeps q b r.h (.inr other)) _ _

theorem State.reachHolder_keeps (s : State) (k : Holder) (b : Bool) (other : ¬(h = k ∧ f = g)) :
    State.Keeps inv h f g s (s.reachHolder k g b) := by
  unfold State.reachHolder
  split
  · have probed := s.probeGuest_keeps (inv := inv) _ b other
    dsimp only
    split
    · exact probed.trans (.of_same rfl rfl)
    · exact probed
  · exact .refl s

/-- A holder's own part of a probe from the home, with its answer's words merged and its record updated. -/
theorem State.probed_keeps (s : State) (k : Holder) (b : Bool) :
    State.Keeps inv h f g (s.giveUp k g b) (if isRemote k then
      let t := (s.giveUp k g b).mergeAt (homeDie g) g (s.answer k g).words
      t.setFilter g ((s.answer k g).update b (t.filterEntry g) k)
    else s.probeCc (homeDie g) g b k) := by
  have merged := (s.giveUp k g b).mergeAt_keeps (inv := inv) (h := h) (f := f) (homeDie g) (s.answer k g).words (.inl rfl)
  split
  · exact merged.trans (State.setFilter_keeps ..)
  · exact merged.trans (State.setDir_keeps ..)

/-- A probe of the home makes its holder give the frame up. -/
theorem State.probe1_givenUp (s : State) : (s.probe1 (homeDie f) f inv h).GivenUp inv h f :=
  (State.probed_keeps (g := f) (s.reachHolder h f inv) h inv).up (State.giveUp_givenUp _)

theorem State.probe1_keeps (s : State) (k : Holder) : State.Keeps inv h f g s (s.probe1 (homeDie g) g inv k) := by
  by_cases same : h = k ∧ f = g
  · obtain ⟨rfl, rfl⟩ := same
    exact ⟨fun hff => absurd rfl hff, fun _ => s.probe1_givenUp⟩
  · exact ((s.reachHolder_keeps k inv same).trans (State.giveUp_keeps ..)).trans (State.probed_keeps ..)

/-- Spans whose words have been written back: one that was given up stays so. -/
theorem State.cleaned_keeps (s : State) (w : Nat) :
    State.Keeps inv h f g s { s with coh := s.coh.cleaned g w } where
  dir _ _ := rfl
  up hs l hl := by
    rw [s.lineOf_map h f (fun l => if l.frame = g then l.clean w else l)
      (fun l => by split <;> exact ⟨rfl, rfl⟩) rfl] at hl
    obtain ⟨l0, h0, rfl⟩ := Option.map_eq_some_iff.mp hl
    obtain ⟨down, shared, clean⟩ := hs l0 h0
    split
    · simp [Line.clean, down, shared, clean]
    · exact ⟨down, shared, clean⟩

/-! Going through a list. -/

/-- What one member brings about, under a condition that those before it keep, holds in the end where the others keep it. -/
theorem State.foldl_reaches {α : Type} {step : State → α → State} {before after : State → Prop} {a : α}
    {l : List α} (ha : a ∈ l) (brings : ∀ s, before s → after (step s a))
    (waits : ∀ b ∈ l, b ≠ a → ∀ s, before s → before (step s b))
    (keeps : ∀ b ∈ l, ∀ s, after s → after (step s b)) {s : State} (hs : before s) : after (l.foldl step s) := by
  obtain ⟨l1, l2, rfl, first⟩ := List.eq_append_cons_of_mem ha
  rw [List.foldl_append, List.foldl_cons]
  have reached : before (l1.foldl step s) :=
    List.foldlRecOn l1 step hs fun s hs b hb => waits b (by simp [hb]) (fun e => first (e ▸ hb)) s hs
  exact List.foldlRecOn l2 step (brings _ reached) fun s hs b hb => keeps b (by simp [hb]) s hs

/-! Back-invalidations (R45). -/

/-- The home's probes of a back-invalidation, and the words written back. -/
def State.biCleaned (s : State) (f : Nat) (inv : Bool) : State :=
  let u := (((s.dirEntry (homeDie f) f).1.filter fun r => inv || r.own).map (·.h)).foldl
    (fun s h => s.probe1 (homeDie f) f inv h) s
  { u with coh := u.coh.cleaned f (2 ^ 32 - 1) }

theorem State.backInvalidate_eq (s : State) (f : Nat) (inv : Bool) : s.backInvalidate f inv =
    if inv then (s.biCleaned f inv).dropWays (homeDie f) f else s.biCleaned f inv := rfl

theorem State.backInvalidate_quiet (s : State) (f : Nat) (inv : Bool) : s.Quiet (s.backInvalidate f inv) := by
  have cleaned : s.Quiet (s.biCleaned f inv) := (s.probes_quiet ..).trans (.tables _ _)
  rw [State.backInvalidate_eq]
  exact .iff (cleaned.trans (State.dropWays_quiet ..)) cleaned

theorem State.backInvalidate_keeps (s : State) : State.Keeps inv h f g s (s.backInvalidate g inv) := by
  have cleaned : State.Keeps inv h f g s (s.biCleaned g inv) :=
    (State.Keeps.foldl (fun s k => s.probe1_keeps k) _ s).trans (State.cleaned_keeps ..)
  rw [State.backInvalidate_eq]
  split
  · exact cleaned.trans (.of_same rfl rfl)
  · exact cleaned

/-- An internal holder that a back-invalidation asks gives the frame up. -/
theorem State.backInvalidate_givenUp (s : State) {x : Rec} (hx : x ∈ (s.dirEntry (homeDie f) f).1)
    (asked : (inv || x.own) = true) : (s.backInvalidate f inv).GivenUp inv x.h f := by
  have member : x.h ∈ ((s.dirEntry (homeDie f) f).1.filter fun r => inv || r.own).map (·.h) :=
    List.mem_map_of_mem (List.mem_filter.mpr ⟨hx, asked⟩)
  have cleaned : (s.biCleaned f inv).GivenUp inv x.h f :=
    (State.cleaned_keeps (g := f) _ _).up (State.foldl_reaches (before := fun _ => True) member
      (fun s _ => s.probe1_givenUp) (fun _ _ _ _ _ => trivial) (fun k _ s => (s.probe1_keeps k).up) trivial)
  rw [State.backInvalidate_eq]
  split
  · exact .of_lineOf rfl cleaned
  · exact cleaned

/-- A back-invalidation of several frames, each an entry of its own: an internal holder that it asks gives its frame up. -/
theorem State.backInvalidates_givenUp {fs : List Nat} (hf : f ∈ fs) (small : ∀ g ∈ fs, g < 2 ^ 56) {x : Rec}
    (hx : x ∈ (s.dirEntry (homeDie f) f).1) (asked : (inv || x.own) = true) :
    (fs.foldl (fun s g => s.backInvalidate g inv) s).GivenUp inv x.h f := by
  refine State.foldl_reaches (before := fun t => x ∈ (t.dirEntry (homeDie f) f).1)
    (after := fun t => t.GivenUp inv x.h f) hf (fun t ht => t.backInvalidate_givenUp ht asked)
    (fun g hg other t ht => ?_) (fun g _ t => t.backInvalidate_keeps.up) hx
  have entries_apart : f % 2 ^ 56 ≠ g % 2 ^ 56 := by
    rw [Nat.mod_eq_of_lt (small f hf), Nat.mod_eq_of_lt (small g hg)]
    exact other.symm
  rwa [(t.backInvalidate_keeps (inv := inv) (h := x.h)).dir entries_apart]

/-- Frames of a region are numbered below 2^56 (R14). -/
theorem lt_of_regionFrame {n f : Nat} (h : regionFrame n f = true) : f < 2 ^ 56 := by
  unfold regionFrame regionOf at h
  split at h
  · next range => simp only [paPool] at range; omega
  · cases h

/-- A frame with a record in a directory entry is listed. -/
theorem State.listed_of_rec (s : State) {q f : Nat} {x : Rec} (hf : f < 2 ^ 56) (hx : x ∈ (s.dirEntry q f).1) :
    f ∈ s.coh.dir.map fun (e : Nat × List Rec × Bool × Bool) => e.1 % 2 ^ 56 := by
  have listed : (2 ^ 56 * q + f, s.dirEntry q f) ∈ s.coh.dir :=
    SMap.mem_of_get_ne fun e => List.not_mem_nil ((congrArg Prod.fst e) ▸ hx)
  exact List.mem_map.mpr ⟨_, listed, by omega⟩

end
end Sys2Proof.Machine

/-!
PROOFS. Pool ports and regions, back-invalidations, filters and fences: each event under its condition (R23, R42 to R47).
-/
namespace Sys2Proof.Machine

/-! Reports (R198): a record is written to memory and to the log's registers, and no more. -/

section
variable (s : State)

theorem Coherence.wrote_fenced (c : Coherence) (k n clk : Nat) : (c.wrote k n clk).fenced = c.fenced := by
  unfold Coherence.wrote
  dsimp only
  split
  · split <;> rfl
  · rfl
  · rfl
  · rfl

@[simp] theorem State.writeHome_fenced (k n v ino w : Nat) : (s.writeHome k n v ino w).coh.fenced = s.coh.fenced :=
  Coherence.wrote_fenced ..

/-- What writes of memory, of the hub's words and of its pending error interrupt leave alone, a report does. -/
theorem State.report_keep {β : Type} (get : State → β) (hw : ∀ s k n v i w, get (State.writeHome s k n v i w) = get s)
    (hr : ∀ s o v, get (State.setHreg s o v) = get s)
    (hi : ∀ (s : State) b, get { s with hub := { s.hub with irqErr := b } } = get s)
    (k b x p v : Nat) (hid task : Option Nat) : get (s.report k b x p v hid task) = get s := by
  unfold State.report
  extract_lets c lg head base h w3 s1 s2 s3 s4 s5
  split
  · split
    · exact hr ..
    · calc get _ = get s5 := hi s5 true
        _ = get s4 := hr ..
        _ = get s3 := hw ..
        _ = get s2 := hw ..
        _ = get s1 := hw ..
        _ = get s := hw ..
  · rfl

@[simp] theorem State.report_mems (k b x p v : Nat) (hid task : Option Nat) :
    (s.report k b x p v hid task).mems = s.mems :=
  s.report_keep State.mems (fun _ _ _ _ _ _ => rfl) (fun _ _ _ => rfl) (fun _ _ => rfl) ..

@[simp] theorem State.report_pool (k b x p v : Nat) (hid task : Option Nat) :
    (s.report k b x p v hid task).pool = s.pool :=
  s.report_keep State.pool (fun _ _ _ _ _ _ => rfl) (fun _ _ _ => rfl) (fun _ _ => rfl) ..

@[simp] theorem State.report_fenced (k b x p v : Nat) (hid task : Option Nat) :
    (s.report k b x p v hid task).coh.fenced = s.coh.fenced :=
  s.report_keep (·.coh.fenced) State.writeHome_fenced (fun _ _ _ => rfl) (fun _ _ => rfl) ..

@[simp] theorem State.reportRegion_mems (n : Nat) (failed : Bool) : (s.reportRegion n failed).mems = s.mems := by
  rw [State.reportRegion, State.report_mems]
@[simp] theorem State.reportRegion_pool (n : Nat) (failed : Bool) : (s.reportRegion n failed).pool = s.pool := by
  rw [State.reportRegion, State.report_pool]
@[simp] theorem State.setRegion_mems (n st : Nat) : (s.setRegion n st).mems = s.mems :=
  s.setHreg_mems ..
@[simp] theorem State.setRegion_pool (n st : Nat) : (s.setRegion n st).pool = s.pool :=
  s.setHreg_pool ..

end

/-! Fields of a word. -/

theorem testBit_bits (w : Word) {hi lo i : Nat} (within : i < hi + 1 - lo) :
    (bits w hi lo).testBit i = w.getLsbD (lo + i) := by
  unfold bits
  rw [Nat.testBit_mod_two_pow, Nat.testBit_div_two_pow]
  simp only [within, decide_true, Bool.true_and, Nat.add_comm]
  rfl

/-- The field that is written reads the value written, as far as it is wide. -/
theorem bits_setBits (w : Word) {hi lo : Nat} (v : Nat) (hlo : lo ≤ hi) (hhi : hi < 64) :
    bits (setBits w hi lo v) hi lo = v % 2 ^ (hi + 1 - lo) := by
  refine Nat.eq_of_testBit_eq fun i => ?_
  rw [Nat.testBit_mod_two_pow]
  by_cases within : i < hi + 1 - lo
  · rw [testBit_bits _ within, getLsbD_setBits _ _ _ _ _ hlo (by omega), if_pos (by omega), Nat.add_sub_cancel_left]
    simp [within]
  · simp [bits, within]

/-- A field keeps its value where another field is written. -/
theorem bits_setBits_above (w : Word) {hi lo : Nat} (p q v : Nat) (hlo : hi < q) (hq : q ≤ p) (hp : p < 64) :
    bits (setBits w p q v) hi lo = bits w hi lo := by
  refine Nat.eq_of_testBit_eq fun i => ?_
  by_cases within : i < hi + 1 - lo
  · rw [testBit_bits _ within, testBit_bits _ within, getLsbD_setBits _ _ _ _ _ hq (by omega), if_neg (by omega)]
  · simp [bits, within]

/-- A link or port reads the state that it was given (R22). -/
theorem linkState_withLink (w : Word) (st lanes : Nat) : linkState (withLink w st lanes) = st % 4 := by
  rw [linkState, withLink, bits_setBits_above _ _ _ _ (by decide) (by decide) (by decide)]
  exact bits_setBits _ st (by decide) (by decide)

/-! Ports (R23, R47). -/

/-- A port that goes DOWN reads so, and is being rerouted. -/
theorem State.portDown_reroutes (s : State) (p : Nat) : linkState ((s.portDown p).hreg (oPst p)) = 0 ∧
    ((s.portDown p).pool.reroute.any fun e => e.1 == p) = true := by
  unfold State.portDown
  extract_lets both s1 s2 new
  constructor
  · calc linkState (s2.hreg (oPst p))
      _ = linkState (withLink (s1.hreg (oPst p)) lnkDown 0) := congrArg linkState (State.hreg_setHreg_same ..)
      _ = 0 := linkState_withLink ..
  · rw [List.any_append, Bool.or_eq_true, Decidable.or_iff_not_imp_left]
    intro unlisted
    have added : p ∈ new := List.mem_filter.mpr ⟨List.mem_cons_self, by rw [Bool.eq_false_iff.mpr unlisted]; rfl⟩
    exact List.any_eq_true.mpr ⟨(p, s2.clk), List.mem_map_of_mem added, by simp⟩

theorem exec_poolRerouteDone {s : State} {p via clk0 : Nat} (hv : via < 4) (hne : via ≠ p)
    (up : linkState (s.hreg (oPst via)) = 2) (tried : (p, clk0) ∈ s.pool.reroute) (bound : s.clk ≤ clk0 + 950000) :
    exec (.poolRerouteDone p via) s =
      .next { s with pool := { s.pool with reroute := s.pool.reroute.filter (fun e => e.1 != p),
                                           via := s.pool.via ++ [(p, via)] } } := by
  have within : (s.pool.reroute.any fun e => e.1 == p && decide (s.clk ≤ e.2 + rerouteBound)) = true :=
    List.any_eq_true.mpr ⟨(p, clk0), tried, Bool.and_eq_true_iff.mpr ⟨beq_self_eq_true p, decide_eq_true bound⟩⟩
  exact if_pos ⟨hv, hne, up, within⟩

theorem exec_rerouteTimeout {s : State} {p clk0 : Nat} (tried : (p, clk0) ∈ s.pool.reroute)
    (bound : clk0 + 950000 ≤ s.clk) :
    exec (.rerouteTimeout p) s =
      .next ((s.regionsOn p 1).foldl (fun s n => s.detachRegion n) { s with pool := { s.pool with
        reroute := s.pool.reroute.filter (fun e => e.1 != p),
        grace := if s.regionsOn p 1 = [] then s.pool.grace
                 else (s.pool.grace.filter fun (g : Nat × Nat) => g.1 != p) ++ [(p, s.clk)] } }) := by
  have late : (s.pool.reroute.any fun e => e.1 == p && decide (e.2 + rerouteBound ≤ s.clk)) = true :=
    List.any_eq_true.mpr ⟨(p, clk0), tried, Bool.and_eq_true_iff.mpr ⟨beq_self_eq_true p, decide_eq_true bound⟩⟩
  have same (x : Pool) : ({ s with pool := x } : State).regionsOn p 1 = s.regionsOn p 1 := rfl
  show execRerouteTimeout p s = _
  rw [execRerouteTimeout, if_pos late]
  dsimp only
  rw [same]
  cases s.regionsOn p 1 <;> rfl

/-! Regions that are DETACHED (R47, R400). -/

@[simp] theorem State.loseRegion_mems (s : State) (n : Nat) : (s.loseRegion n).mems = s.mems := by
  simp [State.loseRegion]

@[simp] theorem State.quarantine_mems (s : State) (n : Nat) (e : WEntry) : (s.quarantine n e).mems = s.mems := by
  unfold State.quarantine
  dsimp only
  split
  · rfl
  · rw [State.loseRegion_mems]

theorem State.forget_mems (s : State) (of : Nat → Bool) : (s.forget of).mems = s.mems := by
  unfold State.forget
  dsimp only
  exact (s.cutStrips_quiet _).mems

theorem State.forget_fenced (s : State) (of : Nat → Bool) : (s.forget of).coh.fenced = s.coh.fenced := by
  unfold State.forget
  dsimp only
  rw [State.cutStrips_coh]

/-- Taking writes back changes memory alone. -/
theorem State.undo_mems (l : List WEntry) (s : State) : (l.foldr State.undo s).mems = s.mems := by
  induction l with
  | nil => rfl
  | cons e l ih => exact ih

/-- What a region's harts wait for is changed first, and nothing after that touches it. -/
theorem State.detachRegion_mems (s : State) (n : Nat) : (s.detachRegion n).mems = (s.oweDetach n).mems := by
  unfold State.detachRegion
  dsimp only
  rw [State.foldl_keep _ State.mems (fun s e => by split <;> simp), State.forget_mems]
  dsimp only
  rw [State.undo_mems, State.reportRegion_mems, State.setRegion_mems]

/-- A hart whose access waits for a region owes POOLDETACH. -/
theorem State.oweDetach_stall {s : State} {n : Nat} {m : Nat × Mem} (hm : m ∈ s.mems)
    (waits : ∀ x ∈ s.mems, x.1 = m.1 → x.2.stall = some (.region n)) :
    ((s.oweDetach n).hmem m.1).stall = some (.owed n) := by
  refine State.foldl_reaches (before := fun _ => True) (after := fun t => (t.hmem m.1).stall = some (.owed n)) hm
    (fun t _ => ?own) (fun _ _ _ _ _ => trivial) (fun _ _ t owed => ?other) trivial
  case own => rw [if_pos (waits m hm rfl), State.hmem_setHmem_same]
  case other =>
    split
    · rw [State.hmem_setHmem]
      split
      · rfl
      · exact owed
    · exact owed

theorem State.detachRegion_stall {s : State} {n : Nat} {m : Nat × Mem} (hm : m ∈ s.mems)
    (waits : ∀ x ∈ s.mems, x.1 = m.1 → x.2.stall = some (.region n)) :
    ((s.detachRegion n).hmem m.1).stall = some (.owed n) := by
  rw [State.hmem_of_mems (s.detachRegion_mems n)]
  exact State.oweDetach_stall hm waits

/-! Checks, write-backs and the grace (R46, R47). -/

/-- The re-checks of a port's DETACHED regions begin when its path returns. -/
theorem exec_poolPathReturn (s : State) (p : Nat) : ∃ t, exec (.poolPathReturn p) s = .next t ∧
    ∀ n ∈ s.regionsOn p 2, (s.pool.checks.any fun c => c.1 == n) = false → n ∉ s.pool.writeback →
      (n, true, s.clk) ∈ t.pool.checks := by
  refine ⟨_, rfl, fun n hn unchecked unwritten => List.mem_append_right _ (List.mem_map_of_mem ?_)⟩
  exact List.mem_filter.mpr ⟨hn, by simp [unchecked, unwritten]⟩

theorem exec_reattachCheckDone {s : State} {r clk0 : Nat} (ok : Bool)
    (check : s.pool.checks.find? (fun c => c.1 == r && c.2.1) = some (r, true, clk0)) :
    exec (.reattachCheckDone r ok) s = .next (if (ok && decide (s.clk ≤ clk0 + 190000000) && s.inGrace r) = true then
      { s with pool := { s.pool with
        checks := s.pool.checks.filter fun c => c.1 != r, writeback := s.pool.writeback ++ [r] } }
      else (s.endCheck r).reportRegion r true) := by
  show execReattachCheckDone r ok s = _
  rw [execReattachCheckDone, check]
  exact (apply_ite Host.Outcome.next _ _ _).symm

theorem exec_identityCheckDone {s : State} {r clk0 : Nat} (ok : Bool)
    (check : s.pool.checks.find? (fun c => c.1 == r && !c.2.1) = some (r, false, clk0)) :
    exec (.identityCheckDone r ok) s = .next (if (ok && decide (s.clk ≤ clk0 + 190000000)) = true then
      { (s.endCheck r).setHreg (oPregion r) (setBits (s.hreg (oPregion r)) 63 62 1) with
        pool := { (s.endCheck r).pool with
          identity := SMap.set 0 s.pool.identity r (Config.identityOf (bits (s.hreg (oPregion r)) 59 48)) } }
      else (s.endCheck r).reportRegion r true) := by
  show execIdentityCheckDone r ok s = _
  rw [execIdentityCheckDone, check]
  exact (apply_ite Host.Outcome.next _ _ _).symm

theorem exec_identityCheckAbandon {s : State} {r clk0 : Nat} {ok : Bool}
    (check : s.pool.checks.find? (fun c => c.1 == r) = some (r, ok, clk0)) (late : clk0 + 190000000 ≤ s.clk) :
    exec (.identityCheckAbandon r) s = .next ((s.endCheck r).reportRegion r true) := by
  show execIdentityCheckAbandon r s = _
  rw [execIdentityCheckAbandon, check]
  exact if_pos late

/-- The spans of a region have been written back. -/
theorem exec_quarantineWritebackDone {s : State} {r : Nat} (hr : r ∈ s.pool.writeback) :
    ∃ t, exec (.quarantineWritebackDone r) s = .next t ∧ r ∉ t.pool.writeback ∧ ∀ q ∈ t.pool.quar, q.region ≠ r := by
  refine ⟨_, if_pos (List.contains_iff_mem.mpr hr), ?written, ?spans⟩
  case written => simp [State.trimGrace]
  case spans => simp [State.trimGrace]

theorem exec_graceExpiry {s : State} {p clk0 : Nat} (hp : (p, clk0) ∈ s.pool.grace) (ended : s.graceLeft p = 0) :
    exec (.graceExpiry p) s = .next ((((s.regionsOn p 2).filter fun n => !s.pool.writeback.contains n).foldl
      (fun s n => (s.endCheck n).loseRegion n) s).trimGrace) := by
  have runs : (s.pool.grace.any fun g => g.1 == p) = true := List.any_eq_true.mpr ⟨(p, clk0), hp, by simp⟩
  exact if_pos (by rw [runs, ended]; rfl)

/-! Back-invalidations and acknowledgements (R45). -/

theorem State.Quiet.pool {s t : State} (q : s.Quiet t) : t.pool = s.pool := by
  have h := congrArg (fun u : State => u.pool) q.rest; exact h

/-- The frames of a back-invalidation: `count` from `first` on, within the region. -/
def biFrame (r first count f : Nat) : Bool :=
  let lo := (paPool + r * 2 ^ 30) / 256 + first
  decide (lo ≤ f) && decide (f < lo + count) && regionFrame r f

theorem exec_bisnp_waits {s : State} {r first count : Nat} (inv : Bool)
    (wait : s.bisnpReady (biFrame r first count) = false) : exec (.bisnp r first count inv) s = .next s :=
  if_neg (Bool.eq_false_iff.mp wait)

theorem exec_bisnp {s : State} {r first count : Nat} (inv : Bool) (ready : s.bisnpReady (biFrame r first count) = true) :
    ∃ t, exec (.bisnp r first count inv) s = .next t ∧ t.pool.biRsp = s.pool.biRsp ++ [(r, first, count)] ∧
      ∀ f x, biFrame r first count f = true → x ∈ (s.dirEntry (homeDie f) f).1 → (inv || x.own) = true →
        t.GivenUp inv x.h f := by
  refine ⟨_, if_pos ready, ?_, fun f x hf hx asked => ?_⟩
  · exact congrArg (·.biRsp ++ _) (State.Quiet.foldl (fun s f => s.backInvalidate_quiet f inv) _ _).pool
  · have small {g : Nat} (hg : biFrame r first count g = true) : g < 2 ^ 56 :=
      lt_of_regionFrame (Bool.and_eq_true_iff.mp hg).2
    have listed := List.mem_append_left (s.coh.dirty.map (·.frame) ++ s.coh.l2.map (·.frame))
      (s.listed_of_rec (small hf) hx)
    rw [← List.append_assoc] at listed
    exact .of_lineOf rfl (State.backInvalidates_givenUp (List.mem_eraseDups.mpr (List.mem_filter.mpr ⟨listed, hf⟩))
      (fun g hg => small (List.mem_filter.mp (List.mem_eraseDups.mp hg)).2) hx asked)

theorem exec_poolWriteAck {s : State} {k r : Nat} {e : WEntry} {w : Word} (he : s.unacked[k]? = some e)
    (moves : mayMove s.unacked k = true) (hr : s.regionOfKey e.loc = some (r, w)) (attached : regionState s r = 1) :
    exec (.poolWriteAck k) s = .next (s.ackWrite k) := by
  show execPoolWriteAck k s = _
  rw [execPoolWriteAck, he]
  dsimp only
  rw [moves, hr]
  exact if_pos attached

/-! Filters and fences (R42 to R44). -/

theorem State.filterEntry_recallFilter (s : State) (f : Nat) : (s.recallFilter f).filterEntry f = ([], false, false) := by
  unfold State.recallFilter State.filterEntry State.setDir State.setFilter
  dsimp only
  rw [SMap.get_set_same]

theorem exec_filterEntryFree (s : State) (f : Nat) :
    ∃ t, exec (.filterEntryFree f) s = .next t ∧ (t.filterEntry f).1 = [] := by
  refine ⟨_, rfl, ?_⟩
  split
  · next none_left => exact List.isEmpty_iff.mp none_left
  · rw [State.filterEntry_recallFilter]

theorem State.dropFenced_fenced (s : State) (d : Nat) : (s.dropFenced d).coh.fenced = s.coh.fenced := by
  unfold State.dropFenced
  extract_lets of held
  calc _ = (s.forget of).coh.fenced := State.foldl_keep _ (·.coh.fenced) (fun s f => s.report_fenced ..) _ _
    _ = s.coh.fenced := s.forget_fenced of

theorem State.mem_fenced_dropDevice (s : State) (d : Nat) : d ∈ (s.dropDevice d).coh.fenced := by
  unfold State.dropDevice
  dsimp only
  split
  · next known => exact List.contains_iff_mem.mp known
  · exact List.mem_append_right _ List.mem_cons_self

theorem exec_filterProbeTimeout {s : State} {d : Nat}
    (late : (s.coh.reqs.any fun q => q.waiting.contains (.dev d) && decide (q.since + 95000 ≤ s.clk)) = true) :
    ∃ t, exec (.filterProbeTimeout d) s = .next t ∧ d ∈ t.coh.fenced := by
  refine ⟨_, if_pos late, ?_⟩
  rw [State.dropFenced_fenced]
  exact State.mem_fenced_dropDevice ..

theorem exec_deviceFenced (s : State) : ∃ t, exec .deviceFenced s = .next t ∧ (t.hreg oFabst).getLsbD 0 = true := by
  refine ⟨_, rfl, ?_⟩
  rw [State.hreg_setHreg_same, getLsbD_setBits _ _ _ _ _ (by decide) (by decide)]
  rfl

theorem exec_fenceCleared {s : State} (fenced : (s.hreg oFabst).getLsbD 0 = true) (rejoin : s.coh.rejoin = true) :
    ∃ t, exec .fenceCleared s = .next t ∧ (t.hreg oFabst).getLsbD 0 = false ∧ t.coh.rejoin = false := by
  refine ⟨_, if_pos (by rw [bit, fenced, rejoin]; rfl), ?_, rfl⟩
  calc _ = (setBits (s.hreg oFabst) 0 0 0).getLsbD 0 := congrArg (BitVec.getLsbD · 0) (State.hreg_setHreg_same ..)
    _ = false := by rw [getLsbD_setBits _ _ _ _ _ (by decide) (by decide)]; rfl

theorem State.unfence_removes {s : State} {d : Nat} (other : d ≠ s.deviceId) : d ∉ (s.unfence d).coh.fenced := by
  rw [State.unfence, if_neg other]
  simp

/-- Settles O52: each event by its own lemma; a back-invalidation by the holders that give their frames up. -/
theorem poolAndFabricEvents : Obligations.PoolAndFabricEvents := by
  unfold Obligations.PoolAndFabricEvents
  intro s p via r k first count frame dev ok inv e clk0 w
  refine ⟨?down, exec_poolRerouteDone, exec_rerouteTimeout, fun m hm => s.detachRegion_stall hm, exec_poolPathReturn s p,
    ?reattach, exec_quarantineWritebackDone, exec_graceExpiry, ⟨exec_bisnp_waits inv, ?bisnp⟩, exec_poolWriteAck, rfl,
    ?identity, exec_identityCheckAbandon, exec_filterEntryFree s frame, exec_filterProbeTimeout, exec_deviceFenced s,
    exec_fenceCleared, State.unfence_removes⟩
  case down => exact fun hp => ⟨_, congrArg Host.Outcome.next (if_pos hp), s.portDown_reroutes p⟩
  case reattach =>
    intro check
    refine ⟨fun bound grace => ?_, fun fails => ?_⟩
    · rw [exec_reattachCheckDone true check, if_pos (by simp [bound, grace])]
    · rw [exec_reattachCheckDone ok check, if_neg]
      simp only [Bool.and_eq_true, decide_eq_true_eq]
      rintro ⟨⟨matched, bound⟩, grace⟩
      rcases fails with failed | late | ended
      · exact Bool.false_ne_true (failed.symm.trans matched)
      · exact Nat.not_le.mpr late bound
      · exact Bool.false_ne_true (ended.symm.trans grace)
  case bisnp =>
    intro ready
    obtain ⟨t, run, answered, given⟩ := exec_bisnp inv ready
    refine ⟨t, run, answered, fun f x hf hx _ => ⟨fun hinv => ?_, fun hinv own l hl => ?_⟩⟩
    · refine Option.eq_none_iff_forall_ne_some.mpr fun l hl => ?_
      have down := (given f x hf hx (by simp [hinv]) l hl).1
      exact absurd (hinv.symm.trans down) (by decide)
    · exact (given f x hf hx (by simp [own]) l hl).2
  case identity =>
    intro check
    refine ⟨fun bound => ?_, fun fails => ?_⟩
    · rw [exec_identityCheckDone true check, if_pos (by simp [bound])]
      exact ⟨_, rfl, State.hreg_setHreg_same .., SMap.get_set_same ..⟩
    · rw [exec_identityCheckDone ok check, if_neg]
      simp only [Bool.and_eq_true, decide_eq_true_eq]
      rintro ⟨matched, bound⟩
      rcases fails with failed | late
      · exact Bool.false_ne_true (failed.symm.trans matched)
      · exact Nat.not_le.mpr late bound

end Sys2Proof.Machine

/-!
PROOFS. Instructions of S and M: what their check of the level does, and withdrawals of translations by it (R63, R110, R268,
R273, R275).
-/
namespace Sys2Proof.Machine

/-! The check of the level (R268). -/

/-- `needS` raises PRIV at U and passes at S and M (R268). -/
theorem State.needS_of_u {s : State} (h : s.me.level = .u) : s.needS = .error s.priv := by
  unfold State.needS; rw [h]; rfl

theorem State.needS_of_ne_u {s : State} (h : s.me.level ≠ .u) : s.needS = .ok () := by
  unfold State.needS
  rw [bne_iff_ne.mpr h]; rfl

/-- An instruction that begins with `needS` raises PRIV at U. -/
theorem State.traps_of_needS {s : State} (h : s.me.level = .u) (n : Nat) (f : Unit → Res) :
    s.Traps (complete n (s.needS >>= f)) { Trap.at0 .priv 0 s.drv.ir.toNat with old := s.me.resume.pending } := by
  rw [State.needS_of_u h]
  rfl

theorem exec_eret_priv {s : State} (h : s.me.level = .u) :
    s.Traps (exec .eret s) { Trap.at0 .priv 0 s.drv.ir.toNat with old := s.me.resume.pending } := by
  show s.Traps (execEret s) _
  unfold execEret
  rw [h]
  rfl

/-- A write of a register that needs a level above the hart's raises PRIV (R110, R275). -/
theorem exec_mwr_priv {s : State} {m : BitVec 12} (a : XR) (hk : mregKnown m.toNat = true)
    (hl : s.me.level.ge (mwrLevel m.toNat) = false) :
    s.Traps (exec (.mwr a m) s) { Trap.at0 .priv 0 s.drv.ir.toNat with old := s.me.resume.pending } := by
  show s.Traps (execMwr a m s) _
  rw [State.Traps, execMwr, hk, hl]
  rfl

/-- Settles O18: each instruction stops at its check of the level. -/
theorem privilegedAtU : Obligations.PrivilegedAtU := by
  unfold Obligations.PrivilegedAtU
  intro s a b m h priv
  have checked (f : Unit → Res) : s.Traps (complete 4 (s.needS >>= f)) priv := s.traps_of_needS h 4 f
  refine ⟨exec_eret_priv h, checked _, checked _, checked _, checked _, fun hm => ?_⟩
  have privileged : ∀ n ∈ [0x00B, 0x100, 0x101, 0x106, 0x107, 0x110, 0x200, 0x201, 0x206],
      mregKnown n = true ∧ Level.u.ge (mwrLevel n) = false := by decide
  obtain ⟨known, refused⟩ := privileged _ hm
  exact exec_mwr_priv a known (h ▸ refused)

/-! Withdrawals (R63, R273). -/

/-- A field from bit 0 on. -/
theorem bits_from_zero (w : Word) (hi : Nat) : bits w hi 0 = w.toNat % 2 ^ (hi + 1) := by
  unfold bits
  rw [Nat.pow_zero, Nat.div_one, Nat.sub_zero]

/-- A withdrawal of [lo, hi) by the executing hart. -/
def State.isMine (s : State) (lo hi : Nat) (x : Xinv) : Bool :=
  x.hid == s.cur && x.asid == bits (s.mreg mAsid) 11 0 && x.lo == lo && x.hi == hi

section
variable {s : State} {lo hi : Nat} {x : Xinv}

theorem State.withdraw_acked (h : s.xlat.xinv.find? (s.isMine lo hi) = some x) (ha : x.acked = true) :
    s.withdraw lo hi = .ok { s with xlat := { s.xlat with xinv := s.xlat.xinv.erase x } } := by
  unfold State.isMine at h
  rw [State.withdraw, h]
  exact if_pos ha

theorem State.withdraw_unacked (h : s.xlat.xinv.find? (s.isMine lo hi) = some x) (ha : x.acked = false) :
    s.withdraw lo hi = .error (.wait s) := by
  unfold State.isMine at h
  rw [State.withdraw, h]
  exact if_neg (Bool.eq_false_iff.mp ha)

theorem State.withdraw_unsettled (h : s.xlat.xinv.find? (s.isMine lo hi) = none)
    (hd : s.earlierDone s.cur s.drv.nextId .dev false [] = false) : s.withdraw lo hi = .error (.wait s) := by
  unfold State.isMine at h
  rw [State.withdraw, h]
  exact if_neg (Bool.eq_false_iff.mp hd)

theorem State.withdraw_empty (h : s.xlat.xinv.find? (s.isMine lo hi) = none)
    (hd : s.earlierDone s.cur s.drv.nextId .dev false [] = true) (he : lo = hi) :
    s.withdraw lo hi = .ok s.wakeStalls := by
  unfold State.isMine at h
  rw [State.withdraw, h]
  exact (if_pos hd).trans (if_pos he)

theorem State.withdraw_begins (h : s.xlat.xinv.find? (s.isMine lo hi) = none)
    (hd : s.earlierDone s.cur s.drv.nextId .dev false [] = true) (he : lo ≠ hi) :
    s.withdraw lo hi = .error (.wait { s with xlat := { s.xlat with
      xinv := s.xlat.xinv ++ [⟨s.cur, bits (s.mreg mAsid) 11 0, lo, hi, false⟩] } }) := by
  unfold State.isMine at h
  rw [State.withdraw, h]
  exact (if_pos hd).trans (if_neg he)

end

/-- At S and M `xinv` and `xinv.all` are their withdrawals. -/
theorem exec_xinv {s : State} (h : s.me.level ≠ .u) (a b : XR) : exec (.xinv a b) s = complete 4
    (s.withdraw ((s.getX a).toNat % 2 ^ 55) (min (2 ^ 55) ((s.getX a).toNat % 2 ^ 55 + (s.getX b).toNat))) := by
  show execXinv a b s = _
  rw [execXinv, State.needS_of_ne_u h]
  rfl

theorem exec_xinvAll {s : State} (h : s.me.level ≠ .u) : exec .xinvAll s = complete 4 (s.withdraw 0 (2 ^ 55)) := by
  show execXinvAll s = _
  rw [execXinvAll, State.needS_of_ne_u h]
  rfl

/-- Settles O14: the outcomes of a withdrawal, by whether the hart has one of this range under way. -/
theorem xinvResults : Obligations.XinvResults := by
  unfold Obligations.XinvResults
  intro s a b x
  rw [← bits_from_zero (s.mreg mAsid) 11]
  intro lo hi asid mine level
  have range := exec_xinv level a b
  have all := exec_xinvAll level
  refine ⟨fun h ha => ?_, fun h ha => ?_, fun h hd he => ?_, fun h hd he => ?_, fun h hd => ?_, fun h ha => ?_,
    fun h hd => ?_, fun h hd => ?_, fun h ha => ?_⟩
  · rw [range, State.withdraw_acked h ha]; exact complete_goes _ 4
  · rw [all, State.withdraw_acked h ha]; exact complete_goes _ 4
  · rw [range, State.withdraw_begins h hd he]; rfl
  · rw [range, State.withdraw_empty h hd he]; exact complete_goes _ 4
  · rw [range, State.withdraw_unsettled h hd]; rfl
  · rw [range, State.withdraw_unacked h ha]; rfl
  · rw [all, State.withdraw_begins h hd (by decide)]; rfl
  · rw [all, State.withdraw_unsettled h hd]; rfl
  · rw [all, State.withdraw_unacked h ha]; rfl

end Sys2Proof.Machine

/-!
PROOFS. Events of harts, of the memory system and of the engines, each under its condition (R63, R106, R132, R135, R141,
R142, R146, R185, R191, R208, R270).
-/
namespace Sys2Proof.Machine

/-! Harts (R185, R191, R270). -/

section
variable {s t : State} {hid : Nat}

theorem exec_interruptDelivery {sub : Nat} (takes : s.takesIrq hid = true) (pending : s.pendingIrq hid sub = true)
    (boundary : s.atBoundary hid = true) :
    exec (.interruptDelivery hid sub) s = .next ((s.clearIrq hid sub).boundaryTrap hid .interrupt sub 0 false 0) :=
  if_pos (by rw [takes, pending, boundary]; rfl)

theorem exec_deferredFaultRaise {w v : Word} {rest : List (Word × Word)} (oldest : (s.hart hid).deferred = (w, v) :: rest)
    (boundary : s.atBoundary hid = true) :
    exec (.deferredFaultRaise hid) s = .next ((s.setHart hid { s.hart hid with deferred := rest }).boundaryTrap hid
      (Cause.ofCode (w.toNat % 2 ^ 8)) (bits w 31 16) v.toNat true (bits w 39 32)) := by
  show execDeferredFaultRaise hid s = _
  rw [execDeferredFaultRaise, oldest, ← bits_from_zero w 7]
  exact if_pos boundary

theorem exec_waitTimeout {k deadline : Nat} (waits : (s.hart hid).waiting = .word none k deadline)
    (due : deadline ≤ s.clk) :
    exec (.waitTimeout hid) s = .next (s.setHart hid { s.hart hid with waiting := .no }) := by
  show execWaitTimeout hid s = _
  rw [execWaitTimeout, waits]
  exact if_pos due

end

/-! Spills (R106). -/

/-- One more in counter k of a context slot's bank, where there is one. -/
def State.countFor (s : State) (slot : Option Nat) (k : Nat) : State := slot.elim s fun n => s.count n k 1

section
variable (s : State) (slot : Option Nat) (k : Nat)

@[simp] theorem State.countFor_harts : (s.countFor slot k).harts = s.harts := by
  cases slot with
  | none => rfl
  | some n => exact s.count_harts ..

@[simp] theorem State.countFor_mem : (s.countFor slot k).mem = s.mem := by
  cases slot with
  | none => rfl
  | some n => exact s.count_mem ..

@[simp] theorem State.countFor_ticket : (s.countFor slot k).ticket = s.ticket := by
  cases slot with
  | none => rfl
  | some n => exact s.count_ticket ..

end

section
variable (s : State) (hid reg : Nat)

@[simp] theorem State.renew_harts (k n : Nat) : (s.renew k n).harts = s.harts := by unfold State.renew; split <;> rfl
@[simp] theorem State.renew_mem (k n : Nat) : (s.renew k n).mem = s.mem := by unfold State.renew; split <;> rfl

theorem State.dropFrame_spilled (n : Nat) :
    ((s.dropFrame hid reg n).hart hid).spilled = (s.hart hid).spilled ++ [(reg, n)] := by
  unfold State.dropFrame
  dsimp only
  rw [State.setCore_hart, State.hart_of_harts (State.renew_harts ..), State.hart_setHart_same]

theorem State.dropFrame_mem (n : Nat) : (s.dropFrame hid reg n).mem = s.mem := by
  unfold State.dropFrame
  dsimp only
  rw [State.setCore_mem, State.renew_mem, State.setHart_mem]

/-- The bytes of its image that a spill of a register keeps (R106). -/
def State.spillSize : Nat := (s.hart hid).frameBytes reg (s.vgrant hid)

/-- The register's backing area already holds them. -/
def State.spillClean : Bool := (s.hart hid).clean.any fun r => r.1 == reg && decide (s.spillSize hid reg ≤ r.2)

/-- The register's place in the hart's registers. -/
def State.spillImage : SMap Byte :=
  ((s.hart hid).v.filter fun b => 0x4000 * reg ≤ b.1 && b.1 < 0x4000 * reg + 0x4000).map fun b => (b.1 - 0x4000 * reg, b.2)

/-- The writes of a spill to the backing area. -/
def State.spillWrites : Except (Option Trap) State :=
  spillPages s hid (((s.hart hid).mreg mRbs).toNat + 0x4000 * reg) (s.spillSize hid reg) (s.spillImage hid reg)
    (ceilDiv (s.spillSize hid reg) 4096) 0

/-- A spill of a register can begin: it is resident, and no access under way will reach it. -/
structure State.Spillable : Prop where
  placed : (s.hart hid).task.isSome = true
  named : reg < 32
  resident : (s.hart hid).isSpilled reg = false
  quiet : s.regPending hid reg = false

variable {s hid reg} (can : s.Spillable hid reg)
include can

theorem State.Spillable.guard : ¬ ((s.hart hid).task.isNone || decide (32 ≤ reg) || (s.hart hid).isSpilled reg ||
    s.regPending hid reg) = true := by
  obtain ⟨placed, named, resident, quiet⟩ := can
  have has_task : (s.hart hid).task.isNone = false := by rw [Option.isNone_eq_false_iff]; exact placed
  rw [has_task, resident, quiet, decide_eq_false (Nat.not_le.mpr named)]
  exact Bool.false_ne_true

theorem State.spillReg_clean (clean : s.spillClean hid reg = true) :
    s.spillReg hid reg = some (s.dropFrame hid reg (s.spillSize hid reg)) := by
  unfold State.spillReg
  exact (if_neg can.guard).trans (if_pos clean)

theorem State.spillReg_bad (dirty : s.spillClean hid reg = false)
    (bad : s.isBad (regKey hid (0x4000 * reg)) (s.spillSize hid reg) = true) :
    s.spillReg hid reg = some (s.spillFault hid (Trap.at0 .dataerr 1 0)) := by
  unfold State.spillReg
  exact ((if_neg can.guard).trans (if_neg (Bool.eq_false_iff.mp dirty))).trans (if_pos bad)

/-- A dirty register whose words are correct is written first; a fault of a write leaves it resident. -/
theorem State.spillReg_faults {tr : Trap} (dirty : s.spillClean hid reg = false)
    (sound : s.isBad (regKey hid (0x4000 * reg)) (s.spillSize hid reg) = false)
    (writes : s.spillWrites hid reg = .error (some tr)) : s.spillReg hid reg = some (s.spillFault hid tr) := by
  refine (if_neg can.guard).trans ((if_neg (Bool.eq_false_iff.mp dirty)).trans
    ((if_neg (Bool.eq_false_iff.mp sound)).trans ?_))
  unfold State.spillWrites State.spillSize State.spillImage at writes
  rw [writes]

theorem State.spillReg_written {t : State} (dirty : s.spillClean hid reg = false)
    (sound : s.isBad (regKey hid (0x4000 * reg)) (s.spillSize hid reg) = false)
    (writes : s.spillWrites hid reg = .ok t) :
    s.spillReg hid reg = some ((t.countFor (s.hart hid).slot 25).dropFrame hid reg (s.spillSize hid reg)) := by
  refine (if_neg can.guard).trans ((if_neg (Bool.eq_false_iff.mp dirty)).trans
    ((if_neg (Bool.eq_false_iff.mp sound)).trans ?_))
  unfold State.spillWrites State.spillSize State.spillImage at writes
  rw [writes]
  cases (s.hart hid).slot <;> rfl

end

theorem exec_registerSpill {s t : State} {hid reg : Nat} (h : s.spillReg hid reg = some t) :
    exec (.registerSpill hid reg) s = .next t := by
  show Host.Outcome.next ((s.spillReg hid reg).getD s) = _
  rw [h]
  rfl

/-! Held accesses, drains and tickets (R132, R135, R141). -/

section
variable {s t : State} {hid item k : Nat} {b : BagItem}

theorem exec_memoryRead (listed : (s.hmem hid).bag[item]? = some b) (plain : b.sc = false)
    (performs : s.performItem hid item = some t) : exec (.memoryRead hid item) s = .next t := by
  show execMemoryRead hid item s = _
  unfold execMemoryRead
  rw [listed]
  dsimp only
  rw [plain, performs]
  rfl

theorem exec_memoryRead_beyond (beyond : (s.hmem hid).bag[item]? = none) :
    exec (.memoryRead hid item) s = .next (s.postDue hid) := by
  show execMemoryRead hid item s = _
  unfold execMemoryRead
  rw [beyond]

theorem exec_drain {place : Place} (drains : s.drain place k = some t) : exec (.drain place k) s = .next t := by
  show execDrain place k s = _
  rw [execDrain, drains]

/-- The only access of a bag, an `.sc` one, draws the next ticket. -/
theorem exec_ticket (only : (s.hmem hid).bag = [b]) (sc : b.sc = true) (performs : s.performItem hid 0 = some t) :
    exec (.ticket hid) s = .next (({ t with ticket := t.ticket + 1 } : State).countFor (t.hart hid).slot 26) := by
  have first : ((List.range [b].length).find? fun k => ([b][k]?).any (·.sc)) = some 0 := by simp [sc]
  show execTicket hid s = _
  unfold execTicket
  dsimp only
  rw [only, first]
  dsimp only
  rw [performs]
  have same : ({ t with ticket := t.ticket + 1 } : State).hart hid = t.hart hid := rfl
  dsimp only
  rw [same]
  cases (t.hart hid).slot <;> rfl

end

/-! Engines (R142, R144, R146). -/

section
variable (s : State)

@[simp] theorem State.traceRec_harts (q typ : Nat) (hid task : Option Nat) (payload : Nat) :
    (s.traceRec q typ hid task payload).harts = s.harts := by
  unfold State.traceRec State.traceAs
  extract_lets c r st pos hub sent st1 n hub1 stored
  have sent_harts : sent.harts = s.harts := by
    unfold sent
    split <;> rfl
  split
  · split
    · exact (State.setHreg_harts ..).trans sent_harts
    · rw [State.setHreg_harts, State.renew_harts]
      exact sent_harts
  · rfl

@[simp] theorem State.leftSpads_harts (c : Copy) : (s.leftSpads c).harts = s.harts :=
  State.foldl_keep _ State.harts (fun s _ => s.setCore_harts ..) _ _

variable (q : Nat)

/-- The end of a copy without a task designator touches no hart (R144, R324). -/
theorem State.finishCopy_harts {c : Copy} (none_named : bits c.des 63 62 ≠ 1) : (s.finishCopy q c).harts = s.harts := by
  unfold State.finishCopy State.dequeue
  dsimp only
  rw [if_neg none_named, State.traceRec_harts, State.leftSpads_harts, State.setEngQ_harts]

variable (k n : Nat) {c : Copy}

theorem State.chunkDone_harts (none_named : bits c.des 63 62 ≠ 1) : (s.chunkDone q c k n).harts = s.harts := by
  unfold State.chunkDone
  extract_lets e counted
  have counted_harts : counted.harts = s.harts := by
    unfold counted
    rw [State.count_harts, State.setCopy, State.setEngQ_harts]
  split
  · exact (State.finishCopy_harts (c := e) counted q none_named).trans counted_harts
  · exact counted_harts

/-- A chunk that is not the last one leaves its copy in the queue. -/
theorem State.chunkDone_mem (more : c.done.length + 1 < c.chunks) : (s.chunkDone q c k n).mem = s.mem := by
  have unfinished : ¬ (c.done ++ [k]).length = c.chunks := by
    rw [List.length_append, List.length_singleton]
    exact Nat.ne_of_lt more
  unfold State.chunkDone
  refine (congrArg State.mem (if_neg unfinished)).trans ?_
  rw [State.count_mem, State.setCopy, State.setEngQ_mem]

end

section
variable {s u : State} {q eq k n : Nat} {c : Copy}

/-- A strip is no chunk of an engine step (R146). -/
theorem State.stripLost_of_chunkReady (ready : s.chunkReady q c k = true) : s.stripLost c k = false := by
  have chunked : (c.kind != .cpym) = true := by
    unfold State.chunkReady at ready
    simp only [Bool.and_eq_true] at ready
    obtain ⟨⟨⟨⟨chunked, _⟩, _⟩, _⟩, _⟩ := ready
    exact chunked
  have other : (c.kind == .cpym) = false := by simpa using chunked
  unfold State.stripLost
  rw [other]
  rfl

theorem exec_engineChunk (entry : s.copyAt q eq = some c) (ready : s.chunkReady q c k = true) (clear : c.stall = []) :
    exec (.engineChunk q eq k) s = .next (s.runChunk q c k) := by
  show execEngineChunk q eq k s = _
  unfold execEngineChunk
  rw [entry]
  dsimp only
  rw [State.stripLost_of_chunkReady ready, ready, clear]
  rfl

theorem exec_engineMigRetry {due : Nat} (entry : s.copyAt q eq = some c) (ready : s.chunkReady q c k = true)
    (waits : c.stall = [(k, due)]) (late : due ≤ s.clk) :
    exec (.engineMigRetry q eq) s = .next (s.runChunk q c k) := by
  have first : ([(k, due)].find? fun x : Nat × Nat => decide (x.2 ≤ s.clk)) = some (k, due) := by simp [late]
  show execEngineMigRetry q eq s = _
  unfold execEngineMigRetry
  rw [entry]
  dsimp only
  rw [waits, first]
  exact if_pos ready

/-- A chunk that waits for nothing performs its effect. -/
theorem State.runChunk_of_effect (clear : c.stall = [])
    (effect : s.chunkEffect q { c with started := true, stall := [] } k = .ok (u, n)) :
    s.runChunk q c k = u.chunkDone q { c with started := true, stall := [] } k n := by
  unfold State.runChunk
  dsimp only
  rw [clear, List.filter_nil, effect]

/-- A strip that has started lands with the sender's tag, length and elements, as they stood at issue (R146). -/
theorem exec_stripLand {hid i key : Nat} {f : RxFrame} (entry : (s.hart hid).rx[i]? = some f)
    (placed : (s.hart hid).task = some key)
    (sender : s.copies.find? (fun e => e.2.kind == .cpym && e.2.task == key && e.2.member == f.sender &&
      e.2.ino == f.ino) = some (q, c))
    (waits : f.landed = false) (started : c.started = true) :
    exec (.stripLand hid i) s = .next ((s.setHart hid { s.hart hid with
        rx := (s.hart hid).rx.set i { f with landed := true, tag := c.tag, len := c.vl, bytes := c.image } }).chunkDone q
      { c with started := true } (s.hart hid).member (ceilDiv (c.vl * c.tag.width) 8)) := by
  show execStripLand hid i s = _
  unfold execStripLand
  dsimp only
  rw [entry, placed]
  dsimp only
  rw [sender]
  dsimp only
  rw [waits, started]
  rfl

end

/-! Withdrawals (R63). -/

/-- The withdrawal of a hart that every unit has acknowledged. -/
theorem exec_xinvComplete {s : State} {hid : Nat} {x : Xinv}
    (due : s.xlat.xinv.find? (fun x => x.hid == hid && !x.acked && s.rangeSettled x.lo x.hi) = some x) :
    exec (.xinvComplete hid) s = .next (({ s with xlat := { s.xlat with xinv := s.xlat.xinv.map fun y =>
      if y = x then { y with acked := true } else y } } : State).dropXlat x.asid x.lo x.hi).wakeStalls := by
  show execXinvComplete hid s = _
  unfold execXinvComplete
  rw [due]

/-- No translation of a range that is dropped stays cached for its address space (R63). -/
theorem State.dropXlat_tlb {s : State} {asid lo hi : Nat} (range : lo < hi) :
    ∀ t ∈ (s.dropXlat asid lo hi).xlat.tlb,
      ¬((t.asid = asid ∨ t.global = true) ∧ t.base < hi ∧ lo < t.base + t.size) := by
  rintro t ht ⟨space, above, below⟩
  obtain ⟨other, narrow⟩ : ¬t.asid = asid ∧ t.global = false := by
    simpa [range, above, below] using (List.mem_filter.mp ht).2
  exact space.elim other fun wide => Bool.false_ne_true (narrow.symm.trans wide)

/-! PC samples (R208). -/

/-- The sample control words and the counters of a context are apart. -/
theorem oSmpctl_ne_oCounter (slot k : Nat) : oSmpctl slot ≠ oCounter slot k := by
  unfold oSmpctl oCounter
  omega

/-- Where the ring of a context's samples stands after one more (R208). -/
def State.sampleHead (s : State) (slot : Nat) : Nat :=
  (bits (s.hreg (oSmpctl slot)) 47 32 + 1) % 2 ^ max 4 (bits (s.hreg (oSmpctl slot)) 15 12)

/-- A ring has at most 2^15 entries, so its head fits its field. -/
theorem State.sampleHead_lt (s : State) (slot : Nat) : s.sampleHead slot < 2 ^ 16 := by
  have size : bits (s.hreg (oSmpctl slot)) 15 12 < 2 ^ 4 := Nat.mod_lt _ (by decide)
  calc s.sampleHead slot
    _ < 2 ^ max 4 (bits (s.hreg (oSmpctl slot)) 15 12) := Nat.mod_lt _ (Nat.two_pow_pos _)
    _ ≤ 2 ^ 16 := Nat.pow_le_pow_right (by decide) (by omega)

theorem exec_pcSample {s : State} {slot core hid : Nat} (turn : s.sampled slot core = some hid)
    (on : (s.hreg (oSmpctl slot)).getLsbD 63 = true) (period : bits (s.hreg (oSmpctl slot)) 11 0 ≠ 0)
    (due : SMap.get 0 s.hub.smpAt (64 * core + slot) + 64 * bits (s.hreg (oSmpctl slot)) 11 0 ≤ s.clk)
    (room : s.sampleHead slot ≠ bits (s.hreg (oSmpctl slot)) 31 16) :
    ∃ u, exec (.pcSample slot core) s = .next u ∧ bits (u.hreg (oSmpctl slot)) 47 32 = s.sampleHead slot ∧
      u.harts = s.harts := by
  have sampling : (bit (s.hreg (oSmpctl slot)) 63 && bits (s.hreg (oSmpctl slot)) 11 0 != 0 &&
      decide (SMap.get 0 s.hub.smpAt (64 * core + slot) + 64 * bits (s.hreg (oSmpctl slot)) 11 0 ≤ s.clk)) = true := by
    rw [bit, on, bne_iff_ne.mpr period, decide_eq_true due]; rfl
  have run : ∃ e : State, exec (.pcSample slot core) s = .next ((e.setHreg (oSmpctl slot)
      (setBits (s.hreg (oSmpctl slot)) 47 32 (s.sampleHead slot))).count slot 27 1) ∧ e.harts = s.harts := by
    show ∃ e, execPcSample slot core s = _ ∧ _
    unfold State.sampleHead at room ⊢
    unfold execPcSample
    rw [turn]
    dsimp only
    rw [if_pos sampling, if_neg room]
    refine ⟨_, rfl, ?_⟩
    rw [State.writeHome_harts, State.writeHome_harts, State.writeHome_harts, State.writeHome_harts]
  obtain ⟨e, run, harts⟩ := run
  refine ⟨_, run, ?_, ?_⟩
  · rw [State.hreg_count, if_neg fun h => oSmpctl_ne_oCounter slot 27 h.2, State.hreg_setHreg_same,
      bits_setBits _ _ (by decide) (by decide)]
    exact Nat.mod_eq_of_lt (s.sampleHead_lt slot)
  · rw [State.count_harts, State.setHreg_harts, harts]

/-- Settles O55: each event by its own lemma; spills by the checks that a spillable register passes. -/
theorem memoryAndHartEvents : Obligations.MemoryAndHartEvents := by
  unfold Obligations.MemoryAndHartEvents
  refine ⟨?parts, ?engines, ?strips, ?rest⟩
  case parts =>
    intro s hid sub reg item k n place t w v rest b
    refine ⟨exec_interruptDelivery, exec_deferredFaultRaise, exec_waitTimeout, ?spills, exec_memoryRead,
      exec_memoryRead_beyond, exec_drain, ?ticket⟩
    case spills =>
      intro h size image clean pages placed named resident quiet
      have can : s.Spillable hid reg := ⟨placed, named, resident, quiet⟩
      refine ⟨fun hc => exec_registerSpill (State.spillReg_clean can hc),
        fun hc bad => exec_registerSpill (State.spillReg_bad can hc bad),
        fun tr hc sound writes => exec_registerSpill (State.spillReg_faults can hc sound writes),
        fun hc sound writes => ⟨_, exec_registerSpill (State.spillReg_written can hc sound writes), ?_, ?_⟩⟩
      · rw [State.dropFrame_spilled, State.hart_of_harts (State.countFor_harts ..)]
        rfl
      · rw [State.dropFrame_mem, State.countFor_mem]
    case ticket =>
      intro only sc performs
      exact ⟨_, exec_ticket only sc performs, State.countFor_ticket .., State.countFor_mem ..⟩
  case engines =>
    intro s q eq k c entry ready
    refine ⟨exec_engineChunk entry ready, fun d => exec_engineMigRetry entry ready, fun u n effect clear more => ?_⟩
    rw [State.runChunk_of_effect clear effect]
    exact State.chunkDone_mem _ _ _ _ more
  case strips =>
    intro s hid i key q f c hit entry placed sender waits started des
    have none_named : bits c.des 63 62 ≠ 1 := by rw [des]; decide
    have listed : i < (s.hart hid).rx.length := (List.getElem?_eq_some_iff.mp entry).1
    refine ⟨_, exec_stripLand entry placed sender waits started,
      { f with landed := true, tag := c.tag, len := c.vl, bytes := c.image }, ?_, rfl, rfl, rfl, rfl⟩
    rw [State.hart_of_harts (State.chunkDone_harts (c := { c with started := true }) _ _ _ _ none_named),
      State.hart_setHart_same]
    exact List.getElem?_set_self listed
  case rest =>
    intro s hid slot core x
    refine ⟨fun due range => ⟨_, exec_xinvComplete due, ?_, State.dropXlat_tlb range⟩, exec_pcSample⟩
    exact List.mem_map.mpr ⟨x, List.mem_of_find?_eq_some due, if_pos rfl⟩

end Sys2Proof.Machine

/-!
PROOFS. Packets: the queue takes one up, and one that waits completes once its condition holds (R52 to R56, R69, R204).
-/
namespace Sys2Proof.Machine

section
variable {s t : State} {n : Nat}

/-! What the end of a packet writes (R52). -/

@[simp] theorem State.setLq_hreg (q : LQueue) (o : Nat) : (s.setLq n q).hreg o = s.hreg o := State.hreg_of_hub rfl o

theorem State.lqNext_hreg {o : Nat} (other : o ≠ oLqhead n) : (s.lqNext n).hreg o = s.hreg o := by
  unfold State.lqNext
  dsimp only
  rw [State.setLq_hreg, State.hreg_setHreg, if_neg other]

theorem State.lqNext_st : ((s.lqNext n).lq n).st = .none :=
  congrArg LQueue.st (SMap.get_set_same ..)

/-! Taking a packet up (R52, R54). -/

/-- The queue runs, its last packet is complete, and another one stands at its head. -/
structure State.Fetches (s : State) (n : Nat) : Prop where
  queue : n < 64
  runs : s.lqRuns n = true
  idle : (s.lq n).st = .none
  more : s.lqHead n ≠ s.lqTail n

theorem State.Fetches.not_kill (h : s.Fetches n) :
    ¬ (n < 64 && s.lqRuns n && (s.lq n).st == .kill && (s.lq n).kills.isEmpty) = true := by
  simp [h.idle]

theorem State.Fetches.guard (h : s.Fetches n) :
    (n < 64 && s.lqRuns n && (s.lq n).st == .none && s.lqHead n != s.lqTail n) = true := by
  simp [h.queue, h.runs, h.idle, h.more]

theorem exec_packetFetch (h : s.Fetches n) (passes : s.takePacket n = .ok t) :
    exec (.packetFetch n) s = .next t := by
  refine (if_neg h.not_kill).trans ((if_pos h.guard).trans ?_)
  rw [passes]

theorem exec_packetFetch_fails {code : Nat} (h : s.Fetches n) (fails : s.takePacket n = .error code) :
    exec (.packetFetch n) s = .next (s.lqStop n code) := by
  refine (if_neg h.not_kill).trans ((if_pos h.guard).trans ?_)
  rw [fails]

/-- A KILL packet completes once the tasks that it killed are DONE (R53). -/
theorem exec_packetFetch_kill (hn : n < 64) (runs : s.lqRuns n = true) (kill : (s.lq n).st = .kill)
    (ended : (s.lq n).kills = []) : exec (.packetFetch n) s = .next (s.lqNext n) :=
  if_pos (by simp [hn, runs, kill, ended])

theorem exec_packetFetch_killing (kill : (s.lq n).st = .kill) (left : (s.lq n).kills ≠ []) :
    exec (.packetFetch n) s = .next s :=
  (if_neg (by simp [left])).trans (if_neg (by simp [kill]))

/-! Packets that wait (R53, R56, R69, R204). -/

theorem State.lqIn_of {st : PktSt} (runs : s.lqRuns n = true) (h : (s.lq n).st = st) : s.lqIn n st = true := by
  rw [State.lqIn, runs, h, beq_self_eq_true]
  rfl

theorem exec_waitPacketComplete (runs : s.lqRuns n = true) (wait : (s.lq n).st = .wait)
    (empty : (s.task (65536 * n + bits (pktWord (s.lq n).pkt 2) 15 0)).st = .empty) :
    exec (.waitPacketComplete n) s = .next (s.lqNext n) := by
  show execWaitPacketComplete n s = _
  unfold execWaitPacketComplete
  dsimp only
  rw [State.lqIn_of runs wait, empty]
  rfl

/-- A bank that is stopped already: its record alone is written (R204). -/
theorem exec_counterFreeze (runs : s.lqRuns n = true) (stop : (s.lq n).st = .stop) (earlier : (s.lq n).out = [])
    (stopped : (s.hreg (oCbctl n)).getLsbD 0 = false)
    (writes : s.writeRecord n (bits (pktWord (s.lq n).pkt 1) 54 0) (s.record n) = .ok t) :
    exec (.counterFreeze n) s = .next (t.lqNext n) := by
  show execCounterFreeze n s = _
  unfold execCounterFreeze
  rw [State.lqIn_of runs stop, earlier]
  dsimp only
  rw [bit, stopped, if_neg Bool.false_ne_true, writes]
  rfl

/-- A FENCE without a value and a vector. -/
theorem exec_fenceRelease (runs : s.lqRuns n = true) (fence : (s.lq n).st = .fence) (earlier : (s.lq n).out = [])
    (covered : s.fenceCovers (s.lq n) = true) (silent : bits (pktWord (s.lq n).pkt 3) 12 11 = 0) :
    exec (.fenceRelease n) s = .next ((s.setLq n { s.lq n with obs := [], ended := [] }).lqNext n) := by
  have no_vector : bit (pktWord (s.lq n).pkt 3) 11 = false := by
    rw [bit, ← testBit_bits (hi := 12) (i := 0) _ (by decide), silent, Nat.zero_testBit]
  have no_value : bit (pktWord (s.lq n).pkt 3) 12 = false := by
    rw [bit, ← testBit_bits (hi := 12) (lo := 11) (i := 1) _ (by decide), silent, Nat.zero_testBit]
  show execFenceRelease n s = _
  unfold execFenceRelease
  dsimp only
  rw [State.lqIn_of runs fence, earlier, covered, no_value, no_vector]
  rfl

theorem exec_fenceRelease_waits (uncovered : s.fenceCovers (s.lq n) = false) :
    exec (.fenceRelease n) s = .next s :=
  if_neg (by simp [uncovered])

/-- CTXDROP leaves the context unbound, its bank stopped and its queue idle (R56). -/
theorem exec_ctxdropUnbind (hn : n < 64) (runs : s.lqRuns n = true) (drop : (s.lq n).st = .drop)
    (none_left : s.tasksOf n = []) (no_copies : s.copies = []) :
    ∃ u, exec (.ctxdropUnbind n) s = .next u ∧ (u.hreg (oCtxst n)).getLsbD 63 = false ∧ u.hreg (oCbctl n) = 0 ∧
      (u.lq n).st = .none := by
  have unbound_ne_head : oCtxst n ≠ oLqhead n := by unfold oCtxst oLqhead; omega
  have bank_ne_head : oCbctl n ≠ oLqhead n := by unfold oCbctl oLqhead; omega
  have unbound_ne_bank : oCtxst n ≠ oCbctl n := by unfold oCtxst oCbctl; omega
  have run : ∃ (e : State) (q : LQueue), exec (.ctxdropUnbind n) s =
      .next ((((e.setHreg (oCtxst n) (setBits (s.hreg (oCtxst n)) 63 63 0)).setHreg (oCbctl n) 0).setLq n q).lqNext n) := by
    refine ⟨_, _, if_pos ?_⟩
    rw [State.lqIn_of runs drop, none_left, no_copies]
    rfl
  obtain ⟨e, q, run⟩ := run
  refine ⟨_, run, ?_, ?_, State.lqNext_st⟩
  · rw [State.lqNext_hreg unbound_ne_head, State.setLq_hreg, State.hreg_setHreg, if_neg unbound_ne_bank,
      State.hreg_setHreg_same, getLsbD_setBits _ _ _ _ _ (by decide) (by decide)]
    rfl
  · rw [State.lqNext_hreg bank_ne_head, State.setLq_hreg, State.hreg_setHreg_same]

end

end Sys2Proof.Machine

/-!
PROOFS. Power: the cap of a die, gated ways and scratchpads, and their waking (R83, R116, R125 to R127).
-/
namespace Sys2Proof.Machine

/-! The cap of a die (R83). -/

/-- A field keeps its value where another field is written, below it. -/
theorem bits_setBits_below (w : Word) {hi lo p q : Nat} (v : Nat) (hq : q ≤ p) (below : p < lo) (hhi : hi < 64) :
    bits (setBits w p q v) hi lo = bits w hi lo := by
  refine Nat.eq_of_testBit_eq fun i => ?_
  by_cases within : i < hi + 1 - lo
  · rw [testBit_bits _ within, testBit_bits _ within, getLsbD_setBits _ _ _ _ _ hq (by omega), if_neg (by omega)]
  · simp [bits, within]

theorem State.markGroups_hub (s : State) (q : Nat) : (s.markGroups q).hub = s.hub := by
  unfold State.markGroups
  refine State.foldl_keep _ State.hub (fun s i => State.foldl_keep _ State.hub (fun s g => ?_) _ s) _ s
  dsimp only
  split
  · rfl
  · split <;> rfl

theorem exec_powerCapUpdate {s : State} {die cap : Nat} (hd : die < 4) (lo : 1 ≤ cap) (hi : cap ≤ 8) :
    ∃ t, exec (.powerCapUpdate die cap) s = .next t ∧ t.cap die = cap := by
  refine ⟨_, if_pos ⟨hd, lo, hi⟩, ?_⟩
  rw [State.cap, State.hreg_of_hub (congrArg Hub.reg (State.markGroups_hub ..)), State.hreg_setHreg_same]
  split
  · next same => exact same
  · rw [bits_setBits_below _ _ (by decide) (by decide) (by decide), bits_setBits _ _ (by decide) (by decide)]
    exact Nat.mod_eq_of_lt (by omega)

/-! Gated ways (R125). -/

/-- A span that comes to be dirty is of the frame that was written. -/
theorem frame_of_mem_markDirty {l : List DirtySpan} {q f words clk : Nat} {d : DirtySpan}
    (hd : d ∈ markDirty l q f words clk) : d.frame = f ∨ ∃ e ∈ l, e.frame = d.frame := by
  unfold markDirty at hd
  split at hd
  · obtain ⟨e, he, rfl⟩ := List.mem_map.mp hd
    right
    refine ⟨e, he, ?_⟩
    split
    · next same => exact same ▸ rfl
    · rfl
  · rcases List.mem_append.mp hd with old | new
    · exact .inr ⟨d, old, rfl⟩
    · rw [List.mem_singleton.mp new]; exact .inl rfl

section
variable (s : State) (q f : Nat)

theorem State.mergeHome_l2 (w : Nat) : (s.mergeHome f w).coh.l2 = s.coh.l2 := by
  unfold State.mergeHome; dsimp only; split <;> rfl

theorem State.mergeAt_home (w : Nat) : s.mergeAt (homeDie f) f w = if w = 0 then s else s.mergeHome f w := by
  unfold State.mergeAt
  rw [if_pos rfl]

theorem State.gateFrame_dir : (s.gateFrame q f).coh.dir = s.coh.dir := by
  unfold State.gateFrame
  dsimp only
  split
  · split <;> rfl
  · split
    · rw [State.mergeAt_home]
      split
      · rfl
      · rw [State.mergeHome_dir]; rfl
    · rfl

/-- The frame's ways are given back, and no other. -/
theorem State.gateFrame_l2 :
    (s.gateFrame q f).coh.l2 = s.coh.l2.filter fun w => !(w.die == q && w.frame == f) := by
  unfold State.gateFrame
  dsimp only
  split
  · split <;> rfl
  · split
    · rw [State.mergeAt_home]
      split
      · rfl
      · rw [State.mergeHome_l2]; rfl
    · rfl

/-- No word of a frame is dirty in a home slice. -/
def State.HomeClean (s : State) (f : Nat) : Prop := ∀ d ∈ s.coh.dirty, d.frame ≠ f

variable {s q f}

/-- The home's ways of a frame go with its dirty words written back. -/
theorem State.gateFrame_homeClean (home : homeDie f = q) : (s.gateFrame q f).HomeClean f := by
  have cleaned : ((s.dropWays q f).homeClean f).HomeClean f := fun d hd => by
    have kept := (List.mem_filter.mp hd).2
    exact bne_iff_ne.mp kept
  unfold State.gateFrame
  dsimp only
  rw [if_pos home.symm]
  split <;> exact cleaned

/-- A guest's words reach the home of their own frame. -/
theorem State.gateFrame_keeps_homeClean {g : Nat} (home : homeDie f = q) (clean : s.HomeClean f) :
    (s.gateFrame q g).HomeClean f := by
  unfold State.gateFrame
  dsimp only
  split
  · have kept : ((s.dropWays q g).homeClean g).HomeClean f := fun d hd => clean d (List.mem_filter.mp hd).1
    split <;> exact kept
  · next guest =>
    split
    · rw [State.mergeAt_home]
      split
      · exact clean
      · unfold State.mergeHome
        dsimp only
        split
        · intro d hd same
          rcases frame_of_mem_markDirty hd with written | ⟨e, he, frame⟩
          · exact guest (by rw [← written, same, home])
          · exact clean e he (frame.trans same)
        · exact clean
    · exact clean

end

/-- The frames that leave with a group of ways. -/
def State.gateFrames (s : State) (die : Nat) (l : List Way) : State := l.foldl (fun s w => s.gateFrame die w.frame) s

section
variable {s : State} {die : Nat} {l : List Way} {w : Way}

theorem State.gateFrames_dir : (s.gateFrames die l).coh.dir = s.coh.dir :=
  State.foldl_keep (fun s (w : Way) => s.gateFrame die w.frame) (·.coh.dir) (fun s w => s.gateFrame_dir die w.frame) l s

theorem State.mem_l2_of_gateFrames (hw : w ∈ (s.gateFrames die l).coh.l2) : w ∈ s.coh.l2 := by
  revert hw
  unfold State.gateFrames
  refine List.foldlRecOn l _ (motive := fun t : State => w ∈ t.coh.l2 → w ∈ s.coh.l2) id fun t ih v _ hw => ih ?_
  rw [State.gateFrame_l2] at hw
  exact (List.mem_filter.mp hw).1

theorem State.not_mem_l2_gateFrames (hw : w ∈ l) (hd : w.die = die) : w ∉ (s.gateFrames die l).coh.l2 := by
  refine State.foldl_reaches (before := fun _ => True) (after := fun t => w ∉ t.coh.l2) hw (fun t _ => ?_)
    (fun _ _ _ _ _ => trivial) (fun v _ t gone => ?_) trivial
  · rw [State.gateFrame_l2]
    simp [hd]
  · rw [State.gateFrame_l2]
    exact fun back => gone (List.mem_filter.mp back).1

theorem State.gateFrames_homeClean (hw : w ∈ l) (home : homeDie w.frame = die) :
    (s.gateFrames die l).HomeClean w.frame :=
  State.foldl_reaches (before := fun _ => True) (after := fun t => t.HomeClean w.frame) hw
    (fun _ _ => State.gateFrame_homeClean home) (fun _ _ _ _ _ => trivial)
    (fun _ _ _ clean => State.gateFrame_keeps_homeClean home clean) trivial

end

/-- The ways of a group of a die. -/
def State.groupWays (s : State) (die group : Nat) : List Way :=
  s.coh.l2.filter fun w => w.die == die && w.way / 4 == group

theorem exec_l2WayGate {s : State} {die g : Nat} (hd : die < 4) (lo : 1 ≤ g) (hi : g ≤ 2)
    (on : 4 * die + g ∉ s.hub.l2gated) (awake : 4 * die + g ∉ s.hub.l2waking) :
    ∃ hub, exec (.l2WayGate die g) s = .next { s.gateFrames die (s.groupWays die g) with hub } ∧
      4 * die + g ∈ hub.l2gated := by
  refine ⟨_, if_pos ⟨hd, lo, by omega, .inl (by omega), by simp [on, awake]⟩,
    List.mem_append_right _ List.mem_cons_self⟩

theorem exec_scratchpadGate {s : State} {c : Nat} (hc : c < 128) (unplaced : s.placedOn c = []) (no_copies : s.copies = [])
    (late : (s.core c).emptySince + 190000 ≤ s.clk) (on : (s.core c).gated = []) (awake : (s.core c).waking = []) :
    exec (.scratchpadGate c) s = .next (s.setCore c { s.core c with gated := List.range 12 }) :=
  if_pos ⟨hc, by rw [unplaced]; rfl, by rw [no_copies]; rfl, late, by rw [on]; rfl, by rw [awake]; rfl⟩

/-! Waking (R116, R127). -/

/-- A range that is replaced by no bytes reads zero. -/
theorem replaceRange_nil_get (m : List Host.Cell) {k n y : Nat} (lo : k ≤ y) (hi : y < k + n) :
    SMap.get (0 : Byte) (replaceRange m k n []) y = 0 := by
  have below : ∀ e ∈ m.filter (fun c => decide (c.1 < k)) ++ cellsIn k (k + n) [], e.1 ≠ y := by
    intro e he
    rw [cellsIn, List.append_nil] at he
    have := of_decide_eq_true (List.mem_filter.mp he).2
    omega
  have above : ∀ e ∈ m.filter (fun c => decide (k + n ≤ c.1)), e.1 ≠ y := by
    intro e he
    have := of_decide_eq_true (List.mem_filter.mp he).2
    omega
  rw [replaceRange, SMap.get_append _ _ _ _ below, ← List.append_nil (m.filter _), SMap.get_append _ _ _ _ above]
  rfl

theorem State.img_wakeZero (s : State) (c : Nat) {o : Nat} (ho : o < winSize) :
    (s.wakeZero c).img (spadKey c o) = 0 := by
  refine replaceRange_nil_get s.mem ?_ ?_
  · unfold spadKey; omega
  · unfold spadKey; omega

theorem exec_wakeComplete_bank {s : State} {c g : Nat} (waking : g ∈ (s.core c).waking) :
    exec (.wakeComplete false c g) s =
      .next ((s.wakeZero c).setCore c { s.core c with waking := (s.core c).waking.erase g }) :=
  if_pos (List.contains_iff_mem.mpr waking)

end Sys2Proof.Machine

/-!
PROOFS. Placement and pre-emption, each event under its condition; and the Ringmaster's events together (R72 to R76, R86,
R196, R374).
-/
namespace Sys2Proof.Machine

/-! Placement (R74 to R76, R196). -/

section
variable {s e : State} {c key : Nat} {m : List (Nat × Nat)}

theorem State.placeFor_of_some (leaves : s.leavesDeque key c = some e) :
    s.placeFor c key m = e.placeAll key (c / 32) m := by
  unfold State.placeFor
  rw [leaves]

theorem State.placeFor_of_none (stays : s.leavesDeque key c = none) : s.placeFor c key m = s := by
  unfold State.placeFor
  rw [stays]

theorem exec_gangPlacement (next : s.nextPlaced c (s.candidates c) = some (key, m)) :
    exec (.gangPlacement c) s = .next (if s.wasSaved key then s else s.placeFor c key m) := by
  show execGangPlacement c s = _
  rw [execGangPlacement, next]

theorem exec_rePlacement (next : s.nextPlaced c (s.candidates c) = some (key, m)) :
    exec (.rePlacement c) s = .next (if s.wasSaved key then s.placeFor c key m else s) := by
  show execRePlacement c s = _
  rw [execRePlacement, next]

theorem exec_gangReserve {q : Nat} (free : SMap.get none s.ring.reserving q = none) (only : s.reservers q = [key]) :
    exec (.gangReserve q) s =
      .next { s with ring := { s.ring with reserving := SMap.set none s.ring.reserving q (some key) } } := by
  show execGangReserve q s = _
  rw [execGangReserve, free, only]
  rfl

end

/-- The task on top of a victim's deque, where it fits on core c (R74). -/
def State.stealable (s : State) (c v : Nat) : Option (Nat × List (Nat × Nat)) :=
  match s.topTask v with
  | some key => (s.fit key (c / 32) (some c)).map fun m => (key, m)
  | none => none

theorem exec_workSteal {s : State} {c key : Nat} {m : List (Nat × Nat)} (idle : s.dequeOf c 0 = [])
    (no_head : s.headFor c = false) (steals : (s.victims c).findSome? (s.stealable c) = some (key, m)) :
    exec (.workSteal c) s = .next (s.placeFor c key m) := by
  refine (if_pos (by rw [idle, no_head]; rfl)).trans ?_
  split
  case h_1 found => cases found.symm.trans steals; rfl
  case h_2 nothing => cases nothing.symm.trans steals

/-! Pre-emption (R83, R86, R374). -/

section
variable {s : State} {slot id : Nat}

theorem exec_gatingMarkTimeout (marked : s.heldMarked (65536 * slot + id) = true) :
    exec (.gatingMarkTimeout slot id) s = .next (s.trigger (65536 * slot + id) .cap) :=
  congrArg Host.Outcome.next (if_pos marked)

theorem exec_arrivalPreemption {q : Nat} {l : List Nat} (waits : s.waitDie (65536 * slot + id) = some q)
    (ready : (s.task (65536 * slot + id)).st = .ready) (unplaced : s.fit (65536 * slot + id) q none = none)
    (still : (s.drained q).fit (65536 * slot + id) q none = none)
    (victims : (s.drained q).chooseVictims (65536 * slot + id) q
      (s.lowerGangs q (s.effPrio (65536 * slot + id))) [] = some l) :
    exec (.arrivalPreemption slot id) s = .next (l.foldl (fun s v => s.trigger v .arrival) s) := by
  show execArrivalPreemption slot id s = _
  unfold execArrivalPreemption
  dsimp only
  rw [waits]
  dsimp only
  rw [ready, unplaced, still, victims]
  rfl

theorem exec_timeSliceExpiry (runs : (s.task (65536 * slot + id)).st = .running) (slice : bits (s.hreg oRmctl) 19 0 ≠ 0)
    (expired : (s.task (65536 * slot + id)).placedAt + bits (s.hreg oRmctl) 19 0 * 1900 ≤ s.clk)
    (waiting : s.contender (s.task (65536 * slot + id)).die (s.task (65536 * slot + id)).prio ≠ none) :
    exec (.timeSliceExpiry slot id) s = .next (s.trigger (65536 * slot + id) .slice) :=
  if_pos ⟨runs, slice, expired, Option.isSome_iff_ne_none.mpr waiting⟩

theorem exec_preemption {why : PreCause} (triggered : (s.task (65536 * slot + id)).pre = some why) :
    exec (.preemption slot id) s = .next (s.preempt (65536 * slot + id) why) := by
  show execPreemption slot id s = _
  rw [execPreemption, triggered]

theorem exec_pendingTableFit {i next : Nat} (ended : (s.task (65536 * slot + id)).st = .done)
    (reader : (s.task (65536 * slot + id)).readerAt = some (i, next)) :
    exec (.pendingTableFit slot id) s = .next (s.abandon (65536 * slot + id) i (some next)) := by
  show execPendingTableFit slot id s = _
  rw [execPendingTableFit, ended, reader]

end

/-- A trigger marks a running gang that none has marked before, where its receive frames have room (R86). -/
theorem State.trigger_pre {s : State} {key : Nat} (runs : (s.task key).st = .running) (first : (s.task key).pre = none)
    (room : s.rxFits (s.task key) = true) (why : PreCause) : ((s.trigger key why).task key).pre = some why := by
  have may : ((s.task key).st == .running && (s.task key).pre.isNone && s.rxFits (s.task key)) = true := by
    rw [runs, first, room]; rfl
  unfold State.trigger
  dsimp only
  rw [if_pos may, State.task_setTask, if_pos rfl]

/-- Settles O54: each event by its own lemma; gated ways by what one frame that leaves does, through all the frames of the
group. -/
theorem ringmasterEvents : Obligations.RingmasterEvents := by
  unfold Obligations.RingmasterEvents
  refine ⟨?packets, ?power, ?scheduler⟩
  case packets =>
    intro s n code t hn q key runs
    refine ⟨fun run idle more => ?_, fun run kill => exec_packetFetch_kill hn run kill,
      fun _ => exec_packetFetch_killing, exec_waitPacketComplete, exec_counterFreeze, exec_fenceRelease,
      exec_fenceRelease_waits, exec_ctxdropUnbind hn⟩
    have fetches : s.Fetches n := ⟨hn, run, idle, more⟩
    exact ⟨exec_packetFetch fetches, exec_packetFetch_fails fetches⟩
  case power =>
    intro s die cap g c u
    refine ⟨exec_powerCapUpdate, fun hd lo hi on awake => ?gate, exec_scratchpadGate, rfl, fun waking => ?wake,
      fun fills => if_pos fills⟩
    case gate =>
      obtain ⟨hub, run, gated⟩ := exec_l2WayGate hd lo hi on awake
      have listed {w : Way} (hw : w ∈ s.coh.l2) (hwd : w.die = die) (hwg : w.way / 4 = g) : w ∈ s.groupWays die g :=
        List.mem_filter.mpr ⟨hw, by simp [hwd, hwg]⟩
      refine ⟨_, run, gated, State.gateFrames_dir, fun w hw ⟨hwd, hwg⟩ => ?_, fun w hw hwd hwg home d hd same => ?_⟩
      · exact State.not_mem_l2_gateFrames (listed (State.mem_l2_of_gateFrames hw) hwd hwg) hwd hw
      · exact State.gateFrames_homeClean (listed hw hwd hwg) home d hd same.2
    case wake =>
      refine ⟨_, exec_wakeComplete_bank waking, ?_, fun o => State.img_wakeZero s c⟩
      rw [State.core_setCore_same]
  case scheduler =>
    intro s c q key slot id i m why l
    refine ⟨fun next => ⟨fun e leaves => ?leaves, fun stays => ?stays⟩, exec_gangReserve,
      fun idle no_head steals e leaves => ?steal, ?preempt⟩
    case leaves =>
      rw [exec_gangPlacement next, exec_rePlacement next, State.placeFor_of_some leaves]
      exact ⟨fun fresh => by rw [fresh]; rfl, fun saved => by rw [saved]; rfl⟩
    case stays =>
      rw [exec_gangPlacement next, exec_rePlacement next, State.placeFor_of_none stays, ite_self]
      exact ⟨rfl, rfl⟩
    case steal =>
      rw [exec_workSteal idle no_head steals, State.placeFor_of_some leaves]
    case preempt =>
      exact ⟨exec_gatingMarkTimeout, exec_arrivalPreemption, exec_timeSliceExpiry, exec_preemption,
        fun _ => exec_pendingTableFit, State.trigger_pre⟩

end Sys2Proof.Machine

/-!
PROOFS. Arrival words: the fields of a word and what one arrival makes of them (R119); and `arw` and `await` at a word that
passes their checks (R332).
-/
namespace Sys2Proof.Machine

/-! The fields of an arrival word (R119). -/

/-- The fields of an arrival word, as numbers: target, count, generation, over, wrap and the reserved bits. -/
structure ArrivalFields where
  target : Nat
  count : Nat
  gen : Nat
  ovr : Nat
  wrap : Nat
  rsvd : Nat

/-- The fields of a word, at their bit positions. -/
def arrivalFields (w : BitVec 128) : ArrivalFields where
  target := w.toNat % 2 ^ 32
  count := w.toNat / 2 ^ 32 % 2 ^ 32
  gen := w.toNat / 2 ^ 64 % 2 ^ 32
  ovr := w.toNat / 2 ^ 96 % 2
  wrap := w.toNat / 2 ^ 97 % 2
  rsvd := w.toNat / 2 ^ 98

namespace ArrivalFields

/-- Each field is within its bits. -/
structure Fits (f : ArrivalFields) : Prop where
  target : f.target < 2 ^ 32
  count : f.count < 2 ^ 32
  gen : f.gen < 2 ^ 32
  ovr : f.ovr < 2
  wrap : f.wrap < 2
  rsvd : f.rsvd < 2 ^ 30

/-- The word that holds the fields. -/
def word (f : ArrivalFields) : BitVec 128 :=
  BitVec.ofNat 128 (f.target + f.count * 2 ^ 32 + f.gen * 2 ^ 64 + f.ovr * 2 ^ 96 + f.wrap * 2 ^ 97 + f.rsvd * 2 ^ 98)

/-- The count after n more bytes, before the target is taken off. -/
def sum (f : ArrivalFields) (n : Nat) : Nat := (f.count + n) % 2 ^ 32

/-- An arrival of n bytes reaches the target. -/
def Hits (f : ArrivalFields) (n : Nat) : Prop := f.target ≠ 0 ∧ f.target ≤ f.sum n

/-- The fields after an arrival that reaches the target. -/
def hit (f : ArrivalFields) (n : Nat) : ArrivalFields :=
  { f with
    count := f.sum n - f.target
    gen := (f.gen + 1) % 2 ^ 32
    ovr := if f.target ≤ f.sum n - f.target then 1 else f.ovr
    wrap := if (f.gen + 1) % 2 ^ 32 = 0 then 1 else f.wrap }

/-- The fields after an arrival that does not. -/
def miss (f : ArrivalFields) (n : Nat) : ArrivalFields := { f with count := f.sum n }

theorem sum_lt (f : ArrivalFields) (n : Nat) : f.sum n < 2 ^ 32 := Nat.mod_lt _ (by decide)

theorem Fits.hit {f : ArrivalFields} (h : f.Fits) (n : Nat) : (f.hit n).Fits where
  target := h.target
  count := Nat.lt_of_le_of_lt (Nat.sub_le _ _) (f.sum_lt n)
  gen := Nat.mod_lt _ (by decide)
  ovr := iteInduction (motive := (· < 2)) (fun _ => Nat.one_lt_two) fun _ => h.ovr
  wrap := iteInduction (motive := (· < 2)) (fun _ => Nat.one_lt_two) fun _ => h.wrap
  rsvd := h.rsvd

theorem Fits.miss {f : ArrivalFields} (h : f.Fits) (n : Nat) : (f.miss n).Fits := { h with count := f.sum_lt n }

/-! The over and wrap bits are sticky. Over is set where a second target is reached, wrap where the generation wraps. -/

theorem hit_ovr_of_ovr {f : ArrivalFields} (n : Nat) (h : f.ovr = 1) : (f.hit n).ovr = 1 :=
  iteInduction (motive := (· = 1)) (fun _ => rfl) fun _ => h

theorem hit_wrap_of_wrap {f : ArrivalFields} (n : Nat) (h : f.wrap = 1) : (f.hit n).wrap = 1 :=
  iteInduction (motive := (· = 1)) (fun _ => rfl) fun _ => h

theorem hit_ovr_of_le {f : ArrivalFields} {n : Nat} (h : f.target ≤ f.sum n - f.target) : (f.hit n).ovr = 1 := if_pos h

theorem hit_wrap_of_last {f : ArrivalFields} (n : Nat) (h : f.gen = 2 ^ 32 - 1) : (f.hit n).wrap = 1 :=
  if_pos (by omega)

end ArrivalFields

theorem arrivalFields_fits (w : BitVec 128) : (arrivalFields w).Fits where
  target := Nat.mod_lt _ (by decide)
  count := Nat.mod_lt _ (by decide)
  gen := Nat.mod_lt _ (by decide)
  ovr := Nat.mod_lt _ (by decide)
  wrap := Nat.mod_lt _ (by decide)
  rsvd := Nat.div_lt_of_lt_mul w.isLt

/-- Fields within their bits are read back from their word. -/
theorem arrivalFields_word {f : ArrivalFields} (h : f.Fits) : arrivalFields f.word = f := by
  obtain ⟨target, count, gen, ovr, wrap, rsvd⟩ := f
  obtain ⟨ht, hc, hg, ho, hw, hr⟩ := h
  dsimp only at ht hc hg ho hw hr
  simp only [arrivalFields, ArrivalFields.word, BitVec.toNat_ofNat, ArrivalFields.mk.injEq]
  omega

/-! Bits 96 and 97 are over and wrap. -/

theorem getLsbD_ovr (w : BitVec 128) : w.getLsbD 96 = decide ((arrivalFields w).ovr = 1) :=
  Nat.testBit_eq_decide_div_mod_eq

theorem getLsbD_wrap (w : BitVec 128) : w.getLsbD 97 = decide ((arrivalFields w).wrap = 1) :=
  Nat.testBit_eq_decide_div_mod_eq

/-! One arrival (R119). -/

section
variable {w : BitVec 128} {n : Nat}

theorem arrivalStep_of_hits (h : (arrivalFields w).Hits n) : arrivalStep w n = ((arrivalFields w).hit n).word := by
  unfold arrivalStep
  extract_lets x target count gen ovr wrap rsvd full count' gen' wrap' ovr'
  have reached : target ≠ 0 ∧ target ≤ count := h
  have isFull : full = true := by simpa [full] using reached
  have hc : count' = count - target := if_pos isFull
  have hg : gen' = (gen + 1) % 2 ^ 32 := if_pos isFull
  simp only [wrap', ovr', isFull, hc, hg, Bool.true_and, beq_iff_eq, decide_eq_true_eq]
  rfl

theorem arrivalStep_of_not_hits (h : ¬ (arrivalFields w).Hits n) :
    arrivalStep w n = ((arrivalFields w).miss n).word := by
  unfold arrivalStep
  extract_lets x target count gen ovr wrap rsvd full count' gen' wrap' ovr'
  have unreached : ¬ (target ≠ 0 ∧ target ≤ count) := h
  have notFull : full = false := by simpa [full] using unreached
  simp only [count', gen', wrap', ovr', notFull, Bool.false_and, Bool.false_eq_true, if_false]
  rfl

theorem arrivalFields_arrivalStep_of_hits (h : (arrivalFields w).Hits n) :
    arrivalFields (arrivalStep w n) = (arrivalFields w).hit n := by
  rw [arrivalStep_of_hits h, arrivalFields_word ((arrivalFields_fits w).hit n)]

theorem arrivalFields_arrivalStep_of_not_hits (h : ¬ (arrivalFields w).Hits n) :
    arrivalFields (arrivalStep w n) = (arrivalFields w).miss n := by
  rw [arrivalStep_of_not_hits h, arrivalFields_word ((arrivalFields_fits w).miss n)]

end

/-! `arw` and `await` (R332). -/

/-- The word at X(a) is an aligned word of the window, at p, that passes the checks of `arw` (which stores) or `await`, and
nothing of its hart is in its way. -/
structure State.ArrivalReady (s : State) (a : XR) (p : Phys) (store : Bool) : Prop where
  aligned : s.engAddr a % 16 = 0
  above : winBase ≤ s.engAddr a
  below : s.engAddr a < winBase + winSize
  reaches : s.reaches (s.engAddr a) 16 store store = some p
  sound : s.isBad p.key 16 = false
  unheld : s.olderHeld s.cur s.drv.nextId p.key 16 = false
  settled : s.olderPending s.cur s.drv.nextId p.key 16 = false
  leaves : store = true → s.mayLeave s.cur s.drv.nextId = true

section
variable {s : State} {d a x : XR} {p : Phys}

/-- The checks that pass change nothing. -/
theorem State.arrivalWord_of_ready {store : Bool} (h : s.ArrivalReady a p store) :
    s.arrivalWord a store = .ok (s, p.key) := by
  obtain ⟨aligned, above, below, reaches, sound, unheld, settled, leaves⟩ := h
  have window : (decide (winBase ≤ s.engAddr a) && decide (s.engAddr a < winBase + winSize)) = true := by
    simp [above, below]
  have good : (!s.isBad p.key 16) = true := by rw [sound]; rfl
  have free : (!s.olderHeld s.cur s.drv.nextId p.key 16 && !s.olderPending s.cur s.drv.nextId p.key 16) = true := by
    rw [unheld, settled]; rfl
  have leave : (!store || s.mayLeave s.cur s.drv.nextId) = true := by
    cases store
    · rfl
    · exact leaves rfl
  unfold State.arrivalWord
  simp only [need_bind (beq_iff_eq.mpr aligned), need_bind window, State.scalarAccess_of_reaches reaches, ok_bind,
    need_bind good, need_bind free, need_bind leave]

/-- The state after the access of `arw` or `await` has read its word. -/
def State.arrivalSeen (s : State) (p : Phys) : State := (s.noteRead s.cur s.drv.nextId p.key 16 []).bump

theorem State.arrivalSeen_me (s : State) (p : Phys) : (s.arrivalSeen p).me = s.me :=
  (State.bump_me _).trans (s.noteRead_me ..)

theorem State.setWord16_me (s : State) (k : Nat) (w : BitVec 128) (ino writer : Nat) :
    (s.setWord16 k w ino writer).me = s.me :=
  (State.writeHome_me ..).trans (State.writeHome_me ..)

/-- What `arw` writes: v's low half as the target, and of the fields the generation and the reserved bits. -/
def ArrivalFields.rearmed (f : ArrivalFields) (v : Nat) : BitVec 128 :=
  BitVec.ofNat 128 (f.rsvd * 2 ^ 98 + f.gen * 2 ^ 64 + v % 2 ^ 32)

theorem exec_arw (h : s.ArrivalReady a p true) :
    ((s.arrivalSeen p).setWord16 p.key ((arrivalFields (s.word16 p.key)).rearmed (s.getX x).toNat) s.drv.nextId s.cur).Goes
      (exec (.arw d a x) s) (s.me.setX d (genCount (s.word16 p.key))) (s.me.pcNext 4) := by
  show State.Goes _ (execArw d a x s) _ _
  rw [execArw, State.arrivalWord_of_ready h, ok_bind]
  exact State.writes_goes _ 4 d _ ((State.setWord16_me ..).trans (s.arrivalSeen_me p))

theorem exec_await_passed (h : s.ArrivalReady a p false)
    (differs : (arrivalFields (s.word16 p.key)).gen ≠ (s.getX x).toNat % 2 ^ 32) :
    (s.arrivalSeen p).Goes (exec (.await d a x) s) (s.me.setX d (genCount (s.word16 p.key))) (s.me.pcNext 4) := by
  have passes : ((s.word16 p.key).toNat / 2 ^ 64 % 2 ^ 32 != (s.getX x).toNat % 2 ^ 32) = true := bne_iff_ne.mpr differs
  show State.Goes _ (execAwait d a x s) _ _
  rw [execAwait, State.arrivalWord_of_ready h, ok_bind]
  dsimp only
  rw [need_bind passes]
  exact State.writes_goes _ 4 d _ (s.arrivalSeen_me p)

theorem exec_await_waits (h : s.ArrivalReady a p false)
    (same : (arrivalFields (s.word16 p.key)).gen = (s.getX x).toNat % 2 ^ 32) :
    exec (.await d a x) s = .next s := by
  have stops : ((s.word16 p.key).toNat / 2 ^ 64 % 2 ^ 32 != (s.getX x).toNat % 2 ^ 32) = false :=
    bne_eq_false_iff_eq.mpr same
  show execAwait d a x s = _
  rw [execAwait, State.arrivalWord_of_ready h, ok_bind]
  dsimp only
  rw [stops]
  rfl

end

/-- Settles O41: an arrival by the fields that it leaves, reached or not; `arw` and `await` by the checks that pass. -/
theorem arrivalWords : Obligations.ArrivalWords := by
  unfold Obligations.ArrivalWords
  refine ⟨fun w n => ?arrival, fun s d a x p store => ?words⟩
  case arrival =>
    intro target gen count u hit
    change (arrivalFields u).target = _ ∧ (arrivalFields u).count = _ ∧ (arrivalFields u).gen = _ ∧ _
    simp only [getLsbD_ovr, getLsbD_wrap, decide_eq_true_eq]
    by_cases h : hit
    · have after : arrivalFields u = (arrivalFields w).hit n := arrivalFields_arrivalStep_of_hits h
      rw [after, if_pos h, if_pos h]
      exact ⟨rfl, rfl, rfl, ArrivalFields.hit_ovr_of_ovr n, ArrivalFields.hit_wrap_of_wrap n,
        fun _ again => ArrivalFields.hit_ovr_of_le again, fun _ last => ArrivalFields.hit_wrap_of_last n last,
        fun no => absurd h no⟩
    · have after : arrivalFields u = (arrivalFields w).miss n := arrivalFields_arrivalStep_of_not_hits h
      rw [after, if_neg h, if_neg h]
      exact ⟨rfl, rfl, rfl, id, id, fun yes => absurd yes h, fun yes => absurd yes h, fun _ => ⟨rfl, rfl⟩⟩
  case words =>
    intro va ino w gen out seen aligned above below reaches sound unheld settled
    have ready (leaves : store = true → s.mayLeave s.cur ino = true) : s.ArrivalReady a p store :=
      ⟨aligned, above, below, reaches, sound, unheld, settled, leaves⟩
    refine ⟨?arw, ?passed, ?waits⟩
    case arw =>
      rintro rfl leaves
      exact exec_arw (ready fun _ => leaves)
    case passed =>
      rintro rfl differs
      exact exec_await_passed (ready nofun) differs
    case waits =>
      rintro rfl same
      exact exec_await_waits (ready nofun) same

end Sys2Proof.Machine

/-!
PROOFS. Exceptions: the traps that instructions raise, and what a trap that leaves no restart point leaves of its hart in S,
in M, and where it stops the hart (R182 to R187, R236, R254, R269).
-/
namespace Sys2Proof.Machine

/-! The traps that are raised (R183, R236, R254, R269). -/

/-- The trap of a system call. -/
def State.syscall (s : State) (i : BitVec 19) : Trap :=
  { Trap.at0 .syscall 0 i.toNat with old := s.me.resume.pending }

theorem exec_trap (s : State) (i : BitVec 19) : s.Traps (exec (.trap i) s) (s.syscall i) := rfl

theorem exec_brk (s : State) :
    s.Traps (exec .brk s) { Trap.at0 .brk 1 s.me.pc.toNat with old := s.me.resume.pending } := rfl

theorem exec_nonInstruction (s : State) (w : Word) :
    s.Traps (exec (.nonInstruction w) s) { Trap.at0 .illegal 0 w.toNat with old := s.me.resume.pending } := rfl

theorem exec_fetchFault (s : State) (va : Nat) : s.Traps (exec (.fetchFault va) s)
    { Trap.at0 .pagefault 1 (va % 2 ^ 55) with old := s.me.resume.pending } := rfl

/-- Settles O19: the four instructions end in their traps. -/
theorem raisedExceptions : Obligations.RaisedExceptions := by
  unfold Obligations.RaisedExceptions
  intro s i w va o
  exact ⟨exec_trap s i, exec_brk s, exec_nonInstruction s w, exec_fetchFault s va⟩

/-! The words that an entry saves. -/

/-- The cause word of a system call is its code alone (R182, R183). -/
theorem State.syscall_word (s : State) (i : BitVec 19) : (s.syscall i).word = 0x0F := by
  simp [Trap.word, State.syscall, Trap.at0, Cause.code]

theorem State.syscall_tval (s : State) (i : BitVec 19) : BitVec.ofNat 64 (s.syscall i).tval = i.setWidth 64 :=
  BitVec.ofNat_toNat 64 i

/-- A call of a hart that has no restart point leaves one at the first element, without deltas (R102). -/
theorem State.stopPoint_syscall {s : State} (h : s.me.resume = Resume.zero) (u : State) (hid : Nat) (i : BitVec 19) :
    u.stopPoint hid (s.syscall i) = u.resumeNow hid 0 0 := by
  unfold State.syscall
  rw [h]
  rfl

/-- With suffix 0, epc is the PC (R186). -/
theorem epcWord_of_start {r : Resume} (pc : BitVec 55) (h : r.sfx = 0) : epcWord pc r = pc.setWidth 64 := by
  rw [epcWord, h]
  exact BitVec.ofNat_toNat 64 pc

/-- A handler's address is its register with the low two bits clear (R186). -/
theorem bits_handler (w : Word) : bits w 54 2 = w.toNat / 4 % 2 ^ 53 := rfl

/-- estat at entry, field by field: tb is set, ie moves to pie, and ppl and lx are as given (R184, R186). -/
theorem getLsbD_estatEntry (w : Word) (ppl : Nat) (lx : Bool) :
    (estatEntry w ppl lx).getLsbD 15 = true ∧ (estatEntry w ppl lx).getLsbD 10 = false ∧
    (estatEntry w ppl lx).getLsbD 11 = w.getLsbD 10 ∧ (estatEntry w ppl lx).getLsbD 14 = lx ∧
    (estatEntry w ppl lx).getLsbD 12 = ppl.testBit 0 ∧ (estatEntry w ppl lx).getLsbD 13 = ppl.testBit 1 := by
  have ie (v : Word) : (bits v 10 10).testBit 0 = v.getLsbD 10 := testBit_bits v (by decide)
  cases lx <;> simp [estatEntry, getLsbD_setBits, ie, -BitVec.getLsbD_eq_getElem]

/-- kstat at entry: tb is set, and ppl is as given (R186). -/
theorem getLsbD_kstatEntry (w : Word) (ppl : Nat) :
    (setBits (setBits w 3 2 ppl) 1 1 1).getLsbD 1 = true ∧
    (setBits (setBits w 3 2 ppl) 1 1 1).getLsbD 2 = ppl.testBit 0 ∧
    (setBits (setBits w 3 2 ppl) 1 1 1).getLsbD 3 = ppl.testBit 1 := by
  simp [getLsbD_setBits, -BitVec.getLsbD_eq_getElem]

theorem Level.testBit_code (l : Level) : l.code.testBit 0 = (l == .s) ∧ l.code.testBit 1 = (l == .m) := by
  cases l <;> decide

/-! Entry into S (R184). -/

/-- The state in which a trap is entered: what the instruction waited for is forgotten, and the trap is counted. -/
def State.trapNoted (s : State) : State := (s.clearStall s.cur true).trapCounted s.cur

section
variable (s : State)

@[simp] theorem State.trapNoted_cur : s.trapNoted.cur = s.cur := by simp [State.trapNoted]
@[simp] theorem State.trapNoted_mem : s.trapNoted.mem = s.mem := by simp [State.trapNoted]
@[simp] theorem State.trapNoted_cores : s.trapNoted.cores = s.cores := by simp [State.trapNoted]
@[simp] theorem State.trapNoted_hart (j : Nat) : s.trapNoted.hart j = s.hart j := by simp [State.trapNoted]

end

section
variable {s : State} (i : BitVec 19)

/-- A system call at U or S with no supervisor handler busy enters S. -/
theorem exec_trap_enterS (level : s.me.level ≠ .m) (idle : (s.mreg mEstat).getLsbD 15 = false)
    (bag : (s.hmem s.cur).bag = []) :
    exec (.trap i) s = .next (s.trapNoted.enterS s.cur (s.syscall i)) :=
  (exec_trap s i).trans (congrArg _ (s.takeTrap_enterS s.cur _ bag level idle nofun (.inl nofun)))

/-- One while a supervisor handler is busy, or at M while the monitor is not, enters M. -/
theorem exec_trap_enterM (h : (s.me.level ≠ .m ∧ (s.mreg mEstat).getLsbD 15 = true) ∨
      (s.me.level = .m ∧ (s.mreg mKstat).getLsbD 1 = false)) (bag : (s.hmem s.cur).bag = []) :
    exec (.trap i) s = .next (s.trapNoted.enterM s.cur (s.syscall i)) :=
  (exec_trap s i).trans (congrArg _ (s.takeTrap_enterM s.cur _ bag h (.inl nofun)))

end

/-- Settles O20: the registers of an entry into S, whose restart point is at the first element. -/
theorem syscallEntersS : Obligations.SyscallEntersS := by
  unfold Obligations.SyscallEntersS
  intro s i level idle bag start
  refine ⟨_, exec_trap_enterS i level idle bag, ?_⟩
  have me : s.trapNoted.hart s.cur = s.me := s.trapNoted_hart s.cur
  obtain ⟨epc, ecause, etval, estat, eavl, estrip, ehead, evl, eslip, -, avl, strip, vhead, vl, slip⟩ :=
    s.trapNoted.enterS_regs s.cur (s.syscall i) _ rfl
  have pc := s.trapNoted.enterS_pc s.cur (s.syscall i)
  simp only [me, State.stopPoint_syscall start, bits_handler] at epc estat eavl estrip ehead evl eslip slip pc
  obtain ⟨tb, ie, pie, lx, ppl0, ppl1⟩ :=
    getLsbD_estatEntry (s.me.mreg mEstat) s.me.level.code (bit (s.me.mreg mAvl) 63)
  obtain ⟨code0, code1⟩ := s.me.level.testBit_code
  have below_m := code1.trans (beq_eq_false_iff_ne.mpr level)
  rw [← estat] at tb ie pie lx ppl0 ppl1
  exact ⟨State.enterS_level .., pc, epc.trans (epcWord_of_start _ rfl), ecause.trans (s.syscall_word i),
    etval.trans (s.syscall_tval i), tb, ie, pie, lx, ppl0.trans code0, ppl1.trans below_m, eavl, estrip, ehead, evl,
    eslip, avl, strip, vhead, vl, slip⟩

/-- Settles O21: an entry into S writes the trap registers and the loop context of its hart. -/
theorem syscallFrame : Obligations.SyscallFrame := by
  unfold Obligations.SyscallFrame
  intro s t i level idle bag run
  rw [exec_trap_enterS i level idle bag] at run
  cases run
  obtain ⟨mem, cores, -, -, cur, others⟩ := s.trapNoted.enterS_agrees s.cur (s.syscall i)
  have me : s.trapNoted.hart s.cur = s.me := s.trapNoted_hart s.cur
  have after : (s.trapNoted.enterS s.cur (s.syscall i)).me = (s.trapNoted.enterS s.cur (s.syscall i)).hart s.cur := by
    rw [State.me_def, cur, s.trapNoted_cur]
  refine ⟨fun r => ?x, ?v, ?tag, ?p, fun n hn => ?mregs, fun j hj => ?others, ?cores, fun k => ?img⟩
  case x =>
    show Hart.getX _ r = s.me.getX r
    rw [after]
    exact Hart.getX_of_x (by rw [State.enterS_x, me]) r
  case v => rw [after, State.enterS_v, me]
  case tag => rw [after, State.enterS_tag, me]
  case p => rw [after, State.enterS_p, me]
  case mregs =>
    have kept : ∀ n ∈ [mFctl, mFflags, mRbs, mEvec, mEscratch, mAsid, mPtbase, mMsa, mKret, mKwhy, mKaddr, mKstat,
        mKentry], n ∉ [mSlip, mVl, mVhead, mStrip, mAvl, mEgrant, mEslip, mEvl, mEhead, mEstrip, mEavl, mEstat, mEtval,
        mEcause, mEpc] := by decide
    show Hart.mreg _ n = s.me.mreg n
    rw [after, State.enterS_keeps _ _ _ _ (kept n hn), me]
  case others => rw [others j hj, State.trapNoted_hart]
  case cores => rw [cores, State.trapNoted_cores]
  case img => unfold State.img; rw [mem, State.trapNoted_mem]

/-! Entry into M (R184, R187). -/

/-- Every machine register but the five that an entry writes. -/
theorem State.enterM_keeps (s : State) (hid n : Nat) (t : Trap) (hn : n ∉ [mSlip, mKstat, mKaddr, mKwhy, mKret]) :
    ((s.enterM hid t).hart hid).mreg n = (s.hart hid).mreg n := by
  simp only [List.mem_cons, List.not_mem_nil, or_false, not_or] at hn
  rw [State.enterM_mreg]
  simp only [hn, if_false]

/-- The registers that an entry writes (R184, R186). -/
theorem State.enterM_regs (s : State) (hid : Nat) (t : Trap) (h : Hart) (e : (s.enterM hid t).hart hid = h) :
    h.mreg mKret = epcWord (s.hart hid).pc (s.stopPoint hid t) ∧ h.mreg mKwhy = t.word ∧
    h.mreg mKaddr = BitVec.ofNat 64 t.tval ∧
    h.mreg mKstat = setBits (setBits ((s.hart hid).mreg mKstat) 3 2 (s.hart hid).level.code) 1 1 1 := by
  subst e
  simp only [State.enterM_mreg]
  exact ⟨rfl, rfl, rfl, rfl⟩

theorem State.report_hart (s : State) (k b x p v : Nat) (hid task : Option Nat) (j : Nat) :
    (s.report k b x p v hid task).hart j = s.hart j :=
  s.report_keep (·.hart j) (fun _ _ _ _ _ _ => rfl) (fun _ _ _ => rfl) (fun _ _ => rfl) ..

/-- Ending the task of a hart that has one is killing it, with the hart at S (R197). -/
theorem State.endTaskOf_task {s : State} {hid key : Nat} (h : (s.hart hid).task = some key) :
    s.endTaskOf hid = (s.setHart hid { s.hart hid with level := .s }).kill key (some (coreOf hid)) := by
  unfold State.endTaskOf
  rw [h]

/-- A system call at M while the monitor is busy stops the hart. -/
theorem exec_trap_hartstop {s : State} {key : Nat} (i : BitVec 19) (level : s.me.level = .m)
    (busy : (s.mreg mKstat).getLsbD 1 = true) (bag : (s.hmem s.cur).bag = []) (task : s.me.task = some key) :
    exec (.trap i) s =
      .next (((s.clearStall s.cur true).report repHartstop 0 0 0 0 (some s.cur) (some key)).endTaskOf s.cur) :=
  (exec_trap s i).trans (congrArg _ (s.takeTrap_hartstop s.cur key _ bag level busy task (.inl nofun)))

/-- Settles O22: the registers of an entry into M, and the end of the task where M is busy. -/
theorem trapsIntoMonitor : Obligations.TrapsIntoMonitor := by
  unfold Obligations.TrapsIntoMonitor
  refine ⟨fun s i into bag start => ?enters, fun s i key level busy bag task => ?stops⟩
  case enters =>
    refine ⟨_, exec_trap_enterM i into bag, ?_⟩
    have me : s.trapNoted.hart s.cur = s.me := s.trapNoted_hart s.cur
    obtain ⟨kret, kwhy, kaddr, kstat⟩ := s.trapNoted.enterM_regs s.cur (s.syscall i) _ rfl
    have pc := s.trapNoted.enterM_pc s.cur (s.syscall i)
    simp only [me, State.stopPoint_syscall start, bits_handler] at kret kstat pc
    obtain ⟨tb, ppl0, ppl1⟩ := getLsbD_kstatEntry (s.me.mreg mKstat) s.me.level.code
    obtain ⟨code0, code1⟩ := s.me.level.testBit_code
    rw [← kstat] at tb ppl0 ppl1
    refine ⟨State.enterM_level .., pc, kret.trans (epcWord_of_start _ rfl), kwhy.trans (s.syscall_word i),
      kaddr.trans (s.syscall_tval i), tb, ppl0.trans code0, ppl1.trans code1, fun n hn => ?kept, fun k => ?img⟩
    case kept =>
      have others : ∀ n ∈ [mEstat, mEpc, mEcause, mEtval, mAvl, mStrip, mVhead, mVl, mEavl, mEgrant],
          n ∉ [mSlip, mKstat, mKaddr, mKwhy, mKret] := by decide
      rw [State.enterM_keeps _ _ _ _ (others n hn), me]
      rfl
    case img =>
      obtain ⟨mem, -⟩ := s.trapNoted.enterM_agrees s.cur (s.syscall i)
      unfold State.img; rw [mem, State.trapNoted_mem]
  case stops =>
    rw [exec_trap_hartstop i level busy bag task]
    refine congrArg _ (State.endTaskOf_task ?_)
    rw [State.report_hart, State.clearStall_hart]
    exact task

end Sys2Proof.Machine

/-!
PROOFS. Scalar accesses that do not pass their checks (R189, R260, R267).
-/
namespace Sys2Proof.Machine

/-! The checks (R189). -/

/-- The alignment is checked first. -/
theorem State.access_of_misaligned {va n : Nat} (h : va % n ≠ 0) (s : State) (e : Nat) (store amo watch : Bool) :
    s.access va n e store amo watch = .error (.fault (Trap.at0 .misalign 0 va) s) := by
  unfold State.access
  rw [if_pos h]

/-- A fault of the access is the trap of the instruction. -/
theorem State.scalarAccess_of_fault {s s' : State} {va n : Nat} {store amo : Bool} {t : Trap}
    (h : s.access va n 0 store amo (!s.me.wpSkip) = .error (.fault t s')) :
    s.scalarAccess va n store amo = .error (.trap t s') := by
  unfold State.scalarAccess
  rw [h]

/-! Instructions that check their one access, of n bytes at va, before anything else. -/

/-- Whatever fault its access raises, the instruction raises it. -/
def State.FaultTraps (s : State) (i : Instr) (n va : Nat) (store amo : Bool) : Prop :=
  ∀ (t : Trap) (s' : State), s.access va n 0 store amo (!s.me.wpSkip) = .error (.fault t s') →
    exec i s = .next (s'.takeTrap s'.cur t)

section
variable {s : State} {i : Instr} {len n va : Nat} {store amo : Bool}

theorem State.FaultTraps.misalign (h : s.FaultTraps i n va store amo) (odd : va % n ≠ 0) :
    exec i s = .next (s.takeTrap s.cur (Trap.at0 .misalign 0 va)) :=
  h _ _ (s.access_of_misaligned odd 0 store amo _)

theorem State.load_faultTraps {z : LdSize} {d : XR} {acq : Bool}
    (run : exec i s = complete len (s.load va z d acq)) : s.FaultTraps i (ldBytes z) va false false := by
  intro t s' fault
  rw [run, State.load, State.scalarAccess_of_fault fault]
  rfl

theorem State.store_faultTraps {v : Word} {rel : Option Scope}
    (run : exec i s = complete len (s.store va n v rel)) : s.FaultTraps i n va true false := by
  intro t s' fault
  rw [run, State.store, State.scalarAccess_of_fault fault]
  rfl

theorem State.amo_faultTraps {op : AmoOp} {d a b : XR} {wide acq rel : Bool} {S : Scope}
    (run : exec i s = complete len (s.amo op d a b wide acq rel S)) :
    s.FaultTraps i (if wide then 8 else 4) (s.addrOf a 0) true true := by
  intro t s' fault
  have base : s.addrOf a 0 = (s.getX a).toNat % 2 ^ 55 := by simp [State.addrOf]
  rw [base] at fault
  rw [run, State.amo]
  dsimp only
  rw [State.scalarAccess_of_fault fault]
  rfl

end

/-! The forms with a scaled offset (R261). -/

section
variable (s : State) (d a : XR) (sc : Scope) (o : BitVec 6) (o3 : BitVec 3)

/-- An offset counts in units of the access size. -/
theorem State.addrOf_scaled {w : Nat} (k : Nat) (x : BitVec w) :
    effAddr (s.getX a) (BitVec.ofNat 64 (k * x.toNat)) = s.addrOf a (BitVec.ofNat 64 k * x.setWidth 64) := by
  rw [effAddr, State.addrOf, BitVec.ofNat_mul, BitVec.ofNat_toNat]

theorem State.ldAcq_faultTraps (z : LdSize) : s.FaultTraps (.ldAcq d a sc z o) (ldBytes z)
    (s.addrOf a (BitVec.ofNat 64 (ldBytes z) * o.setWidth 64)) false false := by
  rw [← State.addrOf_scaled, Nat.mul_comm]
  exact State.load_faultTraps rfl

theorem State.stRel_faultTraps (z : StSize) : s.FaultTraps (.stRel d a sc z o) (stBytes z)
    (s.addrOf a (BitVec.ofNat 64 (stBytes z) * o.setWidth 64)) true false := by
  rw [← State.addrOf_scaled, Nat.mul_comm]
  exact State.store_faultTraps rfl

theorem State.cLd64_faultTraps :
    s.FaultTraps (.cLd64 d a o3) 8 (s.addrOf a (8 * o3.setWidth 64)) false false := by
  refine (s.addrOf_scaled a 8 o3) ▸ ?_
  exact State.load_faultTraps (z := .b64) rfl

theorem State.cSt64_faultTraps :
    s.FaultTraps (.cSt64 d a o3) 8 (s.addrOf a (8 * o3.setWidth 64)) true false := by
  refine (s.addrOf_scaled a 8 o3) ▸ ?_
  exact State.store_faultTraps rfl

end

/-- Settles O8: every form is a load, a store or an atomic, and these check their access first. -/
theorem accessFaults : Obligations.AccessFaults := by
  unfold Obligations.AccessFaults
  intro s d a b i sc o o3 acq rel n va vo vc v0 traps
  have both {store amo : Bool} {q : Instr × Nat × Nat} (h : s.FaultTraps q.1 q.2.1 q.2.2 store amo) :
      traps store amo q := ⟨h, h.misalign⟩
  refine ⟨?loads, ?stores, fun w => ?atomics⟩
  case loads =>
    have plain {j : Instr} (z : LdSize) (run : exec j s = complete 4 (s.load va z d false)) :
        traps false false (j, ldBytes z, va) := both (State.load_faultTraps run)
    have acquire (z : LdSize) : traps false false (.ldAcq d a sc z o, ldBytes z, vo (BitVec.ofNat 64 (ldBytes z))) :=
      both (s.ldAcq_faultTraps d a sc o z)
    simp only [List.forall_mem_cons]
    exact ⟨plain .b8 rfl, plain .b16 rfl, plain .b32 rfl, plain .b64 rfl, plain .z8 rfl, plain .z16 rfl, plain .z32 rfl,
      acquire .b8, acquire .b16, acquire .b32, acquire .b64, acquire .z8, acquire .z16, acquire .z32,
      both (s.cLd64_faultTraps d a o3), List.forall_mem_nil _⟩
  case stores =>
    have plain {j : Instr} (z : StSize) (run : exec j s = complete 4 (s.store va (stBytes z) (s.getX d) none)) :
        traps true false (j, stBytes z, va) := both (State.store_faultTraps run)
    have release (z : StSize) : traps true false (.stRel d a sc z o, stBytes z, vo (BitVec.ofNat 64 (stBytes z))) :=
      both (s.stRel_faultTraps d a sc o z)
    simp only [List.forall_mem_cons]
    exact ⟨plain .b8 rfl, plain .b16 rfl, plain .b32 rfl, plain .b64 rfl,
      release .b8, release .b16, release .b32, release .b64, both (s.cSt64_faultTraps d a o3), List.forall_mem_nil _⟩
  case atomics =>
    have atomic {j : Instr} (op : AmoOp) (run : exec j s = complete 4 (s.amo op d a b w acq rel sc)) :
        traps true true (j, if w then 8 else 4, v0) := both (State.amo_faultTraps run)
    simp only [List.forall_mem_cons]
    exact ⟨atomic .add rfl, atomic .and rfl, atomic .or rfl, atomic .xor rfl, atomic (if n then .minn else .min) rfl,
      atomic (if n then .maxn else .max) rfl, atomic .swap rfl, atomic .cas rfl, List.forall_mem_nil _⟩

end Sys2Proof.Machine

/-!
PROOFS. Instructions that write their destination when they complete: what landing leaves of the hart, the checks that a
calm state passes, and the reductions, permutes, scans and `vconf` by these (R188, R282, R289, R297 to R301).
-/
namespace Sys2Proof.Machine

/-! Landing writes vector registers and tags alone (R282). -/

/-- k is h but for its vector registers and their tags. -/
def Hart.SameButVectors (h k : Hart) : Prop := k = { h with v := k.v, tag := k.tag }

namespace Hart.SameButVectors
variable {h j k : Hart}

theorem refl (h : Hart) : h.SameButVectors h := rfl

theorem trans (a : h.SameButVectors j) (b : j.SameButVectors k) : h.SameButVectors k :=
  Eq.trans (b : k = _) (congrArg (fun x : Hart => { x with v := k.v, tag := k.tag }) a)

theorem pc (a : h.SameButVectors k) : k.pc = h.pc := (congrArg Hart.pc a).trans rfl
theorem task (a : h.SameButVectors k) : k.task = h.task := (congrArg Hart.task a).trans rfl

end Hart.SameButVectors

section
variable (h : Hart) (v : VR)

theorem Hart.setVBytes_sameButVectors (off n x : Nat) : h.SameButVectors (h.setVBytes v off n x) := by
  induction n with
  | zero => exact .refl h
  | succ n ih => exact ih.trans rfl

theorem Hart.setCode_sameButVectors (w i x : Nat) : h.SameButVectors (h.setCode v w i x) := by
  unfold Hart.setCode
  split
  · rfl
  · exact h.setVBytes_sameButVectors ..

theorem Hart.setCodes_sameButVectors (w : Nat) (l : List (Nat × Nat)) : h.SameButVectors (h.setCodes v w l) := by
  unfold Hart.setCodes
  induction l generalizing h with
  | nil => exact .refl h
  | cons e l ih => exact (h.setCode_sameButVectors v w e.1 e.2).trans (ih _)

theorem Hart.setTags_sameButVectors (t : Tag) (g : Nat) : h.SameButVectors (h.setTags v t g) := by
  induction g with
  | zero => exact .refl h
  | succ g ih => exact ih.trans rfl

theorem Hart.clearGroup_sameButVectors (g : Nat) : h.SameButVectors (h.clearGroup v g) := rfl

theorem Hart.land_sameButVectors (rt : Tag) (written : List Nat) (new : List (Nat × Nat)) :
    h.SameButVectors (h.land v rt written new) := by
  unfold Hart.land
  dsimp only
  have codes := h.setCodes_sameButVectors v rt.width new
  split
  · exact codes.trans (Hart.setTags_sameButVectors ..)
  · exact ((codes.trans (Hart.clearGroup_sameButVectors ..)).trans (Hart.setCodes_sameButVectors ..)).trans
      (Hart.setTags_sameButVectors ..)

theorem Hart.land_pcNext (rt : Tag) (written : List Nat) (new : List (Nat × Nat)) (n : Nat) :
    (h.land v rt written new).pcNext n = h.pcNext n := by
  rw [Hart.pcNext, (h.land_sameButVectors v rt written new).pc, ← Hart.pcNext]

theorem Hart.whole_pc (rt : Tag) (new : List (Nat × Nat)) (fl : Nat) : (h.whole v rt new fl).pc = h.pc := by
  unfold Hart.whole
  split
  · rfl
  · rw [Hart.orFlags_pc, (h.land_sameButVectors ..).pc]

theorem Hart.whole_task (rt : Tag) (new : List (Nat × Nat)) (fl : Nat) : (h.whole v rt new fl).task = h.task := by
  unfold Hart.whole
  split
  · rfl
  · rw [Hart.orFlags_task, (h.land_sameButVectors ..).task]

end

/-! Starting at the first element (R188, R297). -/

section
variable {s : State}

theorem State.fromStart_of_spent (h : s.me.spent = true) : s.fromStart = s := by
  unfold State.fromStart
  dsimp only
  rw [h, Bool.or_true]
  rfl

/-- It is the state as it stands, or forgets the restart point of the hart. -/
theorem State.fromStart_cases (s : State) :
    s.fromStart = s ∨ s.fromStart = s.setMe { s.me with resume := Resume.zero } := by
  unfold State.fromStart
  dsimp only
  split
  · exact .inl rfl
  · exact .inr rfl

/-- Nothing of the hart but its restart point changes. -/
theorem State.fromStart_me_eq (s : State) : ∃ r, s.fromStart.me = { s.me with resume := r } := by
  obtain same | forgets := s.fromStart_cases
  · exact ⟨s.me.resume, congrArg _ same⟩
  · exact ⟨Resume.zero, by rw [forgets, State.me_setMe]⟩

theorem State.fromStart_tagOf (s : State) (v : VR) : s.fromStart.me.tagOf v = s.me.tagOf v := by
  obtain ⟨r, e⟩ := s.fromStart_me_eq; rw [e]; rfl
theorem State.fromStart_srcTags (s : State) (l : List Src) : s.fromStart.me.srcTags l = s.me.srcTags l := by
  obtain ⟨r, e⟩ := s.fromStart_me_eq; rw [e]; rfl
theorem State.fromStart_srcRegs (s : State) (l : List Src) : s.fromStart.me.srcRegs l = s.me.srcRegs l := by
  obtain ⟨r, e⟩ := s.fromStart_me_eq; rw [e]; rfl

theorem State.fromStart_calm (calm : s.Calm) : s.fromStart.Calm := by
  obtain same | forgets := s.fromStart_cases
  · rw [same]; exact calm
  · obtain ⟨residue, fills, pause, words⟩ := calm
    have vl : s.fromStart.me.vl = s.me.vl := by rw [forgets, State.me_setMe]; rfl
    have spilled : s.fromStart.me.spilled = s.me.spilled := by rw [forgets, State.me_setMe]
    refine ⟨?_, by rwa [vl, spilled], by rw [forgets]; exact pause, fun v t e below => ?_⟩
    · rw [forgets]; exact residue
    · rw [forgets]; exact words v t e (vl ▸ below)

theorem State.goesV_of_fromStart {o : Host.Outcome State Fault Refusal} {h : Hart} {pc : BitVec 55}
    (g : s.fromStart.GoesV o h pc) : s.GoesV o h pc := by
  obtain same | forgets := s.fromStart_cases
  · rwa [same] at g
  · rw [forgets] at g
    exact State.goesV_setMe (h := { s.me with resume := Resume.zero }) rfl g

/-! What a calm state passes (R26, R104, R106). -/

theorem State.operands_of_calm (calm : s.Calm) {regs : List (VR × Tag)} {dst : Option (VR × Tag)}
    (groups : groupsOk s.me.ew regs dst = true) : s.operands true regs dst = .ok s := by
  obtain ⟨-, fills, -, -⟩ := calm
  rw [State.operands, need_bind rfl, need_bind groups, State.fillGroups_of_calm fills, ite_self]

theorem State.sound_of_calm (calm : s.Calm) (regs : List (VR × Tag)) {elements : Nat → List Nat}
    (below : s.me.vl ≠ 0 → ∀ k, ∀ e ∈ elements k, e < s.me.vl) : s.sound regs elements = .ok () := by
  obtain ⟨residue, -, -, words⟩ := calm
  have sound : ¬ (s.me.vl ≠ 0 ∧ (regs.zipIdx.any fun r => (elements r.2).any fun e => s.elemBad r.1.1 r.1.2 e) = true) := by
    rintro ⟨some_element, bad⟩
    obtain ⟨r, -, bad⟩ := List.any_eq_true.mp bad
    obtain ⟨e, he, bad⟩ := List.any_eq_true.mp bad
    rw [words _ _ e (below some_element r.2 e he)] at bad
    exact Bool.false_ne_true bad
  rw [State.sound, if_neg sound, State.residue, residue]
  exact if_neg fun h => Bool.false_ne_true h.2

/-! An instruction that writes when it completes, its operands legal. -/

/-- The elements that an instruction reads of each source lie below vl, where there is one. -/
def ReadsBelow (reads : Hart → Nat → List Nat) : Prop := ∀ h : Hart, h.vl ≠ 0 → ∀ k, ∀ e ∈ reads h k, e < h.vl

theorem readsBelow_all : ReadsBelow fun h _ => List.range h.vl :=
  fun _ _ _ _ he => List.mem_range.mp he

theorem readsBelow_reduction (p : PR) : ReadsBelow fun h k => if k = 0 then h.actives p else [0] := by
  intro h some_element k e he
  dsimp only at he
  split at he
  · exact List.mem_range.mp (List.mem_filter.mp he).1
  · rw [List.mem_singleton.mp he]
    exact Nat.pos_of_ne_zero some_element

section
variable {srcs : List Src} {vd : VR} {rt : Tag → List Tag → Option Tag} {t : Tag}
  {f : Hart → List Tag → List (Nat × Nat) × Nat} {reads : Hart → Nat → List Nat}

/-- With no element left to perform, the destination has its result tag (R188). -/
theorem State.wholesale_of_spent (calm : s.Calm) (spent : s.me.spent = true)
    (tag : rt (s.fromStart.me.tagOf vd) (s.fromStart.me.srcTags srcs) = some t)
    (groups : groupsOk s.fromStart.me.ew (s.fromStart.me.srcRegs srcs) (some (vd, t)) = true) :
    s.wholesale srcs vd rt f reads =
      .ok (s.setMe (s.me.land vd t (List.range s.me.vl) [])) := by
  rw [State.fromStart_of_spent spent] at tag groups
  unfold State.wholesale
  dsimp only
  rw [State.fromStart_of_spent spent, tag]
  show (s.operands true (s.me.srcRegs srcs) (some (vd, t)) >>= _) = _
  rw [State.operands_of_calm calm groups, ok_bind, if_pos spent]
  rfl

/-- Otherwise its elements are written and its flags raised, from the first element (R297). -/
theorem State.wholesale_of_unspent (calm : s.Calm) (below : ReadsBelow reads) (unspent : s.me.spent = false)
    (tag : rt (s.fromStart.me.tagOf vd) (s.fromStart.me.srcTags srcs) = some t)
    (groups : groupsOk s.fromStart.me.ew (s.fromStart.me.srcRegs srcs) (some (vd, t)) = true) :
    let h := s.fromStart.me
    let r := f h (h.srcTags srcs)
    s.wholesale srcs vd rt f reads = .ok (s.fromStart.setMe (h.whole vd t r.1 r.2)) := by
  rw [State.fromStart_tagOf, State.fromStart_srcTags] at tag
  rw [State.fromStart_srcRegs] at groups
  have calm := State.fromStart_calm calm
  unfold State.wholesale
  dsimp only
  rw [tag]
  show (s.fromStart.operands true (s.me.srcRegs srcs) (some (vd, t)) >>= _) = _
  rw [State.operands_of_calm calm groups, ok_bind, if_neg (Bool.eq_false_iff.mp unspent),
    State.sound_of_calm calm _ fun some_element => below _ some_element, ok_bind, State.fromStart_srcTags]
  rfl

end

end

/-- Every form is a write at completion of what it reads below vl, and its length. -/
theorem exec_wholeForm {i : Instr} {q : WholeForm} (form : wholeForm i = some q) (s : State) :
    ∃ reads, ReadsBelow reads ∧ exec i s = completeV q.len (s.wholesale q.srcs q.vd q.rt q.f reads) := by
  have reduction {j : Instr} {r : WholeForm} (p : PR) (run : exec j s = completeV r.len (s.wholesale r.srcs r.vd r.rt r.f
      fun h k => if k = 0 then h.actives p else [0])) :
      ∃ reads, ReadsBelow reads ∧ exec j s = completeV r.len (s.wholesale r.srcs r.vd r.rt r.f reads) :=
    ⟨_, readsBelow_reduction p, run⟩
  have other {j : Instr} {r : WholeForm} (run : exec j s = completeV r.len (s.wholesale r.srcs r.vd r.rt r.f
      fun h _ => List.range h.vl)) :
      ∃ reads, ReadsBelow reads ∧ exec j s = completeV r.len (s.wholesale r.srcs r.vd r.rt r.f reads) :=
    ⟨_, readsBelow_all, run⟩
  unfold wholeForm at form
  split at form
  case h_1 | h_2 | h_3 | h_4 | h_5 | h_6 => cases form; exact reduction _ rfl
  case h_19 =>
    split at form
    case h_1 | h_2 | h_3 | h_4 | h_5 | h_6 => cases form; exact reduction _ rfl
    case h_19 => cases form
    all_goals cases form; exact other rfl
  case h_20 => cases form
  all_goals cases form; exact other rfl

/-- Settles O31: legal operands of a calm state leave the landing, or its tag alone where no element is left. -/
theorem wholeResults : Obligations.WholeResults := by
  unfold Obligations.WholeResults
  intro s i q rt form calm h tag groups r
  obtain ⟨reads, below, run⟩ := exec_wholeForm form s
  rw [run]
  refine ⟨fun unspent => ?elements, fun spent => ?none_left⟩
  case elements =>
    rw [State.wholesale_of_unspent calm below unspent tag groups]
    have done := completeV_goes (s.fromStart.setMe (h.whole q.vd rt r.1 r.2)) q.len
    rw [State.me_setMe, Hart.pcNext, Hart.whole_pc] at done
    exact State.goesV_of_fromStart (State.goesV_setMe (Hart.whole_task ..) done)
  case none_left =>
    have here : h = s.me := congrArg State.me (State.fromStart_of_spent spent)
    rw [State.wholesale_of_spent calm spent tag groups, here]
    have done := completeV_goes (s.setMe (s.me.land q.vd rt (List.range s.me.vl) [])) q.len
    rw [State.me_setMe, Hart.land_pcNext] at done
    exact State.goesV_setMe (s.me.land_sameButVectors ..).task done

end Sys2Proof.Machine

/-!
PROOFS. Words and their bytes: what the decoder reads from the parcels of a written word; the encoder's words by this, and
the spec's worked words (R234, R235, R238, R240, R243 to R251, R254).
-/
namespace Sys2Proof.Laws.Encoding

/-- The field laws of the single instructions, one for each constructor in its order. -/
theorem statement_of_instr (i : Instr) : Statement i :=
  Instr.rec (motive := Statement)
    deviceReset hostLinkTrain fabricIdAssign flitCrcError mbawynLaneSpare linkRetrainDone linkRetire filterEntryFree
    filterProbeTimeout deviceFenced fenceCleared hbmChannelRetrain hbmRetrainDone coreFail coreQuiesce poolPortDown
    poolRerouteDone rerouteTimeout poolPathReturn reattachCheckDone quarantineWritebackDone graceExpiry bisnp
    poolWriteAck dynamicCapacityRelease attestationRequest gets geto upg putd pinv pdwn data grant ack absent
    probeTimeout controlTimeout patrolScrub roustaboutWriteback powerCapUpdate gatingMarkTimeout l2WayGate
    scratchpadGate wakeComplete gangPlacement gangReserve workSteal arrivalPreemption timeSliceExpiry preemption
    rePlacement pendingTableFit interruptDelivery deferredFaultRaise registerSpill memoryRead drain ticket
    engineChunk stripLand engineMigRetry waitTimeout pcSample lqdbDoorbell lqbaseWrite lqctlEnable lqctlRst
    packetFetch waitPacketComplete counterFreeze fenceRelease ctxdropUnbind pregionAttach identityCheckDone
    identityCheckAbandon pregionFree fabstRejoin swint tsctlWrite tspartWrite debugSetWrite dbghartHalt dbgdatRead
    dbgdatWrite trctlWrite hubRegisterWrite xinvComplete cAdd cSub cAnd cOr cXor cMv cJlr cAddi cAddiX0 cShli cShri
    cSari cAndi cLd64 cSt64 cBeq cBne cJ cNop add sub and or xor shl shr sar slt sltn mul mulh mulhn div divn rem
    remn min max minn maxn clz ctz popc pcrel imhi addi andi ori xori slti shli shri sari ld8 ld16 ld32 ld64 ld8z
    ld16z ld32z ldAcq st8 st16 st32 st64 stRel beq bne blt bge bltn bgen jl jlr amoAdd amoAnd amoOr amoXor amoMin
    amoMax amoSwap amoCas fadd fsub fmul fdiv fsqrt fma fmin fmax fcmpEq fcmpLt fcmpLe fcmpUn fcvt fclass nop trap
    eret wait fenceAcq fenceRel fenceRw xinv xinvAll cacheopWb cacheopWbinv cacheopInv cacheopIfetch brk halt mrd
    mwr setvl setvlG vloop vloopPar vloopLong vend vtag vadd vsub vmul vmin vmax vand vor vxor vaddVx vsubVx vmulVx
    vminVx vmaxVx vandVx vorVx vxorVx vfma vfms vfnma vmacw vfmaVx vfmsVx vfnmaVx vmacwVx vneg vabs vsqrt vrcp
    vrsqrt vexp2 vclz vpopc vclass vmv vsel vsplat vid vshl vshr vshlVx vshrVx vcmp vcmpVx vredsum vredsumOrd
    vredmin vredmax vredand vredor vscan vscanSeg vraise vlower vperm vrev vzip vunzip vsqueeze vspread vrank vconf
    vpart vcuti vcutx vlast vfirst vcvt vnarrow vwiden evExtended vmulh vdiv vrem vsadd vssub vavg vabsd vmulhr vqnt
    vqnte vdqnt vgathw vld vlds vldx vldseg vst vsts vstx vstseg vldLong vstLong vamo vsave vrest pand por pxor pnot
    pandn pafter pset pclr pcnt pfirst cpy cpyr cpyw cpyx cpym vrecv vstream pwait arw await mcfg mzero mop mops
    mrow mwrow mld mst msave mrest mjoin msplit olset olclr olcnt tspawn tsig tdone tkill tyield bar barinit qpush
    qpop qsteal talloc tst tld tpost tdrop linkOrPortTrains zeroFillComplete nonInstruction fetchFault
    i

end Sys2Proof.Laws.Encoding

namespace Sys2Proof

/-! Parcels (R234, R235). -/

/-- The length of a word is that of one parcel, of two or of four. -/
theorem parcelBits_eq (p : Nat) : parcelBits p = 16 ∨ parcelBits p = 32 ∨ parcelBits p = 64 := by
  unfold parcelBits
  split
  · exact .inr (.inl rfl)
  · exact .inr (.inr rfl)
  · exact .inl rfl

/-- A parcel is read back from its two bytes. -/
theorem parcelOf_bytes {p : Nat} (h : p < 65536) : parcelOf (BitVec.ofNat 8 p) (BitVec.ofNat 8 (p / 256)) = p := by
  simp only [parcelOf, BitVec.toNat_ofNat]
  omega

/-- The parcels of a word are read back after those that stand before them. -/
theorem writtenWord_wordBytes (n acc w : Nat) (rest : List Byte) :
    writtenWord n acc (wordBytes n w ++ rest) = some (acc * 65536 ^ n + w % 65536 ^ n) := by
  induction n generalizing acc with
  | zero => simp [writtenWord, Nat.mod_one]
  | succ n ih =>
    have first : w / 65536 ^ n % 65536 < 65536 := Nat.mod_lt _ (by decide)
    show writtenWord n (acc * 65536 + parcelOf _ _) (wordBytes n w ++ rest) = _
    rw [parcelOf_bytes first, ih, Nat.mod_pow_succ]
    refine congrArg some ?_
    have shift : acc * 65536 * 65536 ^ n = acc * 65536 ^ (n + 1) := by
      rw [Nat.mul_assoc, Nat.pow_succ, Nat.mul_comm 65536]
    rw [Nat.add_mul, shift, Nat.mul_comm (w / 65536 ^ n % 65536), Nat.add_assoc, Nat.add_comm (w % 65536 ^ n)]

/-- Bytes decode by the length that their first parcel gives. -/
theorem decodeBytes_of_writtenWord {lo hi : Byte} {rest : List Byte} {n w : Nat} (length : parcelBits (parcelOf lo hi) = n)
    (read : writtenWord (n / 16) 0 (lo :: hi :: rest) = some w) :
    decodeBytes (lo :: hi :: rest) = .ok (n / 8, w, decode n w) := by
  subst length
  unfold decodeBytes
  dsimp only
  rw [read]

/-- The parcels of a word whose first one gives its length decode to that length, the word and what the word names. -/
theorem decodeBytes_wordBytes {n w : Nat} (fits : w < 2 ^ n) (length : parcelBits (w / 2 ^ (n - 16)) = n)
    (rest : List Byte) : decodeBytes (wordBytes (n / 16) w ++ rest) = .ok (n / 8, w, decode n w) := by
  obtain ⟨k, rfl⟩ : ∃ k, n = 16 * (k + 1) := by
    have := parcelBits_eq (w / 2 ^ (n - 16))
    exact ⟨n / 16 - 1, by omega⟩
  have parcels : 16 * (k + 1) / 16 = k + 1 := by omega
  have below : 16 * (k + 1) - 16 = 16 * k := by omega
  rw [Nat.pow_mul] at fits
  rw [below, Nat.pow_mul] at length
  have first : w / 65536 ^ k < 65536 := Nat.div_lt_of_lt_mul fits
  have read := writtenWord_wordBytes (k + 1) 0 w rest
  rw [Nat.zero_mul, Nat.zero_add, Nat.mod_eq_of_lt fits] at read
  rw [parcels]
  refine decodeBytes_of_writtenWord ?_ (by rw [parcels]; exact read)
  rw [Nat.mod_eq_of_lt first, parcelOf_bytes first, length]

/-! The encoder's words (R240, R254). -/

/-- The decoder takes a word whose fields are those of a well-formed instruction that encodes to it. -/
theorem decode_of_encode {i : Instr} {n w : Nat} (wf : i.wellFormed = true) (enc : i.encode = some (n, w))
    (fields : fieldsOf n w = some i) : decode n w = .ok i := by
  simp [decode, fields, wf, enc]

/-- It rejects every other word with these fields. -/
theorem decode_of_other_word {i : Instr} {n w : Nat} (wf : i.wellFormed = true) (other : i.encode ≠ some (n, w))
    (fields : fieldsOf n w = some i) : decode n w = .error .unusedField := by
  simp [decode, fields, wf, other]

/-- Settles O58: the word has the length that its first parcel gives, and its fields are those of the instruction. -/
theorem encodeDecode : Obligations.EncodeDecode := by
  unfold Obligations.EncodeDecode
  intro i n w wf enc rest
  obtain ⟨fits, length, fields⟩ := Laws.Encoding.statement_of_instr i wf n w enc
  rw [decodeBytes_wordBytes fits length, decode_of_encode wf enc fields]

/-! Table words. -/

/-- A table word whose first parcel gives its length decodes as the word. -/
theorem decodeTableWord_eq {n w : Nat} (fits : w < 2 ^ n) (length : parcelBits (w / 2 ^ (n - 16)) = n) :
    decodeTableWord n w = (decode n w).toOption := by
  have parcels : tableParcels n = n / 16 := by
    obtain h | h | h := length ▸ parcelBits_eq (w / 2 ^ (n - 16)) <;> subst h <;> rfl
  have read := decodeBytes_wordBytes fits length []
  rw [List.append_nil, ← parcels] at read
  unfold decodeTableWord
  rw [read]
  cases decode n w <;> rfl

/-- A well-formed instruction's written word decodes to it as a table word. -/
theorem decodeTableWord_of_encode {i : Instr} {n w : Nat} (enc : i.encode = some (n, w)) (wf : i.wellFormed = true) :
    decodeTableWord n w = some i := by
  obtain ⟨fits, length, fields⟩ := Laws.Encoding.statement_of_instr i wf n w enc
  rw [decodeTableWord_eq fits length, decode_of_encode wf enc fields]
  rfl

theorem decodeTableWord_of_rejected {n w : Nat} {e : Reject} (fits : w < 2 ^ n)
    (length : parcelBits (w / 2 ^ (n - 16)) = n) (rejected : decode n w = .error e) : decodeTableWord n w = none := by
  rw [decodeTableWord_eq fits length, rejected]
  rfl

/-- Settles O57: the words are the encodings of their instructions; in the last two, the matrix function code is
unassigned, and a bit that a `mop` does not use is set. -/
theorem workedWordsDecode : Obligations.WorkedWordsDecode := by
  unfold Obligations.WorkedWordsDecode
  have unassigned : decodeTableWord 64 0xE878000000000000 = none :=
    decodeTableWord_of_rejected (e := .reservedForm) (by decide) rfl rfl
  have mop_fields : fieldsOf 64 0xE812110C7A54F400 = some (.mop .t1 2 4 6 7 20 21 3 true true) := rfl
  have unused : decodeTableWord 64 0xE812110C7A54F400 = none :=
    decodeTableWord_of_rejected (by decide) rfl (decode_of_other_word rfl (by decide) mop_fields)
  iterate 20 refine ⟨decodeTableWord_of_encode rfl rfl, ?_⟩
  exact ⟨unassigned, unused⟩

end Sys2Proof

/-!
PROOFS. `nop`, `cacheop.ifetch`, `wait` and `halt` (R238, R270, R271, R274).
-/
namespace Sys2Proof.Machine

section
variable (s : State)

theorem exec_nop_goes : s.Goes (exec .nop s) s.me (s.me.pc + 4) := complete_goes s 4

theorem exec_cNop_goes : s.Goes (exec .cNop s) s.me (s.me.pc + 2) := complete_goes s 2

/-- An instruction whose whole effect is that its hart is left as h. -/
theorem complete_setMe_goes {h : Hart} (n : Nat) (task : h.task = s.me.task) (pc : h.pc = s.me.pc) :
    s.Goes (complete n (.ok (s.setMe h))) h (s.me.pcNext n) := by
  have done := complete_goes (s.setMe h) n
  rw [State.me_setMe, Hart.pcNext, pc] at done
  exact State.goes_setMe task done

theorem exec_cacheopIfetch_goes : s.Goes (exec .cacheopIfetch s) { s.me with pre := [] } (s.me.pc + 4) :=
  complete_setMe_goes s 4 rfl rfl

/-- A hart that waits has moved past its instruction (R270, R271). -/
theorem State.rest_goes (w : Waiting) : s.Goes (complete 4 (s.rest w)) { s.me with waiting := w } (s.me.pc + 4) :=
  complete_setMe_goes s 4 rfl rfl

end

/-- `wait` with x0 waits for its time alone. -/
theorem State.waitOn_zero (s : State) : s.waitOn 0 = s.rest (.word none 0 (s.clk + 190000)) := rfl

/-- `wait` on a word that can be read, with no held access of its hart to it. -/
theorem State.waitOn_of_reaches {s : State} {a : XR} {p : Phys} (word : a ≠ 0)
    (reaches : s.reaches (s.addrOf a 0) 8 false false = some p) (sound : s.isBad p.key 8 = false)
    (free : s.olderHeld s.cur s.drv.nextId p.key 8 = false) :
    s.waitOn a = s.rest (.word (some p.key) (s.waitStamp p.key) (s.clk + 190000)) := by
  have base : s.addrOf a 0 = (s.getX a).toNat % 2 ^ 55 := by simp [State.addrOf]
  have access := State.scalarAccess_of_reaches reaches
  rw [base] at access
  unfold State.waitOn
  dsimp only
  rw [if_neg word, access]
  dsimp only
  rw [if_neg (Bool.eq_false_iff.mp sound), if_neg (Bool.eq_false_iff.mp free)]
  rfl

theorem exec_wait (s : State) (a : XR) : exec (.wait a) s = complete 4 (s.waitOn a) := rfl

theorem exec_halt {s : State} (level : s.me.level ≠ .u) : exec .halt s = complete 4 (s.rest .halt) := by
  show execHalt s = _
  rw [execHalt, State.needS_of_ne_u level]
  rfl

/-- Settles O12: each instruction completes, and changes at most what its hart waits for or has fetched ahead. -/
theorem nopAndWaitResults : Obligations.NopAndWaitResults := by
  unfold Obligations.NopAndWaitResults
  refine ⟨fun s => ⟨exec_nop_goes s, exec_cNop_goes s, exec_cacheopIfetch_goes s⟩, fun s a p => ⟨?timed, ?word, ?halt⟩⟩
  case timed =>
    rw [exec_wait, State.waitOn_zero]
    exact s.rest_goes _
  case word =>
    intro word reaches sound free
    rw [exec_wait, State.waitOn_of_reaches word reaches sound free]
    exact s.rest_goes _
  case halt =>
    intro level
    rw [exec_halt level]
    exact s.rest_goes _

end Sys2Proof.Machine

/-!
PROOFS. Scalar integer instructions: the values of the operation table, as numbers; and every form by these (R237, R257 to
R259).
-/
namespace Sys2Proof

/-! Bits of a number, counted from the lowest (R257). -/

theorem trailZeros_eq_find (n v : Nat) :
    trailZeros n v = ((List.range n).find? fun i => v.testBit i).getD n := by
  induction n generalizing v with
  | zero => rfl
  | succ n ih =>
    rw [trailZeros, List.range_succ_eq_map, List.find?_cons, Nat.testBit_zero]
    by_cases odd : v % 2 = 1
    · simp [odd]
    · have tail : ((List.range n).map Nat.succ).find? (fun i => v.testBit i) =
          ((List.range n).find? fun i => (v / 2).testBit i).map Nat.succ := by
        rw [List.find?_map]
        exact congrArg (fun p => Option.map Nat.succ (List.find? p (List.range n)))
          (funext fun i => Nat.testBit_succ v i)
      rw [if_neg odd, ih, decide_eq_false odd, tail]
      cases (List.range n).find? fun i => (v / 2).testBit i with
      | none => exact Nat.add_comm 1 n
      | some i => exact Nat.add_comm 1 i

theorem popCount_eq_length (n v : Nat) :
    popCount n v = ((List.range n).filter fun i => v.testBit i).length := by
  induction n generalizing v with
  | zero => rfl
  | succ n ih =>
    have tail : (((List.range n).map Nat.succ).filter fun i => v.testBit i).length =
        ((List.range n).filter fun i => (v / 2).testBit i).length := by
      rw [List.filter_map, List.length_map]
      exact congrArg (fun p => ((List.range n).filter p).length) (funext fun i => Nat.testBit_succ v i)
    rw [popCount, List.range_succ_eq_map, List.filter_cons, Nat.testBit_zero, ih]
    by_cases odd : v % 2 = 1
    · rw [decide_eq_true odd, if_pos rfl, List.length_cons, tail, odd, Nat.add_comm]
    · rw [decide_eq_false odd, if_neg Bool.false_ne_true, tail]
      omega

theorem leadZeros_word (x : Word) : BitVec.ofNat 64 (leadZeros 64 x.toNat) =
    if x = 0 then 64 else BitVec.ofNat 64 (63 - x.toNat.log2) := by
  rw [leadZeros, Nat.mod_eq_of_lt x.isLt, bitLen]
  by_cases zero : x = 0
  · subst zero; rfl
  · have nonzero : x.toNat ≠ 0 := fun h => zero (BitVec.eq_of_toNat_eq h)
    rw [if_neg nonzero, if_neg zero]
    congr 1
    omega

end Sys2Proof

namespace Sys2Proof.Machine

/-! The table (R257). -/

section
variable (x y : Word)

theorem shl64_eq : shl64 x y = BitVec.ofNat 64 (x.toNat * 2 ^ (y.toNat % 64)) := by
  refine BitVec.eq_of_toNat_eq ?_
  rw [shl64, BitVec.toNat_shiftLeft, Nat.shiftLeft_eq, BitVec.toNat_ofNat]

theorem shr64_eq : shr64 x y = BitVec.ofNat 64 (x.toNat / 2 ^ (y.toNat % 64)) := by
  refine BitVec.eq_of_toNat_eq ?_
  rw [shr64, BitVec.toNat_ushiftRight, Nat.shiftRight_eq_div_pow, BitVec.toNat_ofNat,
    Nat.mod_eq_of_lt (Nat.lt_of_le_of_lt (Nat.div_le_self ..) x.isLt)]

theorem sar64_eq : sar64 x y = BitVec.ofInt 64 (x.toInt / 2 ^ (y.toNat % 64)) := by
  rw [sar64, BitVec.sshiftRight, Int.shiftRight_eq_div_pow]
  rfl

theorem flag64_decide (p : Prop) [Decidable p] : flag64 (decide p) = if p then 1 else 0 := by
  by_cases h : p <;> simp [flag64, h]

/-- A full product modulo 2^128, from which the high word is taken. -/
theorem mulh64_eq : mulh64 x y = ((x.signExtend 128 * y.signExtend 128) >>> 64).setWidth 64 := by
  have ext (z : Word) : z.signExtend 128 = BitVec.ofInt 128 z.toInt := rfl
  refine BitVec.eq_of_toNat_eq ?_
  rw [ext, ext, ← BitVec.ofInt_mul, mulh64, BitVec.toNat_setWidth, BitVec.toNat_ushiftRight, BitVec.toNat_ofInt,
    BitVec.toNat_ofInt, Nat.shiftRight_eq_div_pow]
  generalize x.toInt * y.toInt = z
  push_cast
  omega

theorem mulhn64_eq : mulhn64 x y = ((x.setWidth 128 * y.setWidth 128) >>> 64).setWidth 64 := by
  have below : x.toNat * y.toNat < 2 ^ 64 * 2 ^ 64 := Nat.mul_lt_mul'' x.isLt y.isLt
  have ext (z : Word) : (z.setWidth 128).toNat = z.toNat := by
    rw [BitVec.toNat_setWidth, Nat.mod_eq_of_lt (by have := z.isLt; omega)]
  refine BitVec.eq_of_toNat_eq ?_
  rw [mulhn64, BitVec.toNat_setWidth, BitVec.toNat_ushiftRight, BitVec.toNat_mul, ext, ext, BitVec.toNat_ofNat,
    Nat.shiftRight_eq_div_pow, Nat.mod_eq_of_lt (a := x.toNat * y.toNat) (by omega)]

theorem toInt_eq_zero_iff : y.toInt = 0 ↔ y = 0 :=
  ⟨fun h => BitVec.eq_of_toInt_eq h, fun h => by rw [h]; rfl⟩

theorem toNat_eq_zero_iff : (y.toNat : Int) = 0 ↔ y = 0 :=
  ⟨fun h => BitVec.eq_of_toNat_eq (Int.ofNat.inj h), fun h => by rw [h]; rfl⟩

theorem div64_eq : div64 x y = if y = 0 then -1 else x.sdiv y := by
  unfold div64 divInt
  simp only [toInt_eq_zero_iff]
  split
  · rfl
  · exact BitVec.eq_of_toInt_eq (by rw [BitVec.toInt_ofInt, BitVec.toInt_sdiv])

theorem rem64_eq : rem64 x y = if y = 0 then x else x.srem y := by
  unfold rem64 remInt
  simp only [toInt_eq_zero_iff]
  split
  · exact BitVec.ofInt_toInt
  · rw [← BitVec.toInt_srem, BitVec.ofInt_toInt]

theorem divn64_eq : divn64 x y = if y = 0 then 0xFFFFFFFFFFFFFFFF else x / y := by
  unfold divn64 divInt
  simp only [toNat_eq_zero_iff]
  split
  · rfl
  · rw [← Int.ofNat_tdiv, BitVec.ofInt_natCast, ← BitVec.toNat_udiv, BitVec.ofNat_toNat, BitVec.setWidth_eq]

theorem remn64_eq : remn64 x y = if y = 0 then x else x % y := by
  unfold remn64 remInt
  simp only [toNat_eq_zero_iff]
  split
  · rw [BitVec.ofInt_natCast, BitVec.ofNat_toNat, BitVec.setWidth_eq]
  · rw [← Int.ofNat_tmod, BitVec.ofInt_natCast, ← BitVec.toNat_umod, BitVec.ofNat_toNat, BitVec.setWidth_eq]

/-! Of two equal words either is the lesser, and the greater. -/

theorem ite_slt_eq {α : Type} (p q : α) (h : x = y → p = q) :
    (if x.slt y then p else q) = if x.toInt ≤ y.toInt then p else q := by
  rw [BitVec.slt]
  by_cases same : x = y
  · subst same; simp [h rfl]
  · have apart : x.toInt ≠ y.toInt := fun e => same (BitVec.eq_of_toInt_eq e)
    simp only [decide_eq_true_eq]
    refine if_congr ?_ rfl rfl
    omega

theorem ite_ult_eq {α : Type} (p q : α) (h : x = y → p = q) :
    (if x.ult y then p else q) = if x.toNat ≤ y.toNat then p else q := by
  rw [BitVec.ult]
  by_cases same : x = y
  · subst same; simp [h rfl]
  · have apart : x.toNat ≠ y.toNat := fun e => same (BitVec.eq_of_toNat_eq e)
    simp only [decide_eq_true_eq]
    refine if_congr ?_ rfl rfl
    omega

end

/-! Immediates (R258, R259). -/

/-- A shift by an immediate of at most six bits. -/
theorem toNat_shiftAmount {n : Nat} (h : n ≤ 6) (k : BitVec n) : (k.setWidth 64).toNat % 64 = k.toNat := by
  have small : k.toNat < 64 := Nat.lt_of_lt_of_le k.isLt (Nat.pow_le_pow_right (by decide) h)
  rw [BitVec.toNat_setWidth]
  omega

theorem toInt_sext64 {n : Nat} (h : n ≤ 64) (i : BitVec n) : (sext64 i).toInt = i.toInt :=
  BitVec.toInt_signExtend_of_le h

/-- The 19-bit immediate of `imhi` and `pcrel`, shifted left by 11. -/
theorem sext64_shiftLeft (i : BitVec 19) : sext64 i <<< 11 = BitVec.ofInt 64 (i.toInt * 2 ^ 11) := by
  rw [BitVec.ofInt_mul, BitVec.shiftLeft_eq_mul_twoPow]
  rfl

theorem setWidth_add_ofInt (pc : BitVec 55) (z : Int) :
    pc.setWidth 64 + BitVec.ofInt 64 z = BitVec.ofInt 64 (pc.toNat + z) := by
  rw [BitVec.ofInt_add, BitVec.ofInt_natCast, BitVec.ofNat_toNat]

/-! The instructions. -/

/-- An instruction that writes a value of its table. -/
theorem State.Gives.of_alu {s : State} {o : Host.Outcome State Fault Refusal} {n : Nat} {d : XR} {v w : Word}
    (run : o = s.alu n d w) (value : w = v) : s.Gives o n d v := by
  subst run value
  exact s.alu_gives n d w

/-- Settles O1: every form writes its table's value, in the spec's own arithmetic by the lemmas above. -/
theorem scalarResults : Obligations.ScalarResults := by
  unfold Obligations.ScalarResults
  refine ⟨fun s d a b => ?registers, fun s d a i k => ?immediates, fun s d i => ?addresses, fun s d b i => ?compressed⟩
  case registers =>
    intro x y k
    have plain {i : Instr} {v : Word} (run : exec i s = s.alu 4 d v) : s.Gives (exec i s) 4 d v :=
      State.Gives.of_alu run rfl
    exact ⟨plain rfl, plain rfl, plain rfl, plain rfl, plain rfl, .of_alu rfl (shl64_eq x y),
      .of_alu rfl (shr64_eq x y), .of_alu rfl (sar64_eq x y), .of_alu rfl (flag64_decide _),
      .of_alu rfl (flag64_decide _), plain rfl, .of_alu rfl (mulh64_eq x y),
      .of_alu rfl (mulhn64_eq x y), .of_alu rfl (div64_eq x y), .of_alu rfl (divn64_eq x y),
      .of_alu rfl (rem64_eq x y), .of_alu rfl (remn64_eq x y), .of_alu rfl (ite_slt_eq x y x y id),
      .of_alu rfl (ite_slt_eq x y y x Eq.symm), .of_alu rfl (ite_ult_eq x y x y id),
      .of_alu rfl (ite_ult_eq x y y x Eq.symm), .of_alu rfl (leadZeros_word x),
      .of_alu rfl (congrArg _ (trailZeros_eq_find 64 x.toNat)),
      .of_alu rfl (congrArg _ (popCount_eq_length 64 x.toNat))⟩
  case immediates =>
    intro x y
    have plain {j : Instr} {v : Word} (run : exec j s = s.alu 4 d v) : s.Gives (exec j s) 4 d v :=
      State.Gives.of_alu run rfl
    have amount := toNat_shiftAmount (Nat.le_refl 6) k
    refine ⟨plain rfl, plain rfl, plain rfl, plain rfl, .of_alu rfl ?_,
      .of_alu rfl ((shl64_eq x _).trans (by rw [amount])), .of_alu rfl ((shr64_eq x _).trans (by rw [amount])),
      .of_alu rfl ((sar64_eq x _).trans (by rw [amount]))⟩
    rw [← toInt_sext64 (by decide) i]
    exact flag64_decide _
  case addresses =>
    refine ⟨.of_alu rfl (sext64_shiftLeft i), .of_alu rfl ?_⟩
    rw [sext64_shiftLeft, setWidth_add_ofInt]
  case compressed =>
    intro x y z
    have plain {j : Instr} {v : Word} (run : exec j s = s.alu 2 d v) : s.Gives (exec j s) 2 d v :=
      State.Gives.of_alu run rfl
    have amount := toNat_shiftAmount (n := 5) (by decide) i
    exact ⟨plain rfl, plain rfl, plain rfl, plain rfl, plain rfl, plain rfl, plain rfl, plain rfl, plain rfl,
      .of_alu rfl ((shl64_eq x _).trans (by rw [amount])), .of_alu rfl ((shr64_eq x _).trans (by rw [amount])),
      .of_alu rfl ((sar64_eq x _).trans (by rw [amount]))⟩

end Sys2Proof.Machine

/-!
PROOFS. Branches and jumps: their targets, and where each goes (R237, R262, R263).
-/
namespace Sys2Proof.Machine

section
variable {s : State}

/-- The target of a halfword offset lies twice the offset away. -/
theorem Hart.target_eq {n : Nat} (h : Hart) (o : BitVec n) : h.target o = h.pc + BitVec.ofInt 55 (2 * o.toInt) := by
  have twice : o.signExtend 55 <<< 1 = BitVec.ofInt 55 (2 * o.toInt) := by
    rw [BitVec.shiftLeft_eq_mul_twoPow, Int.mul_comm, BitVec.ofInt_mul]
    rfl
  rw [Hart.target, twice]

/-- A branch goes to its target where its condition holds, and else past itself. -/
theorem State.branch_goes {n m : Nat} {o : BitVec m} {out : Host.Outcome State Fault Refusal} {c : Bool} {p : Prop}
    [Decidable p] (run : out = s.branch n c (s.me.target o)) (cond : c = true ↔ p) :
    s.Goes out s.me (if p then s.me.pc + BitVec.ofInt 55 (2 * o.toInt) else s.me.pcNext n) := by
  subst run
  have pc : (if c then s.me.target o else s.me.pcNext n) =
      if p then s.me.pc + BitVec.ofInt 55 (2 * o.toInt) else s.me.pcNext n := by
    rw [Hart.target_eq]
    exact if_congr cond rfl rfl
  rw [State.branch, pc]
  exact completeAt_goes s _

/-- A jump leaves pc_next in its link and goes to its target. -/
theorem State.jump_goes (s : State) (n : Nat) (l : XR) (t : BitVec 55) :
    s.Goes (s.jump n l t) (s.me.setX l ((s.me.pcNext n).setWidth 64)) t := by
  have done := completeAt_goes (s.setX l ((s.me.pcNext n).setWidth 64)) t
  simp only [State.setX, State.me_setMe] at done
  exact State.goes_setMe (Hart.setX_task ..) done

/-- An even target of `jlr` is jumped to. -/
theorem State.jumpReg_goes {n : Nat} {l a : XR} {off : Word} (even : effAddr (s.getX a) off % 2 = 0) :
    s.Goes (s.jumpReg n l a off) (s.me.setX l ((s.me.pcNext n).setWidth 64))
      (BitVec.ofNat 55 (effAddr (s.getX a) off)) := by
  unfold State.jumpReg
  dsimp only
  rw [if_neg (by omega)]
  exact s.jump_goes n l _

/-- An odd one is misaligned. -/
theorem State.jumpReg_traps {n : Nat} {l a : XR} {off : Word} (odd : effAddr (s.getX a) off % 2 = 1) :
    s.Traps (s.jumpReg n l a off)
      { Trap.at0 .misalign 0 (effAddr (s.getX a) off) with old := s.me.resume.pending } := by
  unfold State.jumpReg
  dsimp only
  rw [if_pos odd]
  rfl

theorem effAddr_zero (x : Word) : effAddr x 0 = x.toNat % 2 ^ 55 := by
  simp [effAddr]

end

/-- Settles O2: a branch by its condition, a jump by its target, `jlr` by the parity of its target. -/
theorem branchAndJumpResults : Obligations.BranchAndJumpResults := by
  unfold Obligations.BranchAndJumpResults
  refine ⟨fun s a b o o7 => ?branches, fun s l a o o13 i => ?jumps, decodeTableWord_of_encode rfl rfl⟩
  case branches =>
    intro x y pc dest dest7
    have lt : x.slt y = true ↔ x.toInt < y.toInt := decide_eq_true_iff
    have ltn : x.ult y = true ↔ x.toNat < y.toNat := decide_eq_true_iff
    have ge : (!x.slt y) = true ↔ y.toInt ≤ x.toInt := by simp [BitVec.slt]
    have gen : (!x.ult y) = true ↔ y.toNat ≤ x.toNat := by simp [BitVec.ult]
    exact ⟨State.branch_goes rfl beq_iff_eq, State.branch_goes rfl bne_iff_ne, State.branch_goes rfl lt,
      State.branch_goes rfl ge, State.branch_goes rfl ltn, State.branch_goes rfl gen, State.branch_goes rfl beq_iff_eq,
      State.branch_goes rfl bne_iff_ne⟩
  case jumps =>
    intro pc t u
    have base : effAddr (s.getX a) 0 = u := effAddr_zero _
    refine ⟨?link, ?plain, State.jumpReg_goes, fun even => ?compressed, State.jumpReg_traps, fun odd => ?misaligned⟩
    case link =>
      rw [← Hart.target_eq]
      exact s.jump_goes 4 l _
    case plain =>
      rw [← Hart.target_eq]
      exact s.jump_goes 2 0 _
    case compressed => exact base ▸ State.jumpReg_goes (base ▸ even)
    case misaligned => exact base ▸ State.jumpReg_traps (base ▸ odd)

end Sys2Proof.Machine

/-!
PROOFS. Loads of every form: at once, from the bag and from the hub block (R260, R261).
-/
namespace Sys2Proof.Machine

section
variable {s : State} (d a : XR) (sc : Scope) (o : BitVec 6) (o3 : BitVec 3)

/-- The address of an acquire: its offset counts in units of the access size. -/
theorem exec_ldAcq (z : LdSize) : exec (.ldAcq d a sc z o) s =
    complete 4 (s.load (s.addrOf a (BitVec.ofNat 64 (ldBytes z) * o.setWidth 64)) z d true) := by
  rw [← State.addrOf_scaled, Nat.mul_comm]
  rfl

theorem exec_cLd64 : exec (.cLd64 d a o3) s =
    complete 2 (s.load (s.addrOf a (8 * o3.setWidth 64)) .b64 d false) :=
  congrArg (fun va => complete 2 (s.load va .b64 d false)) (s.addrOf_scaled a 8 o3)

/-- An offset in bytes. -/
theorem State.addrOf_bytes (s : State) : s.addrOf a (BitVec.ofNat 64 1 * o.setWidth 64) = s.addrOf a (o.setWidth 64) :=
  congrArg (s.addrOf a) (BitVec.one_mul _)

variable {d} {i : Instr} {len va : Nat} {acq : Bool}

/-- An instruction that is a load. -/
theorem State.loadsNow_of_run (z : LdSize) {f : Nat → Word} (run : exec i s = complete len (s.load va z d acq))
    (value : ∀ v, loadValue z v = f v) : s.LoadsNow (exec i s) len d va (ldBytes z) f := by
  rw [run]
  exact s.load_now len d va z acq f value

theorem State.loadsLater_of_run (z : LdSize) (run : exec i s = complete len (s.load va z d acq)) :
    s.LoadsLater (exec i s) len d va (ldBytes z) z acq := by
  rw [run]
  exact s.load_later len d va z acq

end

/-- Settles O3: every form is a load, whose size says how its value is extended. -/
theorem loadResults : Obligations.LoadResults := by
  unfold Obligations.LoadResults
  intro s d a i sc o o3 va
  have bytes {z : LdSize} (one : ldBytes z = 1) :
      exec (.ldAcq d a sc z o) s = complete 4 (s.load (s.addrOf a (o.setWidth 64)) z d true) := by
    rw [exec_ldAcq, one, State.addrOf_bytes]
  have acquire := exec_ldAcq (s := s) d a sc o
  have short := exec_cLd64 (s := s) d a o3
  exact ⟨State.loadsNow_of_run .b8 rfl loadValue_b8, State.loadsNow_of_run .b16 rfl loadValue_b16,
    State.loadsNow_of_run .b32 rfl loadValue_b32, State.loadsNow_of_run .b64 rfl loadValue_b64,
    State.loadsNow_of_run .z8 rfl loadValue_z8, State.loadsNow_of_run .z16 rfl loadValue_z16,
    State.loadsNow_of_run .z32 rfl loadValue_z32, State.loadsNow_of_run .b8 (bytes rfl) loadValue_b8,
    State.loadsNow_of_run .b16 (acquire .b16) loadValue_b16, State.loadsNow_of_run .b32 (acquire .b32) loadValue_b32,
    State.loadsNow_of_run .b64 (acquire .b64) loadValue_b64, State.loadsNow_of_run .z8 (bytes rfl) loadValue_z8,
    State.loadsNow_of_run .z32 (acquire .z32) loadValue_z32, State.loadsNow_of_run .z16 (acquire .z16) loadValue_z16,
    State.loadsNow_of_run .b64 short loadValue_b64, s.load_hub 4 d va false, State.loadsLater_of_run .b8 rfl,
    State.loadsLater_of_run .b16 rfl, State.loadsLater_of_run .b32 rfl, State.loadsLater_of_run .b64 rfl,
    State.loadsLater_of_run .z8 rfl, State.loadsLater_of_run .z16 rfl, State.loadsLater_of_run .z32 rfl,
    State.loadsLater_of_run .b8 (bytes rfl), State.loadsLater_of_run .b16 (acquire .b16),
    State.loadsLater_of_run .b32 (acquire .b32), State.loadsLater_of_run .b64 (acquire .b64),
    State.loadsLater_of_run .z8 (bytes rfl), State.loadsLater_of_run .z16 (acquire .z16),
    State.loadsLater_of_run .z32 (acquire .z32), State.loadsLater_of_run .b64 short⟩

end Sys2Proof.Machine

/-!
PROOFS. Scalar atomics: what each operation leaves at its home (R139, R267).
-/
namespace Sys2Proof.Machine

section
variable {n old opnd cmp : Nat}

/-- Each operation on an old value of n bytes, without a tag (R267). -/
theorem amoResult_plain (h : old < 2 ^ (8 * n)) (op : AmoOp) : (amoResult 0 op none n old opnd cmp).1 =
    let x := opnd % 2 ^ (8 * n)
    match op with
    | .add => (old + x) % 2 ^ (8 * n)
    | .and => old &&& x
    | .or => old ||| x
    | .xor => old ^^^ x
    | .min => if sextNat x (8 * n) < sextNat old (8 * n) then x else old
    | .max => if sextNat old (8 * n) < sextNat x (8 * n) then x else old
    | .minn => if x < old then x else old
    | .maxn => if old < x then x else old
    | .swap => x
    | .cas => if old = cmp % 2 ^ (8 * n) then x else old := by
  cases op <;> simp only [amoResult, Nat.mod_eq_of_lt h]

end

/-- Settles O6: an atomic updates its location (`State.amo_updates`) to its operation's result, of 8 bytes or of 4. -/
theorem atomicResults : Obligations.AtomicResults := by
  unfold Obligations.AtomicResults
  intro s d a b w acq rel sc k x c sg
  have updates {i : Instr} (op : AmoOp) {new : Nat → Nat} (run : exec i s = complete 4 (s.amo op d a b w acq rel sc))
      (result : ∀ o, o < 2 ^ (8 * (if w then 8 else 4)) →
        (amoResult 0 op none (if w then 8 else 4) o (s.getX b).toNat (s.getX d).toNat).1 = new o) :
      s.Updates (exec i s) d a w rel sc new := by
    rw [run]
    exact s.amo_updates op d a b w acq rel sc new result
  have width : 2 ^ (8 * (if w then 8 else 4)) = k := by cases w <;> rfl
  have signed (v : Nat) : sextNat v (8 * (if w then 8 else 4)) = sg v := by
    cases w
    · exact sextNat_toInt v 32 (by decide)
    · exact sextNat_toInt v 64 (by decide)
  refine ⟨updates .add rfl ?_, updates .and rfl ?_, updates .or rfl ?_, updates .xor rfl ?_, updates .min rfl ?_,
    updates .max rfl ?_, updates .minn rfl ?_, updates .maxn rfl ?_, updates .swap rfl ?_, updates .cas rfl ?_⟩
  all_goals
    intro o small
    rw [amoResult_plain small]
    simp only [width, signed]
    rfl

end Sys2Proof.Machine

/-!
PROOFS. Scalar floating point: what an instruction leaves of its hart (R264 to R266).
-/
namespace Sys2Proof.Machine

section
variable {s : State} {o : Host.Outcome State Fault Refusal} {d : XR}

/-- An instruction that raises flags and writes an x register. -/
theorem State.flagged_goes (fl : Nat) (v : Word) (run : o = complete 4 (.ok ((s.orFlags fl).setX d v))) :
    s.Goes o ((s.me.orFlags fl).setX d v) (s.me.pcNext 4) := by
  subst run
  have done := (s.orFlags fl).writes_goes 4 d v (h := s.me.orFlags fl) (State.me_setMe ..)
  rw [Hart.pcNext, Hart.orFlags_pc] at done
  exact State.goes_setMe (Hart.orFlags_task ..) done

theorem State.putFloat_goes {r : Coded} (run : o = s.putFloat d r) :
    s.Goes o ((s.me.orFlags r.2).setX d (BitVec.ofNat 64 r.1)) (s.me.pcNext 4) :=
  State.flagged_goes r.2 _ run

theorem State.putCmp_goes {r : Bool × Nat} (run : o = s.putCmp d r) :
    s.Goes o ((s.me.orFlags r.2).setX d (if r.1 then 1 else 0)) (s.me.pcNext 4) :=
  State.flagged_goes r.2 _ run

end

/-- Settles O9: every form puts a rounded code, or a comparison's 1 or 0, with the flags of its operation. -/
theorem floatResults : Obligations.FloatResults := by
  unfold Obligations.FloatResults
  intro s d a b t u f m x y z puts tells
  exact ⟨State.putFloat_goes rfl, State.putFloat_goes rfl, State.putFloat_goes rfl, State.putFloat_goes rfl,
    State.putFloat_goes rfl, State.putFloat_goes rfl, State.putFloat_goes rfl, State.putFloat_goes rfl,
    State.putCmp_goes rfl, State.putCmp_goes rfl, State.putCmp_goes rfl, State.putCmp_goes rfl,
    State.Gives.of_alu rfl rfl, State.flagged_goes _ _ rfl⟩

end Sys2Proof.Machine

/-!
PROOFS. Cache operations: where they do nothing, what they make of their frame, and where they wait (R274).
-/
namespace Sys2Proof.Machine

/-! After an instruction that completes. -/

theorem State.agrees_coh {s t : State} (h : s.agrees t) : t.coh = s.coh := (congrArg State.coh h).trans rfl

theorem State.Completes.me_eq {s t : State} {h : Hart} {pc : BitVec 55} (c : s.Completes t h pc) : t.me =
    { h with pc := pc, resume := Resume.zero, wpSkip := false, bpSkip := false, paused := false } := by
  rw [State.me_def, State.agrees_cur c.rest]
  exact c.me

/-! What becomes of the frame. -/

section
variable (s : State) (f : Nat)

/-- No copy of a frame in this device is dirty. -/
def State.FrameClean (c : Coherence) : Prop :=
  (∀ l ∈ c.lines, l.frame = f → s.isOurs l.h f = true → l.dirty = 0) ∧ ∀ d ∈ c.dirty, d.frame ≠ f

/-- There is none at all. -/
def State.FrameGone (c : Coherence) : Prop := ∀ l ∈ c.lines, l.frame = f → s.isOurs l.h f = false

theorem Line.clean_dirty (l : Line) : (l.clean l.dirty).dirty = 0 := by
  simp [Line.clean, Nat.and_self]

theorem State.cleanFrame_clean : s.FrameClean f (s.cleanFrame f).coh := by
  refine ⟨fun l hl frame ours => ?_, fun d hd => bne_iff_ne.mp (List.mem_filter.mp hd).2⟩
  obtain ⟨l0, -, rfl⟩ := List.mem_map.mp hl
  by_cases own : l0.frame = f ∧ s.isOurs l0.h f = true
  · rw [if_pos own]
    exact l0.clean_dirty
  · rw [if_neg own] at frame ours
    exact absurd ⟨frame, ours⟩ own

theorem State.isOurs_of_hub {s t : State} (e : t.hub = s.hub) (h : Holder) : t.isOurs h f = s.isOurs h f := by
  cases h with
  | dev d => rw [State.isOurs, State.isOurs, State.deviceId, State.deviceId, State.hreg_of_hub (congrArg Hub.reg e)]
  | _ => rfl

theorem State.cutStrips_hub (of : Nat → Nat → Bool) : (s.cutStrips of).hub = s.hub := by
  unfold State.cutStrips
  refine State.foldl_keep _ State.hub (fun s e => ?_) _ _
  dsimp only
  split <;> rfl

/-- The copies that are dropped are those of this device, and no others come to be. -/
theorem State.mem_lines_dropCopies {l : Line} : l ∈ (s.dropCopies f).coh.lines ↔
    l ∈ s.coh.lines ∧ (l.frame = f → s.isOurs l.h f = false) := by
  unfold State.dropCopies
  dsimp only
  rw [List.mem_filter, s.cutStrips_coh, State.isOurs_of_hub f (s.cutStrips_hub _)]
  simp [Decidable.imp_iff_not_or]

theorem State.dropCopies_dirty : (s.dropCopies f).coh.dirty = s.coh.dirty := by
  show (s.cutStrips fun _ g => g == f).coh.dirty = _
  rw [State.cutStrips_coh]

theorem State.opFrame_clean (drop : Bool) : s.FrameClean f (s.opFrame f drop).coh := by
  obtain ⟨lines, dirty⟩ := s.cleanFrame_clean f
  cases drop with
  | false => exact ⟨lines, dirty⟩
  | true =>
    show s.FrameClean f ((s.cleanFrame f).dropCopies f).coh
    refine ⟨fun l hl => lines l ((State.mem_lines_dropCopies ..).mp hl).1, ?_⟩
    rw [State.dropCopies_dirty]
    exact dirty

theorem State.opFrame_gone : s.FrameGone f (s.opFrame f true).coh :=
  fun l hl => (((s.cleanFrame f).mem_lines_dropCopies f (l := l)).mp hl).2

theorem State.dropCopies_quiet : s.Quiet (s.dropCopies f) :=
  (s.cutStrips_quiet _).trans (.tables _ _)

theorem State.opFrame_quiet (drop : Bool) : s.Quiet (s.opFrame f drop) := by
  have cleaned : s.Quiet (s.cleanFrame f) := .tables _ _
  cases drop with
  | false => exact cleaned
  | true => exact cleaned.trans (State.dropCopies_quiet ..)

end

/-! The operation. -/

/-- The kind of access that a cache operation is checked as. -/
def opAcc (store : Bool) : Acc := if store then .store else .load

section
variable {s : State} {a : XR} {p : Phys} {store drop background : Bool}

theorem State.cacheop_of_window (h : winBase ≤ s.engAddr a) : s.cacheop a store drop background = .ok s :=
  if_pos h

/-- The frame of X(a) is reached, outside the window. -/
structure State.OpReaches (s : State) (a : XR) (p : Phys) (store : Bool) : Prop where
  below : s.engAddr a < winBase
  page : translate s (whoOf s s.cur) (s.engAddr a) (opAcc store) store = .ok s p

theorem State.cacheop_of_reaches (h : s.OpReaches a p store) : s.cacheop a store drop background =
    if p.attr.direct then .ok s
    else match fate s (dieOf s.cur) p false with
      | .stall => .error (.wait (s.noteStall (s.stallOf (dieOf s.cur) p)))
      | .fault .pagefault _ => .error (.trap (pageFault (opAcc store) (s.engAddr a)) s)
      | .fault c sub => .error (.trap { Trap.at0 c sub (s.engAddr a) with pa := p.pa } s)
      | .ok => if s.idle (p.pa / 256) && (background || !s.inFlight (p.pa / 256)) then
          .ok (s.opFrame (p.pa / 256) drop) else .error (.wait s) := by
  obtain ⟨below, page⟩ := h
  unfold opAcc State.engAddr at page
  unfold State.cacheop
  dsimp only
  rw [page]
  exact if_neg (Nat.not_le.mpr below)

theorem State.cacheop_of_direct (h : s.OpReaches a p store) (direct : p.attr = .uc ∨ p.attr = .dev) :
    s.cacheop a store drop background = .ok s := by
  have d : p.attr.direct = true := by rcases direct with e | e <;> rw [e] <;> rfl
  rw [State.cacheop_of_reaches h, if_pos d]

/-- The frame of X(a) is cached, it can be reached, and no request for it is under way. -/
structure State.OpReady (s : State) (a : XR) (p : Phys) (store : Bool) : Prop extends s.OpReaches a p store where
  cached : p.attr = .wb ∨ p.attr = .pool
  fate : fate s (dieOf s.cur) p false = .ok
  idle : s.idle (p.pa / 256) = true

theorem State.cacheop_of_ready (h : s.OpReady a p store) : s.cacheop a store drop background =
    if background || !s.inFlight (p.pa / 256) then .ok (s.opFrame (p.pa / 256) drop) else .error (.wait s) := by
  have d : ¬ p.attr.direct = true := by rcases h.cached with e | e <;> rw [e] <;> exact Bool.false_ne_true
  rw [State.cacheop_of_reaches h.toOpReaches, if_neg d, h.fate, h.idle, Bool.true_and]

/-- An operation on a frame completes: its hart goes on, and registers and memory stay. -/
theorem State.opFrame_completes (s : State) (f : Nat) (drop : Bool) :
    ∃ t, complete 4 (.ok (s.opFrame f drop)) = .next t ∧
      (t.me.pc = s.me.pc + 4 ∧ t.me.x = s.me.x ∧ t.mem = s.mem ∧ t.cur = s.cur) ∧
      t.coh = (s.opFrame f drop).coh := by
  have quiet := s.opFrame_quiet f drop
  obtain ⟨t, run, done⟩ := complete_goes (s.opFrame f drop) 4
  refine ⟨t, run, ⟨?_, ?_, ?_, ?_⟩, State.agrees_coh done.rest⟩
  · rw [done.me_eq, Hart.pcNext, quiet.me]; rfl
  · rw [done.me_eq, quiet.me]
  · rw [State.agrees_mem done.rest, quiet.mem]
  · rw [State.agrees_cur done.rest, quiet.cur]

end

theorem exec_cacheopInv {s : State} (level : s.me.level ≠ .u) (a : XR) :
    exec (.cacheopInv a) s = complete 4 (s.cacheop a true true true) := by
  show execCacheopInv a s = _
  rw [execCacheopInv, State.needS_of_ne_u level]
  rfl

/-- Settles O15: an operation has no effect, acts on its frame or waits; what it makes of the frame is `opFrame`. -/
theorem cacheopResults : Obligations.CacheopResults := by
  unfold Obligations.CacheopResults
  intro s a p va f reads writes same clean gone
  have none_done {i : Instr} {store drop background : Bool} (run : exec i s = complete 4 (s.cacheop a store drop background))
      (nothing : s.cacheop a store drop background = .ok s) : s.Goes (exec i s) s.me (s.me.pc + 4) := by
    rw [run, nothing]
    exact complete_goes s 4
  refine ⟨fun window => ?window, fun below direct => ⟨fun page => ?read, fun page => ?write⟩,
    fun below cached reached idle => ?frame⟩
  case window =>
    have nothing {store drop background : Bool} := State.cacheop_of_window (s := s) (a := a) (store := store)
      (drop := drop) (background := background) window
    exact ⟨none_done rfl nothing, none_done rfl nothing, fun level => none_done (exec_cacheopInv level a) nothing⟩
  case read => exact none_done rfl (State.cacheop_of_direct ⟨below, page⟩ direct)
  case write =>
    have nothing {drop background : Bool} : s.cacheop a true drop background = .ok s :=
      State.cacheop_of_direct ⟨below, page⟩ direct
    exact ⟨none_done rfl nothing, fun level => none_done (exec_cacheopInv level a) nothing⟩
  case frame =>
    have ready {store : Bool} (page : translate s (whoOf s s.cur) va (opAcc store) store = .ok s p) :
        s.OpReady a p store := ⟨⟨below, page⟩, cached, reached, idle⟩
    have acts {i : Instr} {store drop background : Bool}
        (page : translate s (whoOf s s.cur) va (opAcc store) store = .ok s p)
        (run : exec i s = complete 4 (s.cacheop a store drop background)) (go : (background || !s.inFlight f) = true) :
        ∃ t, exec i s = .next t ∧ same t ∧ t.coh = (s.opFrame f drop).coh := by
      rw [run, State.cacheop_of_ready (ready page), if_pos go]
      exact s.opFrame_completes f drop
    have waits {i : Instr} {store drop : Bool} (page : translate s (whoOf s s.cur) va (opAcc store) store = .ok s p)
        (run : exec i s = complete 4 (s.cacheop a store drop false)) (busy : s.inFlight f = true) :
        exec i s = .next s := by
      rw [run, State.cacheop_of_ready (ready page), if_neg (by rw [busy]; exact Bool.false_ne_true)]
      rfl
    refine ⟨fun page done => ?wb, fun page done => ?wbinv, fun page level => ?inv,
      fun page busy => waits (store := false) page rfl busy, fun page busy => waits (store := true) page rfl busy⟩
    case wb =>
      obtain ⟨t, run, stays, coh⟩ := acts (i := .cacheopWb a) (store := false) page rfl (by rw [done]; rfl)
      exact ⟨t, run, stays, (coh ▸ s.opFrame_clean f false :)⟩
    case wbinv =>
      obtain ⟨t, run, stays, coh⟩ := acts (i := .cacheopWbinv a) (store := true) page rfl (by rw [done]; rfl)
      exact ⟨t, run, stays, (coh ▸ s.opFrame_clean f true :), (coh ▸ s.opFrame_gone f :)⟩
    case inv =>
      obtain ⟨t, run, stays, coh⟩ := acts (store := true) page (exec_cacheopInv level a) rfl
      exact ⟨t, run, stays, (coh ▸ s.opFrame_clean f true :), (coh ▸ s.opFrame_gone f :)⟩

end Sys2Proof.Machine

/-!
PROOFS. Vector registers: what a read of an element gives after a write of elements (R104, R105, R158).
-/
namespace Sys2Proof

/-! Numbers and their bytes (R5). -/

theorem ofBytes_byteOf (x n : Nat) : ofBytes ((List.range n).map (byteOf x)) = x % 2 ^ (8 * n) := by
  induction n generalizing x with
  | zero => simp [ofBytes, Nat.mod_one]
  | succ n ih =>
    have shift (j : Nat) : byteOf x (j + 1) = byteOf (x / 256) j := by
      rw [byteOf, byteOf, Nat.div_div_eq_div_mul, Nat.mul_add, Nat.pow_add, Nat.mul_comm]
    have rest : (List.range n).map (byteOf x ∘ Nat.succ) = (List.range n).map (byteOf (x / 256)) :=
      List.map_congr_left fun j _ => shift j
    have first : (byteOf x 0).toNat = x % 256 := by simp [byteOf]
    have wide : 2 ^ (8 * (n + 1)) = 256 * 2 ^ (8 * n) := by rw [Nat.mul_add, Nat.pow_add, Nat.mul_comm]
    rw [List.range_succ_eq_map, List.map_cons, List.map_map, rest, ofBytes, ih, first, wide, Nat.mod_mul]

end Sys2Proof

namespace Sys2Proof.Machine

section
variable (h : Hart) (v : VR)

/-- A byte of the registers after a write of n bytes. -/
theorem Hart.get_setVBytes (off n x k : Nat) : SMap.get (0 : Byte) (h.setVBytes v off n x).v k =
    if 0x4000 * v.val + off ≤ k ∧ k < 0x4000 * v.val + off + n then byteOf x (k - (0x4000 * v.val + off))
    else SMap.get 0 h.v k := by
  induction n with
  | zero => rw [Hart.setVBytes, if_neg (by omega)]
  | succ n ih =>
    unfold Hart.setVBytes
    dsimp only
    rw [SMap.get_set, ih]
    by_cases last : k = 0x4000 * v.val + off + n
    · subst last
      rw [if_pos rfl, if_pos (by omega), Nat.add_sub_cancel_left]
    · rw [if_neg last]
      exact if_congr (by omega) rfl rfl

theorem Hart.vBytes_setVBytes_same (off n x : Nat) : (h.setVBytes v off n x).vBytes v off n = x % 2 ^ (8 * n) := by
  rw [← ofBytes_byteOf, Hart.vBytes]
  refine congrArg ofBytes (List.map_congr_left fun j hj => ?_)
  have below := List.mem_range.mp hj
  rw [Hart.get_setVBytes, if_pos (by omega), Nat.add_sub_cancel_left]

theorem Hart.vBytes_setVBytes_apart (off at_ n x : Nat) (apart : at_ + n ≤ off ∨ off + n ≤ at_) :
    (h.setVBytes v off n x).vBytes v at_ n = h.vBytes v at_ n := by
  refine congrArg ofBytes (List.map_congr_left fun j hj => ?_)
  have below := List.mem_range.mp hj
  rw [Hart.get_setVBytes, if_neg (by omega)]

theorem Hart.vBytes_lt (off n : Nat) : h.vBytes v off n < 2 ^ (8 * n) := by
  simpa [Hart.vBytes] using ofBytes_lt ((List.range n).map fun j => SMap.get (0 : Byte) h.v (0x4000 * v.val + off + j))

/-! Elements (R104, R158). -/

/-- Widths of elements: four bits, or whole bytes. -/
def ElemWidth (w : Nat) : Prop := w = 4 ∨ w ≠ 4 ∧ ∃ b, w = 8 * b

theorem elemWidth_tag (t : Tag) : ElemWidth t.width := by
  cases t
  case s4 | e2m1 | e2m1x => exact .inl rfl
  case z16 | s16 | f16 | bf16 => exact .inr ⟨by decide, 2, rfl⟩
  case z32 | s32 | f32 => exact .inr ⟨by decide, 4, rfl⟩
  case z64 | s64 | f64 => exact .inr ⟨by decide, 8, rfl⟩
  all_goals exact .inr ⟨by decide, 1, rfl⟩

theorem Hart.code_lt {w : Nat} (width : ElemWidth w) (i : Nat) : h.code v w i < 2 ^ w := by
  obtain rfl | ⟨other, b, rfl⟩ := width
  · have byte := (SMap.get (0 : Byte) h.v (0x4000 * v.val + i / 2)).isLt
    unfold Hart.code
    rw [if_pos rfl]
    dsimp only
    split <;> omega
  · have bytes : 8 * b / 8 = b := by omega
    rw [Hart.code, if_neg other, bytes]
    exact h.vBytes_lt v _ _

theorem Hart.code_setCode {w : Nat} (width : ElemWidth w) (i j x : Nat) :
    (h.setCode v w i x).code v w j = if j = i then x % 2 ^ w else h.code v w j := by
  obtain rfl | ⟨other, b, rfl⟩ := width
  · have small (n : Nat) (hn : n < 256) : (BitVec.ofNat 8 n).toNat = n := Nat.mod_eq_of_lt hn
    have byte := (SMap.get (0 : Byte) h.v (0x4000 * v.val + i / 2)).isLt
    unfold Hart.setCode Hart.code
    rw [if_pos rfl, if_pos rfl, if_pos rfl]
    dsimp only
    by_cases same_byte : j / 2 = i / 2
    · rw [same_byte, SMap.get_set_same, small _ (by split <;> omega)]
      by_cases same : j = i
      · subst same
        rw [if_pos rfl]
        split <;> omega
      · rw [if_neg same]
        split <;> split <;> omega
    · rw [SMap.get_set_other _ _ _ (by omega), if_neg fun same => same_byte (congrArg (· / 2) same)]
  · have bytes : 8 * b / 8 = b := by omega
    unfold Hart.setCode Hart.code
    rw [if_neg other, if_neg other, if_neg other, bytes]
    by_cases same : j = i
    · subst same
      rw [if_pos rfl, Hart.vBytes_setVBytes_same]
    · rw [if_neg same, Hart.vBytes_setVBytes_apart]
      rcases Nat.lt_or_gt_of_ne same with below | above
      · left
        calc j * b + b = (j + 1) * b := (Nat.succ_mul ..).symm
          _ ≤ i * b := Nat.mul_le_mul_right b below
      · right
        calc i * b + b = (i + 1) * b := (Nat.succ_mul ..).symm
          _ ≤ j * b := Nat.mul_le_mul_right b above

/-- Elements that are not written keep their codes. -/
theorem Hart.code_setCodes_of_notMem {w : Nat} (width : ElemWidth w) {l : List (Nat × Nat)} {j : Nat}
    (other : ∀ e ∈ l, e.1 ≠ j) : (h.setCodes v w l).code v w j = h.code v w j := by
  unfold Hart.setCodes
  induction l generalizing h with
  | nil => rfl
  | cons e l ih =>
    rw [List.foldl_cons, ih _ fun a ha => other a (List.mem_cons_of_mem _ ha), Hart.code_setCode _ _ width,
      if_neg fun same => other e List.mem_cons_self same.symm]

/-- Elements that are written once have the codes written, cut to their width. -/
theorem Hart.code_setCodes_of_mem {w : Nat} (width : ElemWidth w) {l : List (Nat × Nat)} {j x : Nat}
    (once : (l.map (·.1)).Nodup) (mem : (j, x) ∈ l) : (h.setCodes v w l).code v w j = x % 2 ^ w := by
  unfold Hart.setCodes
  induction l generalizing h with
  | nil => cases mem
  | cons e l ih =>
    obtain ⟨first, once⟩ := List.nodup_cons.mp once
    rw [List.foldl_cons]
    rcases List.mem_cons.mp mem with rfl | later
    · have other : ∀ e ∈ l, e.1 ≠ j := fun e he same => first (List.mem_map.mpr ⟨e, he, same⟩)
      exact (Hart.code_setCodes_of_notMem _ v width other).trans
        ((Hart.code_setCode _ _ width ..).trans (if_pos rfl))
    · exact ih _ once later

/-- Written elements of one list of indices. -/
theorem Hart.code_setCodes_map {w : Nat} (width : ElemWidth w) {l : List Nat} (once : l.Nodup) (f : Nat → Nat) (j : Nat) :
    (h.setCodes v w (l.map fun i => (i, f i))).code v w j = if j ∈ l then f j % 2 ^ w else h.code v w j := by
  split
  · next mem =>
    refine h.code_setCodes_of_mem v width ?_ (List.mem_map.mpr ⟨j, mem, rfl⟩)
    rwa [List.map_map, show ((·.1) ∘ fun i => (i, f i)) = id from rfl, List.map_id]
  · next other =>
    refine h.code_setCodes_of_notMem v width fun e he same => ?_
    obtain ⟨i, hi, rfl⟩ := List.mem_map.mp he
    exact other (same ▸ hi)

/-! Tags (R104). -/

theorem Hart.setTags_v (t : Tag) (g : Nat) : (h.setTags v t g).v = h.v := by
  induction g with
  | zero => rfl
  | succ g ih => exact ih

theorem Hart.code_of_v {h k : Hart} (e : k.v = h.v) (w i : Nat) : k.code v w i = h.code v w i := by
  unfold Hart.code Hart.vBytes
  rw [e]

theorem Hart.tagOf_of_tag {h k : Hart} (e : k.tag = h.tag) : k.tagOf v = h.tagOf v := by
  unfold Hart.tagOf
  rw [e]

/-- A destination of one register and unchanged width, when its instruction completes. -/
theorem Hart.land_same_width {rt : Tag} {new : List (Nat × Nat)} {written : List Nat}
    (single : groupOf rt h.ew v = some 1) (width : (h.tagOf v).width = rt.width) :
    h.land v rt written new = (h.setCodes v rt.width new).setTags v rt 1 := by
  unfold Hart.land
  rw [single]
  dsimp only
  rw [if_pos width, Option.getD_some]

theorem Hart.tagOf_setTags_one (t : Tag) : (h.setTags v t 1).tagOf v = t :=
  SMap.get_set_same ..

end

end Sys2Proof.Machine

/-!
PROOFS. Elementwise instructions of a calm state, and integer vector arithmetic by these (R26, R102, R103, R282, R283).
-/
namespace Sys2Proof.Machine

/-! After a vector instruction that completes. -/

theorem State.CompletesV.me_eq {s t : State} {h : Hart} {pc : BitVec 55} (c : s.CompletesV t h pc) : t.me =
    { h with pc := pc, resume := Resume.zero, wpSkip := false, bpSkip := false, paused := false } := by
  rw [State.me_def, State.agrees_cur c.rest]
  exact c.me

/-- An instruction that leaves its hart as h, but for its place. -/
theorem completeV_setMe (s : State) (n : Nat) {h : Hart} (task : h.task = s.me.task) (pc : h.pc = s.me.pc) :
    s.GoesV (completeV n (.ok (s.setMe h))) h (s.me.pcNext n) := by
  have done := completeV_goes (s.setMe h) n
  rw [State.me_setMe, Hart.pcNext, pc] at done
  exact State.goesV_setMe task done

/-! What a calm state passes (R26, R86). -/

section
variable {s : State}

theorem State.residueBad_of_calm (calm : s.Calm) (todo : List Nat) : s.residueBad todo = [] := by
  obtain ⟨residue, -⟩ := calm
  rw [State.residueBad, residue]

theorem State.clearResidue_of_calm (calm : s.Calm) : s.clearResidue = s := by
  obtain ⟨residue, -⟩ := calm
  rw [State.clearResidue, residue]
  rfl

theorem State.pauseAt_of_calm (calm : s.Calm) (todo bad : List Nat) : s.pauseAt todo bad = none := by
  obtain ⟨-, -, pause, -⟩ := calm
  rw [State.pauseAt, pause]

/-- No element below vl that an instruction reads of its sources stands in an uncorrectable word. -/
theorem State.srcBad_of_calm (calm : s.Calm) {o : ElemOp} (reads : ∀ k e, o.reads k e ≤ e) (rs : List (VR × Tag))
    {e : Nat} (below : e < s.me.vl) : s.srcBad o rs e = false := by
  obtain ⟨-, -, -, words⟩ := calm
  rw [State.srcBad]
  refine Bool.eq_false_iff.mpr fun bad => ?_
  obtain ⟨-, bad⟩ := Bool.and_eq_true_iff.mp bad
  obtain ⟨r, -, bad⟩ := List.any_eq_true.mp bad
  rw [words _ _ _ (Nat.lt_of_le_of_lt (reads ..) below)] at bad
  exact Bool.false_ne_true bad

theorem Hart.lt_of_mem_targets {h : Hart} {pm : PR} {all : Bool} {e : Nat} (he : e ∈ h.targets pm all) : e < h.vl := by
  unfold Hart.targets at he
  split at he
  · exact List.mem_range.mp he
  · exact List.mem_range.mp (List.mem_filter.mp he).1

/-! An elementwise instruction whose operands are legal (R282). -/

section
variable {o : ElemOp} {srcs : List Src} {vd : VR} {pm : PR} {rt : Tag}

/-- Its tags and groups are legal, and an element of the result reads none above it. -/
structure State.ElemLegal (s : State) (o : ElemOp) (srcs : List Src) (vd : VR) (rt : Tag) : Prop where
  tag : o.rt (s.me.tagOf vd) (s.me.srcTags srcs) = some rt
  groups : groupsOk s.me.ew (s.me.srcRegs srcs) (some (vd, rt)) = true
  reads : ∀ k e, o.reads k e ≤ e

theorem State.elementwise_of_no_elements (calm : s.Calm) (legal : s.ElemLegal o srcs vd rt) (none_left : s.me.vl = 0) :
    s.elementwise o srcs vd pm = .ok s := by
  obtain ⟨tag, groups, -⟩ := legal
  unfold State.elementwise
  dsimp only
  rw [tag]
  show (s.operands true (s.me.srcRegs srcs) (some (vd, rt)) >>= _) = _
  rw [State.operands_of_calm calm groups, ok_bind]
  exact if_pos none_left

/-- Every target that is still to do gets its result. -/
theorem State.elementwise_of_calm (calm : s.Calm) (legal : s.ElemLegal o srcs vd rt) (some_left : s.me.vl ≠ 0) :
    let all := s.me.targets pm o.all
    let r := s.me.results o srcs pm (all.filter s.fresh)
    s.elementwise o srcs vd pm = .ok (s.setMe ((s.me.land vd rt all r.1).orFlags r.2)) := by
  obtain ⟨tag, groups, reads⟩ := legal
  intro all r
  have todo : (all.filter fun e => !s.me.resume.did e) = all.filter s.fresh := rfl
  have none_bad : (if s.bad.isEmpty then ([] : List Nat)
      else (all.filter s.fresh).filter fun e => [].contains e || s.srcBad o (s.me.srcRegs srcs) e) = [] := by
    split
    · rfl
    · refine List.filter_eq_nil_iff.mpr fun e he => ?_
      rw [State.srcBad_of_calm calm reads _ (Hart.lt_of_mem_targets (List.mem_filter.mp he).1)]
      exact Bool.false_ne_true
  unfold State.elementwise
  dsimp only
  rw [tag]
  show (s.operands true (s.me.srcRegs srcs) (some (vd, rt)) >>= _) = _
  rw [State.operands_of_calm calm groups, ok_bind]
  rw [if_neg some_left, todo, State.residueBad_of_calm calm, none_bad, State.pauseAt_of_calm calm, ite_self,
    State.clearResidue_of_calm calm]
  rfl

end

end

/-- The codes of the results are those of the operation, element by element. -/
theorem Hart.results_codes (h : Hart) (o : ElemOp) (srcs : List Src) (pm : PR) (l : List Nat) :
    (h.results o srcs pm l).1 =
      l.map fun i => (i, (o.f h (h.srcTags srcs) i (h.pred pm i) (h.srcCodes srcs i)).1) := by
  induction l with
  | nil => rfl
  | cons i l ih => exact congrArg (_ :: ·) ih

/-- What an instruction leaves in a destination of one register and unchanged width. -/
theorem Hart.land_codes {h : Hart} {d : VR} {t : Tag} (single : groupOf t h.ew d = some 1)
    (width : (h.tagOf d).width = t.width) {l : List Nat} (once : l.Nodup) (written : List Nat) (f : Nat → Nat) (fl : Nat) :
    let k := (h.land d t written (l.map fun i => (i, f i))).orFlags fl
    k.tagOf d = t ∧ ∀ j, k.code d t.width j = if j ∈ l then f j % 2 ^ t.width else h.code d t.width j := by
  intro k
  have landed := h.land_same_width d (new := l.map fun i => (i, f i)) (written := written) single width
  refine ⟨?_, fun j => ?_⟩
  · rw [← (h.setCodes d t.width (l.map fun i => (i, f i))).tagOf_setTags_one d t, ← landed]
    exact Hart.tagOf_of_tag d (Hart.orFlags_tag ..)
  · rw [← h.code_setCodes_map d (elemWidth_tag t) once f j]
    refine Hart.code_of_v d ?_ _ _
    rw [Hart.orFlags_v, landed, Hart.setTags_v]

/-! Integer arithmetic (R283). -/

section
variable {t : Tag}

/-- The integer tags of the table. -/
theorem ordinary_of_intTag (ht : t ∈ [Tag.s8, .s16, .s32, .s64, .z8, .z16, .z32, .z64]) :
    t.isInt = true ∧ t.isFloat = false := by
  revert ht t; decide

theorem promote_self (t : Tag) : promote t t = t := if_pos rfl

theorem intVal_mod (t : Tag) (c : Nat) : intVal t (c % 2 ^ t.width) = intVal t c := by
  unfold intVal sextNat
  rw [Nat.mod_mod]

/-- A binary operation on two codes of one integer tag. -/
theorem binElem_int (o : BinOp) (h : Hart) (int : t.isFloat = false) (i : Nat) (m : Bool) (a b : Nat) :
    ((binElem o).f h [t, t] i m [a, b]).1 = (o.int h.fixrm t (intVal t a) (intVal t b)).1 := by
  have conv (c : Nat) : convTag t t h.rm c = (c % 2 ^ t.width, 0) := if_pos rfl
  show (withConv h.rm t t (promote t t) (o.calc h (promote t t)) a b).1 = _
  rw [promote_self, withConv, conv, conv, BinOp.calc, int]
  dsimp only
  rw [intVal_mod, intVal_mod, if_neg Bool.false_ne_true]

/-- The result tag of two of one integer tag. -/
theorem binElem_rt (o : BinOp) (int : t.isInt = true) (fixed : t.isFloat = false) (other : o ≠ .absd) (d : Tag) :
    (binElem o).rt d [t, t] = some t := by
  show (opTag t t).bind o.rt = _
  rw [opTag, Tag.ordinary, int, promote_self]
  show o.rt t = _
  rw [BinOp.rt, fixed, if_neg Bool.false_ne_true, if_neg other]

theorem emod_two_pow_toNat_lt (z : Int) (w : Nat) : (z % 2 ^ w).toNat < 2 ^ w := by
  have positive : (0 : Int) < 2 ^ w := Int.pow_pos (by decide)
  refine (Int.toNat_lt (Int.emod_nonneg _ positive.ne')).mpr ?_
  exact_mod_cast Int.emod_lt_of_pos z positive

/-- An operation's entry is f, wrapped to the width. -/
def BinOp.Wraps (o : BinOp) (fixrm : Nat) (t : Tag) (f : Int → Int → Int) : Prop :=
  ∀ x y, (o.int fixrm t x y).1 = (f x y % 2 ^ t.width).toNat

end

section
variable {s : State} {d a b : VR} {p : PR} {t : Tag}

/-- Two sources and a destination of one width, each of one register. -/
structure State.IntOperands (s : State) (d a b : VR) (t : Tag) : Prop where
  calm : s.Calm
  fresh : s.me.resume.pending = false
  tag : t ∈ [Tag.s8, .s16, .s32, .s64, .z8, .z16, .z32, .z64]
  fits : t.width ≤ s.me.ew.bits
  left : s.me.tagOf a = t
  right : s.me.tagOf b = t
  width : (s.me.tagOf d).width = t.width

theorem State.IntOperands.single (h : s.IntOperands d a b t) (v : VR) : groupOf t s.me.ew v = some 1 := if_pos h.fits

theorem State.IntOperands.legal (h : s.IntOperands d a b t) {o : BinOp} (other : o ≠ .absd) :
    s.ElemLegal (binElem o) [.v a, .v b] d t where
  tag := by
    obtain ⟨int, fixed⟩ := ordinary_of_intTag h.tag
    have tags : s.me.srcTags [.v a, .v b] = [t, t] := by rw [← h.left]; simp [Hart.srcTags, h.left, h.right]
    rw [tags, binElem_rt o int fixed other]
  groups := by
    have regs : s.me.srcRegs [.v a, .v b] = [(a, t), (b, t)] := by simp [Hart.srcRegs, h.left, h.right]
    rw [regs]
    simp only [groupsOk, h.single, List.all_cons, List.all_nil, Option.isSome_some, Option.getD_some, Bool.and_true,
      Bool.true_and, partOverlap]
    simp
    omega
  reads := fun _ _ => Nat.le_refl _

/-- An instruction of an operation whose entry is f: every active element below vl gets it, and the others keep their
codes. -/
theorem State.IntOperands.puts (h : s.IntOperands d a b t) {i : Instr} {n : Nat} {o : BinOp} {f : Int → Int → Int}
    (run : exec i s = completeV n (s.elementwise (binElem o) [.v a, .v b] d p)) (other : o ≠ .absd)
    (entry : o.Wraps s.me.fixrm t f) :
    ∃ u, exec i s = .next u ∧ (s.me.vl ≠ 0 → u.me.tagOf d = t) ∧
      ∀ e, e < s.me.vl → u.me.code d t.width e = if s.me.pred p e then
        (f (intVal t (s.me.elem a e)) (intVal t (s.me.elem b e)) % 2 ^ t.width).toNat else s.me.code d t.width e := by
  rw [run]
  by_cases none_left : s.me.vl = 0
  · rw [State.elementwise_of_no_elements h.calm (h.legal other) none_left]
    exact ⟨_, rfl, fun some_left => absurd none_left some_left, fun e he => absurd he (by omega)⟩
  · have tags : s.me.srcTags [.v a, .v b] = [t, t] := by simp [Hart.srcTags, h.left, h.right]
    have codes (e : Nat) : s.me.srcCodes [.v a, .v b] e = [s.me.elem a e, s.me.elem b e] := by
      simp [Hart.srcCodes, tags, Hart.elem, h.left, h.right]
    have value (e : Nat) (m : Bool) : ((binElem o).f s.me (s.me.srcTags [.v a, .v b]) e m (s.me.srcCodes [.v a, .v b] e)).1 =
        (f (intVal t (s.me.elem a e)) (intVal t (s.me.elem b e)) % 2 ^ t.width).toNat := by
      rw [tags, codes, binElem_int o _ (ordinary_of_intTag h.tag).2, entry]
    have all_fresh : (s.me.targets p (binElem o).all).filter s.fresh = s.me.actives p :=
      List.filter_eq_self.mpr fun e _ => by simp [State.fresh, Resume.did, h.fresh]
    rw [State.elementwise_of_calm h.calm (h.legal other) none_left, all_fresh, Hart.results_codes]
    simp only [value]
    obtain ⟨u, next, done⟩ := completeV_goes (s.setMe _) n
    refine ⟨u, next, ?_⟩
    rw [done.me_eq, State.me_setMe]
    have once : (s.me.actives p).Nodup := List.nodup_range.filter _
    obtain ⟨tag, code⟩ := Hart.land_codes (h.single d) h.width once (s.me.targets p (binElem o).all)
      (fun e => (f (intVal t (s.me.elem a e)) (intVal t (s.me.elem b e)) % 2 ^ t.width).toNat)
      (s.me.results (binElem o) [.v a, .v b] p (s.me.actives p)).2
    refine ⟨fun _ => tag, fun e he => (code e).trans ?_⟩
    have active : e ∈ s.me.actives p ↔ s.me.pred p e = true := by
      rw [Hart.actives, List.mem_filter, List.mem_range]
      exact and_iff_right he
    rw [Nat.mod_eq_of_lt (emod_two_pow_toNat_lt ..)]
    exact if_congr active rfl rfl

end

/-- Settles O29: each instruction is elementwise, and its entry wraps the operation of the table. -/
theorem integerVectorResults : Obligations.IntegerVectorResults := by
  unfold Obligations.IntegerVectorResults
  intro s d a b p ca cb t h w calm fresh tag fits left right width _ x y puts
  have operands : s.IntOperands d a b t := ⟨calm, fresh, tag, fits, left, right, width⟩
  have lesser : BinOp.min.Wraps h.fixrm t min := fun x y => congrArg (wrapNat t.width) (by omega)
  have greater : BinOp.max.Wraps h.fixrm t max := fun x y => congrArg (wrapNat t.width) (by omega)
  exact ⟨operands.puts (o := .add) rfl nofun fun _ _ => rfl, operands.puts (o := .sub) rfl nofun fun _ _ => rfl,
    operands.puts (o := .mul) rfl nofun fun _ _ => rfl, operands.puts (o := .min) rfl nofun lesser,
    operands.puts (o := .max) rfl nofun greater, operands.puts (o := .avg) rfl nofun fun _ _ => rfl,
    operands.puts (o := .mulh) rfl nofun fun _ _ => rfl⟩

end Sys2Proof.Machine

/-!
PROOFS. Predicates: what a read of a bit gives after a write of bits (R90, R253).
-/
namespace Sys2Proof.Machine

/-- k is h but for its predicates. -/
def Hart.SameButPreds (h k : Hart) : Prop := k = { h with p := k.p }

section
variable (h : Hart) (p : PR)

theorem Hart.setPred_sameButPreds (i : Nat) (b : Bool) : h.SameButPreds (h.setPred p i b) := by
  unfold Hart.setPred
  split <;> rfl

theorem Hart.SameButPreds.trans {h j k : Hart} (a : h.SameButPreds j) (b : j.SameButPreds k) : h.SameButPreds k :=
  Eq.trans (b : k = _) (congrArg (fun x : Hart => { x with p := k.p }) a)

theorem Hart.setPreds_sameButPreds (f : Nat → Bool) (n : Nat) : h.SameButPreds (h.setPreds p f n) := by
  induction n with
  | zero => rfl
  | succ n ih => exact ih.trans (Hart.setPred_sameButPreds ..)

theorem Hart.setBitsAt_sameButPreds (l : List (Nat × Bool)) : h.SameButPreds (h.setBitsAt p l) := by
  unfold Hart.setBitsAt
  induction l generalizing h with
  | nil => rfl
  | cons e l ih => exact (h.setPred_sameButPreds p e.1 e.2).trans (ih _)

/-! Bits. -/

theorem Hart.pred_of_p {h k : Hart} (e : k.p = h.p) (q : PR) (i : Nat) : k.pred q i = h.pred q i := by
  unfold Hart.pred
  rw [e]

variable (q : PR)

theorem Hart.pred_setPred (i j : Nat) (b : Bool) (hj : j < 0x8000) :
    (h.setPred p i b).pred q j = if q = p ∧ p ≠ 0 ∧ j = i then b else h.pred q j := by
  unfold Hart.setPred
  by_cases kept : p = 0 ∨ 0x8000 ≤ i
  · rw [if_pos kept, if_neg fun hit => kept.elim hit.2.1 fun above => absurd hj (by omega)]
  · have written : p ≠ 0 ∧ i < 0x8000 := (not_or.mp kept).imp_right Nat.lt_of_not_le
    rw [if_neg kept]
    unfold Hart.pred
    dsimp only
    by_cases same : q = p ∧ j = i
    · obtain ⟨rfl, rfl⟩ := same
      rw [SMap.get_set_same]
      simp [written]
    · have other : 0x8000 * q.val + j ≠ 0x8000 * p.val + i := fun e => same ⟨Fin.ext (by omega), by omega⟩
      rw [SMap.get_set_other _ _ _ other, if_neg fun hit => same ⟨hit.1, hit.2.2⟩]

/-- The bits below n are written. -/
theorem Hart.pred_setPreds (f : Nat → Bool) (n j : Nat) (hj : j < 0x8000) :
    (h.setPreds p f n).pred q j = if q = p ∧ p ≠ 0 ∧ j < n then f j else h.pred q j := by
  induction n with
  | zero => rw [Hart.setPreds, if_neg fun below => Nat.not_lt_zero j below.2.2]
  | succ n ih =>
    rw [Hart.setPreds, Hart.pred_setPred _ _ _ _ _ _ hj, ih]
    by_cases last : j = n
    · subst last
      simp
    · rw [if_neg fun hit => last hit.2.2]
      exact if_congr (and_congr_right fun _ => and_congr_right fun _ => by omega) rfl rfl

/-- The listed bits are written. -/
theorem Hart.pred_setBitsAt (f : Nat → Bool) (l : List Nat) (j : Nat) (hj : j < 0x8000) :
    (h.setBitsAt p (l.map fun i => (i, f i))).pred q j = if q = p ∧ p ≠ 0 ∧ j ∈ l then f j else h.pred q j := by
  unfold Hart.setBitsAt
  induction l generalizing h with
  | nil => simp
  | cons i l ih =>
    rw [List.map_cons, List.foldl_cons, ih, Hart.pred_setPred _ _ _ _ _ _ hj]
    by_cases first : j = i
    · subst first
      by_cases written : q = p ∧ p ≠ 0 <;> simp [← and_assoc, written]
    · simp [first]

end

end Sys2Proof.Machine

/-!
PROOFS. Vector comparisons (R288).
-/
namespace Sys2Proof.Machine

section
variable {s : State} {n : Cond} {srcs : List Src} {pd pm : PR}

/-- Two ordinary tags, each with its group. -/
structure State.CompareLegal (s : State) (srcs : List Src) (ta tb : Tag) : Prop where
  tags : s.me.srcTags srcs = [ta, tb]
  left : ta.ordinary = true
  right : tb.ordinary = true
  groups : groupsOk s.me.ew (s.me.srcRegs srcs) none = true

variable {ta tb : Tag}

/-- The part of a comparison after its operands' checks. -/
theorem State.compare_of_no_elements (calm : s.Calm) (legal : s.CompareLegal srcs ta tb) (none_left : s.me.vl = 0) :
    s.compare n srcs pd pm = .ok s := by
  obtain ⟨tags, left, right, groups⟩ := legal
  have ok : (opTag ta tb).isSome = true := by rw [opTag, left, right]; rfl
  unfold State.compare
  dsimp only
  rw [tags]
  show (s.operands (opTag ta tb).isSome (s.me.srcRegs srcs) none >>= _) = _
  rw [ok, State.operands_of_calm calm groups, ok_bind]
  exact if_pos none_left

/-- Every element that is still to do gets its bit. -/
theorem State.compare_of_calm (calm : s.Calm) (legal : s.CompareLegal srcs ta tb) (some_left : s.me.vl ≠ 0) :
    let r := s.me.compared n srcs pm ((List.range s.me.vl).filter s.fresh)
    s.compare n srcs pd pm = .ok (s.setMe ((s.me.setBitsAt pd r.1).orFlags r.2)) := by
  obtain ⟨tags, left, right, groups⟩ := legal
  have ok : (opTag ta tb).isSome = true := by rw [opTag, left, right]; rfl
  obtain ⟨-, -, -, words⟩ := id calm
  intro r
  have todo : ((List.range s.me.vl).filter fun e => !s.me.resume.did e) = (List.range s.me.vl).filter s.fresh := rfl
  have none_bad : (if s.bad.isEmpty then ([] : List Nat) else ((List.range s.me.vl).filter s.fresh).filter fun e =>
      [].contains e || (s.me.srcRegs srcs).any fun r => s.elemBad r.1 r.2 e) = [] := by
    split
    · rfl
    · refine List.filter_eq_nil_iff.mpr fun e he => ?_
      have below : e < s.me.vl := List.mem_range.mp (List.mem_filter.mp he).1
      simp [words _ _ _ below]
  unfold State.compare
  dsimp only
  rw [tags]
  show (s.operands (opTag ta tb).isSome (s.me.srcRegs srcs) none >>= _) = _
  rw [ok, State.operands_of_calm calm groups, ok_bind, if_neg some_left, todo, State.residueBad_of_calm calm, none_bad,
    State.pauseAt_of_calm calm, ite_self, State.clearResidue_of_calm calm]
  rfl

/-- The bits that a comparison gives: the condition where pm selects the element, and else 0. -/
theorem Hart.compared_bits {h : Hart} (tags : h.srcTags srcs = [ta, tb]) {x y : Nat → Nat}
    (codes : ∀ i, h.srcCodes srcs i = [x i, y i]) (l : List Nat) :
    (h.compared n srcs pm l).1 = l.map fun i => (i, h.pred pm i && (cmpElem n h.rm ta tb (x i) (y i)).1) := by
  unfold Hart.compared
  rw [tags]
  dsimp only
  induction l with
  | nil => rfl
  | cons i l ih =>
    rw [List.foldr_cons, List.map_cons, ← ih, codes]
    cases h.pred pm i <;> rfl

/-- A comparison completes: bits below vl receive the condition where pm selects the element, and 0 where it does not. -/
theorem State.vcmp_bits (calm : s.Calm) (fresh : s.me.resume.pending = false) (legal : s.CompareLegal srcs ta tb)
    {x y : Nat → Nat} (codes : ∀ i, s.me.srcCodes srcs i = [x i, y i]) {o : Host.Outcome State Fault Refusal} {len : Nat}
    (run : o = completeV len (s.compare n srcs pd pm)) :
    ∃ u, o = .next u ∧ u.me.pc = s.me.pcNext len ∧ u.me.v = s.me.v ∧ u.me.x = s.me.x ∧
      ∀ j i, i < 0x8000 → u.me.pred j i =
        if j = pd ∧ pd ≠ 0 ∧ i < s.me.vl then s.me.pred pm i && (cmpElem n s.me.rm ta tb (x i) (y i)).1
        else s.me.pred j i := by
  subst run
  by_cases none_left : s.me.vl = 0
  · rw [State.compare_of_no_elements calm legal none_left]
    obtain ⟨u, next, done⟩ := completeV_goes s len
    refine ⟨u, next, ?_⟩
    rw [done.me_eq]
    exact ⟨rfl, rfl, rfl, fun j i _ => (if_neg fun hit => by omega).symm⟩
  · have all_fresh : (List.range s.me.vl).filter s.fresh = List.range s.me.vl :=
      List.filter_eq_self.mpr fun e _ => by simp [State.fresh, Resume.did, fresh]
    rw [State.compare_of_calm calm legal none_left, all_fresh, Hart.compared_bits legal.tags codes]
    obtain ⟨u, next, done⟩ := completeV_goes (s.setMe _) len
    refine ⟨u, next, ?_⟩
    rw [done.me_eq, State.me_setMe]
    have same := s.me.setBitsAt_sameButPreds pd
      ((List.range s.me.vl).map fun i => (i, s.me.pred pm i && (cmpElem n s.me.rm ta tb (x i) (y i)).1))
    refine ⟨?_, ?_, ?_, fun j i hi => ?_⟩
    · rw [Hart.pcNext, Hart.orFlags_pc, same]; rfl
    · rw [Hart.orFlags_v, same]
    · rw [Hart.orFlags_x, same]
    · refine (Hart.pred_of_p (Hart.orFlags_p ..) j i).trans ((Hart.pred_setBitsAt _ _ _ _ _ i hi).trans ?_)
      simp only [List.mem_range]

end

/-! Sources. -/

section
variable (h : Hart) (a b : VR) (x : XR)

theorem Hart.srcTags_vv : h.srcTags [.v a, .v b] = [h.tagOf a, h.tagOf b] := rfl
theorem Hart.srcTags_vx : h.srcTags [.v a, .x x] = [h.tagOf a, h.tagOf a] := rfl
theorem Hart.srcCodes_vv (i : Nat) : h.srcCodes [.v a, .v b] i = [h.elem a i, h.elem b i] := rfl
theorem Hart.srcCodes_vx (i : Nat) :
    h.srcCodes [.v a, .x x] i = [h.elem a i, (h.getX x).toNat % 2 ^ (h.tagOf a).width] := rfl

end

/-- Settles O30: every form is a comparison of two vectors, or of a vector and a scalar in its tag. -/
theorem compareResults : Obligations.CompareResults := by
  unfold Obligations.CompareResults
  intro s q m a b x ca cb n c d h calm fresh left group bits_ scalar
  have vx : s.CompareLegal [.v a, .x x] (h.tagOf a) (h.tagOf a) :=
    ⟨rfl, left, left, by simp [groupsOk, Hart.srcRegs, h, group]⟩
  refine ⟨fun right groupB => ?vectors, State.vcmp_bits calm fresh vx (Hart.srcCodes_vx h a x) rfl,
    State.vcmp_bits calm fresh vx (Hart.srcCodes_vx h a x) rfl⟩
  case vectors =>
    have vv : s.CompareLegal [.v a, .v b] (h.tagOf a) (h.tagOf b) :=
      ⟨rfl, left, right, by simp [groupsOk, Hart.srcRegs, h, group, groupB]⟩
    exact ⟨State.vcmp_bits calm fresh vv (Hart.srcCodes_vv h a b) rfl,
      State.vcmp_bits calm fresh vv (Hart.srcCodes_vv h a b) rfl⟩

end Sys2Proof.Machine

/-!
PROOFS. The integer sum of a reduction (R170, R289).
-/
namespace Sys2Proof

/-! Integers modulo 2^w (R283). -/

theorem wrapNat_cast (w : Nat) (z : Int) : (wrapNat w z : Int) = z % 2 ^ w :=
  Int.toNat_of_nonneg (Int.emod_nonneg _ (Int.pow_pos (by decide)).ne')

/-- A code is read as an integer that differs from it by a multiple of 2^w. -/
theorem intVal_emod {t : Tag} (some_width : t.width ≠ 0) (c : Nat) :
    intVal t c % 2 ^ t.width = (c % 2 ^ t.width : Nat) := by
  have power : (2 : Int) ^ t.width = (2 ^ t.width : Nat) := by push_cast; rfl
  unfold intVal sextNat
  dsimp only
  rw [if_neg some_width, power]
  split
  · rw [← Int.natCast_emod, Nat.mod_mod]
  · split
    · rw [← Int.natCast_emod, Nat.mod_mod]
    · rw [Int.sub_emod, Int.emod_self, Int.sub_zero, Int.emod_emod, ← Int.natCast_emod, Nat.mod_mod]

theorem wrapNat_intVal {t : Tag} (some_width : t.width ≠ 0) (c : Nat) :
    wrapNat t.width (intVal t c) = c % 2 ^ t.width := by
  rw [wrapNat, intVal_emod some_width, Int.toNat_natCast]

theorem intVal_wrapNat_emod {t : Tag} (some_width : t.width ≠ 0) (z : Int) :
    intVal t (wrapNat t.width z) % 2 ^ t.width = z % 2 ^ t.width := by
  rw [intVal_emod some_width, Nat.mod_eq_of_lt (show wrapNat t.width z < _ from Machine.emod_two_pow_toNat_lt ..),
    wrapNat_cast]

end Sys2Proof

namespace Sys2Proof.Machine

section
variable {t : Tag}

theorem wrapNat_add_intVal_wrapNat (some_width : t.width ≠ 0) (z x : Int) :
    wrapNat t.width (intVal t (wrapNat t.width z) + x) = wrapNat t.width (z + x) := by
  refine congrArg Int.toNat ?_
  rw [Int.add_emod, intVal_wrapNat_emod some_width, ← Int.add_emod]

/-- A sum of integers step by step, each step wrapped. -/
theorem foldl_sum (some_width : t.width ≠ 0) (rm : Rm) (o : RedOp) (sums : o = .sum ∨ o = .sumOrd)
    (fixed : t.isFloat = false) (l : List (Nat × Nat)) (z : Int) :
    l.foldl (fun (acc : Coded) e => ((o.step rm t acc.1 e.2).1, acc.2 ||| (o.step rm t acc.1 e.2).2))
        (wrapNat t.width z, 0) =
      (wrapNat t.width (z + (l.map fun e => intVal t e.2).sum), 0) := by
  induction l generalizing z with
  | nil => simp
  | cons e l ih =>
    have step (r : Nat) : o.step rm t r e.2 = (wrapNat t.width (intVal t r + intVal t e.2), 0) := by
      rcases sums with rfl | rfl <;> simp only [RedOp.step, fixed, Bool.false_eq_true, if_false] <;> rfl
    rw [List.foldl_cons, step]
    dsimp only
    rw [wrapNat_add_intVal_wrapNat some_width, List.map_cons, List.sum_cons, ← Int.add_assoc]
    exact ih _

end

/-- Settles O33: an integer sum is taken modulo 2^w at each step, and once at its end is the same. -/
theorem integerSum : Obligations.IntegerSum := by
  unfold Obligations.IntegerSum
  intro h a b p t tag left right total
  obtain ⟨int, fixed⟩ := ordinary_of_intTag tag
  have some_width : t.width ≠ 0 := by cases t <;> decide
  have conv (c : Nat) : convTag t t h.rm c = (c % 2 ^ t.width, 0) := if_pos rfl
  have no_flags (l : List Nat) (f : Nat → Nat × Coded) (hf : ∀ i, (f i).2.2 = 0) :
      (l.map f).foldl (fun fl e => fl ||| e.2.2) 0 = 0 := by
    induction l with
    | nil => rfl
    | cons i l ih => rw [List.map_cons, List.foldl_cons, hf, Nat.or_self, ih]
  have sums (o : RedOp) (ho : o = .sum ∨ o = .sumOrd) :
      Hart.reduced o a b p h [t, t] = ([(0, (total % 2 ^ t.width).toNat)], 0) := by
    unfold Hart.reduced RedOp.reduce
    simp only [promote_self, conv, fixed, Bool.false_eq_true, and_false, if_false]
    have codes : ((h.actives p).map fun i => (i, h.code a t.width i % 2 ^ t.width, 0)).map (fun e => (e.1, e.2.1)) =
        (h.actives p).map fun i => (i, h.code a t.width i % 2 ^ t.width) := List.map_map ..
    rw [codes, ← wrapNat_intVal some_width, foldl_sum some_width h.rm o ho fixed, Nat.or_self, no_flags _ _ fun _ => rfl,
      List.map_map]
    simp only [Function.comp_def, intVal_mod, total, Hart.elem, left, right]
    rfl
  exact ⟨sums .sum (.inl rfl), (sums .sumOrd (.inr rfl)).trans (sums .sum (.inl rfl)).symm⟩

end Sys2Proof.Machine

/-!
PROOFS. Permutes: the source element of each element of the destination (R298, R299).
-/
namespace Sys2Proof.Machine

section
variable (P : Nat → Bool)

/-- The place of an element among the selected ones is the number of selected elements below it. -/
theorem mem_zipIdx_filter_range (n j k : Nat) : (j, k) ∈ ((List.range n).filter P).zipIdx ↔
    (j < n ∧ P j = true) ∧ k = ((List.range j).filter P).length := by
  induction n with
  | zero => simp
  | succ n ih =>
    rw [List.range_succ, List.filter_append, List.zipIdx_append, List.mem_append, ih, Nat.zero_add]
    by_cases selected : P n = true
    · rw [List.filter_singleton, selected, cond_true, List.zipIdx_singleton, List.mem_singleton, Prod.mk.injEq]
      constructor
      · rintro (⟨⟨below, on⟩, place⟩ | ⟨rfl, rfl⟩)
        · exact ⟨⟨by omega, on⟩, place⟩
        · exact ⟨⟨by omega, selected⟩, rfl⟩
      · rintro ⟨⟨below, on⟩, place⟩
        rcases Nat.lt_succ_iff_lt_or_eq.mp below with earlier | rfl
        · exact .inl ⟨⟨earlier, on⟩, place⟩
        · exact .inr ⟨rfl, place⟩
    · rw [List.filter_singleton, Bool.eq_false_iff.mpr selected, cond_false, List.zipIdx_nil]
      simp only [List.not_mem_nil, or_false]
      refine and_congr_left fun _ => and_congr_left fun on => ?_
      have other : j ≠ n := fun e => selected (e ▸ on)
      omega

/-- The selected elements below one of a range. -/
theorem filter_below_filter_range {i n : Nat} (h : i ≤ n) :
    ((List.range n).filter P).filter (fun j => decide (j < i)) = (List.range i).filter P := by
  obtain ⟨k, rfl⟩ := Nat.exists_eq_add_of_le h
  have below : (List.range i).filter (fun j => P j && decide (j < i)) = (List.range i).filter P :=
    List.filter_congr fun j hj => by rw [decide_eq_true (List.mem_range.mp hj), Bool.and_true]
  have above : ((List.range k).map (i + ·)).filter (fun j => P j && decide (j < i)) = [] := by
    rw [List.filter_eq_nil_iff]
    rintro _ hj
    obtain ⟨j, -, rfl⟩ := List.mem_map.mp hj
    simp
  rw [List.filter_filter, List.range_add, List.filter_append]
  simp only [Bool.and_comm (decide _)]
  rw [below, above, List.append_nil]

end

section
variable (h : Hart)

theorem Hart.mem_actives {p : PR} {i : Nat} : i ∈ h.actives p ↔ i < h.vl ∧ h.pred p i = true := by
  rw [Hart.actives, List.mem_filter, List.mem_range]

theorem mem_map_index {l : List Nat} {f : Nat → Nat} {i v : Nat} :
    (i, v) ∈ l.map (fun j => (j, f j)) ↔ i ∈ l ∧ v = f i := by
  rw [List.mem_map]
  constructor
  · rintro ⟨j, hj, e⟩
    cases e
    exact ⟨hj, rfl⟩
  · rintro ⟨hi, rfl⟩
    exact ⟨i, hi, rfl⟩

/-- The elements that are gathered for the indices of a list. -/
theorem Hart.mem_gather {a : VR} {l : List Nat} {g : Nat → Option Nat} {i v : Nat} :
    (i, v) ∈ h.gather a (l.map fun j => (j, g j)) ↔ i ∈ l ∧ v = (g i).elim 0 (h.elem a) := by
  have codes : h.gather a (l.map fun j => (j, g j)) = l.map fun j => (j, (g j).elim 0 (h.elem a)) := by
    rw [Hart.gather, List.map_map]
    refine List.map_congr_left fun j _ => ?_
    cases e : g j <;> simp [e]
  rw [codes, mem_map_index]

theorem ite_elim {c : Prop} [Decidable c] {n : Nat} {f : Nat → Nat} :
    (if c then some n else none).elim 0 f = if c then f n else 0 := by
  split <;> rfl

end

/-- Settles O32: each permute lists its elements with their sources; a place side by side counts the selected elements
below. -/
theorem permuteElements : Obligations.PermuteElements := by
  unfold Obligations.PermuteElements
  intro h a b x p ts i v k m on below
  have active {i : Nat} : i ∈ h.actives p ↔ on i := h.mem_actives
  have place {j i : Nat} : (j, i) ∈ (h.actives p).zipIdx ↔ on j ∧ i = below j := mem_zipIdx_filter_range ..
  refine ⟨?raised, ?lowered, ?permuted, ?reversed, ?zipped, ?unzipped, ?ranked, ?squeezed, ?spread⟩
  case raised =>
    refine h.mem_gather.trans ?_
    rw [List.mem_filter, active, decide_eq_true_iff, and_assoc]
    rfl
  case lowered =>
    refine h.mem_gather.trans ?_
    rw [active, ite_elim]
  case permuted =>
    refine h.mem_gather.trans ?_
    dsimp only
    rw [active, ite_elim]
  case reversed => exact h.mem_gather.trans (and_congr_left fun _ => active)
  case zipped => exact mem_map_index.trans (and_congr_left fun _ => active)
  case unzipped => exact mem_map_index.trans (and_congr_left fun _ => active)
  case ranked =>
    refine mem_map_index.trans ?_
    rw [List.mem_range]
    refine and_congr_right fun small => ?_
    rw [Hart.actives, filter_below_filter_range _ (Nat.le_of_lt small)]
  case squeezed =>
    refine List.mem_map.trans ?_
    constructor
    · rintro ⟨⟨j, i⟩, hj, e⟩
      cases e
      obtain ⟨selected, first⟩ := place.mp hj
      exact ⟨j, selected, first, rfl⟩
    · rintro ⟨j, selected, first, rfl⟩
      exact ⟨(j, i), place.mpr ⟨selected, first⟩, rfl⟩
  case spread =>
    refine List.mem_map.trans ?_
    constructor
    · rintro ⟨⟨j, i⟩, hj, e⟩
      cases e
      obtain ⟨selected, rfl⟩ := place.mp hj
      exact ⟨selected, rfl⟩
    · rintro ⟨selected, rfl⟩
      exact ⟨(i, below i), place.mpr ⟨selected, rfl⟩, rfl⟩

end Sys2Proof.Machine

/-!
PROOFS. Instructions that write predicate bits or an x register when they complete, in a calm state (R297); the first and
the last of a range that a condition selects.
-/
namespace Sys2Proof.Machine

/-! Ranges. -/

section
variable (P : Nat → Bool)

/-- Up to the first one selected, or to the end, none is. -/
theorem le_find?_range {m n : Nat} (h : m ≤ n) :
    m ≤ ((List.range n).find? P).getD n ↔ ∀ j, j < m → P j = false := by
  cases found : (List.range n).find? P with
  | none =>
    refine ⟨fun _ j hj => ?_, fun _ => h⟩
    exact Bool.eq_false_iff.mpr (List.find?_eq_none.mp found j (List.mem_range.mpr (by omega)))
  | some i =>
    obtain ⟨on, -, off⟩ := List.find?_range_eq_some.mp found
    refine ⟨fun below j hj => by simpa using off j (Nat.lt_of_lt_of_le hj below), fun clear => ?_⟩
    exact Nat.le_of_not_lt fun inside => by rw [clear i inside] at on; exact Bool.false_ne_true on

/-- The last one selected is above every other. -/
theorem getLast?_filter_range {n l : Nat} (last : ((List.range n).filter P).getLast? = some l) :
    (l < n ∧ P l = true) ∧ ∀ j, j < n → P j = true → j ≤ l := by
  obtain ⟨front, all⟩ := List.getLast?_eq_some_iff.mp last
  have mem : ∀ j, j ∈ front ++ [l] ↔ j < n ∧ P j = true := fun j => by
    rw [← all, List.mem_filter, List.mem_range]
  have sorted : (front ++ [l]).Pairwise (· < ·) := all ▸ List.pairwise_lt_range.filter P
  refine ⟨(mem l).mp (by simp), fun j below on => ?_⟩
  rcases List.mem_append.mp ((mem j).mpr ⟨below, on⟩) with earlier | here
  · exact Nat.le_of_lt ((List.pairwise_append.mp sorted).2.2 j earlier l (by simp))
  · exact Nat.le_of_eq (List.mem_singleton.mp here)

end

section
variable {s : State} {srcs : List Src} {tagsOk : List Tag → Bool}

/-- An instruction that completes starts again at the first element, whatever the restart point was. -/
theorem State.GoesV.of_resume {o : Host.Outcome State Fault Refusal} {h : Hart} {r : Resume} {pc : BitVec 55}
    (g : s.GoesV o { h with resume := r } pc) : s.GoesV o h pc := by
  obtain ⟨t, next, c⟩ := g
  exact ⟨t, next, c.me, c.others, c.words, c.rest⟩

theorem Hart.setX_with_resume (h : Hart) (r : Resume) (d : XR) (w : Word) :
    { h with resume := r }.setX d w = { h.setX d w with resume := r } := by
  unfold Hart.setX
  split <;> rfl

/-! Predicate bits. -/

section
variable {pd : PR} {f : Hart → List Tag → (Nat → Bool) × Nat} {b : Nat → Bool}

/-- The bits below vl are written, and no flag raised. -/
theorem State.toPred_of_calm (calm : s.Calm) (unspent : s.me.spent = false) (tags : tagsOk (s.me.srcTags srcs) = true)
    (groups : groupsOk s.me.ew (s.me.srcRegs srcs) none = true)
    (bits : ∀ r, f { s.me with resume := r } (s.me.srcTags srcs) = (b, 0)) :
    s.toPred srcs tagsOk pd f = .ok (s.fromStart.setMe (s.fromStart.me.setPreds pd b s.fromStart.me.vl)) := by
  obtain ⟨r, start⟩ := s.fromStart_me_eq
  have calm := State.fromStart_calm calm
  have groups : groupsOk s.fromStart.me.ew (s.me.srcRegs srcs) none = true := by rw [start]; exact groups
  unfold State.toPred
  dsimp only
  rw [tags, State.operands_of_calm calm groups, ok_bind, if_neg (Bool.eq_false_iff.mp unspent),
    State.sound_of_calm calm _ fun _ _ e he => List.mem_range.mp he, ok_bind, start, bits]
  dsimp only
  split
  case isTrue empty => rw [empty]; rfl
  case isFalse => rfl

/-- Bits below vl are those of b; the others stay. -/
theorem State.toPred_bits (calm : s.Calm) (unspent : s.me.spent = false) (tags : tagsOk (s.me.srcTags srcs) = true)
    (groups : groupsOk s.me.ew (s.me.srcRegs srcs) none = true)
    (bits : ∀ r, f { s.me with resume := r } (s.me.srcTags srcs) = (b, 0))
    {o : Host.Outcome State Fault Refusal} {len : Nat} (run : o = completeV len (s.toPred srcs tagsOk pd f)) :
    ∃ u, o = .next u ∧ u.me.pc = s.me.pcNext len ∧ u.me.v = s.me.v ∧ u.me.x = s.me.x ∧ u.me.mr = s.me.mr ∧
      ∀ j k, k < 0x8000 → u.me.pred j k = if j = pd ∧ pd ≠ 0 ∧ k < s.me.vl then b k else s.me.pred j k := by
  obtain ⟨r, start⟩ := s.fromStart_me_eq
  rw [run, State.toPred_of_calm calm unspent tags groups bits]
  obtain ⟨u, next, done⟩ := completeV_goes (s.fromStart.setMe (s.fromStart.me.setPreds pd b s.fromStart.me.vl)) len
  refine ⟨u, next, ?_⟩
  have same := s.fromStart.me.setPreds_sameButPreds pd b s.fromStart.me.vl
  rw [done.me_eq, State.me_setMe]
  refine ⟨?_, ?_, ?_, ?_, fun j k hk => ?_⟩
  · rw [Hart.pcNext, same, start]; rfl
  · rw [same, start]
  · rw [same, start]
  · rw [same, start]
  · exact (Hart.pred_setPreds _ _ _ _ _ k hk).trans (by rw [start]; rfl)

end

/-! An x register. -/

/-- The register is written where there is a value. -/
theorem State.toScalar_goes {d : XR} {f : Hart → List Tag → Option Word} {v : Option Word} (calm : s.Calm)
    (unspent : s.me.spent = false) (tags : tagsOk (s.me.srcTags srcs) = true)
    (groups : groupsOk s.me.ew (s.me.srcRegs srcs) none = true)
    (value : ∀ r, f { s.me with resume := r } (s.me.srcTags srcs) = v)
    {o : Host.Outcome State Fault Refusal} {len : Nat} (run : o = completeV len (s.toScalar srcs tagsOk d f)) :
    s.GoesV o (v.elim s.me (s.me.setX d)) (s.me.pcNext len) := by
  obtain ⟨r, start⟩ := s.fromStart_me_eq
  have calm := State.fromStart_calm calm
  have groups : groupsOk s.fromStart.me.ew (s.me.srcRegs srcs) none = true := by rw [start]; exact groups
  rw [run]
  unfold State.toScalar
  dsimp only
  rw [tags, State.operands_of_calm calm groups, ok_bind, if_neg (Bool.eq_false_iff.mp unspent),
    State.sound_of_calm calm _ fun _ _ e he => List.mem_range.mp he, ok_bind, start, value]
  apply State.goesV_of_fromStart
  cases v with
  | none =>
    have done := completeV_goes s.fromStart len
    rw [start] at done
    exact done.of_resume
  | some w =>
    have done := completeV_setMe s.fromStart len (h := s.fromStart.me.setX d w) (Hart.setX_task ..) (Hart.setX_pc ..)
    rw [start, Hart.setX_with_resume] at done
    show s.fromStart.GoesV (completeV len (.ok (s.fromStart.setMe (s.fromStart.me.setX d w)))) _ _
    rw [start, Hart.setX_with_resume]
    exact done.of_resume

end

end Sys2Proof.Machine

/-!
PROOFS. Predicate logic, cuts and `vpart` (R302 to R304, R306).
-/
namespace Sys2Proof.Machine

/-! The bits of each form. -/

/-- f computes the bits of g below vl, raises no flag, and does not look at the restart point. -/
structure PredForm.Computes (f : Hart → List Tag → (Nat → Bool) × Nat) (g : Hart → Nat → Bool) : Prop where
  bits : ∀ h ts k, k < h.vl → (f h ts).1 k = g h k
  noFlags : ∀ h ts, (f h ts).2 = 0
  resume : ∀ (h : Hart) r ts, f { h with resume := r } ts = f h ts

/-- A cut of n bytes' reach: the first selected bit is at n or above just when none below n is selected. -/
theorem Hart.le_firstCut (h : Hart) (a m : PR) {n : Nat} (below : n ≤ h.vl) :
    decide (n ≤ h.firstCut a m) = (List.range n).all fun j => !(h.pred m j && h.pred a j) := by
  rw [Bool.eq_iff_iff, decide_eq_true_iff, List.all_eq_true]
  refine (le_find?_range _ below).trans ?_
  simp only [List.mem_range, Bool.not_eq_true']

theorem PredForm.Computes.plogic {f : Bool → Bool → Bool} (a b p : PR) {g : Hart → Nat → Bool}
    (bit : ∀ h k, (h.pred p k && f (h.pred a k) (h.pred b k)) = g h k) :
    PredForm.Computes (fun h _ => (fun i => h.pred p i && f (h.pred a i) (h.pred b i), 0)) g :=
  ⟨fun h _ k _ => bit h k, fun _ _ => rfl, fun _ _ _ => rfl⟩

theorem PredForm.Computes.vcuti (a m : PR) :
    PredForm.Computes
      (fun h _ => let f := h.firstCut a m; (fun i => h.pred m i && (i < f || (true && i == f)), 0))
      fun h i => h.pred m i && (List.range i).all fun j => !(h.pred m j && h.pred a j) := by
  refine ⟨fun h _ k below => ?_, fun _ _ => rfl, fun _ _ _ => rfl⟩
  dsimp only
  rw [← h.le_firstCut a m (Nat.le_of_lt below), Bool.true_and, decide_eq_decide.mpr Nat.le_iff_lt_or_eq, Bool.decide_or]
  rfl

theorem PredForm.Computes.vcutx (a m : PR) :
    PredForm.Computes
      (fun h _ => let f := h.firstCut a m; (fun i => h.pred m i && (i < f || (false && i == f)), 0))
      fun h i => h.pred m i && (List.range (i + 1)).all fun j => !(h.pred m j && h.pred a j) := by
  refine ⟨fun h _ k below => ?_, fun _ _ => rfl, fun _ _ _ => rfl⟩
  dsimp only
  rw [← h.le_firstCut a m below, Bool.false_and, Bool.or_false]
  rfl

/-- The bits above the last one of a list of selected places. -/
def Hart.after (p : PR) (last : Hart → Option Nat) (h : Hart) (_ : List Tag) : (Nat → Bool) × Nat :=
  match last h with
  | none => (fun _ => false, 0)
  | some l => (fun i => h.pred p i && l < i, 0)

theorem PredForm.Computes.pafter (a p : PR) :
    PredForm.Computes (Hart.after p fun h => ((List.range h.vl).filter fun i => h.pred a i).getLast?)
      fun h i => h.pred p i && (List.range h.vl).any (h.pred a) &&
        (List.range h.vl).all fun j => !h.pred a j || decide (j < i) := by
  refine ⟨fun h ts k below => ?_, fun h _ => ?_, fun _ _ _ => rfl⟩
  · unfold Hart.after
    cases found : ((List.range h.vl).filter fun i => h.pred a i).getLast? with
    | none =>
      have none_on := List.filter_eq_nil_iff.mp (List.getLast?_eq_none_iff.mp found)
      have any : (List.range h.vl).any (h.pred a) = false := by simpa using none_on
      rw [any, Bool.and_false, Bool.false_and]
      dsimp only
      rw [found]
    | some l =>
      obtain ⟨⟨below, on⟩, last⟩ := getLast?_filter_range _ found
      have any : (List.range h.vl).any (h.pred a) = true :=
        List.any_eq_true.mpr ⟨l, List.mem_range.mpr below, on⟩
      have all : ((List.range h.vl).all fun j => !h.pred a j || decide (j < k)) = decide (l < k) := by
        rw [Bool.eq_iff_iff, List.all_eq_true, decide_eq_true_iff]
        constructor
        · intro above
          simpa [on] using above l (List.mem_range.mpr below)
        · intro above j hj
          cases off : h.pred a j
          · rfl
          · have := last j (List.mem_range.mp hj) off
            simpa using Nat.lt_of_le_of_lt this above
      rw [any, Bool.and_true, all]
      dsimp only
      rw [found]
  · unfold Hart.after
    split <;> rfl

/-- Every form writes its bits when it completes. -/
theorem exec_predForm {i : Instr} {q : PredForm} (form : predForm i = some q) (s : State) :
    ∃ f, PredForm.Computes f q.f ∧ exec i s = completeV q.len (s.toPred [] (fun _ => true) q.pd f) := by
  have logic {r : PredForm} {f : Bool → Bool → Bool} (a b p : PR)
      (bit : ∀ h k, (h.pred p k && f (h.pred a k) (h.pred b k)) = r.f h k) {j : Instr}
      (run : exec j s = s.plogic r.len f r.pd a b p) :
      ∃ g, PredForm.Computes g r.f ∧ exec j s = completeV r.len (s.toPred [] (fun _ => true) r.pd g) :=
    ⟨_, .plogic a b p bit, run⟩
  unfold predForm at form
  split at form
  case h_11 op d a b _ p _ _ _ _ =>
    split at form
    case h_1 => cases form; exact logic (f := fun x y => x && y) (prOf a) (prOf b) p (fun _ _ => rfl) rfl
    case h_2 => cases form; exact logic (f := fun x y => x || y) (prOf a) (prOf b) p (fun _ _ => rfl) rfl
    case h_3 => cases form; exact logic (f := fun x y => x != y) (prOf a) (prOf b) p (fun _ _ => rfl) rfl
    case h_4 => cases form; exact logic (f := fun x _ => !x) (prOf a) 0 p (fun _ _ => rfl) rfl
    case h_5 => cases form; exact logic (f := fun x y => x && !y) (prOf a) (prOf b) p (fun _ _ => rfl) rfl
    case h_6 => cases form; exact logic (f := fun _ _ => true) 0 0 p (fun _ _ => Bool.and_true _) rfl
    case h_7 => cases form; exact logic (f := fun _ _ => false) 0 0 0 (fun _ _ => Bool.and_false _) rfl
    case h_8 => cases form; exact ⟨_, .pafter (prOf a) p, rfl⟩
    case h_9 => cases form; exact ⟨_, .vcuti (prOf a) p, rfl⟩
    case h_10 => cases form; exact ⟨_, .vcutx (prOf a) p, rfl⟩
    case h_11 => cases form
  case h_1 d a b p => cases form; exact logic (f := fun x y => x && y) a b p (fun _ _ => rfl) rfl
  case h_2 d a b p => cases form; exact logic (f := fun x y => x || y) a b p (fun _ _ => rfl) rfl
  case h_3 d a b p => cases form; exact logic (f := fun x y => x != y) a b p (fun _ _ => rfl) rfl
  case h_4 d a p => cases form; exact logic (f := fun x _ => !x) a 0 p (fun _ _ => rfl) rfl
  case h_5 d a b p => cases form; exact logic (f := fun x y => x && !y) a b p (fun _ _ => rfl) rfl
  case h_6 d p => cases form; exact logic (f := fun _ _ => true) 0 0 p (fun _ _ => Bool.and_true _) rfl
  case h_7 d => cases form; exact logic (f := fun _ _ => false) 0 0 0 (fun _ _ => Bool.and_false _) rfl
  case h_8 d a p => cases form; exact ⟨_, .pafter a p, rfl⟩
  case h_9 d a m => cases form; exact ⟨_, .vcuti a m, rfl⟩
  case h_10 d a m => cases form; exact ⟨_, .vcutx a m, rfl⟩
  case h_12 => cases form

/-! `vpart`. -/

theorem Hart.run_noFlags (h : Hart) (a : VR) (p : PR) (ts : List Tag) : (h.run a p ts).2 = 0 := by
  unfold Hart.run
  dsimp only
  split <;> rfl

/-- The run: from the first bit up to the first later element that depends on it. -/
theorem Hart.run_iff (h : Hart) (a : VR) (p : PR) (t : Tag) {k : Nat} (below : k < h.vl) :
    (h.run a p [t]).1 k = true ↔ ∃ i, (i < h.vl ∧ h.pred p i = true ∧ ∀ j, j < i → h.pred p j = false) ∧
      i ≤ k ∧ k < h.vl ∧ ∀ j, i < j → j ≤ k → intVal t (h.elem a j) < i := by
  unfold Hart.run
  dsimp only [List.headD_cons]
  cases found : (List.range h.vl).find? fun i => h.pred p i with
  | none =>
    refine ⟨fun off => absurd off Bool.false_ne_true, fun ⟨i, ⟨small, on, _⟩, _⟩ => ?_⟩
    exact absurd on (List.find?_eq_none.mp found i (List.mem_range.mpr small))
  | some b =>
    obtain ⟨on, inside, off⟩ := List.find?_range_eq_some.mp found
    have first : b < h.vl ∧ h.pred p b = true ∧ ∀ j, j < b → h.pred p j = false :=
      ⟨List.mem_range.mp inside, on, fun j hj => by simpa using off j hj⟩
    have only {i : Nat} (other : i < h.vl ∧ h.pred p i = true ∧ ∀ j, j < i → h.pred p j = false) : i = b := by
      have := List.find?_range_eq_some.mpr ⟨other.2.1, List.mem_range.mpr other.1, fun j hj => by simp [other.2.2 j hj]⟩
      exact Option.some.inj (this.symm.trans found)
    have reach := le_find?_range (fun i => decide (b < i) && decide (intVal t (h.elem a i) ≥ (b : Int))) below
    have clear : (∀ j, j < k + 1 → (decide (b < j) && decide (intVal t (h.elem a j) ≥ (b : Int))) = false) ↔
        ∀ j, b < j → j ≤ k → intVal t (h.elem a j) < b := by
      refine forall_congr' fun j => ?_
      rw [Nat.lt_succ_iff, Bool.and_eq_false_imp, decide_eq_true_iff, decide_eq_false_iff_not, not_le]
      exact forall_comm
    simp only [Bool.and_eq_true, decide_eq_true_iff]
    constructor
    · rintro ⟨above, run⟩
      exact ⟨b, first, above, below, clear.mp (reach.mp run)⟩
    · rintro ⟨i, hi, above, -, run⟩
      cases only hi
      exact ⟨above, reach.mpr (clear.mpr run)⟩

/-- Settles O34: the forms' bits, and the run of `vpart` between the first bit and the first element that depends on it. -/
theorem predicateResults : Obligations.PredicateResults := by
  unfold Obligations.PredicateResults
  refine ⟨?logic, ?part⟩
  case logic =>
    intro s i q form calm unspent h
    obtain ⟨f, computes, run⟩ := exec_predForm form s
    obtain ⟨u, next, pc, v, x, mr, bits⟩ := State.toPred_bits calm unspent rfl (groups := rfl)
      (fun r => (computes.resume s.me r _).trans (Prod.ext rfl (computes.noFlags ..))) run
    refine ⟨u, next, pc, v, x, mr, fun j k hk => (bits j k hk).trans ?_⟩
    exact ite_congr rfl (fun hit => computes.bits _ _ k hit.2.2) fun _ => rfl
  case part =>
    intro s q p a ca cb cc d b c pm h calm unspent int signed group first inRun puts
    have part {len : Nat} {q p : PR} {o : Host.Outcome State Fault Refusal} (run : o = s.vpart len q a p) :
        puts o len q p := by
      have tags : (oneTag fun t => t.isInt && t.isSgn) (s.me.srcTags [.v a]) = true :=
        Bool.and_eq_true_iff.mpr ⟨int, signed⟩
      have groups : groupsOk s.me.ew (s.me.srcRegs [.v a]) none = true := by
        simpa [groupsOk, Hart.srcRegs] using group
      obtain ⟨u, next, pc, -, -, -, bits⟩ := State.toPred_bits calm unspent tags groups
        (b := (h.run a p [h.tagOf a]).1) (fun _ => Prod.ext rfl (h.run_noFlags a p _)) run
      refine ⟨u, next, pc, fun k below small some_p => ?_⟩
      rw [bits q k small, if_pos ⟨rfl, some_p, below⟩]
      exact h.run_iff a p _ below
    exact ⟨part rfl, part rfl⟩

end Sys2Proof.Machine

/-!
PROOFS. `vlast`, `vfirst`, `pcnt` and `pfirst` (R305, R307).
-/
namespace Sys2Proof.Machine

theorem tag_width_pos (t : Tag) : 0 < t.width := by
  cases t <;> decide

/-- An element in an x register is extended by the sign of its tag. -/
theorem scalarOf_eq (t : Tag) (c : Nat) :
    scalarOf t c = if t.isSgn then (BitVec.ofNat t.width c).signExtend 64 else BitVec.ofNat 64 c := by
  unfold scalarOf
  split
  · rw [BitVec.signExtend, sextNat_toInt _ _ (tag_width_pos t)]
  · rfl

/-- Settles O35: each writes its value where there is one. -/
theorem scalarPickResults : Obligations.ScalarPickResults := by
  unfold Obligations.ScalarPickResults
  intro s d a p q ca cb cc sb e b c h t calm unspent gives out
  refine ⟨fun ordinary group => ?picks, ?counts⟩
  case picks =>
    have groups : groupsOk s.me.ew (s.me.srcRegs [.v a]) none = true := by
      simpa [groupsOk, Hart.srcRegs] using group
    have pick {len : Nat} {last : Bool} {o : Host.Outcome State Fault Refusal} (run : o = s.vpick len last d a p) :
        s.GoesV o (((if last then (h.actives p).getLast? else (h.actives p).head?).map out).elim h (h.setX d))
          (h.pcNext len) := by
      refine State.toScalar_goes calm unspent ordinary groups (fun r => ?_) run
      exact congrArg (fun f => Option.map f _) (funext fun i => scalarOf_eq t (h.elem a i))
    refine ⟨fun i last => ?_, fun i first => ?_, fun none_on => ?_⟩
    · have last4 := pick (len := 4) (last := true) rfl
      have last8 := pick (len := 8) (last := true) rfl
      rw [if_pos rfl, last] at last4 last8
      exact ⟨last4, last8⟩
    · have first4 := pick (len := 4) (last := false) rfl
      have first8 := pick (len := 8) (last := false) rfl
      rw [if_neg Bool.false_ne_true, first] at first4 first8
      exact ⟨first4, first8⟩
    · have last := pick (len := 4) (last := true) rfl
      have first := pick (len := 4) (last := false) rfl
      rw [none_on] at last first
      exact ⟨last, first⟩
  case counts =>
    have count {len : Nat} {e : PR} {o : Host.Outcome State Fault Refusal} (run : o = s.pcnt len d e p) :
        gives o len d (BitVec.ofNat 64 (h.both e p).length) :=
      State.toScalar_goes (v := some _) calm unspent rfl rfl (fun _ => rfl) run
    have first {len : Nat} {e : PR} {o : Host.Outcome State Fault Refusal} (run : o = s.pfirst len d e p) :
        gives o len d (BitVec.ofNat 64 ((h.both e p).head?.getD h.vl)) :=
      State.toScalar_goes (v := some _) calm unspent rfl rfl (fun _ => rfl) run
    exact ⟨⟨count rfl, first rfl⟩, count rfl, first rfl⟩

end Sys2Proof.Machine

/-!
PROOFS. The windowed gather, and the save and restore of a register (R320, R322).
-/
namespace Sys2Proof.Machine

section
variable {s : State}

/-- Words that are sound, and a residue that is, let every read of the register file through (R26, R86). -/
theorem State.sound_of_words (residue : (s.hmem s.cur).resErr = none) (words : s.wordsSound) (regs : List (VR × Tag)) :
    s.sound regs (fun _ => List.range s.me.vl) = .ok () := by
  have none_bad : ¬ (s.me.vl ≠ 0 ∧
      (regs.zipIdx.any fun r => (List.range s.me.vl).any fun e => s.elemBad r.1.1 r.1.2 e) = true) := by
    rintro ⟨-, bad⟩
    obtain ⟨r, -, bad⟩ := List.any_eq_true.mp bad
    obtain ⟨e, he, bad⟩ := List.any_eq_true.mp bad
    rw [words _ _ e (List.mem_range.mp he)] at bad
    exact Bool.false_ne_true bad
  rw [State.sound, if_neg none_bad, State.residue, residue]
  exact if_neg fun h => Bool.false_ne_true h.2

/-- A register that is not spilled is not filled. -/
theorem State.fillReg_of_none (spilled : s.me.spilled = []) (n : Nat) : s.fillReg n = .ok s := by
  have whole : s.fillHart s.cur n = .ok s := by
    unfold State.fillHart
    dsimp only
    rw [← State.me_def, spilled]
    rfl
  rw [State.fillReg, whole]

/-! `vgathw`. -/

/-- Its operands are legal: the tags and groups of its destination, its window and its index. -/
structure State.GatherLegal (s : State) (d w ix : VR) : Prop where
  ordinary : (s.me.tagOf w).ordinary = true
  same : s.me.tagOf d = s.me.tagOf w
  index : (s.me.tagOf ix).isInt = true
  dest : (groupOf (s.me.tagOf w) s.me.ew d).isSome = true
  window : (groupOf (s.me.tagOf w) s.me.ew w).isSome = true
  indices : (groupOf (s.me.tagOf ix) s.me.ew ix).isSome = true
  apart : let g := groupSize (s.me.tagOf w) s.me.ew
    let gi := groupSize (s.me.tagOf ix) s.me.ew
    meets d g w g = false ∧ meets d g ix gi = false ∧ meets w g ix gi = false

/-- After its window phase, its serving phase lands. -/
theorem State.vgathw_of_window {d w ix : VR} {x : XR} {o p : PR} {e : State} (legal : s.GatherLegal d w ix)
    (spilled : s.me.spilled = []) :
    let b := (s.me.tagOf w).width / 8
    s.vmemRun (windowMem w (s.me.unitAddr x b)) (groupSize (s.me.tagOf w) s.me.ew) = .ok e →
    e.bagEmpty e.cur = true → (e.hmem e.cur).resErr = none → e.wordsSound → e.me.skewed ix p b = none →
    e.me.vl ≠ 0 →
    s.vgathw d w ix x o p = .ok (e.setMe (e.me.serve d w ix o p b)) := by
  intro b window drained residue words straight some_element
  obtain ⟨ordinary, same, index, dest, win, indices, dw, di, wi⟩ := legal
  have tags : ((s.me.tagOf w).ordinary && s.me.tagOf d == s.me.tagOf w && (s.me.tagOf ix).isInt) = true := by
    simp [ordinary, same, index]
  have groups : (((groupOf (s.me.tagOf w) s.me.ew d).isSome && (groupOf (s.me.tagOf w) s.me.ew w).isSome &&
      (groupOf (s.me.tagOf ix) s.me.ew ix).isSome) &&
      !meets d (groupSize (s.me.tagOf w) s.me.ew) w (groupSize (s.me.tagOf w) s.me.ew) &&
      !meets d (groupSize (s.me.tagOf w) s.me.ew) ix (groupSize (s.me.tagOf ix) s.me.ew) &&
      !meets w (groupSize (s.me.tagOf w) s.me.ew) ix (groupSize (s.me.tagOf ix) s.me.ew)) = true := by
    simp [dest, win, indices, dw, di, wi]
  unfold State.vgathw
  dsimp only
  rw [need_bind tags, need_bind groups, State.fillData_of_calm (.inr spilled), ok_bind]
  show (s.vmemRun (windowMem w (s.me.unitAddr x b)) (groupSize (s.me.tagOf w) s.me.ew) >>= _) = _
  rw [window, ok_bind, need_bind drained, State.sound_of_words residue words, ok_bind]
  rw [straight, if_neg some_element]

/-! `vsave` and `vrest`. -/

/-- With no element that stops and no pause, every unit runs. -/
theorem State.unitPlan_of_passes {m : VMem} {b unit n : Nat} {P : Nat → Bool} (pause : s.drv.pause = none) :
    let todo := (List.range n).filter P
    (∀ e ∈ todo, s.elemStop m b e = none) → s.unitPlan m b unit todo = .ok (todo, none, none) := by
  intro todo stops
  have none_bad : (todo.findSome? fun e => (s.elemStop m b e).map fun x => (e, x)) = none := by
    rw [List.findSome?_eq_none_iff]
    intro e he
    rw [stops e he]
    rfl
  unfold State.unitPlan
  dsimp only
  rw [none_bad, pause]
  dsimp only [Option.getD_none]
  refine congrArg (fun l => Except.ok (l, none, none)) (List.filter_eq_self.mpr fun e he => ?_)
  cases last : todo.getLast? with
  | none => rw [List.getLast?_eq_none_iff.mp last] at he; exact absurd he List.not_mem_nil
  | some l =>
    obtain ⟨below, on⟩ := List.mem_filter.mp he
    have top := (getLast?_filter_range P last).2 e (List.mem_range.mp below) on
    exact decide_eq_true (Nat.lt_succ_of_le (Nat.div_le_div_right top))

/-- The whole image of a register moves where nothing stops it and nothing waits. -/
theorem State.moveImage_of_passes {store : Bool} {v : VR} {x : XR} (spilled : s.me.spilled = [])
    (pause : s.drv.pause = none) {todo : List Nat}
    (units : todo = (List.range 2048).filter fun e => s.me.resume.unit ≤ e / 128) :
    let ino := s.drv.nextId
    let base := (s.getX x).toNat % 2 ^ 55
    let size := 32 * s.vgrant s.cur
    let m := imageMem store v base
    let ps := s.places m 8 (m.accs todo)
    let held := s.staysHeld s m ino 8 ps
    base % 64 = 0 → (∀ e ∈ todo, s.elemStop m 8 e = none) → s.vmemWait s m ino 8 ps held = .ok () →
    let drawn := s.drawFrames store .none 8 ps
    s.moveImage store v x = .ok (
      if store then
        let r := drawn.pieces m 8 1 (m.accs todo)
        r.1.performStore m ino ((r.2.zip todo).map fun w => if w.2 < size then w.1 else { w.1 with val := 0 }) held
      else drawn.performLoad m (fun a => if a.e < size then .v v a.e 8 else .none) ino 8 (m.accs todo) held) := by
  intro ino base size m ps held aligned stops wait drawn
  rw [units] at stops
  unfold State.moveImage
  dsimp only
  rw [need_bind (decide_eq_true aligned), State.fillReg_of_none spilled, ok_bind,
    State.unitPlan_of_passes pause stops, ok_bind, ← units]
  have run : held = (Option.isNone (none : Option (Nat × AccStop)) && Option.isNone (none : Option Nat) &&
      s.staysHeld s m ino 8 ps) := rfl
  dsimp only
  rw [← run, wait, ok_bind]
  cases store <;> rfl

end

/-- Settles O38: the window phase by the run of a vector load, and the image by its units. -/
theorem windowAndImageResults : Obligations.WindowAndImageResults := by
  unfold Obligations.WindowAndImageResults
  intro s d w ix v x o p cb spilled pause ino
  refine ⟨?window, ?image⟩
  case window =>
    intro h t g gi b m todo ps ordinary same index dest window indices dw di wi stops loose wait e drained residue words
      straight some_element
    have run : s.vmemRun m g = .ok e := by
      have waits : s.vmemWait s m ino b ps (s.staysHeld s m ino b ps) = .ok () := by rw [loose]; exact wait
      refine (State.vmemRun_of_passes (m := m) g pause stops waits).trans (congrArg Except.ok ?_)
      show (s.drawFrames false .none b ps).performElems m ino b g todo (s.staysHeld s m ino b ps) = e
      rw [loose]
    have gather := State.vgathw_of_window (o := o) ⟨ordinary, same, index, dest, window, indices, dw, di, wi⟩ spilled run
      drained residue words straight some_element
    show State.EffectsV _ (completeV 8 (s.vgathw d w ix x o p)) 8
    rw [gather]
    exact completeV_goes _ 8
  case image =>
    intro base todo size aligned
    have units : todo = (List.range 2048).filter fun e => s.me.resume.unit ≤ e / 128 := rfl
    clear_value todo
    refine ⟨?save, ?restore⟩
    case save =>
      intro m ps held stops wait r
      show State.EffectsV _ (completeV 4 (s.moveImage true v x)) 4
      rw [State.moveImage_of_passes spilled pause units aligned stops wait]
      exact completeV_goes _ 4
    case restore =>
      intro m ps held stops wait
      show State.EffectsV _ (completeV 4 (s.moveImage false v x)) 4
      rw [State.moveImage_of_passes spilled pause units aligned stops wait]
      exact completeV_goes _ 4

end Sys2Proof.Machine

/-!
PROOFS. Vector atomics: their issue, and the sum that an integer add leaves (R139, R321).
-/
namespace Sys2Proof.Machine

/-! At the home. -/

section
variable (s : State)

/-- A read that searches no place is of the image. -/
theorem State.readValue_home (k n : Nat) : (s.readValue [] k n).1 = s.imgRead k n := by
  rw [State.readValue, List.map_map]
  rfl

theorem State.imgRead_writeNow (hid ino k v va : Nat) {n : Nat} (small : n ≤ 8) :
    (s.writeNow hid ino k n v va).imgRead k n = v % 2 ^ (8 * n) := by
  rw [← ofBytes_byteOf, State.imgRead]
  refine congrArg ofBytes (List.map_congr_left fun j hj => ?_)
  have below : j < n := List.mem_range.mp hj
  rw [State.img_writeNow _ _ _ _ _ _ _ _ small, if_pos (by omega), Nat.add_sub_cancel_left]

/-- An atomic leaves at its home what its updates make of the value there. -/
theorem State.imgRead_performAmo (hid : Nat) (it : BagItem) (op : AmoOp) (tag : Option Tag) (rm : Rm) (ups : List Update)
    (small : it.n ≤ 8) : (s.performAmo hid it op tag rm ups).imgRead it.loc it.n =
      (amoUpdates rm op tag it.n ups (s.imgRead it.loc it.n)).1 % 2 ^ (8 * it.n) := by
  unfold State.performAmo
  dsimp only
  rw [State.imgRead_writeNow _ _ _ _ _ _ small, State.readValue_home]

end

/-- Integer adds of one location sum up, modulo the width, whatever their order. -/
theorem amoUpdates_add {t : Tag} (int : t.isFloat = false) (rm : Rm) (n : Nat) (ups : List Update) (v : Nat) :
    (amoUpdates rm .add (some t) n ups v).1 % 2 ^ (8 * n) = (v + (ups.map fun u => u.opnd.toNat).sum) % 2 ^ (8 * n) := by
  induction ups generalizing v with
  | nil => rfl
  | cons u ups ih =>
    have step : (amoResult rm .add (some t) n v u.opnd.toNat u.cmp.toNat).1 = (v + u.opnd.toNat) % 2 ^ (8 * n) := by
      simp only [amoResult, int, Bool.false_eq_true, if_false, Nat.add_mod_mod, Nat.mod_add_mod]
    rw [amoUpdates]
    dsimp only
    rw [ih, step, Nat.mod_add_mod, List.map_cons, List.sum_cons, Nat.add_assoc]

/-! The issue. -/

section
variable {s s1 : State} {v ix : VR} {x : XR} {p : PR} {o : VamoOp} {q r : Bool} {ps : List (Nat × Phys)}

/-- The operands of a `vamo` are legal. -/
structure State.AtomicLegal (s : State) (v ix : VR) (o : VamoOp) : Prop where
  tag : vamoTag o (s.me.tagOf v) = true
  index : (s.me.tagOf ix).isInt = true
  group : (groupOf (s.me.tagOf v) s.me.ew v).isSome = true
  indices : (groupOf (s.me.tagOf ix) s.me.ew ix).isSome = true
  apart : meets v (groupSize (s.me.tagOf v) s.me.ew) ix (groupSize (s.me.tagOf ix) s.me.ew) = false

/-- The atomics of a `vamo` whose elements ps passed their checks, one for each location. -/
def State.vamoList (s s1 : State) (v ix : VR) (x : XR) (o : VamoOp) (q : Bool) (ps : List (Nat × Phys)) : List BagItem :=
  mergeSpans (s1.vamoItems (fun e => s.me.indexAddr x ix e 0) (vamoOp o (s.me.tagOf v)) (s.me.tagOf v) v
    ((s.me.tagOf v).width / 8) s.drv.nextId q (byLoc ps))

/-- The driver keeps them in the bag. -/
def State.vamoStays (s s1 : State) (items : List BagItem) (ps : List (Nat × Phys)) : Bool :=
  s.drv.hold && !((byLoc ps).any fun l => l.1.attr.direct) && items.all fun it => s1.amoIdle it.loc it.cached

/-- Legal operands with nothing to fill and no restart point leave the checks and the accesses. -/
theorem State.vamo_of_checked (legal : s.AtomicLegal v ix o) (fills : s.me.vl = 0 ∨ s.me.spilled = [])
    (fresh : s.me.resume.pending = false)
    (checked : s.vamoCheck (fun e => s.me.indexAddr x ix e 0) ((s.me.tagOf v).width / 8) (s.elemBad ix (s.me.tagOf ix))
      (s.elemBad v (s.me.tagOf v)) (s.me.actives p) = .ok (s1, ps)) :
    let b := (s.me.tagOf v).width / 8
    let ino := s.drv.nextId
    let items := s.vamoList s1 v ix x o q ps
    let rel := if r then some Scope.dev else none
    let places := ps.map fun e => (e.2, s.me.indexAddr x ix e.1 0)
    s.vamo v x ix p o q r =
      if s.vamoStays s1 items ps then .ok ((s1.holdAll s.cur items).markRelease s.cur ino rel).bump
      else (do
        need ((byLoc ps).all fun l => !s1.olderHeld s.cur ino l.1.key b && !s1.olderPending s.cur ino l.1.key b) (.wait s)
        need (s1.mayLeave s.cur ino) (.wait s)
        need (s1.framesIdle (cachedOf .wb b places ++ cachedOf .pool b places)) (.wait s)
        s.releaseWait s1 ino ((ps.head?.map fun x' => s.me.indexAddr x ix x'.1 0).getD 0) rel true
        .ok (items.foldl State.amoNow (s1.drawFrames true .none b places).bump)) := by
  obtain ⟨tag, index, group, indices, apart⟩ := legal
  have tags : (vamoTag o (s.me.tagOf v) && (s.me.tagOf ix).isInt) = true := by rw [tag, index]; rfl
  have groups : ((groupOf (s.me.tagOf v) s.me.ew v).isSome && (groupOf (s.me.tagOf ix) s.me.ew ix).isSome &&
      !meets v (groupSize (s.me.tagOf v) s.me.ew) ix (groupSize (s.me.tagOf ix) s.me.ew)) = true := by
    rw [group, indices, apart]; rfl
  have unspent : ¬ s.me.spent = true := by simp [Hart.spent, fresh]
  have start : s.fromStart = s := by simp [State.fromStart, fresh]
  unfold State.vamo
  dsimp only
  rw [need_bind tags, need_bind groups, if_neg unspent, start, State.fillGroups_of_calm fills, ok_bind,
    State.fillData_of_calm fills, ok_bind, checked]
  rfl

end

/-- Settles O39: the atomics of a `vamo` perform in order or enter the bag; integer adds of a location sum up. -/
theorem vectorAtomicResults : Obligations.VectorAtomicResults := by
  unfold Obligations.VectorAtomicResults
  refine ⟨?issue, ?sum⟩
  case issue =>
    intro s s1 v ix x p o q r ps fills fresh h t b tag index group indices apart addr checked ino locs items places direct
      rel stays
    have run : exec (.vamo v x ix p o q r) s = completeV 4 _ :=
      congrArg (completeV 4) (State.vamo_of_checked ⟨tag, index, group, indices, apart⟩ fills fresh checked)
    have kept : s.vamoStays s1 (s.vamoList s1 v ix x o q ps) ps = stays := rfl
    rw [run, kept]
    refine ⟨fun loose clear leaves idle released => ?_, fun held => ?_⟩
    · have older : (locs.all fun l =>
          !s1.olderHeld s.cur ino l.1.key b && !s1.olderPending s.cur ino l.1.key b) = true := by
        refine List.all_eq_true.mpr fun l hl => ?_
        obtain ⟨noneHeld, nonePending⟩ := clear l hl
        rw [noneHeld, nonePending]
        rfl
      rw [loose, if_neg Bool.false_ne_true, need_bind older, need_bind leaves, need_bind idle, released, ok_bind]
      exact completeV_goes _ 4
    · rw [held, if_pos rfl]
      exact completeV_goes _ 4
  case sum =>
    intro s t hid it rm ups known size
    have integer : ∀ t ∈ [Tag.s32, .s64, .z32, .z64],
        t.isFloat = false ∧ t.width / 8 ≤ 8 ∧ 8 * (t.width / 8) = t.width := by decide
    obtain ⟨int, small, width⟩ := integer t known
    rw [← size] at small width
    rw [s.imgRead_performAmo hid it _ _ rm ups small, amoUpdates_add int, width]

end Sys2Proof.Machine

/-!
PROOFS. Copy instructions: their issue into the queues, strips received, and waits (R325 to R331).
-/
namespace Sys2Proof.Machine

section
variable {s e : State} {r : Res} {o : Host.Outcome State Fault Refusal} {n : Nat}

/-- An instruction whose part before its completion leaves e. -/
theorem complete_effects (run : o = complete n r) (done : r = .ok e) : e.Effects o n := by
  rw [run, done]
  exact complete_goes e n

theorem completeV_effects (run : o = completeV n r) (done : r = .ok e) : e.EffectsV o n := by
  rw [run, done]
  exact completeV_goes e n

end

section
variable {s : State}

/-- Every queue has at least 32 entries. -/
theorem State.engRoom_of_lt {q : Nat} (room : (s.engQ q).length < 32) : s.engRoom q = true := by
  unfold State.engRoom engCap
  split
  · exact decide_eq_true room
  · exact decide_eq_true (by omega)

/-! `cpyr` and `cpyw`. -/

/-- A copy between memory and registers that passes its checks. -/
structure State.CopyLegal (s : State) (v : VR) (n : Nat) (va : Nat) (k : PR) : Prop where
  ordinary : (s.me.tagOf v).ordinary = true
  group : (groupOf (s.me.tagOf v) s.me.ew v).isSome = true
  whole : n % groupSize (s.me.tagOf v) s.me.ew = 0
  fits : v.val + n ≤ 32
  aligned : va % ((s.me.tagOf v).width / 8) = 0
  unmasked : s.maskBusy k = false
  room : (s.engQ (coreOf s.cur)).length < 32
  filled : s.me.spilled = []

theorem State.cpyReg_of_legal {kind : CopyKind} {v : VR} {a : XR} {n : Nat} {k : PR}
    (legal : s.CopyLegal v n (s.engAddr a) k) :
    s.cpyReg kind v a n k = if s.me.vl = 0 then .ok s else
      .ok ((s.setMe (s.me.setPreds k (fun _ => false) s.me.vl)).enqueue (coreOf s.cur)
        (s.newCopy kind (if kind = .cpyr then v.val else s.engAddr a) (if kind = .cpyr then s.engAddr a else v.val) n 0 k
          (s.me.tagOf v) s.me.vl [])) := by
  obtain ⟨ordinary, group, whole, fits, aligned, unmasked, room, filled⟩ := legal
  have shape : ((groupOf (s.me.tagOf v) s.me.ew v).isSome && n % groupSize (s.me.tagOf v) s.me.ew == 0 &&
      decide (v.val + n ≤ 32)) = true := by simp [group, whole, fits]
  have address : (s.engAddr a % ((s.me.tagOf v).width / 8) == 0) = true := by simp [aligned]
  have entry : (!s.maskBusy k && s.engRoom (coreOf s.cur)) = true := by
    rw [unmasked, State.engRoom_of_lt room]; rfl
  unfold State.cpyReg
  dsimp only
  rw [need_bind ordinary, need_bind shape, need_bind address, need_bind entry, State.fillGroups_of_calm (.inr filled),
    ok_bind]

/-! `cpyx` and `cpym`. -/

theorem State.cpyx_of_legal {d v : VR} {x : XR} {key : Nat} (task : s.me.task = some key)
    (other : (s.getX x).toNat ≠ s.cur) (placed : (s.getX x).toNat ∈ (s.task key).hids)
    (ordinary : (s.me.tagOf v).ordinary = true) (source : (groupOf (s.me.tagOf v) s.me.ew v).isSome = true)
    (dest : (groupOf (s.me.tagOf v) s.me.ew d).isSome = true) (room : (s.engQ (coreOf s.cur)).length < 32)
    (filled : s.me.spilled = []) (sound : s.sendsBad v = false) (some_element : s.me.vl ≠ 0) :
    s.cpyx d x v = .ok (s.enqueue (coreOf s.cur) (s.newCopy .cpyx d.val v.val (s.hart (s.getX x).toNat).member 0 0
      (s.me.tagOf v) s.me.vl (s.me.sent v))) := by
  have shape : (((s.getX x).toNat != s.cur && (s.task key).hids.contains (s.getX x).toNat) &&
      (groupOf (s.me.tagOf v) s.me.ew v).isSome && (groupOf (s.me.tagOf v) s.me.ew d).isSome) = true := by
    simp [other, placed, source, dest]
  have words : (!s.sendsBad v) = true := by rw [sound]; rfl
  unfold State.cpyx
  dsimp only
  rw [need_bind ordinary, task]
  dsimp only
  rw [need_bind shape, need_bind (State.engRoom_of_lt room), State.fillGroups_of_calm (.inr filled), ok_bind,
    need_bind words, if_neg some_element]

theorem State.cpym_of_legal {v : VR} {x : XR} {key : Nat} (task : s.me.task = some key)
    (mask : (s.getX x).toNat < 2 ^ (s.task key).gsz) (alone : (s.getX x).toNat.testBit s.me.member = false)
    (ordinary : (s.me.tagOf v).ordinary = true) (single : groupOf (s.me.tagOf v) s.me.ew v = some 1)
    (frames : ∀ i ∈ bitList 16 (s.getX x).toNat, s.hasFrame i = true) (room : (s.engQ (coreOf s.cur)).length < 32)
    (filled : s.me.spilled = []) (sound : (s.getX x).toNat ≠ 0 → s.sendsBad v = false) :
    s.cpym v x = if (s.getX x).toNat = 0 then .ok s else
      .ok (((bitList 16 (s.getX x).toNat).foldl (fun u i => u.reserveFrame (s.me.tagOf v) i) s).enqueue (coreOf s.cur)
        (s.newCopy .cpym 0 v.val (s.getX x).toNat 0 0 (s.me.tagOf v) s.me.vl (s.me.sent v))) := by
  have shape : (decide ((s.getX x).toNat < 2 ^ (s.task key).gsz) && !(s.getX x).toNat.testBit s.me.member &&
      groupOf (s.me.tagOf v) s.me.ew v == some 1) = true := by simp [mask, alone, single]
  have entry : ((bitList 16 (s.getX x).toNat).all s.hasFrame && s.engRoom (coreOf s.cur)) = true := by
    rw [List.all_eq_true.mpr frames, State.engRoom_of_lt room]; rfl
  have words : (decide ((s.getX x).toNat = 0) || !s.sendsBad v) = true := by
    by_cases empty : (s.getX x).toNat = 0
    · rw [decide_eq_true empty]; rfl
    · rw [sound empty, Bool.not_false, Bool.or_true]
  unfold State.cpym
  dsimp only
  rw [need_bind ordinary, task]
  dsimp only
  rw [need_bind shape, need_bind entry, State.fillGroups_of_calm (.inr filled), ok_bind, need_bind words]

/-! `vrecv`. -/

theorem Hart.tagOf_setTags (h : Hart) (v r : VR) (t : Tag) :
    (h.setTags v t 1).tagOf r = if r = v then t else h.tagOf r := by
  by_cases same : r = v
  · rw [same, Hart.tagOf_setTags_one, if_pos rfl]
  · rw [if_neg same]
    exact SMap.get_set_other _ _ _ fun e => same (Fin.ext e)

/-- The hart after it has taken a strip of its receive list, of which size bytes fit. -/
def Hart.receive (h : Hart) (d : VR) (f : RxFrame) (l : List RxFrame) (size : Nat) : Hart :=
  { h with
    rx := l
    v := replaceRange h.v (0x4000 * d.val) 0x4000
      ((f.bytes.filter fun b : Nat × Byte => b.1 < size).map fun b : Nat × Byte => (0x4000 * d.val + b.1, b.2))
    spilled := h.spilled.filter fun r => r.1 != d.val
    clean := h.clean.filter fun r => r.1 != d.val }.setTags d f.tag 1

theorem State.vrecv_of_landed {d : VR} {f : RxFrame} {l : List RxFrame} (frames : s.me.rx = f :: l)
    (landed : f.landed = true) (ordinary : f.tag.ordinary = true) (single : groupOf f.tag s.me.ew d = some 1) :
    s.vrecv d = .ok (s.setMe (s.me.receive d f l (256 * s.vgrant s.cur))) := by
  unfold State.vrecv
  dsimp only
  rw [frames]
  dsimp only
  rw [landed, ordinary, if_neg (not_not.mpr single)]
  rfl

end

/-- Settles O40: the checks of each copy instruction passed, its copy is in its queue; a strip landed is taken; a wait is
over, or holds the hart where it is. -/
theorem copyIssueResults : Obligations.CopyIssueResults := by
  unfold Obligations.CopyIssueResults
  refine ⟨?cpy, ?registers, ?exchange, ?multicast, ?receive, ?waits⟩
  case cpy =>
    intro s d a n e c q small designator room
    have shape : (decide ((s.getX n).toNat ≤ 2 ^ 40) && s.desOk (coreOf s.cur) (s.getX e)) = true := by
      rw [decide_eq_true small, designator]; rfl
    have entry : s.engRoom q = true := decide_eq_true room
    have issued : s.cpy d a n e = .ok (s.enqueue q c) := by
      unfold State.cpy
      dsimp only
      rw [need_bind shape]
      exact need_bind entry ..
    exact complete_effects rfl issued
  case registers =>
    intro s v a n k h t G va q u ordinary group whole fits aligned unmasked room filled
    have legal : s.CopyLegal v (n.val + 1) (s.engAddr a) k :=
      ⟨ordinary, group, whole, fits, aligned, unmasked, room, filled⟩
    have read := State.cpyReg_of_legal (kind := .cpyr) legal
    have write := State.cpyReg_of_legal (kind := .cpyw) legal
    refine ⟨fun some_element => ?_, fun none_left => ?_⟩
    · rw [if_neg some_element] at read write
      exact ⟨complete_effects rfl read, complete_effects rfl write⟩
    · rw [if_pos none_left] at read write
      exact ⟨complete_effects rfl read, complete_effects rfl write⟩
  case exchange =>
    intro s d v x key h t q target task other placed ordinary source dest room filled sound some_element
    exact complete_effects rfl
      (State.cpyx_of_legal task other placed ordinary source dest room filled sound some_element)
  case multicast =>
    intro s v x key h t q mask targets task small alone ordinary single frames room filled
    refine ⟨fun some_target sound => ?_, fun no_target => ?_⟩
    · have issued := State.cpym_of_legal task small alone ordinary single frames room filled fun _ => sound
      rw [if_neg some_target] at issued
      exact complete_effects rfl issued
    · have issued := State.cpym_of_legal task small alone ordinary single frames room filled fun bad => absurd no_target bad
      rw [if_pos no_target] at issued
      exact complete_effects rfl issued
  case receive =>
    intro s d f l frames landed ordinary single
    have done := complete_setMe_goes s (h := s.me.receive d f l (256 * s.vgrant s.cur)) 4 rfl rfl
    rw [← State.vrecv_of_landed frames landed ordinary single] at done
    obtain ⟨u, next, done⟩ := done
    refine ⟨u, next, ?_⟩
    rw [done.me_eq]
    exact ⟨rfl, rfl, rfl, fun r => Hart.tagOf_setTags _ d r f.tag,
      fun k outside => replaceRange_get _ _ _ _ _ (by omega)⟩
  case waits =>
    intro s b st k
    refine ⟨fun looping => ?_, fun free => ?_, fun busy => ?_⟩
    · have run : exec (.vstream b st) s = complete 4 (.ok (s.setMe { s.me with stream := some (s.getX b, s.getX st) })) :=
        congrArg (complete 4) (need_bind looping ..)
      rw [run]
      exact complete_setMe_goes s 4 rfl rfl
    · have run : exec (.pwait k) s = complete 4 (.ok s) := congrArg (complete 4) (need_bind (by rw [free]; rfl) ..)
      rw [run]
      exact complete_goes s 4
    · show complete 4 (do need (!s.maskBusy k) (.wait s); .ok s) = _
      rw [busy]
      rfl

end Sys2Proof.Machine

/-!
PROOFS. Quantise and dequantise instructions (R294 to R296).
-/
namespace Sys2Proof.Machine

/-! `vqnt` (R294). -/

/-- The blocks of 32 elements of a hart, quantised. -/
def Hart.quantBlocks (h : Hart) (a : VR) (t : Tag) (p : PR) : List QBlock :=
  (List.range (ceilDiv h.vl 32)).map fun b =>
    quantBlock t h.rm 0 (.nan false) (h.actVals a p ((List.range 32).map (32 * b + ·) |>.filter (· < h.vl)))

/-- The codes and the scales of blocks in their registers, and their flags. -/
def Hart.landBlocks (h : Hart) (d sc : VR) (t : Tag) (blocks : List QBlock) : Hart :=
  let codes := blocks.flatMap (·.codes)
  ((h.land d t (codes.map (·.1)) codes).land sc .e8m0 (List.range (ceilDiv h.vl 32))
    ((List.range (ceilDiv h.vl 32)).zip (blocks.map (·.scale)))).orFlags (blocks.foldl (fun x b => x ||| b.flags) 0)

section
variable {s : State} {d sc a : VR} {t : Tag} {p : PR}

theorem State.vqnt_of_calm (calm : s.Calm) (unspent : s.me.spent = false) (float : (s.me.tagOf a).isFloat = true)
    (narrow : t.isNarrow = true) (groups : quantGroups s.me.ew d t sc a (s.me.tagOf a) = true) :
    let h := s.fromStart.me
    s.vqnt d sc a t p =
      if h.vl = 0 then .ok s.fromStart
      else .ok (s.fromStart.setMe (h.landBlocks d sc t (h.quantBlocks a t p))) := by
  have tags : ((s.me.tagOf a).isFloat && t.isNarrow) = true := by rw [float, narrow]; rfl
  have calm := State.fromStart_calm calm
  obtain ⟨-, fills, -, -⟩ := id calm
  obtain ⟨r, start⟩ := s.fromStart_me_eq
  have vl : s.me.vl = s.fromStart.me.vl := by rw [start]; rfl
  have below : s.fromStart.me.vl ≠ 0 → ∀ _ : Nat, ∀ e ∈ s.fromStart.me.actives p, e < s.fromStart.me.vl :=
    fun _ _ e he => (Hart.mem_actives _).mp he |>.1
  unfold State.vqnt
  dsimp only
  rw [need_bind tags, need_bind groups, if_neg (Bool.eq_false_iff.mp unspent), State.fillGroups_of_calm fills, ok_bind,
    if_neg (Bool.eq_false_iff.mp unspent), State.sound_of_calm calm _ below, ok_bind, vl]
  rfl

theorem Hart.landBlocks_sameTask (h : Hart) (blocks : List QBlock) :
    (h.landBlocks d sc t blocks).task = h.task ∧ (h.landBlocks d sc t blocks).pc = h.pc := by
  unfold Hart.landBlocks
  dsimp only
  rw [Hart.orFlags_task, Hart.orFlags_pc]
  have same := (h.land_sameButVectors d t ((blocks.flatMap (·.codes)).map (·.1)) (blocks.flatMap (·.codes))).trans
    (Hart.land_sameButVectors _ sc .e8m0 (List.range (ceilDiv h.vl 32))
      ((List.range (ceilDiv h.vl 32)).zip (blocks.map (·.scale))))
  exact ⟨same.task, same.pc⟩

/-! `vqnte` (R295). -/

/-- The operands of a `vqnte` are legal, and its list descriptor. -/
structure State.QuantLegal (s : State) (d sc a : VR) (t : Tag) (l : XR) (D : ListDesc) : Prop where
  float : (s.me.tagOf a).isFloat = true
  escape : t.escape.isSome = true
  groups : quantGroups s.me.ew d t sc a (s.me.tagOf a) = true
  desc : listDesc (s.getX l) = some D
  header : D.off + 16 ≤ winSize
  steps : s.me.vl % (32 * D.X) = 0 ∧ s.me.vl / (32 * D.X) ≤ 512
  range : D.kbase + s.me.vl / D.X ≤ 65536

/-- With every step in the list, none in a bad word and none of its words held, all steps are done. -/
theorem State.vqnte_of_fits {s1 : State} {E : Nat} {th l : XR} {D : ListDesc} {hdr : ListHdr} {q : QAcc}
    (legal : s.QuantLegal d sc a t l D) (calm : s1.Calm) (me : s1.me = s.me) (fresh : s.me.resume.pending = false)
    (some_element : s.me.vl ≠ 0) (read : s.listHeader D.off true = .ok (s1, hdr)) (wf : hdr.ok D.off = true)
    (steps : quantSteps s.me a t E (val .f32 ((s.getX th).toNat % 2 ^ 32)) p D (s.me.vl / (32 * D.X)) 0
      ⟨[], [], [], hdr, 0⟩ = (q, none))
    (writable : s1.listStop 0 q.words = none)
    (clear : ∀ w ∈ q.words, s1.olderHeld s1.cur s1.drv.nextId (spadKey (coreOf s1.cur) w.2.1) 8 = false) :
    s.vqnte d sc a t E th l p = .ok ((if q.words.isEmpty then s1 else s1.listWrite (q.words.map (·.2))).setMe
      (((s.me.land d t (s.me.actives p) q.codes).land sc .e8m0 (List.range (s.me.vl / (32 * D.X) * D.X)) q.scales).orFlags
        q.flags)) := by
  obtain ⟨float, escape, groups, desc, header, ⟨whole, few⟩, range⟩ := legal
  obtain ⟨residue, fills, pause, words⟩ := calm
  have tags : ((s.me.tagOf a).isFloat && t.escape.isSome) = true := by rw [float, escape]; rfl
  have shape : ((some D).isSome && decide (D.off + 16 ≤ winSize) && s.me.vl % (32 * D.X) == 0 &&
      decide (s.me.vl / (32 * D.X) ≤ 512) && decide (s.me.vl = 0 ∨ D.kbase + s.me.vl / D.X ≤ 65536)) = true := by
    simp [header, whole, few, range]
  have none_bad : (if s1.bad.isEmpty = true then none else
      ((s1.me.actives p).find? fun e => decide (0 ≤ e / (32 * D.X)) && s1.elemBad a (s.me.tagOf a) e).map
        (· / (32 * D.X))) = none := by
    split
    · rfl
    · rw [Option.map_eq_none_iff, List.find?_eq_none]
      intro e he
      rw [words _ _ e ((Hart.mem_actives _).mp he).1, Bool.and_false]
      exact Bool.false_ne_true
  have unheld : (q.words.all fun w => !s1.olderHeld s1.cur s1.drv.nextId (spadKey (coreOf s1.cur) w.2.1) 8) = true :=
    List.all_eq_true.mpr fun w hw => by rw [clear w hw]; rfl
  have operand : s1.getX th = s.getX th := by rw [State.getX, me]; rfl
  unfold State.vqnte
  dsimp only
  rw [need_bind tags, need_bind groups, desc, Option.getD_some, need_bind shape, read, ok_bind]
  dsimp only
  rw [need_bind wf, State.fillGroups_of_calm fills, ok_bind, residue, pause]
  simp only [me, fresh, Bool.false_eq_true, if_false] at none_bad ⊢
  rw [none_bad, operand]
  simp only [Option.or_none, Option.getD_none, Nat.sub_zero, steps, writable]
  rw [need_bind unheld, if_neg some_element]

end

/-! `vdqnt` (R296). -/

/-- What a dequantise instruction leaves: each active element dequantised by r, and its flags. -/
def Hart.dequantised (h : Hart) (d : VR) (t : Tag) (p : PR) (r : Nat → Coded) : Hart :=
  (h.land d t (h.actives p) ((h.actives p).map fun i => (i, (r i).1))).orFlags
    ((h.actives p).foldr (fun i f => (r i).2 ||| f) 0)

section
variable {s : State} {d a sc : VR} {t : Tag} {p : PR} {scAt : Nat → Nat} {ent : Nat → Option Nat}

theorem Hart.results_dequantOp (h : Hart) (l : List Nat) :
    let r (i : Nat) := dequant (h.tagOf a) t h.rm (h.elem a i) (h.code sc 8 (scAt i)) (ent i)
    h.results (dequantOp a sc t scAt ent) [.v a, .v sc] p l =
      (l.map fun i => (i, (r i).1), l.foldr (fun i f => (r i).2 ||| f) 0) := by
  induction l with
  | nil => rfl
  | cons i l ih => exact congrArg (fun acc : List (Nat × Nat) × Nat => (_ :: acc.1, _ ||| acc.2)) ih

theorem Hart.dequantised_sameTask (h : Hart) (r : Nat → Coded) :
    (h.dequantised d t p r).task = h.task ∧ (h.dequantised d t p r).pc = h.pc := by
  have same := h.land_sameButVectors d t (h.actives p) ((h.actives p).map fun i => (i, (r i).1))
  rw [Hart.dequantised, Hart.orFlags_task, Hart.orFlags_pc]
  exact ⟨same.task, same.pc⟩

/-- The scale of an element lies below it, so that every active element is dequantised. -/
theorem State.dequantOp_goes (calm : s.Calm) (fresh : s.me.resume.pending = false) (float : t.isFloat = true)
    (scale : s.me.tagOf sc = .e8m0)
    (groups : groupsOk s.me.ew [(a, s.me.tagOf a), (sc, .e8m0)] (some (d, t)) = true) (below : ∀ e, scAt e ≤ e) :
    s.GoesV (completeV 8 (s.elementwise (dequantOp a sc t scAt ent) [.v a, .v sc] d p))
      (if s.me.vl = 0 then s.me else s.me.dequantised d t p fun i =>
        dequant (s.me.tagOf a) t s.me.rm (s.me.elem a i) (s.me.code sc 8 (scAt i)) (ent i))
      (s.me.pcNext 8) := by
  have legal : s.ElemLegal (dequantOp a sc t scAt ent) [.v a, .v sc] d t := by
    refine ⟨if_pos float, ?_, fun k e => ?_⟩
    · rw [← scale] at groups
      exact groups
    · show (if k = 1 then scAt e else e) ≤ e
      split
      · exact below e
      · exact Nat.le_refl e
  by_cases empty : s.me.vl = 0
  · rw [State.elementwise_of_no_elements calm legal empty, if_pos empty]
    exact completeV_goes s 8
  · have all : (s.me.targets p (dequantOp a sc t scAt ent).all).filter s.fresh = s.me.actives p :=
      List.filter_eq_self.mpr fun e _ => by simp [State.fresh, Resume.did, fresh]
    rw [State.elementwise_of_calm calm legal empty, if_neg empty, all, Hart.results_dequantOp]
    obtain ⟨task, pc⟩ := s.me.dequantised_sameTask (d := d) (t := t) (p := p) fun i =>
      dequant (s.me.tagOf a) t s.me.rm (s.me.elem a i) (s.me.code sc 8 (scAt i)) (ent i)
    exact completeV_setMe s 8 task pc

end

/-- Element e of rows of X elements, 32 rows to a step, finds its scale at or below e. -/
theorem scaleIndex_le (X e : Nat) : e / (32 * X) * X + e % X ≤ e := by
  have rows : e / (32 * X) * X + (e % (32 * X)) % X ≤ 32 * X * (e / (32 * X)) + e % (32 * X) := by
    refine Nat.add_le_add ?_ (Nat.mod_le ..)
    calc e / (32 * X) * X ≤ 32 * (e / (32 * X) * X) := Nat.le_mul_of_pos_left _ (by decide)
      _ = 32 * X * (e / (32 * X)) := by rw [Nat.mul_assoc, Nat.mul_comm X]
  rwa [Nat.mod_mod_of_dvd _ (Dvd.intro_left 32 rfl), Nat.div_add_mod] at rows

/-- Settles O42: `vqnt` by its blocks, `vqnte` by its steps, `vdqnt` as an elementwise instruction with or without a list. -/
theorem quantiseResults : Obligations.QuantiseResults := by
  unfold Obligations.QuantiseResults
  refine ⟨?blocks, ?steps, ?plain, ?listed⟩
  case blocks =>
    intro s d sc a t p ca h ta calm unspent float narrow groups h nb blocks codes h1 h2
    apply State.goesV_of_fromStart
    show State.GoesV _ (completeV 8 (s.vqnt d sc a t p)) _ _
    rw [State.vqnt_of_calm calm unspent float narrow groups]
    by_cases empty : h.vl = 0
    · rw [if_pos empty, if_pos empty]
      exact completeV_goes _ 8
    · rw [if_neg empty, if_neg empty]
      obtain ⟨task, pc⟩ := h.landBlocks_sameTask (d := d) (sc := sc) (t := t) blocks
      exact completeV_setMe _ 8 task pc
  case steps =>
    intro s s1 d sc a t E th l p ca D hdr q h ta calm residue pause words me fresh some_element float escape groups desc
      header whole few range read wf nb steps writable clear e h2
    obtain ⟨-, fills, -, -⟩ := calm
    have calm1 : s1.Calm := ⟨residue, by rw [me]; exact fills, pause, words⟩
    exact completeV_effects rfl (State.vqnte_of_fits ⟨float, escape, groups, desc, header, ⟨whole, few⟩, range⟩ calm1
      me fresh some_element read wf steps writable clear)
  case plain =>
    intro s d a sc t p ca cb h calm fresh narrow scale float groups r on
    have tags : ((h.tagOf a).isNarrow && h.tagOf sc == .e8m0 && t.isFloat) = true := by rw [narrow, scale, float]; rfl
    have run : s.vdqnt d a sc t 0 p = s.elementwise (dequantOp a sc t (· / 32) fun _ => none) [.v a, .v sc] d p := by
      unfold State.vdqnt
      dsimp only
      rw [need_bind tags, need_bind groups, if_pos rfl]
    show State.GoesV _ (completeV 8 (s.vdqnt d a sc t 0 p)) _ _
    rw [run]
    exact State.dequantOp_goes calm fresh float scale groups fun e => Nat.div_le_self e 32
  case listed =>
    intro s s1 d a sc t x p ca cb D l h residue pause words me spilled fresh narrow scale float list groups read ok at_ r on
    have tags : ((h.tagOf a).isNarrow && h.tagOf sc == .e8m0 && t.isFloat) = true := by rw [narrow, scale, float]; rfl
    have spilled : s1.me.spilled = [] := by rw [me]; exact spilled
    have listed : (s.me.spent || dequantListOk s1.me a p D l) = true := by rw [me, ok, Bool.or_true]
    have run : s.vdqnt d a sc t x p = s1.elementwise (dequantOp a sc t (fun e => e / (32 * D.X) * D.X + e % D.X)
        fun e => (l.find? fun y => y.k - D.kbase == e / D.X && y.pos == e % D.X).map (·.v)) [.v a, .v sc] d p := by
      unfold State.vdqnt
      dsimp only
      rw [need_bind tags, need_bind groups, if_neg list, read, ok_bind]
      dsimp only
      rw [State.fillGroups_of_calm (.inr spilled), ite_self, ok_bind, need_bind listed]
    have goes := State.dequantOp_goes (s := s1) (d := d) (a := a) (sc := sc) (t := t) (p := p)
      (scAt := fun e => e / (32 * D.X) * D.X + e % D.X)
      (ent := fun e => (l.find? fun y => y.k - D.kbase == e / D.X && y.pos == e % D.X).map (·.v))
      ⟨residue, .inr spilled, pause, words⟩ (by rw [me]; exact fresh) float (by rw [me]; exact scale)
      (by rw [me]; exact groups) (scaleIndex_le D.X)
    show State.GoesV _ (completeV 8 (s.vdqnt d a sc t x p)) _ _
    rw [run]
    rw [me] at goes
    exact goes

end Sys2Proof.Machine

/-!
PROOFS. Gang collectives: what each phase of the last arrival leaves of the members' harts and arrays (R347, R348).
-/
namespace Sys2Proof.Machine

/-! Words of a view. -/

theorem viewWord_mem {t : TileRef} {r c : Nat} (row : r < viewSize t) (column : c < viewSize t) :
    viewWord t r c ∈ viewWords t 0 (viewSize t / 16) := by
  have whole : 16 * (viewSize t / 16 - 0) = viewSize t := by cases t <;> rfl
  rw [viewWords, whole]
  exact List.mem_flatMap.mpr ⟨r, List.mem_range.mpr row, List.mem_map.mpr ⟨c, List.mem_range.mpr column, by
    rw [Nat.mul_zero, Nat.zero_add]⟩⟩

/-- Words written by a function of their place. -/
theorem get_accPut_map (acc : SMap (BitVec 32)) (l : List Nat) (f : Nat → BitVec 32) (i : Nat) :
    SMap.get 0 (accPut acc (l.map fun j => (j, f j))) i = if i ∈ l then f i else SMap.get 0 acc i := by
  unfold accPut
  induction l generalizing acc with
  | nil => simp
  | cons j l ih =>
    rw [List.map_cons, List.foldl_cons, ih, SMap.get_set]
    by_cases first : i = j
    · subst first
      simp
    · simp [first]

/-! The sum of a wrapping integer `mjoin`. -/

theorem ofNat_wrapNat (z : Int) : BitVec.ofNat 32 (wrapNat 32 z) = BitVec.ofInt 32 z := by
  refine BitVec.eq_of_toNat_eq ?_
  rw [BitVec.toNat_ofNat, BitVec.toNat_ofInt, wrapNat]
  refine Nat.mod_eq_of_lt ?_
  have := Int.emod_lt_of_pos z (show (0 : Int) < 2 ^ 32 by decide)
  have := Int.emod_nonneg z (show (2 : Int) ^ 32 ≠ 0 by decide)
  omega

theorem ofInt_add_sext (v x : BitVec 32) : BitVec.ofInt 32 (sextNat v.toNat 32 + sextNat x.toNat 32) = v + x := by
  rw [sextNat_toInt _ _ (by decide), sextNat_toInt _ _ (by decide), BitVec.ofNat_toNat, BitVec.ofNat_toNat,
    BitVec.ofInt_add, BitVec.setWidth_eq, BitVec.setWidth_eq, BitVec.ofInt_toInt, BitVec.ofInt_toInt]

theorem joinWord_wrapping (rm : Rm) (l : List (BitVec 32)) (v : BitVec 32) :
    (joinWord true rm false l v).1 = l.foldl (· + ·) v := by
  induction l generalizing v with
  | nil => rfl
  | cons x l ih =>
    rw [List.foldl_cons, ← ofInt_add_sext, ← ofNat_wrapNat]
    exact ih _

/-! What becomes of the harts. -/

section
variable (s : State)

/-- The arrivals of members are taken back before they proceed. -/
def State.clearColl (s : State) (l : List (Nat × Collective)) : State :=
  l.foldl (fun s m => s.setHart m.1 { s.hart m.1 with coll := none }) s

theorem State.clearColl_cores (l : List (Nat × Collective)) : (s.clearColl l).cores = s.cores := by
  unfold State.clearColl
  induction l generalizing s with
  | nil => rfl
  | cons m l ih => exact ih _

theorem State.clearColl_drv (l : List (Nat × Collective)) : (s.clearColl l).drv = s.drv := by
  unfold State.clearColl
  induction l generalizing s with
  | nil => rfl
  | cons m l ih => exact ih _

theorem State.hart_clearColl (l : List (Nat × Collective)) (hid : Nat) :
    ∃ c, (s.clearColl l).hart hid = { s.hart hid with coll := c } := by
  unfold State.clearColl
  induction l generalizing s with
  | nil => exact ⟨_, rfl⟩
  | cons m l ih =>
    obtain ⟨c, e⟩ := ih (s.setHart m.1 { s.hart m.1 with coll := none })
    rw [List.foldl_cons, e, State.hart_setHart]
    split
    · next same => exact ⟨c, by rw [same]⟩
    · exact ⟨c, rfl⟩

/-- A member that finishes is at its next instruction, and its arrival is over. -/
theorem State.finishAt_harts (hid n : Nat) : (s.finishAt hid n).harts = (s.setHart hid { s.hart hid with
    pc := (s.hart hid).pcNext n, resume := Resume.zero, wpSkip := false, bpSkip := false, coll := none,
    paused := false }).harts := by
  unfold State.finishAt
  dsimp only
  split
  · rw [State.count_harts, State.count_harts]
  · rfl

theorem State.finishAt_cores (hid n : Nat) : (s.finishAt hid n).cores = s.cores := by
  unfold State.finishAt
  dsimp only
  split
  · rw [State.count_cores, State.count_cores]; rfl
  · rfl

theorem State.hart_finishAt_other {hid j : Nat} (other : j ≠ hid) (n : Nat) : (s.finishAt hid n).hart j = s.hart j := by
  rw [State.hart_of_harts (s.finishAt_harts hid n), State.hart_setHart_other _ _ other]

theorem State.hart_finishAt_same (hid n : Nat) :
    ((s.finishAt hid n).hart hid).pc = (s.hart hid).pcNext n ∧ ((s.finishAt hid n).hart hid).coll = none := by
  rw [State.hart_of_harts (s.finishAt_harts hid n), State.hart_setHart_same]
  exact ⟨rfl, rfl⟩

theorem State.cores_finishAll (l : List Nat) (n : Nat) : (l.foldl (fun s hid => s.finishAt hid n) s).cores = s.cores := by
  induction l generalizing s with
  | nil => rfl
  | cons a l ih => exact (ih _).trans (s.finishAt_cores a n)

theorem State.hart_finishAll_other {l : List Nat} {j : Nat} (other : j ∉ l) (n : Nat) :
    (l.foldl (fun s hid => s.finishAt hid n) s).hart j = s.hart j := by
  induction l generalizing s with
  | nil => rfl
  | cons a l ih =>
    obtain ⟨first, rest⟩ := not_or.mp (mt List.mem_cons.mpr other)
    exact (ih _ rest).trans (s.hart_finishAt_other first n)

theorem State.hart_finishAll {l : List Nat} (once : l.Nodup) (n : Nat) {hid : Nat} (member : hid ∈ l) :
    ((l.foldl (fun s hid => s.finishAt hid n) s).hart hid).pc = (s.hart hid).pcNext n ∧
      ((l.foldl (fun s hid => s.finishAt hid n) s).hart hid).coll = none := by
  induction l generalizing s with
  | nil => exact absurd member List.not_mem_nil
  | cons a l ih =>
    obtain ⟨fresh, once⟩ := List.nodup_cons.mp once
    rw [List.foldl_cons]
    by_cases first : hid = a
    · subst first
      rw [State.hart_finishAll_other _ fresh]
      exact s.hart_finishAt_same hid n
    · rw [← s.hart_finishAt_other first n]
      exact ih _ once ((List.mem_cons.mp member).resolve_left first)

/-! What becomes of the arrays. -/

variable (c : Collective) (root : Nat) (others : List Nat) (b0 b1 : Nat)

/-- The words of a view, put into the arrays of the other members. -/
def State.spreadView (s : State) (view : List (Nat × BitVec 32)) (others : List Nat) : State :=
  others.foldl (fun s hid =>
    s.setCore (coreOf hid) { s.core (coreOf hid) with acc := accPut (s.core (coreOf hid)).acc view }) s

theorem State.spreadView_harts (view : List (Nat × BitVec 32)) : (s.spreadView view others).harts = s.harts := by
  unfold State.spreadView
  induction others generalizing s with
  | nil => rfl
  | cons hid others ih => exact ih _

theorem State.core_spreadView_other (view : List (Nat × BitVec 32)) {k : Nat} (other : k ∉ others.map coreOf) :
    (s.spreadView view others).core k = s.core k := by
  unfold State.spreadView
  induction others generalizing s with
  | nil => rfl
  | cons hid others ih =>
    obtain ⟨first, rest⟩ := not_or.mp (mt List.mem_cons.mpr other)
    rw [List.foldl_cons, ih _ rest, State.core_setCore, if_neg first]

theorem State.acc_spreadView (view : List (Nat × BitVec 32)) (once : (others.map coreOf).Nodup) {hid : Nat}
    (member : hid ∈ others) : ((s.spreadView view others).core (coreOf hid)).acc =
      accPut (s.core (coreOf hid)).acc view := by
  induction others generalizing s with
  | nil => exact absurd member List.not_mem_nil
  | cons a others ih =>
    obtain ⟨fresh, once⟩ := List.nodup_cons.mp once
    have step : s.spreadView view (a :: others) = State.spreadView
      (s.setCore (coreOf a) { s.core (coreOf a) with acc := accPut (s.core (coreOf a)).acc view }) view others := rfl
    rw [step]
    rcases List.mem_cons.mp member with rfl | later
    · rw [State.core_spreadView_other _ _ _ fresh, State.core_setCore_same]
    · have apart : coreOf hid ≠ coreOf a := fun e => fresh (e ▸ List.mem_map_of_mem later)
      rw [ih _ once later, State.core_setCore, if_neg apart]

/-- The sum of a `mjoin` at a word of the array, with its flags. -/
def State.joined (s : State) (c : Collective) (root : Nat) (others : List Nat) (i : Nat) : BitVec 32 × Nat :=
  joinWord c.s32 (rmOf c.fctl) (bit c.fctl 6) (others.map fun hid => SMap.get 0 (s.core (coreOf hid)).acc i)
    (SMap.get 0 (s.core (coreOf root)).acc i)

theorem State.collect_split (split : c.join = false) : s.collect c root others b0 b1 = s.spreadView
    ((viewWords c.tile b0 b1).map fun i => (i, SMap.get 0 (s.core (coreOf root)).acc i)) others := by
  unfold State.collect
  rw [split]
  rfl

/-- A `mjoin` writes the root's view, and raises flags at the root. -/
theorem State.collect_join (join : c.join = true) : ∃ fl, s.collect c root others b0 b1 =
    State.setHart (s.setCore (coreOf root) { s.core (coreOf root) with
      acc := accPut (s.core (coreOf root)).acc ((viewWords c.tile b0 b1).map fun i =>
        (i, (s.joined c root others i).1)) }) root ((s.hart root).orFlags fl) := by
  unfold State.collect
  rw [join]
  dsimp only
  simp only [if_true, List.map_map]
  exact ⟨_, rfl⟩

theorem State.pc_collect (hid : Nat) : ((s.collect c root others b0 b1).hart hid).pc = (s.hart hid).pc := by
  cases kind : c.join
  · rw [State.collect_split _ _ _ _ _ _ kind, State.hart_of_harts (State.spreadView_harts ..)]
  · obtain ⟨fl, e⟩ := s.collect_join c root others b0 b1 kind
    rw [e, State.hart_setHart]
    split
    · next same => rw [Hart.orFlags_pc, same]
    · rfl

/-! The members' views. -/

section
variable {t : TileRef} {r cl : Nat} (row : r < viewSize c.tile) (column : cl < viewSize c.tile)
  (once : ((root :: others).map coreOf).Nodup)
include row column once

/-- Every member has the root's view after a `msplit`. -/
theorem State.tile_collect_split (split : c.join = false) {hid : Nat} (member : hid ∈ root :: others) :
    ((s.collect c root others 0 (viewSize c.tile / 16)).core (coreOf hid)).tile c.tile r cl =
      (s.core (coreOf root)).tile c.tile r cl := by
  obtain ⟨fresh, once⟩ := List.nodup_cons.mp once
  rw [State.collect_split _ _ _ _ _ _ split]
  rcases List.mem_cons.mp member with rfl | other
  · rw [State.core_spreadView_other _ _ _ fresh]
  · rw [Core.tile, State.acc_spreadView _ _ _ once other, get_accPut_map, if_pos (viewWord_mem row column), Core.tile]

/-- The root has the sum after a `mjoin`, and the other members their own views. -/
theorem State.tile_collect_join (join : c.join = true) :
    ((s.collect c root others 0 (viewSize c.tile / 16)).core (coreOf root)).tile c.tile r cl =
      (s.joined c root others (viewWord c.tile r cl)).1 ∧
    ∀ hid ∈ others, (s.collect c root others 0 (viewSize c.tile / 16)).core (coreOf hid) = s.core (coreOf hid) := by
  obtain ⟨fresh, once⟩ := List.nodup_cons.mp once
  obtain ⟨fl, e⟩ := s.collect_join c root others 0 (viewSize c.tile / 16) join
  rw [e]
  refine ⟨?_, fun hid other => ?_⟩
  · rw [Core.tile, State.core_setHart, State.core_setCore_same, get_accPut_map, if_pos (viewWord_mem row column)]
  · have apart : coreOf hid ≠ coreOf root := fun same => fresh (same ▸ List.mem_map_of_mem other)
    rw [State.core_setHart, State.core_setCore, if_neg apart]

end

/-! The last arrival (R347). -/

variable {s c root} {rc : Collective} {l : List (Nat × Collective)}

/-- The hart's own arrival, and then every member's taken back, change arrivals alone. -/
theorem State.hart_clearColl_arrival (m : List (Nat × Collective)) (k : Option Collective) (hid : Nat) :
    ∃ d, ((s.setMe { s.me with coll := k }).clearColl m).hart hid = { s.hart hid with coll := d } := by
  obtain ⟨d, e⟩ := (s.setMe { s.me with coll := k }).hart_clearColl m hid
  refine ⟨d, ?_⟩
  rw [e, State.hart_setMe]
  split
  · next same => rw [same]; rfl
  · rfl

/-- The last member to arrive lets all proceed from the first block to the last. -/
theorem State.collective_of_last (alone : s.me.coll = none) (pause : s.drv.pause = none)
    (arrived : (s.setMe { s.me with coll := some c }).arrivedAll c.mask = some ((root, rc) :: l))
    (agree : ∀ x ∈ l, rc.agrees x.2 = true) (start : (s.hart root).resume.unit = 0) :
    s.collective c = (root :: l.map (·.1)).foldl (fun s hid => s.finishAt hid 8)
      (((s.setMe { s.me with coll := some c }).clearColl ((root, rc) :: l)).collect rc root (l.map (·.1)) 0
        (viewSize rc.tile / 16)) := by
  have self : rc.agrees rc = true := by simp [Collective.agrees]
  have all : (((root, rc) :: l).all fun m => rc.agrees m.2) = true := by
    rw [List.all_cons, self, Bool.true_and]
    exact List.all_eq_true.mpr agree
  obtain ⟨d, hart⟩ := State.hart_clearColl_arrival (s := s) ((root, rc) :: l) (some c) root
  have running : ((s.setMe { s.me with coll := some c }).clearColl ((root, rc) :: l)).drv.pause = none := by
    rw [State.clearColl_drv]; exact pause
  have unit : (((s.setMe { s.me with coll := some c }).clearColl ((root, rc) :: l)).hart root).resume.unit = 0 := by
    rw [hart]; exact start
  unfold State.collective
  dsimp only
  rw [alone]
  dsimp only [Option.isSome_none]
  rw [if_neg Bool.false_ne_true, arrived]
  dsimp only
  rw [if_pos all]
  show State.proceed ((s.setMe { s.me with coll := some c }).clearColl ((root, rc) :: l)) rc root (l.map (·.1)) = _
  unfold State.proceed
  dsimp only
  rw [running, unit]

end

/-- Settles O46: one member changes nothing; the last of several ends the collective for all of them. -/
theorem collectiveResults : Obligations.CollectiveResults := by
  unfold Obligations.CollectiveResults
  intro s t a b key m h owned calm task mask member
  obtain ⟨residue, -, pause, -⟩ := calm
  have issue (join : Bool) (typ : Word) (kind : typ.toNat < 2) : s.gangTile join t a typ =
      if m = 2 ^ h.member then completeV 8 (.ok s)
      else .next (s.collective
        { join, mask := m, tile := t, s32 := typ.toNat == 1, fctl := s.mreg mFctl, ir := s.drv.ir }) := by
    have shape : ¬ (!(decide ((s.getX a).toNat < 2 ^ (s.task key).gsz) && (s.getX a).toNat.testBit s.me.member &&
        decide (typ.toNat < 2))) = true := by
      rw [decide_eq_true mask, member, decide_eq_true kind]
      exact Bool.false_ne_true
    have sound : s.residue = .ok () := by
      rw [State.residue, residue]
      exact if_neg fun bad => Bool.false_ne_true bad.2
    unfold State.gangTile
    rw [owned, if_neg Bool.false_ne_true]
    dsimp only
    rw [task]
    dsimp only
    rw [if_neg shape, sound]
  refine ⟨fun single => ⟨?_, fun kind => ?_⟩, ?several⟩
  · have run := issue false 0 (by decide)
    rw [if_pos single] at run
    exact completeV_effects run rfl
  · have run := issue true (s.getX b) kind
    rw [if_pos single] at run
    exact completeV_effects run rfl
  case several =>
    intro several alone join s32 root rc l c all joins splits arrived rcJoin rcMask rcTile rcKind agree once start
    have last := State.collective_of_last alone pause arrived agree start
    have cores : ((s.setMe { s.me with coll := some c }).clearColl ((root, rc) :: l)).cores = s.cores :=
      State.clearColl_cores ..
    have harts := State.hart_clearColl_arrival (s := s) ((root, rc) :: l) (some c)
    generalize (s.setMe { s.me with coll := some c }).clearColl ((root, rc) :: l) = e at last cores harts
    have core : ∀ k, e.core k = s.core k := State.core_of_cores cores
    have nodup : all.Nodup := List.Nodup.of_map coreOf once
    have ended (k : Nat) : (s.collective c).core k =
        (e.collect rc root (l.map (·.1)) 0 (viewSize rc.tile / 16)).core k := by
      rw [last, State.core_of_cores (State.cores_finishAll ..)]
    refine ⟨s.collective c, ?_, fun hid member => ?_, fun r cl row column => ⟨fun split hid member => ?_,
      fun joined wrapping unbounded => ?_, fun joined x other => ?_⟩⟩
    · cases join with
      | true =>
        have kind : (s.getX b).toNat < 2 := by rw [joins rfl]; split <;> decide
        have typ : ((s.getX b).toNat == 1) = s32 := by rw [joins rfl]; cases s32 <;> rfl
        have run := issue true (s.getX b) kind
        rw [if_neg several, typ] at run
        exact run
      | false =>
        have run := issue false 0 (by decide)
        rw [if_neg several] at run
        cases splits rfl
        exact run
    · obtain ⟨d, hart⟩ := harts hid
      obtain ⟨pc, coll⟩ :=
        State.hart_finishAll (e.collect rc root (l.map (·.1)) 0 (viewSize rc.tile / 16)) nodup 8 member
      rw [last]
      refine ⟨pc.trans ?_, coll⟩
      rw [Hart.pcNext, State.pc_collect, hart]
      rfl
    · subst rcTile
      rw [ended, State.tile_collect_split e rc root _ row column once (rcJoin.trans split) member, core]
    · subst rcTile
      obtain ⟨sum, -⟩ := State.tile_collect_join e rc root _ row column once (rcJoin.trans joined)
      rw [ended, sum, State.joined, rcKind, wrapping, show bit rc.fctl 6 = false from unbounded, joinWord_wrapping, core,
        List.map_map]
      simp only [core]
      rfl
    · subst rcTile
      obtain ⟨-, kept⟩ := State.tile_collect_join e rc root _ row column once (rcJoin.trans joined)
      rw [ended, kept x.1 (List.mem_map_of_mem other), core]

end Sys2Proof.Machine

/-!
PROOFS. Task instructions: `tspawn`, `tsig`, `tdone`, `tkill` and `tyield` (R351 to R358).
-/
namespace Sys2Proof.Machine

/-! The checks of the family (R352, R353). -/

section
variable {s : State}

theorem State.notM_of_ne (level : s.me.level ≠ .m) : s.notM = .ok () := by
  rw [State.notM, bne_iff_ne.mpr level]
  rfl

theorem State.notM_of_eq (level : s.me.level = .m) : s.notM = .error s.illegal := by
  rw [State.notM, level]
  rfl

theorem State.taskRef_of_own {w : Word} (small : w.toNat < 2 ^ 22) (own : w.toNat / 65536 = s.mySlot) :
    s.taskRef w = .ok w.toNat := by
  rw [State.taskRef, need_bind (decide_eq_true small), need_bind (beq_iff_eq.mpr own)]

/-- A failed check is where the instruction ends. -/
theorem error_bind {α β : Type} (e : Stop) (f : α → Except Stop β) : (Except.error e >>= f) = .error e := rfl

/-! Each instruction, its checks passed. -/

theorem State.tspawn_of_passes {s1 : State} {a b : XR} {w : List Word} (level : s.me.level ≠ .m)
    (small : (s.getX b).toNat < 2 ^ 22) (own : (s.getX b).toNat / 65536 = s.mySlot)
    (aligned : (s.getX a).toNat % 2 ^ 55 % 64 = 0) (settled : s.settledAt .dev true = true)
    (turn : s.inTurn (armTurn (s.getX b).toNat) s.cur = true)
    (read : s.readDesc ((s.getX a).toNat % 2 ^ 55) 8 = .ok (s1, w)) (desc : s1.descOk w = true)
    (empty : (s1.task (s.getX b).toNat).st = .empty) :
    s.tspawn a b = .ok ((s1.bump.arm (s.getX b).toNat w (some (coreOf s.cur))).noteTurn (armTurn (s.getX b).toNat) s.cur) := by
  have ready : (s.settledAt .dev true && s.inTurn (armTurn (s.getX b).toNat) s.cur) = true := by rw [settled, turn]; rfl
  have free : ((s1.task (s.getX b).toNat).st == .empty) = true := by rw [empty]; rfl
  unfold State.tspawn
  rw [State.notM_of_ne level, ok_bind, State.taskRef_of_own small own, ok_bind]
  dsimp only
  rw [need_bind (beq_iff_eq.mpr aligned), need_bind ready, read, ok_bind]
  dsimp only
  rw [need_bind desc, need_bind free]

theorem State.tsig_of_passes {w : Word} {n : Nat} (level : s.me.level ≠ .m) (small : w.toNat < 2 ^ 22)
    (own : w.toNat / 65536 = s.mySlot) (some_count : 1 ≤ n) (count : n ≤ 65535) (settled : s.settledAt .dev true = true)
    {α : Type} (f : Nat → Except Stop α) :
    (do s.notM
        need (decide (w.toNat < 2 ^ 22) && decide (1 ≤ n) && decide (n ≤ 65535)) s.badShape
        let key ← s.taskRef w
        need (s.settledAt .dev true) (.wait s)
        f key) = f w.toNat := by
  have shape : (decide (w.toNat < 2 ^ 22) && decide (1 ≤ n) && decide (n ≤ 65535)) = true := by
    rw [decide_eq_true small, decide_eq_true some_count, decide_eq_true count]; rfl
  rw [State.notM_of_ne level, ok_bind, need_bind shape, State.taskRef_of_own small own, ok_bind, need_bind settled]

/-- The task that a `tkill` names. -/
theorem State.tkillRef_of_own {w : Word} (level : s.me.level ≠ .m) (small : w.toNat < 2 ^ 22)
    (own : w.toNat / 65536 = s.mySlot) : (do s.notM; s.taskRef w : Except Stop Nat) = .ok w.toNat := by
  rw [State.notM_of_ne level, ok_bind, State.taskRef_of_own small own]

end

/-- What a `tkill` does to the task that it names (R357). -/
def State.tkillOf (s : State) (key : Nat) : Host.Outcome State Fault Refusal :=
  let ends (s : State) := complete 4 (.ok (s.setMe { s.me with killing := none }))
  match s.me.killing with
  | some (k, done) => if k = key ∧ done then ends s else complete 4 (.error (.wait s))
  | none =>
    let killed := s.kill key (some (coreOf s.cur))
    if key == s.myTask then .next killed
    else if (killed.task key).dying.isSome then
      complete 4 (.error (.wait (killed.setMe { killed.me with killing := some (key, false) })))
    else ends killed

theorem exec_tkill {s : State} {a : XR} (level : s.me.level ≠ .m) (small : (s.getX a).toNat < 2 ^ 22)
    (own : (s.getX a).toNat / 65536 = s.mySlot) : exec (.tkill a) s = s.tkillOf (s.getX a).toNat := by
  show execTkill a s = _
  unfold execTkill
  rw [State.tkillRef_of_own level small own]
  rfl

/-- Settles O47: each instruction with its checks passed; at M all of them are ILLEGAL. -/
theorem taskResults : Obligations.TaskResults := by
  unfold Obligations.TaskResults
  refine ⟨?spawn, ?signal, ?yield, ?monitor⟩
  case spawn =>
    intro s s1 a b w key va level small own aligned settled turn read desc empty
    exact complete_effects rfl (State.tspawn_of_passes level small own aligned settled turn read desc empty)
  case signal =>
    intro s a b key n level small own
    refine ⟨fun some_count count settled => ?_, ?_⟩
    · exact complete_effects rfl (State.tsig_of_passes level small own some_count count settled fun key =>
        .ok (s.decrement key n (some (coreOf s.cur))))
    · intro killed mark
      rw [exec_tkill level small own]
      unfold State.tkillOf
      refine ⟨fun first => ?_, fun done => ?_, fun waiting => ?_⟩
      · rw [first]
        refine ⟨fun other stopped => ?_, fun other stopping => ?_, fun self => ?_⟩
        · dsimp only
          rw [beq_eq_false_iff_ne.mpr other, stopped]
          exact complete_goes _ 4
        · obtain ⟨k, dying⟩ := Option.ne_none_iff_exists'.mp stopping
          dsimp only
          rw [beq_eq_false_iff_ne.mpr other, dying]
          rfl
        · dsimp only
          rw [beq_iff_eq.mpr self]
          rfl
      · rw [done]
        dsimp only
        rw [if_pos ⟨rfl, rfl⟩]
        exact complete_goes _ 4
      · rw [waiting]
        dsimp only
        rw [if_neg fun ended => Bool.false_ne_true ended.2]
        rfl
  case yield =>
    intro s level q waits
    refine ⟨fun nobody => ?_, fun somebody => ?_, fun settled => ?_, fun pending => ?_⟩
    · show s.Effects (execTyield s) 4
      unfold execTyield
      rw [State.notM_of_ne level]
      dsimp only
      rw [show s.contender (dieOf s.cur) (s.task s.myTask).prio = none from nobody]
      exact complete_goes s 4
    · obtain ⟨other, waiting⟩ := Option.ne_none_iff_exists'.mp somebody
      show State.Effects _ (execTyield s) 4
      unfold execTyield
      rw [State.notM_of_ne level]
      dsimp only
      rw [show s.contender (dieOf s.cur) (s.task s.myTask).prio = some other from waiting]
      exact complete_goes _ 4
    · show execTdone s = _
      unfold execTdone
      rw [State.notM_of_ne level, ok_bind, settled]
      rfl
    · show execTdone s = _
      unfold execTdone
      rw [State.notM_of_ne level, ok_bind, pending]
      rfl
  case monitor =>
    intro s a b level bad
    have stops {α : Type} (f : Unit → Except Stop α) : (s.notM >>= f) = .error s.illegal := by
      rw [State.notM_of_eq level, error_bind]
    refine ⟨congrArg (complete 4) (stops _), congrArg (complete 4) (stops _), ?_, ?_, ?_, congrArg (complete 4) (stops _)⟩
    · show execTdone s = _
      unfold execTdone
      rw [stops]
      rfl
    · show execTkill a s = _
      unfold execTkill
      rw [stops]
      rfl
    · show execTyield s = _
      unfold execTyield
      rw [State.notM_of_eq level]
      rfl

end Sys2Proof.Machine

/-!
PROOFS. Turnstile instructions: `talloc`, `tst`, `tpost`, `tld` and `tdrop` (R366 to R373).
-/
namespace Sys2Proof.Machine

section
variable {s : State}

/-! `talloc` (R368). -/

/-- The checks of a `talloc` are passed. -/
structure State.AllocLegal (s : State) (a : XR) : Prop where
  level : s.me.level ≠ .m
  small : (s.getX a).toNat < 32
  on : partOn (s.tspart (dieOf s.cur) (s.getX a).toNat) = true
  own : partSlot (s.tspart (dieOf s.cur) (s.getX a).toNat) = s.mySlot
  quiet : s.posting = false

/-- Then a slot granted to the hart while it waited is its result; else one of partition p is, or the hart waits for one. -/
def State.tallocAt (s : State) (d : XR) (p : Nat) : Res :=
  let q := dieOf s.cur
  match s.ts.grants.find? fun g => g.1 == s.cur with
  | some g =>
    let e : State := { s with ts := { s.ts with grants := s.ts.grants.filter fun g => g.1 != s.cur } }
    .ok (e.setX d (BitVec.ofNat 64 g.2))
  | none =>
    let l := s.tsWaiters q p
    if s.ts.dead.contains s.cur then .error ((s.leaveTurnstile s.cur).deadlock p)
    else if l.any fun e => e.1 == s.cur then .error (.wait s)
    else match l, s.partSlots q p (fun t => t.st == .free && t.freed != s.clk + 1) with
      | [], i :: _ =>
        let h : Handle := { gen := (s.tslot (65536 * q + 2048 * p + i)).gen, die := q, part := p, slot := i }
        .ok ((s.grantSlot s.cur h s.clk).setX d (BitVec.ofNat 64 h.code))
      | _, _ =>
        if s.allMine q p then .error (s.deadlock p)
        else .error (.wait (s.setTsWaiters q p (joinQueue l s.cur s.clk)))

theorem State.talloc_of_legal {d a : XR} (legal : s.AllocLegal a) : s.talloc d a = s.tallocAt d (s.getX a).toNat := by
  obtain ⟨level, small, on, own, quiet⟩ := legal
  have shape : (decide ((s.getX a).toNat < 32) && partOn (s.tspart (dieOf s.cur) (s.getX a).toNat)) = true := by
    rw [decide_eq_true small, on]; rfl
  have free : (!s.posting) = true := by rw [quiet]; rfl
  unfold State.talloc
  dsimp only
  rw [State.notM_of_ne level, ok_bind, Nat.mod_eq_of_lt small, need_bind shape, need_bind (beq_iff_eq.mpr own),
    need_bind free]
  rfl

section
variable {d : XR} {p : Nat}

theorem State.tallocAt_of_granted {g : Nat × Nat} (granted : s.ts.grants.find? (fun g => g.1 == s.cur) = some g) :
    s.tallocAt d p = .ok (State.setX
      { s with ts := { s.ts with grants := s.ts.grants.filter fun g => g.1 != s.cur } } d (BitVec.ofNat 64 g.2)) := by
  unfold State.tallocAt
  dsimp only
  rw [granted]

variable (none_granted : s.ts.grants.find? (fun g => g.1 == s.cur) = none) (alive : s.ts.dead.contains s.cur = false)
  (nobody : s.tsWaiters (dieOf s.cur) p = [])
include none_granted alive nobody

theorem State.tallocAt_of_free {i : Nat} {rest : List Nat}
    (free : s.partSlots (dieOf s.cur) p (fun t => t.st == .free && t.freed != s.clk + 1) = i :: rest) :
    let h : Handle :=
      { gen := (s.tslot (65536 * dieOf s.cur + 2048 * p + i)).gen, die := dieOf s.cur, part := p, slot := i }
    s.tallocAt d p = .ok ((s.grantSlot s.cur h s.clk).setX d (BitVec.ofNat 64 h.code)) := by
  unfold State.tallocAt
  dsimp only
  rw [none_granted]
  dsimp only
  rw [alive, nobody, free]
  rfl

theorem State.tallocAt_of_full
    (full : s.partSlots (dieOf s.cur) p (fun t => t.st == .free && t.freed != s.clk + 1) = []) :
    s.tallocAt d p = .error (if s.allMine (dieOf s.cur) p then s.deadlock p
      else .wait (s.setTsWaiters (dieOf s.cur) p [(s.cur, s.clk)])) := by
  unfold State.tallocAt
  dsimp only
  rw [none_granted]
  dsimp only
  rw [alive, nobody, full]
  cases s.allMine (dieOf s.cur) p <;> rfl

end

/-! `tst` and `tpost` (R369, R370). -/

theorem State.tst_of_legal {v : VR} {a : XR} {h : Handle} (level : s.me.level ≠ .m) (handle : s.handleOf a = .ok h)
    (quiet : s.posting = false) (ordinary : (s.me.tagOf v).ordinary = true)
    (group : (groupOf (s.me.tagOf v) s.me.ew v).isSome = true)
    (fits : s.me.vl * ((s.me.tagOf v).width / 8) ≤ partSize (s.tspart h.die h.part)) (mine : s.mineAlloc h = true)
    (filled : s.me.vl = 0 ∨ s.me.spilled = []) (words : s.wordsSound) :
    let b := (s.me.tagOf v).width / 8
    let ws : List Piece := (List.range s.me.vl).map fun i =>
      { p := ⟨s.tileKey h (i * b), 0, .wb⟩, n := b, val := s.me.elem v i, va := 0 }
    let e := s.bump.bufferAll s.cur s.drv.nextId ws none none false
    (∀ w ∈ ws, s.olderHeld s.cur s.drv.nextId w.p.key w.n = false) →
    s.tst v a = .ok (e.setTslot h.key { e.tslot h.key with tag := s.me.tagOf v, n := s.me.vl }) := by
  intro b ws e clear
  have shape : ((groupOf (s.me.tagOf v) s.me.ew v).isSome &&
      decide (s.me.vl * ((s.me.tagOf v).width / 8) ≤ partSize (s.tspart h.die h.part))) = true := by
    rw [group, decide_eq_true fits]; rfl
  have free : (!s.posting) = true := by rw [quiet]; rfl
  have sound : (!((List.range s.me.vl).any fun i => s.elemBad v (s.me.tagOf v) i)) = true := by
    rw [Bool.not_eq_true', List.any_eq_false]
    exact fun i hi => Bool.eq_false_iff.mp (words _ _ _ (List.mem_range.mp hi))
  have unheld : (!(ws.any fun w => s.olderHeld s.cur s.drv.nextId w.p.key w.n)) = true := by
    rw [Bool.not_eq_true', List.any_eq_false]
    exact fun w hw => Bool.eq_false_iff.mp (clear w hw)
  unfold State.tst
  rw [State.notM_of_ne level, ok_bind, handle, ok_bind]
  dsimp only
  rw [need_bind ordinary, need_bind shape, need_bind free, need_bind mine, State.fillGroups_of_calm filled, ok_bind,
    need_bind sound]
  exact need_bind unheld ..

/-- A `tpost` of n reads at a handle that is well formed: it publishes now, or waits beside the bag. -/
def State.tpostAt (s : State) (h : Handle) (n : Nat) : Res := do
  need (s.mineAlloc h) (s.stale h)
  if s.settledAt .dev false && !s.drv.hold then .ok (s.publish h n (some s.mySlot))
  else
    let m := s.hmem s.cur
    .ok (s.setHmem s.cur { m with
      posts := m.posts ++ [⟨⟨s.drv.nextId, false, .dev, false, m.obs⟩, h.code, n⟩] }).bump

theorem exec_tpost {a b : XR} {h : Handle} (level : s.me.level ≠ .m) (handle : s.handleOf a = .ok h)
    (quiet : s.posting = false) (some_read : 1 ≤ (s.getX b).toNat) (reads : (s.getX b).toNat ≤ 65535) :
    exec (.tpost a b) s = complete 4 (s.tpostAt h (s.getX b).toNat) := by
  have shape : (decide (1 ≤ (s.getX b).toNat) && decide ((s.getX b).toNat ≤ 65535)) = true := by
    rw [decide_eq_true some_read, decide_eq_true reads]; rfl
  have free : (!s.posting) = true := by rw [quiet]; rfl
  show execTpost a b s = _
  unfold execTpost
  rw [State.notM_of_ne level, ok_bind, handle, ok_bind, need_bind shape, need_bind free]
  rfl

/-! `tld` and `tdrop` (R371, R372). -/

/-- What a `tld` and a `tdrop` do at a slot that they may look at. -/
def State.tldAt (s : State) (d : VR) (h : Handle) : Res := do
  let t ← s.published h
  let r := s.me
  need (r.vl == 0 || (groupOf t.tag r.ew d).isSome) s.badShape
  let (s, e) ← s.owedCheck h t.seq
  let s ← s.fillGroups [(d, t.tag)]
  let r := s.me
  let b := t.tag.width / 8
  let n := min r.vl t.n
  need (!s.isBad (s.tileKey h 0) (n * b) || n == 0)
    (.trap { Trap.at0 .dataerr 1 h.code with old := r.resume.pending } s)
  let new := (List.range r.vl).map fun i => (i, if i < n then s.tileElem h b i else 0)
  .ok ((s.setMe (r.whole d t.tag new 0)).owedTake h e false)

def State.tdropAt (s : State) (h : Handle) : Res := do
  let t ← s.published h
  let (s, e) ← s.owedCheck h t.seq
  .ok (s.owedTake h e true)

section
variable {a : XR} {h : Handle} (level : s.me.level ≠ .m) (handle : s.handleOf a = .ok h) (quiet : s.posting = false)
include level handle quiet

theorem exec_tld (d : VR) : exec (.tld d a) s = complete 4 (s.tldAt d h) := by
  have free : (!s.posting) = true := by rw [quiet]; rfl
  show complete 4 (s.tld d a) = _
  unfold State.tld
  rw [State.notM_of_ne level, ok_bind, handle, ok_bind, need_bind free]
  rfl

theorem exec_tdrop : exec (.tdrop a) s = complete 4 (s.tdropAt h) := by
  have free : (!s.posting) = true := by rw [quiet]; rfl
  show execTdrop a s = _
  unfold execTdrop
  rw [State.notM_of_ne level, ok_bind, handle, ok_bind, need_bind free]
  rfl

end

theorem State.published_of_stale {h : Handle} (stale : (s.tslot h.key).gen ≠ h.gen) :
    s.published h = .error (s.stale h) :=
  if_pos stale

theorem State.published_of_published {h : Handle} (gen : (s.tslot h.key).gen = h.gen)
    (st : (s.tslot h.key).st = .published) : s.published h = .ok (s.tslot h.key) := by
  unfold State.published
  dsimp only
  rw [if_neg (not_not.mpr gen), st]

/-- A tile read whole lands in its register, whose flags stay. -/
theorem Hart.whole_tile (h : Hart) (d : VR) (t : Tag) (f : Nat → Nat) :
    h.whole d t ((List.range h.vl).map fun i => (i, f i)) 0 =
      if h.vl = 0 then h else h.land d t (List.range h.vl) ((List.range h.vl).map fun i => (i, f i)) := by
  have places : ((List.range h.vl).map fun i => (i, f i)).map (·.1) = List.range h.vl := by
    rw [List.map_map]
    exact List.map_id _
  rw [Hart.whole, places]
  rfl

/-- A published tile is read into the register where its group is legal and its words are sound. -/
theorem State.tldAt_of_published {s1 : State} {d : VR} {h : Handle} {e : Option (Nat × Word)}
    (gen : (s.tslot h.key).gen = h.gen) (st : (s.tslot h.key).st = .published)
    (owed : s.owedCheck h (s.tslot h.key).seq = .ok (s1, e)) (me : s1.me = s.me)
    (legal : s.me.vl = 0 ∨ (groupOf (s.tslot h.key).tag s.me.ew d).isSome = true ∧ s.me.spilled = []) :
    let t := s.tslot h.key
    let r := s1.me
    let b := t.tag.width / 8
    let n := min r.vl t.n
    (s1.isBad (s1.tileKey h 0) (n * b) = false ∨ n = 0) →
    s.tldAt d h = .ok ((s1.setMe (r.whole d t.tag
      ((List.range r.vl).map fun i => (i, if i < n then s1.tileElem h b i else 0)) 0)).owedTake h e false) := by
  intro t r b n sound
  have shape : (s.me.vl == 0 || (groupOf (s.tslot h.key).tag s.me.ew d).isSome) = true := by
    rcases legal with empty | ⟨group, -⟩
    · rw [beq_iff_eq.mpr empty]; rfl
    · rw [group, Bool.or_true]
  have filled : s1.me.vl = 0 ∨ s1.me.spilled = [] := by rw [me]; exact legal.imp_right And.right
  have words : (!s1.isBad (s1.tileKey h 0) (n * b) || n == 0) = true := by
    rcases sound with good | empty
    · rw [good]; rfl
    · rw [beq_iff_eq.mpr empty, Bool.or_true]
  unfold State.tldAt
  rw [State.published_of_published gen st, ok_bind]
  dsimp only
  rw [need_bind shape, owed, ok_bind]
  dsimp only
  rw [State.fillGroups_of_calm filled, ok_bind]
  exact need_bind words ..

theorem State.tdropAt_of_published {s1 : State} {h : Handle} {e : Option (Nat × Word)}
    (gen : (s.tslot h.key).gen = h.gen) (st : (s.tslot h.key).st = .published)
    (owed : s.owedCheck h (s.tslot h.key).seq = .ok (s1, e)) : s.tdropAt h = .ok (s1.owedTake h e true) := by
  unfold State.tdropAt
  rw [State.published_of_published gen st, ok_bind, owed, ok_bind]

end

/-- Settles O49: each instruction with its checks passed; a handle of an older generation is stale. -/
theorem turnstileResults : Obligations.TurnstileResults := by
  unfold Obligations.TurnstileResults
  refine ⟨?alloc, ?write, ?read⟩
  case alloc =>
    intro s d a i rest g q p part level small on own quiet
    have run : exec (.talloc d a) s = complete 4 (s.tallocAt d p) :=
      congrArg (complete 4) (State.talloc_of_legal ⟨level, small, on, own, quiet⟩)
    rw [run]
    refine ⟨fun granted => ?_, fun none_granted alive nobody free => ?_, fun none_granted alive nobody full => ?_⟩
    · rw [State.tallocAt_of_granted granted]
      exact complete_setMe_goes _ 4 (Hart.setX_task ..) (Hart.setX_pc ..)
    · rw [State.tallocAt_of_free none_granted alive nobody free]
      exact complete_setMe_goes _ 4 (Hart.setX_task ..) (Hart.setX_pc ..)
    · rw [State.tallocAt_of_full none_granted alive nobody full]
      refine ⟨fun mine => ?_, fun others => ?_⟩
      · rw [if_pos mine]
        rfl
      · rw [if_neg (Bool.eq_false_iff.mp others)]
        rfl
  case write =>
    intro s v a b h r t bt ino n ws e level handle quiet
    refine ⟨fun ordinary group fits mine filled words clear => ?_, fun some_read reads mine => ⟨?_, ?_⟩,
      fun some_read reads others => ?_⟩
    · exact complete_effects rfl (State.tst_of_legal level handle quiet ordinary group fits mine filled words clear)
    · intro settled loose
      have now : (s.settledAt .dev false && !s.drv.hold) = true := by rw [settled, loose]; rfl
      refine complete_effects (exec_tpost level handle quiet some_read reads) ?_
      rw [State.tpostAt, need_bind mine, if_pos now]
    · intro pending
      have later : ¬ (s.settledAt .dev false && !s.drv.hold) = true := by
        rcases pending with unsettled | held
        · rw [unsettled]; exact Bool.false_ne_true
        · rw [held, Bool.not_true, Bool.and_false]; exact Bool.false_ne_true
      refine complete_effects (exec_tpost level handle quiet some_read reads) ?_
      rw [State.tpostAt, need_bind mine, if_neg later]
    · rw [exec_tpost level handle quiet some_read reads, State.tpostAt, need, others]
      rfl
  case read =>
    intro s s1 d a h t e level handle quiet slot
    subst slot
    refine ⟨fun old => ⟨?_, ?_⟩, fun gen st owed => ⟨?_, fun me legal sound => ?_⟩⟩
    · rw [exec_tld level handle quiet, State.tldAt, State.published_of_stale old]
      rfl
    · rw [exec_tdrop level handle quiet, State.tdropAt, State.published_of_stale old]
      rfl
    · exact complete_effects (exec_tdrop level handle quiet) (State.tdropAt_of_published gen st owed)
    · have read := State.tldAt_of_published gen st owed me (by rw [← me]; exact legal) sound
      rw [Hart.whole_tile] at read
      exact complete_effects (exec_tld level handle quiet d) read

end Sys2Proof.Machine
